-- ==== Sys2Proof/Word.lean ====
section
/-! DEFINITION. The fixed-width words of the part (R5, R27): types only. Every operation on them stands in Sys2Proof/Machine/. -/

namespace Sys2Proof

/-- One byte. -/
abbrev Byte := BitVec 8

/-- A 32-bit word: one lane of a vector register, a mask register, an event counter. -/
abbrev Word := BitVec 32

/-- A 64-bit word: a scalar register, an address, a clause header, an instruction word. -/
abbrev DWord := BitVec 64

/-- A set of lanes of one cohort or ladle: bit L stands for lane L (R64). -/
abbrev LaneSet := BitVec 32

end Sys2Proof
end

