-- ==== Sys2Proof/Syntax.lean ====
section
/-! DEFINITION. The instruction set and the events of the part, whole: one constructor of `Instr` per row of
spec/opcode_table.json: the words in its order, then the events that writes of the register window are, then the other events. Compute
words carry their common prefix (R162) and the fields of their format (R164, R166, R167, R168, R170); the host words carry the three
register fields of R266; the events carry what they act on. -/

namespace Sys2Proof

/-- Privilege levels, lowest first (R306). -/
inductive Level where
  | u | s | h | f
deriving DecidableEq, Repr

/-- The fields every compute word has beside its opcode (R162). -/
structure Pfx where
  stall : BitVec 3
  pred  : BitVec 4
  neg   : Bool
deriving DecidableEq, Repr

/-- Format R (R164). -/
structure FmtR where
  d   : BitVec 8
  a   : BitVec 8
  b   : BitVec 8
  c   : BitVec 8
  rel : BitVec 2
  ty  : BitVec 5
  rnd : BitVec 2
  sat : Bool
  ftz : Bool
  sub : BitVec 3
deriving DecidableEq, Repr

/-- Format I (R166). -/
structure FmtI where
  d   : BitVec 8
  a   : BitVec 8
  imm : BitVec 30
deriving DecidableEq, Repr

/-- Format B (R167). -/
structure FmtB where
  d   : BitVec 8
  a   : BitVec 8
  ofs : BitVec 30
deriving DecidableEq, Repr

/-- Format M (R168). -/
structure FmtM where
  d     : BitVec 8
  am    : BitVec 2
  sb    : BitVec 6
  b     : BitVec 8
  c     : BitVec 8
  ord   : BitVec 2
  scope : BitVec 3
  mtype : BitVec 4
  sc    : Bool
  flag  : BitVec 4
deriving DecidableEq, Repr

/-- Format E (R170). -/
structure FmtE where
  d     : BitVec 8
  a     : BitVec 8
  b     : BitVec 8
  c     : BitVec 8
  scope : BitVec 3
  opt   : BitVec 7
  flag  : BitVec 4
deriving DecidableEq, Repr

/-- Who writes the hub register window or a register of it: the level it acts at and its guest (R306, R310, R433). -/
structure Writer where
  level : Level
  vmid  : BitVec 8
deriving DecidableEq, Repr

/-- The queues of records that a manager writes: a guest's fault queue, the hypervisor's fault queue, a context's trap queue, the
trap queue of H, and the completion ring of a hardware queue (R263, R309, R330, R361, R370). -/
inductive RecQueue where
  | guestFault (vmid : Nat)
  | hypFault
  | trap (ctx : Nat)
  | hypTrap
  | completion (q : Nat)
deriving DecidableEq, Repr

/-- The ordinary RISC-V accesses of a host hart, and its fence (R141, R431). -/
inductive HostOp where
  | fence | load | store | lr | sc | amoswap | amoadd | amoxor | amoand | amoor | amomin | amomax | amominu | amomaxu
deriving DecidableEq, Repr

/-- The modes of a host hart (R307). -/
inductive HostMode where
  | m | hs | vs | u | vu
deriving DecidableEq, Repr

/-- Where the result of a host load goes: an integer or a float register, or a bit of the vector registers; there with the fields of a segment
and whether an exception past the first element ends the load (fault-only-first). -/
inductive HostDst where
  | x
  | f
  | v (bit fields : Nat) (trim : Bool)
deriving DecidableEq, Repr

/-- One ordinary access of a host hart: `size` is the log2 of its bytes, `rd` the register a result goes to, `zext` whether a
narrow load is zero-extended, `aq` and `rl` its order (R141), `len` the bytes of its instruction, by which the pc moves on (0 in an event:
log entry 24), `dst` the kind of its register, `view` the mode that it is made in place of the hart's own, and `ex` whether it needs X in
place of R (the hypervisor's loads). -/
structure HostAcc where
  op   : HostOp
  va   : DWord
  size : BitVec 2
  zext : Bool
  val  : DWord
  rd   : BitVec 5
  aq   : Bool := false
  rl   : Bool := false
  len  : Nat := 0
  dst  : HostDst := .x
  view : Option HostMode := none
  ex   : Bool := false
deriving DecidableEq, Repr

/-- An inbound memory request at a port (R436): a guest-physical access, or an access to BAR0. -/
structure Inbound where
  port  : Nat
  bar0  : Bool
  write : Bool
  addr  : DWord
  len   : Nat
  data  : List Byte
deriving DecidableEq, Repr

/-- Every row of the opcode table. -/
inductive Instr where
  /-- SMOV (R202). -/
  | smov (h : Pfx) (r : FmtR)
  /-- SMOVI (R202). -/
  | smovi (h : Pfx) (r : FmtI)
  /-- SADD (R202). -/
  | sadd (h : Pfx) (r : FmtR)
  /-- SADDI (R202). -/
  | saddi (h : Pfx) (r : FmtI)
  /-- SSUB (R202). -/
  | ssub (h : Pfx) (r : FmtR)
  /-- SMUL (R202). -/
  | smul (h : Pfx) (r : FmtR)
  /-- SMULH (R202). -/
  | smulh (h : Pfx) (r : FmtR)
  /-- SDIV (R203). -/
  | sdiv (h : Pfx) (r : FmtR)
  /-- SREM (R203). -/
  | srem (h : Pfx) (r : FmtR)
  /-- SAND (R202). -/
  | sand (h : Pfx) (r : FmtR)
  /-- SOR (R202). -/
  | sor (h : Pfx) (r : FmtR)
  /-- SXOR (R202). -/
  | sxor (h : Pfx) (r : FmtR)
  /-- SSHL (R204). -/
  | sshl (h : Pfx) (r : FmtR)
  /-- SSHR (R204). -/
  | sshr (h : Pfx) (r : FmtR)
  /-- SSRA (R204). -/
  | ssra (h : Pfx) (r : FmtR)
  /-- SMIN (R202). -/
  | smin (h : Pfx) (r : FmtR)
  /-- SMAX (R202). -/
  | smax (h : Pfx) (r : FmtR)
  /-- SCMP (R202). -/
  | scmp (h : Pfx) (r : FmtR)
  /-- SSEL (R202). -/
  | ssel (h : Pfx) (r : FmtR)
  /-- SLEA (R202). -/
  | slea (h : Pfx) (r : FmtR)
  /-- SBFE (R205). -/
  | sbfe (h : Pfx) (r : FmtR)
  /-- SBFI (R205). -/
  | sbfi (h : Pfx) (r : FmtR)
  /-- SPOPC (R202). -/
  | spopc (h : Pfx) (r : FmtR)
  /-- SCLZ (R202). -/
  | sclz (h : Pfx) (r : FmtR)
  /-- MOVSR (R206). -/
  | movsr (h : Pfx) (r : FmtR)
  /-- MOVRS (R206). -/
  | movrs (h : Pfx) (r : FmtR)
  /-- KMOV_K (R207). -/
  | kmovK (h : Pfx) (r : FmtR)
  /-- KMOV_FROM_S (R207). -/
  | kmovFromS (h : Pfx) (r : FmtR)
  /-- KMOV_TO_S (R207). -/
  | kmovToS (h : Pfx) (r : FmtR)
  /-- KAND (R207). -/
  | kand (h : Pfx) (r : FmtR)
  /-- KOR (R207). -/
  | kor (h : Pfx) (r : FmtR)
  /-- KXOR (R207). -/
  | kxor (h : Pfx) (r : FmtR)
  /-- KNOT (R207). -/
  | knot (h : Pfx) (r : FmtR)
  /-- KPOPC (R207). -/
  | kpopc (h : Pfx) (r : FmtR)
  /-- KFFS (R207). -/
  | kffs (h : Pfx) (r : FmtR)
  /-- KSET (R207). -/
  | kset (h : Pfx) (r : FmtI)
  /-- NOP (R215). -/
  | nop (h : Pfx) (r : FmtR)
  /-- BRA (R209). -/
  | bra (h : Pfx) (r : FmtB)
  /-- BRC (R209). -/
  | brc (h : Pfx) (r : FmtB)
  /-- BRL (R209). -/
  | brl (h : Pfx) (r : FmtB)
  /-- JMP_S (R209). -/
  | jmpS (h : Pfx) (r : FmtR)
  /-- JMP_V (R209). -/
  | jmpV (h : Pfx) (r : FmtR)
  /-- CALL (R210). -/
  | call (h : Pfx) (r : FmtB)
  /-- RET (R210). -/
  | ret (h : Pfx) (r : FmtR)
  /-- RECONV (R211). -/
  | reconv (h : Pfx) (r : FmtR)
  /-- EXIT (R212). -/
  | exit (h : Pfx) (r : FmtR)
  /-- YIELD (R213). -/
  | yield (h : Pfx) (r : FmtR)
  /-- TRAP (R214). -/
  | trap (h : Pfx) (r : FmtI)
  /-- BRK (R214). -/
  | brk (h : Pfx) (r : FmtI)
  /-- VMOV (R220). -/
  | vmov (h : Pfx) (r : FmtR)
  /-- VMOVI (R223). -/
  | vmovi (h : Pfx) (r : FmtI)
  /-- VADD (R220). -/
  | vadd (h : Pfx) (r : FmtR)
  /-- VSUB (R220). -/
  | vsub (h : Pfx) (r : FmtR)
  /-- VMUL (R220). -/
  | vmul (h : Pfx) (r : FmtR)
  /-- VMULH (R220). -/
  | vmulh (h : Pfx) (r : FmtR)
  /-- VMAD (R220). -/
  | vmad (h : Pfx) (r : FmtR)
  /-- VMIN (R220). -/
  | vmin (h : Pfx) (r : FmtR)
  /-- VMAX (R220). -/
  | vmax (h : Pfx) (r : FmtR)
  /-- VABS (R220). -/
  | vabs (h : Pfx) (r : FmtR)
  /-- VNEG (R220). -/
  | vneg (h : Pfx) (r : FmtR)
  /-- VAND (R220). -/
  | vand (h : Pfx) (r : FmtR)
  /-- VOR (R220). -/
  | vor (h : Pfx) (r : FmtR)
  /-- VXOR (R220). -/
  | vxor (h : Pfx) (r : FmtR)
  /-- VNOT (R220). -/
  | vnot (h : Pfx) (r : FmtR)
  /-- VSHL (R221). -/
  | vshl (h : Pfx) (r : FmtR)
  /-- VSHR (R221). -/
  | vshr (h : Pfx) (r : FmtR)
  /-- VSRA (R221). -/
  | vsra (h : Pfx) (r : FmtR)
  /-- VROT (R220). -/
  | vrot (h : Pfx) (r : FmtR)
  /-- VBFE (R221). -/
  | vbfe (h : Pfx) (r : FmtR)
  /-- VBFI (R221). -/
  | vbfi (h : Pfx) (r : FmtR)
  /-- VPOPC (R220). -/
  | vpopc (h : Pfx) (r : FmtR)
  /-- VCLZ (R220). -/
  | vclz (h : Pfx) (r : FmtR)
  /-- VBREV (R220). -/
  | vbrev (h : Pfx) (r : FmtR)
  /-- VCMP (R222). -/
  | vcmp (h : Pfx) (r : FmtR)
  /-- VSEL (R220). -/
  | vsel (h : Pfx) (r : FmtR)
  /-- VADDC (R222). -/
  | vaddc (h : Pfx) (r : FmtR)
  /-- VDOT4 (R223). -/
  | vdot4 (h : Pfx) (r : FmtR)
  /-- VIDX (R223). -/
  | vidx (h : Pfx) (r : FmtR)
  /-- VFADD (R224). -/
  | vfadd (h : Pfx) (r : FmtR)
  /-- VFSUB (R224). -/
  | vfsub (h : Pfx) (r : FmtR)
  /-- VFMUL (R224). -/
  | vfmul (h : Pfx) (r : FmtR)
  /-- VFMA (R224). -/
  | vfma (h : Pfx) (r : FmtR)
  /-- VFMIN (R224). -/
  | vfmin (h : Pfx) (r : FmtR)
  /-- VFMAX (R224). -/
  | vfmax (h : Pfx) (r : FmtR)
  /-- VFCMP (R225). -/
  | vfcmp (h : Pfx) (r : FmtR)
  /-- VFCLASS (R225). -/
  | vfclass (h : Pfx) (r : FmtR)
  /-- VFRND (R224). -/
  | vfrnd (h : Pfx) (r : FmtR)
  /-- VFDIV (R224). -/
  | vfdiv (h : Pfx) (r : FmtR)
  /-- VFSQRT (R224). -/
  | vfsqrt (h : Pfx) (r : FmtR)
  /-- VFRCP (R226). -/
  | vfrcp (h : Pfx) (r : FmtR)
  /-- VFRSQ (R226). -/
  | vfrsq (h : Pfx) (r : FmtR)
  /-- VFEXP2 (R226). -/
  | vfexp2 (h : Pfx) (r : FmtR)
  /-- VFLOG2 (R226). -/
  | vflog2 (h : Pfx) (r : FmtR)
  /-- VFSIN (R226). -/
  | vfsin (h : Pfx) (r : FmtR)
  /-- VFCOS (R226). -/
  | vfcos (h : Pfx) (r : FmtR)
  /-- VFTANH (R226). -/
  | vftanh (h : Pfx) (r : FmtR)
  /-- VFSCALE (R224). -/
  | vfscale (h : Pfx) (r : FmtR)
  /-- VFDOT2 (R224). -/
  | vfdot2 (h : Pfx) (r : FmtR)
  /-- VCVT (R227). -/
  | vcvt (h : Pfx) (r : FmtR)
  /-- VPACK8 (R228). -/
  | vpack8 (h : Pfx) (r : FmtR)
  /-- VUNPK8 (R228). -/
  | vunpk8 (h : Pfx) (r : FmtR)
  /-- VQUANT (R230). -/
  | vquant (h : Pfx) (r : FmtR)
  /-- VDEQ (R231). -/
  | vdeq (h : Pfx) (r : FmtR)
  /-- VBSCALE (R229). -/
  | vbscale (h : Pfx) (r : FmtR)
  /-- VSHFL (R233). -/
  | vshfl (h : Pfx) (r : FmtR)
  /-- VSHUP (R233). -/
  | vshup (h : Pfx) (r : FmtR)
  /-- VSHDN (R233). -/
  | vshdn (h : Pfx) (r : FmtR)
  /-- VSHXR (R233). -/
  | vshxr (h : Pfx) (r : FmtR)
  /-- VBCAST (R233). -/
  | vbcast (h : Pfx) (r : FmtR)
  /-- V2S (R234). -/
  | v2s (h : Pfx) (r : FmtR)
  /-- S2V (R234). -/
  | s2v (h : Pfx) (r : FmtR)
  /-- VRED (R236). -/
  | vred (h : Pfx) (r : FmtR)
  /-- VSCAN (R236). -/
  | vscan (h : Pfx) (r : FmtR)
  /-- VVOTE (R234). -/
  | vvote (h : Pfx) (r : FmtR)
  /-- VMATCH (R234). -/
  | vmatch (h : Pfx) (r : FmtR)
  /-- VCOMP (R235). -/
  | vcomp (h : Pfx) (r : FmtR)
  /-- VEXPD (R235). -/
  | vexpd (h : Pfx) (r : FmtR)
  /-- LD (R241). -/
  | ld (h : Pfx) (r : FmtM)
  /-- ST (R241). -/
  | st (h : Pfx) (r : FmtM)
  /-- LDS (R242). -/
  | lds (h : Pfx) (r : FmtM)
  /-- STS (R242). -/
  | sts (h : Pfx) (r : FmtM)
  /-- LDL (R242). -/
  | ldl (h : Pfx) (r : FmtM)
  /-- STL (R242). -/
  | stl (h : Pfx) (r : FmtM)
  /-- PFH (R244). -/
  | pfh (h : Pfx) (r : FmtM)
  /-- ATOM (R246). -/
  | atom (h : Pfx) (r : FmtM)
  /-- ACAS (R247). -/
  | acas (h : Pfx) (r : FmtM)
  /-- RED (R248). -/
  | red (h : Pfx) (r : FmtM)
  /-- FENCE (R249). -/
  | fence (h : Pfx) (r : FmtM)
  /-- FLUSHR (R250). -/
  | flushr (h : Pfx) (r : FmtM)
  /-- INVR (R250). -/
  | invr (h : Pfx) (r : FmtM)
  /-- BAR (R252). -/
  | bar (h : Pfx) (r : FmtM)
  /-- BARA (R254). -/
  | bara (h : Pfx) (r : FmtM)
  /-- BARW (R254). -/
  | barw (h : Pfx) (r : FmtM)
  /-- WAITVA (R260). -/
  | waitva (h : Pfx) (r : FmtM)
  /-- WAKEVA (R261). -/
  | wakeva (h : Pfx) (r : FmtM)
  /-- ECSET (R256). -/
  | ecset (h : Pfx) (r : FmtM)
  /-- ECADD (R256). -/
  | ecadd (h : Pfx) (r : FmtM)
  /-- ECWAIT (R257). -/
  | ecwait (h : Pfx) (r : FmtM)
  /-- ECQ (R256). -/
  | ecq (h : Pfx) (r : FmtM)
  /-- FWAIT (R258). -/
  | fwait (h : Pfx) (r : FmtM)
  /-- PIN (R264). -/
  | pin (h : Pfx) (r : FmtM)
  /-- UNPIN (R264). -/
  | unpin (h : Pfx) (r : FmtM)
  /-- HINT (R264). -/
  | hint (h : Pfx) (r : FmtM)
  /-- TIERQ (R265). -/
  | tierq (h : Pfx) (r : FmtM)
  /-- LDSH (R273). -/
  | ldsh (h : Pfx) (r : FmtE)
  /-- EVSH (R273). -/
  | evsh (h : Pfx) (r : FmtE)
  /-- SHSET (R273). -/
  | shset (h : Pfx) (r : FmtE)
  /-- SHGET (R273). -/
  | shget (h : Pfx) (r : FmtE)
  /-- CBLD (R274). -/
  | cbld (h : Pfx) (r : FmtE)
  /-- CPY (R275). -/
  | cpy (h : Pfx) (r : FmtE)
  /-- CPYG (R275). -/
  | cpyg (h : Pfx) (r : FmtE)
  /-- RDH (R278). -/
  | rdh (h : Pfx) (r : FmtE)
  /-- RDHG (R278). -/
  | rdhg (h : Pfx) (r : FmtE)
  /-- LEND (R284). -/
  | lend (h : Pfx) (r : FmtE)
  /-- LEND_STOP (R284). -/
  | lendStop (h : Pfx) (r : FmtE)
  /-- SUB (R285). -/
  | sub (h : Pfx) (r : FmtE)
  /-- UNSUB (R286). -/
  | unsub (h : Pfx) (r : FmtE)
  /-- SUBQ (R286). -/
  | subq (h : Pfx) (r : FmtE)
  /-- PUBFL (R286). -/
  | pubfl (h : Pfx) (r : FmtE)
  /-- MMA (R288). -/
  | mma (h : Pfx) (r : FmtE)
  /-- MMZ (R290). -/
  | mmz (h : Pfx) (r : FmtE)
  /-- ACCLD (R290). -/
  | accld (h : Pfx) (r : FmtE)
  /-- ACCST (R291). -/
  | accst (h : Pfx) (r : FmtE)
  /-- ACCRD (R290). -/
  | accrd (h : Pfx) (r : FmtE)
  /-- ACCWR (R290). -/
  | accwr (h : Pfx) (r : FmtE)
  /-- PUSH (R292). -/
  | push (h : Pfx) (r : FmtE)
  /-- QFENCE (R293). -/
  | qfence (h : Pfx) (r : FmtE)
  /-- SYSC (R316). -/
  | sysc (h : Pfx) (r : FmtE)
  /-- MOVPR (R313). -/
  | movpr (h : Pfx) (r : FmtR)
  /-- MOVRP (R313). -/
  | movrp (h : Pfx) (r : FmtR)
  /-- TLBI_ASID (R317). -/
  | tlbiAsid (h : Pfx) (r : FmtE)
  /-- TLBI_VM (R317). -/
  | tlbiVm (h : Pfx) (r : FmtE)
  /-- TLBI_S2 (R317). -/
  | tlbiS2 (h : Pfx) (r : FmtE)
  /-- TLBI_ALL (R317). -/
  | tlbiAll (h : Pfx) (r : FmtE)
  /-- TLBIR (R317). -/
  | tlbir (h : Pfx) (r : FmtE)
  /-- TLBIR_S2 (R317). -/
  | tlbirS2 (h : Pfx) (r : FmtE)
  /-- ATP (R319). -/
  | atp (h : Pfx) (r : FmtE)
  /-- LCINV (R320). -/
  | lcinv (h : Pfx) (r : FmtE)
  /-- LCINV_ALL (R320). -/
  | lcinvAll (h : Pfx) (r : FmtE)
  /-- NOTIFYW (R321). -/
  | notifyw (h : Pfx) (r : FmtE)
  /-- HALT (R322). -/
  | halt (h : Pfx) (r : FmtE)
  /-- ECCI_CORR (R323). -/
  | ecciCorr (h : Pfx) (r : FmtE)
  /-- ECCI_UNC (R323). -/
  | ecciUnc (h : Pfx) (r : FmtE)
  /-- XPIN (R267). -/
  | xpin (d a b : BitVec 5)
  /-- XUNPIN (R267). -/
  | xunpin (d a b : BitVec 5)
  /-- XHINT (R267). -/
  | xhint (d a b : BitVec 5)
  /-- XTIERQ_LO (R267). -/
  | xtierqLo (d a : BitVec 5)
  /-- XTIERQ_HI (R267). -/
  | xtierqHi (d a : BitVec 5)
  /-- XWAITVA_W (R267). -/
  | xwaitvaW (d a b : BitVec 5)
  /-- XWAITVA_D (R267). -/
  | xwaitvaD (d a b : BitVec 5)
  /-- XWAKEVA (R267). -/
  | xwakeva (d a b : BitVec 5)
  /-- SFENCE_VMA (R318). -/
  | sfenceVma (a b : BitVec 5)
  /-- HFENCE_VVMA (R318). -/
  | hfenceVvma (a b : BitVec 5)
  /-- HFENCE_GVMA (R318). -/
  | hfenceGvma (a b : BitVec 5)
  /-- FQREPLAY (R366). -/
  | fqreplay (w : Writer) (v : BitVec 64)
  /-- FQREPLAYH (R366). -/
  | fqreplayh (w : Writer) (v : BitVec 64)
  /-- QWR_WRITE (R328). -/
  | qwrWrite (w : Writer) (q : Nat) (v : BitVec 64)
  /-- QCFG_WRITE (R327). -/
  | qcfgWrite (w : Writer) (q : Nat) (v : BitVec 64)
  /-- HINTBUD_WRITE (R150). -/
  | hintbudWrite (w : Writer) (ctx : Nat) (v : BitVec 64)
  /-- WWEND (R313). -/
  | wwend (w : Writer) (v : BitVec 64)
  /-- REGISTER_WRITE (R312). -/
  | registerWrite (w : Writer) (ofs : Nat) (v : BitVec 64)
  /-- TRAPACT_RESUME (R373). -/
  | trapactResume (w : Writer) (id : BitVec 32)
  /-- TRAPACT_SKIP (R373). -/
  | trapactSkip (w : Writer) (id : BitVec 32)
  /-- TRAPACT_END (R373). -/
  | trapactEnd (w : Writer) (id : BitVec 32)
  /-- ENDCTX (R377). -/
  | endctx (w : Writer) (ctx : Nat)
  /-- PREEMPT_SAVE (R379). -/
  | preemptSave (w : Writer) (ctx : Nat)
  /-- PREEMPT_RESTORE (R382). -/
  | preemptRestore (w : Writer) (ctx : Nat)
  /-- POOLTAKE (R409). -/
  | pooltake (w : Writer) (v : BitVec 64)
  /-- PARTCTL_MERGE (R430). -/
  | partctlMerge (w : Writer) (v : BitVec 64)
  /-- PARTCTL_SPLIT (R430). -/
  | partctlSplit (w : Writer) (v : BitVec 64)
  /-- IPROF_WRITE (R416). -/
  | iprofWrite (w : Writer) (n i : Nat) (v : BitVec 64)
  /-- CTXQOS_WRITE (R418). -/
  | ctxqosWrite (w : Writer) (ctx : Nat) (v : BitVec 64)
  /-- L2BKT_WRITE (R420). -/
  | l2bktWrite (w : Writer) (n : Nat) (v : BitVec 64)
  /-- PORT_WRITE (R435). -/
  | portWrite (w : Writer) (n : Nat) (v : BitVec 64)
  /-- FWCTL_SWITCH (R440). -/
  | fwctlSwitch (w : Writer) (v : BitVec 64)
  /-- SCHEDULER_PICK (R342). -/
  | schedulerPick (core sched : Nat)
  /-- ACCESS_COMPLETION (R240). -/
  | accessCompletion (op : Nat)
  /-- WALK (R353). -/
  | walk (op part : Nat)
  /-- QUEUE_RECHECK (R361). -/
  | queueRecheck (q : RecQueue)
  /-- HOME_REQUEST (R394). -/
  | homeRequest (op part : Nat)
  /-- UPDATE_BUFFER_TIMEOUT (R139). -/
  | updateBufferTimeout (core : Nat)
  /-- UPDATE_APPLY (R138). -/
  | updateApply (upd : Nat)
  /-- ENGINE_COMMAND_START (R135). -/
  | engineCommandStart (cmd : Nat)
  /-- MMA_ENGINE_EXIT (R289). -/
  | mmaEngineExit (core : Nat)
  /-- ENGINE_COMMAND_COMPLETE (R271). -/
  | engineCommandComplete (cmd : Nat)
  /-- COPY_BURST (R276). -/
  | copyBurst (cmd burst : Nat)
  /-- BURST_REQUEST (R280). -/
  | burstRequest (cmd : Nat)
  /-- BURST_LANDING (R280). -/
  | burstLanding (cmd burst : Nat)
  /-- LADLE_BIRTH (R51). -/
  | ladleBirth (core slot : Nat)
  /-- LADLE_END (R52). -/
  | ladleEnd (core slot : Nat)
  /-- FINALE_BIRTH (R52). -/
  | finaleBirth (cmd slot : Nat)
  /-- COHORT_RETIRE (R53). -/
  | cohortRetire (agent : Nat)
  /-- BLOCK_RETIRE (R53). -/
  | blockRetire (block : Nat)
  /-- DISPATCH_PLACEMENT (R339). -/
  | dispatchPlacement
  /-- HUB_THREAD_WAKE (R322). -/
  | hubThreadWake (t : Nat)
  /-- PACKET_ACCEPT (R328). -/
  | packetAccept (q : Nat)
  /-- PACKET_START (R329). -/
  | packetStart (q : Nat)
  /-- LAUNCH_PACKET (R333). -/
  | launchPacket (q pos : Nat)
  /-- COPY_PACKET (R334). -/
  | copyPacket (q pos : Nat)
  /-- DEPENDENCE_WAIT (R334). -/
  | dependenceWait (q pos : Nat)
  /-- DEPENDENCE_WAIT_RETEST (R334). -/
  | dependenceWaitRetest (q pos : Nat)
  /-- SIGNAL (R334). -/
  | signal (q pos : Nat)
  /-- MIGRATE_REQUEST (R334). -/
  | migrateRequest (q pos : Nat)
  /-- SERVICE_CALL (R336). -/
  | serviceCall (call : Nat)
  /-- SERVICE_REPLY (R336). -/
  | serviceReply (q pos : Nat)
  /-- PACKET_COMPLETE (R330). -/
  | packetComplete (q pos : Nat)
  /-- DEFERRED_APPEND (R337). -/
  | deferredAppend (core idx : Nat)
  /-- POWER_WINDOW (R344). -/
  | powerWindow (excess : BitVec 2)
  /-- HINT_REFILL (R150). -/
  | hintRefill (ctx : Nat)
  /-- SAVE_COMPLETE (R379). -/
  | saveComplete (ctx : Nat)
  /-- RESTORE_COMPLETE (R382). -/
  | restoreComplete (ctx : Nat)
  /-- FLIT_PAYLOAD_ERROR (R376). -/
  | flitPayloadError (ctx : Nat)
  /-- FLIT_HEADER_ERROR (R376). -/
  | flitHeaderError (part : Nat)
  /-- MOVE_START (R397). -/
  | moveStart (page : Nat)
  /-- MOVE_LINE_COPY (R397). -/
  | moveLineCopy (page : Nat)
  /-- POLICY_PASS (R399). -/
  | policyPass (part : Nat)
  /-- LOCATION_WRITEBACK (R390). -/
  | locationWriteback (page : Nat)
  /-- FREE_TAKE (R389). -/
  | freeTake (call : Nat)
  /-- FREE_ADD (R389). -/
  | freeAdd (call : Nat)
  /-- ATTEST (R438). -/
  | attest (call : Nat)
  /-- EXTEND (R438). -/
  | extend (call : Nat)
  /-- KEYSET (R438). -/
  | keyset (call : Nat)
  /-- POOL_CLAIM (R406). -/
  | poolClaim (page : Nat)
  /-- POOL_CLAIM_RETRY (R406). -/
  | poolClaimRetry (page : Nat)
  /-- CLAIM_DETECT (R406). -/
  | claimDetect (page : Nat) (pkg : BitVec 5)
  /-- HANDOVER_FREEZE (R406). -/
  | handoverFreeze (page : Nat)
  /-- HANDOVER_RELEASE (R406). -/
  | handoverRelease (page : Nat)
  /-- HANDOVER_DETECT (R406). -/
  | handoverDetect (page : Nat)
  /-- HANDOVER_INSTALL (R406). -/
  | handoverInstall (page : Nat)
  /-- PARTITION_QUIESCED (R430). -/
  | partitionQuiesced
  /-- PARTITION_DEADLINE (R430). -/
  | partitionDeadline
  /-- BUCKET_REFILL (R420). -/
  | bucketRefill
  /-- LINK_UP (R435). -/
  | linkUp (n : Nat) (speed : BitVec 4) (width : BitVec 5)
  /-- INBOUND_REQUEST (R436). -/
  | inboundRequest (r : Inbound)
  /-- POWER_ON_RESET (R437). -/
  | powerOnReset
  /-- HUB_FIRMWARE_BOOT (R437). -/
  | hubFirmwareBoot (pltcfg pltlim poolown : BitVec 64)
  /-- HOST_MONITOR_RELEASE (R437). -/
  | hostMonitorRelease (entry : BitVec 64)
  /-- FW_IMAGE_CHECKED (R440). -/
  | fwImageChecked
  /-- HUB_THREAD_PARK (R440). -/
  | hubThreadPark (t : Nat)
  /-- FW_SWITCH_TIMEOUT (R440). -/
  | fwSwitchTimeout
  /-- RECORD_REPLAY_FEED (R443). -/
  | recordReplayFeed (q : Nat)
  /-- HOST_ACCESS (R141). -/
  | hostAccess (h : Nat) (a : HostAcc)
  /-- INTERRUPT_PENDING (R267). -/
  | interruptPending (h : Nat)
  /-- SYSTEM_INSTRUCTION_COMPLETE (R314). -/
  | systemInstructionComplete (op : Nat)
  /-- BACK_INVALIDATE (R405). -/
  | backInvalidate (page line : Nat) (w : List (Nat × Byte))
  /-- LINK_DOWN (R435). -/
  | linkDown (n : Nat)
deriving DecidableEq, Repr

end Sys2Proof
end

