-- ==== Sys2Proof/Machine/Fields.lean ====
section
/-! DEFINITION. The operands that each instruction names (R164 to R170, and the operand columns of its table) and the rules its fields
keep (R174): what a legal word is. The checks of R175 over a whole clause stand in Sys2Proof/Machine/Fetch.lean. -/

namespace Sys2Proof

/-- The fields of a word that can name an operand. -/
inductive Fld where
  | d | a | b | c | sb | vi
deriving DecidableEq, Repr

/-- The register files and block resources an operand can lie in. -/
inductive RegFile where
  | s | v | k | ec | sh | cb | acc
deriving DecidableEq, Repr

/-- One operand: the field that names it, its file, its first number and how many numbers it takes, and whether the instruction
writes it, reads it, or both. -/
structure Opnd where
  fld   : Fld
  file  : RegFile
  num   : Nat
  len   : Nat
  isDst : Bool
  isSrc : Bool
deriving DecidableEq, Repr

/-- A source operand. -/
def src (fld : Fld) (file : RegFile) (num len : Nat) : Opnd :=
  { fld := fld, file := file, num := num, len := len, isDst := false, isSrc := true }

/-- A destination operand. -/
def dst (fld : Fld) (file : RegFile) (num len : Nat) : Opnd :=
  { fld := fld, file := file, num := num, len := len, isDst := true, isSrc := false }

/-- An operand that is read and written. -/
def upd (fld : Fld) (file : RegFile) (num len : Nat) : Opnd :=
  { fld := fld, file := file, num := num, len := len, isDst := true, isSrc := true }

/-- A field that may hold 255 for "none" (R237, R268). -/
def unless255 (o : Opnd) : List Opnd := if o.num == 255 then [] else [o]

/-- How many vector registers a value of a TYPE code takes (R61, R171). -/
def tyRegs (t : BitVec 5) : Nat := if t == 0x0C || t == 0x0D || t == 0x0E || t == 0x11 then 2 else 1

/-- How many vector registers a value of an MTYPE code takes (R173, R241). -/
def mtRegs (t : BitVec 4) : Nat :=
  if t == 0x9 || t == 0xA || t == 0xB || t == 0xC || t == 0xE then 2 else if t == 0xD || t == 0xF then 4 else 1

/-- The access size z of an MTYPE code in bytes (R173). -/
def mtBytes (t : BitVec 4) : Nat :=
  if t == 0x0 || t == 0x1 then 1 else if t == 0x2 || t == 0x3 then 2 else if mtRegs t == 1 then 4 else if mtRegs t == 2 then 8 else 16

/-- The address operands of the four address modes (R169). -/
def memOpnds (r : FmtM) : List Opnd :=
  if r.am == 1 then [src .b .v r.b.toNat 2]
  else if r.am == 2 then [src .sb .s r.sb.toNat 1, src .b .v r.b.toNat 1]
  else [src .sb .s r.sb.toNat 1]

/-- The index register vI of a relative operand (R165). -/
def relOpnd (r : FmtR) : List Opnd := if r.rel == 0 then [] else [src .vi .v r.c.toNat 1]

/-- The numeric types of R227: `.s8` to `.n64` and `.f64` to `.f8b`. -/
def numericTy (t : Nat) : Bool := decide (t ≤ 0x0A) || decide (t = 0x0C) || decide (t = 0x0D) || decide (t = 0x0E)

/-- A packed 16-bit type. -/
def packedTy (t : Nat) : Bool := decide (t = 0x13) || decide (t = 0x14)

/-- R227: the accepted pairs of types of `VCVT`, and B zero wherever it is not a source. -/
def vcvtOk (r : FmtR) : Bool :=
  let td := r.ty.toNat
  let ts := r.c.toNat
  (numericTy td && numericTy ts && r.b == 0) || (packedTy td && decide (ts = 6)) ||
    (decide (td = 6) && packedTy ts && r.b == 0) || (packedTy td && packedTy ts && decide (td ≠ ts) && r.b == 0)

/-- The operands of `VCVT` by its two types (R227). -/
def vcvtOpnds (r : FmtR) : List Opnd :=
  let td := r.ty.toNat
  let ts := r.c.toNat
  let dn := if decide (td = 6) && packedTy ts then 2 else tyRegs r.ty
  [dst .d .v r.d.toNat dn, src .a .v r.a.toNat (tyRegs (r.c.setWidth 5))] ++
    (if packedTy td && decide (ts = 6) then [src .b .v r.b.toNat 1] else [])

/-- R228: `.s8` and `.n8` accept S only, `.f8a` and `.f8b` accept R, S and F. -/
def vpack8Ok (r : FmtR) : Bool :=
  ((r.ty == 0 || r.ty == 1) && r.rnd == 0 && !r.ftz) || r.ty == 0x9 || r.ty == 0xA

/-- R236: the operations, types and modifiers of `VRED` and `VSCAN`. -/
def vredOk (r : FmtR) : Bool :=
  if r.ty == 6 then decide (r.sub.toNat ≤ 2) && !r.sat && (r.sub == 0 || r.rnd == 0)
  else r.rnd == 0 && !r.ftz && (r.sub == 0 || !r.sat)

/-- Values 12 to 14 of FLAG name nothing (R65). -/
def flagOk (f : BitVec 4) : Bool := decide (f.toNat < 12) || f == 15

/-- Values 6 and 7 of SCOPE are reserved (R172). -/
def scopeOk (c : BitVec 3) : Bool := decide (c.toNat < 6)

/-- Format M with an address operand: SB must be 0 in mode 1 (R169), and SC is zero (R168). -/
def mAddr (r : FmtM) : Bool := (r.am != 1 || r.sb == 0) && scopeOk r.scope && flagOk r.flag && !r.sc

/-- Format M addressed by mode 0 or by no address: AM is zero, and SC stands only with ORD 3 (R168, R237). -/
def mPlain (r : FmtM) : Bool := r.am == 0 && scopeOk r.scope && flagOk r.flag && (!r.sc || r.ord == 3)

/-- The orders an instruction accepts (R237). -/
def ordIn (r : FmtM) (l : List (BitVec 2)) : Bool := l.contains r.ord

/-- The types an instruction accepts (R217). -/
def tyIn (r : FmtR) (l : List (BitVec 5)) : Bool := l.contains r.ty

/-- R246, R248: the ATOP and MTYPE pairs of `ATOM`, and of `RED`, which has no exchange. -/
def atopOk (op mt : Nat) (exch : Bool) : Bool :=
  if op ≤ 2 then decide (4 ≤ mt) && decide (mt ≤ 11)
  else if op ≤ 5 then [4, 5, 9, 10, 12].contains mt
  else decide (op = 6) && exch && decide (4 ≤ mt) && decide (mt ≤ 12)

/-- R251: a barrier scope 1 to 4 and a number 0 to 15. -/
def barOk (r : FmtM) : Bool := decide (1 ≤ r.scope.toNat) && decide (r.scope.toNat ≤ 4) && decide (r.d.toNat < 16)

/-- The privileged registers that some level may read (R312). -/
def movprOk (n : Nat) : Bool := decide (n ≤ 0x09) || decide (n = 0x0B) || decide (n = 0x10) || decide (n = 0x11)

/-- The privileged registers that some level may write (R312). -/
def movrpOk (n : Nat) : Bool := (decide (2 ≤ n) && decide (n ≤ 0x0A)) || decide (n = 0x11)

/-- The register and resource operands of each instruction, from the operand column of its table. -/
def opnds : Instr → List Opnd
  | .smov _ r => [dst .d .s r.d.toNat 1, src .a .s r.a.toNat 1]
  | .smovi _ r => [dst .d .s r.d.toNat 1]
  | .sadd _ r => [dst .d .s r.d.toNat 1, src .a .s r.a.toNat 1, src .b .s r.b.toNat 1]
  | .saddi _ r => [dst .d .s r.d.toNat 1, src .a .s r.a.toNat 1]
  | .ssub _ r => [dst .d .s r.d.toNat 1, src .a .s r.a.toNat 1, src .b .s r.b.toNat 1]
  | .smul _ r => [dst .d .s r.d.toNat 1, src .a .s r.a.toNat 1, src .b .s r.b.toNat 1]
  | .smulh _ r => [dst .d .s r.d.toNat 1, src .a .s r.a.toNat 1, src .b .s r.b.toNat 1]
  | .sdiv _ r => [dst .d .s r.d.toNat 1, src .a .s r.a.toNat 1, src .b .s r.b.toNat 1]
  | .srem _ r => [dst .d .s r.d.toNat 1, src .a .s r.a.toNat 1, src .b .s r.b.toNat 1]
  | .sand _ r => [dst .d .s r.d.toNat 1, src .a .s r.a.toNat 1, src .b .s r.b.toNat 1]
  | .sor _ r => [dst .d .s r.d.toNat 1, src .a .s r.a.toNat 1, src .b .s r.b.toNat 1]
  | .sxor _ r => [dst .d .s r.d.toNat 1, src .a .s r.a.toNat 1, src .b .s r.b.toNat 1]
  | .sshl _ r => [dst .d .s r.d.toNat 1, src .a .s r.a.toNat 1, src .b .s r.b.toNat 1]
  | .sshr _ r => [dst .d .s r.d.toNat 1, src .a .s r.a.toNat 1, src .b .s r.b.toNat 1]
  | .ssra _ r => [dst .d .s r.d.toNat 1, src .a .s r.a.toNat 1, src .b .s r.b.toNat 1]
  | .smin _ r => [dst .d .s r.d.toNat 1, src .a .s r.a.toNat 1, src .b .s r.b.toNat 1]
  | .smax _ r => [dst .d .s r.d.toNat 1, src .a .s r.a.toNat 1, src .b .s r.b.toNat 1]
  | .scmp _ r => [dst .d .s r.d.toNat 1, src .a .s r.a.toNat 1, src .b .s r.b.toNat 1]
  | .ssel _ r => [dst .d .s r.d.toNat 1, src .a .s r.a.toNat 1, src .b .s r.b.toNat 1]
  | .slea _ r => [dst .d .s r.d.toNat 1, src .a .s r.a.toNat 1, src .b .s r.b.toNat 1]
  | .sbfe _ r => [dst .d .s r.d.toNat 1, src .a .s r.a.toNat 1, src .b .s r.b.toNat 1]
  | .sbfi _ r => [dst .d .s r.d.toNat 1, src .a .s r.a.toNat 1, src .b .s r.b.toNat 1, src .c .s r.c.toNat 1]
  | .spopc _ r => [dst .d .s r.d.toNat 1, src .a .s r.a.toNat 1]
  | .sclz _ r => [dst .d .s r.d.toNat 1, src .a .s r.a.toNat 1]
  | .movsr _ r => [if r.a == 0 then dst .d .v r.d.toNat 1 else dst .d .s r.d.toNat 1]
  | .movrs _ r => [src .b .s r.b.toNat 1]
  | .kmovK _ r => [dst .d .k r.d.toNat 1, src .a .k r.a.toNat 1]
  | .kmovFromS _ r => [dst .d .k r.d.toNat 1, src .a .s r.a.toNat 1]
  | .kmovToS _ r => [dst .d .s r.d.toNat 1, src .a .k r.a.toNat 1]
  | .kand _ r => [dst .d .k r.d.toNat 1, src .a .k r.a.toNat 1, src .b .k r.b.toNat 1]
  | .kor _ r => [dst .d .k r.d.toNat 1, src .a .k r.a.toNat 1, src .b .k r.b.toNat 1]
  | .kxor _ r => [dst .d .k r.d.toNat 1, src .a .k r.a.toNat 1, src .b .k r.b.toNat 1]
  | .knot _ r => [dst .d .k r.d.toNat 1, src .a .k r.a.toNat 1]
  | .kpopc _ r => [dst .d .s r.d.toNat 1, src .a .k r.a.toNat 1]
  | .kffs _ r => [dst .d .s r.d.toNat 1, src .a .k r.a.toNat 1]
  | .kset _ r => [dst .d .k r.d.toNat 1]
  | .nop _ _ => []
  | .bra _ _ => []
  | .brc _ _ => []
  | .brl _ r => [dst .d .s r.d.toNat 1]
  | .jmpS _ r => [src .a .s r.a.toNat 1]
  | .jmpV _ r => [src .a .v r.a.toNat 2]
  | .call _ r => [dst .d .v r.d.toNat 2]
  | .ret _ r => [src .a .v r.a.toNat 2]
  | .reconv _ r => [src .a .k r.a.toNat 1]
  | .exit _ _ => []
  | .yield _ _ => []
  | .trap _ _ => []
  | .brk _ _ => []
  | .vmov _ r => [dst .d .v r.d.toNat (tyRegs r.ty), src .a .v r.a.toNat (tyRegs r.ty)] ++ relOpnd r
  | .vmovi _ r => [dst .d .v r.d.toNat 1]
  | .vadd _ r => [dst .d .v r.d.toNat (tyRegs r.ty), src .a .v r.a.toNat (tyRegs r.ty), src .b .v r.b.toNat (tyRegs r.ty)] ++ relOpnd r
  | .vsub _ r => [dst .d .v r.d.toNat (tyRegs r.ty), src .a .v r.a.toNat (tyRegs r.ty), src .b .v r.b.toNat (tyRegs r.ty)] ++ relOpnd r
  | .vmul _ r => [dst .d .v r.d.toNat 1, src .a .v r.a.toNat 1, src .b .v r.b.toNat 1] ++ relOpnd r
  | .vmulh _ r => [dst .d .v r.d.toNat 1, src .a .v r.a.toNat 1, src .b .v r.b.toNat 1] ++ relOpnd r
  | .vmad _ r => [dst .d .v r.d.toNat 1, src .a .v r.a.toNat 1, src .b .v r.b.toNat 1, src .c .v r.c.toNat 1]
  | .vmin _ r => [dst .d .v r.d.toNat (tyRegs r.ty), src .a .v r.a.toNat (tyRegs r.ty), src .b .v r.b.toNat (tyRegs r.ty)] ++ relOpnd r
  | .vmax _ r => [dst .d .v r.d.toNat (tyRegs r.ty), src .a .v r.a.toNat (tyRegs r.ty), src .b .v r.b.toNat (tyRegs r.ty)] ++ relOpnd r
  | .vabs _ r => [dst .d .v r.d.toNat 1, src .a .v r.a.toNat 1] ++ relOpnd r
  | .vneg _ r => [dst .d .v r.d.toNat 1, src .a .v r.a.toNat 1] ++ relOpnd r
  | .vand _ r => [dst .d .v r.d.toNat (tyRegs r.ty), src .a .v r.a.toNat (tyRegs r.ty), src .b .v r.b.toNat (tyRegs r.ty)] ++ relOpnd r
  | .vor _ r => [dst .d .v r.d.toNat (tyRegs r.ty), src .a .v r.a.toNat (tyRegs r.ty), src .b .v r.b.toNat (tyRegs r.ty)] ++ relOpnd r
  | .vxor _ r => [dst .d .v r.d.toNat (tyRegs r.ty), src .a .v r.a.toNat (tyRegs r.ty), src .b .v r.b.toNat (tyRegs r.ty)] ++ relOpnd r
  | .vnot _ r => [dst .d .v r.d.toNat (tyRegs r.ty), src .a .v r.a.toNat (tyRegs r.ty)] ++ relOpnd r
  | .vshl _ r => [dst .d .v r.d.toNat (tyRegs r.ty), src .a .v r.a.toNat (tyRegs r.ty), src .b .v r.b.toNat (tyRegs r.ty)] ++ relOpnd r
  | .vshr _ r => [dst .d .v r.d.toNat (tyRegs r.ty), src .a .v r.a.toNat (tyRegs r.ty), src .b .v r.b.toNat (tyRegs r.ty)] ++ relOpnd r
  | .vsra _ r => [dst .d .v r.d.toNat (tyRegs r.ty), src .a .v r.a.toNat (tyRegs r.ty), src .b .v r.b.toNat (tyRegs r.ty)] ++ relOpnd r
  | .vrot _ r => [dst .d .v r.d.toNat 1, src .a .v r.a.toNat 1, src .b .v r.b.toNat 1] ++ relOpnd r
  | .vbfe _ r => [dst .d .v r.d.toNat 1, src .a .v r.a.toNat 1, src .b .v r.b.toNat 1] ++ relOpnd r
  | .vbfi _ r => [dst .d .v r.d.toNat 1, src .a .v r.a.toNat 1, src .b .v r.b.toNat 1, src .c .v r.c.toNat 1]
  | .vpopc _ r => [dst .d .v r.d.toNat 1, src .a .v r.a.toNat 1] ++ relOpnd r
  | .vclz _ r => [dst .d .v r.d.toNat 1, src .a .v r.a.toNat 1] ++ relOpnd r
  | .vbrev _ r => [dst .d .v r.d.toNat 1, src .a .v r.a.toNat 1] ++ relOpnd r
  | .vcmp _ r => [dst .d .k r.d.toNat 1, src .a .v r.a.toNat (tyRegs r.ty), src .b .v r.b.toNat (tyRegs r.ty)] ++ relOpnd r
  | .vsel _ r => [dst .d .v r.d.toNat (tyRegs r.ty), src .a .v r.a.toNat (tyRegs r.ty), src .b .v r.b.toNat (tyRegs r.ty), src .c .k r.c.toNat 1]
  | .vaddc _ r => [dst .d .v r.d.toNat 1, src .a .v r.a.toNat 1, src .b .v r.b.toNat 1, src .c .k r.c.toNat 1]
  | .vdot4 _ r => [dst .d .v r.d.toNat 1, src .a .v r.a.toNat 1, src .b .v r.b.toNat 1, src .c .v r.c.toNat 1]
  | .vidx _ r => [dst .d .v r.d.toNat 1, src .a .s r.a.toNat 1, src .b .s r.b.toNat 1] ++ relOpnd r
  | .vfadd _ r => [dst .d .v r.d.toNat (tyRegs r.ty), src .a .v r.a.toNat (tyRegs r.ty), src .b .v r.b.toNat (tyRegs r.ty)] ++ relOpnd r
  | .vfsub _ r => [dst .d .v r.d.toNat (tyRegs r.ty), src .a .v r.a.toNat (tyRegs r.ty), src .b .v r.b.toNat (tyRegs r.ty)] ++ relOpnd r
  | .vfmul _ r => [dst .d .v r.d.toNat (tyRegs r.ty), src .a .v r.a.toNat (tyRegs r.ty), src .b .v r.b.toNat (tyRegs r.ty)] ++ relOpnd r
  | .vfma _ r => [dst .d .v r.d.toNat (tyRegs r.ty), src .a .v r.a.toNat (tyRegs r.ty), src .b .v r.b.toNat (tyRegs r.ty), src .c .v r.c.toNat (tyRegs r.ty)]
  | .vfmin _ r => [dst .d .v r.d.toNat (tyRegs r.ty), src .a .v r.a.toNat (tyRegs r.ty), src .b .v r.b.toNat (tyRegs r.ty)] ++ relOpnd r
  | .vfmax _ r => [dst .d .v r.d.toNat (tyRegs r.ty), src .a .v r.a.toNat (tyRegs r.ty), src .b .v r.b.toNat (tyRegs r.ty)] ++ relOpnd r
  | .vfcmp _ r => [dst .d .k r.d.toNat 1, src .a .v r.a.toNat (tyRegs r.ty), src .b .v r.b.toNat (tyRegs r.ty)] ++ relOpnd r
  | .vfclass _ r => [dst .d .v r.d.toNat 1, src .a .v r.a.toNat (tyRegs r.ty)] ++ relOpnd r
  | .vfrnd _ r => [dst .d .v r.d.toNat (tyRegs r.ty), src .a .v r.a.toNat (tyRegs r.ty)] ++ relOpnd r
  | .vfdiv _ r => [dst .d .v r.d.toNat (tyRegs r.ty), src .a .v r.a.toNat (tyRegs r.ty), src .b .v r.b.toNat (tyRegs r.ty)] ++ relOpnd r
  | .vfsqrt _ r => [dst .d .v r.d.toNat (tyRegs r.ty), src .a .v r.a.toNat (tyRegs r.ty)] ++ relOpnd r
  | .vfrcp _ r => [dst .d .v r.d.toNat 1, src .a .v r.a.toNat 1] ++ relOpnd r
  | .vfrsq _ r => [dst .d .v r.d.toNat 1, src .a .v r.a.toNat 1] ++ relOpnd r
  | .vfexp2 _ r => [dst .d .v r.d.toNat 1, src .a .v r.a.toNat 1] ++ relOpnd r
  | .vflog2 _ r => [dst .d .v r.d.toNat 1, src .a .v r.a.toNat 1] ++ relOpnd r
  | .vfsin _ r => [dst .d .v r.d.toNat 1, src .a .v r.a.toNat 1] ++ relOpnd r
  | .vfcos _ r => [dst .d .v r.d.toNat 1, src .a .v r.a.toNat 1] ++ relOpnd r
  | .vftanh _ r => [dst .d .v r.d.toNat 1, src .a .v r.a.toNat 1] ++ relOpnd r
  | .vfscale _ r => [dst .d .v r.d.toNat (tyRegs r.ty), src .a .v r.a.toNat (tyRegs r.ty), src .b .v r.b.toNat 1] ++ relOpnd r
  | .vfdot2 _ r => [dst .d .v r.d.toNat 1, src .a .v r.a.toNat 1, src .b .v r.b.toNat 1, src .c .v r.c.toNat 1]
  | .vcvt _ r => vcvtOpnds r
  | .vpack8 _ r => [dst .d .v r.d.toNat 1, src .a .v r.a.toNat 4] ++ relOpnd r
  | .vunpk8 _ r => [dst .d .v r.d.toNat 4, src .a .v r.a.toNat 1] ++ relOpnd r
  | .vquant _ r => [dst .d .v r.d.toNat 1, src .a .v r.a.toNat 1, src .b .v r.b.toNat 1, src .c .cb r.c.toNat 1]
  | .vdeq _ r => [dst .d .v r.d.toNat 1, src .a .v r.a.toNat 1, src .b .v r.b.toNat 1, src .c .cb r.c.toNat 1]
  | .vbscale _ r => [dst .d .v r.d.toNat 1, src .a .v r.a.toNat 1, src .c .cb r.c.toNat 1]
  | .vshfl _ r => [dst .d .v r.d.toNat 1, src .a .v r.a.toNat 1, src .b .v r.b.toNat 1, src .c .k r.c.toNat 1]
  | .vshup _ r => [dst .d .v r.d.toNat 1, src .a .v r.a.toNat 1, src .b .s r.b.toNat 1, src .c .k r.c.toNat 1]
  | .vshdn _ r => [dst .d .v r.d.toNat 1, src .a .v r.a.toNat 1, src .b .s r.b.toNat 1, src .c .k r.c.toNat 1]
  | .vshxr _ r => [dst .d .v r.d.toNat 1, src .a .v r.a.toNat 1, src .b .s r.b.toNat 1, src .c .k r.c.toNat 1]
  | .vbcast _ r => [dst .d .v r.d.toNat 1, src .a .v r.a.toNat 1, src .b .s r.b.toNat 1, src .c .k r.c.toNat 1]
  | .v2s _ r => [dst .d .s r.d.toNat 1, src .a .v r.a.toNat 1, src .b .s r.b.toNat 1, src .c .k r.c.toNat 1]
  | .s2v _ r => [dst .d .v r.d.toNat 1, src .a .s r.a.toNat 1, src .c .k r.c.toNat 1]
  | .vred _ r => [dst .d .s r.d.toNat 1, src .a .v r.a.toNat 1, src .c .k r.c.toNat 1]
  | .vscan _ r => [dst .d .v r.d.toNat 1, src .a .v r.a.toNat 1, src .c .k r.c.toNat 1]
  | .vvote _ r => [dst .d .s r.d.toNat 1, src .a .v r.a.toNat 1, src .c .k r.c.toNat 1]
  | .vmatch _ r => [dst .d .v r.d.toNat 1, src .a .v r.a.toNat 1, src .c .k r.c.toNat 1]
  | .vcomp _ r => [dst .d .v r.d.toNat 1, src .a .v r.a.toNat 1, src .c .k r.c.toNat 1]
  | .vexpd _ r => [dst .d .v r.d.toNat 1, src .a .v r.a.toNat 1, src .c .k r.c.toNat 1]
  | .ld _ r => [dst .d .v r.d.toNat (mtRegs r.mtype)] ++ memOpnds r
  | .st _ r => [src .d .v r.d.toNat (mtRegs r.mtype)] ++ memOpnds r
  | .lds _ r => [dst .d .v r.d.toNat (mtRegs r.mtype)] ++ memOpnds r
  | .sts _ r => [src .d .v r.d.toNat (mtRegs r.mtype)] ++ memOpnds r
  | .ldl _ r => [dst .d .v r.d.toNat (mtRegs r.mtype)] ++ memOpnds r
  | .stl _ r => [src .d .v r.d.toNat (mtRegs r.mtype)] ++ memOpnds r
  | .pfh _ r => [] ++ memOpnds r
  | .atom _ r => [upd .d .v r.d.toNat (mtRegs r.mtype)] ++ memOpnds r
  | .acas _ r => [upd .d .v r.d.toNat (mtRegs r.mtype), src .c .v r.c.toNat (mtRegs r.mtype)] ++ memOpnds r
  | .red _ r => [src .d .v r.d.toNat (mtRegs r.mtype)] ++ memOpnds r
  | .fence _ _ => []
  | .flushr _ r => [src .d .s r.d.toNat 1, src .sb .s r.sb.toNat 1] ++ unless255 (src .c .ec r.c.toNat 1)
  | .invr _ r => [src .d .s r.d.toNat 1, src .sb .s r.sb.toNat 1] ++ unless255 (src .c .ec r.c.toNat 1)
  | .bar _ r => [src .c .k r.c.toNat 1]
  | .bara _ r => [src .c .k r.c.toNat 1]
  | .barw _ _ => []
  | .waitva _ r => [src .d .v r.d.toNat (mtRegs r.mtype)] ++ memOpnds r
  | .wakeva _ r => [dst .d .s r.d.toNat 1, src .sb .s r.sb.toNat 1, src .c .s r.c.toNat 1]
  | .ecset _ r => [src .sb .s r.sb.toNat 1, src .c .ec r.c.toNat 1]
  | .ecadd _ r => [dst .d .s r.d.toNat 1, src .sb .s r.sb.toNat 1, src .c .ec r.c.toNat 1]
  | .ecwait _ r => [src .sb .s r.sb.toNat 1, src .c .ec r.c.toNat 1]
  | .ecq _ r => [dst .d .s r.d.toNat 1, src .c .ec r.c.toNat 1]
  | .fwait _ _ => []
  | .pin _ r => [dst .d .s r.d.toNat 1, src .sb .s r.sb.toNat 1, src .c .s r.c.toNat 1]
  | .unpin _ r => [dst .d .s r.d.toNat 1, src .sb .s r.sb.toNat 1, src .c .s r.c.toNat 1]
  | .hint _ r => [dst .d .s r.d.toNat 1, src .sb .s r.sb.toNat 1, src .c .s r.c.toNat 1]
  | .tierq _ r => [dst .d .v r.d.toNat 4] ++ memOpnds r
  | .ldsh _ r => [dst .d .sh r.d.toNat 1, src .a .s r.a.toNat 1]
  | .evsh _ r => [src .a .s r.a.toNat 1, src .b .sh r.b.toNat 1]
  | .shset _ r => [dst .d .sh r.d.toNat 1, src .a .s r.a.toNat 1]
  | .shget _ r => [dst .d .s r.d.toNat 1, src .a .sh r.a.toNat 1]
  | .cbld _ r => [dst .d .cb r.d.toNat 1, src .a .s r.a.toNat 1]
  | .cpy _ r => [src .d .sh r.d.toNat 1, src .a .sh r.a.toNat 1] ++ unless255 (src .c .ec r.c.toNat 1)
  | .cpyg _ r => [src .d .sh r.d.toNat 1, src .a .sh r.a.toNat 1, src .b .s r.b.toNat 1] ++ unless255 (src .c .ec r.c.toNat 1)
  | .rdh _ r => [src .d .sh r.d.toNat 1, src .a .s r.a.toNat 2, src .b .s r.b.toNat 1] ++ unless255 (src .c .ec r.c.toNat 1)
  | .rdhg _ r => [src .d .sh r.d.toNat 1, src .a .s r.a.toNat 2, src .b .s r.b.toNat 2] ++ unless255 (src .c .ec r.c.toNat 1)
  | .lend _ _ => []
  | .lendStop _ _ => []
  | .sub _ r => [dst .d .s r.d.toNat 1, src .a .s r.a.toNat 2, src .b .s r.b.toNat 2] ++ unless255 (src .c .ec r.c.toNat 1)
  | .unsub _ r => [dst .d .s r.d.toNat 1, src .a .s r.a.toNat 1] ++ unless255 (src .c .ec r.c.toNat 1)
  | .subq _ r => [dst .d .s r.d.toNat 1, src .a .s r.a.toNat 1]
  | .pubfl _ r => [] ++ unless255 (src .c .ec r.c.toNat 1)
  | .mma _ r => [src .d .acc r.d.toNat (r.opt.toNat / 16 % 4), src .a .sh r.a.toNat 1, src .b .sh r.b.toNat 1] ++ unless255 (src .c .ec r.c.toNat 1)
  | .mmz _ r => [dst .d .acc r.d.toNat (r.opt.toNat % 16 + 1)]
  | .accld _ r => [dst .d .acc r.d.toNat (r.opt.toNat / 16 % 4), src .a .sh r.a.toNat 1]
  | .accst _ r => [src .d .sh r.d.toNat 1, src .a .acc r.a.toNat (r.opt.toNat / 16 % 4)] ++ unless255 (src .b .sh r.b.toNat 1) ++ unless255 (src .c .sh r.c.toNat 1)
  | .accrd _ r => [dst .d .v r.d.toNat 4, src .a .acc r.a.toNat 1, src .b .s r.b.toNat 1]
  | .accwr _ r => [dst .d .acc r.d.toNat 1, src .a .v r.a.toNat 4, src .b .s r.b.toNat 1]
  | .push _ r => [dst .d .s r.d.toNat 1, src .a .s r.a.toNat 8, src .b .s r.b.toNat 1] ++ unless255 (src .c .ec r.c.toNat 1)
  | .qfence _ r => [] ++ unless255 (src .c .ec r.c.toNat 1)
  | .sysc _ r => [dst .d .s r.d.toNat 1, src .a .s r.a.toNat 1]
  | .movpr _ r => [dst .d .s r.d.toNat 1]
  | .movrp _ r => [src .b .s r.b.toNat 1]
  | .tlbiAsid _ r => [src .d .s r.d.toNat 1, src .a .s r.a.toNat 1]
  | .tlbiVm _ r => [src .d .s r.d.toNat 1, src .a .s r.a.toNat 1]
  | .tlbiS2 _ r => [src .d .s r.d.toNat 1, src .a .s r.a.toNat 1]
  | .tlbiAll _ r => [src .d .s r.d.toNat 1, src .a .s r.a.toNat 1]
  | .tlbir _ r => [src .d .s r.d.toNat 1, src .a .s r.a.toNat 1, src .b .s r.b.toNat 1, src .c .s r.c.toNat 1]
  | .tlbirS2 _ r => [src .d .s r.d.toNat 1, src .a .s r.a.toNat 1, src .b .s r.b.toNat 1, src .c .s r.c.toNat 1]
  | .atp _ r => [dst .d .s r.d.toNat 2, src .a .s r.a.toNat 1]
  | .lcinv _ r => [src .a .s r.a.toNat 1, src .b .s r.b.toNat 1]
  | .lcinvAll _ _ => []
  | .notifyw _ r => [dst .d .s r.d.toNat 1, src .a .s r.a.toNat 1, src .b .s r.b.toNat 1]
  | .halt _ _ => []
  | .ecciCorr _ r => [src .a .s r.a.toNat 1, src .b .s r.b.toNat 1]
  | .ecciUnc _ r => [src .a .s r.a.toNat 1, src .b .s r.b.toNat 1]
  | _ => []

/-- R165: REL names D, A or B, that field is a vector-register operand, and C then holds vI; with REL 0, C is zero. -/
def relOk (r : FmtR) (i : Instr) : Bool :=
  if r.rel == 0 then r.c == 0
  else (opnds i).any (fun o => o.file == .v && o.fld == (if r.rel == 1 then .d else if r.rel == 2 then .a else .b))

/-- R174, R217, R218, R219, R237, R268, R315: the fields that an instruction uses hold values it accepts, and every other field is
zero. The numbers of its operands are checked by `opndsOk`. -/
def fieldsOf : Instr → Bool
  | .smov _ r => r.b == 0 && r.c == 0 && r.rel == 0 && r.ty == 0 && r.rnd == 0 && !r.sat && !r.ftz && r.sub == 0
  | .smovi _ r => r.a == 0
  | .sadd _ r => r.c == 0 && r.rel == 0 && r.ty == 0 && r.rnd == 0 && !r.sat && !r.ftz && r.sub == 0
  | .saddi _ _ => true
  | .ssub _ r => r.c == 0 && r.rel == 0 && r.ty == 0 && r.rnd == 0 && !r.sat && !r.ftz && r.sub == 0
  | .smul _ r => r.c == 0 && r.rel == 0 && r.ty == 0 && r.rnd == 0 && !r.sat && !r.ftz && r.sub == 0
  | .smulh _ r => r.c == 0 && r.rel == 0 && tyIn r [13, 14] && r.rnd == 0 && !r.sat && !r.ftz && r.sub == 0
  | .sdiv _ r => r.c == 0 && r.rel == 0 && tyIn r [13, 14] && r.rnd == 0 && !r.sat && !r.ftz && r.sub == 0
  | .srem _ r => r.c == 0 && r.rel == 0 && tyIn r [13, 14] && r.rnd == 0 && !r.sat && !r.ftz && r.sub == 0
  | .sand _ r => r.c == 0 && r.rel == 0 && r.ty == 0 && r.rnd == 0 && !r.sat && !r.ftz && r.sub == 0
  | .sor _ r => r.c == 0 && r.rel == 0 && r.ty == 0 && r.rnd == 0 && !r.sat && !r.ftz && r.sub == 0
  | .sxor _ r => r.c == 0 && r.rel == 0 && r.ty == 0 && r.rnd == 0 && !r.sat && !r.ftz && r.sub == 0
  | .sshl _ r => r.c == 0 && r.rel == 0 && r.ty == 0 && r.rnd == 0 && !r.sat && !r.ftz && r.sub == 0
  | .sshr _ r => r.c == 0 && r.rel == 0 && r.ty == 0 && r.rnd == 0 && !r.sat && !r.ftz && r.sub == 0
  | .ssra _ r => r.c == 0 && r.rel == 0 && r.ty == 0 && r.rnd == 0 && !r.sat && !r.ftz && r.sub == 0
  | .smin _ r => r.c == 0 && r.rel == 0 && tyIn r [13, 14] && r.rnd == 0 && !r.sat && !r.ftz && r.sub == 0
  | .smax _ r => r.c == 0 && r.rel == 0 && tyIn r [13, 14] && r.rnd == 0 && !r.sat && !r.ftz && r.sub == 0
  | .scmp _ r => r.c == 0 && r.rel == 0 && tyIn r [13, 14] && r.rnd == 0 && !r.sat && !r.ftz && decide (r.sub.toNat <= 5)
  | .ssel _ r => r.c == 0 && r.rel == 0 && tyIn r [13, 14] && r.rnd == 0 && !r.sat && !r.ftz
  | .slea _ r => r.c == 0 && r.rel == 0 && r.ty == 0 && r.rnd == 0 && !r.sat && !r.ftz
  | .sbfe _ r => r.c == 0 && r.rel == 0 && tyIn r [13, 14] && r.rnd == 0 && !r.sat && !r.ftz && r.sub == 0
  | .sbfi _ r => r.rel == 0 && r.ty == 0 && r.rnd == 0 && !r.sat && !r.ftz && r.sub == 0
  | .spopc _ r => r.b == 0 && r.c == 0 && r.rel == 0 && r.ty == 0 && r.rnd == 0 && !r.sat && !r.ftz && r.sub == 0
  | .sclz _ r => r.b == 0 && r.c == 0 && r.rel == 0 && r.ty == 0 && r.rnd == 0 && !r.sat && !r.ftz && r.sub == 0
  | .movsr _ r => r.b == 0 && r.c == 0 && r.rel == 0 && r.ty == 0 && r.rnd == 0 && !r.sat && !r.ftz && r.sub == 0 && decide (r.a.toNat <= 0x15)
  | .movrs _ r => r.d == 0 && r.c == 0 && r.rel == 0 && r.ty == 0 && r.rnd == 0 && !r.sat && !r.ftz && r.sub == 0 && (r.a == 0x0E || r.a == 0x0F || r.a == 0x10)
  | .kmovK _ r => r.b == 0 && r.c == 0 && r.rel == 0 && r.ty == 0 && r.rnd == 0 && !r.sat && !r.ftz && r.sub == 0
  | .kmovFromS _ r => r.b == 0 && r.c == 0 && r.rel == 0 && r.ty == 0 && r.rnd == 0 && !r.sat && !r.ftz && r.sub == 1
  | .kmovToS _ r => r.b == 0 && r.c == 0 && r.rel == 0 && r.ty == 0 && r.rnd == 0 && !r.sat && !r.ftz && r.sub == 2
  | .kand _ r => r.c == 0 && r.rel == 0 && r.ty == 0 && r.rnd == 0 && !r.sat && !r.ftz && r.sub == 0
  | .kor _ r => r.c == 0 && r.rel == 0 && r.ty == 0 && r.rnd == 0 && !r.sat && !r.ftz && r.sub == 0
  | .kxor _ r => r.c == 0 && r.rel == 0 && r.ty == 0 && r.rnd == 0 && !r.sat && !r.ftz && r.sub == 0
  | .knot _ r => r.b == 0 && r.c == 0 && r.rel == 0 && r.ty == 0 && r.rnd == 0 && !r.sat && !r.ftz && r.sub == 0
  | .kpopc _ r => r.b == 0 && r.c == 0 && r.rel == 0 && r.ty == 0 && r.rnd == 0 && !r.sat && !r.ftz && r.sub == 0
  | .kffs _ r => r.b == 0 && r.c == 0 && r.rel == 0 && r.ty == 0 && r.rnd == 0 && !r.sat && !r.ftz && r.sub == 0
  | .kset _ r => r.a == 0 && decide (r.imm.toNat / 2048 = 0) && decide (r.imm.toNat / 32 <= 32) && decide (r.imm.toNat % 32 + r.imm.toNat / 32 <= 32)
  | .nop h r => r.d == 0 && r.a == 0 && r.b == 0 && r.c == 0 && r.rel == 0 && r.ty == 0 && r.rnd == 0 && !r.sat && !r.ftz && r.sub == 0 && h.pred == 0 && !h.neg
  | .bra _ r => r.d == 0 && r.a == 0
  | .brc _ r => decide (r.d.toNat < 16) && r.a == 0
  | .brl _ r => r.a == 0
  | .jmpS _ r => r.d == 0 && r.b == 0 && r.c == 0 && r.rel == 0 && r.ty == 0 && r.rnd == 0 && !r.sat && !r.ftz && r.sub == 0
  | .jmpV _ r => r.d == 0 && r.b == 0 && r.c == 0 && r.rel == 0 && r.ty == 0 && r.rnd == 0 && !r.sat && !r.ftz && r.sub == 1
  | .call _ r => r.a == 0
  | .ret _ r => r.d == 0 && r.b == 0 && r.c == 0 && r.rel == 0 && r.ty == 0 && r.rnd == 0 && !r.sat && !r.ftz && r.sub == 0
  | .reconv _ r => r.d == 0 && r.b == 0 && r.c == 0 && r.rel == 0 && r.ty == 0 && r.rnd == 0 && !r.sat && !r.ftz && r.sub == 0
  | .exit _ r => r.d == 0 && r.a == 0 && r.b == 0 && r.c == 0 && r.rel == 0 && r.ty == 0 && r.rnd == 0 && !r.sat && !r.ftz && r.sub == 0
  | .yield _ r => r.d == 0 && r.a == 0 && r.b == 0 && r.c == 0 && r.rel == 0 && r.ty == 0 && r.rnd == 0 && !r.sat && !r.ftz && r.sub == 0
  | .trap _ r => r.d == 0 && r.a == 0 && decide (r.imm.toNat < 65536)
  | .brk _ r => r.d == 0 && r.a == 0 && decide (r.imm.toNat < 65536)
  | .vmov h r => r.b == 0 && relOk r (.vmov h r) && tyIn r [16, 17] && r.rnd == 0 && !r.sat && !r.ftz && r.sub == 0
  | .vmovi _ r => r.a == 0
  | .vadd h r => relOk r (.vadd h r) && tyIn r [4, 5, 13, 14] && r.rnd == 0 && !r.ftz && r.sub == 0
  | .vsub h r => relOk r (.vsub h r) && tyIn r [4, 5, 13, 14] && r.rnd == 0 && !r.ftz && r.sub == 0
  | .vmul h r => relOk r (.vmul h r) && tyIn r [4, 5] && r.rnd == 0 && !r.ftz && r.sub == 0
  | .vmulh h r => relOk r (.vmulh h r) && tyIn r [4, 5] && r.rnd == 0 && !r.sat && !r.ftz && r.sub == 0
  | .vmad _ r => r.rel == 0 && tyIn r [4, 5] && r.rnd == 0 && !r.ftz && r.sub == 0
  | .vmin h r => relOk r (.vmin h r) && tyIn r [4, 5, 13, 14] && r.rnd == 0 && !r.sat && !r.ftz && r.sub == 0
  | .vmax h r => relOk r (.vmax h r) && tyIn r [4, 5, 13, 14] && r.rnd == 0 && !r.sat && !r.ftz && r.sub == 0
  | .vabs h r => r.b == 0 && relOk r (.vabs h r) && r.ty == 0 && r.rnd == 0 && !r.ftz && r.sub == 0
  | .vneg h r => r.b == 0 && relOk r (.vneg h r) && r.ty == 0 && r.rnd == 0 && !r.ftz && r.sub == 0
  | .vand h r => relOk r (.vand h r) && tyIn r [16, 17] && r.rnd == 0 && !r.sat && !r.ftz && r.sub == 0
  | .vor h r => relOk r (.vor h r) && tyIn r [16, 17] && r.rnd == 0 && !r.sat && !r.ftz && r.sub == 0
  | .vxor h r => relOk r (.vxor h r) && tyIn r [16, 17] && r.rnd == 0 && !r.sat && !r.ftz && r.sub == 0
  | .vnot h r => r.b == 0 && relOk r (.vnot h r) && tyIn r [16, 17] && r.rnd == 0 && !r.sat && !r.ftz && r.sub == 0
  | .vshl h r => relOk r (.vshl h r) && tyIn r [16, 17] && r.rnd == 0 && !r.sat && !r.ftz && r.sub == 0
  | .vshr h r => relOk r (.vshr h r) && tyIn r [16, 17] && r.rnd == 0 && !r.sat && !r.ftz && r.sub == 0
  | .vsra h r => relOk r (.vsra h r) && tyIn r [16, 17] && r.rnd == 0 && !r.sat && !r.ftz && r.sub == 0
  | .vrot h r => relOk r (.vrot h r) && r.ty == 0 && r.rnd == 0 && !r.sat && !r.ftz && r.sub == 0
  | .vbfe h r => relOk r (.vbfe h r) && tyIn r [4, 5] && r.rnd == 0 && !r.sat && !r.ftz && r.sub == 0
  | .vbfi _ r => r.rel == 0 && r.ty == 0 && r.rnd == 0 && !r.sat && !r.ftz && r.sub == 0
  | .vpopc h r => r.b == 0 && relOk r (.vpopc h r) && r.ty == 0 && r.rnd == 0 && !r.sat && !r.ftz && r.sub == 0
  | .vclz h r => r.b == 0 && relOk r (.vclz h r) && r.ty == 0 && r.rnd == 0 && !r.sat && !r.ftz && r.sub == 0
  | .vbrev h r => r.b == 0 && relOk r (.vbrev h r) && r.ty == 0 && r.rnd == 0 && !r.sat && !r.ftz && r.sub == 0
  | .vcmp h r => relOk r (.vcmp h r) && tyIn r [4, 5, 13, 14] && r.rnd == 0 && !r.sat && !r.ftz && decide (r.sub.toNat <= 5)
  | .vsel _ r => r.rel == 0 && tyIn r [16, 17] && r.rnd == 0 && !r.sat && !r.ftz && r.sub == 0
  | .vaddc _ r => r.rel == 0 && r.ty == 0 && r.rnd == 0 && !r.sat && !r.ftz && r.sub == 0
  | .vdot4 _ r => r.rel == 0 && r.ty == 0 && r.rnd == 0 && !r.ftz && decide (r.sub.toNat <= 3)
  | .vidx h r => relOk r (.vidx h r) && r.ty == 0 && r.rnd == 0 && !r.sat && !r.ftz && r.sub == 0
  | .vfadd h r => relOk r (.vfadd h r) && tyIn r [6, 12, 19, 20] && r.sub == 0
  | .vfsub h r => relOk r (.vfsub h r) && tyIn r [6, 12, 19, 20] && r.sub == 0
  | .vfmul h r => relOk r (.vfmul h r) && tyIn r [6, 12, 19, 20] && r.sub == 0
  | .vfma _ r => r.rel == 0 && tyIn r [6, 12, 19, 20] && r.sub == 0
  | .vfmin h r => relOk r (.vfmin h r) && tyIn r [6, 12, 19, 20] && r.rnd == 0 && !r.sat && r.sub == 0
  | .vfmax h r => relOk r (.vfmax h r) && tyIn r [6, 12, 19, 20] && r.rnd == 0 && !r.sat && r.sub == 0
  | .vfcmp h r => relOk r (.vfcmp h r) && tyIn r [6, 12] && r.rnd == 0 && !r.sat
  | .vfclass h r => r.b == 0 && relOk r (.vfclass h r) && tyIn r [6, 12] && r.rnd == 0 && !r.sat && !r.ftz && r.sub == 0
  | .vfrnd h r => r.b == 0 && relOk r (.vfrnd h r) && tyIn r [6, 12] && !r.sat && r.sub == 0
  | .vfdiv h r => relOk r (.vfdiv h r) && tyIn r [6, 12] && r.sub == 0
  | .vfsqrt h r => r.b == 0 && relOk r (.vfsqrt h r) && tyIn r [6, 12] && !r.sat && r.sub == 0
  | .vfrcp h r => r.b == 0 && relOk r (.vfrcp h r) && r.ty == 0 && r.rnd == 0 && !r.sat && r.sub == 0
  | .vfrsq h r => r.b == 0 && relOk r (.vfrsq h r) && r.ty == 0 && r.rnd == 0 && !r.sat && r.sub == 0
  | .vfexp2 h r => r.b == 0 && relOk r (.vfexp2 h r) && r.ty == 0 && r.rnd == 0 && !r.sat && r.sub == 0
  | .vflog2 h r => r.b == 0 && relOk r (.vflog2 h r) && r.ty == 0 && r.rnd == 0 && !r.sat && r.sub == 0
  | .vfsin h r => r.b == 0 && relOk r (.vfsin h r) && r.ty == 0 && r.rnd == 0 && !r.sat && r.sub == 0
  | .vfcos h r => r.b == 0 && relOk r (.vfcos h r) && r.ty == 0 && r.rnd == 0 && !r.sat && r.sub == 0
  | .vftanh h r => r.b == 0 && relOk r (.vftanh h r) && r.ty == 0 && r.rnd == 0 && !r.sat && r.sub == 0
  | .vfscale h r => relOk r (.vfscale h r) && tyIn r [6, 12] && r.sub == 0
  | .vfdot2 _ r => r.rel == 0 && tyIn r [19, 20] && r.sub == 0
  | .vcvt _ r => r.rel == 0 && r.sub == 0 && vcvtOk r
  | .vpack8 h r => r.b == 0 && relOk r (.vpack8 h r) && r.sub == 0 && vpack8Ok r
  | .vunpk8 h r => r.b == 0 && relOk r (.vunpk8 h r) && tyIn r [0, 1, 9, 10] && r.rnd == 0 && !r.sat && !r.ftz && r.sub == 0
  | .vquant _ r => r.rel == 0 && r.ty == 0 && r.rnd == 0 && !r.sat && !r.ftz && r.sub == 0
  | .vdeq _ r => r.rel == 0 && tyIn r [8, 6] && r.sub == 0
  | .vbscale _ r => r.b == 0 && r.rel == 0 && r.ty == 0 && r.rnd == 0 && !r.sat && !r.ftz && r.sub == 0
  | .vshfl _ r => r.rel == 0 && r.ty == 0 && r.rnd == 0 && !r.sat && !r.ftz && r.sub == 0
  | .vshup _ r => r.rel == 0 && r.ty == 0 && r.rnd == 0 && !r.sat && !r.ftz && r.sub == 0
  | .vshdn _ r => r.rel == 0 && r.ty == 0 && r.rnd == 0 && !r.sat && !r.ftz && r.sub == 0
  | .vshxr _ r => r.rel == 0 && r.ty == 0 && r.rnd == 0 && !r.sat && !r.ftz && r.sub == 0
  | .vbcast _ r => r.rel == 0 && r.ty == 0 && r.rnd == 0 && !r.sat && !r.ftz && r.sub == 0
  | .v2s _ r => r.rel == 0 && r.ty == 0 && r.rnd == 0 && !r.sat && !r.ftz && r.sub == 0
  | .s2v _ r => r.b == 0 && r.rel == 0 && r.ty == 0 && r.rnd == 0 && !r.sat && !r.ftz && r.sub == 0
  | .vred _ r => r.b == 0 && r.rel == 0 && tyIn r [4, 5, 6] && decide (r.sub.toNat <= 5) && vredOk r
  | .vscan _ r => r.rel == 0 && tyIn r [4, 5, 6] && decide (r.sub.toNat <= 5) && vredOk r && decide (r.b.toNat <= 1)
  | .vvote _ r => r.b == 0 && r.rel == 0 && r.ty == 0 && r.rnd == 0 && !r.sat && !r.ftz && decide (r.sub.toNat <= 2)
  | .vmatch _ r => r.b == 0 && r.rel == 0 && r.ty == 0 && r.rnd == 0 && !r.sat && !r.ftz && r.sub == 0
  | .vcomp _ r => r.b == 0 && r.rel == 0 && r.ty == 0 && r.rnd == 0 && !r.sat && !r.ftz && r.sub == 0
  | .vexpd _ r => r.b == 0 && r.rel == 0 && r.ty == 0 && r.rnd == 0 && !r.sat && !r.ftz && r.sub == 0
  | .ld _ r => mAddr r && r.c == 0 && ordIn r [0, 1]
  | .st _ r => mAddr r && r.c == 0 && ordIn r [0, 2]
  | .lds _ r => mAddr r && r.c == 0 && ordIn r [0, 1]
  | .sts _ r => mAddr r && r.c == 0 && ordIn r [0, 2]
  | .ldl _ r => mAddr r && r.c == 0 && ordIn r [0, 1]
  | .stl _ r => mAddr r && r.c == 0 && ordIn r [0, 2]
  | .pfh _ r => mAddr r && decide (r.d.toNat <= 1) && r.c == 0 && ordIn r [0] && r.mtype == 0 && r.flag == 15
  | .atom _ r => mAddr r && decide (r.c.toNat < 16) && ordIn r [0, 1, 2, 3] && atopOk r.c.toNat r.mtype.toNat true
  | .acas _ r => mAddr r && ordIn r [0, 1, 2, 3] && decide (4 <= r.mtype.toNat) && decide (r.mtype.toNat <= 12)
  | .red _ r => mAddr r && decide (r.c.toNat < 16) && ordIn r [0, 2] && atopOk r.c.toNat r.mtype.toNat false
  | .fence _ r => mPlain r && r.d == 0 && r.sb == 0 && r.b == 0 && r.c == 0 && r.ord != 0 && (!r.sc || r.ord == 3) && r.mtype == 0
  | .flushr _ r => mPlain r && r.b == 0 && ordIn r [0] && r.mtype == 0
  | .invr _ r => mPlain r && r.b == 0 && ordIn r [0] && r.mtype == 0
  | .bar _ r => mPlain r && r.sb == 0 && ordIn r [0] && r.mtype == 0 && r.flag == 15 && barOk r && (r.scope != 1 || decide (r.b.toNat <= 32)) && (r.scope == 1 || r.b == 0)
  | .bara _ r => mPlain r && r.sb == 0 && ordIn r [0] && r.mtype == 0 && r.flag == 15 && barOk r && (r.scope != 1 || decide (r.b.toNat <= 32)) && (r.scope == 1 || r.b == 0)
  | .barw _ r => mPlain r && r.sb == 0 && r.b == 0 && r.c == 0 && ordIn r [0] && r.mtype == 0 && r.flag == 15 && barOk r
  | .waitva _ r => mAddr r && r.am != 3 && r.c == 0 && ordIn r [0, 1] && (r.mtype == 5 || r.mtype == 10) && r.flag == 15
  | .wakeva _ r => mPlain r && ordIn r [0, 2] && (r.mtype == 5 || r.mtype == 10)
  | .ecset _ r => mPlain r && r.d == 0 && r.b == 0 && ordIn r [0, 2] && r.mtype == 0
  | .ecadd _ r => mPlain r && r.b == 0 && ordIn r [0, 2] && r.mtype == 0
  | .ecwait _ r => mPlain r && r.d == 0 && r.b == 0 && ordIn r [0] && r.mtype == 0 && r.flag == 15
  | .ecq _ r => mPlain r && r.sb == 0 && r.b == 0 && ordIn r [0, 1] && r.mtype == 0
  | .fwait _ r => mPlain r && r.d == 0 && r.sb == 0 && decide (r.c.toNat < 16) && ordIn r [0] && r.mtype == 0 && r.flag == 15
  | .pin _ r => mPlain r && ordIn r [0] && r.mtype == 0
  | .unpin _ r => mPlain r && ordIn r [0] && r.mtype == 0
  | .hint _ r => mPlain r && ordIn r [0] && r.mtype == 0
  | .tierq _ r => mAddr r && r.c == 0 && ordIn r [0] && r.mtype == 15
  | .ldsh _ r => flagOk r.flag && r.scope == 1 && r.b == 0 && r.c == 0 && r.opt == 0
  | .evsh _ r => flagOk r.flag && r.scope == 1 && r.d == 0 && r.c == 0 && r.opt == 0
  | .shset _ r => flagOk r.flag && r.scope == 1 && r.b == 0 && r.c == 0 && decide (r.opt.toNat < 8)
  | .shget _ r => flagOk r.flag && r.scope == 1 && r.b == 0 && r.c == 0 && decide (r.opt.toNat < 8)
  | .cbld _ r => flagOk r.flag && r.scope == 1 && r.b == 0 && r.c == 0 && r.opt == 0
  | .cpy _ r => flagOk r.flag && decide (1 <= r.scope.toNat) && decide (r.scope.toNat <= 5) && r.b == 0 && r.opt == 0
  | .cpyg _ r => flagOk r.flag && decide (1 <= r.scope.toNat) && decide (r.scope.toNat <= 5) && r.opt == 0
  | .rdh _ r => flagOk r.flag && r.scope == 1 && r.opt == 0
  | .rdhg _ r => flagOk r.flag && r.scope == 1 && r.opt == 0
  | .lend _ r => flagOk r.flag && r.scope == 1 && r.d == 0 && r.a == 0 && r.b == 0 && r.c == 0 && r.opt == 0 && r.flag == 15
  | .lendStop _ r => flagOk r.flag && r.scope == 1 && r.d == 0 && r.a == 0 && r.b == 0 && r.c == 0 && r.opt == 1 && r.flag == 15
  | .sub _ r => flagOk r.flag && decide (1 <= r.scope.toNat) && decide (r.scope.toNat <= 5) && r.opt == 0
  | .unsub _ r => flagOk r.flag && decide (1 <= r.scope.toNat) && decide (r.scope.toNat <= 5) && r.b == 0 && r.opt == 0
  | .subq _ r => flagOk r.flag && r.scope == 1 && r.b == 0 && r.c == 0 && decide (r.opt.toNat <= 1)
  | .pubfl _ r => flagOk r.flag && decide (1 <= r.scope.toNat) && decide (r.scope.toNat <= 5) && r.d == 0 && r.a == 0 && r.b == 0 && r.opt == 0
  | .mma _ r => flagOk r.flag && decide (1 <= r.scope.toNat) && decide (r.scope.toNat <= 5) && decide (r.opt.toNat / 16 % 4 != 0)
  | .mmz _ r => flagOk r.flag && r.scope == 1 && r.a == 0 && r.b == 0 && r.c == 0 && decide (r.opt.toNat < 16)
  | .accld _ r => flagOk r.flag && r.scope == 1 && r.b == 0 && r.c == 0 && decide (r.opt.toNat / 16 % 4 != 0) && decide (r.opt.toNat % 16 = 0) && decide (r.opt.toNat < 64)
  | .accst _ r => flagOk r.flag && decide (1 <= r.scope.toNat) && decide (r.scope.toNat <= 5) && decide (r.opt.toNat / 16 % 4 != 0) && decide (r.opt.toNat % 4 != 3) && decide (r.opt.toNat < 64)
  | .accrd _ r => flagOk r.flag && r.scope == 1 && r.c == 0 && r.opt == 0
  | .accwr _ r => flagOk r.flag && r.scope == 1 && r.c == 0 && r.opt == 0
  | .push _ r => flagOk r.flag && r.scope == 1 && r.opt == 0
  | .qfence _ r => flagOk r.flag && decide (1 <= r.scope.toNat) && decide (r.scope.toNat <= 5) && r.d == 0 && r.a == 0 && r.b == 0 && decide (r.opt.toNat < 32)
  | .sysc _ r => flagOk r.flag && r.scope == 1 && r.b == 0 && r.c == 0
  | .movpr _ r => r.b == 0 && r.c == 0 && r.rel == 0 && r.ty == 0 && r.rnd == 0 && !r.sat && !r.ftz && r.sub == 0 && movprOk r.a.toNat
  | .movrp _ r => r.d == 0 && r.c == 0 && r.rel == 0 && r.ty == 0 && r.rnd == 0 && !r.sat && !r.ftz && r.sub == 0 && movrpOk r.a.toNat
  | .tlbiAsid _ r => flagOk r.flag && r.scope == 1 && r.b == 0 && r.c == 0 && r.opt == 0
  | .tlbiVm _ r => flagOk r.flag && r.scope == 1 && r.b == 0 && r.c == 0 && r.opt == 1
  | .tlbiS2 _ r => flagOk r.flag && r.scope == 1 && r.b == 0 && r.c == 0 && r.opt == 2
  | .tlbiAll _ r => flagOk r.flag && r.scope == 1 && r.b == 0 && r.c == 0 && r.opt == 3
  | .tlbir _ r => flagOk r.flag && r.scope == 1 && r.opt == 0
  | .tlbirS2 _ r => flagOk r.flag && r.scope == 1 && r.opt == 1
  | .atp _ r => flagOk r.flag && r.scope == 1 && r.b == 0 && r.c == 0 && decide (r.opt.toNat < 8) && decide (r.opt.toNat % 4 != 3)
  | .lcinv _ r => flagOk r.flag && r.scope == 1 && r.d == 0 && r.c == 0 && r.opt == 0
  | .lcinvAll _ r => flagOk r.flag && r.scope == 1 && r.d == 0 && r.a == 0 && r.b == 0 && r.c == 0 && r.opt == 1
  | .notifyw _ r => flagOk r.flag && r.scope == 1 && r.c == 0 && r.opt == 0
  | .halt _ r => flagOk r.flag && r.scope == 1 && r.d == 0 && r.a == 0 && r.b == 0 && r.c == 0 && r.opt == 0 && r.flag == 15
  | .ecciCorr _ r => flagOk r.flag && r.scope == 1 && r.d == 0 && r.c == 0 && r.opt == 0
  | .ecciUnc _ r => flagOk r.flag && r.scope == 1 && r.d == 0 && r.c == 0 && r.opt == 1
  | _ => true

/-- How many numbers a file has (R41, R174). Vector numbers are bounded by the allocation only (R60). -/
def fileSize : RegFile → Nat
  | .s => 64
  | .v => 1024
  | .k => 16
  | .ec => 64
  | .sh => 32
  | .cb => 8
  | .acc => 16

/-- R174: every operand's numbers lie within its file; of a tile range, the field, which names the first tile (R268 checks the others
against the block's count). -/
def opndOk (o : Opnd) : Bool :=
  if o.file == .acc then decide (o.num < fileSize o.file) else decide (o.num + o.len ≤ fileSize o.file)

/-- R174 over all operands of an instruction. -/
def opndsOk (i : Instr) : Bool := (opnds i).all opndOk

/-- A legal instruction: its fields keep their rules and its operands lie within their files (R174). Host words and events have no
field that could break a rule: the free bits of a host word are its register numbers (R266). -/
def legal (i : Instr) : Bool := fieldsOf i && opndsOk i

end Sys2Proof
end

