-- ==== Sys2Proof/WellFormed.lean ====
section
/-! DEFINITION. Well-formed instructions: the static checks of R174 that need nothing but the word. -/

namespace Sys2Proof

/-- An instruction whose fields and operand numbers keep R174. Every event and host word is well formed. -/
def wellFormed (i : Instr) : Bool := legal i

/-- A legal instruction keeps the rules of its fields. -/
theorem fieldsOf_of_wellFormed {i : Instr} (h : wellFormed i = true) : fieldsOf i = true := by
  simp only [wellFormed, legal, Bool.and_eq_true] at h
  exact h.1

/-- A legal instruction's operands lie within their files. -/
theorem opndsOk_of_wellFormed {i : Instr} (h : wellFormed i = true) : opndsOk i = true := by
  simp only [wellFormed, legal, Bool.and_eq_true] at h
  exact h.2

end Sys2Proof
end

