-- ==== Sys2Proof/Decode.lean ====
section
/-! DEFINITION. Decoding and encoding: the clause header (R156), the instruction word and its formats (R162 to R170), the opcode map
(R185), the host words (R266, and RISC-V's fences for R318). The decoder is total and rejects by name. -/

namespace Sys2Proof

/-- Why a word is no instruction: a header mark in an instruction position (R157), an opcode that is not assigned (R185), a field
that breaks R174, or a host word that is neither Xtn3 nor a fence. -/
inductive Reject where
  | headerMark | opcode | field | hostWord
deriving DecidableEq, Repr

/-- The fields of a clause header (R156). -/
structure Header where
  mark  : BitVec 10
  count : BitVec 4
  cls   : BitVec 3
  wait  : BitVec 12
  yld   : Bool
  rsv   : BitVec 34
deriving DecidableEq, Repr

/-- R156: the fields of a header word. -/
def headerOf (w : DWord) : Header :=
  { mark := w.extractLsb' 54 10, count := w.extractLsb' 50 4, cls := w.extractLsb' 47 3, wait := w.extractLsb' 35 12,
    yld := w.getLsbD 34, rsv := w.extractLsb' 0 34 }

/-- R162: the opcode of a word. -/
def opOf (w : DWord) : BitVec 10 := w.extractLsb' 54 10

/-- R162: the prefix of a word. -/
def pfxOf (w : DWord) : Pfx := { stall := w.extractLsb' 51 3, pred := w.extractLsb' 47 4, neg := w.getLsbD 46 }

/-- R164: format R. -/
def fmtR (w : DWord) : FmtR :=
  { d := w.extractLsb' 38 8, a := w.extractLsb' 30 8, b := w.extractLsb' 22 8, c := w.extractLsb' 14 8, rel := w.extractLsb' 12 2,
    ty := w.extractLsb' 7 5, rnd := w.extractLsb' 5 2, sat := w.getLsbD 4, ftz := w.getLsbD 3, sub := w.extractLsb' 0 3 }

/-- R166: format I. -/
def fmtI (w : DWord) : FmtI := { d := w.extractLsb' 38 8, a := w.extractLsb' 30 8, imm := w.extractLsb' 0 30 }

/-- R167: format B. -/
def fmtB (w : DWord) : FmtB := { d := w.extractLsb' 38 8, a := w.extractLsb' 30 8, ofs := w.extractLsb' 0 30 }

/-- R168: format M. -/
def fmtM (w : DWord) : FmtM :=
  { d := w.extractLsb' 38 8, am := w.extractLsb' 36 2, sb := w.extractLsb' 30 6, b := w.extractLsb' 22 8, c := w.extractLsb' 14 8,
    ord := w.extractLsb' 12 2, scope := w.extractLsb' 9 3, mtype := w.extractLsb' 5 4, sc := w.getLsbD 4, flag := w.extractLsb' 0 4 }

/-- R170: format E. -/
def fmtE (w : DWord) : FmtE :=
  { d := w.extractLsb' 38 8, a := w.extractLsb' 30 8, b := w.extractLsb' 22 8, c := w.extractLsb' 14 8, scope := w.extractLsb' 11 3,
    opt := w.extractLsb' 4 7, flag := w.extractLsb' 0 4 }


/-- R185: the scalar group. -/
def decodeScalar (op : Nat) (h : Pfx) (w : DWord) : Option Instr :=
  match op with
  | 0x000 => some (.smov h (fmtR w))
  | 0x001 => some (.smovi h (fmtI w))
  | 0x002 => some (.sadd h (fmtR w))
  | 0x003 => some (.saddi h (fmtI w))
  | 0x004 => some (.ssub h (fmtR w))
  | 0x005 => some (.smul h (fmtR w))
  | 0x006 => some (.smulh h (fmtR w))
  | 0x007 => some (.sdiv h (fmtR w))
  | 0x008 => some (.srem h (fmtR w))
  | 0x009 => some (.sand h (fmtR w))
  | 0x00A => some (.sor h (fmtR w))
  | 0x00B => some (.sxor h (fmtR w))
  | 0x00C => some (.sshl h (fmtR w))
  | 0x00D => some (.sshr h (fmtR w))
  | 0x00E => some (.ssra h (fmtR w))
  | 0x00F => some (.smin h (fmtR w))
  | 0x010 => some (.smax h (fmtR w))
  | 0x011 => some (.scmp h (fmtR w))
  | 0x012 => some (.ssel h (fmtR w))
  | 0x013 => some (.slea h (fmtR w))
  | 0x014 => some (.sbfe h (fmtR w))
  | 0x015 => some (.sbfi h (fmtR w))
  | 0x016 => some (.spopc h (fmtR w))
  | 0x017 => some (.sclz h (fmtR w))
  | 0x018 => some (.movsr h (fmtR w))
  | 0x019 => some (.movrs h (fmtR w))
  | _ => none

/-- R185, R207: the mask group; `KMOV` has one row for each SUB. -/
def decodeMask (op : Nat) (h : Pfx) (w : DWord) : Option Instr :=
  match op with
  | 0x040 => if (fmtR w).sub == 0 then some (.kmovK h (fmtR w)) else if (fmtR w).sub == 1 then some (.kmovFromS h (fmtR w)) else if (fmtR w).sub == 2 then some (.kmovToS h (fmtR w)) else none
  | 0x041 => some (.kand h (fmtR w))
  | 0x042 => some (.kor h (fmtR w))
  | 0x043 => some (.kxor h (fmtR w))
  | 0x044 => some (.knot h (fmtR w))
  | 0x045 => some (.kpopc h (fmtR w))
  | 0x046 => some (.kffs h (fmtR w))
  | 0x047 => some (.kset h (fmtI w))
  | _ => none

/-- R185, R209: the control group; `JMP` has one row for each SUB. -/
def decodeControl (op : Nat) (h : Pfx) (w : DWord) : Option Instr :=
  match op with
  | 0x060 => some (.nop h (fmtR w))
  | 0x061 => some (.bra h (fmtB w))
  | 0x062 => some (.brc h (fmtB w))
  | 0x063 => some (.brl h (fmtB w))
  | 0x064 => if (fmtR w).sub == 0 then some (.jmpS h (fmtR w)) else if (fmtR w).sub == 1 then some (.jmpV h (fmtR w)) else none
  | 0x065 => some (.call h (fmtB w))
  | 0x066 => some (.ret h (fmtR w))
  | 0x067 => some (.reconv h (fmtR w))
  | 0x068 => some (.exit h (fmtR w))
  | 0x069 => some (.yield h (fmtR w))
  | 0x06A => some (.trap h (fmtI w))
  | 0x06B => some (.brk h (fmtI w))
  | _ => none

/-- R185: the vector integer group. -/
def decodeVectorInt (op : Nat) (h : Pfx) (w : DWord) : Option Instr :=
  match op with
  | 0x080 => some (.vmov h (fmtR w))
  | 0x081 => some (.vmovi h (fmtI w))
  | 0x082 => some (.vadd h (fmtR w))
  | 0x083 => some (.vsub h (fmtR w))
  | 0x084 => some (.vmul h (fmtR w))
  | 0x085 => some (.vmulh h (fmtR w))
  | 0x086 => some (.vmad h (fmtR w))
  | 0x087 => some (.vmin h (fmtR w))
  | 0x088 => some (.vmax h (fmtR w))
  | 0x089 => some (.vabs h (fmtR w))
  | 0x08A => some (.vneg h (fmtR w))
  | 0x08B => some (.vand h (fmtR w))
  | 0x08C => some (.vor h (fmtR w))
  | 0x08D => some (.vxor h (fmtR w))
  | 0x08E => some (.vnot h (fmtR w))
  | 0x08F => some (.vshl h (fmtR w))
  | 0x090 => some (.vshr h (fmtR w))
  | 0x091 => some (.vsra h (fmtR w))
  | 0x092 => some (.vrot h (fmtR w))
  | 0x093 => some (.vbfe h (fmtR w))
  | 0x094 => some (.vbfi h (fmtR w))
  | 0x095 => some (.vpopc h (fmtR w))
  | 0x096 => some (.vclz h (fmtR w))
  | 0x097 => some (.vbrev h (fmtR w))
  | 0x098 => some (.vcmp h (fmtR w))
  | 0x099 => some (.vsel h (fmtR w))
  | 0x09A => some (.vaddc h (fmtR w))
  | 0x09B => some (.vdot4 h (fmtR w))
  | 0x09C => some (.vidx h (fmtR w))
  | _ => none

/-- R185: the vector float group. -/
def decodeVectorFloat (op : Nat) (h : Pfx) (w : DWord) : Option Instr :=
  match op with
  | 0x100 => some (.vfadd h (fmtR w))
  | 0x101 => some (.vfsub h (fmtR w))
  | 0x102 => some (.vfmul h (fmtR w))
  | 0x103 => some (.vfma h (fmtR w))
  | 0x104 => some (.vfmin h (fmtR w))
  | 0x105 => some (.vfmax h (fmtR w))
  | 0x106 => some (.vfcmp h (fmtR w))
  | 0x107 => some (.vfclass h (fmtR w))
  | 0x108 => some (.vfrnd h (fmtR w))
  | 0x109 => some (.vfdiv h (fmtR w))
  | 0x10A => some (.vfsqrt h (fmtR w))
  | 0x10B => some (.vfrcp h (fmtR w))
  | 0x10C => some (.vfrsq h (fmtR w))
  | 0x10D => some (.vfexp2 h (fmtR w))
  | 0x10E => some (.vflog2 h (fmtR w))
  | 0x10F => some (.vfsin h (fmtR w))
  | 0x110 => some (.vfcos h (fmtR w))
  | 0x111 => some (.vftanh h (fmtR w))
  | 0x112 => some (.vfscale h (fmtR w))
  | 0x113 => some (.vfdot2 h (fmtR w))
  | _ => none

/-- R185: the conversion group. -/
def decodeConvert (op : Nat) (h : Pfx) (w : DWord) : Option Instr :=
  match op with
  | 0x180 => some (.vcvt h (fmtR w))
  | 0x181 => some (.vpack8 h (fmtR w))
  | 0x182 => some (.vunpk8 h (fmtR w))
  | 0x183 => some (.vquant h (fmtR w))
  | 0x184 => some (.vdeq h (fmtR w))
  | 0x185 => some (.vbscale h (fmtR w))
  | _ => none

/-- R185: the cross-lane group. -/
def decodeCrossLane (op : Nat) (h : Pfx) (w : DWord) : Option Instr :=
  match op with
  | 0x1A0 => some (.vshfl h (fmtR w))
  | 0x1A1 => some (.vshup h (fmtR w))
  | 0x1A2 => some (.vshdn h (fmtR w))
  | 0x1A3 => some (.vshxr h (fmtR w))
  | 0x1A4 => some (.vbcast h (fmtR w))
  | 0x1A5 => some (.v2s h (fmtR w))
  | 0x1A6 => some (.s2v h (fmtR w))
  | 0x1A7 => some (.vred h (fmtR w))
  | 0x1A8 => some (.vscan h (fmtR w))
  | 0x1A9 => some (.vvote h (fmtR w))
  | 0x1AA => some (.vmatch h (fmtR w))
  | 0x1AB => some (.vcomp h (fmtR w))
  | 0x1AC => some (.vexpd h (fmtR w))
  | _ => none

/-- R185: the memory group. -/
def decodeMemory (op : Nat) (h : Pfx) (w : DWord) : Option Instr :=
  match op with
  | 0x1C0 => some (.ld h (fmtM w))
  | 0x1C1 => some (.st h (fmtM w))
  | 0x1C2 => some (.lds h (fmtM w))
  | 0x1C3 => some (.sts h (fmtM w))
  | 0x1C4 => some (.ldl h (fmtM w))
  | 0x1C5 => some (.stl h (fmtM w))
  | 0x1C6 => some (.pfh h (fmtM w))
  | 0x1C7 => some (.atom h (fmtM w))
  | 0x1C8 => some (.acas h (fmtM w))
  | 0x1C9 => some (.red h (fmtM w))
  | 0x1CA => some (.fence h (fmtM w))
  | 0x1CB => some (.flushr h (fmtM w))
  | 0x1CC => some (.invr h (fmtM w))
  | _ => none

/-- R185: the synchronisation group. -/
def decodeSync (op : Nat) (h : Pfx) (w : DWord) : Option Instr :=
  match op with
  | 0x200 => some (.bar h (fmtM w))
  | 0x201 => some (.bara h (fmtM w))
  | 0x202 => some (.barw h (fmtM w))
  | 0x203 => some (.waitva h (fmtM w))
  | 0x204 => some (.wakeva h (fmtM w))
  | 0x205 => some (.ecset h (fmtM w))
  | 0x206 => some (.ecadd h (fmtM w))
  | 0x207 => some (.ecwait h (fmtM w))
  | 0x208 => some (.ecq h (fmtM w))
  | 0x209 => some (.fwait h (fmtM w))
  | _ => none

/-- R185: the placement group. -/
def decodePlacement (op : Nat) (h : Pfx) (w : DWord) : Option Instr :=
  match op with
  | 0x240 => some (.pin h (fmtM w))
  | 0x241 => some (.unpin h (fmtM w))
  | 0x242 => some (.hint h (fmtM w))
  | 0x243 => some (.tierq h (fmtM w))
  | _ => none

/-- R185: the engine group; `LEND` has one row for each OPT (R284). -/
def decodeEngine (op : Nat) (h : Pfx) (w : DWord) : Option Instr :=
  match op with
  | 0x260 => some (.ldsh h (fmtE w))
  | 0x261 => some (.evsh h (fmtE w))
  | 0x262 => some (.shset h (fmtE w))
  | 0x263 => some (.shget h (fmtE w))
  | 0x264 => some (.cbld h (fmtE w))
  | 0x265 => some (.cpy h (fmtE w))
  | 0x266 => some (.cpyg h (fmtE w))
  | 0x267 => some (.rdh h (fmtE w))
  | 0x268 => some (.rdhg h (fmtE w))
  | 0x269 => if (fmtE w).opt == 0 then some (.lend h (fmtE w)) else if (fmtE w).opt == 1 then some (.lendStop h (fmtE w)) else none
  | 0x26A => some (.sub h (fmtE w))
  | 0x26B => some (.unsub h (fmtE w))
  | 0x26C => some (.subq h (fmtE w))
  | 0x26D => some (.pubfl h (fmtE w))
  | 0x26E => some (.mma h (fmtE w))
  | 0x26F => some (.mmz h (fmtE w))
  | 0x270 => some (.accld h (fmtE w))
  | 0x271 => some (.accst h (fmtE w))
  | 0x272 => some (.accrd h (fmtE w))
  | 0x273 => some (.accwr h (fmtE w))
  | 0x274 => some (.push h (fmtE w))
  | 0x275 => some (.qfence h (fmtE w))
  | _ => none

/-- R185: the system group; `TLBI`, `TLBIR`, `LCINV` and `ECCI` have one row for each kind (R317, R320, R323). -/
def decodeSystem (op : Nat) (h : Pfx) (w : DWord) : Option Instr :=
  match op with
  | 0x300 => some (.sysc h (fmtE w))
  | 0x301 => some (.movpr h (fmtR w))
  | 0x302 => some (.movrp h (fmtR w))
  | 0x303 => if (fmtE w).opt == 0 then some (.tlbiAsid h (fmtE w)) else if (fmtE w).opt == 1 then some (.tlbiVm h (fmtE w)) else if (fmtE w).opt == 2 then some (.tlbiS2 h (fmtE w)) else if (fmtE w).opt == 3 then some (.tlbiAll h (fmtE w)) else none
  | 0x304 => if (fmtE w).opt == 0 then some (.tlbir h (fmtE w)) else if (fmtE w).opt == 1 then some (.tlbirS2 h (fmtE w)) else none
  | 0x305 => some (.atp h (fmtE w))
  | 0x306 => if (fmtE w).opt == 0 then some (.lcinv h (fmtE w)) else if (fmtE w).opt == 1 then some (.lcinvAll h (fmtE w)) else none
  | 0x307 => some (.notifyw h (fmtE w))
  | 0x308 => some (.halt h (fmtE w))
  | 0x309 => if (fmtE w).opt == 0 then some (.ecciCorr h (fmtE w)) else if (fmtE w).opt == 1 then some (.ecciUnc h (fmtE w)) else none
  | _ => none

/-- R185: the instruction an opcode names, its fields not yet checked. -/
def decodeOp (op : Nat) (h : Pfx) (w : DWord) : Option Instr :=
  if op < 0x040 then decodeScalar op h w
  else if op < 0x060 then decodeMask op h w
  else if op < 0x080 then decodeControl op h w
  else if op < 0x100 then decodeVectorInt op h w
  else if op < 0x180 then decodeVectorFloat op h w
  else if op < 0x1A0 then decodeConvert op h w
  else if op < 0x1C0 then decodeCrossLane op h w
  else if op < 0x200 then decodeMemory op h w
  else if op < 0x240 then decodeSync op h w
  else if op < 0x260 then decodePlacement op h w
  else if op < 0x300 then decodeEngine op h w
  else decodeSystem op h w

/-- R157, R174, R185: a word in an instruction position. -/
def decodeWord (w : DWord) : Except Reject Instr :=
  if opOf w == 0x3FF then .error .headerMark
  else match decodeOp (opOf w).toNat (pfxOf w) w with
    | none => .error .opcode
    | some i => if wellFormed i then .ok i else .error .field

/-- R266: the Xtn3 instruction that funct3 and funct7 name. -/
def decodeXtn3 (f3 f7 : Nat) (d a b : BitVec 5) : Option Instr :=
  match f3, f7 with
  | 0, 0 => some (.xpin d a b)
  | 1, 0 => some (.xunpin d a b)
  | 2, 0 => some (.xhint d a b)
  | 3, 0 => if b == 0 then some (.xtierqLo d a) else none
  | 3, 1 => if b == 0 then some (.xtierqHi d a) else none
  | 4, 0 => some (.xwaitvaW d a b)
  | 4, 1 => some (.xwaitvaD d a b)
  | 5, 0 => some (.xwakeva d a b)
  | _, _ => none

/-- The fences of R318 in RISC-V's SYSTEM encoding (funct3 0, rd 0). PRESUMED: the spec names them and leaves their words to RISC-V
(log entry 10). -/
def decodeFence (f7 : Nat) (a b : BitVec 5) : Option Instr :=
  match f7 with
  | 0x09 => some (.sfenceVma a b)
  | 0x11 => some (.hfenceVvma a b)
  | 0x31 => some (.hfenceGvma a b)
  | _ => none

/-- A 32-bit host word: Xtn3 (R266) or a fence (R318). Every other word belongs to RISC-V's own instruction set, which the spec only
names (R431). -/
def decodeHost (w : Word) : Except Reject Instr :=
  let op := w.extractLsb' 0 7
  let d := w.extractLsb' 7 5
  let f3 := (w.extractLsb' 12 3).toNat
  let a := w.extractLsb' 15 5
  let b := w.extractLsb' 20 5
  let f7 := (w.extractLsb' 25 7).toNat
  if op == 0x0B then
    match decodeXtn3 f3 f7 d a b with
    | some i => .ok i
    | none => .error .hostWord
  else if op == 0x73 && f3 == 0 && d == 0 then
    match decodeFence f7 a b with
    | some i => .ok i
    | none => .error .hostWord
  else .error .hostWord

/-- R162: a word from its opcode, prefix and body. -/
def joinWord (op : BitVec 10) (h : Pfx) (body : BitVec 46) : DWord :=
  op ++ (h.stall ++ (h.pred ++ (BitVec.ofBool h.neg ++ body)))

/-- R164: the body of a format R word. -/
def bitsR (r : FmtR) : BitVec 46 :=
  r.d ++ (r.a ++ (r.b ++ (r.c ++ (r.rel ++ (r.ty ++ (r.rnd ++ (BitVec.ofBool r.sat ++ (BitVec.ofBool r.ftz ++ r.sub))))))))

/-- R166: the body of a format I word. -/
def bitsI (r : FmtI) : BitVec 46 := r.d ++ (r.a ++ r.imm)

/-- R167: the body of a format B word. -/
def bitsB (r : FmtB) : BitVec 46 := r.d ++ (r.a ++ r.ofs)

/-- R168: the body of a format M word. -/
def bitsM (r : FmtM) : BitVec 46 :=
  r.d ++ (r.am ++ (r.sb ++ (r.b ++ (r.c ++ (r.ord ++ (r.scope ++ (r.mtype ++ (BitVec.ofBool r.sc ++ r.flag))))))))

/-- R170: the body of a format E word. -/
def bitsE (r : FmtE) : BitVec 46 := r.d ++ (r.a ++ (r.b ++ (r.c ++ (r.scope ++ (r.opt ++ r.flag)))))

/-- R156: a header word from its fields. -/
def joinHeader (h : Header) : DWord := h.mark ++ (h.count ++ (h.cls ++ (h.wait ++ (BitVec.ofBool h.yld ++ h.rsv))))


/-- The opcode and body of every compute instruction (R185). Host words and events have no 64-bit word. -/
def encodeWord : Instr → Option DWord
  | .smov h r => some (joinWord 0x000 h (bitsR r))
  | .smovi h r => some (joinWord 0x001 h (bitsI r))
  | .sadd h r => some (joinWord 0x002 h (bitsR r))
  | .saddi h r => some (joinWord 0x003 h (bitsI r))
  | .ssub h r => some (joinWord 0x004 h (bitsR r))
  | .smul h r => some (joinWord 0x005 h (bitsR r))
  | .smulh h r => some (joinWord 0x006 h (bitsR r))
  | .sdiv h r => some (joinWord 0x007 h (bitsR r))
  | .srem h r => some (joinWord 0x008 h (bitsR r))
  | .sand h r => some (joinWord 0x009 h (bitsR r))
  | .sor h r => some (joinWord 0x00A h (bitsR r))
  | .sxor h r => some (joinWord 0x00B h (bitsR r))
  | .sshl h r => some (joinWord 0x00C h (bitsR r))
  | .sshr h r => some (joinWord 0x00D h (bitsR r))
  | .ssra h r => some (joinWord 0x00E h (bitsR r))
  | .smin h r => some (joinWord 0x00F h (bitsR r))
  | .smax h r => some (joinWord 0x010 h (bitsR r))
  | .scmp h r => some (joinWord 0x011 h (bitsR r))
  | .ssel h r => some (joinWord 0x012 h (bitsR r))
  | .slea h r => some (joinWord 0x013 h (bitsR r))
  | .sbfe h r => some (joinWord 0x014 h (bitsR r))
  | .sbfi h r => some (joinWord 0x015 h (bitsR r))
  | .spopc h r => some (joinWord 0x016 h (bitsR r))
  | .sclz h r => some (joinWord 0x017 h (bitsR r))
  | .movsr h r => some (joinWord 0x018 h (bitsR r))
  | .movrs h r => some (joinWord 0x019 h (bitsR r))
  | .kmovK h r => some (joinWord 0x040 h (bitsR r))
  | .kmovFromS h r => some (joinWord 0x040 h (bitsR r))
  | .kmovToS h r => some (joinWord 0x040 h (bitsR r))
  | .kand h r => some (joinWord 0x041 h (bitsR r))
  | .kor h r => some (joinWord 0x042 h (bitsR r))
  | .kxor h r => some (joinWord 0x043 h (bitsR r))
  | .knot h r => some (joinWord 0x044 h (bitsR r))
  | .kpopc h r => some (joinWord 0x045 h (bitsR r))
  | .kffs h r => some (joinWord 0x046 h (bitsR r))
  | .kset h r => some (joinWord 0x047 h (bitsI r))
  | .nop h r => some (joinWord 0x060 h (bitsR r))
  | .bra h r => some (joinWord 0x061 h (bitsB r))
  | .brc h r => some (joinWord 0x062 h (bitsB r))
  | .brl h r => some (joinWord 0x063 h (bitsB r))
  | .jmpS h r => some (joinWord 0x064 h (bitsR r))
  | .jmpV h r => some (joinWord 0x064 h (bitsR r))
  | .call h r => some (joinWord 0x065 h (bitsB r))
  | .ret h r => some (joinWord 0x066 h (bitsR r))
  | .reconv h r => some (joinWord 0x067 h (bitsR r))
  | .exit h r => some (joinWord 0x068 h (bitsR r))
  | .yield h r => some (joinWord 0x069 h (bitsR r))
  | .trap h r => some (joinWord 0x06A h (bitsI r))
  | .brk h r => some (joinWord 0x06B h (bitsI r))
  | .vmov h r => some (joinWord 0x080 h (bitsR r))
  | .vmovi h r => some (joinWord 0x081 h (bitsI r))
  | .vadd h r => some (joinWord 0x082 h (bitsR r))
  | .vsub h r => some (joinWord 0x083 h (bitsR r))
  | .vmul h r => some (joinWord 0x084 h (bitsR r))
  | .vmulh h r => some (joinWord 0x085 h (bitsR r))
  | .vmad h r => some (joinWord 0x086 h (bitsR r))
  | .vmin h r => some (joinWord 0x087 h (bitsR r))
  | .vmax h r => some (joinWord 0x088 h (bitsR r))
  | .vabs h r => some (joinWord 0x089 h (bitsR r))
  | .vneg h r => some (joinWord 0x08A h (bitsR r))
  | .vand h r => some (joinWord 0x08B h (bitsR r))
  | .vor h r => some (joinWord 0x08C h (bitsR r))
  | .vxor h r => some (joinWord 0x08D h (bitsR r))
  | .vnot h r => some (joinWord 0x08E h (bitsR r))
  | .vshl h r => some (joinWord 0x08F h (bitsR r))
  | .vshr h r => some (joinWord 0x090 h (bitsR r))
  | .vsra h r => some (joinWord 0x091 h (bitsR r))
  | .vrot h r => some (joinWord 0x092 h (bitsR r))
  | .vbfe h r => some (joinWord 0x093 h (bitsR r))
  | .vbfi h r => some (joinWord 0x094 h (bitsR r))
  | .vpopc h r => some (joinWord 0x095 h (bitsR r))
  | .vclz h r => some (joinWord 0x096 h (bitsR r))
  | .vbrev h r => some (joinWord 0x097 h (bitsR r))
  | .vcmp h r => some (joinWord 0x098 h (bitsR r))
  | .vsel h r => some (joinWord 0x099 h (bitsR r))
  | .vaddc h r => some (joinWord 0x09A h (bitsR r))
  | .vdot4 h r => some (joinWord 0x09B h (bitsR r))
  | .vidx h r => some (joinWord 0x09C h (bitsR r))
  | .vfadd h r => some (joinWord 0x100 h (bitsR r))
  | .vfsub h r => some (joinWord 0x101 h (bitsR r))
  | .vfmul h r => some (joinWord 0x102 h (bitsR r))
  | .vfma h r => some (joinWord 0x103 h (bitsR r))
  | .vfmin h r => some (joinWord 0x104 h (bitsR r))
  | .vfmax h r => some (joinWord 0x105 h (bitsR r))
  | .vfcmp h r => some (joinWord 0x106 h (bitsR r))
  | .vfclass h r => some (joinWord 0x107 h (bitsR r))
  | .vfrnd h r => some (joinWord 0x108 h (bitsR r))
  | .vfdiv h r => some (joinWord 0x109 h (bitsR r))
  | .vfsqrt h r => some (joinWord 0x10A h (bitsR r))
  | .vfrcp h r => some (joinWord 0x10B h (bitsR r))
  | .vfrsq h r => some (joinWord 0x10C h (bitsR r))
  | .vfexp2 h r => some (joinWord 0x10D h (bitsR r))
  | .vflog2 h r => some (joinWord 0x10E h (bitsR r))
  | .vfsin h r => some (joinWord 0x10F h (bitsR r))
  | .vfcos h r => some (joinWord 0x110 h (bitsR r))
  | .vftanh h r => some (joinWord 0x111 h (bitsR r))
  | .vfscale h r => some (joinWord 0x112 h (bitsR r))
  | .vfdot2 h r => some (joinWord 0x113 h (bitsR r))
  | .vcvt h r => some (joinWord 0x180 h (bitsR r))
  | .vpack8 h r => some (joinWord 0x181 h (bitsR r))
  | .vunpk8 h r => some (joinWord 0x182 h (bitsR r))
  | .vquant h r => some (joinWord 0x183 h (bitsR r))
  | .vdeq h r => some (joinWord 0x184 h (bitsR r))
  | .vbscale h r => some (joinWord 0x185 h (bitsR r))
  | .vshfl h r => some (joinWord 0x1A0 h (bitsR r))
  | .vshup h r => some (joinWord 0x1A1 h (bitsR r))
  | .vshdn h r => some (joinWord 0x1A2 h (bitsR r))
  | .vshxr h r => some (joinWord 0x1A3 h (bitsR r))
  | .vbcast h r => some (joinWord 0x1A4 h (bitsR r))
  | .v2s h r => some (joinWord 0x1A5 h (bitsR r))
  | .s2v h r => some (joinWord 0x1A6 h (bitsR r))
  | .vred h r => some (joinWord 0x1A7 h (bitsR r))
  | .vscan h r => some (joinWord 0x1A8 h (bitsR r))
  | .vvote h r => some (joinWord 0x1A9 h (bitsR r))
  | .vmatch h r => some (joinWord 0x1AA h (bitsR r))
  | .vcomp h r => some (joinWord 0x1AB h (bitsR r))
  | .vexpd h r => some (joinWord 0x1AC h (bitsR r))
  | .ld h r => some (joinWord 0x1C0 h (bitsM r))
  | .st h r => some (joinWord 0x1C1 h (bitsM r))
  | .lds h r => some (joinWord 0x1C2 h (bitsM r))
  | .sts h r => some (joinWord 0x1C3 h (bitsM r))
  | .ldl h r => some (joinWord 0x1C4 h (bitsM r))
  | .stl h r => some (joinWord 0x1C5 h (bitsM r))
  | .pfh h r => some (joinWord 0x1C6 h (bitsM r))
  | .atom h r => some (joinWord 0x1C7 h (bitsM r))
  | .acas h r => some (joinWord 0x1C8 h (bitsM r))
  | .red h r => some (joinWord 0x1C9 h (bitsM r))
  | .fence h r => some (joinWord 0x1CA h (bitsM r))
  | .flushr h r => some (joinWord 0x1CB h (bitsM r))
  | .invr h r => some (joinWord 0x1CC h (bitsM r))
  | .bar h r => some (joinWord 0x200 h (bitsM r))
  | .bara h r => some (joinWord 0x201 h (bitsM r))
  | .barw h r => some (joinWord 0x202 h (bitsM r))
  | .waitva h r => some (joinWord 0x203 h (bitsM r))
  | .wakeva h r => some (joinWord 0x204 h (bitsM r))
  | .ecset h r => some (joinWord 0x205 h (bitsM r))
  | .ecadd h r => some (joinWord 0x206 h (bitsM r))
  | .ecwait h r => some (joinWord 0x207 h (bitsM r))
  | .ecq h r => some (joinWord 0x208 h (bitsM r))
  | .fwait h r => some (joinWord 0x209 h (bitsM r))
  | .pin h r => some (joinWord 0x240 h (bitsM r))
  | .unpin h r => some (joinWord 0x241 h (bitsM r))
  | .hint h r => some (joinWord 0x242 h (bitsM r))
  | .tierq h r => some (joinWord 0x243 h (bitsM r))
  | .ldsh h r => some (joinWord 0x260 h (bitsE r))
  | .evsh h r => some (joinWord 0x261 h (bitsE r))
  | .shset h r => some (joinWord 0x262 h (bitsE r))
  | .shget h r => some (joinWord 0x263 h (bitsE r))
  | .cbld h r => some (joinWord 0x264 h (bitsE r))
  | .cpy h r => some (joinWord 0x265 h (bitsE r))
  | .cpyg h r => some (joinWord 0x266 h (bitsE r))
  | .rdh h r => some (joinWord 0x267 h (bitsE r))
  | .rdhg h r => some (joinWord 0x268 h (bitsE r))
  | .lend h r => some (joinWord 0x269 h (bitsE r))
  | .lendStop h r => some (joinWord 0x269 h (bitsE r))
  | .sub h r => some (joinWord 0x26A h (bitsE r))
  | .unsub h r => some (joinWord 0x26B h (bitsE r))
  | .subq h r => some (joinWord 0x26C h (bitsE r))
  | .pubfl h r => some (joinWord 0x26D h (bitsE r))
  | .mma h r => some (joinWord 0x26E h (bitsE r))
  | .mmz h r => some (joinWord 0x26F h (bitsE r))
  | .accld h r => some (joinWord 0x270 h (bitsE r))
  | .accst h r => some (joinWord 0x271 h (bitsE r))
  | .accrd h r => some (joinWord 0x272 h (bitsE r))
  | .accwr h r => some (joinWord 0x273 h (bitsE r))
  | .push h r => some (joinWord 0x274 h (bitsE r))
  | .qfence h r => some (joinWord 0x275 h (bitsE r))
  | .sysc h r => some (joinWord 0x300 h (bitsE r))
  | .movpr h r => some (joinWord 0x301 h (bitsR r))
  | .movrp h r => some (joinWord 0x302 h (bitsR r))
  | .tlbiAsid h r => some (joinWord 0x303 h (bitsE r))
  | .tlbiVm h r => some (joinWord 0x303 h (bitsE r))
  | .tlbiS2 h r => some (joinWord 0x303 h (bitsE r))
  | .tlbiAll h r => some (joinWord 0x303 h (bitsE r))
  | .tlbir h r => some (joinWord 0x304 h (bitsE r))
  | .tlbirS2 h r => some (joinWord 0x304 h (bitsE r))
  | .atp h r => some (joinWord 0x305 h (bitsE r))
  | .lcinv h r => some (joinWord 0x306 h (bitsE r))
  | .lcinvAll h r => some (joinWord 0x306 h (bitsE r))
  | .notifyw h r => some (joinWord 0x307 h (bitsE r))
  | .halt h r => some (joinWord 0x308 h (bitsE r))
  | .ecciCorr h r => some (joinWord 0x309 h (bitsE r))
  | .ecciUnc h r => some (joinWord 0x309 h (bitsE r))
  | _ => none

/-- R266: an Xtn3 word from its fields. -/
def joinXtn3 (f7 : BitVec 7) (b a : BitVec 5) (f3 : BitVec 3) (d : BitVec 5) : Word :=
  f7 ++ (b ++ (a ++ (f3 ++ (d ++ (0x0B : BitVec 7)))))

/-- The 32-bit word of a host instruction. -/
def encodeHost : Instr → Option Word
  | .xpin d a b => some (joinXtn3 0 b a 0 d)
  | .xunpin d a b => some (joinXtn3 0 b a 1 d)
  | .xhint d a b => some (joinXtn3 0 b a 2 d)
  | .xtierqLo d a => some (joinXtn3 0 0 a 3 d)
  | .xtierqHi d a => some (joinXtn3 1 0 a 3 d)
  | .xwaitvaW d a b => some (joinXtn3 0 b a 4 d)
  | .xwaitvaD d a b => some (joinXtn3 1 b a 4 d)
  | .xwakeva d a b => some (joinXtn3 0 b a 5 d)
  | .sfenceVma a b => some ((0x09 : BitVec 7) ++ (b ++ (a ++ (0x073 : BitVec 15))))
  | .hfenceVvma a b => some ((0x11 : BitVec 7) ++ (b ++ (a ++ (0x073 : BitVec 15))))
  | .hfenceGvma a b => some ((0x31 : BitVec 7) ++ (b ++ (a ++ (0x073 : BitVec 15))))
  | _ => none

/-- The word of an instruction: 64 bits on a compute core or hub thread, 32 bits on a host hart. -/
inductive Code where
  | compute (w : DWord)
  | host (w : Word)
deriving DecidableEq, Repr

/-- The word of an instruction, from the spec's encoding of it; events have none. -/
def encode (i : Instr) : Option Code :=
  match encodeWord i with
  | some w => some (.compute w)
  | none =>
    match encodeHost i with
    | some w => some (.host w)
    | none => none

/-- The instruction of a word, or the reason it is none. -/
def decode : Code → Except Reject Instr
  | .compute w => decodeWord w
  | .host w => decodeHost w

/-- The instruction the decoder reads from a word numbered as spec/opcode_table.json numbers it: a row of at most 32 bits is a host
word, a longer one a compute word. Both are stored little-endian (R5), so the number is the word. -/
def decodeTableWord (nbits w : Nat) : Option Instr :=
  match (if nbits ≤ 32 then decodeHost (BitVec.ofNat 32 w) else decodeWord (BitVec.ofNat 64 w)) with
  | .ok i => some i
  | .error _ => none

end Sys2Proof
end

