-- ==== Sys2Proof/Config.lean ====
section
/-! DEFINITION. What an implementation fixes (the counts and constants of the package, R13 to R26, R41) and the free values: opaque
constants without a body, which nothing in Lean can evaluate. -/

namespace Sys2Proof.Config

/-- R15: compute cores of the package. -/
def cores : Nat := 80
/-- R413: host harts. -/
def harts : Nat := 144
/-- R325: hardware queues, and hub threads. -/
def queues : Nat := 64
/-- R41: cohort slots of a core. -/
def cohortSlots : Nat := 64
/-- R41: vector registers of a core. -/
def coreRegs : Nat := 4096
/-- R17: ladle slots of a core. -/
def ladleSlots : Nat := 16
/-- R41: resident blocks of a core. -/
def coreBlocks : Nat := 16
/-- R17: bursts that the landing buffer of a core holds. -/
def landingBursts : Nat := 128
/-- R270: entries of the matrix engine's queue. -/
def mxEntries : Nat := 8
/-- R270: commands of each other engine queue of a block. -/
def engineEntries : Nat := 16
/-- R270: handler reads in flight on a core. -/
def coreReads : Nat := 8
/-- R132: entries of the reduction buffer. -/
def redEntries : Nat := 64
/-- R17: 128-byte lines of a core's L1 data cache. -/
def l1Lines : Nat := 1024
/-- R17: 128-byte lines of a core's instruction cache. -/
def codeLines : Nat := 512
/-- R20: sets of 16 lines in the L2 slices of a die: 384 slices of 256 KiB. -/
def l2Sets : Nat := 49152
/-- L2 slices of a die (R20). -/
def l2Slices : Nat := 384
/-- R392: sets of 16 entries in the directory of the HBM home agent of a die. -/
def hbmDirSets : Nat := 262144
/-- R392: sets of 16 entries in the directories of the LPDDR6 and pool home agents. -/
def hubDirSets : Nat := 131072
/-- R392, R424: ways of a directory and of an L2 slice. -/
def ways : Nat := 16
/-- R358: walkers of a compute die. -/
def dieWalkers : Nat := 64
/-- R358: walkers of the hub. -/
def hubWalkers : Nat := 16
/-- R358: walk requests that a compute die's queue holds. -/
def walkQueue : Nat := 512
/-- R139: entries of the update buffer. -/
def updEntries : Nat := 32
/-- R285: entries of the subscription table, and of the publication table. -/
def subEntries : Nat := 16
/-- R285: subscribers of one publication. -/
def pubSubscribers : Nat := 8
/-- R337: entries of the deferred table. -/
def deferEntries : Nat := 16
/-- R357: entries of an L1 TLB. -/
def l1Tlb : Nat := 64
/-- R357: entries of a quad's L2 TLB. -/
def l2Tlb : Nat := 2048
/-- R259: keys of the wait-and-wake table. -/
def waitKeys : Nat := 4096
/-- R361: records a manager holds. -/
def heldRecords : Nat := 4096
/-- R395: entries of the forwarding table. -/
def forwards : Nat := 64
/-- R395: moves that copy at one time. -/
def copies : Nat := 8
/-- R398: entries of the write hold window. -/
def holdWindow : Nat := 32
/-- R390: entries of a die's location cache. -/
def dieLocEntries : Nat := 4096
/-- R390: entries of the hub's location cache. -/
def hubLocEntries : Nat := 16384
/-- R403: pin notes that the hub keeps. -/
def pinNotes : Nat := 65536
/-- R287: bytes of a late-update log. -/
def lateLog : Nat := 65536
/-- R344: compute clocks of a power window: 10 µs at 1.6 GHz (R14). -/
def windowClocks : Nat := 16000
/-- R14: compute clocks of a microsecond. -/
def usClocks : Nat := 1600
/-- R427: watts of a quarter's share. -/
def quarterWatts : Nat := 450

/-- The free value that `clk` of a core starts from (R76: unpredictable in [0, 2^32)). -/
opaque clkStart (core : Nat) : BitVec 32

/-- The free choice of R243: which of `n` lanes of one store wins a byte; `k` numbers the choices made. -/
opaque storeWinner (k : Nat) : Nat

/-- The free choice of R142: whether a fetch of a line that its launch has written sees what the write left, or the line as it stood when the
launch started; `k` numbers the choices made. -/
opaque codeNewest (k : Nat) : Bool

/-- Results of the transcendentals of R226 inside their bounds: a fixed function of the instruction, the input bits and FTZ. -/
opaque transcendental (fn : Nat) (ftz : Bool) (a : BitVec 32) : BitVec 32

/-- SHAKE256 with 64 bytes of output (R437): named by the spec, defined by FIPS 202. -/
opaque shake256 (bytes : List (BitVec 8)) : BitVec 512

/-- Whether an ML-DSA-65 signature verifies (R437): key, digest, signature. -/
opaque mldsaVerify (key : List (BitVec 8)) (digest : BitVec 512) (sig : List (BitVec 8)) : Bool

/-- The identity key's ML-DSA-65 signature over a digest (R438): 3,309 bytes. -/
opaque mldsaSign (digest : BitVec 512) (i : Nat) : BitVec 8

/-- AES-XTS-256 encryption of one byte of a 128-byte line (R439): key material, tweak (line address), line, byte index. -/
opaque xtsEncrypt (key : BitVec 512) (tweak : Nat) (line : List (BitVec 8)) (i : Nat) : BitVec 8

/-- AES-XTS-256 decryption, the inverse of `xtsEncrypt` under the same key and tweak (R439). -/
opaque xtsDecrypt (key : BitVec 512) (tweak : Nat) (line : List (BitVec 8)) (i : Nat) : BitVec 8

/-- The fused digest of the vendor's public key (R437). -/
opaque fuseKeyDigest : BitVec 512

/-- The fused minimum image version (R437). -/
opaque fuseMinVersion : BitVec 32

/-- The five PKGID strap inputs (R387). -/
opaque pkgidStraps : BitVec 5

/-- The bytes of the images in flash (R437): 1 hub firmware, 3 host monitor. -/
opaque flashImage (step : Nat) : List (BitVec 8)

/-- Whether the memories and ports train at boot (R437 step 2). -/
opaque trainingOk : Bool

/-- Bytes that a page of the device memory outside the package's own table shows another package's link (R405): the free value of a
read that the model's outside agents answer. -/
opaque freeByte (k : Nat) : BitVec 8

/-- A free 64-bit value; `k` numbers the values taken. -/
opaque freeWord (k : Nat) : BitVec 64

end Sys2Proof.Config
end

