-- ==== Sys2Proof/Machine/Float.lean ====
section
/-! DEFINITION. Number formats and exact arithmetic (R83 to R109): a finite value is a dyadic number, computed exactly and rounded once. -/

namespace Sys2Proof.Machine

/-- A binary floating-point format (R85): exponent and fraction widths, bias, and whether it has infinities (all but F8A, R87). -/
structure FloatFmt where
  ebits : Nat
  fbits : Nat
  bias  : Nat
  hasInf : Bool
deriving DecidableEq, Repr

/-- R85. -/
def f64 : FloatFmt := { ebits := 11, fbits := 52, bias := 1023, hasInf := true }
/-- R85. -/
def f32 : FloatFmt := { ebits := 8, fbits := 23, bias := 127, hasInf := true }
/-- R85. -/
def f16 : FloatFmt := { ebits := 5, fbits := 10, bias := 15, hasInf := true }
/-- R85. -/
def bf16 : FloatFmt := { ebits := 8, fbits := 7, bias := 127, hasInf := true }
/-- R85, R87. -/
def f8a : FloatFmt := { ebits := 4, fbits := 3, bias := 7, hasInf := false }
/-- R85, R88. -/
def f8b : FloatFmt := { ebits := 5, fbits := 2, bias := 15, hasInf := true }

/-- Width of a format. -/
def FloatFmt.width (f : FloatFmt) : Nat := 1 + f.ebits + f.fbits

/-- R85: the canonical NaN. -/
def FloatFmt.nan (f : FloatFmt) : Nat :=
  if f.hasInf then
    (if f.ebits == 5 && f.fbits == 2 then 0x7E else (2 ^ f.ebits - 1) * 2 ^ f.fbits + 2 ^ (f.fbits - 1))
  else 0x7F

/-- The sign bit of a format. -/
def FloatFmt.sign (f : FloatFmt) (neg : Bool) : Nat := if neg then 2 ^ (f.ebits + f.fbits) else 0

/-- R86: an infinity. -/
def FloatFmt.inf (f : FloatFmt) (neg : Bool) : Nat := f.sign neg + (2 ^ f.ebits - 1) * 2 ^ f.fbits

/-- R85: the largest finite value of a sign. -/
def FloatFmt.maxFin (f : FloatFmt) (neg : Bool) : Nat :=
  f.sign neg + (if f.hasInf then (2 ^ f.ebits - 1) * 2 ^ f.fbits - 1 else 0x7E)

/-- An exact value: NaN, an infinity, or (-1)^neg × m × 2^e (a zero keeps its sign). -/
inductive Ex where
  | nan
  | inf (neg : Bool)
  | fin (neg : Bool) (m : Nat) (e : Int)
deriving DecidableEq, Repr

/-- R86 to R88: the value of an encoding. With FTZ a subnormal is a zero of its sign (R96). -/
def unpack (f : FloatFmt) (ftz : Bool) (bits : Nat) : Ex :=
  let neg := bits / 2 ^ (f.ebits + f.fbits) % 2 == 1
  let e := bits / 2 ^ f.fbits % 2 ^ f.ebits
  let fr := bits % 2 ^ f.fbits
  if e == 2 ^ f.ebits - 1 && f.hasInf then (if fr == 0 then .inf neg else .nan)
  else if !f.hasInf && e == 2 ^ f.ebits - 1 && fr == 2 ^ f.fbits - 1 then .nan
  else if e == 0 then .fin neg (if ftz then 0 else fr) (1 - (f.bias : Int) - f.fbits)
  else .fin neg (2 ^ f.fbits + fr) ((e : Int) - f.bias - f.fbits)

/-- Rounding modes by their code (R172): 0 nearest even, 1 toward zero, 2 up, 3 down; and two of RISC-V's, 4 nearest with ties away from zero, and 5
to odd. Whether a magnitude whose kept part is `q` and
whose discarded part compares with a half as `lt`, `eq`, `gt` (or is zero) grows by one. -/
def roundsUp (rnd : Nat) (neg : Bool) (q : Nat) (half : Ordering) (exact : Bool) : Bool :=
  if exact then false
  else match rnd with
    | 0 => half == .gt || (half == .eq && q % 2 == 1)
    | 1 => false
    | 2 => !neg
    | 3 => neg
    | 4 => half != .lt
    | _ => q % 2 == 0

/-- A rounded result: the bits, whether it saturated under `.sat` (R95), and whether it overflowed to an infinity or F8A NaN (R94). -/
structure Rounded where
  bits : Nat
  q    : Bool
  ovf  : Bool
deriving DecidableEq, Repr

/-- R94, R95: an overflow of a sign. -/
def overflow (f : FloatFmt) (rnd : Nat) (sat : Bool) (neg : Bool) : Rounded :=
  if sat then { bits := f.maxFin neg, q := true, ovf := false }
  else if !f.hasInf then { bits := f.nan, q := false, ovf := true }
  else
    let toInf := rnd == 0 || rnd == 4 || (rnd == 2 && !neg) || (rnd == 3 && neg)
    { bits := if toInf then f.inf neg else f.maxFin neg, q := false, ovf := toInf }

/-- Bit length of a number. -/
def bitLen (m : Nat) : Nat := if m == 0 then 0 else Nat.log2 m + 1

/-- R93 to R96: rounds (-1)^neg × (m + σ) × 2^e, where 0 ≤ σ < 1 and `sticky` says σ ≠ 0 (then m has more bits than the format keeps). -/
def roundFin (f : FloatFmt) (rnd : Nat) (sat ftz : Bool) (neg : Bool) (m : Nat) (e : Int) (sticky : Bool) : Rounded :=
  if m == 0 then { bits := f.sign neg, q := false, ovf := false }
  else
    let top : Int := e + (bitLen m : Int) - 1
    let emin : Int := 1 - (f.bias : Int)
    if ftz && decide (top < emin) then { bits := f.sign neg, q := false, ovf := false }
    else
      let qe : Int := max (top - f.fbits) (emin - f.fbits)
      let sh : Int := qe - e
      let kept := if sh ≤ 0 then m * 2 ^ (-sh).toNat else m / 2 ^ sh.toNat
      let rest := if sh ≤ 0 then 0 else m % 2 ^ sh.toNat
      let exact := rest == 0 && !sticky
      let half : Ordering := if sh ≤ 0 then .lt else
        let h := 2 ^ (sh.toNat - 1)
        if rest < h then .lt else if rest == h && !sticky then .eq else .gt
      let r := if roundsUp rnd neg kept half exact then kept + 1 else kept
      let carry := r == 2 ^ (f.fbits + 1)
      let r2 := if carry then r / 2 else r
      let qe2 : Int := if carry then qe + 1 else qe
      let efield : Int := qe2 + f.fbits + f.bias
      if r2 < 2 ^ f.fbits then { bits := f.sign neg + r2, q := false, ovf := false }
      else
        let top2 : Int := if f.hasInf then 2 ^ f.ebits - 2 else 2 ^ f.ebits - 1
        let big := decide (efield > top2) || (!f.hasInf && decide (efield = top2) && r2 == 2 ^ (f.fbits + 1) - 1)
        if big then overflow f rnd sat neg
        else { bits := f.sign neg + efield.toNat * 2 ^ f.fbits + (r2 - 2 ^ f.fbits), q := false, ovf := false }

/-- Rounds an exact value (R89, R93 to R96, R99): infinities saturate under `.sat`; F8A has none. -/
def roundEx (f : FloatFmt) (rnd : Nat) (sat ftz : Bool) : Ex → Rounded
  | .nan => { bits := f.nan, q := false, ovf := false }
  | .inf neg =>
    if sat then { bits := f.maxFin neg, q := true, ovf := false }
    else { bits := if f.hasInf then f.inf neg else f.nan, q := false, ovf := false }
  | .fin neg m e => roundFin f rnd sat ftz neg m e false

/-- Exact negation. -/
def exNeg : Ex → Ex
  | .nan => .nan
  | .inf n => .inf (!n)
  | .fin n m e => .fin (!n) m e

/-- Magnitude. -/
def exAbs : Ex → Ex
  | .nan => .nan
  | .inf _ => .inf false
  | .fin _ m e => .fin false m e

/-- Exact product (R91): 0 × ∞ is NaN. -/
def exMul : Ex → Ex → Ex
  | .nan, _ => .nan
  | _, .nan => .nan
  | .inf a, .inf b => .inf (a != b)
  | .inf a, .fin b m _ => if m == 0 then .nan else .inf (a != b)
  | .fin a m _, .inf b => if m == 0 then .nan else .inf (a != b)
  | .fin a m e, .fin b n g => .fin (a != b) (m * n) (e + g)

/-- A signed mantissa at an exponent not above its own. -/
def alignTo (neg : Bool) (m : Nat) (e lo : Int) : Int :=
  let v : Int := m * 2 ^ (e - lo).toNat
  if neg then -v else v

/-- Exact sum (R91): ∞ − ∞ is NaN; an exact zero from operands of opposite sign is +0, or −0 when rounding down. -/
def exAdd (down : Bool) : Ex → Ex → Ex
  | .nan, _ => .nan
  | _, .nan => .nan
  | .inf a, .inf b => if a == b then .inf a else .nan
  | .inf a, .fin _ _ _ => .inf a
  | .fin _ _ _, .inf b => .inf b
  | .fin a m e, .fin b n g =>
    let lo := min e g
    let v := alignTo a m e lo + alignTo b n g lo
    if v == 0 then .fin (if m == 0 && n == 0 && a == b then a else down) 0 lo
    else .fin (decide (v < 0)) v.natAbs lo

/-- Exact power-of-two scaling. -/
def exScale (x : Ex) (k : Int) : Ex :=
  match x with
  | .fin n m e => .fin n m (e + k)
  | y => y

/-- Exact order of two values that are not NaN. -/
def exCmp : Ex → Ex → Ordering
  | .inf a, .inf b => if a == b then .eq else if a then .lt else .gt
  | .inf a, _ => if a then .lt else .gt
  | _, .inf b => if b then .gt else .lt
  | .fin a m e, .fin b n g =>
    let lo := min e g
    compare (alignTo a m e lo) (alignTo b n g lo)
  | _, _ => .eq

/-- Whether a value is NaN. -/
def exIsNan : Ex → Bool
  | .nan => true
  | _ => false

/-- Whether a value is a zero. -/
def exIsZero : Ex → Bool
  | .fin _ m _ => m == 0
  | _ => false

/-- The sign of a value. -/
def exSign : Ex → Bool
  | .nan => false
  | .inf n => n
  | .fin n _ _ => n

/-- x ≤ y for values that are not NaN. -/
def exLe (x y : Ex) : Bool := exCmp x y != .gt

/-- R92: whether x comes before y, −0 before +0. -/
def exBefore (x y : Ex) : Bool :=
  match exCmp x y with
  | .lt => true
  | .gt => false
  | .eq => exSign x && !exSign y

/-- Quotient rounded once (R224): x ÷ 0 is an infinity, 0 ÷ 0 and ∞ ÷ ∞ are NaN. -/
def exDiv (f : FloatFmt) (rnd : Nat) (sat ftz : Bool) (x y : Ex) : Rounded :=
  match x, y with
  | .nan, _ => roundEx f rnd sat ftz .nan
  | _, .nan => roundEx f rnd sat ftz .nan
  | .inf _, .inf _ => roundEx f rnd sat ftz .nan
  | .inf a, .fin b _ _ => roundEx f rnd sat ftz (.inf (a != b))
  | .fin a _ _, .inf b => { bits := f.sign (a != b), q := false, ovf := false }
  | .fin a m e, .fin b n g =>
    if n == 0 then roundEx f rnd sat ftz (if m == 0 then .nan else .inf (a != b))
    else
      let k := 200 + bitLen n
      let num := m * 2 ^ k
      roundFin f rnd sat ftz (a != b) (num / n) (e - g - k) (num % n != 0)

/-- Integer square root, bit by bit from bit `i - 1` down. -/
def isqrt (m : Nat) (r : Nat) : Nat → Nat
  | 0 => r
  | i + 1 => let t := r + 2 ^ i; isqrt m (if t * t ≤ m then t else r) i

/-- Square root rounded once (R224): √−0 is −0, a negative operand gives NaN. -/
def exSqrt (f : FloatFmt) (rnd : Nat) (ftz : Bool) (x : Ex) : Rounded :=
  match x with
  | .nan => roundEx f rnd false ftz .nan
  | .inf n => roundEx f rnd false ftz (if n then .nan else .inf false)
  | .fin n m e =>
    if m == 0 then { bits := f.sign n, q := false, ovf := false }
    else if n then roundEx f rnd false ftz .nan
    else
      let k : Nat := if e % 2 == 0 then 200 else 201
      let mm := m * 2 ^ k
      let r := isqrt mm 0 (bitLen mm / 2 + 1)
      roundFin f rnd false ftz false r ((e - k) / 2) (r * r != mm)

/-- The integer an exact finite value rounds to (R100). -/
def exToInt (rnd : Nat) (neg : Bool) (m : Nat) (e : Int) : Int :=
  let mag : Nat :=
    if e ≥ 0 then m * 2 ^ e.toNat
    else
      let sh := (-e).toNat
      let q := m / 2 ^ sh
      let rest := m % 2 ^ sh
      let half : Ordering := compare (2 * rest) (2 ^ sh)
      if roundsUp rnd neg q half (rest == 0) then q + 1 else q
  if neg then -(mag : Int) else mag

/-- The range of an integer type (R83). -/
def intMin (signed : Bool) (w : Nat) : Int := if signed then -(2 ^ (w - 1)) else 0
/-- The range of an integer type (R83). -/
def intMax (signed : Bool) (w : Nat) : Int := if signed then 2 ^ (w - 1) - 1 else 2 ^ w - 1

/-- R84: wraps modulo 2^w, or with `.sat` clamps once and says whether the clamp changed the value. -/
def narrow (signed : Bool) (w : Nat) (sat : Bool) (v : Int) : Nat × Bool :=
  let c := if sat then max (intMin signed w) (min (intMax signed w) v) else v
  ((c % 2 ^ w).toNat, sat && c != v)

/-- R100: a value converted to an integer type always saturates; NaN gives 0. Each clamp and each NaN sets Q. -/
def exToIntTy (rnd : Nat) (signed : Bool) (w : Nat) : Ex → Nat × Bool
  | .nan => (0, true)
  | .inf n => (((if n then intMin signed w else intMax signed w) % 2 ^ w).toNat, true)
  | .fin n m e => narrow signed w true (exToInt rnd n m e)

/-- An integer as an exact value. -/
def exOfInt (v : Int) : Ex := .fin (decide (v < 0)) v.natAbs 0

/-- The signed or unsigned integer of the low `w` bits of a number. -/
def intOf (signed : Bool) (w : Nat) (v : Nat) : Int :=
  let x := v % 2 ^ w
  if signed && decide (2 ^ (w - 1) ≤ x) then (x : Int) - 2 ^ w else x

/-- R92: minimum or maximum. -/
def fMinMax (f : FloatFmt) (ftz : Bool) (isMin : Bool) (a b : Nat) : Nat :=
  let x := unpack f ftz a
  let y := unpack f ftz b
  match x, y with
  | .nan, .nan => f.nan
  | .nan, y => (roundEx f 0 false false y).bits
  | x, .nan => (roundEx f 0 false false x).bits
  | x, y => (roundEx f 0 false false (if exBefore x y == isMin then x else y)).bits

/-- Comparison conditions of `VFCMP` (R225). -/
def fCond (c : Nat) (x y : Ex) : Bool :=
  let nan := exIsNan x || exIsNan y
  let o := exCmp x y
  match c with
  | 0 => !nan && o == .eq
  | 1 => nan || o != .eq
  | 2 => !nan && o == .lt
  | 3 => !nan && o != .gt
  | 4 => !nan && o == .gt
  | 5 => !nan && o != .lt
  | 6 => nan
  | _ => !nan

/-- The class bit of `VFCLASS` (R225). -/
def fClass (f : FloatFmt) (bits : Nat) : Nat :=
  match unpack f false bits with
  | .nan => 2 ^ 8
  | .inf n => if n then 2 ^ 0 else 2 ^ 7
  | .fin n m _ =>
    let sub := bits / 2 ^ f.fbits % 2 ^ f.ebits == 0
    if m == 0 then (if n then 2 ^ 3 else 2 ^ 4)
    else if sub then (if n then 2 ^ 2 else 2 ^ 5)
    else (if n then 2 ^ 1 else 2 ^ 6)

/-- `VFRND` (R224): an integral value in the same format; ±0 and ±∞ kept. -/
def fRnd (f : FloatFmt) (rnd : Nat) (ftz : Bool) (bits : Nat) : Nat :=
  match unpack f ftz bits with
  | .nan => f.nan
  | .inf n => f.inf n
  | .fin n m e =>
    let v := exToInt rnd n m e
    (roundFin f 1 false false n v.natAbs 0 false).bits

/-! ### Conversions by TYPE code -/

/-- The floating-point format of a TYPE code (R171). -/
def tyFloat : Nat → Option FloatFmt
  | 0x06 => some f32
  | 0x07 => some f16
  | 0x08 => some bf16
  | 0x09 => some f8a
  | 0x0A => some f8b
  | 0x0C => some f64
  | 0x13 => some f16
  | 0x14 => some bf16
  | _ => none

/-- Width and signedness of an integer TYPE code (R83, R171). -/
def tyInt : Nat → Option (Bool × Nat)
  | 0x00 => some (true, 8)
  | 0x01 => some (false, 8)
  | 0x02 => some (true, 16)
  | 0x03 => some (false, 16)
  | 0x04 => some (true, 32)
  | 0x05 => some (false, 32)
  | 0x0D => some (true, 64)
  | 0x0E => some (false, 64)
  | _ => none

/-- R97 to R102: a value of type `ts` converted to type `td`; the second result is Q. -/
def convert (td ts rnd : Nat) (sat ftz : Bool) (v : Nat) : Nat × Bool :=
  match tyFloat ts, tyFloat td, tyInt ts, tyInt td with
  | some fs, some fd, _, _ =>
    let r := roundEx fd rnd sat ftz (unpack fs ftz v)
    (r.bits, r.q)
  | some fs, none, _, some (sg, w) => exToIntTy rnd sg w (unpack fs ftz v)
  | none, some fd, some (sg, w), _ =>
    let r := roundEx fd rnd sat ftz (exOfInt (intOf sg w v))
    (r.bits, r.q)
  | none, none, some (sg, w), some (dg, dw) => narrow dg dw sat (intOf sg w v)
  | _, _, _, _ => (0, false)

/-- R62: a narrow scalar result in a 32-bit register, sign-extended for a signed type. -/
def widen32 (ty : Nat) (v : Nat) : Nat :=
  match tyInt ty with
  | some (true, w) => if w < 32 then (intOf true w v % 2 ^ 32).toNat else v
  | _ => v

/-- F32 arithmetic on bits. -/
def fOp2 (f : FloatFmt) (rnd : Nat) (sat ftz : Bool) (op : Nat) (a b : Nat) : Rounded :=
  let x := unpack f ftz a
  let y := unpack f ftz b
  match op with
  | 0 => roundEx f rnd sat ftz (exAdd (rnd == 3) x y)
  | 1 => roundEx f rnd sat ftz (exAdd (rnd == 3) x (exNeg y))
  | 2 => roundEx f rnd sat ftz (exMul x y)
  | _ => exDiv f rnd sat ftz x y

/-- Fused multiply-add (R106). -/
def fFma (f : FloatFmt) (rnd : Nat) (sat ftz : Bool) (a b c : Nat) : Rounded :=
  roundEx f rnd sat ftz (exAdd (rnd == 3) (exMul (unpack f ftz a) (unpack f ftz b)) (unpack f ftz c))

end Sys2Proof.Machine
end

