-- ==== Sys2Proof/Machine/Flags.lean ====
section
/-! DEFINITION. Flag computations (R66, R199, R201): the Z, N, C and V of the flag-setting scalar instructions and the condition codes. -/

namespace Sys2Proof.Machine

/-- Bits of `sflags` (R66): Q E V C N Z from bit 5 down. -/
def flagBits (q e v c n z : Bool) : BitVec 6 :=
  BitVec.ofBool q ++ (BitVec.ofBool e ++ (BitVec.ofBool v ++ (BitVec.ofBool c ++ (BitVec.ofBool n ++ BitVec.ofBool z))))

/-- The four arithmetic fields V C N Z as a number, V highest. -/
def zncv (v c n z : Bool) : DWord := BitVec.setWidth 64 (BitVec.ofBool v ++ (BitVec.ofBool c ++ (BitVec.ofBool n ++ BitVec.ofBool z)))

/-- R199: an exact signed value lies outside [−2^63, 2^63). -/
def sOverflow (v : Int) : Bool := decide (v < -(2 ^ 63)) || decide (2 ^ 63 ≤ v)

/-- R199: flags of `SADD` and `SADDI`. -/
def flagsAdd (a b : DWord) : DWord :=
  let r := a + b
  zncv (sOverflow (a.toInt + b.toInt)) (decide (2 ^ 64 ≤ a.toNat + b.toNat)) r.msb (r == 0)

/-- R199: flags of `SSUB` and `SCMP`. -/
def flagsSub (a b : DWord) : DWord :=
  let r := a - b
  zncv (sOverflow (a.toInt - b.toInt)) (decide (a.toNat < b.toNat)) r.msb (r == 0)

/-- R199: flags of `SMUL`. -/
def flagsMul (a b : DWord) : DWord :=
  let r := a * b
  zncv (sOverflow (a.toInt * b.toInt)) (decide (2 ^ 64 ≤ a.toNat * b.toNat)) r.msb (r == 0)

/-- The fields of `sflags` by name. -/
structure FlagSet where
  q : Bool
  e : Bool
  v : Bool
  c : Bool
  n : Bool
  z : Bool
deriving DecidableEq, Repr

/-- R66: the fields of the register. -/
def flagsOf (f : BitVec 6) : FlagSet :=
  { q := f.getLsbD 5, e := f.getLsbD 4, v := f.getLsbD 3, c := f.getLsbD 2, n := f.getLsbD 1, z := f.getLsbD 0 }

/-- R66: the register of the fields. -/
def packFlags (f : FlagSet) : BitVec 6 := flagBits f.q f.e f.v f.c f.n f.z

/-- R201: a condition code on the flags, signed or unsigned. -/
def condHolds (code : Nat) (unsigned : Bool) (f : FlagSet) : Bool :=
  match code with
  | 0 => f.z
  | 1 => !f.z
  | 2 => if unsigned then f.c else f.n != f.v
  | 3 => if unsigned then f.c || f.z else f.z || (f.n != f.v)
  | 4 => if unsigned then !f.c && !f.z else !f.z && (f.n == f.v)
  | 5 => if unsigned then !f.c else f.n == f.v
  | 6 => f.q
  | _ => f.e

/-- The flags that a ZNCV producer's value names. -/
def withZncv (f : FlagSet) (w : DWord) : FlagSet :=
  { f with v := w.getLsbD 3, c := w.getLsbD 2, n := w.getLsbD 1, z := w.getLsbD 0 }

end Sys2Proof.Machine
end

