-- ==== Sys2Proof/Machine/State.lean ====
section
/-! DEFINITION. The state of the package as plain data (R27 to R82, R310 to R312, R325 to R345, R357 to R384, R385 to R409, R413 to
R444), its reset values, and the reasons a step can stop. -/

namespace Sys2Proof.Machine

/-- A map from numbers, sorted by key, one entry a key. -/
abbrev AMap (α : Type) := List (Nat × α)

/-- Words by number, sorted by key, zero words not listed: the canonical form of `Sparse.wf`. -/
abbrev Sparse (w : Nat) := List (Nat × BitVec w)

/-- Bytes of memory by device location, in the same form (Host.Cell). -/
abbrev Memory := List Host.Cell

/-! ### Strands, cohorts, ladles and hub threads -/

/-- Why a strand sleeps (R31): the barrier, counter, key or rendezvous it waits on. -/
inductive Sleep where
  /-- `BAR` on a barrier of a scope (R252). -/
  | bar (scope num : Nat)
  /-- `BARW` on a barrier of a scope (R254). -/
  | barw (scope num : Nat)
  /-- `ECWAIT` on a counter with its threshold (R257). -/
  | ecwait (ec : Nat) (thr : BitVec 32) (scope : Nat)
  /-- `WAITVA` (R260). -/
  | waitva
  /-- `RECONV`: rendezvous address and member set (R211). -/
  | reconv (addr : DWord) (members : LaneSet)
deriving DecidableEq, Repr

/-- What a parked strand is once its replay list has been performed (R39): Ready, asleep at a waiting instruction that it executed, or
exited by an `EXIT` that it executed (R38). -/
inductive After where
  | ready
  | sleeping (why : Sleep)
  | exited
deriving DecidableEq, Repr

/-- The state of a strand at a clause boundary (R31). -/
inductive LaneState where
  | ready
  | sleeping (why : Sleep)
  | parked (next : After)
  | exited
deriving DecidableEq, Repr

/-- What issues clauses: a cohort, a ladle (R51) or a hub thread (R324). -/
inductive AgentKind where
  | cohort | ladle | hubThread
deriving DecidableEq, Repr

/-- What a fixed-latency word writes: a lane of a vector register, a scalar register, the bits of a set of lanes of a mask register (R207,
R222), the Z N C V fields, E, Q (R180, R200), a privileged register (R313), `mst` or `bconf` by its number (R206). -/
inductive Target where
  | v (reg lane : Nat)
  | s (reg : Nat)
  | k (reg : Nat) (lanes : LaneSet)
  | zncv
  | eBit
  | qBit
  | priv (num : Nat)
  | blk (num : Nat)
deriving DecidableEq, Repr

/-- One producer of R180: the register written, the value, and the nominal cycle cP + λ from which it is visible. A write that takes
effect only at the boundary (a link register, a privileged read: R208, R313) is ready at a cycle that no word reaches. `mov` marks a
`MOVRS` (R200). -/
structure Producer where
  tgt    : Target
  val    : DWord
  ready  : Nat
  mov    : Bool
deriving DecidableEq, Repr

/-- A clause in issue (R34, R178): its header address and word, its words, the active lanes, the words already issued, the state of the
schedule of R178, the producers so far, the transfers taken, what its last word asked for, and the greatest cP + λ of its fixed-latency words
(R183). -/
structure Issue where
  hdr     : DWord
  header  : DWord
  words   : List DWord
  group   : LaneSet
  idx     : Nat
  cur     : Nat
  prev    : Option Nat
  inCycle : Nat
  freeAt  : Nat
  prods   : List Producer
  jumps   : List (Nat × DWord)
  yields  : Bool
  seq     : Nat
  late    : Nat := 0
deriving DecidableEq, Repr

/-- The registers of an agent (R60 to R66, R77): vector register r, lane L at key 32 r + L. -/
structure Regs where
  v      : Sparse 32
  s      : Sparse 64
  k      : Sparse 32
  pcv    : Sparse 64
  sflags : BitVec 6
deriving DecidableEq, Repr

/-- What a ladle carries besides its registers (R80, R281, R283): the read it belongs to, its burst, its coordinates, its issue steps. -/
structure LadleData where
  read   : Nat
  burst  : Nat
  bc     : List (BitVec 32)
  steps  : Nat
  finale : Bool
deriving DecidableEq, Repr

/-- What a hub thread has besides (R312, R322, R440). -/
structure HubData where
  ctxsel   : BitVec 12
  halted   : Bool
  notified : Bool
  parked   : Bool
deriving DecidableEq, Repr

/-- A pending arrival of `BARA` (R254), or the phase a strand sleeps on. -/
structure Pending where
  scope : Nat
  num   : Nat
  phase : Nat
deriving DecidableEq, Repr

/-- A cohort, ladle or hub thread. -/
structure Agent where
  kind    : AgentKind
  core    : Nat
  home    : Nat
  sched   : Nat
  block   : Nat
  ctx     : Nat
  level   : Level
  index   : Nat
  alloc   : Nat
  first   : Nat
  age     : Nat
  prio    : Nat
  regs    : Regs
  flags   : AMap Nat
  lanes   : List LaneState
  count   : Nat
  prevSet : LaneSet
  skip    : Nat
  yielded : Bool
  traps   : List Nat
  bara    : List Pending
  ladle   : LadleData
  hub     : HubData
  started : Bool
  chosen  : Option (LaneSet × DWord × Nat) := none
  issue   : Option Issue
deriving DecidableEq, Repr

/-! ### Accesses in flight -/

/-- Where one lane's part of an instruction stands: before translation, at its home, performed, parked in a fault group, detached with a
late trap, or dropped (R37, R239, R369). -/
inductive PartState where
  | walk
  | home
  | done
  | parked (group : Nat)
  | detached (trap : Nat)
  | dropped
deriving DecidableEq, Repr

/-- What a translation yields (R354): the output address of the page and the guest-physical address it came through, the page size in
bits and those of the leaves of the two stages, whether A and D are set in both leaves, permissions, class, memory type, mask and key. -/
structure Xlat where
  spa   : Nat
  gpa   : Nat
  size  : Nat
  size1 : Nat
  size2 : Nat
  a     : Bool
  d     : Bool
  r     : Bool
  w     : Bool
  x     : Bool
  u     : Bool
  g     : Bool
  cls   : BitVec 2
  memt  : BitVec 2
  allow : BitVec 3
  key   : BitVec 6
deriving DecidableEq, Repr

/-- One lane's part of an instruction, or the one part of a uniform form (lane 32). `xs` holds the translation of the page of the first
byte and, where the access crosses, of the last; `val` what it read; `late` whether it no longer counts as
under way for the flag: it parked, was detached, or follows such a part of its lane in the clause (R37, R38); `passed` whether a later one of its lane and clause
has been performed while this one was on its way to its home. -/
structure Part where
  lane : Nat
  va   : DWord
  st   : PartState
  xs   : List Xlat
  val  : BitVec 128
  late : Bool := false
  passed : Bool := false
deriving DecidableEq, Repr

/-- A variable-latency instruction in flight (R182): the agent and clause it came from, its place in program order, the values of its
sources, and its parts. `active` holds the issuing group, `group` the passing lanes that a uniform form acts for; `vals` holds the D operand of each lane, `cmps` the C operand, `args` the scalar operands in the order of the
fields D or C, A or SB, B, C. -/
structure Op where
  instr  : Instr
  agent  : Nat
  ctx    : Nat
  level  : Level
  core   : Nat
  block  : Nat
  pc     : DWord
  word   : Nat
  seq    : Nat
  clause : Nat
  active : LaneSet
  group  : LaneSet
  vals   : List (Nat × BitVec 128)
  cmps   : List (Nat × BitVec 128)
  args   : List DWord
  parts  : List Part
  flag   : Nat
  acted  : Nat
deriving DecidableEq, Repr

/-! ### Blocks, launches and engines -/

/-- A barrier in its current phase (R252): its phase, the arrivals (cohorts, or blocks at wider scopes), the count of its first arrival,
and of each cohort the member mask and the count of its first group, with the strands that have arrived and those that have executed `BAR` in the phase. -/
structure Barrier where
  scope   : Nat
  owner   : Nat
  num     : Nat
  phase   : Nat
  count   : Nat
  members : AMap LaneSet
  counts  : AMap Nat
  done    : AMap LaneSet
  arrived : List Nat
  slept   : AMap LaneSet := []
deriving DecidableEq, Repr

/-- What a launch asks of a core for each block (R41, R333). -/
structure Needs where
  cohorts : Nat
  regs    : Nat
  scratch : Nat
  acc     : Nat
  shapes  : Nat
  events  : Nat
  cbooks  : Nat
deriving DecidableEq, Repr

/-- A resident block (R41): its launch and place in the grid, and its resources. Scratchpad bytes, tile elements (16384 t + 128 i + j),
shape records, codebooks and counters are numbered from 0;
`progress` holds the progress record of each handler read whose command is over, by its id (R280, R298), `accPoison` the poisoned
16-byte parts of its tiles (R375), which only a restore from a poisoned save area makes. -/
structure Block where
  launch  : Nat
  child   : Nat
  linear  : Nat
  core    : Nat
  home    : Nat
  ctx     : Nat
  team    : Nat
  needs   : Needs
  spm     : Sparse 8
  acc     : Sparse 32
  sh      : Sparse 512
  cb      : Sparse 256
  ec      : Sparse 32
  mst     : BitVec 3
  bconf   : BitVec 32
  poison  : List Nat
  retired : List Nat
  progress : List (Nat × List Nat) := []
  accPoison : List Nat := []
deriving DecidableEq, Repr

/-- The engine queues (R135). -/
inductive EngineQueue where
  | mx | cp | hr | cw | sb
deriving DecidableEq, Repr

/-- Where an engine command stands: queued, running, gone from the engine (an `MMA` before its completion, R289), running
its finale (R280), or done with its work while its completion release goes out. -/
inductive CmdState where
  | queued | running | left | finale | complete
deriving DecidableEq, Repr

/-- A burst that did not simply go through: parked in a group, trapped, or dropped (R277). -/
structure BurstMark where
  burst : Nat
  st    : PartState
deriving DecidableEq, Repr

/-- An engine command (R268 to R271): its instruction, its issuer, its records and operands as they stood at issue, and its progress.
`entry` is its place in the order of entry into queues (R270), `next` the next burst to request, `flying` those requested and not landed, `landed` those landed without a ladle in landing order,
`bits` the progress record (R280), `list` the row list (R275, R279), `lanes` the parked lanes in whose replay lists of `clause` it stands
(R38, R39). -/
structure Cmd where
  instr   : Instr
  agent   : Nat
  block   : Nat
  core    : Nat
  ctx     : Nat
  level   : Level
  pc      : DWord
  word    : Nat
  slot    : Nat
  active  : LaneSet
  seq     : Nat
  entry   : Nat
  queues  : List EngineQueue
  recs    : List (BitVec 512)
  args    : List DWord
  vals    : List (Nat × BitVec 128)
  st      : CmdState
  next    : Nat
  flying  : List Nat
  landed  : List (Nat × Nat × List Byte)
  bits    : List Nat
  marks   : List BurstMark
  list    : List (BitVec 32)
  res     : DWord
  stopped : Bool
  flag    : Nat
  clause  : Nat
  lanes   : LaneSet
deriving DecidableEq, Repr

/-- A launch (R333, R338): its queue, the positions of its children, its packet, and how far its placement and retirement went. -/
structure Launch where
  queue    : Nat
  ctx      : Nat
  children : List (Nat × BitVec 512)
  started  : Bool
  order    : Nat
  placed   : Nat
  retired  : List Nat
  doneKids : List Nat
  host     : Bool
deriving DecidableEq, Repr

/-- One subscription (R285): the subscriber's block and core, the publisher's block, offset and length, the mirror, its bits, and the
late-update log while the subscriber is saved (R287). -/
structure Subscription where
  core   : Nat
  index  : Nat
  block  : Nat
  pcore  : Nat
  pblock : Nat
  poff   : Nat
  loff   : Nat
  len    : Nat
  snap   : Bool
  lost   : Bool
  ended  : Bool
  log    : List (Nat × Byte)
deriving DecidableEq, Repr

/-- An entry of a core's update buffer (R139): the block, line and bytes written, and the clock of its last write. -/
structure UpdEntry where
  core  : Nat
  block : Nat
  line  : Nat
  bytes : List (Nat × Byte)
  since : Nat
deriving DecidableEq, Repr

/-- An update sent and not yet applied at its subscriber (R138, R139). -/
structure Update where
  id    : Nat
  core  : Nat
  scrib : Nat
  index : Nat
  bytes : List (Nat × Byte)
deriving DecidableEq, Repr

/-- An entry of a core's reduction buffer (R132): the contexts whose `RED`s it combines, line, operation, type, the partial of each element, and the narrowest scope. -/
structure RedEntry where
  core  : Nat
  ctxs  : List Nat
  line  : Nat
  op    : Nat
  mty   : BitVec 4
  parts : List (Nat × DWord)
  scope : Nat
  key   : BitVec 6
deriving DecidableEq, Repr

/-- A deferred launch (R337): core, block, context, counter, queue, packet, and whether its counter has reached zero. -/
structure Deferred where
  core  : Nat
  block : Nat
  ctx   : Nat
  ec    : Nat
  queue : Nat
  bits  : BitVec 512
  ready : Bool
deriving DecidableEq, Repr

/-! ### Memory system -/

/-- A line's directory state (R393): clean sharers, exclusive or modified in one L2, or partials held by cores. Die 0 is the host die. -/
inductive DirState where
  | s (dies : List Nat)
  | e (die : Nat)
  | m (die : Nat)
  | p (cores : List Nat)
deriving DecidableEq, Repr

/-- A compute die's own copy of an SW line (R122): the key slot it was fetched with, its bytes, which of them are dirty (bit i: byte i), and its
poisoned 16-byte parts with the source of their error (R375, R442). -/
structure SwLine where
  die   : Nat
  line  : Nat
  key   : Nat
  data  : List Byte
  dirty : BitVec 128
  bad   : List (Nat × Nat)
deriving DecidableEq, Repr

/-- An entry of a TLB (R357). `place` is 0 to 79 for a core's L1 TLB, 100 + global quad for an L2 TLB, 200 + h for host hart h. -/
structure TlbEntry where
  place : Nat
  vmid  : BitVec 8
  asid  : BitVec 16
  user  : Bool
  vbase : Nat
  x     : Xlat
deriving DecidableEq, Repr

/-- A walk-cache entry (R357): die, the guest it serves, the table entry's address and the entry read. -/
structure WalkEntry where
  die  : Nat
  vmid : BitVec 8
  addr : Nat
  val  : DWord
deriving DecidableEq, Repr

/-- A stage-2 translation of a page of table addresses (R357): die, guest, the page's guest-physical base, and its leaf: the entry, its place,
its page size in bits and its level. -/
structure TableXlat where
  die  : Nat
  vmid : BitVec 8
  base : Nat
  ent  : DWord
  ea   : Nat
  size : Nat
  lvl  : Nat
deriving DecidableEq, Repr

/-- A line that was written while a launch ran, as the launch's fetches see it (R142): the launch, the line and its bytes when the launch
started. -/
structure CodeLine where
  launch : Nat
  line   : Nat
  data   : List Byte
deriving DecidableEq, Repr

/-- A location-cache entry (R390): the die (3 for the hub), the page, the entry. -/
structure LocEntry where
  die  : Nat
  page : Nat
  val  : BitVec 128
deriving DecidableEq, Repr

/-- An access that waits for a closed line (R398): a part of an instruction, a burst of a command, a packet, a hart's access, an inbound
request, a write of the hub (its number, key and place, whether it wakes who waits there, and its bytes), or the setting of bits in a table entry by a walker (its die, key, place, and
the entry before and after, R356). -/
inductive Holder where
  | part (op lane : Nat)
  | burst (cmd n : Nat)
  | packet (q : Nat) (pos : BitVec 32)
  | host (h : Nat) (a : HostAcc)
  | inbound (r : Inbound)
  | hub (n key spa : Nat) (wake : Bool) (bs : List Byte)
  | entry (die key spa old new : Nat)
deriving DecidableEq, Repr

/-- An entry of the forwarding table (R396): page, source and destination, the line being copied, whether that line is closed, the moved
bitmap, and the accesses that wait for the line in arrival order, each with whether it writes. -/
structure Forward where
  page    : Nat
  srcTier : BitVec 2
  srcPage : BitVec 27
  dstTier : BitVec 2
  dstPage : BitVec 27
  begun   : Bool
  line    : Nat
  closed  : Bool
  moved   : List Nat
  held    : List (Holder × Bool)
deriving DecidableEq, Repr

/-- A pin (R148, R150) with the context that made it. -/
structure Pin where
  page : Nat
  ctx  : Nat
deriving DecidableEq, Repr

/-- A pin note (R403): the page, the guest-physical address, and the context of the `PIN` that raised its count from 0. -/
structure PinNote where
  page : Nat
  gpa  : Nat
  ctx  : Nat
deriving DecidableEq, Repr

/-- Where this package stands in the hand-over of a pool page (R406), as claimant or as owner. -/
inductive HandoverStep where
  | claiming | claimed | asked | frozen | released
deriving DecidableEq, Repr

/-- A hand-over in progress: the page and the step this package has reached, and whether it is the claimant. -/
structure Handover where
  page     : Nat
  claimant : Bool
  step     : HandoverStep
deriving DecidableEq, Repr

/-- A list of free device pages (R389). The profile is 0 for the pool. -/
structure FreeList where
  tier    : Nat
  profile : Nat
  pages   : List Nat
deriving DecidableEq, Repr

/-- An 8-byte word of a block's scratchpad, or a vector register of a cohort, whose check bits were altered (R323). -/
inductive ErrPlace where
  /-- A word of eight bytes of a block's scratchpad. -/
  | spm (block word : Nat)
  /-- A register of an agent: vector register n as n, scalar register n as 256 + n. -/
  | reg (agent num : Nat)
deriving DecidableEq, Repr

/-- An injected error, uncorrectable or not (R323). -/
structure HwErr where
  place : ErrPlace
  unc   : Bool
deriving DecidableEq, Repr

/-- The memory system: device memory, poison and injected errors, key tags of encrypted lines, die copies of SW lines, the L2 way of each line (die, line, way), L1 lines, the directory, the
location entries held by their serving agents, location caches, moves, pins, hand-overs, free lists, core buffers, token buckets, the poisoned
parts whose error an L2 found (R371, R442), the requests that found no token (port, requester, first and last clock: R421), and the bucket class
that last dirtied a cached line (R420). -/
structure MemSys where
  cells    : Memory
  poison   : List Nat
  inject   : List (Nat × Bool × Bool)
  errs     : List HwErr
  lineKeys : AMap (BitVec 512 × Nat)
  sw       : List SwLine
  ways     : List (Nat × Nat × Nat)
  l1       : List (Nat × Nat)
  code     : List Nat
  old      : List CodeLine
  dir      : AMap DirState
  pages    : AMap (BitVec 128)
  loc      : List LocEntry
  forwards : List Forward
  free     : List FreeList
  pins     : List Pin
  notes    : List PinNote
  hand     : List Handover
  claims   : List (Nat × Nat)
  red      : List RedEntry
  upd      : List UpdEntry
  sent     : List Update
  subs     : List Subscription
  tlb      : List TlbEntry
  walk     : List WalkEntry
  tables   : List TableXlat
  tokens   : List (Nat × Nat × Int)
  reqs     : AMap Nat
  poisonL2 : List Nat := []
  starved  : List (Nat × Nat × Nat × Nat) := []
  owners   : AMap Nat := []
deriving DecidableEq, Repr

/-! ### Contexts, queues and records -/

/-- A context and its privileged registers (R310 to R312), its hint balance (R150), its `CTXQOS` (R418) and its `clk` offset
(R76). -/
structure Ctx where
  vmid     : BitVec 8
  asid     : BitVec 16
  part     : BitVec 2
  s1root   : DWord
  s2root   : DWord
  trapq    : DWord
  faultq   : DWord
  savebase : DWord
  pinquota : DWord
  hintbud  : DWord
  balance  : Nat
  qos      : DWord
  clkOfs   : DWord
deriving DecidableEq, Repr

/-- A packet from its acceptance to its completion record (R328 to R330). `st` is 0 accepted, 1 started, 2 completed; `sig` whether its
record is still to be written; `prog` what a copy or migrate packet has done, `todo` the bursts of a copy to be performed afresh, `entry` one
more than the number of its entry in a record-mode buffer (R443). -/
structure Packet where
  queue  : Nat
  pos    : BitVec 32
  bits   : BitVec 512
  st     : Nat
  status : Nat
  detail : Nat
  sig    : Bool
  group  : Option Nat
  prog   : Nat
  todo   : List Nat
  failed : Bool
  seq    : Nat
  ver    : BitVec 32
  entry  : Nat
deriving DecidableEq, Repr

/-- The registers of a hardware queue (R326), its energy remainder (R345), what RECCTL holds for it (R443), the group its ring waits for
(R328), and how many packets of its ring ended with their context (R377). -/
structure Queue where
  cfg     : DWord
  base    : DWord
  wr      : BitVec 32
  rd      : BitVec 32
  done    : BitVec 32
  elapsed : DWord
  energy  : DWord
  rem     : Nat
  recctl  : DWord
  group   : Option Nat
  replay  : Nat
  recPos  : Nat
  ends    : Nat
deriving DecidableEq, Repr

/-- A fault group (R363) and the record that goes out for it (R364): the queue it belongs to, the page, and what it parks. -/
structure FaultGroup where
  id    : Nat
  type  : Nat
  ctx   : Nat
  page  : Nat
  write : Bool
  ops   : List (Nat × Nat)
  cmds  : List (Nat × Nat)
  fetch : Option Nat
  pkt   : Option (Nat × BitVec 32 × Nat)
  posted : Bool
  held  : Bool
  saved : Bool
deriving DecidableEq, Repr

/-- A trap record from its posting until it is acted on (R370 to R373): what it stops, its kind, and the lanes or bursts it detached.
`loose` marks a record that stops nothing (R330, R375): every action on it only retires it. -/
structure TrapInfo where
  id    : Nat
  ctx   : Nat
  agent : Nat
  level : Level
  code  : BitVec 8
  kind  : Nat
  word  : Nat
  hdr   : DWord
  group : LaneSet
  count : Nat
  op    : Nat
  cmd   : Option Nat
  fetch : Bool
  loose : Bool := false
deriving DecidableEq, Repr

/-- A fault that is kept in its walker while the store of the fault-queue manager is full (R361): the die of the walker, the queue of its
record, the record and its group. -/
structure KeptFault where
  die   : Nat
  queue : RecQueue
  bits  : BitVec 512
  group : Option Nat
deriving DecidableEq, Repr

/-- Records that a manager holds in order for a queue, and what it knows of RDPOS (R361). -/
structure RecStore where
  queue : RecQueue
  rdpos : BitVec 32
  held  : List (BitVec 512 × Option Nat)
deriving DecidableEq, Repr

/-- A waiter of the wait-and-wake table (R259, R263): a lane, a host hart or a dependence-wait packet, its key and the recorded address. -/
inductive Waiter where
  | lane (agent lane : Nat)
  | hart (h : Nat)
  | packet (q : Nat) (pos : BitVec 32)
deriving DecidableEq, Repr

/-- An entry's waiter with the time it entered. -/
structure WaitEntry where
  who  : Waiter
  va   : DWord
  vmid : BitVec 8
  asid : BitVec 16
  spa  : Nat
deriving DecidableEq, Repr

/-- An outstanding `SYSC` (R316, R336): its op, the service level, its call packet, and its position in the service queue once appended. -/
structure SysCall where
  id    : Nat
  op    : Nat
  level : Level
  code  : BitVec 7
  arg   : DWord
  ctx   : Nat
  pc    : DWord
  place : Option (Nat × BitVec 32)
deriving DecidableEq, Repr

/-- What is held of a context while it is saved (R379 to R382): agents, blocks, accesses, commands, barriers, deferred launches, the trap
actions written meanwhile, where the free values of its hardware-state bytes begin, the last value of `clk`, and
the queues whose copy-packet states the save wrote. -/
structure Saved where
  ctx     : Nat
  agents  : AMap Agent
  blocks  : AMap Block
  ops     : AMap Op
  cmds    : AMap Cmd
  bars    : List Barrier
  defers  : List Deferred
  acts    : AMap Nat
  base    : Nat
  clkRef  : DWord
  queues  : List Nat := []
deriving DecidableEq, Repr

/-- A write of the hub on its own account that waits for its page: key, place, whether it wakes the waiters there (R362), and its bytes. -/
structure HubWrite where
  key  : Nat
  spa  : Nat
  wake : Bool
  data : List Byte
deriving DecidableEq, Repr

/-- A request written to PREEMPT and not yet ended (R378). -/
structure Preempt where
  ctx     : Nat
  restore : Bool
  since   : Nat
deriving DecidableEq, Repr

/-- A change of cut in progress (R430). -/
structure CutChange where
  merge    : Bool
  which    : BitVec 2
  deadline : Nat
  since    : Nat
deriving DecidableEq, Repr

/-- The hub: contexts, queues, records and the registers of the window (R387, R414 to R444). `rot` is the queue from which the
dispatcher's rotation goes on (R339); `puts` holds the hub's own writes that wait for their pages, in order (R390, R398). -/
structure Hub where
  ctxs      : AMap Ctx
  faultqh   : DWord
  fwver     : DWord
  queues    : AMap Queue
  packets   : List Packet
  launches  : AMap Launch
  defers    : List Deferred
  calls     : List SysCall
  waiters   : List WaitEntry
  groups    : List FaultGroup
  traps     : List TrapInfo
  recs      : List RecStore
  kept      : List KeptFault
  saved     : List Saved
  preempts  : List Preempt
  preemptSig : DWord
  partSig   : DWord
  partCfg   : BitVec 8
  cut       : Option CutChange
  profiles  : Sparse 64
  buckets   : Sparse 64
  hartClass : Sparse 64
  pcap      : Sparse 64
  penergy   : AMap Nat
  grantA    : AMap Nat
  rot       : Nat
  credits   : AMap Int
  hubCredit : AMap Int
  puts      : List HubWrite := []
deriving DecidableEq, Repr

/-- How an inbound request completed (R436): with success, as Unsupported Request or as Completer Abort. -/
inductive CplStatus where
  | success | unsupported | abort
deriving DecidableEq, Repr

/-- The completion of an inbound request (R436): its status, the bytes read, and whether they are poisoned (R375). -/
structure Completion where
  status : CplStatus
  data   : List Byte
  bad    : Bool
deriving DecidableEq, Repr

/-- The rest of the window and the security engine (R374, R387, R399, R400, R435 to R443); `cpls` holds the last completion that went out at
each port. -/
structure Platform where
  pltcfg   : DWord
  pltlim   : DWord
  pkgid    : DWord
  poolown  : DWord
  migpol   : Sparse 64
  gstatsel : DWord
  stats    : Sparse 64
  errcnt   : Sparse 32
  ports    : Sparse 64
  jrnCfg   : DWord
  jrnMirror : DWord
  jrnSeq   : DWord
  fwStage  : DWord
  fwVer    : BitVec 32
  fwState  : BitVec 2
  fwResult : BitVec 8
  fwSince  : Nat
  fwDigest : BitVec 512
  fwNext   : BitVec 32
  cleared  : Option (Nat × Nat)
  meas     : Sparse 512
  keys     : Sparse 512
  boot     : Nat
  flashRec : Bool
  inbound  : List Inbound
  ticked   : Nat
  bootFail : Bool := false
  cpls     : AMap Completion := []
deriving DecidableEq, Repr

/-! ### Host harts -/

/-- What RISC-V saves at an exception to one mode (R307): vector, saved pc, cause, value, guest address, the mode and interrupt enable it
came from, and the enable. -/
structure TrapCsrs where
  tvec  : DWord
  epc   : DWord
  cause : DWord
  tval  : DWord
  tval2 : DWord
  prev  : HostMode
  pie   : Bool
  ie    : Bool
deriving DecidableEq, Repr

/-- What a hart is doing: held before its release (R437), running, asleep in `xwaitva` (R267), in a placement instruction that has not
completed and has acted on a number of pages (R264, R267), or waiting for an access that a move holds (R398). -/
inductive HartRun where
  | held
  | running
  | asleep
  | placing (acted : Nat)
  | waiting
deriving DecidableEq, Repr

/-- A host hart (R431, R432): registers x1 to x31 by number, the float registers, the vector registers, the PMP entries, pc, mode, translation
roots, delegation, the trap registers of M, HS and VS,
the reservation of LR (one 128-byte line), the other CSRs of RISC-V by number, the accesses that a fence of R318 still waits for, the fields
of the segment at `vstart` that a vector load or store has done, and the instructions retired (`minstret`). -/
structure Hart where
  x       : Sparse 64
  f       : Sparse 64
  v       : Sparse 512
  pmp     : Sparse 64
  pc      : DWord
  mode    : HostMode
  run     : HartRun
  wrd     : BitVec 5
  satp    : DWord
  vsatp   : DWord
  hgatp   : DWord
  medeleg : DWord
  hedeleg : DWord
  mt      : TrapCsrs
  st      : TrapCsrs
  vst     : TrapCsrs
  resv    : Option Nat
  csrs    : Sparse 64
  fence   : Option (List (Nat × Nat))
  vfield  : Nat := 0
  instret : DWord := 0
deriving DecidableEq, Repr

/-! ### The whole machine -/

/-- Whose clause or instruction is running: nobody's, an agent's clause, a hart's instruction. -/
inductive Turn where
  | idle
  | agent (a : Nat)
  | hart (h : Nat)
deriving DecidableEq, Repr

/-- The package. `agenda` holds the events still to come, oldest first: arbitration, timing and the outside world as plain data.
`cycles` counts compute clocks, `fresh` the free values taken, `nextId` the identifiers given out; `rotor` is the scheduler or hart that
had the last turn (log entry 25). -/
structure State where
  agents   : AMap Agent
  blocks   : AMap Block
  bars     : List Barrier
  ops      : AMap Op
  cmds     : AMap Cmd
  mem      : MemSys
  hub      : Hub
  plat     : Platform
  harts    : AMap Hart
  mtime    : DWord
  agenda   : List Instr
  turn     : Turn
  cycles   : Nat
  fresh    : Nat
  nextId   : Nat
  rotor    : Nat
deriving DecidableEq, Repr

/-! ### Why a step can stop -/

/-- The machine stops: no behaviour of the part is described. -/
inductive Fault where
  /-- Raised by the meaning of a compute word when no agent is issuing a clause: `step` never calls it so. Safe: nothing runs. -/
  | noIssuer
  /-- Raised by the meaning of a host word when no hart is running it: `step` never calls it so. Safe: nothing runs. -/
  | noHart
deriving DecidableEq, Repr

/-- The model gives the instruction no meaning. -/
inductive Refusal where
  /-- Raised by the dispatcher for an instruction that has no meaning yet. Safe: nothing runs. -/
  | notModelled (mnemonic : String)
deriving DecidableEq, Repr

/-! ### Reset -/

/-- Registers of an agent at birth: zero (R28, R79, R80). -/
def Regs.zero : Regs := { v := [], s := [], k := [], pcv := [], sflags := 0 }

/-- No ladle. -/
def LadleData.none : LadleData := { read := 0, burst := 0, bc := [0, 0, 0, 0], steps := 0, finale := false }

/-- A hub thread that has no packet to serve sleeps in `HALT` (R325); `ctxsel` is 0 (R312). -/
def HubData.reset : HubData := { ctxsel := 0, halted := true, notified := false, parked := false }

/-- Hub thread `t` at reset (R324): one lane, level F, no registers set (DESIGN CHOICE, log entry 5: the spec gives its registers no reset
value; it is asleep until its queue's notify register is written). -/
def Agent.hubThread (t : Nat) : Agent :=
  { kind := .hubThread, core := 255, home := 255, sched := 0, block := 0, ctx := 0, level := .f, index := t, alloc := 0, first := 0,
    age := t, prio := 0, regs := Regs.zero, flags := [], lanes := [.ready], count := 0, prevSet := 0, skip := 0, yielded := false,
    traps := [], bara := [], ladle := LadleData.none, hub := HubData.reset, started := true, issue := Option.none }

/-- Hub threads `0` to `n - 1`, as a sorted map. -/
def hubThreads : Nat → AMap Agent
  | 0 => []
  | n + 1 => hubThreads n ++ [(n, Agent.hubThread n)]

/-- A context as it is before system software writes it (R312, R418): every register 0 but CTXQOS.WAYMASK. -/
def Ctx.reset : Ctx :=
  { vmid := 0, asid := 0, part := 0, s1root := 0, s2root := 0, trapq := 0, faultq := 0, savebase := 0, pinquota := 0, hintbud := 0,
    balance := 0, qos := 0xFFFF000000000000, clkOfs := 0 }

/-- A queue at reset (R326). -/
def Queue.reset : Queue :=
  { cfg := 0, base := 0, wr := 0, rd := 0, done := 0, elapsed := 0, energy := 0, rem := 0, recctl := 0, group := Option.none,
    replay := 0, recPos := 0, ends := 0 }

/-- The memory system at reset: nothing written, every line in state I, every buffer and cache empty. -/
def MemSys.reset : MemSys :=
  { cells := [], poison := [], inject := [], errs := [], lineKeys := [], sw := [], ways := [], l1 := [], code := [], old := [], dir := [], pages := [], loc := [], forwards := [], free := [],
    pins := [], notes := [], hand := [], claims := [], red := [], upd := [], sent := [], subs := [], tlb := [], walk := [], tables := [],
    tokens := [], reqs := [] }

/-- The hub at reset: context 0 is the hypervisor's (R370), the package is cut into four quarters (R414), nothing is queued. -/
def Hub.reset : Hub :=
  { ctxs := [(0, Ctx.reset)], faultqh := 0, fwver := 0, queues := [], packets := [], launches := [], defers := [], calls := [],
    waiters := [], groups := [], traps := [], recs := [], kept := [], saved := [], preempts := [], preemptSig := 0, partSig := 0, partCfg := 0,
    cut := Option.none, profiles := [], buckets := [], hartClass := [], pcap := [], penergy := [],
    grantA := [(0, 64), (1, 64), (2, 64), (3, 64)], rot := 0, credits := [], hubCredit := [] }

/-- The window's other registers and the security engine at reset: PKGID and the table registers are written at boot (R437). -/
def Platform.reset : Platform :=
  { pltcfg := 0, pltlim := 0, pkgid := 0, poolown := 0, migpol := [], gstatsel := 0, stats := [], errcnt := [], ports := [], jrnCfg := 0,
    jrnMirror := 0, jrnSeq := 0, fwStage := 0, fwVer := 0, fwState := 0, fwResult := 0, fwSince := 0, fwDigest := 0, fwNext := 0,
    cleared := Option.none, meas := [], keys := [], boot := 0,
    flashRec := false, inbound := [], ticked := 0 }

/-- Trap registers of one mode at reset (PRESUMED, log entry 7). -/
def TrapCsrs.reset : TrapCsrs :=
  { tvec := 0, epc := 0, cause := 0, tval := 0, tval2 := 0, prev := .u, pie := false, ie := false }

/-- A hart before its release: held, in M mode, registers zero (R437; DESIGN CHOICE, log entry 4). -/
def Hart.reset : Hart :=
  { x := [], f := [], v := [], pmp := [], pc := 0, mode := .m, run := .held, wrd := 0, satp := 0, vsatp := 0, hgatp := 0, medeleg := 0, hedeleg := 0,
    mt := TrapCsrs.reset, st := TrapCsrs.reset, vst := { TrapCsrs.reset with prev := .vu }, resv := Option.none, csrs := [], fence := Option.none }

/-- The machine right after reset: no work exists, the hub threads sleep, every hart is held, nothing is offered. Harts and queues that
are not listed stand at `Hart.reset` and `Queue.reset`. -/
def State.reset : State :=
  { agents := hubThreads 64, blocks := [], bars := [], ops := [], cmds := [], mem := MemSys.reset, hub := Hub.reset,
    plat := Platform.reset, harts := [], mtime := 0, agenda := [], turn := .idle, cycles := 0, fresh := 0, nextId := 64,
    rotor := 0 }

end Sys2Proof.Machine
end

