-- ==== Sys2Proof/Machine/Store.lean ====
section
/-! DEFINITION. The maps that State is made of: numbers to anything (`AMap`), and numbers to words with zero not listed (`Sparse`, which
memory is an instance of). Every operation keeps the keys rising, so equal contents are equal data. -/

namespace Sys2Proof.Machine

/-- The value at a key. -/
def aget {α : Type} (m : AMap α) (k : Nat) : Option α :=
  match m with
  | [] => none
  | (j, a) :: t => if j == k then some a else aget t k

/-- The value at a key, or a default. -/
def agetD {α : Type} (m : AMap α) (k : Nat) (d : α) : α := (aget m k).getD d

/-- Sets the value at a key. -/
def aset {α : Type} (m : AMap α) (k : Nat) (a : α) : AMap α :=
  match m with
  | [] => [(k, a)]
  | (j, b) :: t => if k < j then (k, a) :: (j, b) :: t else if j == k then (k, a) :: t else (j, b) :: aset t k a

/-- Removes a key. -/
def adel {α : Type} (m : AMap α) (k : Nat) : AMap α := m.filter (fun p => p.1 != k)

/-- Changes the value at a key, if there is one. -/
def amod {α : Type} (m : AMap α) (k : Nat) (f : α → α) : AMap α := m.map (fun p => if p.1 == k then (p.1, f p.2) else p)

/-- Keys rise strictly from `lo`. -/
def keysFrom {α : Type} (lo : Nat) (m : List (Nat × α)) : Bool :=
  match m with
  | [] => true
  | (j, _) :: t => decide (lo ≤ j) && keysFrom (j + 1) t

/-- A map's keys rise strictly. -/
def AMap.wf {α : Type} (m : AMap α) : Bool := keysFrom 0 m

/-- The word at a key: an unlisted one is zero. -/
def sget {w : Nat} (m : Sparse w) (k : Nat) : BitVec w := (aget m k).getD 0

/-- Removes a key of a sorted list. -/
def sdel {w : Nat} (m : Sparse w) (k : Nat) : Sparse w :=
  match m with
  | [] => []
  | (j, b) :: t => if j == k then t else if k < j then (j, b) :: t else (j, b) :: sdel t k

/-- Sets the word at a key; writing zero removes the entry. -/
def sset {w : Nat} (m : Sparse w) (k : Nat) (v : BitVec w) : Sparse w := if v == 0 then sdel m k else aset m k v

/-- No listed word is zero. -/
def noZero {w : Nat} (m : Sparse w) : Bool := m.all (fun p => p.2 != 0)

/-- The canonical form: keys rise strictly, no listed word is zero. -/
def Sparse.wf {w : Nat} (m : Sparse w) : Bool := keysFrom 0 m && noZero m

/-- The canonical form of memory: `Sparse.wf` with bytes. An unlisted byte reads 0 (DESIGN CHOICE, log entry 1). -/
def Memory.wf (m : Memory) : Bool := Sparse.wf m

/-- `n` consecutive words from a key, the first in the low bits (R5). -/
def sgetN {w : Nat} (m : Sparse w) (k : Nat) : Nat → List (BitVec w)
  | 0 => []
  | n + 1 => sget m k :: sgetN m (k + 1) n

/-- Writes consecutive words from a key. -/
def ssetN {w : Nat} (m : Sparse w) (k : Nat) : List (BitVec w) → Sparse w
  | [] => m
  | b :: t => ssetN (sset m k b) (k + 1) t

/-- Bytes to a number, the first byte lowest (R5). -/
def ofBytes : List Byte → Nat
  | [] => 0
  | b :: t => b.toNat + 256 * ofBytes t

/-- The `n` bytes of a number, the lowest first (R5). -/
def toBytes (v : Nat) : Nat → List Byte
  | 0 => []
  | n + 1 => BitVec.ofNat 8 v :: toBytes (v / 256) n

end Sys2Proof.Machine
end

