-- ==== Sys2Proof/Machine/Memory.lean ====
section
/-! DEFINITION. Memory as the home agents keep it: device locations, page location entries and location caches (R385 to R392),
encryption (R439), poison and injected errors (R374, R375, R323), the directory (R393, R394), access counters (R147), SW copies (R122)
and the merging of reduction partials (R132 to R134). -/

namespace Sys2Proof.Machine

/-- Bits `lo` to `lo + n - 1` of a number. -/
def nbits (v lo n : Nat) : Nat := v / 2 ^ lo % 2 ^ n

/-- A number with bits `lo` to `lo + n - 1` replaced by those of `x`. -/
def nset (v lo n x : Nat) : Nat := v - nbits v lo n * 2 ^ lo + (x % 2 ^ n) * 2 ^ lo

/-- Field `lo`, `n` wide, of a page location entry. -/
def efld (e : BitVec 128) (lo n : Nat) : Nat := nbits e.toNat lo n

/-- Replaces a field of a page location entry. -/
def eset (e : BitVec 128) (lo n x : Nat) : BitVec 128 := BitVec.ofNat 128 (nset e.toNat lo n x)

/-- R385: STATE of an entry. -/
def peState (e : BitVec 128) : Nat := efld e 29 3
/-- R385: TIER of an entry. -/
def peTier (e : BitVec 128) : Nat := efld e 27 2
/-- R385: DPAGE of an entry. -/
def pePage (e : BitVec 128) : Nat := efld e 0 27
/-- R385: the owning VMID of an entry. -/
def peVmid (e : BitVec 128) : Nat := efld e 40 8
/-- R385: the allowed-tier mask of an entry. -/
def peAllow (e : BitVec 128) : Nat := efld e 32 3
/-- R385: the pin count of an entry. -/
def pePins (e : BitVec 128) : Nat := efld e 48 16

/-- The device location of a byte: tier, device page, offset. -/
def dloc (tier page ofs : Nat) : Nat := (tier * 2 ^ 27 + page) * 2 ^ 19 + ofs

/-- The LPDDR6 location of the table's own storage, and of the hub's structures in LPDDR6: the device page of the same number (DESIGN
CHOICE, log entry 11: the spec does not say how the hub reaches LPDDR6 without the table). -/
def hubLoc (spa : Nat) : Nat := dloc 2 (spa / 2 ^ 19 % 2 ^ 27) (spa % 2 ^ 19)

/-- R387: base of the page location table. -/
def pltBase (p : Platform) : Nat := nbits p.pltcfg.toNat 21 31 * 2 ^ 21

/-- R387: number of pages described. -/
def pltLim (p : Platform) : Nat := nbits p.pltlim.toNat 0 34

/-- What an unlisted byte of memory reads as: 0 (DESIGN CHOICE, log entry 1), and in the page location table, once hub firmware has
cleared it (R437), the bytes of an entry of STATE 4. -/
def unlisted (p : Platform) (loc : Nat) : Byte :=
  match p.cleared with
  | some (base, pages) =>
    if decide (base ≤ loc) && decide (loc < base + 16 * pages) && decide ((loc - base) % 16 = 3) then 0x80 else 0
  | none => 0

/-- A byte of device memory as stored. Cells hold each byte's difference from what an unlisted byte reads as. -/
def rawRead (s : State) (loc : Nat) : Byte := sget s.mem.cells loc ^^^ unlisted s.plat loc

/-- Stores a byte of device memory. -/
def rawWrite (s : State) (loc : Nat) (b : Byte) : State :=
  { s with mem := { s.mem with cells := sset s.mem.cells loc (b ^^^ unlisted s.plat loc) } }

/-- Consecutive bytes of device memory. -/
def rawReadN (s : State) (loc : Nat) : Nat → List Byte
  | 0 => []
  | n + 1 => rawRead s loc :: rawReadN s (loc + 1) n

/-- Stores consecutive bytes of device memory. -/
def rawWriteN (s : State) (loc : Nat) : List Byte → State
  | [] => s
  | b :: t => rawWriteN (rawWrite s loc b) (loc + 1) t

/-! ### Contexts and partitions -/

/-- A context's registers; one that was never written stands at reset. -/
def ctxOf (s : State) (c : Nat) : Ctx := agetD s.hub.ctxs c Ctx.reset

/-- Whether a context id is held. -/
def ctxHeld (s : State) (c : Nat) : Bool := (aget s.hub.ctxs c).isSome

/-- The partition of a quarter under the current cut (R413, R414). -/
def partOfQuarter (cfg : BitVec 8) (q : Nat) : Nat :=
  if cfg.getLsbD 2 then 0
  else if q < 2 then (if cfg.getLsbD 0 then 0 else q)
  else if cfg.getLsbD 1 then 2 else q

/-- Whether a number is a partition of the current cut. -/
def isPart (cfg : BitVec 8) (p : Nat) : Bool := decide (p < 4) && decide (partOfQuarter cfg p = p)

/-- How many quarters a partition holds. -/
def quartersOf (cfg : BitVec 8) (p : Nat) : Nat := ([0, 1, 2, 3].filter (fun q => partOfQuarter cfg q == p)).length

/-- R413: the quarter of a core. -/
def coreQuarter (core : Nat) : Nat := core / 20

/-- The partition of a core. -/
def corePart (s : State) (core : Nat) : Nat := partOfQuarter s.hub.partCfg (coreQuarter core)

/-- The partition of a queue (R413, R415). -/
def queuePart (s : State) (q : Nat) : Nat := partOfQuarter s.hub.partCfg (q / 16)

/-- The partition of a context (R310, R311, R430). -/
def ctxPart (s : State) (c : Nat) : Nat := partOfQuarter s.hub.partCfg (ctxOf s c).part.toNat

/-- The bucket class of a context (R418). -/
def classOf (s : State) (ctx : Nat) : Nat := nbits (ctxOf s ctx).qos.toNat 36 4

/-- R15: the die of a core. -/
def dieOf (core : Nat) : Nat := if core < 40 then 1 else if core < 80 then 2 else 3

/-- R15: the quad of a core within its die. -/
def quadOf (core : Nat) : Nat := core % 40 / 4

/-- Global quads 0 to 19. -/
def gquad (core : Nat) : Nat := core / 4

/-- The first context of a guest, whose CTXQOS places the guest's data (R418: every context of one VMID holds the same). -/
def guestCtx (s : State) (vmid : Nat) : Option Ctx :=
  match s.hub.ctxs.filter (fun p => p.2.vmid.toNat == vmid) with
  | [] => none
  | p :: _ => some p.2

/-- R418: SEED of a guest. -/
def guestSeed (s : State) (vmid : Nat) : Nat := match guestCtx s vmid with
  | none => 0
  | some c => nbits c.qos.toNat 16 12

/-- R418: PROF of a guest. -/
def guestProf (s : State) (vmid : Nat) : Nat := match guestCtx s vmid with
  | none => 0
  | some c => nbits c.qos.toNat 0 3

/-- R418, R419: DIEMASK of a guest. -/
def guestDies (s : State) (vmid : Nat) : Nat := match guestCtx s vmid with
  | none => 0
  | some c => nbits c.qos.toNat 32 2

/-! ### Page location -/

/-- The entry of a page as it stands in LPDDR6 (R385). -/
def pltRead (s : State) (page : Nat) : BitVec 128 :=
  BitVec.ofNat 128 (ofBytes (rawReadN s (hubLoc (pltBase s.plat) + 16 * page) 16))

/-- Writes the entry of a page to LPDDR6. -/
def pltWrite (s : State) (page : Nat) (e : BitVec 128) : State :=
  rawWriteN s (hubLoc (pltBase s.plat) + 16 * page) (toBytes e.toNat 16)

/-- The location cache of a die (3 is the hub) holds this entry of a page (R390). -/
def locCached (s : State) (die page : Nat) : Option (BitVec 128) :=
  match s.mem.loc.filter (fun e => e.die == die && e.page == page) with
  | [] => none
  | e :: _ => some e.val

/-- R390: how many entries a die's location cache holds. -/
def locSize (die : Nat) : Nat := if die == 3 then Config.hubLocEntries else Config.dieLocEntries

/-- Puts an entry into a die's location cache, the oldest going out when it is full. -/
def locInsert (s : State) (die page : Nat) (e : BitVec 128) : State :=
  let mine := s.mem.loc.filter (fun x => x.die == die)
  let drop := if mine.length < locSize die then s.mem.loc
    else match mine with
      | [] => s.mem.loc
      | o :: _ => s.mem.loc.erase o
  { s with mem := { s.mem with loc := drop ++ [{ die := die, page := page, val := e }] } }

/-- Removes a page from every location cache (R320, R391). -/
def locDrop (s : State) (page : Nat) : State :=
  { s with mem := { s.mem with loc := s.mem.loc.filter (fun e => e.page != page) } }

/-- LOCATION_LOOKUP (R390, R391): the entry that routes an access of a die to a page: the serving agent's own copy where one serves it,
otherwise the cached entry, otherwise the table's. Nothing for a page at or above PLTLIM (R386). -/
def locate (s : State) (die page : Nat) : Option (BitVec 128) :=
  if pltLim s.plat ≤ page then none
  else match aget s.mem.pages page with
    | some e => some e
    | none => some ((locCached s die page).getD (pltRead s page))

/-- What a lookup leaves behind: the entry in the die's cache, and a live copy at the agent that now serves the page. -/
def locateFill (s : State) (die page : Nat) : State :=
  match locate s die page with
  | none => s
  | some e =>
    let s1 := if (locCached s die page).isSome then s else locInsert s die page e
    if (peState e == 0 || peState e == 3) && (aget s1.mem.pages page).isNone then
      { s1 with mem := { s1.mem with pages := aset s1.mem.pages page e } }
    else s1

/-- The entry of a page as the agent that serves it holds it, or the table's (R390). -/
def pageEntry (s : State) (page : Nat) : BitVec 128 := (aget s.mem.pages page).getD (pltRead s page)

/-- The serving agent's new entry of a page. -/
def setPageEntry (s : State) (page : Nat) (e : BitVec 128) : State :=
  { s with mem := { s.mem with pages := aset s.mem.pages page e } }

/-- The pages of which an agent or the table holds anything: every other entry is free, or allows no tier. -/
def tablePages (s : State) : List Nat :=
  let base := hubLoc (pltBase s.plat)
  let stored := (s.mem.cells.filter (fun c => decide (base ≤ c.1) && decide (c.1 < base + 16 * pltLim s.plat))).map (fun c => (c.1 - base) / 16)
  (s.mem.pages.map (fun p => p.1) ++ stored).dedup

/-- The pages whose entries may be other than free: those of which something is held, once hub firmware has cleared the table (R437), and
every page described before. -/
def livePages (s : State) : List Nat :=
  if s.plat.cleared.any (fun c => c.1 == hubLoc (pltBase s.plat) && decide (pltLim s.plat ≤ c.2)) then
    (tablePages s).filter (fun k => decide (k < pltLim s.plat))
  else List.range (pltLim s.plat)

/-- A page this package can act on: described by the table and in STATE 0 to 3 (R386). -/
def pageValid (s : State) (page : Nat) : Bool := decide (page < pltLim s.plat) && decide (peState (pageEntry s page) < 4)

/-- R147: the counter of a source: 0 the host die, 1 and 2 the compute dies, 3 remote; with the decay step. -/
def countAccess (e : BitVec 128) (src : Nat) : BitVec 128 :=
  let c := min (efld e (64 + 16 * src) 16 + 1) 0xFFFF
  let e1 := eset e (64 + 16 * src) 16 c
  if c == 0xFFFF then
    [0, 1, 2, 3].foldl (fun x i => eset x (64 + 16 * i) 16 (efld x (64 + 16 * i) 16 / 2)) e1
  else e1

/-- ACCESS_COUNT (R147): one access from a source reaches the home of a page. -/
def countPage (s : State) (page src : Nat) : State := setPageEntry s page (countAccess (pageEntry s page) src)

/-- R416: IPROF of a profile. -/
def iprof (s : State) (n : Nat) : Nat := (sget s.hub.profiles (8 * n)).toNat

/-- R416: MASK of a hash register of a profile. -/
def profMask (s : State) (n i : Nat) : Nat := nbits (sget s.hub.profiles (8 * n + 1 + i)).toNat 0 39

/-- R416: DPBASE of a profile. -/
def profBase (s : State) (n : Nat) : Nat := nbits (sget s.hub.profiles (8 * n + 1)).toNat 40 21

/-- R417: `x`, by which line `n` of device page `dp` is placed under a profile and a seed. -/
def profX (s : State) (prof seed dp n : Nat) : Nat := (dp - profBase s prof) * 2 ^ 12 + (n ^^^ seed) % 4096

/-- R417: `b[i]`, the parity of `x` under mask `i` of a profile. -/
def profBit (s : State) (prof x i : Nat) : Nat := ((List.range 39).filter (fun k => nbits (x &&& profMask s prof i) k 1 == 1)).length % 2

/-- R417: `b[lo + n - 1 : lo]`. -/
def profHash (s : State) (prof x lo n : Nat) : Nat := (List.range n).foldl (fun acc i => acc + profBit s prof x (lo + i) * 2 ^ i) 0

/-- The numbers of the bits that are set among `n`, in ascending order. -/
def bitList (v lo n : Nat) : List Nat := (List.range n).filter (fun i => nbits v (lo + i) 1 == 1)

/-- R417: the stack and the channel of a line of tier 0 or 1, and the channel (of no stack) of a line of tier 2. The position in the channel is the
device's. -/
def linePlace (s : State) (prof seed tier dp n : Nat) : Nat × Nat :=
  let x := profX s prof seed dp n
  if tier < 2 then
    let l := bitList (iprof s prof) (4 * tier) 4
    (4 * tier + l.getD (profHash s prof x 5 2 % l.length) 0, profHash s prof x 0 5)
  else
    let l := bitList (iprof s prof) 8 16
    (0, l.getD (profHash s prof x 0 7 % l.length) 0)

/-- R392, R398: where a line of a page stands: its tier and device page; a line of a moving page at its source or, once it has moved, at its
destination. -/
def lineHome (s : State) (page line : Nat) : Nat × Nat :=
  match s.mem.forwards.filter (fun f => f.page == page && f.begun) with
  | f :: _ => if f.moved.contains line then (f.dstTier.toNat, f.dstPage.toNat) else (f.srcTier.toNat, f.srcPage.toNat)
  | [] => (peTier (pageEntry s page), pePage (pageEntry s page))

/-- R417, R419: the device location of a byte of a page. In tiers 0 to 2 the seed of the page's guest selects which line of the device
page holds line n. -/
def pageLoc (s : State) (page ofs : Nat) : Nat :=
  let line := ofs / 128
  let h := lineHome s page line
  let seed := if h.1 < 3 then guestSeed s (peVmid (pageEntry s page)) else 0
  dloc h.1 h.2 (((line ^^^ seed) % 4096) * 128 + ofs % 128)

/-- The device location of a system-physical byte. -/
def spaLoc (s : State) (spa : Nat) : Nat := pageLoc s (spa / 2 ^ 19) (spa % 2 ^ 19)

/-! ### Encryption -/

/-- The keys of a slot (R438). -/
def keyOf (s : State) (n : Nat) : BitVec 512 := sget s.plat.keys n

/-- R439: a byte of a stored line as a reader with key slot `n` at system-physical line `tweak` sees it. -/
def viewByte (s : State) (n tweak loc : Nat) : Byte :=
  let line := loc / 128
  let raw := rawReadN s (line * 128) 128
  match n, aget s.mem.lineKeys line with
  | 0, none => rawRead s loc
  | 0, some (k, t) => Config.xtsEncrypt k t raw (loc % 128)
  | n + 1, none => Config.xtsDecrypt (keyOf s (n + 1)) tweak raw (loc % 128)
  | n + 1, some (k, t) =>
    if k == keyOf s (n + 1) && t == tweak then rawRead s loc
    else Config.xtsDecrypt (keyOf s (n + 1)) tweak ((List.range 128).map (fun i => Config.xtsEncrypt k t raw i)) (loc % 128)

/-- The tag of a line written with key slot `n` at system-physical line `tweak`. -/
def tagOf (s : State) (n tweak : Nat) : Option (BitVec 512 × Nat) := if n == 0 then none else some (keyOf s n, tweak)

/-- R439: before a write with key slot `n`, the stored line becomes the line as that writer sees it. -/
def retag (s : State) (n tweak line : Nat) : State :=
  if aget s.mem.lineKeys line == tagOf s n tweak then s
  else
    let seen := (List.range 128).map (fun i => viewByte s n tweak (line * 128 + i))
    let s1 := rawWriteN s (line * 128) seen
    match tagOf s n tweak with
    | none => { s1 with mem := { s1.mem with lineKeys := adel s1.mem.lineKeys line } }
    | some t => { s1 with mem := { s1.mem with lineKeys := aset s1.mem.lineKeys line t } }

/-! ### Bytes at system-physical addresses -/

/-- A byte at a system-physical address through key slot `n`. -/
def spaRead (s : State) (n spa : Nat) : Byte := viewByte s n (spa / 128) (spaLoc s spa)

/-- Consecutive bytes at a system-physical address. -/
def spaReadN (s : State) (n spa : Nat) : Nat → List Byte
  | 0 => []
  | k + 1 => spaRead s n spa :: spaReadN s n (spa + 1) k

/-- A write of one byte at a system-physical address: an injected error of its word goes with it (R323). -/
def spaWrite (s : State) (n spa : Nat) (b : Byte) : State :=
  let loc := spaLoc s spa
  let s1 := rawWrite (retag s n (spa / 128) (loc / 128)) loc b
  { s1 with mem := { s1.mem with inject := s1.mem.inject.filter (fun p => p.1 != loc / 8) } }

/-- Consecutive bytes written at a system-physical address. -/
def spaWriteBytes (s : State) (n spa : Nat) : List Byte → State
  | [] => s
  | b :: t => spaWriteBytes (spaWrite s n spa b) n (spa + 1) t

/-- Whether 16-byte part `p` of memory (by system-physical number) is wholly inside a range: its poison then clears (R375). -/
def wholeParts (spa len : Nat) : List Nat :=
  (List.range (len / 16 + 2)).filterMap (fun i =>
    let p := spa / 16 + i
    if spa ≤ p * 16 && p * 16 + 16 ≤ spa + len then some p else none)

/-- R375: a write of a whole 16-byte part clears its poison. -/
def clearPoison (s : State) (spa len : Nat) : State :=
  let gone := (wholeParts spa len).map (fun p => spaLoc s (p * 16) / 16)
  { s with mem := { s.mem with poison := s.mem.poison.filter (fun q => !gone.contains q), poisonL2 := s.mem.poisonL2.filter (fun q => !gone.contains q) } }

/-- R431: a write ends every reservation of a line that it touches. -/
def breakReservations (s : State) (spa len : Nat) : State :=
  { s with harts := s.harts.map (fun p => match p.2.resv with
    | some l => if spa / 128 ≤ l && l ≤ (spa + len - 1) / 128 then (p.1, { p.2 with resv := none }) else p
    | none => p) }

/-- The lines that a range of bytes touches. -/
def linesOf (spa len : Nat) : List Nat :=
  if len == 0 then [] else (List.range ((spa + len - 1) / 128 - spa / 128 + 1)).map (fun i => spa / 128 + i)

/-- Lines leave every L1 data cache: a line that is written or recalled is not served from an old copy (DESIGN CHOICE, log entry 71). -/
def l1Forget (s : State) (spa len : Nat) : State :=
  { s with mem := { s.mem with l1 := s.mem.l1.filter (fun p => !((linesOf spa len).contains p.2)) } }

/-- R130: an acquire at `quad` scope or wider invalidates the L1 data cache of its core. -/
def l1Clear (s : State) (core : Nat) : State := { s with mem := { s.mem with l1 := s.mem.l1.filter (fun p => p.1 != core) } }

/-- The acquires at a scope by some agents (R130). -/
def acquireBy (s : State) (scope : Nat) (p : Nat → Agent → Bool) : State :=
  if scope < 2 || s.mem.l1.isEmpty then s else (s.agents.filter (fun q => p q.1 q.2)).foldl (fun s q => l1Clear s q.2.core) s

/-- R142: before a line is first written, each running launch keeps it as it stood, for its fetches. -/
def keepLine (s : State) (l : Nat) (data : List Byte) : State :=
  (s.mem.code.filter (fun c => !s.mem.old.any (fun o => o.launch == c && o.line == l))).foldl (fun s c =>
    { s with mem := { s.mem with old := s.mem.old ++ [{ launch := c, line := l, data := data }] } }) s

/-- The lines of a range are kept so, as they are read under a key. -/
def keepCode (s : State) (n spa len : Nat) : State :=
  if s.mem.code.isEmpty then s else (linesOf spa len).foldl (fun s l => keepLine s l (spaReadN s n (l * 128) 128)) s

/-- A launch no longer keeps some of the lines (R142). -/
def dropOld (s : State) (launch : Nat) (p : Nat → Bool) : State :=
  { s with mem := { s.mem with old := s.mem.old.filter (fun o => !(o.launch == launch && p o.line)) } }

/-- A write of consecutive bytes at a system-physical address. -/
def spaWriteN (s : State) (n spa : Nat) (bs : List Byte) : State :=
  let s1 := keepCode s n spa bs.length
  let s2 := breakReservations (clearPoison (spaWriteBytes s1 n spa bs) spa bs.length) spa bs.length
  if s2.mem.l1.isEmpty then s2 else l1Forget s2 spa bs.length

/-- The poisoned parts that a read touches. -/
def poisoned (s : State) (spa len : Nat) : Bool :=
  (List.range len).any (fun i => s.mem.poison.contains (spaLoc s (spa + i) / 16))

/-- R374: one more error of a code, saturating. -/
def countError (s : State) (esrc : Nat) : State :=
  let c := sget s.plat.errcnt esrc
  { s with plat := { s.plat with errcnt := sset s.plat.errcnt esrc (if c == 0xFFFFFFFF then c else c + 1) } }

/-- A 16-byte part is poisoned; the error keeps its source, an L2 or memory (R371, R375, R442). -/
def addPoison (s : State) (part : Nat) (l2 : Bool) : State :=
  { s with mem := { s.mem with poison := part :: s.mem.poison, poisonL2 := if l2 then part :: s.mem.poisonL2 else s.mem.poisonL2.filter (fun q => q != part) } }

/-- CORRECTABLE_ERROR and the finding of an injected double error (R323, R374, R375, R442): a read of a word with altered check bits corrects
and counts it under the code of the array that held it, or marks its 16-byte part poisoned under that code. An error of memory is found only
where memory itself is read, and not where a cache answers. -/
def findErrors (s : State) (spa len : Nat) (mem : Bool) : State :=
  (List.range len).foldl (fun s i =>
    let loc := spaLoc s (spa + i)
    match s.mem.inject.filter (fun p => p.1 == loc / 8 && (mem || p.2.2)) with
    | [] => s
    | p :: _ =>
      let s1 := { s with mem := { s.mem with inject := s.mem.inject.erase p } }
      if p.2.1 then addPoison s1 (loc / 16) p.2.2 else countError s1 (if p.2.2 then 4 else 5)) s

/-- R371, R442: the source of the error of a poisoned part that a read of a run meets: an L2, or memory. -/
def errSource (s : State) (spa n : Nat) : Nat :=
  if (List.range n).any (fun i => s.mem.poisonL2.contains (spaLoc s (spa + i) / 16)) then 4 else 5

/-! ### Who asks, and the directory -/

/-- A requester: its die (0 host, 1, 2, 3 the hub), whether its accesses count (R147), whether it may install lines (R351, R424), in which
ways of the L2 (R423), whether at the lowest retention priority (R242), and the bucket class of its context or hart (R420, R422). -/
structure Asker where
  die     : Nat
  counted : Bool
  install : Bool
  mask    : BitVec 16 := 0xFFFF
  low     : Bool := false
  cls     : Option Nat := none
deriving DecidableEq, Repr

/-- The hub on its own account: uncached and uncounted (R147). -/
def hubAsker : Asker := { die := 3, counted := false, install := false }

/-- What an access does to its line. -/
inductive AccKind where
  | read | write | rmw
deriving DecidableEq, Repr

/-- Whether a directory state names the L2 of a die as a holder. -/
def heldIn (d : DirState) (die : Nat) : Bool := match d with
  | .s l => l.contains die
  | .e h => h == die
  | .m h => h == die
  | .p _ => false

/-- R394, R424: the state a line is left in by an access, once partials are merged. A write to a line that the requester's own L2 holds is served
there, whatever the requester may install. -/
def dirNext (d : Option DirState) (who : Asker) (k : AccKind) : Option DirState :=
  match k with
  | .rmw => none
  | .write => if who.install || d.any (fun x => heldIn x who.die) then some (.m who.die) else none
  | .read =>
    match d with
    | none => if who.install then some (.e who.die) else none
    | some (.s l) => some (.s (if who.install && !l.contains who.die then l ++ [who.die] else l))
    | some (.e h) => if h == who.die then some (.e h) else some (.s (if who.install then [h, who.die] else [h]))
    | some (.m h) => if h == who.die then some (.m h) else some (.s (if who.install then [h, who.die] else [h]))
    | some (.p _) => none

/-- Whether an access hits in the requester's own L2: it reaches no home and counts nowhere (R147). -/
def dirHit (d : Option DirState) (who : Asker) (k : AccKind) : Bool :=
  match k, d with
  | .read, some (.s l) => l.contains who.die
  | .read, some (.e h) => h == who.die
  | .read, some (.m h) => h == who.die
  | .write, some (.e h) => h == who.die
  | .write, some (.m h) => h == who.die
  | _, _ => false

/-- R394: an access to a line that no cache holds reads memory itself. -/
def memRead (s : State) (line : Nat) : Bool := match aget s.mem.dir line with
  | none => true
  | some (.p _) => true
  | _ => false

/-- Sets the directory state of a line. -/
def setDir (s : State) (line : Nat) (d : Option DirState) : State :=
  match d with
  | none => { s with mem := { s.mem with dir := adel s.mem.dir line } }
  | some x => { s with mem := { s.mem with dir := aset s.mem.dir line x } }

/-- A pool page that another package owns (R405). -/
def foreignPage (s : State) (page : Nat) : Bool := peState (pageEntry s page) == 3

/-- The counting of R147: an access of a source to a page it reaches. -/
def count (s : State) (who : Asker) (page : Nat) : State :=
  if who.counted && decide (who.die < 3) then countPage s page who.die else s

/-- The directory transition and the counting of one access to an HC line whose partials are merged (R147, R394). A foreign page has no
directory entry, and every access to it counts (R390, R405). -/
def touchHc (s : State) (who : Asker) (k : AccKind) (spa : Nat) : State :=
  let line := spa / 128
  let page := spa / 2 ^ 19
  if foreignPage s page then count s who page
  else
    let d := aget s.mem.dir line
    let s1 := if dirHit d who k then s else count s who page
    setDir s1 line (dirNext d who k)

/-! ### SW lines -/

/-- The copy of an SW line that a compute die holds (R122). -/
def swCopy (s : State) (die line : Nat) : Option SwLine :=
  match s.mem.sw.filter (fun l => l.die == die && l.line == line) with
  | [] => none
  | l :: _ => some l

/-- Replaces a die's copy of an SW line. -/
def swPut (s : State) (c : SwLine) : State :=
  { s with mem := { s.mem with sw := s.mem.sw.filter (fun l => !(l.die == c.die && l.line == c.line)) ++ [c] } }

/-- Removes a die's copy of an SW line. -/
def swDrop (s : State) (die line : Nat) : State :=
  { s with mem := { s.mem with sw := s.mem.sw.filter (fun l => !(l.die == die && l.line == line)) } }

/-- The poisoned 16-byte parts of a line at its home, with the source of their error. -/
def badParts (s : State) (line : Nat) : List (Nat × Nat) :=
  ((List.range 8).filter (fun i => s.mem.poison.contains (spaLoc s (line * 128 + 16 * i) / 16))).map (fun i => (i, errSource s (line * 128 + 16 * i) 16))

/-- A die's copy of an SW line, read from the home if it holds none. -/
def swFetch (s : State) (who : Asker) (n line : Nat) : State × SwLine :=
  match swCopy s who.die line with
  | some c => (s, c)
  | none =>
    let s1 := count s who (line * 128 / 2 ^ 19)
    (s1, { die := who.die, line := line, key := n, data := spaReadN s n (line * 128) 128, dirty := 0, bad := badParts s line })

/-- Replaces bytes of a list from a position. -/
def patch (l : List Byte) (at_ : Nat) (bs : List Byte) : List Byte :=
  l.take at_ ++ bs ++ l.drop (at_ + bs.length)

/-- The runs of an access within 128-byte lines: first address and length. -/
def linePieces (spa len : Nat) : List (Nat × Nat) :=
  (linesOf spa len).map (fun l =>
    let a := max spa (l * 128)
    (a, min (spa + len) (l * 128 + 128) - a))

/-! ### The route of an access (R386, R390, R398, R401) -/

/-- How the entry of a page routes an access to it. -/
inductive Route where
  | go
  | closed
  | frozen
  | bad
deriving DecidableEq, Repr

/-- The move that has closed a line (R397). -/
def closedBy (s : State) (spa : Nat) : Option Forward :=
  s.mem.forwards.find? (fun f => f.page == spa / 2 ^ 19 && f.begun && f.closed && f.line == spa % 2 ^ 19 / 128)

/-- R26, R435: a port that is up carries pool traffic: one that trained as CXL does, one that trained as PCIe does not. -/
def poolUp (s : State) : Bool := (List.range 8).any (fun n => (sget s.plat.ports n).getLsbD 2 && nbits (sget s.plat.ports n).toNat 0 2 == 0)

/-- A line whose accesses go to the pool device (R390, R398). -/
def poolLine (s : State) (spa : Nat) : Bool := (lineHome s (spa / 2 ^ 19) (spa % 2 ^ 19 / 128)).1 == 3

/-- R390: the route of an access of a die. One to the pool goes nowhere while no port carries it (R26). -/
def routeOf (s : State) (die spa len : Nat) : Route :=
  match locate s die (spa / 2 ^ 19) with
  | none => .bad
  | some e =>
    if 4 ≤ peState e then .bad
    else if peState e == 2 then .frozen
    else if !poolUp s && (peState e == 3 || poolLine s spa) then .closed
    else if peState e == 1 && !s.mem.forwards.any (fun f => f.page == spa / 2 ^ 19 && f.begun) then .closed
    else if (closedBy s spa).isSome || (closedBy s (spa + len - 1)).isSome then .closed
    else .go

/-! ### Token buckets (R420 to R422) -/

/-- A bucket class is in use (R420). -/
def classValid (s : State) (c : Nat) : Bool := (sget s.hub.buckets c).getLsbD 34

/-- The capacity of a class. -/
def classDepth (s : State) (c : Nat) : Int := nbits (sget s.hub.buckets c).toNat 16 16

/-- The partition that owns a class. -/
def classPart (s : State) (c : Nat) : Nat := nbits (sget s.hub.buckets c).toNat 32 2

/-- The tokens of a class at a port: a bucket is full when its class becomes valid. -/
def tokensAt (s : State) (port c : Nat) : Int :=
  match s.mem.tokens.find? (fun t => t.1 == port && t.2.1 == c) with
  | some t => t.2.2
  | none => classDepth s c

/-- Sets the tokens of a class at a port. -/
def setTokens (s : State) (port c : Nat) (v : Int) : State :=
  { s with mem := { s.mem with tokens := s.mem.tokens.filter (fun t => !(t.1 == port && t.2.1 == c)) ++ [(port, c, v)] } }

/-- The request port of the L2 slice of a die that serves a line: 384 slices to a die (R20), taken in turn by the lines (DESIGN CHOICE, log entry
13). -/
def slicePort (die line : Nat) : Nat := die * Config.l2Slices + line % Config.l2Slices

/-- The ports of the hub's home agents: one for each LPDDR6 channel (R417), and one for the pool (log entry 13). -/
def hubPort (s : State) (line : Nat) : Option Nat :=
  let page := line / 4096
  let e := pageEntry s page
  let h := lineHome s page (line % 4096)
  if peState e == 3 || h.1 == 3 then some (3 * Config.l2Slices + 16)
  else if h.1 == 2 then some (3 * Config.l2Slices + (linePlace s (guestProf s (peVmid e)) (guestSeed s (peVmid e)) 2 h.2 (line % 4096)).2)
  else none

/-- R420: the ports that a request of a die for a line reaches: the slice of its own die, and beyond it, where that slice does not answer, the home
agent on the hub. What starts at the hub reaches HBM by the slice of its die. -/
def portsOf (s : State) (die line : Nat) (hit : Bool) : List Nat :=
  (if die < 3 then [slicePort die line] else []) ++
    (if hit then [] else match hubPort s line with
      | some p => [p]
      | none => if die < 3 then [] else [slicePort ((lineHome s (line / 4096) (line % 4096)).1 + 1) line])

/-- Who pays for a request (R420, R421): its class, its partition, and a number that tells it from the others that wait. -/
structure Payer where
  cls  : Nat
  part : Nat
  who  : Nat
deriving DecidableEq, Repr

/-- A request that found no token waits at its port: since when, and when it last asked. -/
def starve (s : State) (port who : Nat) : State :=
  let mine := fun (x : Nat × Nat × Nat × Nat) => x.1 == port && x.2.1 == who
  let l := if s.mem.starved.any mine then s.mem.starved.map (fun x => if mine x then (port, who, x.2.2.1, s.cycles) else x)
    else s.mem.starved ++ [(port, who, s.cycles, s.cycles)]
  { s with mem := { s.mem with starved := l } }

/-- It has been served. -/
def sated (s : State) (port who : Nat) : State :=
  { s with mem := { s.mem with starved := s.mem.starved.filter (fun x => !(x.1 == port && x.2.1 == who)) } }

/-- R421: a request may borrow: it is the oldest of those that wait at the port, and every request that holds tokens there has been served since
it came (it has waited for a clock, in which those are served). -/
def mayBorrow (s : State) (port who : Nat) : Bool :=
  match s.mem.starved.filter (fun x => x.1 == port && decide (s.cycles ≤ x.2.2.2 + 1)) with
  | x :: _ => x.2.1 == who && decide (x.2.2.1 < s.cycles)
  | [] => false

/-- PORT_SERVE (R421): a request takes a token at a port, its own or a borrowed one of its partition, or waits. A class that is not in use is not
metered (DESIGN CHOICE, log entry 13). -/
def takeToken (s : State) (port : Nat) (p : Payer) : Bool × State :=
  if !classValid s p.cls then (true, s)
  else if 1 ≤ tokensAt s port p.cls then (true, sated (setTokens s port p.cls (tokensAt s port p.cls - 1)) port p.who)
  else
    match (List.range 16).find? (fun d => d != p.cls && classValid s d && classPart s d == p.part && decide (1 ≤ tokensAt s port d)), mayBorrow s port p.who with
    | some d, true => (true, sated (setTokens s port d (tokensAt s port d - 1)) port p.who)
    | _, _ => (false, starve s port p.who)

/-- R420: a request takes its token at every port that it reaches, or waits at the first that has none for it and takes none. -/
def payPorts (s0 : State) (p : Payer) : List Nat → State → Bool × State
  | [], s => (true, s)
  | q :: t, s => match takeToken s q p with
    | (true, s1) => payPorts s0 p t s1
    | (false, _) => (false, starve s0 q p.who)

/-- R422: forced traffic is charged to the requester's class, down to −DEPTH. -/
def chargeForced (s : State) (port c n : Nat) : State :=
  if n == 0 || !classValid s c then s else setTokens s port c (max (tokensAt s port c - n) (-(classDepth s c)))

/-- R422: how many merges, and recalls, downgrades and invalidations of other holders, an access to a line forces. -/
def forcedBy (s : State) (die : Nat) (write : Bool) (line : Nat) : Nat :=
  (s.mem.red.filter (fun e => e.line == line)).length +
    (match aget s.mem.dir line with
     | some (.s l) => if write then (l.filter (fun d => d != die)).length else 0
     | some (.e d) => if d == die then 0 else 1
     | some (.m d) => if d == die then 0 else 1
     | _ => 0)

/-- The class of a requester pays for `n` pieces of forced traffic on a line, at the port by which it came. -/
def chargeWho (s : State) (who : Asker) (line n : Nat) : State :=
  match who.cls, portsOf s who.die line false with
  | some c, p :: _ => chargeForced s p c n
  | _, _ => s

/-- R420: a class has dirtied a line. -/
def dirtied (s : State) (who : Asker) (line : Nat) : State :=
  match who.cls with
  | some c => { s with mem := { s.mem with owners := aset s.mem.owners line c } }
  | none => s

/-- R420: the write-back of a line that a context dirtied costs its class a token at the ports that it reaches; it waits for none. -/
def chargeBack (s : State) (die line : Nat) : State :=
  match aget s.mem.owners line with
  | none => s
  | some c =>
    let s1 := (portsOf s die line false).foldl (fun s p => chargeForced s p c 1) s
    { s1 with mem := { s1.mem with owners := adel s1.mem.owners line } }

/-! ### Accesses that wait for a line (R398) -/

/-- Replaces a forwarding entry. -/
def putForward (s : State) (f : Forward) : State :=
  { s with mem := { s.mem with forwards := s.mem.forwards.map (fun g => if g.page == f.page then f else g) } }

/-- Writes that stand in the hold window. -/
def heldWrites (s : State) : Nat := s.mem.forwards.foldl (fun n f => n + (f.held.filter (fun h => h.2)).length) 0

/-- The move that has closed a line of some runs of system-physical bytes. -/
def closedIn (s : State) (runs : List (Nat × Nat)) : Option Forward :=
  runs.findSome? (fun r => (closedBy s r.1).orElse (fun _ => closedBy s (r.1 + r.2 - 1)))

/-- R398: an access to a closed line waits for it in arrival order: a read as it is, a write in an entry of the hold window if one is free. -/
def holdAccess (s : State) (who : Holder) (write : Bool) (runs : List (Nat × Nat)) : State :=
  match closedIn s runs with
  | none => s
  | some f =>
    if f.held.any (fun h => h.1 == who) || (write && decide (Config.holdWindow ≤ heldWrites s)) then s
    else putForward s { f with held := f.held ++ [(who, write)] }

end Sys2Proof.Machine
end

