-- ==== Sys2Proof/Machine/Operands.lean ====
section
/-! DEFINITION. Operands: the registers of an issuing agent as a word reads them (R163, R178 to R180, R200), the producers a word adds,
relative operands (R78) and effective addresses (R169). -/

namespace Sys2Proof.Machine

/-- The lanes of a cohort or ladle. -/
def allLanes : List Nat := List.range 32

/-- The lanes of a set, ascending. -/
def lanesOf (m : LaneSet) : List Nat := allLanes.filter (fun l => m.getLsbD l)

/-- The set of a list of lanes. -/
def laneSet (l : List Nat) : LaneSet := l.foldl (fun m i => m ||| (1#32 <<< i)) 0

/-- The lowest lane of a set, 0 if it is empty. -/
def lowLane (m : LaneSet) : Nat := match lanesOf m with
  | [] => 0
  | l :: _ => l

/-- What a word sees: its agent, the clause with this word's nominal cycle in `cur`, and the active lanes that pass its predicate. -/
structure Env where
  aid  : Nat
  ag   : Agent
  iss  : Issue
  pass : LaneSet
deriving DecidableEq, Repr

/-- The cycle that no word of a clause reaches: a write that is ready then takes effect at the boundary alone. -/
def lateCycle : Nat := 1000000

/-! ### Clause-start values -/

/-- A lane of a vector register as the agent holds it. -/
def regV (g : Regs) (reg lane : Nat) : Word := sget g.v (32 * reg + lane)

/-- A scalar register: `s0` reads zero (R63). -/
def regS (g : Regs) (reg : Nat) : DWord := if reg == 0 then 0 else sget g.s reg

/-- A mask register: `k0` reads all ones (R64). -/
def regK (g : Regs) (reg : Nat) : LaneSet := if reg == 0 then 0xFFFFFFFF else sget g.k reg

/-- A lane of `pcv`. -/
def regPc (g : Regs) (lane : Nat) : DWord := sget g.pcv lane

/-- The value that a target held when the clause started. -/
def startVal (g : Regs) : Target → DWord
  | .v reg lane => (regV g reg lane).setWidth 64
  | .s reg => regS g reg
  | .k reg lanes => (regK g reg &&& lanes).setWidth 64
  | .zncv => (g.sflags.extractLsb' 0 4).setWidth 64
  | .eBit => (g.sflags.extractLsb' 4 1).setWidth 64
  | .qBit => (g.sflags.extractLsb' 5 1).setWidth 64
  | .priv _ => 0
  | .blk _ => 0

/-! ### Visibility -/

/-- Of two producers of one target, the one R180 selects: the greatest cP + λ, ties to the later in program order. -/
def later (best : Option Producer) (p : Producer) : Option Producer :=
  match best with
  | none => some p
  | some b => if b.ready ≤ p.ready then some p else some b

/-- R180: the selected producer of a target among those that keep a condition. -/
def selected (ps : List Producer) (t : Target) (ok : Producer → Bool) : Option Producer :=
  (ps.filter (fun p => p.tgt == t && ok p)).foldl later none

/-- R180: the value of a target as a word at nominal cycle `c` reads it. -/
def readTarget (g : Regs) (ps : List Producer) (c : Nat) (t : Target) : DWord :=
  match selected ps t (fun p => decide (p.ready ≤ c)) with
  | some p => p.val
  | none => startVal g t

/-- R200: Q over a list of producers in program order, from its value at the start of the clause. -/
def foldQ (ps : List Producer) (q : Bool) : Bool :=
  (ps.filter (fun p => p.tgt == .qBit)).foldl (fun q p => if p.mov then p.val != 0 else q || p.val != 0) q

/-- R200: the fields of `sflags` as a word at nominal cycle `c` reads them. -/
def readFlags (g : Regs) (ps : List Producer) (c : Nat) : FlagSet :=
  let f0 := flagsOf g.sflags
  let z := readTarget g ps c .zncv
  { withZncv f0 z with
    e := readTarget g ps c .eBit != 0
    q := foldQ (ps.filter (fun p => decide (p.ready ≤ c))) f0.q }

/-- The producers of a clause in the order in which they become ready, ties in program order: an insertion that keeps ties. -/
def insertReady (p : Producer) : List Producer → List Producer
  | [] => [p]
  | q :: t => if q.ready ≤ p.ready then q :: insertReady p t else p :: q :: t

/-- Producers by readiness. -/
def byReady (ps : List Producer) : List Producer := ps.foldl (fun l p => insertReady p l) []

/-- Of a mask register, the bits of the lanes that a producer wrote. -/
def kPart (n : Nat) (m : LaneSet) (p : Producer) : LaneSet :=
  match p.tgt with
  | .k reg lanes => if reg == n then (m &&& ~~~lanes) ||| (p.val.setWidth 32 &&& lanes) else m
  | _ => m

/-- R180, R222: a mask register as a word at nominal cycle `c` reads it, each lane's bit by its own producers. -/
def readMask (g : Regs) (ps : List Producer) (c n : Nat) : LaneSet :=
  if n == 0 then 0xFFFFFFFF else (byReady (ps.filter (fun p => decide (p.ready ≤ c)))).foldl (kPart n) (regK g n)

/-! ### Reads of a word -/

/-- A scalar register as the word reads it. -/
def rdS (e : Env) (n : Nat) : DWord := if n == 0 then 0 else readTarget e.ag.regs e.iss.prods e.iss.cur (.s n)

/-- A mask register as the word reads it. -/
def rdK (e : Env) (n : Nat) : LaneSet := readMask e.ag.regs e.iss.prods e.iss.cur n

/-- A lane of a vector register as the word reads it. -/
def rdV (e : Env) (n lane : Nat) : Word := (readTarget e.ag.regs e.iss.prods e.iss.cur (.v n lane)).setWidth 32

/-- `k` consecutive registers of a lane as one value, the first in the low bits (R61). -/
def rdVs (e : Env) (n lane : Nat) : Nat → Nat
  | 0 => 0
  | k + 1 => (rdV e n lane).toNat + 2 ^ 32 * rdVs e (n + 1) lane k

/-- The flags as the word reads them. -/
def rdF (e : Env) : FlagSet := readFlags e.ag.regs e.iss.prods e.iss.cur

/-! ### Issue of a word -/

/-- R178: the nominal cycle of the next word. -/
def schedule (stall : BitVec 3) (isF64 : Bool) (i : Issue) : Issue :=
  let c0 := max (i.cur + stall.toNat) i.freeAt
  let c := if i.prev == some c0 && (i.inCycle == 2 || isF64) then c0 + 1 else c0
  let n := if i.prev == some c then i.inCycle else 0
  { i with cur := c, prev := some c, inCycle := n + 1, freeAt := if isF64 then c + 2 else c }

/-- R163: the active lanes that pass a predicate. -/
def passing (g : Regs) (i : Issue) (h : Pfx) : LaneSet :=
  let k := readMask g i.prods i.cur h.pred.toNat
  i.group &&& (if h.neg then ~~~k else k)

/-- The environment of a word of an agent's clause. -/
def envOf (h : Pfx) (isF64 : Bool) (aid : Nat) (ag : Agent) (iss : Issue) : Env :=
  let i := schedule h.stall isF64 iss
  { aid := aid, ag := ag, iss := i, pass := passing ag.regs i h }

/-- The agent whose turn it is, with its clause in issue. -/
def issuing (s : State) : Option (Nat × Agent × Issue) :=
  match s.turn with
  | .agent a =>
    match aget s.agents a with
    | some ag => match ag.issue with
      | some iss => some (a, ag, iss)
      | none => none
    | none => none
  | _ => none

/-- Replaces an agent. -/
def putAgent (s : State) (a : Nat) (ag : Agent) : State := { s with agents := aset s.agents a ag }

/-- Changes an agent, if it exists. -/
def modAgent (s : State) (a : Nat) (f : Agent → Agent) : State :=
  match aget s.agents a with
  | some ag => putAgent s a (f ag)
  | none => s

/-- Changes a block, if it exists. -/
def modBlock (s : State) (b : Nat) (f : Block → Block) : State :=
  match aget s.blocks b with
  | some x => { s with blocks := aset s.blocks b (f x) }
  | none => s

/-- The queue of an agent's launch; 64 for none. -/
def agentQueue (s : State) (ag : Agent) : Nat :=
  match ag.kind with
  | .hubThread => ag.index
  | _ => match aget s.blocks ag.block with
    | some b => match aget s.hub.launches b.launch with
      | some l => l.queue
      | none => 64
    | none => 64

/-- The registers of a queue; one that was never written stands at reset. -/
def queueOf (s : State) (q : Nat) : Queue := agetD s.hub.queues q Queue.reset

/-- Replaces a queue. -/
def putQueue (s : State) (q : Nat) (x : Queue) : State := { s with hub := { s.hub with queues := aset s.hub.queues q x } }

/-- R345: `n` credits of work of a queue. QENERGY counts whole microjoules, the remainder is kept. -/
def chargeQueue (s : State) (q n : Nat) : State :=
  if 64 ≤ q then s
  else
    let x := queueOf s q
    let t := x.rem + n
    putQueue s q { x with energy := x.energy + BitVec.ofNat 64 (t / 100000), rem := t % 100000 }

/-- R343 to R345, R428: charges `n` credits to a core, its partition and a queue. -/
def charge (s : State) (core q n : Nat) : State :=
  let p := corePart s core
  let s1 := { s with hub := { s.hub with
    credits := aset s.hub.credits core (agetD s.hub.credits core 0 - n)
    penergy := aset s.hub.penergy p (agetD s.hub.penergy p 0 + n) } }
  chargeQueue s1 q n

/-- R343: the credits of a word by its opcode, type and active lanes. -/
def wordCredits (op : Nat) (isF64 : Bool) (lanes : Nat) : Nat :=
  if isF64 then 16
  else if op < 0x080 then 1
  else if op < 0x100 then 3
  else if op < 0x180 then (if (0x109 ≤ op && op ≤ 0x111) then 8 else 4)
  else if op < 0x1C0 then 3
  else if op < 0x260 then 4 + lanes
  else 4

/-- R179: the latency of a fixed-latency opcode. -/
def latency (op : Nat) : Nat :=
  if op < 0x080 then 1
  else if op < 0x100 then (if op == 0x084 || op == 0x085 || op == 0x086 || op == 0x09B then 4 else 2)
  else if op < 0x180 then (if op == 0x109 || op == 0x10A then 16 else if 0x10B ≤ op && op ≤ 0x111 then 8 else 4)
  else if op < 0x1A0 then 4
  else 6

/-- R183: the greatest cP + λ of a clause's fixed-latency words with the one at hand, whatever it writes. -/
def lateWith (i : Issue) : Nat := match i.words[i.idx]? with
  | some w => if (opOf w).toNat < 0x1C0 then max i.late (i.cur + latency (opOf w).toNat) else i.late
  | none => i.late

/-- The word is issued: its producers join the clause, the clause moves to its next word, clocks pass (R178, R181), credits are charged
(R343). -/
def finish (s : State) (e : Env) (cost : Nat) (ps : List Producer) : State :=
  let s1 := putAgent s e.aid { e.ag with issue := some { e.iss with prods := e.iss.prods ++ ps, idx := e.iss.idx + 1, late := lateWith e.iss } }
  let s2 := if e.ag.kind == .hubThread then s1 else charge s1 e.ag.core (agentQueue s e.ag) cost
  { s2 with cycles := s2.cycles + (e.iss.cur - (match e.ag.issue with | some i => i.cur | none => e.iss.cur)) }

/-! ### Producers -/

/-- A write of a scalar register; `s0` discards it (R63). -/
def wrS (e : Env) (lat n : Nat) (v : DWord) : List Producer :=
  if n == 0 then [] else [{ tgt := .s n, val := v, ready := e.iss.cur + lat, mov := false }]

/-- A write of the bits of a set of lanes of a mask register; `k0` discards it (R64). -/
def wrKs (e : Env) (lat n : Nat) (lanes v : LaneSet) : List Producer :=
  if n == 0 then [] else [{ tgt := .k n lanes, val := v.setWidth 64, ready := e.iss.cur + lat, mov := false }]

/-- A write of a whole mask register. -/
def wrK (e : Env) (lat n : Nat) (v : LaneSet) : List Producer := wrKs e lat n 0xFFFFFFFF v

/-- A write of one lane of a vector register. -/
def wrV (e : Env) (lat n lane : Nat) (v : Word) : Producer :=
  { tgt := .v n lane, val := v.setWidth 64, ready := e.iss.cur + lat, mov := false }

/-- A write of `k` consecutive registers of a lane. -/
def wrVs (e : Env) (lat n lane : Nat) (v : Nat) : Nat → List Producer
  | 0 => []
  | k + 1 => wrV e lat n lane (BitVec.ofNat 32 v) :: wrVs e lat (n + 1) lane (v / 2 ^ 32) k

/-- A write of Z, N, C and V (R199, R200). -/
def wrZncv (e : Env) (v : DWord) : Producer := { tgt := .zncv, val := v, ready := e.iss.cur + 1, mov := false }

/-- A reduction's or scan's write of E (R66, R200). -/
def wrE (e : Env) (lat : Nat) (b : Bool) : Producer :=
  { tgt := .eBit, val := (BitVec.ofBool b).setWidth 64, ready := e.iss.cur + lat, mov := false }

/-- Saturation sets Q (R66, R200); nothing is written otherwise. -/
def wrQ (e : Env) (lat : Nat) (b : Bool) : List Producer :=
  if b then [{ tgt := .qBit, val := 1, ready := e.iss.cur + lat, mov := false }] else []

/-! ### The end of a clause -/

/-- One target of the registers takes a value. -/
def setTarget (g : Regs) (t : Target) (v : DWord) : Regs :=
  match t with
  | .v reg lane => { g with v := sset g.v (32 * reg + lane) (v.setWidth 32) }
  | .s reg => if reg == 0 then g else { g with s := sset g.s reg v }
  | .k reg lanes =>
    if reg == 0 then g else { g with k := sset g.k reg ((regK g reg &&& ~~~lanes) ||| (v.setWidth 32 &&& lanes)) }
  | .zncv => { g with sflags := packFlags (withZncv (flagsOf g.sflags) v) }
  | .eBit => { g with sflags := packFlags { flagsOf g.sflags with e := v != 0 } }
  | .qBit => { g with sflags := packFlags { flagsOf g.sflags with q := v != 0 } }
  | .priv _ => g
  | .blk _ => g

/-- R180, R200: the registers at the end of a clause. -/
def commit (g : Regs) (ps : List Producer) : Regs :=
  let q := foldQ ps (flagsOf g.sflags).q
  let g1 := (byReady (ps.filter (fun p => p.tgt != .qBit))).foldl (fun g p => setTarget g p.tgt p.val) g
  { g1 with sflags := packFlags { flagsOf g1.sflags with q := q } }

/-- R183: the boundary: the later of the last nominal cycle plus one and the greatest cP + λ. -/
def boundaryCycle (i : Issue) : Nat := max (i.cur + 1) i.late

/-! ### Relative operands (R78, R165) -/

/-- The register that a vector operand field names in a lane: its number, or n + vI[L] when REL names it. -/
def relReg (e : Env) (r : FmtR) (which : BitVec 2) (n : BitVec 8) (lane : Nat) : Int :=
  if r.rel == which then (n.toNat : Int) + (rdV e r.c.toNat lane).toInt else n.toNat

/-- The operand of `k` registers fits below A in a lane (R78). -/
def relFits (e : Env) (r : FmtR) (which : BitVec 2) (n : BitVec 8) (k lane : Nat) : Bool :=
  r.rel != which || (decide (0 ≤ relReg e r which n lane) && decide (relReg e r which n lane + k ≤ e.ag.alloc))

/-- The active lanes whose relative operand breaks its bound. -/
def relBad (e : Env) (i : Instr) (r : FmtR) : LaneSet :=
  laneSet ((lanesOf e.pass).filter (fun l =>
    (opnds i).any (fun o =>
      o.file == .v && ((o.fld == .d && r.rel == 1 && !relFits e r 1 r.d o.len l) || (o.fld == .a && r.rel == 2 && !relFits e r 2 r.a o.len l)
        || (o.fld == .b && r.rel == 3 && !relFits e r 3 r.b o.len l)))))

/-- The range of an operand in a lane. -/
def rangeIn (e : Env) (r : FmtR) (o : Opnd) (lane : Nat) : Int × Nat :=
  let w : BitVec 2 := match o.fld with | .d => 1 | .a => 2 | .b => 3 | _ => 0
  (if w != 0 && o.file == .v && r.rel == w then relReg e r w (BitVec.ofNat 8 o.num) lane else o.num, o.len)

/-- Two ranges that overlap and differ (R176). -/
def clash (x y : Int × Nat) : Bool :=
  decide (x.1 < y.1 + y.2) && decide (y.1 < x.1 + x.2) && x != y

/-- The active lanes in which a destination overlaps a source unequally (R78). -/
def relOverlap (e : Env) (i : Instr) (r : FmtR) : LaneSet :=
  if r.rel == 0 then 0
  else laneSet ((lanesOf e.pass).filter (fun l =>
    (opnds i).any (fun d => d.isDst && d.file == .v &&
      (opnds i).any (fun o => o.isSrc && o.file == .v && clash (rangeIn e r d l) (rangeIn e r o l)))))

/-- D's register in a lane. -/
def regD (e : Env) (r : FmtR) (lane : Nat) : Nat := (relReg e r 1 r.d lane).toNat
/-- A's register in a lane. -/
def regA (e : Env) (r : FmtR) (lane : Nat) : Nat := (relReg e r 2 r.a lane).toNat
/-- B's register in a lane. -/
def regB (e : Env) (r : FmtR) (lane : Nat) : Nat := (relReg e r 3 r.b lane).toNat

/-! ### Addresses (R169) -/

/-- The access size of a format M word in bytes. -/
def accBytes (r : FmtM) : Nat := mtBytes r.mtype

/-- R169: the effective address of a lane. -/
def effAddr (e : Env) (r : FmtM) (lane : Nat) : DWord :=
  let z := BitVec.ofNat 64 (accBytes r)
  if r.am == 0 then rdS e r.sb.toNat + r.b.signExtend 64 * z
  else if r.am == 1 then BitVec.ofNat 64 (rdVs e r.b.toNat lane 2)
  else if r.am == 2 then rdS e r.sb.toNat + (rdV e r.b.toNat lane).signExtend 64
  else 0x00FE000000000000 + rdS e r.sb.toNat + r.b.signExtend 64 * z

end Sys2Proof.Machine
end

