-- ==== Sys2Proof/Machine/Atomics.lean ====
section
/-! DEFINITION. Read-modify-write operations (R245 to R248), the reduction buffer and its merges (R132 to R134), and accesses to HC lines
that force them (R133, R394). -/

namespace Sys2Proof.Machine

/-! ### Records -/

/-- A record from its fields: lowest bit, width, value. -/
def mkRec (fs : List (Nat × Nat × Nat)) : BitVec 512 :=
  BitVec.ofNat 512 (fs.foldl (fun acc f => acc + (f.2.2 % 2 ^ f.2.1) * 2 ^ f.1) 0)

/-- R361, R370: the manager holds a record for a queue, in the order of detection; `g` names the fault group it reports. -/
def holdRecord (s : State) (q : RecQueue) (r : BitVec 512) (g : Option Nat) : State :=
  let l := s.hub.recs
  let l1 := if l.any (fun x => x.queue == q) then l.map (fun x => if x.queue == q then { x with held := x.held ++ [(r, g)] } else x)
    else l ++ [{ queue := q, rdpos := 0, held := [(r, g)] }]
  { s with hub := { s.hub with recs := l1 } }

/-- A fresh identifier of the model's own. -/
def freshId (s : State) : Nat × State := (s.nextId, { s with nextId := s.nextId + 1 })

/-- An id of a fault group or a trap record is in use (R363, R371). -/
def recIdUsed (s : State) (n : Nat) : Bool := s.hub.groups.any (fun g => g.id == n) || s.hub.traps.any (fun t => t.id == n)

/-- A 32-bit id for a group or a record (R363, R371), unique among those in use: the next number that is free (DESIGN CHOICE, log entry 12). -/
def recordId (s : State) : Nat × State :=
  let tries := List.range (s.hub.groups.length + s.hub.traps.length + 1)
  let id := ((tries.map (fun k => (s.nextId + k) % 2 ^ 32)).find? (fun n => !recIdUsed s n)).getD (s.nextId % 2 ^ 32)
  (id, { s with nextId := s.nextId + 1 })

/-- A free number: an opaque value applied to a counter that every use advances. -/
def freeNat (s : State) : Nat × State := (Config.storeWinner s.fresh, { s with fresh := s.fresh + 1 })

/-- A record that is tied to no stopped agent goes to the trap queue of H (R370): code UNCORRECTABLE with its error source (R371). H may act
on it as on any record, and S, whose queue it is not in, may not (R372); it stops no agent, and where it names no context every action only retires
it (DESIGN CHOICE, log entry 31). -/
def hubErrorRecord (s : State) (ctx esrc core slot queue addr : Nat) : State :=
  let c := ctxOf s ctx
  let (nobody, s0) := freshId s
  let (id, s1) := recordId s0
  let info : TrapInfo :=
    { id := id, ctx := ctx, agent := nobody, level := .h, code := 0x20, kind := 2, word := 0, hdr := 0, group := 0, count := 0, op := 0
      cmd := none, fetch := false, loose := ctx == 0 }
  let s2 := { s1 with hub := { s1.hub with traps := s1.hub.traps ++ [info] } }
  holdRecord s2 .hypTrap (mkRec [(64, 56, addr), (160, 4, esrc), (192, 32, id), (256, 6, queue), (272, 8, core), (280, 8, slot),
    (40, 16, c.asid.toNat), (32, 8, c.vmid.toNat), (20, 12, ctx), (0, 8, 0x20)]) none

/-! ### Operations -/

/-- Whether an MTYPE is a 64-bit type. -/
def mtWide (t : BitVec 4) : Bool := decide (0x9 ≤ t.toNat) && decide (t.toNat ≤ 0xC)

/-- The width of an atomic's element in bits. -/
def mtBits (t : BitVec 4) : Nat := if mtWide t then 64 else 32

/-- R245, R246: one float or packed operation: 0 add, 1 minimum, 2 maximum, to nearest with subnormals kept. -/
def atopFloat (f : FloatFmt) (op : Nat) (a b : Nat) : Nat :=
  if op == 0 then (fOp2 f 0 false false 0 a b).bits else fMinMax f false (op == 1) a b

/-- R246: the two 16-bit elements separately. -/
def atopPacked (f : FloatFmt) (op : Nat) (a b : Nat) : Nat :=
  atopFloat f op (a % 2 ^ 16) (b % 2 ^ 16) + 2 ^ 16 * atopFloat f op (a / 2 ^ 16 % 2 ^ 16) (b / 2 ^ 16 % 2 ^ 16)

/-- R246: an integer operation of a width and signedness. -/
def atopInt (signed : Bool) (w op a b : Nat) : Nat :=
  let x := intOf signed w a
  let y := intOf signed w b
  match op with
  | 0 => (a + b) % 2 ^ w
  | 1 => if x ≤ y then a % 2 ^ w else b % 2 ^ w
  | 2 => if x ≤ y then b % 2 ^ w else a % 2 ^ w
  | 3 => (a &&& b) % 2 ^ w
  | 4 => (a ||| b) % 2 ^ w
  | 5 => (a ^^^ b) % 2 ^ w
  | _ => b % 2 ^ w

/-- R246: op(old, D) of an ATOP and an MTYPE. -/
def atop (op : Nat) (t : BitVec 4) (old d : Nat) : Nat :=
  if 3 ≤ op then atopInt false (mtBits t) op old d
  else match t.toNat with
    | 0x4 => atopInt true 32 op old d
    | 0x6 => atopFloat f32 op old d
    | 0x7 => atopPacked f16 op old d
    | 0x8 => atopPacked bf16 op old d
    | 0x9 => atopInt true 64 op old d
    | 0xB => atopFloat f64 op old d
    | 0xA => atopInt false 64 op old d
    | _ => atopInt false 32 op old d

/-! ### Merging partials -/

/-- The cores that still hold partials of a line. -/
def holdersOf (s : State) (line : Nat) : List Nat :=
  (List.range Config.cores).filter (fun c => s.mem.red.any (fun e => e.line == line && e.core == c))

/-- R394: the directory of a line in P after a merge: its holders, or state I. -/
def dirAfterMerge (s : State) (line : Nat) : State :=
  match aget s.mem.dir line with
  | some (.p _) => match holdersOf s line with
    | [] => setDir s line none
    | l => setDir s line (some (.p l))
  | _ => s

/-- R147: the access of a compute core that a merge or a write-back of a die is. -/
def dieAsker (die : Nat) : Asker := { die := die, counted := true, install := false }

/-- R386: a page that the table no longer lets this package act on. -/
def lostPage (s : State) (die page : Nat) : Bool := match locate s die page with
  | none => true
  | some e => decide (4 ≤ peState e)

/-- PARTIAL_MERGE (R133, R134): one entry is applied to the home copy, element by element. A merge into a poisoned part, or to a page that the
table no longer describes (R386), is discarded and recorded (R375). -/
def mergeEntry (s : State) (e : RedEntry) : State :=
  let s0 := { s with mem := { s.mem with red := s.mem.red.erase e } }
  let ctx := e.ctxs.headD 0
  let page := e.line * 128 / 2 ^ 19
  let n := mtBits e.mty / 8
  let one := fun (s : State) (p : Nat × DWord) =>
    let spa := e.line * 128 + p.1
    let s1 := findErrors s spa n true
    if poisoned s1 spa n then hubErrorRecord s1 ctx (errSource s1 spa n) e.core 0 0 0
    else
      let old := ofBytes (spaReadN s1 e.key.toNat spa n)
      spaWriteN s1 e.key.toNat spa (toBytes (atop e.op e.mty old p.2.toNat) n)
  let s2 := if lostPage s0 (dieOf e.core) page then hubErrorRecord s0 ctx 8 e.core 0 0 0
    else e.parts.foldl one (count s0 (dieAsker (dieOf e.core)) page)
  dirAfterMerge s2 e.line

/-- Entries in ascending global core number, a core's own in the order in which they were made (R134). -/
def inCoreOrder (l : List RedEntry) : List RedEntry :=
  (List.range Config.cores).flatMap (fun c => l.filter (fun e => e.core == c))

/-- R133: every holder's partial of a line is merged. -/
def mergeLine (s : State) (line : Nat) : State :=
  (inCoreOrder (s.mem.red.filter (fun e => e.line == line))).foldl mergeEntry s

/-- R133: the entries of a core that a condition selects are merged. -/
def mergeCore (s : State) (core : Nat) (sel : RedEntry → Bool) : State :=
  (s.mem.red.filter (fun e => e.core == core && sel e)).foldl mergeEntry s

/-- R422: the same where a release forces it: each merge is charged to the releaser's class. -/
def mergeFor (who : Asker) (s : State) (core : Nat) (sel : RedEntry → Bool) : State :=
  (s.mem.red.filter (fun e => e.core == core && sel e)).foldl (fun s e => mergeEntry (chargeWho s who e.line 1) e) s

/-! ### Write-backs, recalls and evictions (R20, R123, R392, R394, R424) -/

/-- The injected errors of a dirty L2 line (R323, target 2). -/
def lineErrs (s : State) (line : Nat) : List (Nat × Bool × Bool) :=
  s.mem.inject.filter (fun p => p.2.2 && p.1 / 16 == spaLoc s (line * 128) / 128)

/-- R370, R374: what a write-back finds in its line: an error is corrected and counted, or its part is poisoned and a record goes to the trap
queue of H. -/
def errorsBack (s : State) (line : Nat) : State :=
  (lineErrs s line).foldl (fun s p =>
    let s1 := { s with mem := { s.mem with inject := s.mem.inject.filter (fun q => q.1 != p.1) } }
    if p.2.1 then hubErrorRecord (addPoison s1 (p.1 / 2) true) 0 4 0xFF 0 0 (line * 128) else countError s1 4) s

/-- R323: the write of a whole line to memory stores fresh check bits there. -/
def freshCheck (s : State) (line : Nat) : State :=
  { s with mem := { s.mem with inject := s.mem.inject.filter (fun p => p.2.2 || p.1 / 16 != spaLoc s (line * 128) / 128) } }

/-- R147, R394, R420: a dirty HC line is written back by the die that held it. -/
def lineBack (s : State) (die line : Nat) : State :=
  let s0 := chargeBack s die line
  if lostPage s0 die (line * 128 / 2 ^ 19) then hubErrorRecord s0 0 8 0xFF 0 0 (line * 128)
  else errorsBack (freshCheck (count s0 (dieAsker die) (line * 128 / 2 ^ 19)) line) line

/-- The die that holds a line dirty writes it back (R394). -/
def dirtyBack (s : State) (line : Nat) : State := match aget s.mem.dir line with
  | some (.m h) => lineBack s h line
  | _ => s

/-- The runs of dirty bytes of a copy: the first byte and the length of each. -/
def dirtyRuns (m : BitVec 128) : List (Nat × Nat) :=
  (List.range 128).foldr (fun i l => if !m.getLsbD i then l else match l with
    | (a, n) :: t => if a == i + 1 then (i, n + 1) :: t else (i, 1) :: l
    | [] => [(i, 1)]) []

/-- Writes the dirty bytes of a die's SW line back to the home with the poison of their parts, leaving it valid and clean (R123, R125, R375). -/
def swFlush (s : State) (die line : Nat) : State :=
  match swCopy s die line with
  | none => s
  | some c =>
    if c.dirty == 0 then s
    else
      let s0 := chargeBack s die line
      if lostPage s0 die (line * 128 / 2 ^ 19) then swPut (hubErrorRecord s0 0 8 0xFF 0 0 (line * 128)) { c with dirty := 0 }
      else
        let found := ((lineErrs s0 line).filter (fun p => p.2.1)).map (fun p => (p.1 / 2 % 8, 4))
        let s1 := (dirtyRuns c.dirty).foldl (fun s r => spaWriteN s c.key (line * 128 + r.1) ((c.data.drop r.1).take r.2))
          (errorsBack (count s0 (dieAsker die) (line * 128 / 2 ^ 19)) line)
        let bad := (c.bad ++ found).filter (fun b => (List.range 16).any (fun j => c.dirty.getLsbD (16 * b.1 + j)))
        swPut (bad.foldl (fun s b => addPoison s (spaLoc s (line * 128 + 16 * b.1) / 16) (b.2 == 4)) s1) { c with dirty := 0, bad := (c.bad ++ found).dedup }

/-- The L1 data caches of a die lose a line. -/
def l1Drop (s : State) (die line : Nat) : State :=
  { s with mem := { s.mem with l1 := s.mem.l1.filter (fun p => !(p.2 == line && dieOf (p.1 % 100) == die)) } }

/-- A die's copy of an SW line is written back if it is dirty, and leaves the die, the L1 data caches with it (R121, R123). -/
def swGone (s : State) (die line : Nat) : State := if (swCopy s die line).isSome then l1Drop (swDrop (swFlush s die line) die line) die line else s

/-- R394, R397: a line is recalled: its partials merge, its copies are written back and invalidated, and so is what an access left while the class
of its page was changed (R125). -/
def recallLine (s : State) (line : Nat) : State :=
  swGone (swGone (l1Forget (setDir (dirtyBack (mergeLine s line) line) line none) (line * 128) 128) 1 line) 2 line

/-- R394, R424: the L2 of a die gives up a line, which is written back if it is dirty. -/
def l2Evict (s : State) (die line : Nat) : State :=
  let s1 := swGone s die line
  match aget s1.mem.dir line with
  | some (.s l) => setDir s1 line (if l.filter (fun d => d != die) == [] then none else some (.s (l.filter (fun d => d != die))))
  | some (.e h) => if h == die then setDir s1 line none else s1
  | some (.m h) => if h == die then setDir (lineBack s1 h line) line none else s1
  | _ => s1

/-- The L2 of a die holds a line. -/
def inL2 (s : State) (die line : Nat) : Bool := (aget s.mem.dir line).any (fun d => heldIn d die) || (swCopy s die line).isSome

/-- The ways that the lines of a line's L2 set on a die stand in, in the order in which they came (R423). -/
def l2Set (s : State) (die line : Nat) : List (Nat × Nat × Nat) :=
  s.mem.ways.filter (fun w => w.1 == die && w.2.1 % Config.l2Sets == line % Config.l2Sets && w.2.1 != line && inL2 s die w.2.1)

/-- R423, R242: a line takes a way of its set, as the one that came last or, at the lowest retention priority, as the first to go; what stood for
lines that have left the set is forgotten. -/
def takeWay (s : State) (die line way : Nat) (low : Bool) : State :=
  let rest := s.mem.ways.filter (fun w => !(w.1 == die && w.2.1 % Config.l2Sets == line % Config.l2Sets))
  let set := (l2Set s die line).filter (fun w => w.2.2 != way)
  { s with mem := { s.mem with ways := rest ++ (if low then (die, line, way) :: set else set ++ [(die, line, way)]) } }

/-- R20, R423: room for a line in the L2 of a requester's die: a way of its mask that is free, or else the one among them whose line came first,
which leaves (DESIGN CHOICE, log entry 72). -/
def l2Room (s : State) (who : Asker) (line : Nat) : State :=
  if inL2 s who.die line then s
  else
    let set := l2Set s who.die line
    match (List.range Config.ways).find? (fun w => who.mask.getLsbD w && !set.any (fun x => x.2.2 == w)) with
    | some w => takeWay s who.die line w who.low
    | none => match set.find? (fun x => who.mask.getLsbD x.2.2) with
      | some x => takeWay (l2Evict s who.die x.2.1) who.die line x.2.2 who.low
      | none => s

/-- The lines of a directory set of a home agent (R392), other than one. A line of a moving page stands at the home that serves it (R398). -/
def dirSet (s : State) (line : Nat) : List Nat :=
  let tier := fun (k : Nat) => (lineHome s (k / 4096) (k % 4096)).1
  let sets := if tier line < 2 then Config.hbmDirSets else Config.hubDirSets
  (s.mem.dir.filter (fun p => p.1 != line && p.1 % sets == line % sets && tier p.1 == tier line)).map (fun p => p.1)

/-- R392: the directory set of a line has no room for it. -/
def dirFull (s : State) (line : Nat) : Bool := (aget s.mem.dir line).isNone && decide (Config.ways ≤ (dirSet s line).length)

/-- R392, R394: room for the directory entry of a line: where its set is full an entry is evicted (the first of the set: DESIGN CHOICE, log
entry 72): copies are recalled, partials merge, which the requester's class pays for (R422). -/
def dirRoom (s : State) (who : Asker) (line : Nat) : State :=
  match dirSet s line with
  | [] => s
  | k :: _ => if dirFull s line then recallLine (chargeWho s who k (forcedBy s 3 true k)) k else s

/-- R133, R394: before any access to an HC line other than a holder's `RED`, its partials merge; a holder that does not serve the access
writes it back; the directory then changes state and the access is counted. What this forces on others is charged to the requester's class
(R422). -/
def touchLine (who : Asker) (k : AccKind) (s : State) (line : Nat) : State :=
  let s1 := mergeLine (chargeWho s who line (forcedBy s who.die (k != .read) line)) line
  let d := aget s1.mem.dir line
  let s2 := if dirHit d who k then s1 else dirtyBack s1 line
  let s3 := if (dirNext d who k).isSome && !foreignPage s2 (line * 128 / 2 ^ 19) then dirRoom (if who.install then l2Room s2 who line else s2) who line else s2
  let s4 := touchHc s3 who k (line * 128)
  if k == .write && (dirNext d who k).isSome then dirtied s4 who line else s4

/-- The same for each line of a run. -/
def touchLines (s : State) (who : Asker) (k : AccKind) (spa len : Nat) : State := (linesOf spa len).foldl (touchLine who k) s

/-- A coherent read touches its lines, and finds the errors of what it reads (R374, R375). -/
def touchRead (s : State) (who : Asker) (k : AccKind) (spa len : Nat) : State :=
  (linePieces spa len).foldl (fun s p => findErrors (touchLine who k s (p.1 / 128)) p.1 p.2 (memRead s (p.1 / 128))) s

/-- R132, R133: one value of a `RED` enters the core's buffer: an entry of the line with another operation or type merges first; a
matching entry combines; otherwise a new entry is taken, the oldest merging when all are in use, the line's copies are recalled, and the
core is registered (R394). -/
def bufferRed (s : State) (who : Asker) (core ctx line op : Nat) (t : BitVec 4) (ofs : Nat) (d : DWord) (scope : Nat) (key : BitVec 6) : State :=
  let same := fun e : RedEntry => e.op == op && e.mty == t
  let s1 := mergeCore s core (fun e => e.line == line && !same e)
  match s1.mem.red.filter (fun e => e.core == core && e.line == line && same e) with
  | e :: _ =>
    let p := match aget e.parts ofs with
      | some v => BitVec.ofNat 64 (atop op t v.toNat d.toNat)
      | none => d
    let e1 := { e with ctxs := if e.ctxs.contains ctx then e.ctxs else e.ctxs ++ [ctx], parts := aset e.parts ofs p, scope := min e.scope scope }
    { s1 with mem := { s1.mem with red := s1.mem.red.map (fun x => if x == e then e1 else x) } }
  | [] =>
    let mine := s1.mem.red.filter (fun e => e.core == core)
    let s2 := if mine.length < Config.redEntries then s1 else match mine with
      | o :: _ => mergeEntry s1 o
      | [] => s1
    let s3 := l1Forget (dirRoom (dirtyBack (chargeWho s2 who line (forcedBy s2 3 true line)) line) who line) (line * 128) 128
    let ne : RedEntry :=
      { core := core, ctxs := [ctx], line := line, op := op, mty := t, parts := [(ofs, d)], scope := scope, key := key }
    let holders := match aget s3.mem.dir line with
      | some (.p l) => if l.contains core then l else l ++ [core]
      | _ => [core]
    setDir { s3 with mem := { s3.mem with red := s3.mem.red ++ [ne] } } line (some (.p holders))

/-- The hub reads memory on its own account, coherently (R147, R353), through its own location cache (R390). An uncorrectable error that it
finds is recorded (R370). -/
def hubRead (s : State) (key spa len : Nat) : List Byte × State :=
  let s0 := locateFill s 3 (spa / 2 ^ 19)
  let s1 := touchRead s0 hubAsker .read spa len
  (spaReadN s1 key spa len, if poisoned s1 spa len && !poisoned s0 spa len then hubErrorRecord s1 0 (errSource s1 spa len) 0xFF 0 0 spa else s1)

/-- The hub writes memory on its own account, coherently. -/
def hubWrite (s : State) (key spa : Nat) (bs : List Byte) : State :=
  spaWriteN (touchLines (locateFill s 3 (spa / 2 ^ 19)) hubAsker .write spa bs.length) key spa bs

end Sys2Proof.Machine
end

