-- ==== Sys2Proof/Machine/Translate.lean ====
section
/-! DEFINITION. Address translation (R346 to R360): the two-stage walk, permissions, A and D, TLBs and walk caches, and their removal
(R317, R360). -/

namespace Sys2Proof.Machine

/-- Whose translation: guest, address space, roots and level (R310, R312, R348, R357); for a hart, the entries of its physical memory protection,
which guard the reads and writes of its walks too (R431). -/
structure Space where
  vmid  : BitVec 8
  asid  : BitVec 16
  root1 : DWord
  root2 : DWord
  level : Level
  pmp   : Option (Sparse 64) := none
deriving DecidableEq, Repr

/-- The address space of a context at a level. -/
def spaceOf (s : State) (ctx : Nat) (level : Level) : Space :=
  let c := ctxOf s ctx
  { vmid := c.vmid, asid := c.asid, root1 := c.s1root, root2 := c.s2root, level := level }

/-- The permissions an access needs (R355): read, write, fetch, both, or any one of R, W and X. -/
inductive Need where
  | read | write | fetch | both | any
deriving DecidableEq, Repr

/-- A translation that cannot be completed (R353, R364): type 1 or 2 (3 for MIGRATION), table level, guest-physical address, and the record's
flags; whether it came from the setting of A or D; and, of type 16, 17 or 18, why a table could not be read at all, with the source of the
error. -/
structure WFault where
  type   : Nat
  level  : Nat
  gpa    : Nat
  s1walk : Bool
  perm   : Bool
  malf   : Bool
  set    : Bool := false
  esrc   : Nat := 0
deriving DecidableEq, Repr

/-- How a translation ends: an address, a fault (R361), a stage-1 refusal (R355), a conflict of TLB entries (R360), a walk that must wait for a
page or line of its tables (R390, R398), one that a hart's physical memory protection refuses (R431), or one whose table is lost or poisoned, with
the source of the error (R375, R386). -/
inductive Walked where
  | ok (x : Xlat)
  | fault (f : WFault)
  | refused
  | conflict
  | busy
  | guarded
  | lost (esrc : Nat)
deriving DecidableEq, Repr

/-- A walk that stops at a table it cannot read. -/
def stopAt (type esrc : Nat) : WFault := { type := type, level := 0, gpa := 0, s1walk := false, perm := false, malf := false, esrc := esrc }

/-- How a walk that failed ends. -/
def walkEnd (f : WFault) : Walked :=
  if f.type == 16 then .busy else if f.type == 17 then .guarded else if f.type == 18 then .lost f.esrc else .fault f

/-! ### Physical memory protection (R431; RISC-V's, log entry 7) -/

/-- The configuration byte of a PMP entry. -/
def pmpCfg (pmp : Sparse 64) (i : Nat) : Nat := nbits (sget pmp (if i < 8 then 0x3A0 else 0x3A2)).toNat (8 * (i % 8)) 8

/-- The bytes that a PMP entry covers: its first, and the one behind its last. -/
def pmpRange (pmp : Sparse 64) (i : Nat) : Nat × Nat :=
  let a := nbits (sget pmp (0x3B0 + i)).toNat 0 54
  let ones := ((List.range 54).find? (fun k => nbits a k 1 == 0)).getD 54
  match nbits (pmpCfg pmp i) 3 2 with
  | 0 => (0, 0)
  | 1 => (if i == 0 then 0 else 4 * nbits (sget pmp (0x3B0 + i - 1)).toNat 0 54, 4 * a)
  | 2 => (4 * a, 4 * a + 4)
  | _ => let base := a / 2 ^ (ones + 1) * 2 ^ (ones + 1) * 4; (base, base + 2 ^ (ones + 3))

/-- What the lowest entry that meets an access says, from entry `i` on; where none meets it, M alone may make it. -/
def pmpFrom (pmp : Sparse 64) (m : Bool) (spa n need : Nat) (i : Nat) : Nat → Bool
  | 0 => m
  | k + 1 =>
    let r := pmpRange pmp i
    if r.1 < spa + n && spa < r.2 then
      decide (r.1 ≤ spa ∧ spa + n ≤ r.2) && ((m && nbits (pmpCfg pmp i) 7 1 == 0) || nbits (pmpCfg pmp i) need 1 == 1)
    else pmpFrom pmp m spa n need (i + 1) k

/-- An access of a mode is allowed; M is bound by locked entries alone. -/
def pmpAllows (pmp : Sparse 64) (m : Bool) (spa n : Nat) (need : Need) : Bool :=
  match need with
  | .fetch => pmpFrom pmp m spa n 2 0 16
  | .write => pmpFrom pmp m spa n 1 0 16
  | .both => pmpFrom pmp m spa n 0 0 16 && pmpFrom pmp m spa n 1 0 16
  | _ => pmpFrom pmp m spa n 0 0 16

/-- R346: the table index of an address at a level; at level 2 by the page size. -/
def walkIndex (va level size : Nat) : Nat :=
  match level with
  | 0 => nbits va 44 12
  | 1 => nbits va 31 13
  | _ => if size == 25 then nbits va 25 6 else nbits va 19 12

/-- R352: a malformed root entry. -/
def badRoot (e : Nat) : Bool := nbits e 52 12 != 0 || nbits e 1 15 != 0

/-- R351, R352: a malformed leaf of a page size, in a stage of a guest. `top` is the number of reserved bits above KEY. -/
def badLeaf (e size top : Nat) (stage2 : Bool) (vmid : BitVec 8) : Bool :=
  nbits e 58 top != 0 || nbits e 15 4 != 0 || decide (2 ≤ nbits e 13 2) || nbits e 8 2 == 3
    || (nbits e 2 1 == 1 && nbits e 1 1 == 0) || nbits e 10 3 == 0 || (nbits e 8 2 == 2 && nbits e 13 2 == 1)
    || (stage2 && (nbits e 4 1 == 1 || nbits e 5 1 == 1)) || (!stage2 && vmid != 0 && nbits e 52 6 != 0)
    || (size == 25 && nbits e 19 6 != 0) || (size == 31 && nbits e 19 12 != 0)

/-- R350, R352: a malformed middle entry. -/
def badMiddle (e : Nat) (stage2 : Bool) (vmid : BitVec 8) : Bool :=
  match nbits e 62 2 with
  | 0 => true
  | 3 => badLeaf e 31 4 stage2 vmid
  | sel => nbits e 52 10 != 0 || nbits e 1 8 != 0 || (sel == 1 && nbits e 9 6 != 0)

/-- A leaf that a walk found: the entry, the page size in bits, the address it was read by and its system-physical place and key, and the
level it stood at. -/
structure LeafAt where
  ent  : Nat
  size : Nat
  ea   : Nat
  spa  : Nat
  key  : Nat
  lvl  : Nat
deriving DecidableEq, Repr

/-- R351: the output address of a leaf for an address. -/
def leafOut (l : LeafAt) (va : Nat) : Nat := nbits l.ent l.size (52 - l.size) * 2 ^ l.size + va % 2 ^ l.size

/-- Entry reads of a walk: the level and address of an entry give the entry, its place and its key, or a fault. -/
abbrev EntryRead := State → Nat → Nat → Except WFault (Nat × Nat × Nat) × State

/-- R353: the three levels of one stage over a way of reading entries; `inv` names the fault of an invalid or malformed entry. -/
def tableWalk (s : State) (rd : EntryRead) (inv : Nat → Bool → WFault) (stage2 : Bool) (vmid : BitVec 8) (root va : Nat) :
    Except WFault LeafAt × State :=
  match rd s 0 (root + 8 * walkIndex va 0 0) with
  | (.error f, s1) => (.error f, s1)
  | (.ok (e0, _, _), s1) =>
    if e0 % 2 == 0 then (.error (inv 0 false), s1)
    else if badRoot e0 then (.error (inv 0 true), s1)
    else
      let a1 := nbits e0 16 36 * 2 ^ 16 + 8 * walkIndex va 1 0
      match rd s1 1 a1 with
      | (.error f, s2) => (.error f, s2)
      | (.ok (e1, p1, k1), s2) =>
        if e1 % 2 == 0 then (.error (inv 1 false), s2)
        else if badMiddle e1 stage2 vmid then (.error (inv 1 true), s2)
        else if nbits e1 62 2 == 3 then (.ok { ent := e1, size := 31, ea := a1, spa := p1, key := k1, lvl := 1 }, s2)
        else
          let size := if nbits e1 62 2 == 1 then 19 else 25
          let a2 := nbits e1 9 43 * 2 ^ 9 + 8 * walkIndex va 2 size
          match rd s2 2 a2 with
          | (.error f, s3) => (.error f, s3)
          | (.ok (e2, p2, k2), s3) =>
            if e2 % 2 == 0 then (.error (inv 2 false), s3)
            else if badLeaf e2 size 6 stage2 vmid then (.error (inv 2 true), s3)
            else (.ok { ent := e2, size := size, ea := a2, spa := p2, key := k2, lvl := 2 }, s3)

/-- R357: an entry that a walk cache holds: a valid root or middle entry that names a further table. A leaf, and an entry that faults, is
read from memory by every walk. -/
def cacheable (level e : Nat) : Bool :=
  e % 2 == 1 && (if level == 0 then !badRoot e else level == 1 && nbits e 62 2 != 3 && !badMiddle e false 0)

/-- The requester of a die's walks: they read through the L2 of the die and count as its accesses (R147); the hub's walkers count nowhere. -/
def walkAsker (die : Nat) : Asker := if die < 3 then { die := die, counted := true, install := true } else hubAsker

/-- R390, R398, R401: why a walker cannot reach a table entry now; a lost page gives poisoned data (R386). -/
def tableStop (s : State) (die spa : Nat) : Option WFault :=
  match routeOf s die spa 8 with
  | .go => none
  | .bad => some (stopAt 18 8)
  | _ => some (stopAt 16 0)

/-- A table entry at a system-physical address, from the die's walk cache for root and middle entries (R357), otherwise from memory, by the die's
own location cache (R390). -/
def entryAt (s : State) (die : Nat) (t : Space) (level spa key : Nat) : Except WFault Nat × State :=
  if t.pmp.any (fun p => !pmpAllows p false spa 8 .read) then (.error (stopAt 17 0), s)
  else match s.mem.walk.filter (fun w => w.die == die && w.vmid == t.vmid && w.addr == spa && decide (level < 2)) with
  | w :: _ => (.ok w.val.toNat, s)
  | [] =>
    let s0 := locateFill s die (spa / 2 ^ 19)
    match tableStop s0 die spa with
    | some f => (.error f, s0)
    | none =>
      let s1 := touchRead s0 (walkAsker die) .read spa 8
      if poisoned s1 spa 8 then (.error (stopAt 18 (errSource s1 spa 8)), s1)
      else
        let e := ofBytes (spaReadN s1 key spa 8)
        if cacheable level e then
          (.ok e, { s1 with mem := { s1.mem with walk := s1.mem.walk ++ [{ die := die, vmid := t.vmid, addr := spa, val := BitVec.ofNat 64 e }] } })
        else (.ok e, s1)

/-- R348, R353: a stage-2 walk of a guest-physical address. -/
def walk2 (s : State) (die : Nat) (t : Space) (gpa : Nat) : Except WFault LeafAt × State :=
  let flt := fun level malf => ({ type := 2, level := level, gpa := gpa, s1walk := false, perm := false, malf := malf } : WFault)
  if t.root2.toNat % 2 == 0 then (.error (flt 0 false), s)
  else
    tableWalk s (fun s level ea => match entryAt s die t level ea 0 with
      | (.ok e, s1) => (.ok (e, ea, 0), s1)
      | (.error f, s1) => (.error f, s1))
      flt true t.vmid (nbits t.root2.toNat 15 37 * 2 ^ 15) gpa

/-- R356: sets bits of a table entry by compare-and-set: the walk has read the leaf from memory in this step, so it is unchanged. Where a move
has closed its line, the setting takes an entry of the hold window and is made at the destination in arrival order (R398); the walk is made again
then. A page that is frozen, or a full window, holds the walk too. -/
def setEntry (s : State) (die : Nat) (t : Space) (l : LeafAt) (bits : Nat) : Except WFault Unit × State :=
  if l.ent ||| bits == l.ent then (.ok (), s)
  else if t.pmp.any (fun p => !pmpAllows p false l.spa 8 .write) then (.error (stopAt 17 0), s)
  else match tableStop s die l.spa with
    | none => (.ok (), spaWriteN (touchLines s (walkAsker die) .write l.spa 8) l.key l.spa (toBytes (l.ent ||| bits) 8))
    | some f => (.error f, holdAccess s (.entry die l.key l.spa l.ent (l.ent ||| bits)) true [(l.spa, 8)])

/-- R398: a setting that waited for its line is made there, if the entry is still what the walk had read (R356). -/
def setHeld (s : State) (die key spa old new : Nat) : State :=
  if ofBytes (spaReadN s key spa 8) == old then spaWriteN (touchLines s (walkAsker die) .write spa 8) key spa (toBytes new 8) else s

/-- The stage-2 leaf of an address for VMID 0: the identity, everything permitted (R348). -/
def identityLeaf : LeafAt := { ent := 0x1CCF, size := 31, ea := 0, spa := 0, key := 0, lvl := 2 }

/-- Stage 2 of an address: the identity for VMID 0. -/
def stage2 (s : State) (die : Nat) (t : Space) (gpa : Nat) : Except WFault LeafAt × State :=
  if t.vmid == 0 then (.ok identityLeaf, s) else walk2 s die t gpa

/-- The system-physical address and key of a guest-physical one through its stage-2 leaf. -/
def through2 (t : Space) (l : LeafAt) (gpa : Nat) : Nat × Nat :=
  if t.vmid == 0 then (gpa % 2 ^ 52, 0) else (leafOut l gpa, nbits l.ent 52 6)

/-- R357: the stage-2 translation of a page of table addresses that a die holds; one whose A is to be set is walked for. -/
def heldTable (s : State) (die : Nat) (t : Space) (ea : Nat) (set : Bool) : Option TableXlat :=
  s.mem.tables.find? (fun x => x.die == die && x.vmid == t.vmid && x.base == ea - ea % 2 ^ x.size && (!set || nbits x.ent.toNat 6 1 == 1))

/-- A die holds the stage-2 translation of a page of table addresses (R357). -/
def holdTable (s : State) (die : Nat) (t : Space) (ea ent : Nat) (l : LeafAt) : State :=
  let x : TableXlat :=
    { die := die, vmid := t.vmid, base := ea - ea % 2 ^ l.size, ent := BitVec.ofNat 64 ent, ea := l.ea, size := l.size, lvl := l.lvl }
  let rest := s.mem.tables.filter (fun y => !(y.die == x.die && y.vmid == x.vmid && y.base == x.base && y.size == x.size))
  { s with mem := { s.mem with tables := rest ++ [x] } }

/-- R353: the stage-2 translation of the address of a stage-1 table entry: its leaf needs R and class HC (and W, which the setting of A and D
checks). `set` says whether A is to be set in it (R356). A stage-2 fault on the way carries S1WALK and the stage-1 level (R365). -/
def tableLeaf (s : State) (die : Nat) (t : Space) (level ea : Nat) (set : Bool) : Except WFault LeafAt × State :=
  if t.vmid == 0 then (.ok identityLeaf, s)
  else match heldTable s die t ea set with
    | some x => (.ok { ent := x.ent.toNat, size := x.size, ea := x.ea, spa := x.ea, key := 0, lvl := x.lvl }, s)
    | none => match walk2 s die t ea with
      | (.error f, s1) => (.error (if f.type == 2 then { f with s1walk := true, level := level, gpa := ea } else f), s1)
      | (.ok l, s1) =>
        if nbits l.ent 1 1 == 0 || nbits l.ent 8 2 != 0 then
          (.error { type := 2, level := level, gpa := ea, s1walk := true, perm := true, malf := false }, s1)
        else if set then (match setEntry s1 die t l 0x40 with
          | (.ok _, s2) => (.ok l, holdTable s2 die t ea (l.ent ||| 0x40) l)
          | (.error f, s2) => (.error f, s2))
        else (.ok l, holdTable s1 die t ea l.ent l)

/-- R353: the read of a stage-1 table entry through stage 2. -/
def readStage1 (die : Nat) (t : Space) (set : Bool) : EntryRead := fun s level ea =>
  match tableLeaf s die t level ea set with
  | (.error f, s1) => (.error f, s1)
  | (.ok l, s1) =>
    let (spa, key) := through2 t l ea
    match entryAt s1 die t level spa key with
    | (.ok e, s2) => (.ok (e, spa, key), s2)
    | (.error f, s2) => (.error f, s2)

/-- R355: a leaf permits an access. -/
def permits (e : Nat) (need : Need) : Bool :=
  let r := nbits e 1 1 == 1
  let w := nbits e 2 1 == 1
  let x := nbits e 3 1 == 1
  match need with
  | .read => r
  | .write => w
  | .fetch => x
  | .both => r && w
  | .any => r || w || x

/-- Whether an access writes. -/
def needWrites : Need → Bool
  | .write => true
  | .both => true
  | _ => false

/-- R354: the combination of two leaves for the page of an address. -/
def combine (t : Space) (l1 l2 : LeafAt) (gpa : Nat) : Xlat :=
  let id := t.vmid == 0
  let size := if id then l1.size else min l1.size l2.size
  let out := if id then gpa % 2 ^ 52 else leafOut l2 gpa
  let bit := fun (i : Nat) => nbits l1.ent i 1 == 1 && (id || nbits l2.ent i 1 == 1)
  { spa := out - out % 2 ^ size, gpa := gpa - gpa % 2 ^ size, size := size, size1 := l1.size, size2 := if id then l1.size else l2.size
    a := bit 6, d := bit 7, r := bit 1, w := bit 2, x := bit 3
    u := nbits l1.ent 4 1 == 1, g := nbits l1.ent 5 1 == 1
    cls := BitVec.ofNat 2 (if id then nbits l1.ent 8 2 else max (nbits l1.ent 8 2) (nbits l2.ent 8 2))
    memt := BitVec.ofNat 2 (if id then nbits l1.ent 13 2 else max (nbits l1.ent 13 2) (nbits l2.ent 13 2))
    allow := BitVec.ofNat 3 (if id then nbits l1.ent 10 3 else nbits l1.ent 10 3 &&& nbits l2.ent 10 3)
    key := BitVec.ofNat 6 (if id then nbits l1.ent 52 6 else nbits l2.ent 52 6) }

/-- R353, R356: sets A, and D for a write, in the leaf of stage 1. The stage-2 leaf of the table page needs W = 1, or the walk faults
STAGE2 with PERM and S1WALK. -/
def setStage1 (s : State) (die : Nat) (t : Space) (l1 : LeafAt) (bits : Nat) : Except WFault Unit × State :=
  if l1.ent ||| bits == l1.ent then (.ok (), s)
  else if t.vmid == 0 then setEntry s die t l1 bits
  else
    let refuse : WFault := { type := 2, level := l1.lvl, gpa := l1.ea, s1walk := true, perm := true, malf := false, set := true }
    match walk2 s die t l1.ea with
    | (.error f, s1) => (.error (if f.type == 2 then { f with s1walk := true, level := l1.lvl, gpa := l1.ea, set := true } else f), s1)
    | (.ok tl, s1) =>
      if nbits tl.ent 2 1 == 0 then (.error refuse, s1)
      else match setEntry s1 die t tl 0xC0 with
        | (.error f, s2) => (.error f, s2)
        | (.ok _, s2) => setEntry s2 die t l1 bits

/-- The two leaves of an address, and the guest-physical address between them. -/
structure LeafPair where
  l1  : LeafAt
  l2  : LeafAt
  gpa : Nat
deriving DecidableEq, Repr

/-- R353: the leaves that a walk finds, or its fault. -/
def walkPair (s : State) (die : Nat) (t : Space) (va : Nat) (set : Bool) : Except WFault LeafPair × State :=
  let np := fun level malf => ({ type := 1, level := level, gpa := 0, s1walk := false, perm := false, malf := malf } : WFault)
  if t.root1.toNat % 2 == 0 then (.error (np 0 false), s)
  else
    match tableWalk s (readStage1 die t set) np false t.vmid (nbits t.root1.toNat 15 37 * 2 ^ 15) va with
    | (.error f, s1) => (.error f, s1)
    | (.ok l1, s1) =>
      let gpa := leafOut l1 va
      match stage2 s1 die t gpa with
      | (.error f, s2) => (.error (if f.type == 2 then { f with gpa := gpa } else f), s2)
      | (.ok l2, s2) => (.ok { l1 := l1, l2 := l2, gpa := gpa }, s2)

/-- R355: stage 1 refuses an access. -/
def refused1 (t : Space) (l1 : LeafAt) (need : Need) : Bool := !permits l1.ent need || (t.level == .u && nbits l1.ent 4 1 == 0)

/-- R354: the allowed-tier masks of the two leaves have no tier in common. -/
def noTier (t : Space) (p : LeafPair) : Bool := t.vmid != 0 && (nbits p.l1.ent 10 3 &&& nbits p.l2.ent 10 3) == 0

/-- R354, R355: what permission and the masks make of two leaves: nothing against the access, a stage-1 refusal, or a stage-2 fault. -/
def judge (t : Space) (p : LeafPair) (need : Need) : Option Walked :=
  if refused1 t p.l1 need then some .refused
  else if t.vmid != 0 && (!permits p.l2.ent need || noTier t p) then
    some (.fault { type := 2, level := p.l2.lvl, gpa := p.gpa, s1walk := false, perm := true, malf := false })
  else none

/-- R353 to R356: one walk for an access; with `ad` it sets A and D where the access is permitted. -/
def walkOnce (s : State) (die : Nat) (t : Space) (va : Nat) (need : Need) (ad : Bool) : Walked × State :=
  match walkPair s die t va ad with
  | (.error f, s1) => (walkEnd f, s1)
  | (.ok p, s1) => match judge t p need with
    | some w => (w, s1)
    | none =>
      let x := combine t p.l1 p.l2 p.gpa
      if ad then
        let bits := if needWrites need then 0xC0 else 0x40
        match setStage1 s1 die t p.l1 bits with
        | (.error f, s2) => (walkEnd f, s2)
        | (.ok _, s2) =>
          let y : Xlat := { x with a := true, d := x.d || needWrites need }
          if t.vmid == 0 then (.ok y, s2) else (match setEntry s2 die t (againLeaf s2 p.l2) bits with
            | (.error f, s3) => (walkEnd f, s3)
            | (.ok _, s3) => (.ok y, s3))
      else (.ok x, s1)
where
  /-- The stage-2 leaf as it stands after the stage-1 leaf's bits were set: the two may share an entry. -/
  againLeaf (s : State) (l : LeafAt) : LeafAt := { l with ent := ofBytes (spaReadN s l.key l.spa 8) }

/-- R353 to R356: a full walk for an access; `ad` says whether the access sets A and D (it does not for the instructions of R356). A walk
that does not end in a translation sets neither. -/
def fullWalk (s : State) (die : Nat) (t : Space) (va : Nat) (need : Need) (ad : Bool) : Walked × State :=
  match walkOnce s die t va need ad with
  | (.ok x, s1) => (.ok x, s1)
  | (w, s1) => (w, if ad then (walkOnce s die t va need false).2 else s1)

/-- R319 with `.s1`: stage 1 alone. -/
def walk1 (s : State) (die : Nat) (t : Space) (va : Nat) : Except WFault LeafAt × State :=
  let np := fun level malf => ({ type := 1, level := level, gpa := 0, s1walk := false, perm := false, malf := malf } : WFault)
  if t.root1.toNat % 2 == 0 then (.error (np 0 false), s)
  else tableWalk s (readStage1 die t false) np false t.vmid (nbits t.root1.toNat 15 37 * 2 ^ 15) va

/-- A guest-physical address through stage 2 alone, for the queues and records that the hub reaches by it (R326, R361): the address and
key, or the fault. Permission is checked as for an access. -/
def gpaXlat (s : State) (t : Space) (gpa : Nat) (need : Need) : Except WFault (Nat × Nat) × State :=
  if t.vmid == 0 then (.ok (gpa % 2 ^ 52, 0), s)
  else match walk2 s 3 t gpa with
    | (.error f, s1) => (.error f, s1)
    | (.ok l, s1) =>
      if permits l.ent need then (match setEntry s1 3 t l (if needWrites need then 0xC0 else 0x40) with
        | (.error f, s2) => (.error f, s2)
        | (.ok _, s2) => (.ok (leafOut l gpa, nbits l.ent 52 6), s2))
      else (.error { type := 2, level := l.lvl, gpa := gpa, s1walk := false, perm := true, malf := false }, s1)

/-! ### TLBs -/

/-- The address a translation gives for an address of its page. -/
def xlatOut (x : Xlat) (va : Nat) : Nat := x.spa + va % 2 ^ x.size

/-- R357: an entry matches an address of a space. -/
def tlbMatches (e : TlbEntry) (t : Space) (va : Nat) : Bool :=
  e.vmid == t.vmid && (e.x.g || e.asid == t.asid) && (e.user == (t.level == .u)) && decide (e.vbase = va - va % 2 ^ e.x.size)

/-- The entries of a TLB that match. -/
def tlbFind (s : State) (place : Nat) (t : Space) (va : Nat) : List TlbEntry :=
  s.mem.tlb.filter (fun e => e.place == place && tlbMatches e t va)

/-- R360: two matching entries of different sizes disagree on the address. -/
def disagree (va : Nat) (a b : TlbEntry) : Bool :=
  a.x.size != b.x.size &&
    !(xlatOut a.x va == xlatOut b.x va && a.x.r == b.x.r && a.x.w == b.x.w && a.x.x == b.x.x && a.x.u == b.x.u && a.x.cls == b.x.cls
      && a.x.memt == b.x.memt && a.x.allow == b.x.allow && a.x.key == b.x.key)

/-- Some two entries of a list disagree. -/
def anyDisagree (va : Nat) : List TlbEntry → Bool
  | [] => false
  | e :: t => t.any (disagree va e) || anyDisagree va t

/-- R357: an entry goes into a TLB of a size, the oldest going out when it is full. -/
def tlbInsert (s : State) (place size : Nat) (e : TlbEntry) : State :=
  let mine := s.mem.tlb.filter (fun x => x.place == place)
  let l := s.mem.tlb.filter (fun x => !(x.place == place && x.vmid == e.vmid && x.asid == e.asid && x.user == e.user
    && x.vbase == e.vbase && x.x.size == e.x.size))
  let l1 := if mine.length < size then l else match mine with
    | o :: _ => l.erase o
    | [] => l
  { s with mem := { s.mem with tlb := l1 ++ [{ e with place := place }] } }

/-- R355: a combined translation permits an access at a level; an access through it needs A, a write D (R356). -/
def xlatPermits (x : Xlat) (t : Space) (need : Need) (ad : Bool) : Bool :=
  (match need with
    | .read => x.r
    | .write => x.w
    | .fetch => x.x
    | .both => x.r && x.w
    | .any => x.r || x.w || x.x) && (t.level != .u || x.u) && (!ad || x.a) && (!(ad && needWrites need) || x.d)

/-- R356: the die forgets what its walkers hold of a guest's tables. -/
def dropWalks (s : State) (die : Nat) (t : Space) : State :=
  { s with mem := { s.mem with
    walk := s.mem.walk.filter (fun w => !(w.die == die && w.vmid == t.vmid))
    tables := s.mem.tables.filter (fun x => !(x.die == die && x.vmid == t.vmid)) } }

/-- R356: a walk that rests on no entry cached for the guest on the die. -/
def freshWalk (s : State) (die : Nat) (t : Space) (va : Nat) (need : Need) (ad : Bool) : Walked × State :=
  fullWalk (dropWalks s die t) die t va need ad

/-- R355: a translation refused for permission, at stage 1 or at stage 2. -/
def refusal : Walked → Bool
  | .refused => true
  | .fault f => f.perm
  | _ => false

/-- R358, R361: how many walkers of a die (3 for the hub) hold no fault. -/
def walkersLeft (s : State) (die : Nat) : Nat :=
  (if die == 3 then Config.hubWalkers else Config.dieWalkers) - (s.hub.kept.filter (fun k => k.die == die)).length

/-- R356, R358: a walk; before an access is refused, or D is set through a cached entry, it is a fresh one. It waits for a walker. -/
def decidedWalk (s : State) (cached : Bool) (die : Nat) (t : Space) (va : Nat) (need : Need) (ad : Bool) : Walked × State :=
  if walkersLeft s die == 0 then (.busy, s)
  else if cached then freshWalk s die t va need ad
  else
    let r := fullWalk s die t va need ad
    if refusal r.1 then freshWalk r.2 die t va need ad else r

/-- R357 to R360: an access of a core translates through its L1 TLB, its quad's L2 TLB, or a walk. Only a completed translation is cached;
a refusal, and a D to be set, rest on a fresh walk. Entries that disagree are dropped from the core's and the quad's TLBs. -/
def translate (s : State) (core : Nat) (t : Space) (va : Nat) (need : Need) (ad : Bool) : Walked × State :=
  let l1 := tlbFind s core t va
  let l2 := if l1.isEmpty then tlbFind s (100 + gquad core) t va else []
  let found := l1 ++ l2
  if anyDisagree va found then
    (.conflict, { s with mem := { s.mem with tlb := s.mem.tlb.filter (fun e =>
      !((e.place == core || e.place == 100 + gquad core) && tlbMatches e t va)) } })
  else
    match found.filter (fun e => xlatPermits e.x t need ad) with
    | e :: _ => (.ok e.x, s)
    | [] =>
      match decidedWalk s (!found.isEmpty) (dieOf core) t va need ad with
      | (.ok x, s1) =>
        let e : TlbEntry :=
          { place := core, vmid := t.vmid, asid := t.asid, user := t.level == .u, vbase := va - va % 2 ^ x.size, x := x }
        (.ok x, tlbInsert (tlbInsert s1 core Config.l1Tlb e) (100 + gquad core) Config.l2Tlb e)
      | r => r

/-- The hub's walkers cache nothing in a TLB of a core (R358). -/
def hubTranslate (s : State) (t : Space) (va : Nat) (need : Need) : Walked × State :=
  decidedWalk s false 3 t va need true

/-- The translation of an agent on a core, or on the hub (core 255). -/
def agentTranslate (s : State) (core : Nat) (t : Space) (va : Nat) (need : Need) (ad : Bool) : Walked × State :=
  if core < Config.cores then translate s core t va need ad else decidedWalk s false 3 t va need ad

/-- R366: an access that is performed afresh walks afresh: the entries of its core and quad for the pages of its bytes go. -/
def dropPages (s : State) (core : Nat) (t : Space) (va n : Nat) : State :=
  { s with mem := { s.mem with tlb := s.mem.tlb.filter (fun e =>
    !((e.place == core || e.place == 100 + gquad core) && (tlbMatches e t va || tlbMatches e t (va + n - 1)))) } }

/-- R357, R367: a host hart's access through its own TLB, place 200 + h. -/
def hartTranslate (s : State) (h : Nat) (t : Space) (va : Nat) (need : Need) (ad : Bool) : Walked × State :=
  let found := tlbFind s (200 + h) t va
  match found.filter (fun e => xlatPermits e.x t need ad) with
  | e :: _ => (.ok e.x, s)
  | [] =>
    match decidedWalk s (!found.isEmpty) 0 t va need ad with
    | (.ok x, s1) =>
      (.ok x, tlbInsert s1 (200 + h) Config.l1Tlb
        { place := 200 + h, vmid := t.vmid, asid := t.asid, user := t.level == .u, vbase := va - va % 2 ^ x.size, x := x })
    | r => r

/-- R317: removes the entries that a condition selects from every TLB of the package, and every walk-cache entry of the guest (a cache
may lose more than the instruction names). -/
def tlbRemove (s : State) (sel : TlbEntry → Bool) (vmid : Option (BitVec 8)) : State :=
  { s with mem := { s.mem with
    tlb := s.mem.tlb.filter (fun e => !sel e)
    walk := s.mem.walk.filter (fun w => match vmid with | some v => w.vmid != v | none => false)
    tables := s.mem.tables.filter (fun x => match vmid with | some v => x.vmid != v | none => false) } }

/-- Two ranges of bytes meet. -/
def rangesMeet (a alen b blen : Nat) : Bool := decide (a < b + blen) && decide (b < a + alen)

end Sys2Proof.Machine
end

