-- ==== Sys2Proof/Machine/Ops.lean ====
section
/-! DEFINITION. Shared operations: waking (R261, R263), record queues (R361, R362, R370), traps (R368 to R371), the issue and boundary of
clauses (R34, R183), event counters (R67, R257, R50), rendezvous (R211) and completion flags (R65). -/

namespace Sys2Proof.Machine

/-- The outcome of a step of the package. -/
abbrev Out := Host.Outcome State Fault Refusal

/-! ### Strands -/

/-- The state of a lane. -/
def laneState (ag : Agent) (l : Nat) : LaneState := ag.lanes.getD l .exited

/-- Sets the state of a lane. -/
def setLane (ag : Agent) (l : Nat) (x : LaneState) : Agent := { ag with lanes := ag.lanes.set l x }

/-- The lanes in a state. -/
def lanesIn (ag : Agent) (p : LaneState → Bool) : LaneSet := laneSet (allLanes.filter (fun l => decide (l < ag.lanes.length) && p (laneState ag l)))

/-- The eligible strands (R31). -/
def eligible (ag : Agent) : LaneSet := lanesIn ag (fun x => x == .ready)

/-- The strands that have exited. -/
def exitedLanes (ag : Agent) : LaneSet := lanesIn ag (fun x => x == .exited)

/-- Every strand has exited (R212). -/
def allExited (ag : Agent) : Bool := ag.lanes.all (fun x => x == .exited)

/-- R31: a strand falls asleep; one that is parked does so once it has been replayed (R38). -/
def sleepLane (ag : Agent) (l : Nat) (why : Sleep) : Agent :=
  match laneState ag l with
  | .parked _ => setLane ag l (.parked (.sleeping why))
  | .exited => ag
  | _ => setLane ag l (.sleeping why)

/-- R212: a strand exits; one that is parked does so once it has been replayed (R38). -/
def exitLane (ag : Agent) (l : Nat) : Agent :=
  match laneState ag l with
  | .parked _ => setLane ag l (.parked .exited)
  | _ => setLane ag l .exited

/-- R31: the sleep of a strand has ended. -/
def rouse (ag : Agent) (l : Nat) : Agent :=
  match laneState ag l with
  | .sleeping _ => setLane ag l .ready
  | .parked (.sleeping _) => setLane ag l (.parked .ready)
  | _ => ag

/-- R37: a strand parks, keeping the sleep that it was in. An exited strand stays so (R31): its access waits for the replay without it
(DESIGN CHOICE, log entry 40). -/
def parkLane (ag : Agent) (l : Nat) : Agent :=
  match laneState ag l with
  | .ready => setLane ag l (.parked .ready)
  | .sleeping w => setLane ag l (.parked (.sleeping w))
  | .exited => ag
  | .parked _ => ag

/-- R39: a strand's replay list has been performed. -/
def unparkLane (ag : Agent) (l : Nat) : Agent :=
  match laneState ag l with
  | .parked .ready => setLane ag l .ready
  | .parked (.sleeping w) => setLane ag l (.sleeping w)
  | .parked .exited => setLane ag l .exited
  | _ => ag

/-- Whether a strand is parked. -/
def isParked (ag : Agent) (l : Nat) : Bool := match laneState ag l with
  | .parked _ => true
  | _ => false

/-- The sleep of a strand, parked or not. -/
def sleepOf (ag : Agent) (l : Nat) : Option Sleep := match laneState ag l with
  | .sleeping w => some w
  | .parked (.sleeping w) => some w
  | _ => none

/-- R31, R260: a sleeping lane becomes Ready. -/
def wakeLane (s : State) (a l : Nat) : State := modAgent s a (fun ag => rouse ag l)

/-! ### Wait and wake -/

/-- A hart is past an instruction: the pc after it, and one more in `minstret` unless `mcountinhibit` holds it. -/
def goesTo (x : Hart) (pc : DWord) : Hart :=
  { x with pc := pc, run := .running, instret := if (sget x.csrs 0x320).getLsbD 2 then x.instret else x.instret + 1 }

/-- A waiter leaves the table: its lane is Ready, its hart runs on with a return value, or its packet tests again (R260, R267, R334). -/
def wakeWaiter (s : State) (w : WaitEntry) (ret : Nat) : State :=
  let s1 := { s with hub := { s.hub with waiters := s.hub.waiters.erase w } }
  match w.who with
  | .lane a l => wakeLane s1 a l
  | .packet _ _ => s1
  | .hart h =>
    match aget s1.harts h with
    | some x =>
      let rd := x.wrd.toNat
      let x1 := goesTo { x with x := if rd == 0 then x.x else sset x.x rd (BitVec.ofNat 64 ret) } (x.pc + 4)
      { s1 with harts := aset s1.harts h x1 }
    | none => s1

/-- R263: a write of the hub wakes every waiter whose test read the same aligned 8-byte word, oldest first. -/
def wakeSpa (s : State) (spa : Nat) : State :=
  (s.hub.waiters.filter (fun w => w.spa / 8 == spa / 8)).foldl (fun s w => wakeWaiter s w 1) s

/-- R259: the waiters of a key. -/
def waitersOf (s : State) (va : DWord) (vmid : BitVec 8) (asid : BitVec 16) : List WaitEntry :=
  s.hub.waiters.filter (fun w => w.va == va && w.vmid == vmid && w.asid == asid)

/-- R261: up to `n` of a key's waiters become Ready, oldest first, or all when `n` is 0; how many were woken. -/
def wakeKey (s : State) (va : DWord) (vmid : BitVec 8) (asid : BitVec 16) (n : Nat) : Nat × State :=
  let l := waitersOf s va vmid asid
  let k := if n == 0 then l else l.take n
  (k.length, k.foldl (fun s w => wakeWaiter s w 1) s)

/-- R259: whether a key has an entry or a free one is left. -/
def keyFree (s : State) (va : DWord) (vmid : BitVec 8) (asid : BitVec 16) : Bool :=
  let keys := (s.hub.waiters.map (fun w => (w.va, w.vmid, w.asid))).dedup
  keys.contains (va, vmid, asid) || decide (keys.length < Config.waitKeys)

/-! ### Record queues -/

/-- The context through whose registers and stage 2 a record queue is reached (R309, R312, R370). -/
def recCtx (s : State) : RecQueue → Nat
  | .guestFault v =>
    match s.hub.ctxs.filter (fun p => p.2.vmid.toNat == v && p.2.faultq != 0) with
    | p :: _ => p.1
    | [] => 0
  | .trap c => c
  | _ => 0

/-- The base of a record queue (R361, R370), 0 for none. -/
def recBase (s : State) (q : RecQueue) : Nat :=
  match q with
  | .guestFault v =>
    match s.hub.ctxs.filter (fun p => p.2.vmid.toNat == v && p.2.faultq != 0) with
    | p :: _ => p.2.faultq.toNat
    | [] => 0
  | .hypFault => s.hub.faultqh.toNat
  | .trap c => (ctxOf s c).trapq.toNat
  | .hypTrap => (ctxOf s 0).trapq.toNat
  | .completion _ => 0

/-- The place of an address of a record queue: through the guest's stage 2, or system-physical for the hypervisor's fault queue (R312). -/
def recPlace (s : State) (q : RecQueue) (addr : Nat) : Option (Nat × Nat) × State :=
  match q with
  | .hypFault => (some (addr % 2 ^ 52, 0), s)
  | _ =>
    match gpaXlat s (spaceOf s (recCtx s q) .s) addr .write with
    | (.ok p, s1) => (some p, s1)
    | (.error _, s1) => (none, s1)

/-- A record of a fault group has gone out (R363). -/
def markPosted (s : State) (g : Option Nat) : State :=
  match g with
  | none => s
  | some id => { s with hub := { s.hub with groups := s.hub.groups.map (fun x => if x.id == id then { x with posted := true } else x) } }

/-- The store of a record queue. -/
def recStore (s : State) (q : RecQueue) : RecStore :=
  match s.hub.recs.filter (fun x => x.queue == q) with
  | x :: _ => x
  | [] => { queue := q, rdpos := 0, held := [] }

/-- Replaces the store of a record queue. -/
def putRecStore (s : State) (x : RecStore) : State :=
  { s with hub := { s.hub with recs := s.hub.recs.map (fun y => if y.queue == x.queue then x else y) } }

/-- R400: one of a guest's statistics rises. -/
def bumpStat (s : State) (vmid k n : Nat) : State :=
  let key := vmid * 16 + k
  { s with plat := { s.plat with stats := sset s.plat.stats key (sget s.plat.stats key + BitVec.ofNat 64 n) } }

/-- The queues of the fault-queue manager (R309, R361). -/
def isFaultQueue : RecQueue → Bool
  | .guestFault _ => true
  | .hypFault => true
  | _ => false

/-- R400: MFAULT and MREQ count the records of types 3 and 4 that have been posted. -/
def countPosted (s : State) (q : RecQueue) (r : BitVec 512) : State :=
  match isFaultQueue q, nbits r.toNat 0 8 with
  | true, 3 => bumpStat s (nbits r.toNat 32 8) 6 1
  | true, 4 => bumpStat s (nbits r.toNat 32 8) 7 1
  | _, _ => s

/-- The hub reaches a place now: its page is not frozen and no move has closed its line (R390, R398). -/
def hubGo (s : State) (spa len : Nat) : Bool := routeOf s 3 spa len == .go

/-- A read of the hub waits: its page is frozen, or a move has closed its line (R390, R398). -/
def hubWaits (s : State) (spa len : Nat) : Bool := match routeOf s 3 spa len with
  | .frozen => true
  | .closed => true
  | _ => false

/-- A write of the hub is made: coherently, and it wakes who waits on it if it is to (R263, R362). -/
def hubMake (s : State) (key spa : Nat) (wake : Bool) (bs : List Byte) : State :=
  if wake then wakeSpa (hubWrite s key spa bs) spa else hubWrite s key spa bs

/-- R390, R398: a write of the hub: it is performed, or takes an entry of the hold window if a move has closed its line, to be performed in
arrival order. It waits, and nothing is done, while its page is frozen or the window is full. -/
def hubPut (s : State) (key spa : Nat) (wake : Bool) (bs : List Byte) : Bool × State :=
  match routeOf s 3 spa bs.length with
  | .go => (true, hubMake s key spa wake bs)
  | .closed =>
    let (n, s1) := freshId s
    let s2 := holdAccess s1 (.hub n key spa wake bs) true [(spa, bs.length)]
    if heldWrites s2 == heldWrites s1 then (false, s) else (true, s2)
  | _ => (false, s)

/-- A write of the hub waits in the hold window of a move (R398). -/
def hubHeld (s : State) : Bool := s.mem.forwards.any (fun f => f.held.any (fun h => match h.1 with
  | .hub _ _ _ _ _ => true
  | _ => false))

/-- The hub's own writes that wait are made in order, as far as their pages let them (R390, R398); a page that the table does not describe takes
nothing (R386). -/
def putsGo : List HubWrite → State → State
  | [], s => { s with hub := { s.hub with puts := [] } }
  | p :: t, s =>
    if !pageValid s (p.spa / 2 ^ 19) then putsGo t s
    else if hubHeld s then { s with hub := { s.hub with puts := p :: t } }
    else match hubPut s p.key p.spa p.wake p.data with
      | (true, s1) => putsGo t s1
      | (false, _) => { s with hub := { s.hub with puts := p :: t } }

/-- A write of the hub on its own account is made behind those that wait. -/
def sigPut (s : State) (p : HubWrite) : State := putsGo (s.hub.puts ++ [p]) s

/-- A write of the hub on its own account to a system-physical address that a register holds. -/
def sigWrite (s : State) (spa : Nat) (bs : List Byte) : State := sigPut s { key := 0, spa := spa, wake := false, data := bs }

/-- R361, R362: posts the oldest held record of a queue if there is one and the ring has room: the record, then WRPOS, then the wake. -/
def postOne (s : State) (q : RecQueue) : State :=
  let st := recStore s q
  match st.held with
  | [] => s
  | (r, g) :: _ =>
    let base := recBase s q
    if base == 0 || hubHeld s || !s.hub.puts.isEmpty then s
    else
      match recPlace s q base with
      | (none, s1) => s1
      | (some (ctl, key), s1) =>
        if !hubGo s1 ctl 12 then s1 else
        let (bs, s2) := hubRead s1 key ctl 12
        let wr := ofBytes (bs.take 4)
        let rd := ofBytes ((bs.drop 4).take 4)
        let logn := ofBytes ((bs.drop 8).take 1)
        let old := st.rdpos.toNat
        let rd1 := if (rd + 2 ^ 32 - old) % 2 ^ 32 ≤ (wr + 2 ^ 32 - old) % 2 ^ 32 then rd else old
        if logn < 4 || 16 < logn || (wr + 2 ^ 32 - rd1) % 2 ^ 32 == 2 ^ logn then
          putRecStore s2 { recStore s2 q with rdpos := BitVec.ofNat 32 rd1 }
        else
          match recPlace s2 q (base + 64 * (1 + wr % 2 ^ logn)) with
          | (none, s3) => s3
          | (some (slot, key2), s3) =>
            match hubPut s3 key2 slot false (toBytes r.toNat 64) with
            | (false, _) => s3
            | (true, s4) =>
              let st4 := recStore s4 q
              let s5 := countPosted (markPosted (putRecStore s4 { st4 with rdpos := BitVec.ofNat 32 rd1, held := st4.held.drop 1 }) g) q r
              sigPut s5 { key := key, spa := ctl, wake := true, data := toBytes ((wr + 1) % 2 ^ 32) 4 }

/-- Posts up to `n` held records of a queue. -/
def postN (s : State) (q : RecQueue) : Nat → State
  | 0 => s
  | n + 1 => postN (postOne s q) q n

/-- R361: records that the fault-queue manager holds, for all queues together. -/
def heldFaults (s : State) : Nat := s.hub.recs.foldl (fun n q => if isFaultQueue q.queue then n + q.held.length else n) 0

/-- R361: the manager holds the record of a fault that a walker of a die has found; while its store is full the fault is kept in the
walker. -/
def holdFault (s : State) (die : Nat) (q : RecQueue) (r : BitVec 512) (g : Option Nat) : State :=
  if heldFaults s < Config.heldRecords && s.hub.kept.isEmpty then holdRecord s q r g
  else { s with hub := { s.hub with kept := s.hub.kept ++ [{ die := die, queue := q, bits := r, group := g }] } }

/-- R361: faults kept in walkers enter the store, oldest first, while it has room. -/
def takeKept (s : State) : List KeptFault → State
  | [] => s
  | k :: t =>
    if heldFaults s < Config.heldRecords then
      takeKept (holdRecord { s with hub := { s.hub with kept := s.hub.kept.erase k } } k.queue k.bits k.group) t
    else s

/-- FAULT_RECORD_POST, TRAP_RECORD_POST: the manager posts what a queue has room for (R361, R362, R370). -/
def postQueue (s : State) (q : RecQueue) : State :=
  let s1 := postN s q (recStore s q).held.length
  takeKept s1 s1.hub.kept

/-- Holds a record and posts what the queue has room for. -/
def postRecord (s : State) (q : RecQueue) (r : BitVec 512) (g : Option Nat) : State := postQueue (holdRecord s q r g) q

/-! ### Traps -/

/-- The trap codes (R368). -/
inductive TrapCode where
  | illegal | clauseFormat | regOverlap | regBound | misaligned | divideByZero | privilege | ladleForbidden | ladleBudget
  | userTrap | breakpoint | accessViolation | translationConflict | peerWindow | resource | uncorrectable
deriving DecidableEq, Repr

/-- R368: the 8-bit code. -/
def TrapCode.num : TrapCode → Nat
  | .illegal => 0x01
  | .clauseFormat => 0x02
  | .regOverlap => 0x03
  | .regBound => 0x04
  | .misaligned => 0x05
  | .divideByZero => 0x06
  | .privilege => 0x07
  | .ladleForbidden => 0x08
  | .ladleBudget => 0x09
  | .userTrap => 0x0A
  | .breakpoint => 0x0B
  | .accessViolation => 0x10
  | .translationConflict => 0x11
  | .peerWindow => 0x12
  | .resource => 0x13
  | .uncorrectable => 0x20

/-- R306: the code of a level. -/
def levelNum : Level → Nat
  | .u => 0
  | .s => 1
  | .h => 2
  | .f => 3

/-- R306: one level reaches another. -/
def levelGe (a b : Level) : Bool := decide (levelNum b ≤ levelNum a)

/-- What a trap is, besides the agent that takes it (R369, R371); `eng` says that it concerns an engine command that is not in its queue. -/
structure TrapReq where
  code  : TrapCode
  kind  : Nat
  word  : Nat
  hdr   : DWord
  group : LaneSet
  lanes : LaneSet
  addr  : Nat
  info  : Nat
  op    : Nat
  cmd   : Option Nat
  burst : Nat
  esrc  : Nat
  count : Nat
  fetch : Bool
  eng   : Bool := false
deriving DecidableEq, Repr

/-- A trap with nothing but its code, kind and clause. -/
def TrapReq.of (code : TrapCode) (kind word : Nat) (hdr : DWord) (group lanes : LaneSet) : TrapReq :=
  { code := code, kind := kind, word := word, hdr := hdr, group := group, lanes := lanes, addr := 0, info := 0, op := 0, cmd := none,
    burst := 0, esrc := 0, count := 0, fetch := false }

/-- R75: `cohortid` as records name an issuer: its index, 32 + slot for a ladle. -/
def slotOf (ag : Agent) : Nat := match ag.kind with
  | .ladle => 32 + ag.index
  | _ => ag.index

/-- The linear block id of an agent (R75). -/
def linearOf (s : State) (ag : Agent) : Nat := match aget s.blocks ag.block with
  | some b => b.linear
  | none => 0

/-- R371: the trap record of a request by an agent. -/
def trapRecord (s : State) (ag : Agent) (id : Nat) (t : TrapReq) : BitVec 512 :=
  let c := ctxOf s ag.ctx
  let hub := ag.kind == .hubThread
  mkRec [(448, 64, if hub then 0 else linearOf s ag), (416, 32, t.group.toNat), (384, 32, t.burst), (320, 56, t.hdr.toNat),
    (288, 32, t.lanes.toNat), (280, 8, slotOf ag), (272, 8, if hub then 0xFF else ag.core), (256, 6, agentQueue s ag), (192, 32, id),
    (160, 4, t.esrc), (144, 10, t.op), (128, 16, t.info), (64, 56, t.addr), (40, 16, c.asid.toNat), (32, 8, c.vmid.toNat),
    (20, 12, ag.ctx), (18, 2, levelNum ag.level), (16, 2, t.kind), (12, 4, t.word), (11, 1, if t.cmd.isSome || t.eng then 1 else 0),
    (10, 1, if ag.kind == .ladle then 1 else 0), (0, 8, t.code.num)]

/-- R309, R370, R444: the trap queue that takes an agent's records. That of context 0 is the queue of H. -/
def trapQueueOf (ag : Agent) : RecQueue := match ag.level with
  | .u => if ag.ctx == 0 then .hypTrap else .trap ag.ctx
  | _ => .hypTrap

/-- R440: a switch of hub firmware ends without a commit: every parked thread resumes under the old image. -/
def fwAbort (s : State) (result : BitVec 8) : State :=
  { s with agents := s.agents.map (fun a => (a.1, { a.2 with hub := { a.2.hub with parked := false } }))
           plat := { s.plat with fwState := 0, fwResult := result } }

/-- R440: a trap of a hub thread ends a switch that is parking threads. -/
def fwTrap (s : State) (ag : Agent) : State := if ag.kind == .hubThread && s.plat.fwState == 2 then fwAbort s 3 else s

/-- TRAP_RECORD_POST, HUB_THREAD_TRAP (R54, R369, R370, R444): a trap posts one record and stops its agent until the record is acted
on. Its id. -/
def postTrap (s : State) (a : Nat) (t : TrapReq) : Nat × State :=
  match aget s.agents a with
  | none => (0, s)
  | some ag =>
    let (id, s1) := recordId s
    let info : TrapInfo :=
      { id := id, ctx := ag.ctx, agent := a, level := ag.level, code := BitVec.ofNat 8 t.code.num, kind := t.kind, word := t.word,
        hdr := t.hdr, group := t.group, count := t.count, op := t.op, cmd := t.cmd, fetch := t.fetch }
    let s2 := putAgent s1 a { ag with traps := ag.traps ++ [id] }
    let s3 := { s2 with hub := { s2.hub with traps := s2.hub.traps ++ [info] } }
    (id, postRecord (fwTrap s3 ag) (trapQueueOf ag) (trapRecord s ag id t) none)

/-! ### Privileged registers (R312, R313) -/

/-- Replaces a context's registers. -/
def putCtx (s : State) (c : Nat) (x : Ctx) : State := { s with hub := { s.hub with ctxs := aset s.hub.ctxs c x } }

/-- The context that a guest and an address space identify (R310); none for identifiers that no context holds. -/
def ctxOfIds (s : State) (vmid : BitVec 8) (asid : BitVec 16) : Option Nat :=
  (s.hub.ctxs.find? (fun p => p.2.vmid == vmid && p.2.asid == asid)).map (fun p => p.1)

/-- The context of a waiter (R259). -/
def waiterCtx (s : State) (w : WaitEntry) : Nat := match w.who with
  | .lane a _ => (aget s.agents a).elim 4096 (fun ag => ag.ctx)
  | .hart _ => (ctxOfIds s w.vmid w.asid).getD 4096
  | .packet q _ => nbits (queueOf s q).cfg.toNat 34 12

/-- R260, R267, R313: every waiter of a context makes a spurious return; that of a hart reads 2. -/
def withdrawWaiters (s : State) (ctx : Nat) : State :=
  (s.hub.waiters.filter (fun w => waiterCtx s w == ctx)).foldl (fun s w => wakeWaiter s w 2) s

/-- A table root: bits [51:15] and EN (R348). -/
def rootBits (v : DWord) : DWord := v &&& 0x000FFFFFFFFF8001

/-- R150, R312, R313: a write of one of registers 0x02 to 0x0A of a context. -/
def ctxRegWrite (s : State) (c n : Nat) (v : DWord) : State :=
  let x := ctxOf s c
  match n with
  | 0x02 => putCtx s c { x with s1root := rootBits v }
  | 0x03 => putCtx s c { x with s2root := rootBits v }
  | 0x04 => putCtx s c { x with trapq := v }
  | 0x05 => putCtx s c { x with faultq := v }
  | 0x06 => { s with hub := { s.hub with faultqh := v } }
  | 0x07 => putCtx s c { x with savebase := v }
  | 0x08 => putCtx s c { x with pinquota := v &&& 0xFFFFFFFF }
  | 0x09 => putCtx s c { x with hintbud := v &&& 0x0000FFFFFFFFFFFF, balance := nbits v.toNat 0 32 }
  | 0x0A => withdrawWaiters s (nbits v.toNat 0 12)
  | _ => s

/-- The context that an agent's privileged registers name: a hub thread selects it (R312). -/
def privCtx (ag : Agent) : Nat := if ag.kind == .hubThread then ag.hub.ctxsel.toNat else ag.ctx

/-- A privileged write of an agent takes effect. -/
def privWrite (s : State) (a : Nat) (n : Nat) (v : DWord) : State :=
  if n == 0x11 then modAgent s a (fun ag => { ag with hub := { ag.hub with ctxsel := v.setWidth 12 } })
  else match aget s.agents a with
    | some ag => ctxRegWrite s (privCtx ag) n v
    | none => s

/-- R313: the privileged writes of a clause, in program order. -/
def privWrites (s : State) (a : Nat) (ps : List Producer) : State :=
  ps.foldl (fun s p => match p.tgt with
    | .priv n => privWrite s a n p.val
    | _ => s) s

/-! ### Clauses -/

/-- The fall-through address of a clause (R28, R29). -/
def fallThrough (i : Issue) : DWord := i.hdr + BitVec.ofNat 64 (8 * (i.words.length + 1))

/-- CLAUSE_BOUNDARY (R29, R183, R208): fixed-latency results are complete, each lane of the group takes its target or the fall-through
address, and the agent is free to be picked again. -/
def boundary (s : State) (a : Nat) (ag : Agent) (i : Issue) : State :=
  let g := commit ag.regs i.prods
  let pcv := (lanesOf i.group).foldl (fun m l => sset m l ((aget i.jumps l).getD (fallThrough i))) g.pcv
  let s1 := putAgent s a { ag with regs := { g with pcv := pcv }, issue := none, yielded := ag.yielded || i.yields }
  privWrites { s1 with turn := .idle, cycles := s1.cycles + (boundaryCycle i - i.cur) } a i.prods

/-- R177, R369: a word that fails its checks writes nothing: the words before it keep their effects, the group stays at the header, the
agent stops, and one record is posted. -/
def issueTrap (s : State) (e : Env) (t : TrapReq) : State :=
  let s1 := putAgent s e.aid { e.ag with regs := commit e.ag.regs e.iss.prods, issue := none }
  privWrites { (postTrap s1 e.aid t).2 with turn := .idle } e.aid e.iss.prods

/-- The opcode of a word in issue, for a trap record. -/
def wordOp (e : Env) : Nat := match e.iss.words[e.iss.idx]? with
  | some w => (opOf w).toNat
  | none => 0

/-- A trap of kind 1 at this word (R177). -/
def issueReq (e : Env) (code : TrapCode) (lanes : LaneSet) (addr : Nat) : TrapReq :=
  { TrapReq.of code 1 (e.iss.idx + 1) e.iss.hdr e.iss.group lanes with addr := addr, op := wordOp e, count := e.iss.words.length }

/-- The meaning of a word with the issuing agent at hand; a word runs only in a clause. -/
def onIssue (s : State) (h : Pfx) (isF64 : Bool) (f : Env → Out) : Out :=
  match issuing s with
  | none => .fault .noIssuer
  | some (a, ag, iss) => f (envOf h isF64 a ag iss)

/-- A fixed-latency word whose producers are computed from what it reads (R180). -/
def fixedWord (s : State) (h : Pfx) (isF64 : Bool) (op : Nat) (f : Env → List Producer) : Out :=
  onIssue s h isF64 (fun e => .next (finish s e (wordCredits op isF64 (lanesOf e.pass).length) (f e)))

/-- A hold (R32, R181): nothing of the word happens, nominal time stands still, and others may issue. -/
def holdWord (s : State) : State := { s with turn := .idle, cycles := s.cycles + 1 }

/-! ### Event counters -/

/-- The value of an event counter of a block (R67). -/
def ecGet (s : State) (b n : Nat) : Word := match aget s.blocks b with
  | some x => sget x.ec n
  | none => 0

/-- R257: a lane's test of a counter at `quad` scope or wider holds at a value. -/
def ecMeets (ag : Agent) (n : Nat) (v : Int) (l : Nat) : Bool := match sleepOf ag l with
  | some (.ecwait c thr sc) => c == n && decide (v ≤ thr.toInt) && decide (2 ≤ sc)
  | _ => false

/-- R257: lanes whose counter test now holds become Ready: an acquire (R130). -/
def ecWake (s : State) (b n : Nat) : State :=
  let v := (ecGet s b n).toInt
  let wake (ag : Agent) (l : Nat) : Agent := match sleepOf ag l with
    | some (.ecwait c thr _) => if c == n && decide (v ≤ thr.toInt) then rouse ag l else ag
    | _ => ag
  let one (p : Nat × Agent) : Nat × Agent :=
    if p.2.block == b && p.2.kind != .hubThread then (p.1, allLanes.foldl wake p.2) else p
  let s1 := acquireBy s 2 (fun _ ag => ag.block == b && ag.kind != .hubThread && allLanes.any (ecMeets ag n v))
  { s1 with agents := s1.agents.map one }

/-- DEFERRED_LAUNCH_READY (R50): launches bound to a counter become ready when it reads zero or below, as a signed value. -/
def ecReady (s : State) (b n : Nat) : State :=
  if (ecGet s b n).toInt ≤ 0 then
    { s with hub := { s.hub with defers := s.hub.defers.map (fun d => if d.block == b && d.ec == n then { d with ready := true } else d) } }
  else s

/-- An update of an event counter (R67, R256): it is stored, waiting strands test again, deferred launches may become ready. -/
def ecSet (s : State) (b n : Nat) (v : Word) : State :=
  ecReady (ecWake (modBlock s b (fun x => { x with ec := sset x.ec n v })) b n) b n

/-- R271, R280: the decrement that a completion makes; 255 names no counter. -/
def ecDec (s : State) (b n : Nat) : State := if n == 255 then s else ecSet s b n (ecGet s b n - 1)

/-! ### Completion flags -/

/-- The outstanding count of a flag (R65); a flag is set when it is 0. -/
def flagCount (ag : Agent) (f : Nat) : Nat := agetD ag.flags f 0

/-- R65: an instruction that names a flag is outstanding; 15 names none. -/
def flagUp (s : State) (a f : Nat) : State :=
  if f == 15 then s else modAgent s a (fun ag => { ag with flags := aset ag.flags f (flagCount ag f + 1) })

/-- R65: an instruction that names a flag has completed. -/
def flagDown (s : State) (a f : Nat) : State :=
  if f == 15 then s else modAgent s a (fun ag => { ag with flags := aset ag.flags f (flagCount ag f - 1) })

/-- R65: an instruction that would raise a count to 16 holds the cohort. -/
def flagFull (ag : Agent) (f : Nat) : Bool := f != 15 && decide (15 ≤ flagCount ag f)

/-! ### Rendezvous (R211) -/

/-- The strands that sleep at a rendezvous address. -/
def atRendezvous (ag : Agent) (addr : DWord) : LaneSet :=
  lanesIn ag (fun x => match x with | .sleeping (.reconv a _) => a == addr | _ => false)

/-- The member set of a sleeping strand. -/
def membersOf (ag : Agent) (l : Nat) : LaneSet := match laneState ag l with
  | .sleeping (.reconv _ m) => m
  | _ => 0

/-- R211: one narrowing of the candidate set: a strand stays only if every member that has not exited is in the set. -/
def narrowSet (ag : Agent) (w : LaneSet) : LaneSet :=
  laneSet ((lanesOf w).filter (fun l => (membersOf ag l &&& ~~~(exitedLanes ag)) &&& ~~~w == 0))

/-- R211: the largest such subset: 32 narrowings reach it, for each but the last removes a strand. -/
def rendezvousSet (ag : Agent) (w : LaneSet) : Nat → LaneSet
  | 0 => w
  | n + 1 => rendezvousSet ag (narrowSet ag w) n

/-- The rendezvous addresses at which strands of an agent sleep. -/
def rendezvousAddrs (ag : Agent) : List DWord :=
  (allLanes.filterMap (fun l => match laneState ag l with | .sleeping (.reconv a _) => some a | _ => none)).dedup

/-- R211: evaluates every rendezvous address of an agent. -/
def reconvene (ag : Agent) : Agent :=
  (rendezvousAddrs ag).foldl (fun ag a => (lanesOf (rendezvousSet ag (atRendezvous ag a) 32)).foldl rouse ag) ag

end Sys2Proof.Machine
end

