-- ==== Sys2Proof/Machine/Grid.lean ====
section
/-! DEFINITION. What an agent can read of its place: the grid of its launch (R44, R45, R75, R333), its core (R15, R16), its clock (R76) and
the matrix status of its block (R74). -/

namespace Sys2Proof.Machine

/-- A field of a packet or record. -/
def pfld (p : BitVec 512) (lo n : Nat) : Nat := nbits p.toNat lo n

/-- R333: grid extent x. -/
def pktNx (p : BitVec 512) : Nat := pfld p 256 31
/-- R333: grid extent y. -/
def pktNy (p : BitVec 512) : Nat := pfld p 288 16
/-- R333: grid extent z. -/
def pktNz (p : BitVec 512) : Nat := pfld p 304 16
/-- R75: blocks of a launch packet's grid. -/
def pktBlocks (p : BitVec 512) : Nat := pktNx p * pktNy p * pktNz p

/-- The launch of a block. -/
def launchOf (s : State) (b : Block) : Option Launch := aget s.hub.launches b.launch

/-- The packet of the child launch that a block belongs to (R49). -/
def packetOf (s : State) (b : Block) : BitVec 512 :=
  match launchOf s b with
  | some l => match l.children[b.child]? with
    | some c => c.2
    | none => 0
  | none => 0

/-- The block of an agent. -/
def blockOf (s : State) (ag : Agent) : Option Block := aget s.blocks ag.block

/-- R76: the counter of a core, as a context reads it. -/
def clockOf (s : State) (core ctx cycle : Nat) : DWord :=
  (Config.clkStart core).setWidth 64 + BitVec.ofNat 64 cycle + (ctxOf s ctx).clkOfs

/-- An `MMA` or a `CBLD` (R74). -/
def countsQlen : Instr → Bool
  | .mma _ _ => true
  | .cbld _ _ => true
  | _ => false

/-- R74: QLEN, the block's `MMA` and `CBLD` commands not yet completed. -/
def qlenOf (s : State) (b : Nat) : Nat :=
  (s.cmds.filter (fun c => c.2.block == b && countsQlen c.2.instr)).length

/-- R74: `mst` as it reads. -/
def mstOf (s : State) (b : Nat) : Nat := match aget s.blocks b with
  | some x => x.mst.toNat + 256 * min 8 (qlenOf s b)
  | none => 0

/-- R180, R206: a status register of the block as a word reads it: the value before the first `MOVRS` of the clause that is not yet visible to
it, otherwise the value that stands. -/
def blkView (e : Env) (n live : Nat) : Nat := match e.iss.prods.find? (fun p => p.tgt == .blk n && decide (e.iss.cur < p.ready)) with
  | some p => p.val.toNat
  | none => live

/-- R75, R383: the value of a special register other than `laneid`; a number that is not of the table gives 0 (it never issues: R174). -/
def special (s : State) (e : Env) (n : Nat) : DWord :=
  let ag := e.ag
  let b := blockOf s ag
  let p := match b with | some x => packetOf s x | none => 0
  let lin := match b with | some x => x.linear | none => 0
  match n with
  | 0x01 => BitVec.ofNat 64 (slotOf ag)
  | 0x02 => BitVec.ofNat 64 lin
  | 0x03 => BitVec.ofNat 64 (lin % pktNx p)
  | 0x04 => BitVec.ofNat 64 (lin / pktNx p % pktNy p)
  | 0x05 => BitVec.ofNat 64 (lin / pktNx p / pktNy p)
  | 0x06 => BitVec.ofNat 64 ag.home
  | 0x07 => BitVec.ofNat 64 (quadOf ag.home)
  | 0x08 => BitVec.ofNat 64 (dieOf ag.home)
  | 0x09 => BitVec.ofNat 64 (pktBlocks p)
  | 0x0A => BitVec.ofNat 64 (pktNx p)
  | 0x0B => BitVec.ofNat 64 (pktNy p)
  | 0x0C => BitVec.ofNat 64 (pktNz p)
  | 0x0D =>
    let start := match ag.issue with | some i => i.cur | none => e.iss.cur
    clockOf s ag.core ag.ctx (s.cycles + (e.iss.cur - start))
  | 0x0E => (packFlags (rdF e)).setWidth 64
  | 0x0F => BitVec.ofNat 64 (blkView e 0x0F (mstOf s ag.block))
  | 0x10 => match b with | some x => BitVec.ofNat 64 (blkView e 0x10 x.bconf.toNat) | none => 0
  | 0x11 => (ag.ladle.bc.getD 0 0).setWidth 64
  | 0x12 => (ag.ladle.bc.getD 1 0).setWidth 64
  | 0x13 => (ag.ladle.bc.getD 2 0).setWidth 64
  | 0x14 => (ag.ladle.bc.getD 3 0).setWidth 64
  | 0x15 => BitVec.ofNat 64 ag.alloc
  | _ => 0

end Sys2Proof.Machine
end

