-- ==== Sys2Proof/Machine/Scratch.lean ====
section
/-! DEFINITION. The generic address space (R115, R116, R42), the scratchpad (R117), publications and the update buffer (R138, R139), and
what a release carries out (R130, R133, R139). -/

namespace Sys2Proof.Machine

/-- What a virtual address decodes to (R115). -/
inductive Place where
  | mem
  | spm (ofs : Nat)
  | peer (core ofs : Nat)
  | badAccess
  | badPeer
deriving DecidableEq, Repr

/-- R115, R169: the decode of an address; bits 63 to 56 must be zero. -/
def decodeAddr (a : Nat) : Place :=
  if 2 ^ 56 ≤ a then .badAccess
  else if 0x00FE000000000000 ≤ a then
    (if a < 0x00FE000000100000 then .spm (a - 0x00FE000000000000)
     else if a < 0x00FF000000000000 then .badAccess else .mem)
  else if 0x00FD000000000000 ≤ a then
    (let o := a - 0x00FD000000000000
     if o < 0x5000000 then .peer (o / 2 ^ 20) (o % 2 ^ 20) else .badPeer)
  else .mem

/-- An address in the local or peer window. -/
def isWindow (a : Nat) : Bool := match decodeAddr a with
  | .spm _ => true
  | .peer _ _ => true
  | _ => false

/-- R44: two blocks of one team: the same launch of a merged grid, and the same team number, in a launch with teams. -/
def sameLaunch (a b : Block) : Bool := a.launch == b.launch && a.child == b.child

/-- R333: the team size of a block's launch. -/
def teamSize (s : State) (b : Block) : Nat := pfld (packetOf s b) 12 2 + 1

/-- R44: two blocks are of one team. -/
def sameTeam (s : State) (a b : Block) : Bool := sameLaunch a b && a.team == b.team && decide (2 ≤ teamSize s a)

/-- R116: the peer block of a block on a core, if exactly one qualifies. -/
def peerOf (s : State) (bid core : Nat) : Option Nat :=
  match aget s.blocks bid with
  | none => none
  | some b =>
    if core == b.home then some bid
    else
      let team := s.blocks.filter (fun p => p.2.home == core && sameTeam s b p.2)
      let all := s.blocks.filter (fun p => p.2.home == core && sameLaunch b p.2)
      match (if team.isEmpty then all else team) with
      | [p] => some p.1
      | _ => none

/-- Scratchpad bytes of a block's allocation (R41: units of 4 KiB). -/
def spmSize (s : State) (bid : Nat) : Nat := match aget s.blocks bid with
  | some b => b.needs.scratch * 4096
  | none => 0

/-- R42, R115, R116: the check of the `n` bytes at an address by a block: none is wrong, or the code. -/
def windowCheck (s : State) (bid a n : Nat) : Option TrapCode :=
  match decodeAddr a, decodeAddr (a + n - 1) with
  | .mem, .mem => none
  | .spm o, .spm _ => if o + n ≤ spmSize s bid then none else some .accessViolation
  | .peer g o, .peer g2 _ =>
    (match peerOf s bid g with
     | some p => if g == g2 && o + n ≤ spmSize s p then none else some .peerWindow
     | none => some .peerWindow)
  | .badPeer, _ => some .peerWindow
  | .badAccess, _ => some .accessViolation
  | .peer _ _, _ => some .peerWindow
  | _, .badPeer => some .peerWindow
  | _, _ => some .accessViolation

/-- The block and offset that a window address names. -/
def windowAt (s : State) (bid a : Nat) : Option (Nat × Nat) :=
  match decodeAddr a with
  | .spm o => some (bid, o)
  | .peer g o => (peerOf s bid g).map (fun p => (p, o))
  | _ => none

/-! ### Scratchpad -/

/-- Consecutive scratchpad bytes of a block. -/
def spmRead (s : State) (bid ofs n : Nat) : List Byte := match aget s.blocks bid with
  | some b => sgetN b.spm ofs n
  | none => List.replicate n 0

/-- The subscriptions that cover a byte of a publisher's scratchpad (R138). -/
def subsAt (s : State) (bid ofs : Nat) : List Subscription :=
  s.mem.subs.filter (fun x => x.pblock == bid && !x.ended && decide (x.poff ≤ ofs) && decide (ofs < x.poff + x.len))

/-- The core of a block. -/
def coreOf (s : State) (bid : Nat) : Nat := match aget s.blocks bid with
  | some b => b.core
  | none => 255

/-- R139: the bytes of one entry as one subscriber takes them: offsets in its mirror. -/
def mirrorBytes (x : Subscription) (e : UpdEntry) : List (Nat × Byte) :=
  e.bytes.filterMap (fun p => if x.poff ≤ p.1 && p.1 < x.poff + x.len then some (x.loff + (p.1 - x.poff), p.2) else none)

/-- R138, R139: one entry is sent to every subscriber whose region it touches. -/
def sendEntry (s : State) (e : UpdEntry) : State :=
  (s.mem.subs.filter (fun x => x.pblock == e.block && !x.ended)).foldl (fun s x =>
    let bs := mirrorBytes x e
    if bs.isEmpty then s
    else
      let (id, s1) := freshId s
      let u : Update := { id := id, core := e.core, scrib := x.block, index := x.index, bytes := bs }
      { s1 with mem := { s1.mem with sent := s1.mem.sent ++ [u] } }) s

/-- The queue of a block's launch; 64 for none. -/
def blockQueue (s : State) (bid : Nat) : Nat := match aget s.blocks bid with
  | some b => match aget s.hub.launches b.launch with
    | some l => l.queue
    | none => 64
  | none => 64

/-- R139, R343: the entries that a condition selects are sent as one batch; each draws 4 credits. -/
def sendUpdates (s : State) (sel : UpdEntry → Bool) : State :=
  let out := s.mem.upd.filter sel
  let s1 := { s with mem := { s.mem with upd := s.mem.upd.filter (fun e => !sel e) } }
  out.foldl (fun s e => charge (sendEntry s e) e.core (blockQueue s e.block) 4) s1

/-- R139: a byte written in a published region enters the update buffer of its core: a new entry sends the batch when all are in use. -/
def publishByte (s : State) (bid ofs : Nat) (b : Byte) : State :=
  if (subsAt s bid ofs).isEmpty then s
  else
    let core := coreOf s bid
    let here := fun e : UpdEntry => e.core == core && e.block == bid && e.line == ofs / 128
    if s.mem.upd.any here then
      let put := fun e : UpdEntry => if here e then { e with bytes := aset e.bytes ofs b, since := s.cycles } else e
      { s with mem := { s.mem with upd := s.mem.upd.map put } }
    else
      let mine := fun e : UpdEntry => e.core == core
      let s1 := if (s.mem.upd.filter mine).length < Config.updEntries then s else sendUpdates s mine
      let e : UpdEntry := { core := core, block := bid, line := ofs / 128, bytes := [(ofs, b)], since := s.cycles }
      { s1 with mem := { s1.mem with upd := s1.mem.upd ++ [e] } }

/-- Writes consecutive scratchpad bytes of a block without an update. -/
def spmPut (s : State) (bid ofs : Nat) (bs : List Byte) : State := modBlock s bid (fun b => { b with spm := ssetN b.spm ofs bs })

/-- R138: the updates of a write to published bytes. -/
def publish (s : State) (bid ofs : Nat) : List Byte → State
  | [] => s
  | b :: t => publish (publishByte s bid ofs b) bid (ofs + 1) t

/-- An injected error lies in a range of a block's scratchpad. -/
def errIn (bid ofs n : Nat) (x : HwErr) : Bool := match x.place with
  | .spm b w => b == bid && rangesMeet (w * 8) 8 ofs n
  | .reg _ _ => false

/-- R323, R375: a write stores fresh check bits in the words it touches, and a write of whole 16-byte parts of a scratchpad clears their
poison. -/
def spmHeal (s : State) (bid ofs n : Nat) : State :=
  let gone := wholeParts ofs n
  let s1 := { s with mem := { s.mem with errs := s.mem.errs.filter (fun x => !errIn bid ofs n x) } }
  modBlock s1 bid (fun b => { b with poison := b.poison.filter (fun p => !gone.contains p) })

/-- R323, R374: a read finds the injected errors of its words: one is corrected and counted, or its 16-byte part is poisoned. -/
def spmErrs (s : State) (bid ofs n : Nat) : State :=
  let one := fun (s : State) (x : HwErr) => match x.place, x.unc with
    | .spm b w, true => modBlock s b (fun k => { k with poison := (w / 2) :: k.poison })
    | _, _ => countError s 2
  let found := s.mem.errs.filter (errIn bid ofs n)
  found.foldl one { s with mem := { s.mem with errs := s.mem.errs.filter (fun x => !errIn bid ofs n x) } }

/-- The subscription of a block in an entry of its core's table. -/
def subOf (s : State) (bid index : Nat) : Option Subscription := s.mem.subs.find? (fun x => x.block == bid && x.index == index)

/-- Changes the subscription in an entry of a core's table. -/
def modSub (s : State) (bid index : Nat) (f : Subscription → Subscription) : State :=
  { s with mem := { s.mem with subs := s.mem.subs.map (fun x => if x.block == bid && x.index == index then f x else x) } }

/-- The bytes of an update into the mirror: no update follows from them (R285). -/
def mirrorWrite (s : State) (bid : Nat) (l : List (Nat × Byte)) : State :=
  l.foldl (fun s p => spmHeal (spmPut s bid p.1 [p.2]) bid p.1 1) s

/-- Free bytes (log entry 35). -/
def freeBytes (base n : Nat) : List Byte := (List.range n).map (fun i => Config.freeByte (base + i))

/-- A write of the save area, page by page. -/
def areaWrite (s : State) (spa : Nat) (bs : List Byte) : State :=
  let k := 2 ^ 19 - spa % 2 ^ 19
  if bs.length ≤ k then sigWrite s spa bs else sigWrite (sigWrite s spa (bs.take k)) (spa + k) (bs.drop k)

/-- The cores that a saved context occupied, in rising order: one core record each. -/
def savedCores (x : Saved) : List Nat := (List.range Config.cores).filter (fun c => x.blocks.any (fun b => b.2.core == c))

/-- R381: the offset of core record `k`. -/
def recordAt (k : Nat) : Nat := 0x20000 + k * 0x300000

/-- R312: the save area of a context. -/
def saveBase (s : State) (ctx : Nat) : Nat := (ctxOf s ctx).savebase.toNat

/-- R287, R381: the bytes in the late-update log of a core record of a saved context. -/
def logLength (s : State) (x : Saved) (core : Nat) : Nat :=
  (s.mem.subs.filter (fun y => (aget x.blocks y.block).any (fun b => b.core == core))).foldl (fun n y => n + y.log.length) 0

/-- R287: an update joins the late-update log of a saved subscriber, in the save area, or is lost where the core's log is full. -/
def logUpdate (s : State) (u : Update) : State :=
  match s.hub.saved.find? (fun x => (aget x.blocks u.scrib).isSome) with
  | none => s
  | some x =>
    let core := (aget x.blocks u.scrib).elim 0 (fun b => b.core)
    let n := logLength s x core
    let ofs := recordAt ((savedCores x).idxOf core) + 0x40000 + n
    if n + u.bytes.length ≤ Config.lateLog then
      areaWrite (modSub s u.scrib u.index (fun y => { y with log := y.log ++ u.bytes })) (saveBase s x.ctx + ofs)
        (freeBytes (x.base + ofs) u.bytes.length)
    else modSub s u.scrib u.index (fun y => { y with lost := true })

/-- R138, R139, R287: an update is applied at its subscriber. -/
def applyUpdate (s : State) (u : Update) : State :=
  let s1 := { s with mem := { s.mem with sent := s.mem.sent.filter (fun x => x.id != u.id) } }
  match subOf s1 u.scrib u.index with
  | none => s1
  | some _ => if (aget s1.blocks u.scrib).isSome then mirrorWrite s1 u.scrib u.bytes else logUpdate s1 u

/-- R117, R129, R138: an access to a mirror comes after the updates of the writes that stand before it: a buffer with an entry that reaches its
bytes is sent first, and what is on its way to the mirror is applied (DEDUCED, log entry 68). -/
def syncMirror (s : State) (bid ofs n : Nat) : State :=
  let hits := fun e : UpdEntry => s.mem.subs.any (fun x => x.block == bid && x.pblock == e.block && !x.ended &&
    (mirrorBytes x e).any (fun p => decide (ofs ≤ p.1) && decide (p.1 < ofs + n)))
  if s.mem.subs.isEmpty then s
  else
    let cores := (s.mem.upd.filter hits).map (fun e => e.core)
    let s1 := if cores.isEmpty then s else sendUpdates s (fun e => cores.contains e.core)
    (s1.mem.sent.filter (fun u => u.scrib == bid)).foldl applyUpdate s1

/-- What a read of a scratchpad finds first: the updates of a mirror, and the errors of its words. -/
def spmFind (s : State) (bid ofs n : Nat) : State := spmErrs (syncMirror s bid ofs n) bid ofs n

/-- Writes consecutive scratchpad bytes of a block, with their updates (R138). A block's own write into a mirror of its own, where the mirror lies in
a region that it publishes in turn, gives an update too (DESIGN CHOICE, log entry 85). -/
def spmWrite (s : State) (bid ofs : Nat) (bs : List Byte) : State :=
  let s1 := syncMirror s bid ofs bs.length
  publish (spmHeal (spmPut s1 bid ofs bs) bid ofs bs.length) bid ofs bs

/-- A range of a block's scratchpad holds poison (R375). -/
def spmPoisoned (s : State) (bid ofs n : Nat) : Bool := match aget s.blocks bid with
  | some b => b.poison.any (fun p => rangesMeet (p * 16) 16 ofs n)
  | none => false

/-! ### Releases -/

/-- The launch of a block, if it is resident. -/
def launchKey (s : State) (bid : Nat) : Option Nat := (aget s.blocks bid).map (fun b => b.launch)

/-- R139: the update buffers that a release by an agent of a block on a core sends: its own core's, and those that a write of its launch
through the peer window may have entered. -/
def sentBy (s : State) (core bid : Nat) (e : UpdEntry) : Bool :=
  e.core == core || (launchKey s bid).isSome && s.mem.upd.any (fun x => x.core == e.core && launchKey s x.block == launchKey s bid)

/-- R130, R133, R139: what a release at a scope carries out at quad scope and wider: partials of the core merge, which the class of the
releaser pays for (R422), and update buffers are sent. -/
def releaseOut (s : State) (core bid scope : Nat) : State :=
  let who : Asker := { dieAsker (dieOf core) with cls := (aget s.blocks bid).map (fun b => classOf s b.ctx) }
  if scope < 2 then s
  else sendUpdates (mergeFor who s core (fun e => decide (e.scope ≤ scope))) (sentBy s core bid)

/-- R139: updates sent from the cores of a release are still to be applied. -/
def releaseWaits (s : State) (core bid scope : Nat) : Bool :=
  decide (2 ≤ scope) && s.mem.sent.any (fun u => u.core == core || (launchKey s bid).isSome && s.blocks.any (fun p =>
    p.2.core == u.core && some p.2.launch == launchKey s bid))

end Sys2Proof.Machine
end

