-- ==== Sys2Proof/Machine/Barriers.lean ====
section
/-! DEFINITION. Barriers (R43, R44, R252 to R254): phases, arrivals, pending arrivals and completion. -/

namespace Sys2Proof.Machine

/-- Whose barriers of a scope a block shares (R43, R44, R253): its own, its team's, or its cooperative launch's. -/
def barOwner (bid : Nat) (b : Block) (scope : Nat) : Nat :=
  let launch := b.launch * 2 ^ 40 + b.child * 2 ^ 32
  if scope == 1 then bid else if scope == 2 then launch + b.team else launch

/-- The owner of an agent's barriers of a scope. -/
def ownerOf (s : State) (ag : Agent) (scope : Nat) : Nat := match blockOf s ag with
  | some b => barOwner ag.block b scope
  | none => 0

/-- A barrier with no arrivals, in its first phase. -/
def Barrier.fresh (scope owner num : Nat) : Barrier :=
  { scope := scope, owner := owner, num := num, phase := 0, count := 0, members := [], counts := [], done := [], arrived := [] }

/-- A barrier as it stands. -/
def barrierAt (s : State) (scope owner num : Nat) : Barrier :=
  (s.bars.find? (fun b => b.scope == scope && b.owner == owner && b.num == num)).getD (Barrier.fresh scope owner num)

/-- Replaces a barrier. -/
def putBarrier (s : State) (b : Barrier) : State :=
  { s with bars := s.bars.filter (fun x => !(x.scope == b.scope && x.owner == b.owner && x.num == b.num)) ++ [b] }

/-- R43: every strand of a cohort that its mask names and that has not exited has executed the instruction. -/
def cohortArrived (s : State) (b : Barrier) (a : Nat) : Bool :=
  match aget b.members a, aget s.agents a with
  | some m, some ag => m &&& ~~~(exitedLanes ag) &&& ~~~(agetD b.done a 0) == 0
  | _, _ => false

/-- The cohorts, or at wider scopes the blocks, that have now arrived (R252, R253). -/
def arrivals (s : State) (b : Barrier) : List Nat :=
  let now := (b.members.filter (fun p => cohortArrived s b p.1)).map (fun p => p.1)
  let ids := if b.scope == 1 then now
    else now.filterMap (fun a => (aget s.agents a).map (fun ag => ag.block))
  (b.arrived ++ ids).dedup

/-- R252, R253: the phase is complete. A count of 0 means every cohort of the block that has not retired; at wider scopes every block of
the group, a retired one counting as arrived. -/
def phaseOver (s : State) (b : Barrier) : Bool :=
  let l := arrivals s b
  if b.scope == 1 then
    if b.count == 0 then !l.isEmpty && s.agents.all (fun p => !(p.2.kind == .cohort && p.2.block == b.owner) || l.contains p.1)
    else decide (b.count ≤ l.length)
  else !l.isEmpty && s.blocks.all (fun p => barOwner p.1 p.2 b.scope != b.owner || l.contains p.1)

/-- The lanes of an agent that the end of a phase wakes, and its pending arrival that ends (R252, R254). -/
def endPhaseOf (s : State) (b : Barrier) (a : Nat) (ag : Agent) : Agent :=
  if ownerOf s ag b.scope != b.owner then ag
  else
    let mine := agetD b.done a 0 ||| agetD b.slept a 0
    let hit := fun p : Pending => p.scope == b.scope && p.num == b.num && p.phase == b.phase
    let asleep := fun l => match sleepOf ag l with
      | some (.bar sc n) => sc == b.scope && n == b.num && mine.getLsbD l
      | some (.barw sc n) => sc == b.scope && n == b.num && ag.bara.any hit
      | _ => false
    let ag1 := (allLanes.filter asleep).foldl rouse ag
    { ag1 with bara := ag1.bara.filter (fun p => !hit p) }

/-- R252: the arrivals are noted; the count of the phase is that of the cohort that arrives first. -/
def takeArrivals (s : State) (b : Barrier) : Barrier :=
  let l := arrivals s b
  match b.arrived, b.members.find? (fun p => cohortArrived s b p.1) with
  | [], some p => { b with arrived := l, count := agetD b.counts p.1 0 }
  | _, _ => { b with arrived := l }

/-- R252: takes the arrivals, and on completion wakes the sleepers and begins the next phase with no arrivals. -/
def evalBarrier (s : State) (b0 : Barrier) : State :=
  let b := takeArrivals s b0
  if phaseOver s b then
    let s0 := acquireBy s b.scope (fun a ag => (aget b.done a).isSome || (aget b.slept a).isSome || ag.bara.any (fun p => p.scope == b.scope && p.num == b.num))
    let s1 := { s0 with agents := s0.agents.map (fun p => (p.1, endPhaseOf s b p.1 p.2)) }
    putBarrier s1 { b with phase := b.phase + 1, count := 0, members := [], counts := [], done := [], arrived := [], slept := [] }
  else putBarrier s b

/-- Every barrier with an arrival is evaluated again: after an exit or a retirement (R43, R252, R253). -/
def evalBarriers (s : State) : State :=
  (s.bars.filter (fun b => !b.members.isEmpty || !b.arrived.isEmpty)).foldl evalBarrier s

/-- R252: the mask and the count of a cohort in a phase are those of its first group; those of later ones are ignored. -/
def barEnter (b : Barrier) (a count : Nat) (mask : LaneSet) : Barrier :=
  if (aget b.members a).isSome then b else { b with members := aset b.members a mask, counts := aset b.counts a count }

/-- R254: a pending arrival of an agent in the phase of a barrier; a second one in the phase adds nothing. -/
def notePending (s : State) (a : Nat) (b : Barrier) : State :=
  let note : Pending := { scope := b.scope, num := b.num, phase := b.phase }
  modAgent s a (fun x => if x.bara.contains note then x else { x with bara := x.bara ++ [note] })

/-- R252, R254: lanes of an agent execute `BAR` or `BARA` in the phase in which they issue it: the mask and the count are taken, the strands sleep
for that phase, or the arrival is pending in it. -/
def barIssue (s : State) (a : Nat) (ag : Agent) (scope num count : Nat) (mask lanes : LaneSet) (pend : Bool) : State :=
  let b := barEnter (barrierAt s scope (ownerOf s ag scope) num) a count mask
  if pend then notePending (putBarrier s b) a b
  else putBarrier s { b with slept := aset b.slept a (agetD b.slept a 0 ||| lanes) }

/-- R252, R254, R255: a lane's arrival, once its release is over. -/
def barArrive (s : State) (a : Nat) (ag : Agent) (scope num lane count : Nat) (mask : LaneSet) : State :=
  let b := barEnter (barrierAt s scope (ownerOf s ag scope) num) a count mask
  evalBarrier s { b with done := aset b.done a (agetD b.done a 0 ||| laneSet [lane]) }

/-- R254: the cohort has a pending arrival on a barrier whose phase is not complete. -/
def barPending (s : State) (ag : Agent) (scope num : Nat) : Bool :=
  let b := barrierAt s scope (ownerOf s ag scope) num
  ag.bara.any (fun p => p.scope == scope && p.num == num && p.phase == b.phase)

end Sys2Proof.Machine
end

