-- ==== Sys2Proof/Machine/Scalar.lean ====
section
/-! DEFINITION. The scalar and mask instructions (R197 to R207). -/

namespace Sys2Proof.Machine

/-- R63, R197: a scalar or mask word executes once if at least one active lane passes, and otherwise has no effect. -/
def scalarWord (s : State) (h : Pfx) (op : Nat) (f : Env → List Producer) : Out :=
  fixedWord s h false op (fun e => if e.pass == 0 then [] else f e)

/-- A scalar word of two sources that writes D. -/
def scalarOp (s : State) (h : Pfx) (r : FmtR) (op : Nat) (f : DWord → DWord → DWord) : Out :=
  scalarWord s h op (fun e => wrS e 1 r.d.toNat (f (rdS e r.a.toNat) (rdS e r.b.toNat)))

/-- A scalar word of two sources that writes D and the flags (R199). -/
def scalarFlagOp (s : State) (h : Pfx) (r : FmtR) (op : Nat) (f fl : DWord → DWord → DWord) : Out :=
  scalarWord s h op (fun e =>
    let a := rdS e r.a.toNat
    let b := rdS e r.b.toNat
    wrS e 1 r.d.toNat (f a b) ++ [wrZncv e (fl a b)])

/-- R198: the signedness of an instruction that bears one: TYPE 0x0D is signed. -/
def isSigned (r : FmtR) : Bool := r.ty == 0x0D

/-- R202: `SMOV`. -/
def execSmov (h : Pfx) (r : FmtR) (s : State) : Out := scalarOp s h r 0x000 (fun a _ => a)

/-- R202: `SMOVI`. -/
def execSmovi (h : Pfx) (r : FmtI) (s : State) : Out :=
  scalarWord s h 0x001 (fun e => wrS e 1 r.d.toNat (r.imm.signExtend 64))

/-- R202: `SADD`. -/
def execSadd (h : Pfx) (r : FmtR) (s : State) : Out := scalarFlagOp s h r 0x002 (fun a b => a + b) flagsAdd

/-- R202: `SADDI`. -/
def execSaddi (h : Pfx) (r : FmtI) (s : State) : Out :=
  scalarWord s h 0x003 (fun e =>
    let a := rdS e r.a.toNat
    let b := r.imm.signExtend 64
    wrS e 1 r.d.toNat (a + b) ++ [wrZncv e (flagsAdd a b)])

/-- R202: `SSUB`. -/
def execSsub (h : Pfx) (r : FmtR) (s : State) : Out := scalarFlagOp s h r 0x004 (fun a b => a - b) flagsSub

/-- R202: `SMUL`. -/
def execSmul (h : Pfx) (r : FmtR) (s : State) : Out := scalarFlagOp s h r 0x005 (fun a b => a * b) flagsMul

/-- R202: bits 127 to 64 of a product. -/
def mulHigh (signed : Bool) (a b : DWord) : DWord :=
  if signed then BitVec.ofInt 64 (a.toInt * b.toInt / 2 ^ 64) else BitVec.ofNat 64 (a.toNat * b.toNat / 2 ^ 64)

/-- R202: `SMULH`. -/
def execSmulh (h : Pfx) (r : FmtR) (s : State) : Out := scalarOp s h r 0x006 (mulHigh (isSigned r))

/-- R203: the quotient, toward zero. -/
def quotient (signed : Bool) (a b : DWord) : DWord :=
  if signed then BitVec.ofInt 64 (a.toInt.tdiv b.toInt) else BitVec.ofNat 64 (a.toNat / b.toNat)

/-- R203: the remainder, with the sign of A. -/
def remainder (signed : Bool) (a b : DWord) : DWord :=
  if signed then BitVec.ofInt 64 (a.toInt.tmod b.toInt) else BitVec.ofNat 64 (a.toNat % b.toNat)

/-- R203: a division word: a B of 0 traps with DIVIDE_BY_ZERO at issue (R177). -/
def divideWord (s : State) (h : Pfx) (r : FmtR) (op : Nat) (f : DWord → DWord → DWord) : Out :=
  onIssue s h false (fun e =>
    if e.pass != 0 && rdS e r.b.toNat == 0 then .next (issueTrap s e (issueReq e .divideByZero 0 0))
    else scalarOp s h r op f)

/-- R203: `SDIV`. -/
def execSdiv (h : Pfx) (r : FmtR) (s : State) : Out := divideWord s h r 0x007 (quotient (isSigned r))

/-- R203: `SREM`. -/
def execSrem (h : Pfx) (r : FmtR) (s : State) : Out := divideWord s h r 0x008 (remainder (isSigned r))

/-- R202: `SAND`. -/
def execSand (h : Pfx) (r : FmtR) (s : State) : Out := scalarOp s h r 0x009 (fun a b => a &&& b)

/-- R202: `SOR`. -/
def execSor (h : Pfx) (r : FmtR) (s : State) : Out := scalarOp s h r 0x00A (fun a b => a ||| b)

/-- R202: `SXOR`. -/
def execSxor (h : Pfx) (r : FmtR) (s : State) : Out := scalarOp s h r 0x00B (fun a b => a ^^^ b)

/-- R204: a shift of the whole unsigned count: 64 and above are one case. -/
def shiftCount (b : DWord) : Nat := min b.toNat 64

/-- R204: `SSHL`. -/
def execSshl (h : Pfx) (r : FmtR) (s : State) : Out := scalarOp s h r 0x00C (fun a b => a <<< shiftCount b)

/-- R204: `SSHR`. -/
def execSshr (h : Pfx) (r : FmtR) (s : State) : Out := scalarOp s h r 0x00D (fun a b => a >>> shiftCount b)

/-- R204: `SSRA`. -/
def execSsra (h : Pfx) (r : FmtR) (s : State) : Out := scalarOp s h r 0x00E (fun a b => a.sshiftRight (shiftCount b))

/-- Less than, in a signedness. -/
def lessThan (signed : Bool) (a b : DWord) : Bool := if signed then a.slt b else a.ult b

/-- R202: `SMIN`. -/
def execSmin (h : Pfx) (r : FmtR) (s : State) : Out := scalarOp s h r 0x00F (fun a b => if lessThan (isSigned r) b a then b else a)

/-- R202: `SMAX`. -/
def execSmax (h : Pfx) (r : FmtR) (s : State) : Out := scalarOp s h r 0x010 (fun a b => if lessThan (isSigned r) a b then b else a)

/-- R201, R202: `SCMP`: the condition is taken on the flags of A - B. -/
def execScmp (h : Pfx) (r : FmtR) (s : State) : Out :=
  scalarWord s h 0x011 (fun e =>
    let z := flagsSub (rdS e r.a.toNat) (rdS e r.b.toNat)
    let c := condHolds r.sub.toNat (!isSigned r) (withZncv (rdF e) z)
    wrS e 1 r.d.toNat (if c then 1 else 0) ++ [wrZncv e z])

/-- R201, R202: `SSEL`. -/
def execSsel (h : Pfx) (r : FmtR) (s : State) : Out :=
  scalarWord s h 0x012 (fun e =>
    wrS e 1 r.d.toNat (if condHolds r.sub.toNat (!isSigned r) (rdF e) then rdS e r.a.toNat else rdS e r.b.toNat))

/-- R202: `SLEA`. -/
def execSlea (h : Pfx) (r : FmtR) (s : State) : Out := scalarOp s h r 0x013 (fun a b => a + (b <<< r.sub.toNat))

/-- R205: the width min(w, 64 - p) of a field operand. -/
def fieldWidth (b : DWord) : Nat := min (nbits b.toNat 8 7) (64 - nbits b.toNat 0 6)

/-- R205: field extract. -/
def fieldExtract (signed : Bool) (a b : DWord) : DWord :=
  let p := nbits b.toNat 0 6
  let w := fieldWidth b
  let f := nbits a.toNat p w
  if w == 0 then 0
  else if signed && f.testBit (w - 1) then BitVec.ofNat 64 (f + (2 ^ 64 - 2 ^ w)) else BitVec.ofNat 64 f

/-- R205: field insert. -/
def fieldInsert (a b c : DWord) : DWord :=
  let p := nbits c.toNat 0 6
  let w := fieldWidth c
  BitVec.ofNat 64 (nset a.toNat p w (nbits b.toNat 0 w))

/-- R205: `SBFE`. -/
def execSbfe (h : Pfx) (r : FmtR) (s : State) : Out := scalarOp s h r 0x014 (fieldExtract (isSigned r))

/-- R205: `SBFI`. -/
def execSbfi (h : Pfx) (r : FmtR) (s : State) : Out :=
  scalarWord s h 0x015 (fun e => wrS e 1 r.d.toNat (fieldInsert (rdS e r.a.toNat) (rdS e r.b.toNat) (rdS e r.c.toNat)))

/-- The number of set bits among the low `n`. -/
def popcount (v : Nat) (n : Nat) : Nat := ((List.range n).filter (fun i => v.testBit i)).length

/-- The number of leading zero bits of an `n`-bit value. -/
def leadingZeros (v n : Nat) : Nat := n - bitLen (v % 2 ^ n)

/-- R202: `SPOPC`. -/
def execSpopc (h : Pfx) (r : FmtR) (s : State) : Out := scalarOp s h r 0x016 (fun a _ => BitVec.ofNat 64 (popcount a.toNat 64))

/-- R202: `SCLZ`. -/
def execSclz (h : Pfx) (r : FmtR) (s : State) : Out := scalarOp s h r 0x017 (fun a _ => BitVec.ofNat 64 (leadingZeros a.toNat 64))

/-- R206: `MOVSR`: `laneid` goes to the passing lanes of vector D, every other register to scalar D. -/
def execMovsr (h : Pfx) (r : FmtR) (s : State) : Out :=
  scalarWord s h 0x018 (fun e =>
    if r.a == 0 then (lanesOf e.pass).map (fun l => wrV e 1 r.d.toNat l (BitVec.ofNat 32 l))
    else wrS e 1 r.d.toNat (special s e r.a.toNat))

/-- R200: the producers of a `MOVRS` of `sflags`. -/
def movFlags (e : Env) (b : DWord) : List Producer :=
  [{ tgt := .zncv, val := BitVec.ofNat 64 (nbits b.toNat 0 4), ready := e.iss.cur + 1, mov := true },
   { tgt := .eBit, val := BitVec.ofNat 64 (nbits b.toNat 4 1), ready := e.iss.cur + 1, mov := true },
   { tgt := .qBit, val := BitVec.ofNat 64 (nbits b.toNat 5 1), ready := e.iss.cur + 1, mov := true }]

/-- R71, R74, R206: a `MOVRS` to `mst` clears the bits set in B, one to `bconf` replaces it. -/
def movBlock (s : State) (b n : Nat) (v : DWord) : State :=
  modBlock s b (fun x =>
    if n == 0x0F then { x with mst := x.mst &&& ~~~(v.setWidth 3) }
    else if n == 0x10 then { x with bconf := v.setWidth 32 } else x)

/-- What a status register of the block held before a `MOVRS` to it, for the words that do not see the write yet (R180). -/
def movShadow (s : State) (e : Env) (n : Nat) : List Producer :=
  let old := if n == 0x0F then mstOf s e.ag.block else match aget s.blocks e.ag.block with
    | some x => x.bconf.toNat
    | none => 0
  [{ tgt := .blk n, val := BitVec.ofNat 64 old, ready := e.iss.cur + 1, mov := true }]

/-- R206: `MOVRS`. -/
def execMovrs (h : Pfx) (r : FmtR) (s : State) : Out :=
  onIssue s h false (fun e =>
    if e.pass == 0 || r.a == 0x0E then
      scalarWord s h 0x019 (fun e => movFlags e (rdS e r.b.toNat))
    else scalarWord (movBlock s e.ag.block r.a.toNat (rdS e r.b.toNat)) h 0x019
      (fun _ => movShadow s e r.a.toNat))

/-! ### Masks (R207) -/

/-- A mask word of two mask sources that writes mask D. -/
def maskOp (s : State) (h : Pfx) (r : FmtR) (op : Nat) (f : LaneSet → LaneSet → LaneSet) : Out :=
  scalarWord s h op (fun e => wrK e 1 r.d.toNat (f (rdK e r.a.toNat) (rdK e r.b.toNat)))

/-- A mask word that writes scalar D. -/
def maskToScalar (s : State) (h : Pfx) (r : FmtR) (op : Nat) (f : LaneSet → Nat) : Out :=
  scalarWord s h op (fun e => wrS e 1 r.d.toNat (BitVec.ofNat 64 (f (rdK e r.a.toNat))))

/-- R207: `KMOV kD, kA`. -/
def execKmovK (h : Pfx) (r : FmtR) (s : State) : Out := maskOp s h r 0x040 (fun a _ => a)

/-- R207: `KMOV kD, sA`. -/
def execKmovFromS (h : Pfx) (r : FmtR) (s : State) : Out :=
  scalarWord s h 0x040 (fun e => wrK e 1 r.d.toNat ((rdS e r.a.toNat).setWidth 32))

/-- R207: `KMOV sD, kA`. -/
def execKmovToS (h : Pfx) (r : FmtR) (s : State) : Out := maskToScalar s h r 0x040 (fun a => a.toNat)

/-- R207: `KAND`. -/
def execKand (h : Pfx) (r : FmtR) (s : State) : Out := maskOp s h r 0x041 (fun a b => a &&& b)

/-- R207: `KOR`. -/
def execKor (h : Pfx) (r : FmtR) (s : State) : Out := maskOp s h r 0x042 (fun a b => a ||| b)

/-- R207: `KXOR`. -/
def execKxor (h : Pfx) (r : FmtR) (s : State) : Out := maskOp s h r 0x043 (fun a b => a ^^^ b)

/-- R207: `KNOT`. -/
def execKnot (h : Pfx) (r : FmtR) (s : State) : Out := maskOp s h r 0x044 (fun a _ => ~~~a)

/-- R207: `KPOPC`. -/
def execKpopc (h : Pfx) (r : FmtR) (s : State) : Out := maskToScalar s h r 0x045 (fun a => popcount a.toNat 32)

/-- R207: the index of the least significant set bit, 32 for none. -/
def firstSet (a : LaneSet) : Nat := match lanesOf a with
  | [] => 32
  | l :: _ => l

/-- R207: `KFFS`. -/
def execKffs (h : Pfx) (r : FmtR) (s : State) : Out := maskToScalar s h r 0x046 firstSet

/-- R207: `KSET`: lo in IMM[4:0], n in IMM[10:5]. -/
def execKset (h : Pfx) (r : FmtI) (s : State) : Out :=
  scalarWord s h 0x047 (fun e =>
    wrK e 1 r.d.toNat (BitVec.ofNat 32 ((2 ^ nbits r.imm.toNat 5 6 - 1) * 2 ^ nbits r.imm.toNat 0 5)))

end Sys2Proof.Machine
end

