-- ==== Sys2Proof/Machine/Control.lean ====
section
/-! DEFINITION. The control instructions (R208 to R215). -/

namespace Sys2Proof.Machine

/-- R208: a control word: the lanes that transfer with their targets, the links it writes at the boundary, and whether it yields. -/
def controlWord (s : State) (h : Pfx) (op : Nat) (f : Env → List (Nat × DWord) × List Producer × Bool) : Out :=
  onIssue s h false (fun e =>
    let (js, ps, y) := f e
    let i1 := { e.iss with jumps := js, yields := e.iss.yields || y }
    .next (finish s { e with iss := i1 } (wordCredits op false (lanesOf e.pass).length) ps))

/-- R167: the target of an offset. -/
def branchTarget (e : Env) (ofs : BitVec 30) : DWord := e.iss.hdr + 8 * ofs.signExtend 64

/-- Every passing lane transfers to one address. -/
def jumpAll (e : Env) (t : DWord) : List (Nat × DWord) := (lanesOf e.pass).map (fun l => (l, t))

/-- R209: every passing lane transfers to its vector pair. -/
def jumpPairs (e : Env) (a : BitVec 8) : List (Nat × DWord) :=
  (lanesOf e.pass).map (fun l => (l, BitVec.ofNat 64 (rdVs e a.toNat l 2)))

/-- R215: `NOP`. -/
def execNop (h : Pfx) (_r : FmtR) (s : State) : Out := fixedWord s h false 0x060 (fun _ => [])

/-- R209: `BRA`. -/
def execBra (h : Pfx) (r : FmtB) (s : State) : Out := controlWord s h 0x061 (fun e => (jumpAll e (branchTarget e r.ofs), [], false))

/-- R209: `BRC`: the condition is taken once, on the flags as the word reads them. -/
def execBrc (h : Pfx) (r : FmtB) (s : State) : Out :=
  controlWord s h 0x062 (fun e =>
    (if condHolds (nbits r.d.toNat 0 3) (r.d.getLsbD 3) (rdF e) then jumpAll e (branchTarget e r.ofs) else [], [], false))

/-- R210: `BRL`: the link is written once, if a lane passes. -/
def execBrl (h : Pfx) (r : FmtB) (s : State) : Out :=
  controlWord s h 0x063 (fun e =>
    (jumpAll e (branchTarget e r.ofs),
      if e.pass == 0 then [] else wrS e lateCycle r.d.toNat (fallThrough e.iss), false))

/-- R209: `JMP sA`. -/
def execJmpS (h : Pfx) (r : FmtR) (s : State) : Out := controlWord s h 0x064 (fun e => (jumpAll e (rdS e r.a.toNat), [], false))

/-- R209: `JMP vA`. -/
def execJmpV (h : Pfx) (r : FmtR) (s : State) : Out := controlWord s h 0x064 (fun e => (jumpPairs e r.a, [], false))

/-- R210: `CALL`: the link pair is written in the lanes that transfer. -/
def execCall (h : Pfx) (r : FmtB) (s : State) : Out :=
  controlWord s h 0x065 (fun e =>
    (jumpAll e (branchTarget e r.ofs),
      (lanesOf e.pass).flatMap (fun l => wrVs e lateCycle r.d.toNat l (fallThrough e.iss).toNat 2), false))

/-- R209: `RET`. -/
def execRet (h : Pfx) (r : FmtR) (s : State) : Out := controlWord s h 0x066 (fun e => (jumpPairs e r.a, [], false))

/-- R211: `RECONV`: the passing lanes sleep at the clause's header address with their member sets, and the rendezvous are evaluated. -/
def execReconv (h : Pfx) (r : FmtR) (s : State) : Out :=
  onIssue s h false (fun e =>
    let m := rdK e r.a.toNat
    let ag := (lanesOf e.pass).foldl (fun ag l => sleepLane ag l (.reconv e.iss.hdr (m ||| laneSet [l]))) e.ag
    .next (finish s { e with ag := reconvene ag } 1 []))

/-- R212: `EXIT`: the passing lanes exit, which may meet a rendezvous or a barrier (R43, R211). -/
def execExit (h : Pfx) (_r : FmtR) (s : State) : Out :=
  onIssue s h false (fun e =>
    let ag := (lanesOf e.pass).foldl exitLane e.ag
    .next (evalBarriers (finish s { e with ag := reconvene ag } 1 [])))

/-- R213: `YIELD`. -/
def execYield (h : Pfx) (_r : FmtR) (s : State) : Out := controlWord s h 0x069 (fun e => ([], [], e.pass != 0))

/-- R214: a trap instruction: if a lane passes, the agent stops with a record of kind 3; every lane falls through. -/
def trapWord (s : State) (h : Pfx) (op : Nat) (code : TrapCode) (imm : BitVec 30) : Out :=
  onIssue s h false (fun e =>
    let s1 := finish s e (wordCredits op false (lanesOf e.pass).length) []
    if e.pass == 0 then .next s1
    else .next (postTrap s1 e.aid { issueReq e code 0 0 with kind := 3, info := nbits imm.toNat 0 16 }).2)

/-- R214: `TRAP`. -/
def execTrap (h : Pfx) (r : FmtI) (s : State) : Out := trapWord s h 0x06A .userTrap r.imm

/-- R214: `BRK`. -/
def execBrk (h : Pfx) (r : FmtI) (s : State) : Out := trapWord s h 0x06B .breakpoint r.imm

end Sys2Proof.Machine
end

