-- ==== Sys2Proof/Machine/Transcendental.lean ====
section
/-! DEFINITION. The transcendentals (R226): each result is a free value (Config.transcendental, a fixed function of the instruction, the
input bits and FTZ) wherever that value meets the bound of R226, and the nearest F32 value otherwise. Exact values that are not dyadic are
held to 2^-600, which is finer than any of them comes to the edge of a bound: the nearest, the cosine of 2^-149, is 2^-299 from it. -/

namespace Sys2Proof.Machine

/-- The exponent of the spacing of F32 at a positive exact value whose leading bit stands at exponent `top`. -/
def ulpExp (top : Int) : Int := max (top - 23) (-149)

/-- The exponent of the leading bit of a value; below every format for a zero. -/
def topOf : Ex → Int
  | .fin _ m e => if m == 0 then -1000 else e + (bitLen m : Int) - 1
  | _ => 0

/-- A result for an exact value `x` within `bound`: the free value of the function if it is so, otherwise `x` to nearest. Results below
the subnormal range, and with FTZ below the normal range, are zeros of the sign of `x`. -/
def within (fn : Nat) (ftz : Bool) (a : Nat) (x bound : Ex) : Nat :=
  let low : Int := if ftz then -126 else -149
  if decide (topOf x < low) then f32.sign (exSign x)
  else
    let c := (Config.transcendental fn ftz (BitVec.ofNat 32 a)).toNat
    let y := unpack f32 ftz c
    let fits := match y with
      | .fin _ _ _ => exLe (exAbs (exAdd false y (exNeg x))) bound
      | _ => false
    if fits then (roundEx f32 0 false ftz y).bits else (roundEx f32 0 false ftz x).bits

/-- `n` ulps at a value. -/
def ulps (n : Nat) (x : Ex) : Ex := .fin false n (ulpExp (topOf x))

/-! ### Fixed point -/

/-- Fraction bits of the fixed-point values below. -/
def fxBits : Nat := 640

/-- 1 in fixed point. -/
def fxOne : Int := 2 ^ fxBits

/-- A product in fixed point. -/
def fxMul (a b : Int) : Int := a * b / fxOne

/-- A dyadic value in fixed point. -/
def toFx (n : Bool) (m : Nat) (e : Int) : Int :=
  let v : Int := if 0 ≤ e + fxBits then m * 2 ^ (e + fxBits).toNat else m / 2 ^ (-(e + fxBits)).toNat
  if n then -v else v

/-- A fixed-point value as an exact one. -/
def ofFx (v : Int) : Ex := .fin (decide (v < 0)) v.natAbs (-(fxBits : Int))

/-- π to 220 decimals. -/
def fxPi : Int :=
  31415926535897932384626433832795028841971693993751058209749445923078164062862089986280348253421170679821480865132823066470938446095505822317253594081284811174502841027019385211055596446229489549303819644288109756659334461 *
    fxOne / 10 ^ 220

/-- ln 2 to 220 decimals. -/
def fxLn2 : Int :=
  6931471805599453094172321214581765680755001343602552541206800094933936219696947156058633269964186875420014810205706857336855202357581305570326707516350759619307275708283714351903070386238916734711233501153644979552391204 *
    fxOne / 10 ^ 220

/-- The terms y^k / k! from the k-th on. -/
def expTerms (y : Int) (k : Nat) (t : Int) : Nat → List Int
  | 0 => []
  | n + 1 => t :: expTerms y (k + 1) (fxMul t y / (k + 1)) n

/-- Every second item of a list. -/
def evens : List Int → List Int
  | [] => []
  | [a] => [a]
  | a :: _ :: t => a :: evens t

/-- A sum with alternating signs. -/
def altSum : List Int → Int
  | [] => 0
  | a :: t => a - altSum t

/-- Bits of the fraction of log₂ of a value in [1, 2), by squaring. -/
def logBits (v : Int) (acc : Int) : Nat → Int
  | 0 => acc
  | n + 1 =>
    let q := fxMul v v
    if 2 * fxOne ≤ q then logBits (q / 2) (2 * acc + 1) n else logBits q (2 * acc) n

/-! ### The functions -/

/-- R226: 1 ÷ A within 1 ulp; 1 ÷ 2^n is exact. -/
def fRcp (ftz : Bool) (a : Nat) : Nat :=
  match unpack f32 ftz a with
  | .nan => f32.nan
  | .inf n => f32.sign n
  | .fin n m e =>
    if m == 0 then f32.inf n
    else
      let x : Ex := .fin n (2 ^ 600 / m) (-e - 600)
      if m == 2 ^ (bitLen m - 1) then (roundEx f32 0 false ftz (.fin n 1 (-e - (bitLen m - 1 : Nat)))).bits
      else if 128 ≤ topOf x then f32.inf n
      else within 0 ftz a x (ulps 1 x)

/-- R226: 1 ÷ √A within 1 ulp; 1 ÷ √(4^n) is exact. -/
def fRsq (ftz : Bool) (a : Nat) : Nat :=
  match unpack f32 ftz a with
  | .nan => f32.nan
  | .inf n => if n then f32.nan else f32.sign false
  | .fin n m e =>
    if m == 0 then f32.inf n
    else if n then f32.nan
    else
      let top : Int := e + (bitLen m : Int) - 1
      if m == 2 ^ (bitLen m - 1) && top % 2 == 0 then (roundEx f32 0 false ftz (.fin false 1 (-(top / 2)))).bits
      else
        let k : Nat := if e % 2 == 0 then 0 else 1
        let q := 2 ^ 1200 / (m * 2 ^ k)
        let x : Ex := .fin false (isqrt q 0 601) (-(e - k) / 2 - 600)
        within 1 ftz a x (ulps 1 x)

/-- R226: 2^A within 2 ulp; integers from −149 to 127 are exact; a larger result overflows. -/
def fExp2 (ftz : Bool) (a : Nat) : Nat :=
  match unpack f32 ftz a with
  | .nan => f32.nan
  | .inf n => if n then 0 else f32.inf false
  | .fin n m e =>
    if exLe (.fin false 128 0) (.fin n m e) then f32.inf false
    else if exLe (.fin n m e) (.fin true 200 0) then 0
    else
      let v := toFx n m e
      let w := v / fxOne
      let f := v % fxOne
      if f == 0 && exIsZero (exAdd false (.fin n m e) (exOfInt (-w))) then (roundEx f32 0 false ftz (.fin false 1 w)).bits
      else
        let x := exScale (ofFx ((expTerms (fxMul f fxLn2) 0 fxOne 150).foldl (fun s t => s + t) 0)) w
        within 2 ftz a x (ulps 2 x)

/-- R226: log₂ A within 2 ulp, and within 2^-22 for A in [0.5, 2]; 2^n gives n, a negative A NaN. -/
def fLog2 (ftz : Bool) (a : Nat) : Nat :=
  match unpack f32 ftz a with
  | .nan => f32.nan
  | .inf n => if n then f32.nan else f32.inf false
  | .fin n m e =>
    let k : Int := e + (bitLen m : Int) - 1
    if m == 0 then f32.inf true
    else if n then f32.nan
    else if m == 2 ^ (bitLen m - 1) then (roundEx f32 0 false ftz (exOfInt k)).bits
    else
      let frac := logBits (toFx false m (e - k)) 0 300
      let x := exAdd false (exOfInt k) (.fin false frac.natAbs (-300))
      let near := decide (k = -1) || decide (k = 0)
      within 3 ftz a x (if near then .fin false 1 (-22) else ulps 2 x)

/-- An angle reduced to [0, 2π), its sine by its series. -/
def sinFx (v : Int) : Int := altSum (evens ((expTerms (v % (2 * fxPi)) 0 fxOne 220).drop 1))

/-- A value just below another in magnitude: for a power of two, in the binade below. -/
def shrunk : Ex → Ex
  | .fin n m e => .fin n (m * 2 ^ 200 - 1) (e - 200)
  | x => x

/-- R226: a value in [−1, 1] with no further bound: the free value of the function where it is one, otherwise +0 (DESIGN CHOICE, log entry
15). -/
def unitFree (fn : Nat) (ftz : Bool) (a : Nat) : Nat :=
  match unpack f32 ftz (Config.transcendental fn ftz (BitVec.ofNat 32 a)).toNat with
  | .fin n m e => if exLe (.fin false m e) (.fin false 1 0) then (roundEx f32 0 false ftz (.fin n m e)).bits else 0
  | _ => 0

/-- Sine (`fn` 4) and cosine (`fn` 5) within 2^-21 for |A| ≤ 65,536 (R226); beyond, a value in [−1, 1]. -/
def fSinCos (fn : Nat) (ftz : Bool) (a : Nat) : Nat :=
  match unpack f32 ftz a with
  | .nan => f32.nan
  | .inf _ => f32.nan
  | .fin n m e =>
    if m == 0 then (if fn == 4 then f32.sign n else 0x3F800000)
    else if exLe (.fin false m e) (.fin false 65536 0) then
      let x := ofFx (sinFx (toFx n m e + (if fn == 4 then 0 else fxPi / 2)))
      within fn ftz a x (.fin false 1 (-21))
    else unitFree fn ftz a

/-- R226: hyperbolic tangent within 2 ulp. -/
def fTanh (ftz : Bool) (a : Nat) : Nat :=
  match unpack f32 ftz a with
  | .nan => f32.nan
  | .inf n => if n then 0xBF800000 else 0x3F800000
  | .fin n m e =>
    if m == 0 then f32.sign n
    else
      let x : Ex :=
        if 4 ≤ topOf (.fin n m e) then shrunk (.fin n 1 0)
        else
          let t := expTerms (toFx false m e) 0 fxOne 320
          let c := (evens t).foldl (fun s t => s + t) 0
          let h := (evens (t.drop 1)).foldl (fun s t => s + t) 0
          .fin n (h * fxOne / c).natAbs (-(fxBits : Int))
      within 6 ftz a x (ulps 2 x)

/-- A fixed-point value squared `n` times. -/
def sqTimes (v : Int) : Nat → Int
  | 0 => v
  | n + 1 => sqTimes (fxMul v v) n

/-- e^(−w) of a fixed-point w ≥ 0, by its series at w ÷ 256. -/
def expNeg (w : Int) : Int := sqTimes ((expTerms (-(w / 256)) 0 fxOne 160).foldl (fun s t => s + t) 0) 8

/-- R291: 0.5 y (1 + tanh(0.797885 (y + 0.044715 y³))) within 2 ulp of F32, written y ÷ (1 + e^(−2z)); its limits at ±∞. -/
def fGelu (a : Nat) : Nat :=
  match unpack f32 false a with
  | .nan => f32.nan
  | .inf n => if n then 0x80000000 else 0x7F800000
  | .fin n m e =>
    if m == 0 then f32.sign n
    else
      let top := topOf (.fin n m e)
      let x : Ex :=
        if 4 ≤ top then (if n then .fin n 0 0 else shrunk (.fin n m e))
        else
          let y := toFx false m e
          let z := (y + fxMul y (fxMul y y) * 44715 / 1000000) * 797885 / 1000000
          let t := expNeg (2 * z)
          .fin n (fxMul y ((if n then t else fxOne) * fxOne / (fxOne + t))).natAbs (-(fxBits : Int))
      within 7 false a x (ulps 2 x)

end Sys2Proof.Machine
end

