-- ==== Sys2Proof/Machine/VectorInt.lean ====
section
/-! DEFINITION. The vector integer instructions (R216 to R223), and the shared form of lane-by-lane words. -/

namespace Sys2Proof.Machine

/-- R78, R177: the trap of a relative operand out of bounds, with the register number of the lowest failing lane; a negative one as its
low 56 bits (DESIGN CHOICE, log entry 94). -/
def regBoundTrap (e : Env) (r : FmtR) (bad : LaneSet) : TrapReq :=
  let l := lowLane bad
  let n := if r.rel == 1 then relReg e r 1 r.d l else if r.rel == 2 then relReg e r 2 r.a l else relReg e r 3 r.b l
  issueReq e .regBound bad (n % 2 ^ 56).toNat

/-- R78, R216: a word that computes lane by lane in the passing lanes: relative operands are checked before anything is written. -/
def laneWord (s : State) (h : Pfx) (r : FmtR) (i : Instr) (isF64 : Bool) (op : Nat) (f : Env → Nat → List Producer) : Out :=
  onIssue s h isF64 (fun e =>
    if relBad e i r != 0 then .next (issueTrap s e (regBoundTrap e r (relBad e i r)))
    else if relOverlap e i r != 0 then .next (issueTrap s e (issueReq e .regOverlap (relOverlap e i r) 0))
    else .next (finish s e (wordCredits op isF64 (lanesOf e.pass).length) ((lanesOf e.pass).flatMap (f e))))

/-- A lane-by-lane word that writes `k` registers at D, and Q where a lane saturates. -/
def vecWord (s : State) (h : Pfx) (r : FmtR) (i : Instr) (isF64 : Bool) (op k : Nat) (f : Env → Nat → Nat × Bool) : Out :=
  laneWord s h r i isF64 op (fun e l => wrVs e (latency op) (regD e r l) l (f e l).1 k ++ wrQ e (latency op) (f e l).2)

/-- The A operand of a lane, `k` registers wide. -/
def opA (e : Env) (r : FmtR) (k l : Nat) : Nat := rdVs e (regA e r l) l k
/-- The B operand of a lane. -/
def opB (e : Env) (r : FmtR) (k l : Nat) : Nat := rdVs e (regB e r l) l k
/-- The C operand of a lane. -/
def opC (e : Env) (r : FmtR) (k l : Nat) : Nat := rdVs e r.c.toNat l k

/-- A vector integer word of A and B in the type's width. -/
def intWord (s : State) (h : Pfx) (r : FmtR) (i : Instr) (op : Nat) (f : Nat → Nat → Nat × Bool) : Out :=
  let k := tyRegs r.ty
  vecWord s h r i false op k (fun e l => f (opA e r k l) (opB e r k l))

/-- Signedness and width of an integer TYPE, `.s32` for an unused one. -/
def intTy (r : FmtR) (unused : Bool) : Bool × Nat := if unused then (true, 32) else (tyInt r.ty.toNat).getD (true, 32)

/-- An exact integer operation, wrapped or clamped once (R84). -/
def arith (t : Bool × Nat) (sat : Bool) (f : Int → Int → Int) (a b : Nat) : Nat × Bool :=
  narrow t.1 t.2 sat (f (intOf t.1 t.2 a) (intOf t.1 t.2 b))

/-- A result that never saturates. -/
def plain (v : Nat) : Nat × Bool := (v, false)

/-- R220: `VMOV`. -/
def execVmov (h : Pfx) (r : FmtR) (s : State) : Out := intWord s h r (.vmov h r) 0x080 (fun a _ => plain a)

/-- R223: the value of `VMOVI`: mode 0 sign-extends 29 bits, mode 1 shifts them left by 3. -/
def movImm (imm : BitVec 30) : Word :=
  let v := imm.extractLsb' 0 29
  if imm.getLsbD 29 then (v.setWidth 32) <<< 3 else v.signExtend 32

/-- R223: `VMOVI`. -/
def execVmovi (h : Pfx) (r : FmtI) (s : State) : Out :=
  fixedWord s h false 0x081 (fun e => (lanesOf e.pass).map (fun l => wrV e (latency 0x081) r.d.toNat l (movImm r.imm)))

/-- R220: `VADD`. -/
def execVadd (h : Pfx) (r : FmtR) (s : State) : Out :=
  intWord s h r (.vadd h r) 0x082 (arith (intTy r false) r.sat (fun a b => a + b))

/-- R220: `VSUB`. -/
def execVsub (h : Pfx) (r : FmtR) (s : State) : Out :=
  intWord s h r (.vsub h r) 0x083 (arith (intTy r false) r.sat (fun a b => a - b))

/-- R220: `VMUL`. -/
def execVmul (h : Pfx) (r : FmtR) (s : State) : Out :=
  intWord s h r (.vmul h r) 0x084 (arith (intTy r false) r.sat (fun a b => a * b))

/-- R220: `VMULH`: bits 63 to 32 of the exact product. -/
def execVmulh (h : Pfx) (r : FmtR) (s : State) : Out :=
  intWord s h r (.vmulh h r) 0x085 (arith (intTy r false) false (fun a b => a * b / 2 ^ 32))

/-- R106, R220: `VMAD`: one wrap or clamp. -/
def execVmad (h : Pfx) (r : FmtR) (s : State) : Out :=
  let t := intTy r false
  vecWord s h r (.vmad h r) false 0x086 1 (fun e l =>
    arith t r.sat (fun a b => a * b + intOf t.1 t.2 (opC e r 1 l)) (opA e r 1 l) (opB e r 1 l))

/-- R220: `VMIN`. -/
def execVmin (h : Pfx) (r : FmtR) (s : State) : Out := intWord s h r (.vmin h r) 0x087 (arith (intTy r false) false min)

/-- R220: `VMAX`. -/
def execVmax (h : Pfx) (r : FmtR) (s : State) : Out := intWord s h r (.vmax h r) 0x088 (arith (intTy r false) false max)

/-- R220: `VABS`. -/
def execVabs (h : Pfx) (r : FmtR) (s : State) : Out :=
  intWord s h r (.vabs h r) 0x089 (arith (true, 32) r.sat (fun a _ => (a.natAbs : Int)))

/-- R220: `VNEG`. -/
def execVneg (h : Pfx) (r : FmtR) (s : State) : Out := intWord s h r (.vneg h r) 0x08A (arith (true, 32) r.sat (fun a _ => -a))

/-- R220: `VAND`. -/
def execVand (h : Pfx) (r : FmtR) (s : State) : Out := intWord s h r (.vand h r) 0x08B (fun a b => plain (a &&& b))

/-- R220: `VOR`. -/
def execVor (h : Pfx) (r : FmtR) (s : State) : Out := intWord s h r (.vor h r) 0x08C (fun a b => plain (a ||| b))

/-- R220: `VXOR`. -/
def execVxor (h : Pfx) (r : FmtR) (s : State) : Out := intWord s h r (.vxor h r) 0x08D (fun a b => plain (a ^^^ b))

/-- The width of a type in bits. -/
def tyBits (r : FmtR) : Nat := 32 * tyRegs r.ty

/-- R220: `VNOT`. -/
def execVnot (h : Pfx) (r : FmtR) (s : State) : Out :=
  intWord s h r (.vnot h r) 0x08E (fun a _ => plain ((2 ^ tyBits r - 1) ^^^ a))

/-- R221: shift left: n is the low register of B, the whole unsigned count. -/
def shiftLeft (w a b : Nat) : Nat := if w ≤ b % 2 ^ 32 then 0 else a * 2 ^ (b % 2 ^ 32) % 2 ^ w

/-- R221: logical shift right. -/
def shiftRight (w a b : Nat) : Nat := if w ≤ b % 2 ^ 32 then 0 else a / 2 ^ (b % 2 ^ 32)

/-- R221: arithmetic shift right. -/
def shiftArith (w a b : Nat) : Nat := ((intOf true w a / 2 ^ min (b % 2 ^ 32) w) % 2 ^ w).toNat

/-- R221: `VSHL`. -/
def execVshl (h : Pfx) (r : FmtR) (s : State) : Out :=
  intWord s h r (.vshl h r) 0x08F (fun a b => plain (shiftLeft (tyBits r) a b))

/-- R221: `VSHR`. -/
def execVshr (h : Pfx) (r : FmtR) (s : State) : Out :=
  intWord s h r (.vshr h r) 0x090 (fun a b => plain (shiftRight (tyBits r) a b))

/-- R221: `VSRA`. -/
def execVsra (h : Pfx) (r : FmtR) (s : State) : Out :=
  intWord s h r (.vsra h r) 0x091 (fun a b => plain (shiftArith (tyBits r) a b))

/-- R220: `VROT`: left by B[4:0]. -/
def execVrot (h : Pfx) (r : FmtR) (s : State) : Out :=
  intWord s h r (.vrot h r) 0x092 (fun a b => plain ((BitVec.ofNat 32 a).rotateLeft (b % 32)).toNat)

/-- R205, R221: the width min(w, 32 - p) of a field operand, p in bits 4 to 0 and w in bits 13 to 8. -/
def fieldWidth32 (b : Nat) : Nat := min (nbits b 8 6) (32 - nbits b 0 5)

/-- R221: field extract on 32 bits. -/
def bfe32 (signed : Bool) (a b : Nat) : Nat :=
  let w := fieldWidth32 b
  let f := nbits a (nbits b 0 5) w
  if w == 0 then 0 else (intOf signed w f % 2 ^ 32).toNat

/-- R221: `VBFE`. -/
def execVbfe (h : Pfx) (r : FmtR) (s : State) : Out :=
  intWord s h r (.vbfe h r) 0x093 (fun a b => plain (bfe32 (intTy r false).1 a b))

/-- R221: `VBFI`. -/
def execVbfi (h : Pfx) (r : FmtR) (s : State) : Out :=
  vecWord s h r (.vbfi h r) false 0x094 1 (fun e l =>
    let c := opC e r 1 l
    let w := fieldWidth32 c
    plain (nset (opA e r 1 l) (nbits c 0 5) w (nbits (opB e r 1 l) 0 w)))

/-- R220: `VPOPC`. -/
def execVpopc (h : Pfx) (r : FmtR) (s : State) : Out := intWord s h r (.vpopc h r) 0x095 (fun a _ => plain (popcount a 32))

/-- R220: `VCLZ`. -/
def execVclz (h : Pfx) (r : FmtR) (s : State) : Out := intWord s h r (.vclz h r) 0x096 (fun a _ => plain (leadingZeros a 32))

/-- R220: `VBREV`. -/
def execVbrev (h : Pfx) (r : FmtR) (s : State) : Out :=
  intWord s h r (.vbrev h r) 0x097 (fun a _ => plain (BitVec.ofNat 32 a).reverse.toNat)

/-- R222: an integer relation by SUB. -/
def relationHolds (c : Nat) (x y : Int) : Bool :=
  match c with
  | 0 => decide (x = y)
  | 1 => decide (x ≠ y)
  | 2 => decide (x < y)
  | 3 => decide (x ≤ y)
  | 4 => decide (y < x)
  | _ => decide (y ≤ x)

/-- R222: a comparison writes the bits of its passing lanes in mask D. -/
def compareWord (s : State) (h : Pfx) (r : FmtR) (i : Instr) (isF64 : Bool) (op : Nat) (f : Env → Nat → Bool) : Out :=
  laneWord s h r i isF64 op (fun e l => wrKs e (latency op) r.d.toNat (laneSet [l]) (if f e l then laneSet [l] else 0))

/-- R222: `VCMP`. -/
def execVcmp (h : Pfx) (r : FmtR) (s : State) : Out :=
  let t := intTy r false
  let k := tyRegs r.ty
  compareWord s h r (.vcmp h r) false 0x098 (fun e l =>
    relationHolds r.sub.toNat (intOf t.1 t.2 (opA e r k l)) (intOf t.1 t.2 (opB e r k l)))

/-- R220: `VSEL`. -/
def execVsel (h : Pfx) (r : FmtR) (s : State) : Out :=
  let k := tyRegs r.ty
  vecWord s h r (.vsel h r) false 0x099 k (fun e l =>
    plain (if (rdK e r.c.toNat).getLsbD l then opA e r k l else opB e r k l))

/-- R222: `VADDC`: kC is the carry in and out. -/
def execVaddc (h : Pfx) (r : FmtR) (s : State) : Out :=
  laneWord s h r (.vaddc h r) false 0x09A (fun e l =>
    let t := opA e r 1 l + opB e r 1 l + (if (rdK e r.c.toNat).getLsbD l then 1 else 0)
    wrVs e (latency 0x09A) r.d.toNat l (t % 2 ^ 32) 1 ++
      wrKs e (latency 0x09A) r.c.toNat (laneSet [l]) (if 2 ^ 32 ≤ t then laneSet [l] else 0))

/-- R223: the sum of four products of 8-bit elements and C. -/
def dot4 (sub a b c : Nat) : Int :=
  [0, 1, 2, 3].foldl (fun t i =>
    t + intOf (sub.testBit 0) 8 (nbits a (8 * i) 8) * intOf (sub.testBit 1) 8 (nbits b (8 * i) 8)) (intOf true 32 c)

/-- R223: `VDOT4`. -/
def execVdot4 (h : Pfx) (r : FmtR) (s : State) : Out :=
  vecWord s h r (.vdot4 h r) false 0x09B 1 (fun e l =>
    narrow true 32 r.sat (dot4 r.sub.toNat (opA e r 1 l) (opB e r 1 l) (opC e r 1 l)))

/-- R223: `VIDX`: A and B are scalars. -/
def execVidx (h : Pfx) (r : FmtR) (s : State) : Out :=
  vecWord s h r (.vidx h r) false 0x09C 1 (fun e l =>
    plain (((rdS e r.a.toNat).toNat + l * (rdS e r.b.toNat).toNat) % 2 ^ 32))

end Sys2Proof.Machine
end

