-- ==== Sys2Proof/Machine/VectorFloat.lean ====
section
/-! DEFINITION. The vector float instructions (R224 to R226). -/

namespace Sys2Proof.Machine

/-- Whether TYPE is `.f64`: the word issues alone (R178). -/
def isF64Ty (r : FmtR) : Bool := r.ty == 0x0C

/-- The format of TYPE; `.f32` where TYPE is unused. -/
def floatTy (r : FmtR) : FloatFmt := (tyFloat r.ty.toNat).getD f32

/-- R224: each 16-bit element of a packed type separately, or the whole operand. -/
def perElement (r : FmtR) (f : Nat → Nat → Nat → Nat × Bool) (a b c : Nat) : Nat × Bool :=
  if packedTy r.ty.toNat then
    let x := f (a % 2 ^ 16) (b % 2 ^ 16) (c % 2 ^ 16)
    let y := f (a / 2 ^ 16) (b / 2 ^ 16) (c / 2 ^ 16)
    (x.1 + 2 ^ 16 * y.1, x.2 || y.2)
  else f a b c

/-- A vector float word of A, B and (where `withC`) C, in the type's width. -/
def floatWord (s : State) (h : Pfx) (r : FmtR) (i : Instr) (op : Nat) (withC : Bool) (f : Nat → Nat → Nat → Nat × Bool) : Out :=
  let k := tyRegs r.ty
  vecWord s h r i (isF64Ty r) op k (fun e l =>
    perElement r f (opA e r k l) (opB e r k l) (if withC then opC e r k l else 0))

/-- A rounded result as a value and Q. -/
def ofRounded (x : Rounded) : Nat × Bool := (x.bits, x.q)

/-- R224: one of the four arithmetic operations of two operands, by number: add, subtract, multiply, divide. -/
def arithWord (s : State) (h : Pfx) (r : FmtR) (i : Instr) (op which : Nat) : Out :=
  floatWord s h r i op false (fun a b _ => ofRounded (fOp2 (floatTy r) r.rnd.toNat r.sat r.ftz which a b))

/-- R224: `VFADD`. -/
def execVfadd (h : Pfx) (r : FmtR) (s : State) : Out := arithWord s h r (.vfadd h r) 0x100 0

/-- R224: `VFSUB`. -/
def execVfsub (h : Pfx) (r : FmtR) (s : State) : Out := arithWord s h r (.vfsub h r) 0x101 1

/-- R224: `VFMUL`. -/
def execVfmul (h : Pfx) (r : FmtR) (s : State) : Out := arithWord s h r (.vfmul h r) 0x102 2

/-- R106, R224: `VFMA`. -/
def execVfma (h : Pfx) (r : FmtR) (s : State) : Out :=
  floatWord s h r (.vfma h r) 0x103 true (fun a b c => ofRounded (fFma (floatTy r) r.rnd.toNat r.sat r.ftz a b c))

/-- R92, R224: `VFMIN`. -/
def execVfmin (h : Pfx) (r : FmtR) (s : State) : Out :=
  floatWord s h r (.vfmin h r) 0x104 false (fun a b _ => plain (fMinMax (floatTy r) r.ftz true a b))

/-- R92, R224: `VFMAX`. -/
def execVfmax (h : Pfx) (r : FmtR) (s : State) : Out :=
  floatWord s h r (.vfmax h r) 0x105 false (fun a b _ => plain (fMinMax (floatTy r) r.ftz false a b))

/-- R225: `VFCMP`. -/
def execVfcmp (h : Pfx) (r : FmtR) (s : State) : Out :=
  let k := tyRegs r.ty
  compareWord s h r (.vfcmp h r) (isF64Ty r) 0x106 (fun e l =>
    fCond r.sub.toNat (unpack (floatTy r) r.ftz (opA e r k l)) (unpack (floatTy r) r.ftz (opB e r k l)))

/-- R225: `VFCLASS`: D is a single register for both types. -/
def execVfclass (h : Pfx) (r : FmtR) (s : State) : Out :=
  vecWord s h r (.vfclass h r) (isF64Ty r) 0x107 1 (fun e l => plain (fClass (floatTy r) (opA e r (tyRegs r.ty) l)))

/-- R224: `VFRND`. -/
def execVfrnd (h : Pfx) (r : FmtR) (s : State) : Out :=
  floatWord s h r (.vfrnd h r) 0x108 false (fun a _ _ => plain (fRnd (floatTy r) r.rnd.toNat r.ftz a))

/-- R224: `VFDIV`. -/
def execVfdiv (h : Pfx) (r : FmtR) (s : State) : Out := arithWord s h r (.vfdiv h r) 0x109 3

/-- R224: `VFSQRT`. -/
def execVfsqrt (h : Pfx) (r : FmtR) (s : State) : Out :=
  floatWord s h r (.vfsqrt h r) 0x10A false (fun a _ _ =>
    plain (exSqrt (floatTy r) r.rnd.toNat r.ftz (unpack (floatTy r) r.ftz a)).bits)

/-- R226: a transcendental of one F32 operand. -/
def transWord (s : State) (h : Pfx) (r : FmtR) (i : Instr) (op : Nat) (f : Bool → Nat → Nat) : Out :=
  vecWord s h r i false op 1 (fun e l => plain (f r.ftz (opA e r 1 l)))

/-- R226: `VFRCP`. -/
def execVfrcp (h : Pfx) (r : FmtR) (s : State) : Out := transWord s h r (.vfrcp h r) 0x10B fRcp

/-- R226: `VFRSQ`. -/
def execVfrsq (h : Pfx) (r : FmtR) (s : State) : Out := transWord s h r (.vfrsq h r) 0x10C fRsq

/-- R226: `VFEXP2`. -/
def execVfexp2 (h : Pfx) (r : FmtR) (s : State) : Out := transWord s h r (.vfexp2 h r) 0x10D fExp2

/-- R226: `VFLOG2`. -/
def execVflog2 (h : Pfx) (r : FmtR) (s : State) : Out := transWord s h r (.vflog2 h r) 0x10E fLog2

/-- R226: `VFSIN`. -/
def execVfsin (h : Pfx) (r : FmtR) (s : State) : Out := transWord s h r (.vfsin h r) 0x10F (fSinCos 4)

/-- R226: `VFCOS`. -/
def execVfcos (h : Pfx) (r : FmtR) (s : State) : Out := transWord s h r (.vfcos h r) 0x110 (fSinCos 5)

/-- R226: `VFTANH`. -/
def execVftanh (h : Pfx) (r : FmtR) (s : State) : Out := transWord s h r (.vftanh h r) 0x111 fTanh

/-- The exponent of a scaling: beyond ±5000 every result is the same. -/
def scaleBy (b : Nat) : Int := max (-5000) (min 5000 (intOf true 32 b))

/-- R224: `VFSCALE`: B is one `.s32` register. -/
def execVfscale (h : Pfx) (r : FmtR) (s : State) : Out :=
  let k := tyRegs r.ty
  vecWord s h r (.vfscale h r) (isF64Ty r) 0x112 k (fun e l =>
    ofRounded (roundEx (floatTy r) r.rnd.toNat r.sat r.ftz
      (exScale (unpack (floatTy r) r.ftz (opA e r k l)) (scaleBy (opB e r 1 l)))))

/-- R106, R224: the exact a0 × b0 + a1 × b1 + c, rounded once to F32. -/
def dot2 (f : FloatFmt) (rnd : Nat) (sat ftz : Bool) (a b c : Nat) : Rounded :=
  let u := unpack f ftz
  let p0 := exMul (u (a % 2 ^ 16)) (u (b % 2 ^ 16))
  let p1 := exMul (u (a / 2 ^ 16)) (u (b / 2 ^ 16))
  roundEx f32 rnd sat ftz (exAdd (rnd == 3) (exAdd (rnd == 3) p0 p1) (unpack f32 ftz c))

/-- R224: `VFDOT2`. -/
def execVfdot2 (h : Pfx) (r : FmtR) (s : State) : Out :=
  vecWord s h r (.vfdot2 h r) false 0x113 1 (fun e l =>
    ofRounded (dot2 (floatTy r) r.rnd.toNat r.sat r.ftz (opA e r 1 l) (opB e r 1 l) (opC e r 1 l)))

end Sys2Proof.Machine
end

