-- ==== Sys2Proof/Machine/Convert.lean ====
section
/-! DEFINITION. The conversion instructions (R227 to R231) and the C4 format (R104, R105). -/

namespace Sys2Proof.Machine

/-- R227: the source type of `VCVT`, in field C. -/
def cvtFrom (r : FmtR) : Nat := nbits r.c.toNat 0 5

/-- R103: an element through a conversion with the word's modifiers. -/
def cvtOne (r : FmtR) (td ts v : Nat) : Nat × Bool := convert td ts r.rnd.toNat r.sat r.ftz v

/-- Two converted elements placed `w` bits apart. -/
def pairUp (w : Nat) (x y : Nat × Bool) : Nat × Bool := (x.1 + 2 ^ w * y.1, x.2 || y.2)

/-- R227: one lane of `VCVT`: the value over the destination's registers, and Q. -/
def cvtLane (r : FmtR) (a b : Nat) : Nat × Bool :=
  let td := r.ty.toNat
  let ts := cvtFrom r
  if packedTy td && !packedTy ts then pairUp 16 (cvtOne r td ts a) (cvtOne r td ts b)
  else if packedTy td then pairUp 16 (cvtOne r td ts (a % 2 ^ 16)) (cvtOne r td ts (a / 2 ^ 16))
  else if packedTy ts then pairUp 32 (cvtOne r td ts (a % 2 ^ 16)) (cvtOne r td ts (a / 2 ^ 16))
  else
    let x := cvtOne r td ts a
    (widen32 td x.1, x.2)

/-- The registers of the result of `VCVT`. -/
def cvtRegs (r : FmtR) : Nat := if packedTy (cvtFrom r) && !packedTy r.ty.toNat then 2 else tyRegs r.ty

/-- R227: `VCVT`; with `.f64` on either side it is an `.f64` word. -/
def execVcvt (h : Pfx) (r : FmtR) (s : State) : Out :=
  vecWord s h r (.vcvt h r) (isF64Ty r || cvtFrom r == 0x0C) 0x180 (cvtRegs r) (fun e l =>
    cvtLane r (opA e r (tyRegs (BitVec.ofNat 5 (cvtFrom r))) l) (opB e r 1 l))

/-- R228: `VPACK8`: element i of D from A + i. -/
def execVpack8 (h : Pfx) (r : FmtR) (s : State) : Out :=
  let ts := if r.ty.toNat < 2 then 0x04 else 0x06
  vecWord s h r (.vpack8 h r) false 0x181 1 (fun e l =>
    let a := opA e r 4 l
    let c := fun i => cvtOne r r.ty.toNat ts (nbits a (32 * i) 32)
    pairUp 16 (pairUp 8 (c 0) (c 1)) (pairUp 8 (c 2) (c 3)))

/-- R228: `VUNPK8`: element i of A widened into D + i. -/
def execVunpk8 (h : Pfx) (r : FmtR) (s : State) : Out :=
  let td := if r.ty == 0 then 0x04 else if r.ty == 1 then 0x05 else 0x06
  vecWord s h r (.vunpk8 h r) false 0x182 4 (fun e l =>
    let a := opA e r 1 l
    let c := fun i => plain (convert td r.ty.toNat 0 false false (nbits a (8 * i) 8)).1
    pairUp 64 (pairUp 32 (c 0) (c 1)) (pairUp 32 (c 2) (c 3)))

/-! ### C4 -/

/-- R72: entry `i` of a codebook. -/
def cbEntry (cb : BitVec 256) (i : Nat) : Ex := unpack bf16 false (nbits cb.toNat (16 * i) 16)

/-- The codebook register of the agent's block that field C names. -/
def codebook (s : State) (e : Env) (c : BitVec 8) : BitVec 256 :=
  match blockOf s e.ag with
  | some b => sget b.cb c.toNat
  | none => 0

/-- The sixteen codes. -/
def codes : List Nat := List.range 16

/-- R229: the largest finite magnitude of a codebook, 0 if no entry is finite. -/
def cbMax (cb : BitVec 256) : Ex :=
  codes.foldl (fun m i => match cbEntry cb i with
    | .fin _ k g => if exLe (.fin false k g) m then m else .fin false k g
    | _ => m) (.fin false 0 0)

/-- The largest magnitude of a list of values. -/
def maxMag (l : List Ex) : Ex := l.foldl (fun m x => if exLe (exAbs x) m then m else exAbs x) (.fin false 0 0)

/-- R229: the block exponent of a group's magnitude, and whether none was large enough. -/
def blockExp (m amax : Ex) : Nat × Bool :=
  match (List.range 255).find? (fun (k : Nat) => exLe amax (exScale m ((k : Int) - 127))) with
  | some k => (k, false)
  | none => (254, true)

/-- R229: the lanes of a group, or of a pair, that take part. -/
def lanesFrom (p : LaneSet) (lo n : Nat) : List Nat := (lanesOf p).filter (fun l => decide (lo ≤ l) && decide (l < lo + n))

/-- R229: the producers of one group of `VBSCALE`. -/
def scaleGroup (e : Env) (r : FmtR) (m : Ex) (g : Nat) : List Producer :=
  let lanes := lanesFrom e.pass (16 * g) 16
  let x := fun l => unpack f32 false (rdV e r.a.toNat l).toNat
  let wr := fun l v => wrV e (latency 0x185) r.d.toNat l (BitVec.ofNat 32 v)
  if lanes.isEmpty then []
  else if lanes.any (fun l => exIsNan (x l)) then lanes.map (fun l => wr l 0xFF)
  else
    let (k, q) := blockExp m (maxMag (lanes.map x))
    let micro := fun l => exLe (maxMag ((lanesFrom e.pass (l - l % 2) 2).map x)) (exScale m ((k : Int) - 128))
    lanes.map (fun l => wr l (k + if micro l then 256 else 0)) ++ wrQ e (latency 0x185) q

/-- R229: `VBSCALE`. -/
def execVbscale (h : Pfx) (r : FmtR) (s : State) : Out :=
  fixedWord s h false 0x185 (fun e =>
    let m := cbMax (codebook s e r.c)
    scaleGroup e r m 0 ++ scaleGroup e r m 1)

/-- R230: the distance of two values: infinities are 0 from themselves and infinitely far from the rest. -/
def distance (x y : Ex) : Ex :=
  match x, y with
  | .inf a, .inf b => if a == b then .fin false 0 0 else .inf false
  | .inf _, _ => .inf false
  | _, .inf _ => .inf false
  | _, _ => exAbs (exAdd false x (exNeg y))

/-- R230: the least code whose entry is nearest, 0 if every entry is NaN. -/
def nearestCode (cb : BitVec 256) (x : Ex) : Nat :=
  let best := (codes.filter (fun i => !exIsNan (cbEntry cb i))).foldl (fun (b : Option (Nat × Ex)) i =>
    let d := distance x (cbEntry cb i)
    match b with
    | none => some (i, d)
    | some (j, g) => if exCmp d g == .lt then some (i, d) else some (j, g)) none
  match best with
  | some (i, _) => i
  | none => 0

/-- R230: one lane of `VQUANT`. -/
def quantLane (cb : BitVec 256) (a w : Nat) : Nat :=
  let x := unpack f32 false a
  let k := nbits w 0 8
  if k == 0xFF || exIsNan x then 0 else nearestCode cb (exScale x (127 - (k : Int) + nbits w 8 1))

/-- R230: `VQUANT`. -/
def execVquant (h : Pfx) (r : FmtR) (s : State) : Out :=
  vecWord s h r (.vquant h r) false 0x183 1 (fun e l => plain (quantLane (codebook s e r.c) (opA e r 1 l) (opB e r 1 l)))

/-- R105: the exact value of a code with a block exponent and a micro-exponent bit. -/
def c4Value (cb : BitVec 256) (code k m : Nat) : Ex :=
  if k == 0xFF then .nan else exScale (cbEntry cb code) ((k : Int) - 127 - m)

/-- R231: `VDEQ`. -/
def execVdeq (h : Pfx) (r : FmtR) (s : State) : Out :=
  vecWord s h r (.vdeq h r) false 0x184 1 (fun e l =>
    let w := opB e r 1 l
    ofRounded (roundEx (floatTy r) r.rnd.toNat r.sat r.ftz
      (c4Value (codebook s e r.c) (opA e r 1 l % 16) (nbits w 0 8) (nbits w 8 1))))

end Sys2Proof.Machine
end

