-- ==== Sys2Proof/Machine/CrossLane.lean ====
section
/-! DEFINITION. The cross-lane instructions (R232 to R236), reductions and scans (R110 to R114). -/

namespace Sys2Proof.Machine

/-- R232: the member set of a word: the lanes of kC that pass. -/
def members (e : Env) (c : BitVec 8) : LaneSet := rdK e c.toNat &&& e.pass

/-- A cross-lane word whose destination is a vector: producers from the member set. -/
def crossWord (s : State) (h : Pfx) (r : FmtR) (op : Nat) (f : Env → LaneSet → List Producer) : Out :=
  fixedWord s h false op (fun e => f e (members e r.c))

/-- R232: a cross-lane word with a scalar destination executes once, if a lane passes. -/
def crossScalar (s : State) (h : Pfx) (r : FmtR) (op : Nat) (f : Env → LaneSet → List Producer) : Out :=
  crossWord s h r op (fun e p => if e.pass == 0 then [] else f e p)

/-- R233: a permutation: each member takes A of its source lane if that is a member, and its own otherwise. -/
def permWord (s : State) (h : Pfx) (r : FmtR) (op : Nat) (src : Env → Nat → Int) : Out :=
  crossWord s h r op (fun e p => (lanesOf p).map (fun l =>
    let j := src e l
    let take := decide (0 ≤ j) && decide (j < 32) && p.getLsbD j.toNat
    wrV e 6 r.d.toNat l (rdV e r.a.toNat (if take then j.toNat else l))))

/-- The low five bits of scalar B. -/
def laneArg (e : Env) (r : FmtR) : Nat := (rdS e r.b.toNat).toNat % 32

/-- R233: `VSHFL`. -/
def execVshfl (h : Pfx) (r : FmtR) (s : State) : Out :=
  permWord s h r 0x1A0 (fun e l => (((rdV e r.b.toNat l).toNat % 32 : Nat) : Int))

/-- R233: `VSHUP`. -/
def execVshup (h : Pfx) (r : FmtR) (s : State) : Out := permWord s h r 0x1A1 (fun e l => (l : Int) - laneArg e r)

/-- R233: `VSHDN`. -/
def execVshdn (h : Pfx) (r : FmtR) (s : State) : Out := permWord s h r 0x1A2 (fun e l => (l : Int) + laneArg e r)

/-- R233: `VSHXR`. -/
def execVshxr (h : Pfx) (r : FmtR) (s : State) : Out := permWord s h r 0x1A3 (fun e l => ((l ^^^ laneArg e r : Nat) : Int))

/-- R233: `VBCAST`. -/
def execVbcast (h : Pfx) (r : FmtR) (s : State) : Out := permWord s h r 0x1A4 (fun e _ => (laneArg e r : Int))

/-- R234: `V2S`. -/
def execV2s (h : Pfx) (r : FmtR) (s : State) : Out :=
  crossScalar s h r 0x1A5 (fun e p =>
    let j := laneArg e r
    wrS e 6 r.d.toNat (if p.getLsbD j then (rdV e r.a.toNat j).setWidth 64 else 0))

/-- R234: `S2V`. -/
def execS2v (h : Pfx) (r : FmtR) (s : State) : Out :=
  crossWord s h r 0x1A6 (fun e p => (lanesOf p).map (fun l => wrV e 6 r.d.toNat l ((rdS e r.a.toNat).setWidth 32)))

/-- R234: `VVOTE`: any, all, ballot. -/
def execVvote (h : Pfx) (r : FmtR) (s : State) : Out :=
  crossScalar s h r 0x1A9 (fun e p =>
    let bal := laneSet ((lanesOf p).filter (fun l => rdV e r.a.toNat l != 0))
    wrS e 6 r.d.toNat (if r.sub == 0 then (if bal != 0 then 1 else 0) else if r.sub == 1 then (if bal == p then 1 else 0)
      else bal.setWidth 64))

/-- R234: `VMATCH`. -/
def execVmatch (h : Pfx) (r : FmtR) (s : State) : Out :=
  crossWord s h r 0x1AA (fun e p => (lanesOf p).map (fun l =>
    wrV e 6 r.d.toNat l (laneSet ((lanesOf p).filter (fun j => rdV e r.a.toNat j == rdV e r.a.toNat l)))))

/-- Items with their positions. -/
def indexed (l : List Nat) : List (Nat × Nat) := (List.range l.length).zip l

/-- R235: `VCOMP`. -/
def execVcomp (h : Pfx) (r : FmtR) (s : State) : Out :=
  crossWord s h r 0x1AB (fun e p => (indexed (lanesOf p)).map (fun x => wrV e 6 r.d.toNat x.1 (rdV e r.a.toNat x.2)))

/-- R235: `VEXPD`. -/
def execVexpd (h : Pfx) (r : FmtR) (s : State) : Out :=
  crossWord s h r 0x1AC (fun e p => (indexed (lanesOf p)).map (fun x => wrV e 6 r.d.toNat x.2 (rdV e r.a.toNat x.1)))

/-! ### Reductions and scans -/

/-- Whether a reduction is on F32. -/
def redFloat (r : FmtR) : Bool := r.ty == 0x06

/-- Whether a reduction is signed. -/
def redSigned (r : FmtR) : Bool := r.ty == 0x04

/-- R111: the identity of an operation and a type. -/
def identityOf (r : FmtR) : Nat :=
  if redFloat r then (match r.sub.toNat with | 0 => 0x80000000 | 1 => 0x7F800000 | _ => 0xFF800000)
  else match r.sub.toNat with
    | 1 => ((intMax (redSigned r) 32) % 2 ^ 32).toNat
    | 2 => ((intMin (redSigned r) 32) % 2 ^ 32).toNat
    | 3 => 0xFFFFFFFF
    | _ => 0

/-- R112: the result of an empty membership. -/
def emptyResult (r : FmtR) : Nat := if redFloat r && r.sub == 0 then 0 else identityOf r

/-- R110, R114: one step of a reduction or scan on two 32-bit values; `sat` clamps it. -/
def redStep (r : FmtR) (sat : Bool) (a b : Nat) : Nat × Bool :=
  if redFloat r then
    (if r.sub == 0 then plain (fOp2 f32 r.rnd.toNat false r.ftz 0 a b).bits else plain (fMinMax f32 r.ftz (r.sub == 1) a b))
  else match r.sub.toNat with
    | 0 => arith (redSigned r, 32) sat (fun x y => x + y) a b
    | 1 => arith (redSigned r, 32) false min a b
    | 2 => arith (redSigned r, 32) false max a b
    | 3 => plain (a &&& b)
    | 4 => plain (a ||| b)
    | _ => plain (a ^^^ b)

/-- One level of the tree: neighbours combine. -/
def treeLevel (f : Nat → Nat → Nat) : List Nat → List Nat
  | a :: b :: t => f a b :: treeLevel f t
  | l => l

/-- R110: the fixed tree of five levels. -/
def tree (f : Nat → Nat → Nat) (l : List Nat) : Nat :=
  (treeLevel f (treeLevel f (treeLevel f (treeLevel f (treeLevel f l))))).headD 0

/-- R110, R113: the reduction of the members, and Q. An integer sum is exact and narrowed once. -/
def reduceMembers (e : Env) (r : FmtR) (p : LaneSet) : Nat × Bool :=
  if r.sub == 0 && !redFloat r then
    narrow (redSigned r) 32 r.sat
      ((lanesOf p).foldl (fun t l => t + intOf (redSigned r) 32 (rdV e r.a.toNat l).toNat) 0)
  else
    plain (tree (fun a b => (redStep r false a b).1)
      (allLanes.map (fun l => if p.getLsbD l then (rdV e r.a.toNat l).toNat else identityOf r)))

/-- R236: `VRED`. -/
def execVred (h : Pfx) (r : FmtR) (s : State) : Out :=
  crossScalar s h r 0x1A7 (fun e p =>
    let x := if p == 0 then plain (emptyResult r) else reduceMembers e r p
    let v : DWord := if redSigned r then (BitVec.ofNat 32 x.1).signExtend 64 else BitVec.ofNat 64 x.1
    wrS e 6 r.d.toNat v ++ [wrE e 6 (p == 0)] ++ wrQ e 6 x.2)

/-- R114: a scan over the member lanes in ascending order: lane and value, with the running value and whether a step clamped. -/
def scanFrom (e : Env) (r : FmtR) (y : Nat) (q : Bool) : List Nat → List (Nat × Nat) × Bool
  | [] => ([], q)
  | l :: t =>
    let n := redStep r r.sat y (rdV e r.a.toNat l).toNat
    let rest := scanFrom e r n.1 (q || n.2) t
    ((l, if r.b == 1 then y else n.1) :: rest.1, rest.2)

/-- R114: the first member takes its own value, or the identity. -/
def scanLanes (e : Env) (r : FmtR) : List Nat → List (Nat × Nat) × Bool
  | [] => ([], false)
  | l :: t =>
    let x := (rdV e r.a.toNat l).toNat
    let rest := scanFrom e r x false t
    ((l, if r.b == 1 then identityOf r else x) :: rest.1, rest.2)

/-- R114, R236: `VSCAN`; where it visits no lane, it writes E alone. -/
def execVscan (h : Pfx) (r : FmtR) (s : State) : Out :=
  crossWord s h r 0x1A8 (fun e p =>
    let x := scanLanes e r (lanesOf p)
    x.1.map (fun v => wrV e 6 r.d.toNat v.1 (BitVec.ofNat 32 v.2)) ++ [wrE e 6 (p == 0)] ++ wrQ e 6 x.2)

end Sys2Proof.Machine
end

