-- ==== Sys2Proof/Machine/Moves.lean ====
section
/-! DEFINITION. Page placement: free device pages (R389, R417), the migration engine (R395 to R397), ownership records of pool pages
(R404), pins and their charges (R148, R150, R403), hints (R149). -/

namespace Sys2Proof.Machine

/-! ### Free device pages (R389) -/

/-- The profile whose list a page of a guest uses in a tier: pool pages have one list (R389, R417). -/
def listProf (s : State) (vmid tier : Nat) : Nat := if tier < 3 then guestProf s vmid else 0

/-- The free pages of a tier and profile, the first to be taken first. -/
def freePages (s : State) (tier prof : Nat) : List Nat := match s.mem.free.find? (fun f => f.tier == tier && f.profile == prof) with
  | some f => f.pages
  | none => []

/-- Replaces a list of free pages. -/
def putFree (s : State) (tier prof : Nat) (l : List Nat) : State :=
  let rest := s.mem.free.filter (fun f => !(f.tier == tier && f.profile == prof))
  { s with mem := { s.mem with free := rest ++ [{ tier := tier, profile := prof, pages := l }] } }

/-- Takes a page from a list. -/
def takeFree (s : State) (tier prof : Nat) : Option (Nat × State) := match freePages s tier prof with
  | p :: t => some (p, putFree s tier prof t)
  | [] => none

/-- Returns a page to a list. -/
def giveFree (s : State) (tier prof page : Nat) : State := putFree s tier prof (freePages s tier prof ++ [page])

/-! ### Ownership records of pool pages (R404) -/

/-- The address of the ownership record of a pool device page. -/
def ownAddr (s : State) (dpage : Nat) : Nat := nbits s.plat.poolown.toNat 12 40 * 2 ^ 12 + 16 * dpage

/-- The ownership record of a pool device page. -/
def ownRead (s : State) (dpage : Nat) : Nat × State := match hubRead s 0 (ownAddr s dpage) 16 with
  | (bs, s1) => (ofBytes bs, s1)

/-- Writes an ownership record. -/
def ownWrite (s : State) (dpage r : Nat) : State := hubWrite s 0 (ownAddr s dpage) (toBytes r 16)

/-- R404: RSTATE. -/
def ownState (r : Nat) : Nat := nbits r 34 3
/-- R404: SHARED. -/
def ownShared (r : Nat) : Bool := nbits r 37 1 == 1
/-- R404: OWNER. -/
def ownOwner (r : Nat) : Nat := nbits r 38 5
/-- R404: CLAIMER. -/
def ownClaimer (r : Nat) : Nat := nbits r 43 5
/-- R404: EPOCH. -/
def ownEpoch (r : Nat) : Nat := nbits r 96 32

/-- This package's number (R387). -/
def pkgNum (s : State) : Nat := nbits s.plat.pkgid.toNat 0 5

/-- R406 step 5: a new owner: OWNER, EPOCH + 1, RSTATE. -/
def ownHand (r owner rstate : Nat) : Nat := nset (nset (nset r 38 5 owner) 96 32 (ownEpoch r + 1)) 34 3 rstate

/-! ### The migration engine (R395 to R397) -/

/-- The bit of the allowed-tier mask of a tier (R144). -/
def tierBit (tier : Nat) : Nat := if tier < 2 then 0 else tier - 1

/-- R145: the mask of an entry allows a tier. -/
def tierAllowed (e : BitVec 128) (tier : Nat) : Bool := nbits (peAllow e) (tierBit tier) 1 == 1

/-- R419: the guest of an entry may have pages in the HBM of a tier's die. -/
def dieAllowed (s : State) (e : BitVec 128) (tier : Nat) : Bool :=
  decide (2 ≤ tier) || nbits (guestDies s (peVmid e)) tier 1 == 1

/-- The forwarding entry of a page. -/
def forwardOf (s : State) (page : Nat) : Option Forward := s.mem.forwards.find? (fun f => f.page == page)

/-- Frees the forwarding entry of a page. -/
def dropForward (s : State) (page : Nat) : State :=
  { s with mem := { s.mem with forwards := s.mem.forwards.filter (fun g => g.page != page) } }

/-- R404: a page of the region of the ownership records, which has none of its own: a record for each device page that DPAGE can name. -/
def inOwnRegion (s : State) (page : Nat) : Bool := decide (ownAddr s 0 / 2 ^ 19 ≤ page) && decide (page * 2 ^ 19 < ownAddr s (2 ^ 27))

/-- R395, R404: a pool page moves only if its ownership record is not SHARED; the region of the records never moves. -/
def poolMovable (s : State) (page : Nat) : Bool × State :=
  let e := pageEntry s page
  if peTier e != 3 then (true, s)
  else if inOwnRegion s page || !poolUp s then (false, s)
  else match ownRead s (pePage e) with
    | (r, s1) => (!ownShared r, s1)

/-- R395: what a page has to meet for a move to a tier, as the entry of the page stands. -/
def mayMove (s : State) (page tier : Nat) : Bool :=
  let e := pageEntry s page
  pageValid s page && peState e == 0 && pePins e == 0 && tierAllowed e tier && dieAllowed s e tier

/-- The partition of the guest that owns a page, whose policy the page follows (R399); for a guest that no context belongs to, which no rule gives a
partition, partition 0 (DESIGN CHOICE, log entry 34). -/
def pagePart (s : State) (e : BitVec 128) : Nat := match guestCtx s (peVmid e) with
  | some c => partOfQuarter s.hub.partCfg c.part.toNat
  | none => 0

/-- R399: a request that was taken counts toward RATE until the next pass of the policy. -/
def countReq (s : State) (e : BitVec 128) : State :=
  let p := pagePart s e
  { s with mem := { s.mem with reqs := aset s.mem.reqs p (agetD s.mem.reqs p 0 + 1) } }

/-- MOVE_REQUEST (R395): a request to move a page takes or changes a forwarding entry, or is not taken. -/
def moveRequest (s : State) (page tier : Nat) : State :=
  let e := pageEntry s page
  if !mayMove s page tier || peTier e == tier then s
  else match poolMovable s page with
    | (false, s1) => s1
    | (true, s1) =>
      let prof := listProf s1 (peVmid e) tier
      match forwardOf s1 page with
      | some f =>
        if f.begun || f.dstTier.toNat == tier then s1
        else (match takeFree s1 tier prof with
          | none => s1
          | some (d, s2) =>
            let s3 := giveFree s2 f.dstTier.toNat (listProf s2 (peVmid e) f.dstTier.toNat) f.dstPage.toNat
            putForward s3 { f with dstTier := BitVec.ofNat 2 tier, dstPage := BitVec.ofNat 27 d })
      | none =>
        if Config.forwards ≤ s1.mem.forwards.length then s1
        else match takeFree s1 tier prof with
          | none => s1
          | some (d, s2) =>
            let f : Forward :=
              { page := page, srcTier := BitVec.ofNat 2 (peTier e), srcPage := BitVec.ofNat 27 (pePage e), dstTier := BitVec.ofNat 2 tier,
                dstPage := BitVec.ofNat 27 d, begun := false, line := 0, closed := false, moved := [], held := [] }
            countReq { s2 with mem := { s2.mem with forwards := s2.mem.forwards ++ [f] } } e

/-- R395: a move that has not begun copying is cancelled; its destination page returns to its list. -/
def moveCancel (s : State) (page : Nat) : State := match forwardOf s page with
  | some f =>
    if f.begun then s
    else giveFree (dropForward s page) f.dstTier.toNat (listProf s (peVmid (pageEntry s page)) f.dstTier.toNat) f.dstPage.toNat
  | none => s

/-- The entry of a page as hardware updates it: at the agent that serves the page and in LPDDR6, and out of every cache (R391). -/
def setEntryHw (s : State) (page : Nat) (e : BitVec 128) : State := locDrop (pltWrite (setPageEntry s page e) page e) page

/-- R397: a line of a moving page closes: it is recalled through the source directory and its partials merge, so that none is left when
accesses to it begin to wait. -/
def closeLine (s : State) (f : Forward) (line : Nat) : State :=
  putForward (recallLine s (f.page * 4096 + line)) { f with line := line, closed := true, held := [] }

/-- MOVE_START (R397): the oldest waiting request begins if fewer than 8 moves copy: STATE 1, caches invalidated, line 0 closed. A request whose
page no longer meets the conditions of R395 is dropped. -/
def moveStart (s : State) (page : Nat) : State :=
  let begun := (s.mem.forwards.filter (fun f => f.begun)).length
  match s.mem.forwards.find? (fun f => !f.begun) with
  | some f =>
    if f.page != page || Config.copies ≤ begun || (peTier (pageEntry s page) == 3 && !poolUp s) then s
    else match poolMovable s page with
      | (ok, s1) =>
        if !ok || !mayMove s1 page f.dstTier.toNat then moveCancel s1 page
        else closeLine (setEntryHw s1 page (eset (pageEntry s1 page) 29 3 1)) { f with begun := true } 0
  | none => s

/-- A list of locations moves with a line: what stood at `src` now also stands at `dst` (poison and keys of lines and parts). -/
def copyTags (l : List Nat) (src dst n : Nat) : List Nat :=
  l.filter (fun p => !(decide (dst ≤ p) && decide (p < dst + n))) ++
    (l.filter (fun p => decide (src ≤ p) && decide (p < src + n))).map (fun p => p - src + dst)

/-- R397: the 128 bytes of a line with the poison of each 16-byte part, and the key it is stored under, from one location to another. -/
def copyLine (s : State) (src dst : Nat) : State :=
  let s1 := rawWriteN s dst (rawReadN s src 128)
  let keys := match aget s.mem.lineKeys (src / 128) with
    | some k => aset s.mem.lineKeys (dst / 128) k
    | none => adel s.mem.lineKeys (dst / 128)
  let poison := copyTags s.mem.poison (src / 16) (dst / 16) 8
  let poisonL2 := copyTags s.mem.poisonL2 (src / 16) (dst / 16) 8
  let inject := s1.mem.inject.filter (fun p => p.1 / 16 != dst / 128)
  { s1 with mem := { s1.mem with lineKeys := keys, poison := poison, poisonL2 := poisonL2, inject := inject } }

/-- An uncorrectable error stands in the table entry of a page (R397). -/
def entryBad (s : State) (page : Nat) : Bool :=
  let loc := hubLoc (pltBase s.plat) + 16 * page
  s.mem.poison.contains (loc / 16) || s.mem.inject.any (fun p => p.2.1 && p.1 / 2 == loc / 16)

/-- MOVE_END (R397, R400): TIER, DPAGE and STATE 0 go into the entry, the source page returns to its list, the move is counted. -/
def moveEnd (s : State) (f : Forward) : State :=
  let e := pageEntry s f.page
  let e1 := eset (eset (eset e 29 3 0) 27 2 f.dstTier.toNat) 0 27 f.dstPage.toNat
  let s1 := dropForward (setEntryHw s f.page e1) f.page
  let s2 := giveFree s1 f.srcTier.toNat (listProf s1 (peVmid e) f.srcTier.toNat) f.srcPage.toNat
  bumpStat (bumpStat s2 (peVmid e) f.dstTier.toNat 1) (peVmid e) 8 524288

/-- MOVE_LINE_COPY (R397): the closed line is copied and marked moved, and the next one is closed; the last one ends the move. A copy from or to
the pool waits for a port that carries it (R26). An uncorrectable error in the entry ends the move with the page frozen in STATE 1. The held accesses of the line are performed by the caller. -/
def moveLine (s : State) (f : Forward) : State :=
  let spa := f.page * 2 ^ 19 + f.line * 128
  if (f.srcTier == 3 || f.dstTier == 3) && !poolUp s then s
  else if entryBad s f.page then hubErrorRecord (dropForward s f.page) 0 8 0xFF 0 0 spa
  else
    let s1 := findErrors s spa 128 true
    let src := spaLoc s1 spa
    let f1 := { f with moved := f.moved ++ [f.line] }
    let s2 := putForward s1 f1
    let s3 := copyLine s2 src (spaLoc s2 spa)
    if f.line == 4095 then moveEnd s3 f1
    else closeLine s3 f1 (f.line + 1)

/-! ### The hold window (R154, R398) -/

/-! ### Pins (R148, R150, R403) -/

/-- What became of one page of a placement instruction (R151): acted on, the status at which it stops, or not complete yet. -/
inductive PageAct where
  | acted (s : State)
  | stop (status : Nat) (s : State)
  | wait (s : State)
deriving DecidableEq, Repr

/-- R150: pins that a context holds. -/
def pinsOf (s : State) (ctx : Nat) : Nat := (s.mem.pins.filter (fun p => p.ctx == ctx)).length

/-- R150: one more pin would exceed the quota of a context. -/
def pinQuotaOut (s : State) (ctx : Nat) : Bool := decide (nbits (ctxOf s ctx).pinquota.toNat 0 32 ≤ pinsOf s ctx)

/-- R403: the note of a page whose count rises from 0, with the page's guest-physical address, kept for up to 65,536 pages. -/
def noteOf (s : State) (page gpa ctx : Nat) : State :=
  let l := s.mem.notes.filter (fun n => n.page != page)
  if Config.pinNotes ≤ l.length then s
  else { s with mem := { s.mem with notes := l ++ [{ page := page, gpa := gpa / 2 ^ 19 * 2 ^ 19, ctx := ctx }] } }

/-- R148: one pin is added to a page. -/
def pinAdd (s : State) (ctx page gpa : Nat) : State :=
  let e := pageEntry s page
  let s1 := setPageEntry (moveCancel s page) page (eset e 48 16 (pePins e + 1))
  let s2 := if pePins e == 0 then noteOf s1 page gpa ctx else s1
  { s2 with mem := { s2.mem with pins := s2.mem.pins ++ [{ page := page, ctx := ctx }] } }

/-- A hand-over in which this package claims a page. -/
def claimOf (s : State) (page : Nat) : Option Handover := s.mem.hand.find? (fun h => h.page == page && h.claimant)

/-- The hand-over of a page takes a step, or begins. -/
def setHand (s : State) (page : Nat) (claimant : Bool) (step : HandoverStep) : State :=
  let rest := s.mem.hand.filter (fun h => !(h.page == page && h.claimant == claimant))
  { s with mem := { s.mem with hand := rest ++ [{ page := page, claimant := claimant, step := step }] } }

/-- The hand-over of a page has ended here. -/
def dropHand (s : State) (page : Nat) (claimant : Bool) : State :=
  { s with mem := { s.mem with hand := s.mem.hand.filter (fun h => !(h.page == page && h.claimant == claimant)) } }

/-- R148, R406: a page is claimed for an instruction that waits for it. -/
def claimFor (s : State) (page op : Nat) : State :=
  let s1 := if (claimOf s page).isSome then s else setHand s page true .claiming
  if s1.mem.claims.contains (page, op) then s1 else { s1 with mem := { s1.mem with claims := s1.mem.claims ++ [(page, op)] } }

/-- `PIN` of one page (R148, R151): OTHER_GUEST, NOT_SHARED, PIN_LIMIT, QUOTA in this order; it waits for a move that has begun and for
the hand-over of a pool page, and for a port that carries the reading of its ownership record (R26). -/
def pinPage (s : State) (op ctx page gpa : Nat) : PageAct :=
  let e := pageEntry s page
  let limits := fun s => if pePins e == 0xFFFF then some (PageAct.stop 3 s) else if pinQuotaOut s ctx then some (.stop 1 s) else none
  if !pageValid s page then .stop 6 s
  else if peVmid e != (ctxOf s ctx).vmid.toNat then .stop 5 s
  else if peState e == 3 && !poolUp s then .wait s
  else if peState e == 3 then
    match ownRead s (pePage e) with
    | (r, s1) =>
      if inOwnRegion s page || !ownShared r || 4 ≤ ownState r then .stop 9 s1
      else match limits s1 with
        | some x => x
        | none => .wait (claimFor s1 page op)
  else match limits s with
    | some x => x
    | none => if peState e == 0 then .acted (pinAdd s ctx page gpa) else .wait s

/-- R150: the pin that an `UNPIN` by a context removes: the oldest of its own, or the oldest of the page. -/
def pinGone (s : State) (ctx page : Nat) : Option Pin :=
  match s.mem.pins.find? (fun p => p.page == page && p.ctx == ctx) with
  | some p => some p
  | none => s.mem.pins.find? (fun p => p.page == page)

/-- `UNPIN` of one page (R148, R150, R151). -/
def unpinPage (s : State) (ctx page : Nat) : PageAct :=
  let e := pageEntry s page
  if !pageValid s page then .stop 6 s
  else if peVmid e != (ctxOf s ctx).vmid.toNat then .stop 5 s
  else if pePins e == 0 then .stop 4 s
  else
    let s1 := setPageEntry s page (eset e 48 16 (pePins e - 1))
    let pins := match pinGone s1 ctx page with
      | some p => s1.mem.pins.erase p
      | none => s1.mem.pins
    let notes := if pePins e == 1 then s1.mem.notes.filter (fun n => n.page != page) else s1.mem.notes
    .acted { s1 with mem := { s1.mem with pins := pins, notes := notes } }

/-! ### Hints (R149) -/

/-- R149, R419: the tier that hint code 1 prefers: the HBM of the die with the highest counter among those allowed; with equal counters,
the one that holds the page. -/
def preferDie (s : State) (e : BitVec 128) : Option Nat :=
  let dies := guestDies s (peVmid e)
  let c1 := efld e 80 16
  let c2 := efld e 96 16
  if dies == 1 then some 0
  else if dies == 2 then some 1
  else if dies == 0 then none
  else if c2 < c1 then some 0
  else if c1 < c2 then some 1
  else if peTier e < 2 then some (peTier e) else none

/-- The tier that a hint code names (R149). -/
def hintTier (s : State) (e : BitVec 128) (code : Nat) : Option Nat :=
  match code with
  | 1 => preferDie s e
  | 2 => some 0
  | 3 => some 1
  | 4 => some 2
  | 5 => some 3
  | _ => none

/-- R149, R151, R419: the code is refused: reserved, outside the allowed mask, or a die outside DIEMASK. -/
def hintDenied (s : State) (e : BitVec 128) (code : Nat) : Bool :=
  match code with
  | 1 => !tierAllowed e 0
  | 2 => !tierAllowed e 0 || !dieAllowed s e 0
  | 3 => !tierAllowed e 1 || !dieAllowed s e 1
  | 4 => !tierAllowed e 2
  | 5 => !tierAllowed e 3
  | _ => true

/-- `HINT` of one page through a translation of a class (R146, R149 to R151). -/
def hintPage (s : State) (ctx page code strength : Nat) (sw : Bool) : PageAct :=
  let e := pageEntry s page
  let clear := code == 0 || strength == 0
  if !pageValid s page then .stop 6 s
  else if peVmid e != (ctxOf s ctx).vmid.toNat then .stop 5 s
  else if sw then .stop 7 s
  else if clear then .acted (setPageEntry s page (eset e 35 5 0))
  else if hintDenied s e code then .stop 2 s
  else if (ctxOf s ctx).balance == 0 then .stop 1 s
  else
    let s1 := setPageEntry s page (eset (eset e 35 3 code) 38 2 strength)
    let c := ctxOf s1 ctx
    let s2 := { s1 with hub := { s1.hub with ctxs := aset s1.hub.ctxs ctx { c with balance := c.balance - 1 } } }
    .acted (match hintTier s e code with
      | some t => if strength == 3 then moveRequest s2 page t else s2
      | none => s2)

end Sys2Proof.Machine
end

