-- ==== Sys2Proof/Machine/Window.lean ====
section
/-! DEFINITION. The hub register window (R433): which register an offset names, who may read and write it, what it reads, and the event
that a write of it is. -/

namespace Sys2Proof.Machine

/-- R433: base of the window. -/
def winBase : Nat := 0x000FFFFF00000000

/-- The offset of an address in the window, whose base is a multiple of its 16 MiB. -/
def winOfs (spa : Nat) : Nat := spa % 0x1000000

/-- An address lies in the window. -/
def inWindow (spa : Nat) : Bool := decide (winBase ≤ spa) && decide (spa < winBase + 0x1000000)

/-- A register of the window by its place (R326, R433). -/
inductive WinReg where
  | queue (q k : Nat)
  | fqreplay | fqreplayh | trapact | preempt | preemptsig | endctx
  | pltcfg | pltlim | pkgid | poolown
  | migpol (n : Nat)
  | gstatsel | pooltake
  | stat (k : Nat)
  | partcfg | partctl | partsig
  | pcap (n : Nat) | penergy (n : Nat) | l2bkt (n : Nat)
  | prof (n i : Nat)
  | hartclass (h : Nat)
  | errcnt (e : Nat) | port (n : Nat)
  | jrncfg | jrnmirror | jrnseq
  | recctl (q : Nat)
  | fwstage | fwctl | fwstat
  | meas (n i : Nat)
  | ctxreg (c n : Nat)
  | ctxqos (c : Nat)
  | none
deriving DecidableEq, Repr

/-- A register at 8-byte steps from a base: its number, if it is below a count. -/
def stepOf (ofs base n : Nat) : Option Nat :=
  if base ≤ ofs && ofs < base + 8 * n && ofs % 8 == 0 then some ((ofs - base) / 8) else Option.none

/-- The blocks at 0x2000 and 0x3000. -/
def winReg23 (ofs : Nat) : WinReg :=
  match ofs with
  | 0x2000 => .fqreplay
  | 0x2008 => .fqreplayh
  | 0x2010 => .trapact
  | 0x2018 => .preempt
  | 0x2020 => .preemptsig
  | 0x2028 => .endctx
  | 0x3000 => .pltcfg
  | 0x3008 => .pltlim
  | 0x3010 => .pkgid
  | 0x3018 => .poolown
  | 0x3040 => .gstatsel
  | 0x3048 => .pooltake
  | _ => match stepOf ofs 0x3020 4, stepOf ofs 0x3080 9 with
    | some n, _ => .migpol n
    | _, some k => .stat k
    | _, _ => .none

/-- The blocks at 0x4000, 0x5000 and 0x6000. -/
def winReg456 (ofs : Nat) : WinReg :=
  match ofs with
  | 0x4000 => .partcfg
  | 0x4008 => .partctl
  | 0x4010 => .partsig
  | 0x5200 => .jrncfg
  | 0x5208 => .jrnmirror
  | 0x5210 => .jrnseq
  | 0x6000 => .fwstage
  | 0x6008 => .fwctl
  | 0x6010 => .fwstat
  | _ =>
    match stepOf ofs 0x4020 4, stepOf ofs 0x4040 4, stepOf ofs 0x4080 16, stepOf ofs 0x4100 64, stepOf ofs 0x4400 Config.harts with
    | some n, _, _, _, _ => .pcap n
    | _, some n, _, _, _ => .penergy n
    | _, _, some n, _, _ => .l2bkt n
    | _, _, _, some n, _ => .prof (n / 8) (n % 8)
    | _, _, _, _, some h => .hartclass h
    | _, _, _, _, _ =>
      match stepOf ofs 0x5000 9, stepOf ofs 0x5100 8, stepOf ofs 0x5400 64, stepOf ofs 0x6100 64 with
      | some e, _, _, _ => if e == 0 then .none else .errcnt e
      | _, some n, _, _ => .port n
      | _, _, some q, _ => .recctl q
      | _, _, _, some n => .meas (n / 8) (n % 8)
      | _, _, _, _ => .none

/-- R433: the register at an offset. -/
def winReg (ofs : Nat) : WinReg :=
  if ofs < 0x1000 then (match stepOf ofs 0 512 with
    | some n => if n % 8 < 7 then .queue (n / 8) (n % 8) else .none
    | Option.none => .none)
  else if ofs < 0x4000 then winReg23 ofs
  else if ofs < 0x10000 then winReg456 ofs
  else if 0x100000 ≤ ofs && ofs < 0x200000 then
    (let c := (ofs - 0x100000) / 0x100
     match stepOf (ofs % 0x100) 0 17 with
     | some n => if n == 16 then .ctxqos c else if 2 ≤ n && n ≤ 10 then .ctxreg c n else .none
     | Option.none => .none)
  else .none

/-- R312: the lowest levels that may read and write a privileged register; `none` for none. -/
def privLevels (n : Nat) : Option Level × Option Level :=
  match n with
  | 0x00 => (some .s, none)
  | 0x01 => (some .s, none)
  | 0x02 => (some .s, some .s)
  | 0x03 => (some .h, some .h)
  | 0x04 => (some .s, some .s)
  | 0x05 => (some .s, some .h)
  | 0x06 => (some .h, some .h)
  | 0x07 => (some .h, some .h)
  | 0x08 => (some .s, some .h)
  | 0x09 => (some .s, some .h)
  | 0x0A => (none, some .s)
  | 0x0B => (some .s, none)
  | 0x10 => (some .f, none)
  | 0x11 => (some .f, some .f)
  | _ => (none, none)

/-- Bit 2 of QCFG: a service queue (R327). -/
def isService (s : State) (q : Nat) : Bool := (queueOf s q).cfg.getLsbD 2

/-- The lowest levels that may read and write a register of the window (R312, R326, R366, R372, R378, R387, R400, R413, R429, R441; those
that no table gives: DEDUCED, log entry 14). A register that is written only reads zero, and a write of one that is read only is ignored
(R7): each takes the level of the other column (DEDUCED, log entry 67), but in the block of contexts, where R312 lets no level do so. -/
def winLevels (r : WinReg) : Option Level × Option Level :=
  match r with
  | .queue _ k => (some .s, if k ≤ 1 then some .h else some .s)
  | .fqreplay => (some .s, some .s)
  | .fqreplayh => (some .h, some .h)
  | .trapact => (some .s, some .s)
  | .preempt => (some .s, some .s)
  | .preemptsig => (some .h, some .h)
  | .endctx => (some .s, some .s)
  | .pltcfg => (some .h, some .f)
  | .pltlim => (some .h, some .f)
  | .pkgid => (some .s, some .f)
  | .poolown => (some .h, some .f)
  | .migpol _ => (some .h, some .h)
  | .gstatsel => (some .h, some .h)
  | .pooltake => (some .h, some .h)
  | .stat _ => (some .s, some .s)
  | .partcfg => (some .s, some .s)
  | .partctl => (some .h, some .h)
  | .penergy _ => (some .s, some .s)
  | .errcnt _ => (some .h, some .h)
  | .jrnseq => (some .h, some .h)
  | .fwctl => (some .h, some .h)
  | .fwstat => (some .h, some .h)
  | .meas _ _ => (some .h, some .h)
  | .ctxreg _ n => privLevels n
  | .ctxqos _ => (some .s, some .h)
  | .partsig => (some .s, some .h)
  | .pcap _ => (some .s, some .h)
  | .l2bkt _ => (some .s, some .h)
  | .prof _ _ => (some .s, some .h)
  | .hartclass _ => (some .s, some .h)
  | .port _ => (some .h, some .h)
  | .jrncfg => (some .h, some .h)
  | .jrnmirror => (some .h, some .h)
  | .recctl _ => (some .h, some .h)
  | .fwstage => (some .h, some .h)
  | .none => (some .s, some .s)

/-- The context bound to a queue (R327). -/
def queueCtx (s : State) (q : Nat) : Nat := nbits (queueOf s q).cfg.toNat 34 12

/-- R326, R433: at S, a register of a queue or a context belongs to the guest of the writer. -/
def winOwn (s : State) (w : Writer) (r : WinReg) : Bool :=
  let mine := fun c => (ctxOf s c).vmid == w.vmid
  match r with
  | .queue q _ => mine (queueCtx s q)
  | .ctxreg c _ => mine c
  | .ctxqos c => mine c
  | _ => true

/-- R433: an access to a register is permitted. -/
def winAllowed (s : State) (w : Writer) (r : WinReg) (write : Bool) : Bool :=
  let need := if write then (winLevels r).2 else (winLevels r).1
  w.level != .u && (match need with | some l => levelGe w.level l | none => false) && (levelGe w.level .h || winOwn s w r)

/-- R326: QELAPSED counts while EN is 1; the field holds its distance from the clock meanwhile. -/
def queueElapsed (s : State) (x : Queue) : DWord := if x.cfg.getLsbD 0 then x.elapsed + BitVec.ofNat 64 s.cycles else x.elapsed

/-- A register of a queue (R326). -/
def queueReg (s : State) (q k : Nat) : DWord :=
  let x := queueOf s q
  match k with
  | 0 => x.cfg
  | 1 => x.base
  | 2 => x.wr.setWidth 64
  | 3 => x.rd.setWidth 64
  | 4 => x.done.setWidth 64
  | 5 => queueElapsed s x
  | _ => x.energy

/-- R312: one of registers 0x02 to 0x09 of a context. -/
def ctxRegRead (s : State) (c n : Nat) : DWord :=
  let x := ctxOf s c
  match n with
  | 0x02 => x.s1root
  | 0x03 => x.s2root
  | 0x04 => x.trapq
  | 0x05 => x.faultq
  | 0x06 => s.hub.faultqh
  | 0x07 => x.savebase
  | 0x08 => x.pinquota
  | 0x09 => x.hintbud
  | _ => 0

/-- R428: PENERGYp, the credits of a partition divided by 100,000. -/
def penergyOf (s : State) (p : Nat) : DWord := BitVec.ofNat 64 (agetD s.hub.penergy p 0 / 100000)

/-- R440: FWSTAT. -/
def fwstat (p : Platform) : DWord :=
  p.fwVer.setWidth 64 <<< 32 ||| p.fwResult.setWidth 64 <<< 8 ||| p.fwState.setWidth 64

/-- R433: what a register reads. -/
def winRead (s : State) (w : Writer) (r : WinReg) : DWord :=
  match r with
  | .queue q k => queueReg s q k
  | .preemptsig => s.hub.preemptSig
  | .pltcfg => s.plat.pltcfg
  | .pltlim => s.plat.pltlim
  | .pkgid => s.plat.pkgid
  | .poolown => s.plat.poolown
  | .migpol n => sget s.plat.migpol n
  | .gstatsel => s.plat.gstatsel
  | .stat k =>
    let v := if levelGe w.level .h then nbits s.plat.gstatsel.toNat 0 8 else w.vmid.toNat
    sget s.plat.stats (v * 16 + k)
  | .partcfg => s.hub.partCfg.setWidth 64
  | .partsig => s.hub.partSig
  | .pcap n => if isPart s.hub.partCfg n then sget s.hub.pcap n else 0
  | .penergy n => penergyOf s n
  | .l2bkt n => sget s.hub.buckets n
  | .prof n i => sget s.hub.profiles (n * 8 + i)
  | .hartclass h => sget s.hub.hartClass h
  | .errcnt e => (sget s.plat.errcnt e).setWidth 64
  | .port n => sget s.plat.ports n
  | .jrncfg => s.plat.jrnCfg
  | .jrnmirror => s.plat.jrnMirror
  | .jrnseq => s.plat.jrnSeq
  | .recctl q => (queueOf s q).recctl
  | .fwstage => s.plat.fwStage
  | .fwstat => fwstat s.plat
  | .meas n i => (sget s.plat.meas n).extractLsb' (64 * i) 64
  | .ctxreg c n => ctxRegRead s c n
  | .ctxqos c => (ctxOf s c).qos
  | _ => 0

/-- The event that a write of a register is (R433, R434); a write that has no effect is none. -/
def winEvent (w : Writer) (ofs : Nat) (v : DWord) : Option Instr :=
  let id : BitVec 32 := v.setWidth 32
  match winReg ofs with
  | .queue q 0 => some (.qcfgWrite w q v)
  | .queue q 2 => some (.qwrWrite w q v)
  | .fqreplay => some (.fqreplay w v)
  | .fqreplayh => some (.fqreplayh w v)
  | .trapact =>
    (match nbits v.toNat 62 2 with
     | 0 => some (.trapactResume w id)
     | 1 => some (.trapactSkip w id)
     | 2 => some (.trapactEnd w id)
     | _ => none)
  | .preempt =>
    (match nbits v.toNat 62 2 with
     | 0 => some (.preemptSave w (nbits v.toNat 0 12))
     | 1 => some (.preemptRestore w (nbits v.toNat 0 12))
     | _ => none)
  | .endctx => some (.endctx w (nbits v.toNat 0 12))
  | .pooltake => some (.pooltake w v)
  | .partctl =>
    (match nbits v.toNat 62 2 with
     | 1 => some (.partctlMerge w v)
     | 2 => some (.partctlSplit w v)
     | _ => none)
  | .l2bkt n => some (.l2bktWrite w n v)
  | .prof n i => some (.iprofWrite w n i v)
  | .port n => some (.portWrite w n v)
  | .fwctl => some (.fwctlSwitch w v)
  | .ctxreg c 9 => some (.hintbudWrite w c v)
  | .ctxreg _ 10 => some (.wwend w v)
  | .ctxqos c => some (.ctxqosWrite w c v)
  | .none => none
  | _ => some (.registerWrite w ofs v)

/-- R433: an access of a size to the window is of the one kind that it takes: an aligned 8-byte load or store. -/
def winShape (spa n : Nat) : Bool := n == 8 && spa % 8 == 0

/-- An event that is a write of a register of the window. -/
def isWinWrite : Instr → Bool
  | .qcfgWrite _ _ _ => true
  | .qwrWrite _ _ _ => true
  | .fqreplay _ _ => true
  | .fqreplayh _ _ => true
  | .trapactResume _ _ => true
  | .trapactSkip _ _ => true
  | .trapactEnd _ _ => true
  | .preemptSave _ _ => true
  | .preemptRestore _ _ => true
  | .endctx _ _ => true
  | .pooltake _ _ => true
  | .partctlMerge _ _ => true
  | .partctlSplit _ _ => true
  | .l2bktWrite _ _ _ => true
  | .iprofWrite _ _ _ _ => true
  | .portWrite _ _ _ => true
  | .fwctlSwitch _ _ => true
  | .hintbudWrite _ _ _ => true
  | .wwend _ _ => true
  | .ctxqosWrite _ _ _ => true
  | .registerWrite _ _ _ => true
  | _ => false

/-- R434: a write of the window is still to be performed; an access that arrives later comes after it. -/
def winPending (s : State) : Bool := s.agenda.head?.any isWinWrite

/-- A permitted store to the window: the write is the next thing that happens, after those that arrived before it (R434). -/
def winStore (s : State) (w : Writer) (spa : Nat) (v : DWord) : State :=
  match winEvent w (winOfs spa) v with
  | some i => { s with agenda := s.agenda.takeWhile isWinWrite ++ i :: s.agenda.dropWhile isWinWrite }
  | none => s

end Sys2Proof.Machine
end

