-- ==== Sys2Proof/Machine/Access.lean ====
section
/-! DEFINITION. Variable-latency instructions in flight (R37 to R39, R182): their order (R129, R130, R249), translation and parking,
routing to the home (R390, R398, R401), performing and completion (R240, R241, R245 to R248). -/

namespace Sys2Proof.Machine

/-- What an instruction in flight does. -/
inductive MemKind where
  | load | store | atom | acas | red | fence | waitva | wakeva | tierq | bar | bara | ecset | ecadd | ecq | place
  | ldsh | evsh | slot | push | engine | system | other
deriving DecidableEq, Repr

/-- The kind of an instruction. -/
def kindOf : Instr → MemKind
  | .ld _ _ => .load
  | .lds _ _ => .load
  | .ldl _ _ => .load
  | .st _ _ => .store
  | .sts _ _ => .store
  | .stl _ _ => .store
  | .atom _ _ => .atom
  | .acas _ _ => .acas
  | .red _ _ => .red
  | .fence _ _ => .fence
  | .waitva _ _ => .waitva
  | .wakeva _ _ => .wakeva
  | .tierq _ _ => .tierq
  | .bar _ _ => .bar
  | .bara _ _ => .bara
  | .ecset _ _ => .ecset
  | .ecadd _ _ => .ecadd
  | .ecq _ _ => .ecq
  | .pin _ _ => .place
  | .unpin _ _ => .place
  | .hint _ _ => .place
  | .ldsh _ _ => .ldsh
  | .cbld _ _ => .ldsh
  | .evsh _ _ => .evsh
  | .shset _ _ => .slot
  | .shget _ _ => .slot
  | .subq _ _ => .slot
  | .push _ _ => .push
  | .flushr _ _ => .engine
  | .invr _ _ => .engine
  | .cpy _ _ => .engine
  | .cpyg _ _ => .engine
  | .rdh _ _ => .engine
  | .rdhg _ _ => .engine
  | .sub _ _ => .engine
  | .unsub _ _ => .engine
  | .pubfl _ _ => .engine
  | .mma _ _ => .engine
  | .mmz _ _ => .engine
  | .accld _ _ => .engine
  | .accst _ _ => .engine
  | .accrd _ _ => .engine
  | .accwr _ _ => .engine
  | .qfence _ _ => .engine
  | .sysc _ _ => .system
  | .tlbiAsid _ _ => .system
  | .tlbiVm _ _ => .system
  | .tlbiS2 _ _ => .system
  | .tlbiAll _ _ => .system
  | .tlbir _ _ => .system
  | .tlbirS2 _ _ => .system
  | .atp _ _ => .system
  | .lcinv _ _ => .system
  | .lcinvAll _ _ => .system
  | .notifyw _ _ => .system
  | .ecciCorr _ _ => .system
  | .ecciUnc _ _ => .system
  | _ => .other

/-- A format M word of zeros. -/
def FmtM.zero : FmtM :=
  { d := 0, am := 0, sb := 0, b := 0, c := 0, ord := 0, scope := 0, mtype := 0, sc := false, flag := 15 }

/-- The fields of a format E word that an op in flight needs, as those of format M. -/
def fmtOfE (r : FmtE) : FmtM := { FmtM.zero with d := r.d, c := r.c, scope := r.scope, flag := r.flag }

/-- The format E fields of an instruction (R268). -/
def engFmt : Instr → Option FmtE
  | .ldsh _ r => some r
  | .evsh _ r => some r
  | .shset _ r => some r
  | .shget _ r => some r
  | .cbld _ r => some r
  | .cpy _ r => some r
  | .cpyg _ r => some r
  | .rdh _ r => some r
  | .rdhg _ r => some r
  | .sub _ r => some r
  | .unsub _ r => some r
  | .subq _ r => some r
  | .pubfl _ r => some r
  | .mma _ r => some r
  | .mmz _ r => some r
  | .accld _ r => some r
  | .accst _ r => some r
  | .accrd _ r => some r
  | .accwr _ r => some r
  | .push _ r => some r
  | .qfence _ r => some r
  | .sysc _ r => some r
  | .tlbiAsid _ r => some r
  | .tlbiVm _ r => some r
  | .tlbiS2 _ r => some r
  | .tlbiAll _ r => some r
  | .tlbir _ r => some r
  | .tlbirS2 _ r => some r
  | .atp _ r => some r
  | .lcinv _ r => some r
  | .lcinvAll _ r => some r
  | .notifyw _ r => some r
  | .ecciCorr _ r => some r
  | .ecciUnc _ r => some r
  | _ => none

/-- The format M fields of an instruction in flight. -/
def memFmt : Instr → FmtM
  | .ld _ r => r
  | .lds _ r => r
  | .ldl _ r => r
  | .st _ r => r
  | .sts _ r => r
  | .stl _ r => r
  | .atom _ r => r
  | .acas _ r => r
  | .red _ r => r
  | .fence _ r => r
  | .waitva _ r => r
  | .wakeva _ r => r
  | .tierq _ r => r
  | .bar _ r => r
  | .bara _ r => r
  | .ecset _ r => r
  | .ecadd _ r => r
  | .ecq _ r => r
  | .pin _ r => r
  | .unpin _ r => r
  | .hint _ r => r
  | .flushr _ r => r
  | .invr _ r => r
  | i => match engFmt i with
    | some r => fmtOfE r
    | none => FmtM.zero

/-- The 10-bit opcode of an instruction. -/
def opcodeOf (i : Instr) : Nat := match encodeWord i with
  | some w => (opOf w).toNat
  | none => 0

/-- R127: whether an instruction in flight is a release: a barrier arrival always is (R255). -/
def isRelease (o : Op) : Bool :=
  match kindOf o.instr with
  | .bar => true
  | .bara => true
  | .push => true
  | _ => (memFmt o.instr).ord.getLsbD 1

/-- The scope of a release: `pkg` for `PUSH` (R136). -/
def releaseScope (o : Op) : Nat := if kindOf o.instr == .push then 4 else (memFmt o.instr).scope.toNat

/-- R127: whether an instruction in flight is an acquire. -/
def isAcquire (o : Op) : Bool := (memFmt o.instr).ord.getLsbD 0

/-- Whether it reads memory. -/
def doesRead : MemKind → Bool
  | .load => true
  | .atom => true
  | .acas => true
  | .waitva => true
  | .red => true
  | .ldsh => true
  | _ => false

/-- Whether it writes memory. -/
def doesWrite : MemKind → Bool
  | .store => true
  | .atom => true
  | .acas => true
  | .red => true
  | .evsh => true
  | _ => false

/-- R129, R256: whether it reads a location, an event counter among them. -/
def readsAny (k : MemKind) : Bool := doesRead k || k == .ecadd || k == .ecq

/-- R129, R256: whether it writes a location, an event counter among them. -/
def writesAny (k : MemKind) : Bool := doesWrite k || k == .ecadd || k == .ecset

/-- Whether it has an address in memory. -/
def hasAddr : MemKind → Bool
  | .tierq => false
  | .wakeva => true
  | k => doesRead k || doesWrite k

/-- The bytes of a lane's part. -/
def partBytes (o : Op) : Nat := match o.instr with
  | .ldsh _ _ => 64
  | .evsh _ _ => 64
  | .cbld _ _ => 32
  | i => accBytes (memFmt i)

/-- A part that has not been performed. -/
def partOpen (p : Part) : Bool := match p.st with
  | .done => false
  | .dropped => false
  | _ => true

/-- A part that waits for a replay, or is detached with a trap. -/
def partStopped (p : Part) : Bool := match p.st with
  | .parked _ => true
  | .detached _ => true
  | _ => false

/-- A part concerns a lane: its own, or a uniform form of the lane's group. -/
def partOf (q : Op) (p : Part) (lane : Nat) : Bool := p.lane == lane || (p.lane == 32 && q.group.getLsbD lane)

/-! ### Where an access goes -/

/-- A run of an access in one page. -/
structure Seg where
  x   : Xlat
  va  : Nat
  len : Nat
deriving DecidableEq, Repr

/-- The runs of an access of `n` bytes. -/
def segsOf (p : Part) (n : Nat) : List Seg :=
  let va := p.va.toNat
  match p.xs with
  | [x] => [{ x := x, va := va, len := n }]
  | [x, y] =>
    let k := 2 ^ x.size - va % 2 ^ x.size
    [{ x := x, va := va, len := k }, { x := y, va := va + k, len := n - k }]
  | _ => []

/-- The system-physical address of a run. -/
def segSpa (g : Seg) : Nat := xlatOut g.x g.va

/-- The worst of the routes of an access. -/
def routeAll (s : State) (die : Nat) (segs : List Seg) : Route :=
  let l := segs.map (fun g => routeOf s die (segSpa g) g.len)
  if l.contains .bad then .bad else if l.contains .frozen then .frozen else if l.contains .closed then .closed else .go

/-! ### Order (R124, R129, R130, R249) -/

/-- Two parts may touch a common byte: where both are translated, their system-physical runs meet; otherwise their offsets within a page,
in which the addresses of one page in any space agree. -/
def mayOverlap (q : Op) (p : Part) (o : Op) (t : Part) : Bool :=
  hasAddr (kindOf q.instr) && hasAddr (kindOf o.instr) &&
    (if p.xs.isEmpty || t.xs.isEmpty then rangesMeet (p.va.toNat % 2 ^ 19) (partBytes q) (t.va.toNat % 2 ^ 19) (partBytes o)
     else (segsOf p (partBytes q)).any (fun g => (segsOf t (partBytes o)).any (fun h =>
       rangesMeet (segSpa g) g.len (segSpa h) h.len)))

/-- A part on a DEV page, or one that may prove to be on one when it is translated (R124, R273). -/
def mayDev (p : Part) : Bool := p.xs.any (fun x => x.cls == 2) || (p.xs.isEmpty && !isWindow p.va.toNat)

/-- A kind that acts on the block's own resources or on a queue, or on a page's placement (R153): an earlier access does not hold it back. -/
def unordered (k : MemKind) : Bool := k == .slot || k == .engine || k == .system || k == .place || k == .tierq

/-- A kind that is no access of R129 and holds nothing back while it is open (R153). -/
def holdsNothing (k : MemKind) : Bool := k == .place || k == .tierq

/-- R256: two instructions on one event counter, which is a location. -/
def sameCounter (q o : Op) : Bool :=
  let ec := fun k : MemKind => k == .ecset || k == .ecadd || k == .ecq
  ec (kindOf q.instr) && ec (kindOf o.instr) && (memFmt q.instr).c == (memFmt o.instr).c

/-- R124, R129, R130, R153, R249, R256: an earlier open part of the same strand that a later part must wait for. Whether two accesses touch
one byte, or both lie on DEV pages, counts when the later one is to be performed, not when it is translated. -/
def orderBlocks (q : Op) (p : Part) (o : Op) (t : Part) : Bool :=
  if kindOf q.instr == .fence then true
  else if unordered (kindOf o.instr) || holdsNothing (kindOf q.instr) then false
  else isAcquire q || isRelease o || (writesAny (kindOf o.instr) && readsAny (kindOf q.instr))
    || (kindOf o.instr == .fence && (memFmt o.instr).ord.getLsbD 0 && readsAny (kindOf q.instr)) || sameCounter q o
    || (t.st != .walk && (mayOverlap q p o t ||
      (hasAddr (kindOf q.instr) && hasAddr (kindOf o.instr) && mayDev p && mayDev t)))

/-- A strand's earlier accesses hold a part back. -/
def strandBlocked (s : State) (o : Op) (t : Part) (lane : Nat) : Bool :=
  s.ops.any (fun q => q.2.agent == o.agent && decide (q.2.seq < o.seq) &&
    q.2.parts.any (fun p => partOpen p && partOf q.2 p lane && orderBlocks q.2 p o t))

/-- A part that may still fault: it is to be translated, it is translated where it is served, or its page is frozen now (R401). -/
def mayFault (s : State) (q : Op) (p : Part) : Bool :=
  p.st == .walk || (p.st == .home && (match kindOf q.instr with
    | .place => true
    | .ldsh => true
    | .evsh => true
    | _ => (segsOf p (partBytes q)).any (fun g => routeOf s (dieOf q.core) (segSpa g) g.len == .frozen)))

/-- A part waits in its strand for one of some parts. -/
def behind (l : List (Op × Part)) (o : Op) (t : Part) : Bool :=
  (lanesOf (if t.lane == 32 then o.group else laneSet [t.lane])).any (fun lane =>
    l.any (fun x => decide (x.1.seq < o.seq) && partOf x.1 x.2 lane && orderBlocks x.1 x.2 o t))

/-- The open parts of an agent that a condition names, and those that wait for one of these in their strand. -/
def spread (s : State) (agent : Nat) (base : Op → Part → Bool) : List (Op × Part) :=
  s.ops.foldl (fun acc q =>
    if q.2.agent == agent then
      acc ++ (q.2.parts.filter (fun p => partOpen p && (base q.2 p || behind acc q.2 p))).map (fun p => (q.2, p))
    else acc) []

/-- R37, R40: the parts that a replay or a trap action has to come first for: parked, detached, in a replay list, or waiting for one of these in
their strand. -/
def heldParts (s : State) (agent : Nat) : List (Op × Part) := spread s agent (fun _ p => partStopped p || p.late)

/-- Those, the parts that may still fault, and what waits for them. -/
def unsureParts (s : State) (agent : Nat) : List (Op × Part) :=
  spread s agent (fun q p => partStopped p || p.late || mayFault s q p)

/-- R38, R39: an earlier part of the same clause in the lane may still fault, or stands before this one in the replay list. -/
def replayBlocked (s : State) (o : Op) (lane : Nat) : Bool :=
  (unsureParts s o.agent).any (fun x => decide (x.1.seq < o.seq) && x.1.clause == o.clause && partOf x.1 x.2 lane)

/-- R38: an earlier part of the same clause in the lane is parked, detached or in the replay list. -/
def listed (s : State) (o : Op) (lane : Nat) : Bool :=
  s.ops.any (fun q => q.2.agent == o.agent && decide (q.2.seq < o.seq) && q.2.clause == o.clause &&
    q.2.parts.any (fun p => partOpen p && partOf q.2 p lane && (partStopped p || p.late)))

/-- R38: a part stands in a replay list: its own lane's, or as a uniform form in those of all the lanes of its group. -/
def inReplay (s : State) (o : Op) (t : Part) : Bool :=
  if t.lane == 32 then o.group != 0 && (lanesOf o.group).all (listed s o) else listed s o t.lane

/-- A part may proceed: a lane's own after its replay list; a uniform form for those of its lanes that are not parked, or, entered in the replay
lists of all of them, at the first that reaches it (R38). -/
def partReady (s : State) (o : Op) (t : Part) : Bool :=
  let free := fun l => !strandBlocked s o t l && !replayBlocked s o l
  if t.lane != 32 then free t.lane
  else if o.group == 0 then true
  else if t.late then (lanesOf o.group).any free
  else
    let live := (lanesOf o.group).filter (fun l => !listed s o l)
    !live.any (strandBlocked s o t) && live.any (fun l => !replayBlocked s o l)

/-! ### Ops and parts -/

/-- An op in flight. -/
def opOfId (s : State) (id : Nat) : Option Op := aget s.ops id

/-- Changes an op, if it is in flight. -/
def modOp (s : State) (id : Nat) (f : Op → Op) : State := match aget s.ops id with
  | some o => { s with ops := aset s.ops id (f o) }
  | none => s

/-- Changes the part of a lane. -/
def modPart (s : State) (id lane : Nat) (f : Part → Part) : State :=
  modOp s id (fun o => { o with parts := o.parts.map (fun p => if p.lane == lane then f p else p) })

/-- Sets the state of a lane's part. -/
def setPart (s : State) (id lane : Nat) (st : PartState) : State := modPart s id lane (fun p => { p with st := st })

/-- The part of a lane. -/
def partAt (o : Op) (lane : Nat) : Option Part := o.parts.find? (fun p => p.lane == lane)

/-- R37, R38: the parts of a clause that have entered a replay list are late for their flags. -/
def markLate (s : State) (o : Op) : State :=
  { s with ops := s.ops.map (fun q =>
      if q.2.agent == o.agent && q.2.clause == o.clause && decide (o.seq < q.2.seq) then
        (q.1, { q.2 with parts := q.2.parts.map (fun p => if inReplay s q.2 p then { p with late := true } else p) })
      else q) }

/-- Takes a lane's part out of its instruction, and with it what follows in the lane's replay list (R37, R38, R369). -/
def stopPart (s : State) (id : Nat) (o : Op) (lane : Nat) (st : PartState) : State :=
  markLate (modPart s id lane (fun p => { p with st := st, late := true })) o

/-- The lanes that a part stands for. -/
def partLanes (o : Op) (lane : Nat) : LaneSet := if lane == 32 then o.group else laneSet [lane]

/-! ### Faults (R363 to R365) -/

/-- What a fault record says of its access (R364). -/
structure FaultReq where
  type   : Nat
  ctx    : Nat
  va     : Nat
  gpa    : Nat
  level  : Nat
  perm   : Bool
  malf   : Bool
  s1walk : Bool
  fetch  : Bool
  write  : Bool
  ladle  : Bool
  engine : Bool
  core   : Nat
  slot   : Nat
  queue  : Nat
  pc     : DWord
  lanes  : LaneSet
  burst  : Nat
  nburst : Nat
deriving DecidableEq, Repr

/-- A bit of a record. -/
def bitNat (b : Bool) : Nat := if b then 1 else 0

/-- R364: the record of a group. -/
def faultRecord (s : State) (id : Nat) (f : FaultReq) : BitVec 512 :=
  let c := ctxOf s f.ctx
  mkRec [(416, 16, f.nburst), (384, 32, f.burst), (320, 56, f.pc.toNat), (288, 32, f.lanes.toNat), (280, 8, f.slot), (272, 8, f.core),
    (256, 6, f.queue), (224, 32, id), (128, 52, f.gpa), (64, 56, f.va), (40, 16, c.asid.toNat), (32, 8, c.vmid.toNat), (20, 12, f.ctx),
    (16, 2, f.level), (14, 1, bitNat f.perm), (13, 1, bitNat f.ladle), (12, 1, bitNat f.engine), (11, 1, bitNat f.malf),
    (10, 1, bitNat f.s1walk), (9, 1, bitNat f.fetch), (8, 1, bitNat f.write), (0, 8, f.type)]

/-- R309: the queue of a group's record: types 1 and 3 go to the guest, type 2 to the hypervisor. -/
def faultQueueOf (s : State) (type ctx : Nat) : RecQueue :=
  if type == 2 then .hypFault else .guestFault (ctxOf s ctx).vmid.toNat

/-- A new group with its record held, or kept in the walker that found the fault (R361 to R363). Its id. -/
def newGroup (s : State) (f : FaultReq) (g : Nat → FaultGroup) : Nat × State :=
  let (id, s1) := recordId s
  let s2 := { s1 with hub := { s1.hub with groups := s1.hub.groups ++ [g id] } }
  (id, holdFault s2 (dieOf f.core) (faultQueueOf s f.type f.ctx) (faultRecord s id f) (some id))

/-- An empty group. -/
def FaultGroup.of (id : Nat) (f : FaultReq) : FaultGroup :=
  { id := id, type := f.type, ctx := f.ctx, page := f.va / 2 ^ 19, write := f.write, ops := [], cmds := [], fetch := none, pkt := none,
    posted := false, held := false, saved := false }

/-- Changes a group. -/
def modGroup (s : State) (id : Nat) (f : FaultGroup → FaultGroup) : State :=
  { s with hub := { s.hub with groups := s.hub.groups.map (fun g => if g.id == id then f g else g) } }

/-- The record of a group that is still held takes another form. -/
def editHeld (s : State) (id : Nat) (f : BitVec 512 → BitVec 512) : State :=
  let put := fun (x : BitVec 512 × Option Nat) => if x.2 == some id then (f x.1, x.2) else x
  { s with hub := { s.hub with
    recs := s.hub.recs.map (fun q => { q with held := q.held.map put })
    kept := s.hub.kept.map (fun k => if k.group == some id then { k with bits := f k.bits } else k) } }

/-- A record with more lanes; VA is that of the lowest, and the other fields stay those of the part that opened the group (DESIGN CHOICE, log entry
82: R364 says no more). -/
def widenLanes (l : LaneSet) (va : Nat) (r : BitVec 512) : BitVec 512 :=
  let old := pfld r 288 32
  let low := decide (lowLane l < lowLane (BitVec.ofNat 32 old)) || old == 0
  let n := nset r.toNat 288 32 (old ||| l.toNat)
  BitVec.ofNat 512 (if low then nset n 64 56 va else n)

/-- The record fields of an op's part. -/
def opFault (s : State) (o : Op) (w : WFault) (va : Nat) (lanes : LaneSet) : FaultReq :=
  let ag := aget s.agents o.agent
  { type := w.type, ctx := o.ctx, va := va % 2 ^ 56, gpa := w.gpa, level := w.level, perm := w.perm, malf := w.malf, s1walk := w.s1walk,
    fetch := false, write := doesWrite (kindOf o.instr), ladle := (ag.map (fun a => a.kind == .ladle)).getD false, engine := false,
    core := o.core, slot := (ag.map slotOf).getD 0, queue := (ag.map (agentQueue s)).getD 0, pc := o.pc, lanes := lanes, burst := 0,
    nburst := 0 }

/-- Parks the strands of a part (R37, R238). -/
def parkStrands (s : State) (o : Op) (lane : Nat) : State :=
  modAgent s o.agent (fun ag => (lanesOf (partLanes o lane)).foldl parkLane ag)

/-- R37, R363: a part faults: it joins the open group of its instruction, type and page whose record is not posted, or opens one; its
strands park. -/
def faultPart (s : State) (id : Nat) (o : Op) (lane va : Nat) (w : WFault) : State :=
  let l := partLanes o lane
  let same := fun g : FaultGroup => g.type == w.type && g.page == va / 2 ^ 19 && g.ctx == o.ctx && g.ops.any (fun p => p.1 == id)
  match s.hub.groups.find? (fun g => same g && (!g.posted || g.ops.contains (id, lane))) with
  | some g =>
    let s1 := if g.ops.contains (id, lane) then s
      else editHeld (modGroup s g.id (fun x => { x with ops := x.ops ++ [(id, lane)] })) g.id (widenLanes l va)
    parkStrands (stopPart s1 id o lane (.parked g.id)) o lane
  | none =>
    let f := opFault s o w va l
    let (gid, s1) := newGroup s f (fun gid => { FaultGroup.of gid f with ops := [(id, lane)] })
    parkStrands (stopPart s1 id o lane (.parked gid)) o lane

/-- Posts what the fault queues of a context have room for. -/
def postFaults (s : State) (ctx : Nat) : State := postQueue (postQueue s (faultQueueOf s 1 ctx)) .hypFault

/-- R358: the walk requests that wait on a die: one for each instruction and page. -/
def walkRequests (s : State) (die : Nat) : List (Nat × Nat) :=
  s.ops.flatMap (fun q => if dieOf q.2.core != die then [] else
    (((q.2.parts.filter (fun p => p.st == .walk && !p.late && !isWindow p.va.toNat)).map (fun p => p.va.toNat / 2 ^ 19)).dedup).map (fun n => (q.1, n)))

/-- R358, R361: the queue of walk requests of a die is full: every walker holds a fault for which the store has no room, and as many requests
as the queue holds wait. -/
def walksFull (s : State) (die : Nat) : Bool := walkersLeft s die == 0 && decide (Config.walkQueue ≤ (walkRequests s die).length)

/-- R358: the walks of an instruction that are in progress: those whose faults their walkers still hold. -/
def walksOf (s : State) (id : Nat) : Nat :=
  (s.hub.kept.filter (fun k => s.hub.groups.any (fun g => k.group == some g.id && g.ops.any (fun p => p.1 == id)))).length

/-- R358: a walker is free for an instruction: fewer requests than there are free walkers come from those that have fewer walks in progress, or as
many and are older. -/
def walkTurn (s : State) (die id : Nat) : Bool :=
  let before := (walkRequests s die).filter (fun r =>
    r.1 != id && (decide (walksOf s r.1 < walksOf s id) || (walksOf s r.1 == walksOf s id && decide (r.1 < id))))
  decide (before.length < walkersLeft s die)

/-! ### Late traps (R369) -/

/-- R371: an instruction in flight is an engine command that has not entered its queue. -/
def isCommand (i : Instr) : Bool := kindOf i == .engine || (match i with
  | .cbld _ _ => true
  | _ => false)

/-- R37, R369: parts of an instruction are detached with a trap of kind 2: one record; the agent stops. Parts of an agent that is gone
are dropped. A check of the issue stage that fails when an entry of a replay list executes is such a trap too (DESIGN CHOICE, log entry 84). -/
def lateTrap (s : State) (id : Nat) (o : Op) (lanes : List Nat) (code : TrapCode) (addr esrc : Nat) : State :=
  if lanes.isEmpty then s
  else match aget s.agents o.agent with
    | none => lanes.foldl (fun s l => setPart s id l .dropped) s
    | some _ =>
      let m := lanes.foldl (fun m l => m ||| partLanes o l) 0
      let t : TrapReq :=
        { TrapReq.of code 2 o.word o.pc o.active m with addr := addr % 2 ^ 56, op := opcodeOf o.instr, esrc := esrc, eng := isCommand o.instr }
      let (tid, s1) := postTrap s o.agent t
      lanes.foldl (fun s l => stopPart s id o l (.detached tid)) s1

/-! ### Translation (WALK) -/

/-- R355: the permission that an instruction needs. -/
def needOf : MemKind → Need
  | .store => .write
  | .red => .write
  | .atom => .both
  | .acas => .both
  | .tierq => .any
  | .place => .any
  | _ => .read

/-- R356: whether its translation is an access, which sets A and D. -/
def setsAD : MemKind → Bool
  | .tierq => false
  | .wakeva => false
  | .place => false
  | _ => true

/-- The outcome of the translation of one part. -/
inductive PartWalk where
  | ok (xs : List Xlat)
  | fault (l : List (Nat × WFault))
  | trap (code : TrapCode) (esrc : Nat)
  | wait
deriving DecidableEq, Repr

/-- One page of a part as an outcome. -/
def pageWalk (va : Nat) : Walked → PartWalk
  | .ok x => .ok [x]
  | .fault f => .fault [(va, f)]
  | .refused => .trap .accessViolation 0
  | .conflict => .trap .translationConflict 0
  | .guarded => .trap .accessViolation 0
  | .lost e => .trap .uncorrectable e
  | .busy => .wait

/-- R239, R363: where the page of a part's first byte faults, the next 512 KiB page of an access that reaches it may fault too, and the
part belongs to a group for each. -/
def alsoNext (s : State) (o : Op) (va n : Nat) (f : WFault) : PartWalk × State :=
  let va2 := va - va % 2 ^ 19 + 2 ^ 19
  if va % 2 ^ 19 + n ≤ 2 ^ 19 then (.fault [(va, f)], s)
  else match agentTranslate s o.core (spaceOf s o.ctx o.level) va2 (needOf (kindOf o.instr)) false with
    | (.fault f2, s1) => (.fault [(va, f), (va2, f2)], s1)
    | (_, s1) => (.fault [(va, f)], s1)

/-- R239, R353: translates a part: the page of its first byte and, if the access crosses, the page of its last bytes. `WAITVA` and
`WAKEVA` refuse pages of class SW and DEV (R260, R261). -/
def walkPart (s : State) (o : Op) (p : Part) : PartWalk × State :=
  let k := kindOf o.instr
  let t := spaceOf s o.ctx o.level
  let va := p.va.toNat
  let n := if k == .tierq then 1 else partBytes o
  match agentTranslate s o.core t va (needOf k) (setsAD k) with
  | (.ok x, s1) =>
    if (k == .waitva || k == .wakeva) && x.cls != 0 then (.trap .accessViolation 0, s1)
    else if va % 2 ^ x.size + n ≤ 2 ^ x.size then (.ok [x], s1)
    else
      let va2 := va - va % 2 ^ x.size + 2 ^ x.size
      (match agentTranslate s1 o.core t va2 (needOf k) (setsAD k) with
       | (.ok y, s2) => (.ok [x, y], s2)
       | (w, s2) => (pageWalk va2 w, s2))
  | (.fault f, s1) => alsoNext s1 o va n f
  | (w, s1) => (pageWalk va w, s1)

/-- The lanes whose parts one walk serves: those ready on the page of the named one. -/
def walkLanes (s : State) (o : Op) (lane : Nat) : List Nat :=
  match partAt o lane with
  | none => []
  | some p => (o.parts.filter (fun q => q.st == .walk && partReady s o q && q.va.toNat / 2 ^ 19 == p.va.toNat / 2 ^ 19)).map (·.lane)

/-- One lane's translation; a trap is returned for the whole set. A walk that cannot reach a table entry now is made again (R390, R398). -/
def walkLane (id : Nat) (o : Op) (acc : State × List (Nat × TrapCode × Nat)) (lane : Nat) : State × List (Nat × TrapCode × Nat) :=
  match partAt o lane with
  | none => acc
  | some p =>
    match walkPart acc.1 o p with
    | (.ok xs, s1) => (modPart s1 id lane (fun q => { q with st := .home, xs := xs }), acc.2)
    | (.fault l, s1) => (l.foldl (fun s f => faultPart s id o lane f.1 f.2) s1, acc.2)
    | (.trap c e, s1) => (s1, acc.2 ++ [(lane, c, e)])
    | (.wait, s1) => (s1, acc.2)

/-- The address of the lowest of some lanes' parts. -/
def lowAddr (o : Op) (lanes : List Nat) : Nat := match o.parts.find? (fun p => lanes.contains p.lane) with
  | some p => p.va.toNat
  | none => 0

/-- What each kind of trap that a walk can end in stops, one record each (R353, R360, R386). -/
def walkTraps (id : Nat) (o : Op) (traps : List (Nat × TrapCode × Nat)) (s : State) (k : TrapCode × Nat) : State :=
  let lanes := (traps.filter (fun t => t.2 == k)).map (·.1)
  lateTrap s id o lanes k.1 (lowAddr o lanes) k.2

/-- R353: the walk of an op's parts on a page. -/
def walkOp (s : State) (id : Nat) (o : Op) (lane : Nat) : State :=
  let (s1, traps) := (walkLanes s o lane).foldl (walkLane id o) (s, [])
  postFaults (([(.accessViolation, 0), (.translationConflict, 0), (.uncorrectable, 4), (.uncorrectable, 5), (.uncorrectable, 8)] :
    List (TrapCode × Nat)).foldl (walkTraps id o traps) s1) o.ctx

/-! ### Tokens (R420 to R422) -/

/-- An L1 cache of a core (R17): its number, that of the core for data and 100 more for instructions, its lines, and whether the access
allocates there. -/
structure L1 where
  id    : Nat
  lines : Nat
  fill  : Bool := true
deriving DecidableEq, Repr

/-- A line stands in the L1 cache of a reader. -/
def l1Hit (s : State) (l1 : Option L1) (line : Nat) : Bool := l1.any (fun c => s.mem.l1.contains (c.id, line))

/-- R420: the ports that an access of a kind to a run reaches, line by line: none for a line that the reader's L1 cache holds. -/
def segPorts (s : State) (die : Nat) (l1 : Option L1) (k : AccKind) (g : Seg) : List Nat :=
  (linesOf (segSpa g) g.len).flatMap (fun l =>
    let cached := g.x.cls != 2 && !foreignPage s (l / 4096)
    let hit := if g.x.cls == 0 then dirHit (aget s.mem.dir l) { die := die, counted := false, install := false } k
      else cached && (swCopy s die l).isSome
    if k == .read && cached && l1Hit s l1 l then [] else portsOf s die l hit)

/-! ### Performing -/

/-- The asker of a core's access through a translation (R351, R420, R423, R424). -/
def coreAsker (s : State) (core ctx : Nat) (x : Xlat) : Asker :=
  let mask := (ctxOf s ctx).qos.extractLsb' 48 16
  { die := dieOf core, counted := core < Config.cores, install := core < Config.cores && x.memt == 0 && mask != 0, mask := mask
    cls := some (classOf s ctx) }

/-- What a read gives: its bytes, and the error source where one of them is poisoned (R371, R375). -/
structure Got where
  bytes : List Byte
  bad   : Option Nat
deriving DecidableEq, Repr

/-- The L1 data cache of a core; the hub has none. -/
def l1Data (core : Nat) : Option L1 := if core < Config.cores then some { id := core, lines := Config.l1Lines } else none

/-- The instruction cache of a core. -/
def l1Code (core : Nat) : Option L1 := if core < Config.cores then some { id := 100 + core, lines := Config.codeLines } else none

/-- A line enters an L1 cache, the oldest going out when it is full. -/
def l1Fill (s : State) (c : L1) (line : Nat) : State :=
  let l := s.mem.l1.filter (fun p => p != (c.id, line))
  let l1 := match l.filter (fun p => p.1 == c.id) with
    | o :: t => if t.length + 1 < c.lines then l else l.erase o
    | [] => l
  { s with mem := { s.mem with l1 := l1 ++ [(c.id, line)] } }

/-- A line that a reader may install enters its L1 cache. -/
def l1Take (s : State) (who : Asker) (l1 : Option L1) (line : Nat) : State := match l1 with
  | some c => if c.fill && who.install && !foreignPage s (line / 4096) then l1Fill s c line else s
  | none => s

/-- R374, R375: the read of a run where it stands; `mem` says whether memory itself is read. -/
def homeRead (s : State) (key spa n : Nat) (mem : Bool) : Got × State :=
  let s1 := findErrors s spa n mem
  ({ bytes := spaReadN s1 key spa n, bad := if poisoned s1 spa n then some (errSource s1 spa n) else none }, s1)

/-- R121, R147: a run within a line of an HC page is read: from the L1 cache that holds it, or through the L2 of the die and the home. -/
def readLine (who : Asker) (l1 : Option L1) (key : Nat) (s : State) (spa n : Nat) : Got × State :=
  let line := spa / 128
  if l1Hit s l1 line then ({ bytes := spaReadN s key spa n, bad := if poisoned s spa n then some (errSource s spa n) else none }, s)
  else homeRead (l1Take (touchLine who .read s line) who l1 line) key spa n (memRead s line)

/-- The injected errors of a die's dirty copy of a line in a run (R323, target 2). -/
def copyErrs (s : State) (spa n : Nat) : List (Nat × Bool × Bool) :=
  let at_ := spaLoc s spa
  s.mem.inject.filter (fun p => p.2.2 && decide (at_ / 8 ≤ p.1) && decide (p.1 ≤ (at_ + n - 1) / 8))

/-- They are gone. -/
def dropErrs (s : State) (l : List (Nat × Bool × Bool)) : State :=
  { s with mem := { s.mem with inject := s.mem.inject.filter (fun p => !l.contains p) } }

/-- R374, R375: what a read finds in a die's copy: an error is corrected and counted, or its part is poisoned. -/
def copyFind (s : State) (c : SwLine) (spa n : Nat) : SwLine × State :=
  let l := copyErrs s spa n
  let unc := (l.filter (fun p => p.2.1)).map (fun p => (p.1 % 16 / 2, 4))
  let c1 := { c with bad := (c.bad ++ unc).dedup }
  let s1 := (l.filter (fun p => !p.2.1)).foldl (fun s _ => countError s 4) (dropErrs s l)
  (c1, if l.isEmpty then s else swPut s1 c1)

/-- The 16-byte parts of a line that a run in it touches. -/
def partsIn (spa n : Nat) : List Nat := (List.range 8).filter (fun i => rangesMeet (16 * i) 16 (spa % 128) n)

/-- What a run of a die's copy of a line gives: its bytes, and the source of the error of a poisoned part. -/
def copyGot (c : SwLine) (spa n : Nat) : Got :=
  { bytes := (c.data.drop (spa % 128)).take n, bad := (c.bad.find? (fun b => (partsIn spa n).contains b.1)).map (·.2) }

/-- A run of a die's copy of a line is read. -/
def copyRead (s : State) (c : SwLine) (spa n : Nat) : Got × State :=
  match copyFind s c spa n with
  | (c1, s1) => (copyGot c1 spa n, s1)

/-- R121, R122, R424: a run within a line of an SW page is read: from the L1 cache or the die's copy, from a new one, or at the home where none may
be made. -/
def swRead (who : Asker) (l1 : Option L1) (key : Nat) (s : State) (spa n : Nat) : Got × State :=
  let line := spa / 128
  match swCopy s who.die line with
  | some c => if l1Hit s l1 line then (copyGot c spa n, s) else copyRead (l1Take s who l1 line) c spa n
  | none =>
    if who.install then
      match swFetch (l2Room (findErrors s (line * 128) 128 true) who line) who key line with
      | (s1, c) => copyRead (l1Take (swPut s1 c) who l1 line) c spa n
    else homeRead (count s who (spa / 2 ^ 19)) key spa n true

/-- The runs of a segment line by line, over a way of reading one. -/
def lineReads (rd : State → Nat → Nat → Got × State) (s : State) : List (Nat × Nat) → Got × State
  | [] => ({ bytes := [], bad := none }, s)
  | p :: t =>
    let (a, s1) := rd s p.1 p.2
    let (b, s2) := lineReads rd s1 t
    ({ bytes := a.bytes ++ b.bytes, bad := a.bad.orElse (fun _ => b.bad) }, s2)

/-- R121, R390, R405: a page whose lines the L2 of a die may hold: not DEV, not another package's. -/
def isCached (s : State) (g : Seg) : Bool := g.x.cls != 2 && !foreignPage s (segSpa g / 2 ^ 19)

/-- Reads a run by its class (R121, R122, R124). -/
def segRead (s : State) (who : Asker) (l1 : Option L1) (g : Seg) : Got × State :=
  let spa := segSpa g
  let key := g.x.key.toNat
  let s0 := locateFill s who.die (spa / 2 ^ 19)
  if g.x.cls == 0 then lineReads (readLine who l1 key) s0 (linePieces spa g.len)
  else if isCached s0 g then lineReads (swRead who l1 key) s0 (linePieces spa g.len)
  else homeRead (count s0 who (spa / 2 ^ 19)) key spa g.len true

/-- R122, R375, R420: a write into a die's copy of a line: fresh check bits, and whole parts lose their poison. No L1 cache of the die serves the
old line, and the fetches of a running launch may (R142). -/
def copyWrite (who : Asker) (s : State) (c : SwLine) (spa : Nat) (bs : List Byte) : State :=
  let whole := wholeParts (spa % 128) bs.length
  let mask : BitVec 128 := BitVec.ofNat 128 ((2 ^ bs.length - 1) * 2 ^ (spa % 128))
  let c1 := { c with data := patch c.data (spa % 128) bs, dirty := c.dirty ||| mask, bad := c.bad.filter (fun b => !whole.contains b.1) }
  dirtied (swPut (l1Drop (dropErrs (keepLine s c.line c.data) (copyErrs s spa bs.length)) c.die c.line) c1) who c.line

/-- R122, R424: a run within a line of an SW page is written: in the die's copy, in a new one, or at the home where none may be made. -/
def swWrite (who : Asker) (key : Nat) (s : State) (spa : Nat) (bs : List Byte) : State :=
  let line := spa / 128
  match swCopy s who.die line with
  | some c => copyWrite who s c spa bs
  | none =>
    if who.install then
      match swFetch (l2Room (findErrors s (line * 128) 128 true) who line) who key line with
      | (s1, c) => copyWrite who s1 c spa bs
    else spaWriteN (count s who (spa / 2 ^ 19)) key spa bs

/-- Writes a run by its class. -/
def segWrite (s : State) (who : Asker) (g : Seg) (bs : List Byte) : State :=
  let spa := segSpa g
  let key := g.x.key.toNat
  let s0 := locateFill s who.die (spa / 2 ^ 19)
  if g.x.cls == 0 then spaWriteN (touchLines s0 who .write spa g.len) key spa bs
  else if isCached s0 g then
    (linePieces spa bs.length).foldl (fun s p => swWrite who key s p.1 ((bs.drop (p.1 - spa)).take p.2)) s0
  else spaWriteN (count s0 who (spa / 2 ^ 19)) key spa bs

/-- Reads all runs. -/
def segsRead (s : State) (who : Xlat → Asker) (l1 : Option L1) : List Seg → Got × State
  | [] => ({ bytes := [], bad := none }, s)
  | g :: t =>
    let (a, s1) := segRead s (who g.x) l1 g
    let (b, s2) := segsRead s1 who l1 t
    ({ bytes := a.bytes ++ b.bytes, bad := a.bad.orElse (fun _ => b.bad) }, s2)

/-- Writes all runs. -/
def segsWrite (s : State) (who : Xlat → Asker) (bs : List Byte) : List Seg → State
  | [] => s
  | g :: t => segsWrite (segWrite s (who g.x) g (bs.take g.len)) who (bs.drop g.len) t

/-- R142: a launch has written lines by a block: its fetches may see the new content or still the old (a free choice, log entry 9). -/
def ownCode (s : State) (block : Nat) (segs : List Seg) : State :=
  match aget s.blocks block with
  | none => s
  | some b =>
    let lines := segs.flatMap (fun g => linesOf (segSpa g) g.len)
    if !s.mem.old.any (fun o => o.launch == b.launch && lines.contains o.line) then s
    else
      let s1 := { s with fresh := s.fresh + 1 }
      if Config.codeNewest s.fresh then dropOld s1 b.launch lines.contains else s1

/-- R131, R147, R394: a read-modify-write reads its run where it is performed: once at the home, or in the issuing die's slice of an SW page. One
that misses there and may not install its line is performed at the home (R424; DESIGN CHOICE, log entry 73). -/
def atomRead (s : State) (who : Asker) (g : Seg) : Got × State :=
  let spa := segSpa g
  let key := g.x.key.toNat
  let s0 := locateFill s who.die (spa / 2 ^ 19)
  if g.x.cls == 0 then lineReads (fun s a n => homeRead (touchLine who .rmw s (a / 128)) key a n (memRead s (a / 128))) s0 (linePieces spa g.len)
  else segRead s0 who none g

/-- The write of a read-modify-write, where it has read. -/
def atomWrite (s : State) (who : Asker) (g : Seg) (bs : List Byte) : State :=
  if g.x.cls == 1 && isCached s g && (swCopy s who.die (segSpa g / 128)).isSome then segWrite s who g bs
  else spaWriteN s g.x.key.toNat (segSpa g) bs

/-- The value of a lane in a list of lane values. -/
def laneVal (l : List (Nat × BitVec 128)) (lane : Nat) : Nat := match l.find? (fun p => p.1 == lane) with
  | some p => p.2.toNat
  | none => 0

/-- R246, R247: the new value of a read-modify-write of a lane, if it writes. -/
def rmwNew (o : Op) (lane old : Nat) : Option Nat :=
  let r := memFmt o.instr
  let z := accBytes r
  let d := laneVal o.vals lane % 2 ^ (8 * z)
  match kindOf o.instr with
  | .acas => if old == laneVal o.cmps lane % 2 ^ (8 * z) then some d else none
  | _ => some (atop (nbits r.c.toNat 0 4) r.mtype old d)

/-- R241: the value that a load writes, over its registers. -/
def loadValue (t : BitVec 4) (v : Nat) : Nat :=
  if t == 0 then (intOf true 8 v % 2 ^ 32).toNat
  else if t == 2 then (intOf true 16 v % 2 ^ 32).toNat
  else v

/-- R38: a part that is performed passes those before it in its clause and lane that are still on their way to their homes: they may fault no
more. -/
def passOthers (s : State) (o : Op) (lane : Nat) : State :=
  let pass := fun (q : Op) (p : Part) => p.st == .home && (lanesOf (partLanes o lane)).any (partOf q p)
  { s with ops := s.ops.map (fun q =>
      if q.2.agent == o.agent && q.2.clause == o.clause && decide (q.2.seq < o.seq) && q.2.parts.any (pass q.2) then
        (q.1, { q.2 with parts := q.2.parts.map (fun p => if pass q.2 p then { p with passed := true } else p) })
      else q) }

/-- R401, R406: a page on which a part stands that may fault no more: it is not frozen before that part is performed. -/
def passedOn (s : State) (page : Nat) : Bool :=
  s.ops.any (fun q => q.2.parts.any (fun p => p.st == .home && p.passed && (segsOf p (partBytes q.2)).any (fun g => segSpa g / 2 ^ 19 == page)))

/-- A part is performed with a result. -/
def partDone (s : State) (id lane v : Nat) : State :=
  let s1 := match aget s.ops id with
    | some o => passOthers s o lane
    | none => s
  modPart s1 id lane (fun p => { p with st := .done, val := BitVec.ofNat 128 v })

/-- R117, R131: an access to a scratchpad is performed there; poison that it reads detaches it (R375). -/
def performSpm (s0 : State) (id : Nat) (o : Op) (p : Part) (b ofs : Nat) : State :=
  let n := partBytes o
  let k := kindOf o.instr
  let s := if doesRead k then spmFind s0 b ofs n else s0
  if doesRead k && spmPoisoned s b ofs n then lateTrap s id o [p.lane] .uncorrectable p.va.toNat 2
  else
    let old := ofBytes (spmRead s b ofs n)
    match k with
    | .load => partDone s id p.lane (loadValue (memFmt o.instr).mtype old)
    | .store => partDone (spmWrite s b ofs (toBytes (laneVal o.vals p.lane) n)) id p.lane 0
    | _ => match rmwNew o p.lane old with
      | some v => partDone (spmWrite s b ofs (toBytes v n)) id p.lane old
      | none => partDone s id p.lane old

/-- R132: a `RED` enters the reduction buffer: on an HC page whose lines the directory tracks here. -/
def buffersRed (s : State) (segs : List Seg) : Bool :=
  segs.all (fun g => g.x.cls == 0 && !foreignPage s (segSpa g / 2 ^ 19))

/-- R132, R133: a `RED` into the buffer; `RED.rel` merges its line. -/
def performRed (s : State) (id : Nat) (o : Op) (p : Part) (g : Seg) : State :=
  let r := memFmt o.instr
  let spa := segSpa g
  let d := BitVec.ofNat 64 (laneVal o.vals p.lane % 2 ^ (8 * accBytes r))
  let s1 := bufferRed (locateFill s (dieOf o.core) (spa / 2 ^ 19)) (coreAsker s o.core o.ctx g.x) o.core o.ctx (spa / 128) (nbits r.c.toNat 0 4) r.mtype (spa % 128) d
    r.scope.toNat g.x.key
  let s2 := if r.ord.getLsbD 1 then mergeFor (coreAsker s o.core o.ctx g.x) s1 o.core (fun e => e.line == spa / 128) else s1
  partDone s2 id p.lane 0

/-- R260: a lane enters the table, reads, and stays asleep if the value is the expected one. -/
def performWait (s : State) (id : Nat) (o : Op) (p : Part) (g : Seg) : State :=
  let c := ctxOf s o.ctx
  if !keyFree s p.va c.vmid c.asid then wakeLane (partDone s id p.lane 0) o.agent p.lane
  else
    let (got, s1) := segRead s (coreAsker s o.core o.ctx g.x) (l1Data o.core) g
    match got.bad with
    | some e => lateTrap s1 id o [p.lane] .uncorrectable p.va.toNat e
    | none =>
      let s2 := partDone s1 id p.lane 0
      if ofBytes got.bytes != laneVal o.vals p.lane % 2 ^ (8 * partBytes o) then wakeLane s2 o.agent p.lane
      else
        let w : WaitEntry := { who := .lane o.agent p.lane, va := p.va, vmid := c.vmid, asid := c.asid, spa := segSpa g }
        { s2 with hub := { s2.hub with waiters := s2.hub.waiters ++ [w] } }

/-- R152, R354: the record of a page for a caller's guest, with the combined mask of its translation. -/
def tierRecord (s : State) (vmid : BitVec 8) (page : Nat) (allow : BitVec 3) : BitVec 128 :=
  if !pageValid s page then 6
  else
    let e := pageEntry s page
    let own := peVmid e == vmid.toNat
    let fwd := s.mem.forwards.find? (fun f => f.page == page && f.begun)
    let tier := match fwd with
      | some f => if f.moved.contains 4095 then f.dstTier.toNat else f.srcTier.toNat
      | none => peTier e
    let base := allow.toNat * 2 ^ 32 + nbits (peState e) 0 2 * 2 ^ 28 + tier * 2 ^ 24
    BitVec.ofNat 128 (if own then base + 2 ^ 27 + nbits e.toNat 48 80 * 2 ^ 48 + nbits e.toNat 35 5 * 2 ^ 35 else base + 5)

/-- A read-modify-write of memory: it is performed where R131 says, unless it reads poison. -/
def performAtom (s : State) (id : Nat) (o : Op) (p : Part) (g : Seg) : State :=
  let who := coreAsker s o.core o.ctx g.x
  let (got, s1) := atomRead s who g
  let old := ofBytes got.bytes
  match got.bad, rmwNew o p.lane old with
  | some e, _ => lateTrap s1 id o [p.lane] .uncorrectable p.va.toNat e
  | none, some v => partDone (ownCode (atomWrite s1 who g (toBytes v (partBytes o))) o.block [g]) id p.lane old
  | none, none => partDone s1 id p.lane old

/-- R242: the streaming forms install their lines at the lowest retention priority. -/
def isStream : Instr → Bool
  | .ldl _ _ => true
  | .stl _ _ => true
  | _ => false

/-- The L1 cache that a load reads by; `LDL` does not allocate there (R242). -/
def loadL1 (o : Op) : Option L1 := (l1Data o.core).map (fun c => { c with fill := !isStream o.instr })

/-- An access to memory is performed at the place R131 gives. -/
def performMem (s : State) (id : Nat) (o : Op) (p : Part) (segs : List Seg) : State :=
  let k := kindOf o.instr
  let who := fun x => { coreAsker s o.core o.ctx x with low := isStream o.instr }
  match k, segs with
  | .store, _ => partDone (ownCode (segsWrite s who (toBytes (laneVal o.vals p.lane) (partBytes o)) segs) o.block segs) id p.lane 0
  | .load, _ =>
    let (got, s1) := segsRead s who (loadL1 o) segs
    (match got.bad with
     | some e => lateTrap s1 id o [p.lane] .uncorrectable p.va.toNat e
     | none => partDone s1 id p.lane (loadValue (memFmt o.instr).mtype (ofBytes got.bytes)))
  | .waitva, g :: _ => performWait s id o p g
  | .red, g :: _ => if buffersRed s segs then performRed s id o p g else performAtom s id o p g
  | _, g :: _ => performAtom s id o p g
  | _, [] => s

/-! ### Completion -/

/-- A lane's waits of its replay list are over: no part of the clause is open or unwritten for it, and no engine command of its list is to
complete (R39). -/
def replayOver (s : State) (agent clause lane : Nat) : Bool :=
  !s.ops.any (fun q => q.2.agent == agent && q.2.clause == clause && q.2.parts.any (fun p => p.st != .dropped && partOf q.2 p lane)) &&
    !s.cmds.any (fun c => c.2.agent == agent && c.2.clause == clause && c.2.lanes.getLsbD lane)

/-- R257: an event-counter test of a lane that is asleep on it. -/
def ecTest (s : State) (ag : Agent) (lane : Nat) : Agent := match sleepOf ag lane with
  | some (.ecwait c thr _) => if (ecGet s ag.block c).toInt ≤ thr.toInt then rouse ag lane else ag
  | _ => ag

/-- R130, R257: the test of a lane that finds its counter low is an acquire. -/
def ecAcquire (s : State) (agent lane : Nat) : State := match aget s.agents agent with
  | none => s
  | some ag => match sleepOf ag lane with
    | some (.ecwait c thr scope) => if (ecGet s ag.block c).toInt ≤ thr.toInt then acquireBy s scope (fun a _ => a == agent) else s
    | _ => s

/-- R39: a parked lane whose replay list has been performed is Ready, or asleep or exited as it was to be; a rendezvous or a barrier may be
met. -/
def unpark (agent clause : Nat) (s : State) (lane : Nat) : State :=
  if replayOver s agent clause lane then
    evalBarriers (modAgent (ecAcquire s agent lane) agent (fun ag =>
      if isParked ag lane then reconvene (unparkLane (ecTest s ag lane) lane) else ag))
  else s

/-- Registers whose errors have been corrected or written over (R323). A register is one protected word: what writes some of its lanes keeps its
error (R375; DESIGN CHOICE, log entry 83). -/
def healRegs (s : State) (a : Nat) (l : List Nat) : State :=
  { s with mem := { s.mem with errs := s.mem.errs.filter (fun x => match x.place with
    | .reg b n => !(b == a && l.contains n)
    | _ => true) } }

/-- Registers written by a completing op: a value over `k` registers of a lane. The lane's producers of an issuing clause give way (R182,
R258). -/
def writeBack (s0 : State) (a : Nat) (t : Target) (v : DWord) : State :=
  let s := match t with
    | .s n => if s0.mem.errs.isEmpty then s0 else healRegs s0 a [256 + n]
    | _ => s0
  modAgent s a (fun ag =>
    { ag with regs := setTarget ag.regs t v, issue := ag.issue.map (fun i => { i with prods := i.prods.filter (fun p => p.tgt != t) }) })

/-- Writes `k` consecutive vector registers of a lane. -/
def writeLanes (s : State) (a reg lane v : Nat) : Nat → State
  | 0 => s
  | k + 1 => writeLanes (writeBack s a (.v reg lane) (BitVec.ofNat 64 (v % 2 ^ 32))) a (reg + 1) lane (v / 2 ^ 32) k

/-- The registers of a lane that an op's result goes to: how many, and where it is a scalar. -/
def resultRegs (o : Op) : Nat := match kindOf o.instr with
  | .load => mtRegs (memFmt o.instr).mtype
  | .atom => mtRegs (memFmt o.instr).mtype
  | .acas => mtRegs (memFmt o.instr).mtype
  | .tierq => 4
  | _ => 0

/-- Whether an op writes a scalar D. -/
def resultScalar (o : Op) : Bool := match kindOf o.instr with
  | .wakeva => true
  | .ecadd => true
  | .ecq => true
  | .place => true
  | .push => true
  | .slot => (match o.instr with
    | .shset _ _ => false
    | _ => true)
  | .system => (match o.instr with
    | .sysc _ _ => true
    | .notifyw _ _ => true
    | _ => false)
  | _ => false

/-- R319: an op that writes a pair of scalars. -/
def resultPair (o : Op) : Bool := match o.instr with
  | .atp _ _ => true
  | _ => false

/-- R324: an op of a hub thread, whose D names a scalar register. -/
def hubOwned (s : State) (o : Op) : Bool := match aget s.agents o.agent with
  | some ag => ag.kind == .hubThread
  | none => false

/-- R324: the result of an access of a hub thread over a scalar register: signed types are sign-extended. -/
def hubValue (t : BitVec 4) (v : Nat) : DWord :=
  if t == 0 || t == 2 || t == 4 then (BitVec.ofNat 32 v).signExtend 64 else BitVec.ofNat 64 v

/-- R130, R316: the completion of a `SYSC` is an acquire at `sys`. -/
def callAcquire (s : State) (o : Op) : State := match o.instr with
  | .sysc _ _ => l1Clear s o.core
  | _ => s

/-- R240: one performed part writes its destination and leaves the op. -/
def completePart (id : Nat) (s0 : State) (p : Part) : State :=
  match aget s0.ops id with
  | none => s0
  | some o =>
    let s := callAcquire s0 o
    let d := (memFmt o.instr).d.toNat
    let s1 := if resultScalar o then writeBack s o.agent (.s d) (BitVec.ofNat 64 p.val.toNat)
      else if resultPair o then
        writeBack (writeBack s o.agent (.s d) (p.val.setWidth 64)) o.agent (.s (d + 1)) (p.val.extractLsb' 64 64)
      else if hubOwned s o then
        (if resultRegs o == 0 then s else writeBack s o.agent (.s d) (hubValue (memFmt o.instr).mtype p.val.toNat))
      else writeLanes s o.agent d p.lane p.val.toNat (resultRegs o)
    let s2 := modOp s1 id (fun q => { q with parts := q.parts.filter (fun x => x.lane != p.lane) })
    (lanesOf (partLanes o p.lane)).foldl (unpark o.agent o.clause) s2

/-- R323, R375: a completion that writes every lane of its registers stores fresh check bits there. -/
def healAll (s : State) (o : Op) (done : List Part) : State :=
  let d := (memFmt o.instr).d.toNat
  if s.mem.errs.isEmpty || hubOwned s o || !(List.range 32).all (fun l => done.any (fun p => p.lane == l)) then s
  else healRegs s o.agent ((List.range (resultRegs o)).map (fun k => d + k))

/-- An op may complete: a part is performed or dropped, or all are parked or detached; its flag falls only when no other part is on the
way (R37, R65, R240). A part in a replay list, and one that waits in its strand for a parked part, is not on the way (R38, R40, R56). -/
def completable (s : State) (o : Op) : Bool :=
  let held := heldParts s o.agent
  let onWay := o.parts.any (fun p => (p.st == .walk || p.st == .home) && !held.any (fun x => x.1.seq == o.seq && x.2.lane == p.lane))
  (o.parts.any (fun p => !partOpen p) || (o.flag != 15 && !o.parts.isEmpty) || o.parts.isEmpty) && (!onWay || o.flag == 15)

/-- ACCESS_COMPLETION (R240): the performed parts write their destinations, the flag falls if it still stands, and an op with nothing left
ends. -/
def completeOp (s : State) (id : Nat) (o : Op) : State :=
  let s1 := modOp s id (fun q => { q with parts := q.parts.filter (fun p => p.st != .dropped) })
  let gone := o.parts.filter (fun p => p.st == .dropped)
  let s2 := gone.foldl (fun s p => (lanesOf (partLanes o p.lane)).foldl (unpark o.agent o.clause) s) s1
  let done := o.parts.filter (fun p => p.st == .done)
  let s3 := healAll (done.foldl (completePart id) s2) o done
  let s4 := modOp (flagDown s3 o.agent o.flag) id (fun q => { q with flag := 15 })
  match aget s4.ops id with
  | some q => if q.parts.isEmpty then { s4 with ops := adel s4.ops id } else s4
  | none => s4

end Sys2Proof.Machine
end

