-- ==== Sys2Proof/Machine/Slots.lean ====
section
/-! DEFINITION. Shape slots (R68 to R70, R272): the fields of a record, the checks of a use, the addresses of elements, and the bursts that
copies and handler reads walk (R276, R278). -/

namespace Sys2Proof.Machine

/-- A shape record by its fields (R68). -/
structure Slot where
  base  : Nat
  fmt   : Nat
  space : Nat
  cbi   : Nat
  scen  : Bool
  scale : Nat
  ext   : List Nat
  str   : List Int
  rsv   : Bool
deriving DecidableEq, Repr

/-- The signed 64-bit stride of dimension `d`. -/
def strideOf (r : BitVec 512) (d : Nat) : Int := (r.extractLsb' (256 + 64 * d) 64).toInt

/-- R68: the fields of a record. -/
def slotOfRec (r : BitVec 512) : Slot :=
  { base := pfld r 0 56, fmt := pfld r 64 4, space := pfld r 68 1, cbi := pfld r 69 3, scen := pfld r 72 1 == 1, scale := pfld r 76 16
    ext := (List.range 4).map (fun d => pfld r (128 + 32 * d) 32), str := (List.range 4).map (strideOf r)
    rsv := pfld r 56 8 != 0 || pfld r 73 3 != 0 || pfld r 92 36 != 0 }

/-- The extent of a dimension. -/
def Slot.ex (t : Slot) (d : Nat) : Nat := t.ext.getD d 1

/-- The stride of a dimension; that of an unused one is ignored. -/
def Slot.st (t : Slot) (d : Nat) : Int := if t.ex d == 1 then 0 else t.str.getD d 0

/-- R69, R272: the element size of a format: a C4 unit is a block of 10 bytes. -/
def fmtSize (fmt : Nat) : Nat :=
  match fmt with
  | 0x2 => 2
  | 0x3 => 2
  | 0x4 => 4
  | 0x5 => 4
  | 0x6 => 4
  | 0x7 => 2
  | 0x8 => 2
  | 0xB => 10
  | 0xC => 8
  | 0xD => 8
  | 0xE => 8
  | _ => 1

/-- How many elements of dimension 0 one unit of storage holds: 16 in C4. -/
def fmtUnit (fmt : Nat) : Nat := if fmt == 0xB then 16 else 1

/-- The units along dimension 0. -/
def Slot.units (t : Slot) : Nat := t.ex 0 / fmtUnit t.fmt

/-- R70: the record is malformed for a block with an allocation of `size` bytes. -/
def slotBad (t : Slot) (size : Nat) : Bool :=
  t.rsv || t.fmt == 0xF || t.ext.contains 0 || (t.fmt == 0xB && (t.str.getD 0 0 != 10 || t.ex 0 % 16 != 0))
    || (t.space == 1 && decide (size ≤ t.base)) || (t.scen && decide (size < t.scale * 16 + 4 * t.ex 1))

/-- The least and greatest distance of an element from the base. -/
def Slot.span (t : Slot) : Int × Int :=
  let step0 : Int := if t.fmt == 0xB then ((t.units : Int) - 1) * 10 else ((t.ex 0 : Int) - 1) * t.st 0
  let steps := step0 :: [1, 2, 3].map (fun d => ((t.ex d : Int) - 1) * t.st d)
  (steps.foldl (fun a x => if x < 0 then a + x else a) 0, steps.foldl (fun a x => if x < 0 then a else a + x) 0)

/-- R272, every use: bases and strides are multiples of the element size, and a slot in scratchpad lies inside the allocation. -/
def slotUseBad (t : Slot) (size : Nat) : Bool :=
  let z := fmtSize t.fmt
  (t.fmt != 0xB && (t.base % z != 0 || [0, 1, 2, 3].any (fun d => t.st d % (z : Int) != 0)))
    || (t.space == 1 && (decide ((t.base : Int) + t.span.1 < 0) || decide ((size : Int) < (t.base : Int) + t.span.2 + z)))

/-- R272: the address of the unit of storage that holds an element, modulo 2^64. -/
def Slot.addr (t : Slot) (u x1 x2 x3 : Nat) : Nat :=
  let s0 : Int := if t.fmt == 0xB then 10 else t.st 0
  (((t.base : Int) + u * s0 + x1 * t.st 1 + x2 * t.st 2 + x3 * t.st 3) % 2 ^ 64).toNat

/-- Extents `d` and above are all 1. -/
def Slot.flat (t : Slot) (d : Nat) : Bool := ([0, 1, 2, 3].filter (fun i => decide (d ≤ i))).all (fun i => t.ex i == 1)

/-! ### Records of a block -/

/-- The record of a slot of a block. -/
def shapeOf (s : State) (bid n : Nat) : BitVec 512 := match aget s.blocks bid with
  | some b => sget b.sh n
  | none => 0

/-- R70, R272: the record fails the checks of every use. -/
def recBad (s : State) (bid : Nat) (r : BitVec 512) : Bool :=
  slotBad (slotOfRec r) (spmSize s bid) || slotUseBad (slotOfRec r) (spmSize s bid)

/-! ### Bursts -/

/-- A burst of a copy (R276): the row on each side and a run of units along dimension 0. -/
structure CopyBurst where
  sx1 : Nat
  dx1 : Nat
  x2  : Nat
  x3  : Nat
  u   : Nat
  n   : Nat
deriving DecidableEq, Repr

/-- R276: cuts the units of a row into runs; a new run begins where either side enters another aligned 256-byte block. -/
def cutRow (a b : Nat → Nat) (u : Nat) : Nat → List (Nat × Nat)
  | 0 => []
  | k + 1 =>
    match cutRow a b (u + 1) k with
    | (v, n) :: t => if a u / 256 == a v / 256 && b u / 256 == b v / 256 then (u, n + 1) :: t else (u, 1) :: (v, n) :: t
    | [] => [(u, 1)]

/-- The bursts of one row of a copy. -/
def rowBursts (src dst : Slot) (sx1 dx1 x2 x3 : Nat) : List CopyBurst :=
  (cutRow (fun u => src.addr u sx1 x2 x3) (fun u => dst.addr u dx1 x2 x3) 0 src.units).map (fun p =>
    { sx1 := sx1, dx1 := dx1, x2 := x2, x3 := x3, u := p.1, n := p.2 })

/-- R275, R276: the bursts of a `CPY`, dimension 0 innermost. -/
def cpyBursts (src dst : Slot) : List CopyBurst :=
  (List.range (src.ex 3)).flatMap (fun x3 => (List.range (src.ex 2)).flatMap (fun x2 =>
    (List.range (src.ex 1)).flatMap (fun x1 => rowBursts src dst x1 x1 x2 x3)))

/-- R275: the bursts of a `CPYG` over its list; an entry at or above EXT1 has none. -/
def cpygBursts (src dst : Slot) (l : List (BitVec 32)) : List CopyBurst :=
  ((List.range l.length).zip l).flatMap (fun p => if p.2.toNat < src.ex 1 then rowBursts src dst p.2.toNat p.1 0 0 else [])

/-- A burst of a handler read (R278): its row, its block, and the coordinates a ladle is born with. -/
structure ReadBurst where
  row   : Nat
  block : Nat
  bytes : Nat
  bc    : List Nat
deriving DecidableEq, Repr

/-- The bytes of a row. -/
def Slot.rowBytes (t : Slot) : Nat := t.units * fmtSize t.fmt

/-- R278: coordinate 0 of the first element of the row that a block holds. -/
def firstCoord (t : Slot) (row block : Nat) : Nat := (max row block - row) / fmtSize t.fmt * fmtUnit t.fmt

/-- R278: the bursts of a row that begins at an address. -/
def readRow (t : Slot) (row : Nat) (bc : List Nat) : List ReadBurst :=
  let n := t.rowBytes
  if n == 0 then []
  else (List.range ((row + n - 1) / 256 - row / 256 + 1)).map (fun i =>
    let block := (row / 256 + i) * 256
    { row := row, block := block, bytes := n, bc := firstCoord t row block :: bc })

/-- R278: the bursts of an `RDH`. -/
def rdhBursts (t : Slot) : List ReadBurst :=
  (List.range (t.ex 3)).flatMap (fun x3 => (List.range (t.ex 2)).flatMap (fun x2 => (List.range (t.ex 1)).flatMap (fun x1 =>
    readRow t (t.addr 0 x1 x2 x3) [x1, x2, x3])))

/-- R278: the bursts of an `RDHG`. -/
def rdhgBursts (t : Slot) (l : List (BitVec 32)) : List ReadBurst :=
  ((List.range l.length).zip l).flatMap (fun p =>
    if p.2.toNat < t.ex 1 then readRow t (t.addr 0 p.2.toNat 0 0) [p.2.toNat, p.1, 0] else [])

/-- A byte of a burst's block belongs to the row. -/
def inRow (b : ReadBurst) (i : Nat) : Bool := decide (b.row ≤ b.block + i) && decide (b.block + i < b.row + b.bytes)

/-- R80: bit L of `k1`: some byte 8L to 8L + 7 of the block lies in the row. -/
def burstMask (b : ReadBurst) : LaneSet :=
  laneSet (allLanes.filter (fun l => (List.range 8).any (fun i => inRow b (8 * l + i))))

/-- The bytes of a block that a burst reads: the first and how many. -/
def burstRange (b : ReadBurst) : Nat × Nat :=
  let lo := max b.row b.block
  (lo, min (b.row + b.bytes) (b.block + 256) - lo)

/-- R275: a list descriptor: byte offset and count; any breach is refused. -/
def listBad (d : DWord) (size : Nat) : Bool :=
  let ofs := nbits d.toNat 0 20
  let m := nbits d.toNat 32 16
  nbits d.toNat 20 12 != 0 || nbits d.toNat 48 16 != 0 || m == 0 || ofs % 4 != 0 || decide (size < ofs + 4 * m)

/-- R275: the list of row numbers that a descriptor names. -/
def listRead (s : State) (bid : Nat) (d : DWord) : List (BitVec 32) :=
  let ofs := nbits d.toNat 0 20
  (List.range (nbits d.toNat 32 16)).map (fun i => BitVec.ofNat 32 (ofBytes (spmRead s bid (ofs + 4 * i) 4)))

end Sys2Proof.Machine
end

