-- ==== Sys2Proof/Machine/Engine.lean ====
section
/-! DEFINITION. Engines: how they reach memory and scratchpad, the checks and queues of a command (R135, R270 to R272), commands in a queue,
the slot instructions and the read of `CBLD` (R273, R274), burst faults (R277). -/

namespace Sys2Proof.Machine

/-! ### Reaching memory -/

/-- On whose behalf an engine accesses: `holder` is what waits where a line is closed (R398), and `quiet` says that its accesses are counted
apart (R147). -/
structure Who where
  core   : Nat
  ctx    : Nat
  level  : Level
  block  : Nat
  holder : Option Holder := none
  quiet  : Bool := false
deriving DecidableEq, Repr

/-- The asker of an access through a translation. -/
def whoAsker (s : State) (w : Who) (x : Xlat) : Asker :=
  let a := coreAsker s w.core w.ctx x
  { a with counted := a.counted && !w.quiet }

/-- Where the bytes of an access lie, or why it is not made now. -/
inductive Reach where
  | spm (block ofs : Nat)
  | mem (segs : List Seg)
  | fault (va : Nat) (f : WFault)
  | trap (code : TrapCode) (esrc : Nat)
  | wait
deriving DecidableEq, Repr

/-- The end of one translation as a reach. -/
def reachBad (va : Nat) : Walked → Reach
  | .fault f => .fault va f
  | .conflict => .trap .translationConflict 0
  | .lost e => .trap .uncorrectable e
  | .busy => .wait
  | _ => .trap .accessViolation 0

/-- R239, R353: the translated runs of `n` bytes. -/
def runsOf (s : State) (w : Who) (va n : Nat) (need : Need) : Reach × State :=
  let t := spaceOf s w.ctx w.level
  match agentTranslate s w.core t va need true with
  | (.ok x, s1) =>
    let k := 2 ^ x.size - va % 2 ^ x.size
    if n ≤ k then (.mem [{ x := x, va := va, len := n }], s1)
    else (match agentTranslate s1 w.core t (va + k) need true with
      | (.ok y, s2) => (.mem [{ x := x, va := va, len := k }, { x := y, va := va + k, len := n - k }], s2)
      | (r, s2) => (reachBad (va + k) r, s2))
  | (r, s1) => (reachBad va r, s1)

/-- A number that tells a waiting request from the others (R421). -/
def payNumber (w : Who) : Nat := match w.holder with
  | some (.part op lane) => 5 * (op * 64 + lane)
  | some (.burst c n) => 5 * (c * 2 ^ 16 + n) + 1
  | some (.packet q pos) => 5 * (q * 2 ^ 32 + pos.toNat) + 2
  | some (.host h _) => 5 * h + 3
  | _ => 5 * w.ctx + 4

/-- The ports that an access of a kind to some runs reaches. -/
def reachPorts (s : State) (w : Who) (l1 : Option L1) (k : AccKind) (segs : List Seg) : List Nat := segs.flatMap (segPorts s (dieOf w.core) l1 k)

/-- R420, R422: a request takes its tokens at the ports that it reaches; hub firmware pays for none. -/
def payReach (s : State) (w : Who) (ports : List Nat) : Bool × State :=
  if w.level == .f then (true, s) else payPorts s { cls := classOf s w.ctx, part := ctxPart s w.ctx, who := payNumber w } ports s

/-- What an access that needs a permission does to its lines. -/
def needKind : Need → AccKind
  | .write => .write
  | .both => .rmw
  | _ => .read

/-- The system-physical runs of an access, each with its length. -/
def runsIn (segs : List Seg) : List (Nat × Nat) := segs.map (fun g => (segSpa g, g.len))

/-- The first run on a frozen page. -/
def frozenVa (s : State) (w : Who) (segs : List Seg) : Option Nat :=
  (segs.find? (fun g => routeOf s (dieOf w.core) (segSpa g) g.len == .frozen)).map (fun g => g.va)

/-- R390, R398, R401, R433: a translated access may go, faults, traps or waits; for a closed line it waits in arrival order. -/
def routeReach (s : State) (w : Who) (va : Nat) (segs : List Seg) (need : Need) : Reach × State :=
  if segs.any (fun g => inWindow (segSpa g)) then (.trap .accessViolation 0, s)
  else match routeAll s (dieOf w.core) segs with
    | .bad => (.trap .uncorrectable 8, s)
    | .frozen =>
      (.fault ((frozenVa s w segs).getD va) { type := 3, level := 2, gpa := 0, s1walk := false, perm := false, malf := false }, s)
    | .closed => (.wait, match w.holder with
      | some h => holdAccess s h (needWrites need) (runsIn segs)
      | none => s)
    | .go => (.mem segs, s)

/-- R115, R239: an access of `n` bytes at a virtual address, before it takes a token. -/
def probe (s : State) (w : Who) (va n : Nat) (need : Need) : Reach × State :=
  if 2 ^ 56 ≤ va then (.trap .accessViolation 0, s)
  else match windowCheck s w.block va n with
    | some c => (.trap c 0, s)
    | none => match windowAt s w.block va with
      | some (b, ofs) => (.spm b ofs, s)
      | none => match runsOf s w va n need with
        | (.mem segs, s1) => routeReach s1 w va segs need
        | r => r

/-- An access of `n` bytes at a virtual address, with its token. -/
def reach (s : State) (w : Who) (va n : Nat) (need : Need) : Reach × State :=
  match probe s w va n need with
  | (.mem segs, s1) => match payReach s1 w (reachPorts s1 w none (needKind need) segs) with
    | (true, s2) => (.mem segs, s2)
    | (false, s2) => (.wait, s2)
  | r => r

/-- The bytes at a reached place, and the error source if one of them is poisoned (R375). -/
def takeBytes (s : State) (w : Who) (n : Nat) : Reach → Got × State
  | .spm b ofs =>
    let s1 := spmFind s b ofs n
    ({ bytes := spmRead s1 b ofs n, bad := if spmPoisoned s1 b ofs n then some 2 else none }, s1)
  | .mem segs => segsRead s (whoAsker s w) none segs
  | _ => ({ bytes := [], bad := none }, s)

/-- Writes the bytes at a reached place. -/
def giveBytes (s : State) (w : Who) (bs : List Byte) : Reach → State
  | .spm b ofs => spmWrite s b ofs bs
  | .mem segs =>
    let s1 := segsWrite s (whoAsker s w) bs segs
    if w.core < Config.cores then ownCode s1 w.block segs else s1
  | _ => s

/-- A write to one place and a write to what follows it there are one write. -/
def joinReach (p : Reach) (n : Nat) (q : Reach) : Option Reach :=
  match p, q with
  | .spm a o, .spm b o2 => if a == b && o2 == o + n then some (.spm a o) else none
  | .mem l, .mem (h :: m) => (match l.getLast? with
    | some g => if g.va + g.len == h.va && g.x == h.x then some (.mem (l.dropLast ++ { g with len := g.len + h.len } :: m)) else none
    | none => none)
  | _, _ => none

/-- R375: the writes of a burst, those that follow one another as one: it clears the poison of every part that they cover together. -/
def joinWrites : List (Reach × List Byte) → List (Reach × List Byte)
  | [] => []
  | (p, bs) :: t => match joinWrites t with
    | (q, cs) :: u => (match joinReach p bs.length q with
      | some r => (r, bs ++ cs) :: u
      | none => (p, bs) :: (q, cs) :: u)
    | [] => [(p, bs)]

/-- R147: an access of a kind to a run reaches the page's home: some line of it is in no cache that serves the access. -/
def reachesHome (s : State) (k : AccKind) (w : Who) (g : Seg) : Bool :=
  let who := whoAsker s w g.x
  if g.x.cls == 0 then (linesOf (segSpa g) g.len).any (fun l => !dirHit (aget s.mem.dir l) who k)
  else !isCached s g || (linesOf (segSpa g) g.len).any (fun l => (swCopy s who.die l).isNone)

/-- R147: a burst is one access to each page whose home it reaches. -/
def countBurst (s : State) (w : Who) (k : AccKind) (segs : List Seg) : State :=
  let hit := segs.filter (reachesHome s k w)
  ((hit.map (fun g => segSpa g / 2 ^ 19)).dedup).foldl (fun s p => count s { die := dieOf w.core, counted := w.core < Config.cores, install := false } p) s

/-! ### Queues (R135, R270) -/

/-- The queues of R135 that a mask names. -/
def queuesOfMask (m : Nat) : List EngineQueue :=
  ([(0, EngineQueue.mx), (1, .cp), (2, .hr), (3, .cw), (4, .sb)].filter (fun p => nbits m p.1 1 == 1)).map (fun p => p.2)

/-- The queues that an instruction enters. -/
def queuesOf : Instr → List EngineQueue
  | .cbld _ _ => [.mx]
  | .mma _ _ => [.mx]
  | .mmz _ _ => [.mx]
  | .accld _ _ => [.mx]
  | .accst _ _ => [.mx]
  | .accrd _ _ => [.mx]
  | .accwr _ _ => [.mx]
  | .cpy _ _ => [.cp]
  | .cpyg _ _ => [.cp]
  | .rdh _ _ => [.hr]
  | .rdhg _ _ => [.hr]
  | .flushr _ _ => [.cw]
  | .invr _ _ => [.cw]
  | .sub _ _ => [.sb]
  | .unsub _ _ => [.sb]
  | .pubfl _ _ => [.sb]
  | .qfence _ r => queuesOfMask (nbits r.opt.toNat 0 5)
  | _ => []

/-- A handler read. -/
def isRead : Instr → Bool
  | .rdh _ _ => true
  | .rdhg _ _ => true
  | _ => false

/-- R270: the commands that hold an entry of a queue: the core's matrix queue, or a block's own. -/
def inQueue (s : State) (core block : Nat) (q : EngineQueue) : List (Nat × Cmd) :=
  s.cmds.filter (fun c => c.2.queues.contains q && (if q == .mx then c.2.core == core else c.2.block == block))

/-- R270: a queue is full. -/
def queueFull (s : State) (core block : Nat) (q : EngineQueue) : Bool :=
  decide ((if q == .mx then Config.mxEntries else Config.engineEntries) ≤ (inQueue s core block q).length)

/-- R270: an instruction finds a queue full, or would be a ninth read of its core. -/
def noRoom (s : State) (core block : Nat) (i : Instr) : Bool :=
  (queuesOf i).any (queueFull s core block) ||
    (isRead i && decide (Config.coreReads ≤ (s.cmds.filter (fun c => c.2.core == core && isRead c.2.instr)).length))

/-! ### Records and checks (R70, R271, R272) -/

/-- The slots whose records an instruction copies, in the order D, A, B, C. -/
def recNums : Instr → List Nat
  | .cpy _ r => [r.d.toNat, r.a.toNat]
  | .cpyg _ r => [r.d.toNat, r.a.toNat]
  | .rdh _ r => [r.d.toNat]
  | .rdhg _ r => [r.d.toNat]
  | .mma _ r => [r.a.toNat, r.b.toNat]
  | .accld _ r => [r.a.toNat]
  | .accst _ r => r.d.toNat :: ((if r.b == 255 then [] else [r.b.toNat]) ++ (if r.c == 255 then [] else [r.c.toNat]))
  | _ => []

/-- A slot of a list of records. -/
def slotAt (recs : List (BitVec 512)) (n : Nat) : Slot := slotOfRec (recs.getD n 0)

/-- R278, R279: the exact count of an `RDH`'s bursts, or one above the limit when there are more rows than that. -/
def rdhCount (t : Slot) : Nat :=
  if 8192 < t.ex 1 * t.ex 2 * t.ex 3 then 8193
  else
    let n := t.rowBytes
    (List.range (t.ex 3)).foldl (fun a x3 => (List.range (t.ex 2)).foldl (fun a x2 => (List.range (t.ex 1)).foldl (fun a x1 =>
      let row := t.addr 0 x1 x2 x3
      a + ((row + n - 1) / 256 - row / 256 + 1)) a) a) 0

/-- R272, R279: the slot of a handler read is refused. -/
def readSlotBad (t : Slot) : Bool := t.space != 0 || (t.ex 0 != 1 && t.fmt != 0xB && t.st 0 != (fmtSize t.fmt : Int))

/-- `K` of an `MMA` (R268). -/
def mmaK (r : FmtE) : Nat := (nbits r.opt.toNat 0 4 + 1) * 32

/-- The tile count of an `MMA`, `ACCLD` or `ACCST` (R268). -/
def tilesOf (r : FmtE) : Nat := nbits r.opt.toNat 4 2

/-- R288: an F8 format. -/
def isF8 (f : Nat) : Bool := f == 0x9 || f == 0xA
/-- R288: an 8-bit integer format. -/
def isI8 (f : Nat) : Bool := f == 0x0 || f == 0x1
/-- R288: the pairs that `MMA` accepts. -/
def pairOk (a b : Nat) : Bool :=
  (isF8 a && isF8 b) || (isI8 a && isI8 b) || (isF8 a && b == 0xB) || (a == 0xB && (isF8 b || b == 0xB)) || (a == 0x8 && b == 0x8)
    || (a == 0x7 && b == 0x7)

/-- The codebooks of a block. -/
def cbooksOf (s : State) (bid : Nat) : Nat := match aget s.blocks bid with
  | some b => b.needs.cbooks
  | none => 0

/-- R288: an operand of an `MMA` is refused. -/
def mmaBad (s : State) (bid : Nat) (r : FmtE) (a b : Slot) : Bool :=
  let k := mmaK r
  let int := isI8 a.fmt
  let cb := fun (t : Slot) => t.fmt == 0xB && decide (cbooksOf s bid ≤ t.cbi)
  a.space != 1 || b.space != 1 || decide (a.ex 0 < k) || decide (b.ex 0 < k) || a.ex 1 != 128 || b.ex 1 != 128 * tilesOf r || !a.flat 2
    || !b.flat 2 || !pairOk a.fmt b.fmt || (r.opt.getLsbD 6 && !int) || (int && (a.scen || b.scen)) || cb a || cb b

/-- R272: a tile-shaped slot of `n` tiles in scratchpad. -/
def tileSlotBad (t : Slot) (n : Nat) : Bool := t.space != 1 || t.ex 0 != 128 * n || t.ex 1 != 128 || !t.flat 2

/-- R272: a scale or bias slot of an `ACCST` is refused. -/
def rowSlotBad (t : Slot) (n : Nat) : Bool :=
  t.space != 1 || t.fmt != 0x6 || decide (t.ex 0 < 128 * n) || !t.flat 1 || (t.ex 0 != 1 && t.st 0 != 4)

/-- R275: the count of a list descriptor. -/
def listCount (d : DWord) : Nat := nbits d.toNat 32 16

/-- R285: the operands of a `SUB`: the local range, then the peer block and its range. -/
def subCheck (s : State) (bid : Nat) (args : List DWord) : Option TrapCode :=
  let lo := (args.getD 0 0).toNat
  let len := (args.getD 1 0).toNat
  let po := (args.getD 3 0).toNat
  if len % 128 != 0 || len < 128 || 262144 < len || lo % 128 != 0 || po % 128 != 0 || spmSize s bid < lo + len then some .resource
  else match peerOf s bid (args.getD 2 0).toNat with
    | none => some .peerWindow
    | some p => if spmSize s p < po + len then some .peerWindow else none

/-- R375: a row of a tile holds poison. -/
def rowPoison (s : State) (bid tile row : Nat) : Bool :=
  (aget s.blocks bid).elim false (fun b => b.accPoison.any (fun p => decide (p / 32 = 128 * tile + row)))

/-- R371: the source of the error that a command's check found: the accumulator store. -/
def checkSource (c : TrapCode) : Nat := if c == .uncorrectable then 3 else 0

/-- R271: the use of a command's records and operands is refused with a code. -/
def useCheck (s : State) (bid : Nat) (i : Instr) (recs : List (BitVec 512)) (args : List DWord) : Option TrapCode :=
  let t0 := slotAt recs 0
  let t1 := slotAt recs 1
  let a0 := args.getD 0 0
  let no := fun (b : Bool) => if b then some TrapCode.resource else none
  match i with
  | .cpy _ _ => no (t0.fmt != t1.fmt || [0, 1, 2, 3].any (fun d => t0.ex d != t1.ex d))
  | .cpyg _ _ =>
    no (t0.fmt != t1.fmt || t0.ex 0 != t1.ex 0 || !t0.flat 2 || !t1.flat 2 || t0.ex 1 != listCount a0 || listBad a0 (spmSize s bid))
  | .rdh _ _ => no (readSlotBad t0 || decide (8192 < rdhCount t0))
  | .rdhg _ _ =>
    let d := args.getD 3 0
    no (readSlotBad t0 || !t0.flat 2 || listBad d (spmSize s bid) || decide (8192 < listCount d * ((t0.rowBytes + 255) / 256 + 1)))
  | .mma _ r => no (mmaBad s bid r t0 t1)
  | .accld _ r => no (tileSlotBad t0 (tilesOf r) || !(t0.fmt == 0x4 || t0.fmt == 0x5 || t0.fmt == 0x6))
  | .accst _ r =>
    no (tileSlotBad t0 (tilesOf r) || decide (0xB ≤ t0.fmt) || (recs.drop 1).any (fun x => rowSlotBad (slotOfRec x) (tilesOf r)))
  | .accrd _ r => if 128 ≤ a0.toNat then some .resource else if rowPoison s bid r.a.toNat a0.toNat then some .uncorrectable else none
  | .accwr _ _ => no (decide (128 ≤ a0.toNat))
  | .sub _ _ => subCheck s bid args
  | .flushr _ _ => if 2 ^ 56 < a0.toNat + (args.getD 1 0).toNat then some .accessViolation else none
  | .invr _ _ => if 2 ^ 56 < a0.toNat + (args.getD 1 0).toNat then some .accessViolation else none
  | _ => none

/-- The records that an instruction copies. -/
def recsFor (s : State) (bid : Nat) (i : Instr) : List (BitVec 512) := (recNums i).map (shapeOf s bid)

/-- R271: the first check of a command that fails. -/
def engineCheck (s : State) (bid : Nat) (i : Instr) (args : List DWord) : Option TrapCode :=
  let recs := recsFor s bid i
  if recs.any (recBad s bid) then some .resource else useCheck s bid i recs args

/-! ### Commands -/

/-- R38: the parked lanes in whose replay lists an instruction in flight stands. -/
def replayLanes (o : Op) : LaneSet := if o.parts.any (·.late) then o.group else 0

/-- A command that enters its queues with a number of entry, from the instruction in flight that issued it. -/
def cmdOf (s : State) (o : Op) (entry : Nat) (vals : List (Nat × BitVec 128)) : Cmd :=
  { instr := o.instr, agent := o.agent, block := o.block, core := o.core, ctx := o.ctx, level := o.level, pc := o.pc, word := o.word
    slot := (aget s.agents o.agent).elim 0 slotOf, active := o.active, seq := o.seq, entry := entry
    queues := queuesOf o.instr
    recs := recsFor s o.block o.instr, args := o.args, vals := vals, st := .queued, next := 0, flying := [], landed := [], bits := []
    marks := [], list := [], res := 0, stopped := false, flag := o.flag, clause := o.clause
    lanes := replayLanes o }

/-- R270: the command of an instruction in flight is entered under the instruction's number, behind all that have entered before it; its
flag now stands for the command. -/
def enqueue (s0 : State) (id : Nat) (o : Op) (vals : List (Nat × BitVec 128)) : State :=
  let (n, s) := freshId s0
  let s1 := { s with cmds := aset s.cmds id (cmdOf s o n vals) }
  partDone (modOp s1 id (fun q => { q with flag := 15 })) id 32 0

/-- The execution of an engine instruction that stands in a replay list (R38): it waits for room, and its checks may now fail,
with a late trap (DESIGN CHOICE, log entry 84). -/
def engineServe (s : State) (id : Nat) (o : Op) : State :=
  if noRoom s o.core o.block o.instr then s
  else match engineCheck s o.block o.instr o.args with
    | some c => lateTrap s id o [32] c 0 (checkSource c)
    | none => enqueue s id o o.vals

/-! ### Slots and codebooks (R273, R274) -/

/-- The slot that a slot instruction names, and whether it writes it. -/
def slotUse : Instr → Option (Nat × Bool)
  | .ldsh _ r => some (r.d.toNat, true)
  | .shset _ r => some (r.d.toNat, true)
  | .shget _ r => some (r.a.toNat, false)
  | .evsh _ r => some (r.b.toNat, false)
  | _ => none

/-- R273: an earlier slot instruction of the cohort on the same slot is still open and one of the two writes. -/
def slotWaits (s : State) (o : Op) : Bool :=
  match slotUse o.instr with
  | none => false
  | some (n, w) => s.ops.any (fun q => q.2.agent == o.agent && decide (q.2.seq < o.seq) && q.2.parts.any partOpen &&
      (match slotUse q.2.instr with
       | some (m, v) => m == n && (w || v)
       | none => false))

/-- Sets the record of a slot. -/
def setShape (s : State) (bid n : Nat) (r : BitVec 512) : State := modBlock s bid (fun b => { b with sh := sset b.sh n r })

/-- R286: the record that `SUBQ` returns. -/
def subqRecord (x : Subscription) : Nat :=
  2 ^ 63 + bitNat x.snap * 2 ^ 62 + bitNat x.lost * 2 ^ 61 + bitNat x.ended * 2 ^ 60 + x.pcore % 128 * 2 ^ 44
    + x.poff / 128 % 2 ^ 13 * 2 ^ 31 + x.loff / 128 % 2 ^ 13 * 2 ^ 18 + x.len / 128 % 2 ^ 12 * 2 ^ 6

/-- `SHSET`, `SHGET` and `SUBQ` take effect. -/
def slotServe (s : State) (id : Nat) (o : Op) : State :=
  if slotWaits s o then s
  else
    let a0 := o.args.getD 0 0
    match o.instr with
    | .shset _ r =>
      let w := nbits r.opt.toNat 0 3
      let old := shapeOf s o.block r.d.toNat
      partDone (setShape s o.block r.d.toNat (BitVec.ofNat 512 (nset old.toNat (64 * w) 64 a0.toNat))) id 32 0
    | .shget _ r => partDone s id 32 (nbits (shapeOf s o.block r.a.toNat).toNat (64 * nbits r.opt.toNat 0 3) 64)
    | .subq _ r =>
      let n := nbits a0.toNat 0 4
      (match subOf s o.block n with
       | some x => partDone (if r.opt.getLsbD 0 then modSub s o.block n (fun y => { y with lost := false }) else s) id 32 (subqRecord x)
       | none => partDone s id 32 0)
    | _ => s

/-- The 32 bytes of a codebook as the value of a command. -/
def bookVals (n : Nat) : List (Nat × BitVec 128) := [(0, BitVec.ofNat 128 n), (1, BitVec.ofNat 128 (n / 2 ^ 128))]

/-- `LDSH`, `EVSH` and the read of `CBLD`: the access of a slot instruction, made at issue or at its replay. -/
def shapeServe (s : State) (id : Nat) (o : Op) : State :=
  let book := match o.instr with
    | .cbld _ _ => true
    | _ => false
  if slotWaits s o || (book && noRoom s o.core o.block o.instr) then s
  else
    let va := (o.args.getD 0 0).toNat
    let n := partBytes o
    let w : Who := { core := o.core, ctx := o.ctx, level := o.level, block := o.block, holder := some (.part id 32) }
    let wr := doesWrite (kindOf o.instr)
    match reach s w va n (if wr then .write else .read) with
    | (.fault v f, s1) => postFaults (faultPart s1 id o 32 v f) o.ctx
    | (.trap c e, s1) => lateTrap s1 id o [32] c va e
    | (.wait, s1) => s1
    | (p, s1) =>
      match o.instr with
      | .evsh _ r => partDone (giveBytes s1 w (toBytes (shapeOf s1 o.block r.b.toNat).toNat 64) p) id 32 0
      | i =>
        let (got, s2) := takeBytes s1 w n p
        match got.bad, i with
        | some e, _ => lateTrap s2 id o [32] .uncorrectable va e
        | none, .ldsh _ r => partDone (setShape s2 o.block r.d.toNat (BitVec.ofNat 512 (ofBytes got.bytes))) id 32 0
        | none, _ => enqueue s2 id o (bookVals (ofBytes got.bytes))

/-! ### Commands in progress -/

/-- A command. -/
def cmdAt (s : State) (id : Nat) : Option Cmd := aget s.cmds id

/-- Changes a command. -/
def modCmd (s : State) (id : Nat) (f : Cmd → Cmd) : State := match aget s.cmds id with
  | some c => { s with cmds := aset s.cmds id (f c) }
  | none => s

/-- On whose behalf a command accesses. -/
def cmdWho (c : Cmd) : Who := { core := c.core, ctx := c.ctx, level := c.level, block := c.block }

/-- The queue of a command's launch. -/
def cmdQueue (s : State) (c : Cmd) : Nat := blockQueue s c.block

/-- R364: the record fields of a burst's fault. -/
def burstFault (s : State) (c : Cmd) (burst va : Nat) (write : Bool) (f : WFault) : FaultReq :=
  { type := f.type, ctx := c.ctx, va := va % 2 ^ 56, gpa := f.gpa, level := f.level, perm := f.perm, malf := f.malf, s1walk := f.s1walk
    fetch := false, write := write, ladle := false, engine := true, core := c.core, slot := c.slot, queue := cmdQueue s c, pc := c.pc
    lanes := 0, burst := burst, nburst := 1 }

/-- R363, R364: a held record of an engine group names the lowest burst with its address, and how many are in the group; the other fields
stay those of the part that opened it (DESIGN CHOICE, log entry 82). -/
def widenBursts (burst va : Nat) (r : BitVec 512) : BitVec 512 :=
  let n := nset r.toNat 416 16 (pfld r 416 16 + 1)
  BitVec.ofNat 512 (if burst < pfld r 384 32 then nset (nset n 384 32 burst) 64 56 (va % 2 ^ 56) else n)

/-- R277, R363: a burst parks in the open group of its command, type and page, or in a new one. The record stays with the manager while
other bursts may join the group (R358, R361: they share the walk). -/
def faultBurst (s : State) (id burst va : Nat) (write : Bool) (f : WFault) : State :=
  match aget s.cmds id with
  | none => s
  | some c =>
    let same := fun (g : FaultGroup) => g.type == f.type && g.page == va / 2 ^ 19 && g.ctx == c.ctx && g.cmds.any (fun p => p.1 == id)
    let mark := fun (s : State) (gid : Nat) =>
      modCmd s id (fun c => { c with marks := c.marks.filter (fun m => m.burst != burst) ++ [{ burst := burst, st := .parked gid }] })
    match s.hub.groups.find? (fun g => same g && (!g.posted || g.cmds.contains (id, burst))) with
    | some g =>
      mark (if g.cmds.contains (id, burst) then s
        else editHeld (modGroup s g.id (fun x => { x with cmds := x.cmds ++ [(id, burst)] })) g.id (widenBursts burst va)) g.id
    | none =>
      let q := burstFault s c burst va write f
      match newGroup s q (fun gid => { FaultGroup.of gid q with cmds := [(id, burst)] }) with
      | (gid, s1) => mark s1 gid

/-- R277, R369, R371: a late trap of a command or of a burst stops the issuing cohort, or holds the block where the cohort has retired. -/
def trapCmd (s : State) (id burst : Nat) (code : TrapCode) (addr esrc : Nat) : State :=
  match aget s.cmds id with
  | none => s
  | some c =>
    let t : TrapReq :=
      { TrapReq.of code 2 c.word c.pc c.active 0 with
        addr := addr % 2 ^ 56, op := opcodeOf c.instr, cmd := some id, burst := burst, esrc := esrc }
    let s1 := modCmd s id (fun c => { c with marks := c.marks.filter (fun m => m.burst != burst) ++ [{ burst := burst, st := .detached 0 }] })
    match aget s1.agents c.agent with
    | some ag =>
      if ag.kind == .hubThread then s1
      else match postTrap s1 c.agent t with
        | (tid, s2) => modCmd s2 id (fun c => { c with marks := c.marks.map (fun m =>
            if m.burst == burst then { m with st := .detached tid } else m) })
    | none =>
      match recordId s1 with
      | (tid, s2) =>
        let info : TrapInfo :=
          { id := tid, ctx := c.ctx, agent := c.agent, level := c.level, code := BitVec.ofNat 8 code.num, kind := 2, word := c.word
            hdr := c.pc, group := c.active, count := 0, op := opcodeOf c.instr, cmd := some id, fetch := false }
        let x := ctxOf s2 c.ctx
        let lin := (aget s2.blocks c.block).elim 0 (fun b => b.linear)
        let r := mkRec [(448, 64, lin), (416, 32, c.active.toNat), (384, 32, burst), (320, 56, c.pc.toNat), (280, 8, c.slot)
          , (272, 8, c.core), (256, 6, cmdQueue s2 c), (192, 32, tid), (160, 4, esrc), (144, 10, opcodeOf c.instr), (64, 56, addr % 2 ^ 56)
          , (40, 16, x.asid.toNat), (32, 8, x.vmid.toNat), (20, 12, c.ctx), (18, 2, levelNum c.level), (16, 2, 2), (12, 4, c.word)
          , (11, 1, 1), (0, 8, code.num)]
        let s3 := modCmd s2 id (fun c => { c with marks := c.marks.map (fun m => if m.burst == burst then { m with st := .detached tid } else m) })
        let s4 := { s3 with hub := { s3.hub with traps := s3.hub.traps ++ [info] } }
        postRecord s4 (if c.level == .u && c.ctx != 0 then .trap c.ctx else .hypTrap) r none

/-- A burst has a mark: parked, trapped or dropped. -/
def marked (c : Cmd) (burst : Nat) : Bool := c.marks.any (fun m => m.burst == burst)

/-- R136: an access of the issuing cohort before the command that is still open. One of a strand that did not issue it counts unless it
stands parked, trapped or in a replay list (R38, R40: no such access holds up strands that do not need it). -/
def issuerOpen (s : State) (c : Cmd) : Bool :=
  s.ops.any (fun q => q.2.agent == c.agent && decide (q.2.seq < c.seq) && !holdsNothing (kindOf q.2.instr) &&
    q.2.parts.any (fun p => partOpen p && ((lanesOf c.active).any (partOf q.2 p) || !(partStopped p || p.late))))

/-- An earlier entry of a queue that a later command waits for: any, or on the matrix queue one that has not left the engine (R135, R289);
a `QFENCE` holds back every later entry until it completes (R293). -/
def queueAhead (s : State) (c : Cmd) (q : EngineQueue) : Bool :=
  (inQueue s c.core c.block q).any (fun p => decide (p.2.entry < c.entry) &&
    (match p.2.instr with
     | .qfence _ _ => true
     | _ => q != .mx || !(p.2.st == .left || p.2.st == .complete)))

/-- R289: the matrix engine of a core runs a command. -/
def mxBusy (s : State) (core : Nat) : Bool := s.cmds.any (fun p => p.2.core == core && p.2.queues == [.mx] && p.2.st == .running)

/-- R135: the command may start. -/
def mayStart (s : State) (c : Cmd) : Bool :=
  c.st == .queued && !c.marks.any (fun m => m.st != .dropped) && !issuerOpen s c && !c.queues.any (queueAhead s c)
    && !(c.queues == [.mx] && mxBusy s c.core)

end Sys2Proof.Machine
end

