-- ==== Sys2Proof/Machine/Rings.lean ====
section
/-! DEFINITION. The rings of the hardware queues (R325 to R328, R337): packet positions, their places through stage 2, notification of hub
threads, appended packets and the deferred table; the sending side of `PUSH` (R292). -/

namespace Sys2Proof.Machine

/-- Packets that a ring holds (R325). -/
def ringSize (x : Queue) : Nat := 2 ^ (nbits x.cfg.toNat 28 4 + 4)

/-- Packets in a ring that are not accepted. -/
def ringUsed (x : Queue) : Nat := (x.wr - x.rd).toNat

/-- No packet can be appended. -/
def ringFull (x : Queue) : Bool := decide (ringSize x ≤ ringUsed x)

/-- Whether a queue is enabled (R327). -/
def queueOn (x : Queue) : Bool := x.cfg.getLsbD 0

/-- The guest-physical address of a position's packet. -/
def ringAddr (x : Queue) (pos : BitVec 32) : Nat := x.base.toNat + 64 * (pos.toNat % ringSize x)

/-- HUB_THREAD_NOTIFY (R322, R328): the notify register of a queue wakes its thread. -/
def notifyThread (s : State) (q : Nat) : State := modAgent s q (fun ag => { ag with hub := { ag.hub with notified := true } })

/-- R328: a write to a queue's QWR: a device-fed queue ignores it; a value in range is taken; the thread is woken. -/
def qwrTake (s : State) (q : Nat) (v : BitVec 32) : State :=
  let x := queueOf s q
  if x.cfg.getLsbD 1 then s
  else notifyThread (if (v - x.rd).toNat ≤ ringSize x then putQueue s q { x with wr := v } else s) q

/-- R328: a stage-2 fault of a ring access: a type-2 record, and the queue waits for the group. A walk that cannot reach a table now is made again
(R398); one that meets a lost or poisoned table entry is such a fault too, with a record of the error in the trap queue of H (R370, R386; DESIGN
CHOICE, log entry 86). -/
def ringFault (s0 : State) (q gpa : Nat) (write : Bool) (w : WFault) : State :=
  let s := if w.type == 18 then hubErrorRecord s0 (queueCtx s0 q) w.esrc 0xFF 0 q gpa else s0
  if w.type == 16 || w.type == 17 then s0 else
  let f : FaultReq :=
    { type := 2, ctx := queueCtx s q, va := 0, gpa := gpa, level := w.level, perm := w.perm, malf := w.malf, s1walk := w.s1walk
      fetch := false, write := write, ladle := false, engine := false, core := 0xFF, slot := 0, queue := q, pc := 0, lanes := 0
      burst := 0, nburst := 0 }
  match newGroup s f (fun gid => { FaultGroup.of gid f with pkt := some (q, 0, 0) }) with
  | (gid, s1) => postQueue (putQueue s1 q { queueOf s1 q with group := some gid }) .hypFault

/-- The bytes of the packet at a position, or a queue that waits: for its fault group, or for a frozen page or a closed line (R390). -/
def ringRead (s : State) (q : Nat) (pos : BitVec 32) : Option (BitVec 512) × State :=
  let gpa := ringAddr (queueOf s q) pos
  match gpaXlat s (spaceOf s (queueCtx s q) .s) gpa .read with
  | (.error w, s1) => (none, ringFault s1 q gpa false w)
  | (.ok (spa, key), s1) =>
    if !hubGo s1 spa 64 then (none, s1)
    else match hubRead s1 key spa 64 with
      | (bs, s2) => (some (BitVec.ofNat 512 (ofBytes bs)), s2)

/-- R337: a packet is written at QWR, which advances, and the thread is notified; or the queue waits, as for a read. -/
def ringAppend (s : State) (q : Nat) (p : BitVec 512) : Bool × State :=
  let x := queueOf s q
  let gpa := ringAddr x x.wr
  if x.group.isSome then (false, s)
  else match gpaXlat s (spaceOf s (queueCtx s q) .s) gpa .write with
    | (.error w, s1) => (false, ringFault s1 q gpa true w)
    | (.ok (spa, key), s1) =>
      match hubPut s1 key spa false (toBytes p.toNat 64) with
      | (true, s2) => (true, notifyThread (putQueue s2 q { queueOf s2 q with wr := x.wr + 1 }) q)
      | (false, _) => (false, s1)

/-! ### Record and replay (R443) -/

/-- R443: what RECCTL holds: MODE, the buffer, and its size in bytes. -/
def recMode (x : Queue) : Nat := nbits x.recctl.toNat 0 2
/-- R443: the buffer of a queue. -/
def recBuffer (x : Queue) : Nat := nbits x.recctl.toNat 12 40 * 2 ^ 12
/-- R443: how many entries of 1,024 bytes the buffer holds (DESIGN CHOICE, log entry 29: the spec gives the content and no format). -/
def recEntries (x : Queue) : Nat := nbits x.recctl.toNat 52 12 * 1024

/-! ### `PUSH` (R292, R337) -/

/-- R337: the conditions on a queue that a context pushes to. -/
def mayPush (s : State) (ctx q : Nat) : Bool :=
  let x := queueOf s q
  decide (q < 64) && queueOn x && x.cfg.getLsbD 1 && queueCtx s q == ctx

/-- The entries of a core's deferred table. -/
def deferredOn (s : State) (core : Nat) : List Deferred := s.hub.defers.filter (fun d => d.core == core)

/-- The packet of a `PUSH`. -/
def pushPacket (o : Op) : BitVec 512 :=
  BitVec.ofNat 512 (((o.args.drop 2).take 8).foldr (fun w n => w.toNat + 2 ^ 64 * n) 0)

/-- R292: the `PUSH`es that have been accepted and wait for their release: those of a core with a counter, or those of a queue without. -/
def pendingPushes (s : State) (p : Op → Bool) : Nat :=
  (s.ops.filter (fun q => kindOf q.2.instr == .push && q.2.args.getD 0 0 == 0 && q.2.parts.any partOpen && p q.2)).length

/-- The counter that a `PUSH` names; 255 for none. -/
def pushEc (o : Op) : Nat := (memFmt o.instr).c.toNat

/-- R292: the packets of a ring, with those that are to be appended. -/
def ringCommitted (s : State) (q : Nat) : Nat :=
  ringUsed (queueOf s q) + pendingPushes s (fun o => pushEc o == 255 && (o.args.getD 1 0).toNat == q)

/-- R292: the entries of a core's deferred table, with those that are to be made. -/
def deferCommitted (s : State) (core : Nat) : Nat :=
  (deferredOn s core).length + pendingPushes s (fun o => pushEc o != 255 && o.core == core)

/-- R292: the result of a `PUSH`: 2 before 3, 3 before 1. -/
def pushResult (s : State) (o : Op) : Nat :=
  let q := (o.args.getD 1 0).toNat
  if !mayPush s o.ctx q then 2
  else if pushEc o == 255 then (if ringSize (queueOf s q) ≤ ringCommitted s q then 1 else 0)
  else if pfld (pushPacket o) 0 8 != 1 then 3
  else if Config.deferEntries ≤ deferCommitted s o.core then 1
  else 0

/-- R50: a launch is bound to a counter; it is ready at once if the counter meets the test. -/
def deferPush (s : State) (o : Op) (q ec : Nat) : State :=
  let d : Deferred :=
    { core := o.core, block := o.block, ctx := o.ctx, ec := ec, queue := q, bits := pushPacket o, ready := decide ((ecGet s o.block ec).toInt ≤ 0) }
  { s with hub := { s.hub with defers := s.hub.defers ++ [d] } }

/-- `PUSH` once its release has gone out: the result that was decided at issue, or is decided now at a replay (code 4), and the packet. -/
def pushServe (s : State) (id : Nat) (o : Op) : State :=
  let r := if o.args.getD 0 0 == 4 then pushResult s o else (o.args.getD 0 0).toNat
  let q := (o.args.getD 1 0).toNat
  let ec := pushEc o
  if r != 0 then partDone s id 32 r
  else if ec != 255 then partDone (deferPush s o q ec) id 32 0
  else if ringFull (queueOf s q) then s
  else match ringAppend s q (pushPacket o) with
    | (true, s1) => partDone s1 id 32 0
    | (false, s1) => s1

/-! ### Releases of commands and agents (R130, R133, R136, R139) -/

/-- What a release at a scope by a block on a core carries out, and whether it has yet to wait. -/
def releaseStep (s : State) (core block scope : Nat) : Bool × State :=
  let s1 := releaseOut s core block scope
  (releaseWaits s1 core block scope, s1)

end Sys2Proof.Machine
end

