-- ==== Sys2Proof/Machine/Home.lean ====
section
/-! DEFINITION. The steps of an instruction in flight: WALK (R353), HOME_REQUEST (R394), ACCESS_COMPLETION (R240), placement page by page
(R264), the register window as compute cores reach it (R433), and replays (R366, R402). -/

namespace Sys2Proof.Machine

/-! ### Placement (R264) -/

/-- The length of a placement range and the number of 512 KiB pages it touches. -/
def placePages (o : Op) : Nat :=
  let base := (o.args.getD 0 0).toNat
  let len := nbits (o.args.getD 1 0).toNat 0 48
  if len == 0 then 0 else (base + len - 1) / 2 ^ 19 - base / 2 ^ 19 + 1

/-- The address of the page that a placement instruction has reached. -/
def placeAddr (o : Op) : Nat :=
  let base := (o.args.getD 0 0).toNat
  if o.acted == 0 then base else (base / 2 ^ 19 + o.acted) * 2 ^ 19

/-- R264: the result of a placement instruction. -/
def placeResult (acted status : Nat) : Nat := acted * 256 + status

/-- One page of a placement instruction through its translation. -/
def placeAct (s : State) (id : Nat) (o : Op) (va : Nat) (x : Xlat) : PageAct :=
  let page := xlatOut x va / 2 ^ 19
  let c := (o.args.getD 1 0).toNat
  match o.instr with
  | .pin _ _ => pinPage s id o.ctx page (x.gpa + va % 2 ^ x.size)
  | .unpin _ _ => unpinPage s o.ctx page
  | _ => hintPage s o.ctx page (nbits c 56 3) (nbits c 60 2) (x.cls == 1)

/-- R264: the page that the instruction has reached: done, stopped, parked or waiting. -/
def placeStep (s : State) (id : Nat) (o : Op) : State :=
  let va := placeAddr o
  let fin := fun s n st => partDone s id 32 (placeResult n st)
  if placePages o ≤ o.acted then fin s o.acted 0
  else match decodeAddr va with
    | .spm _ => fin s o.acted 6
    | .peer _ _ => fin s o.acted 6
    | .badAccess => lateTrap s id o [32] .accessViolation va 0
    | .badPeer => lateTrap s id o [32] .peerWindow va 0
    | .mem =>
      match agentTranslate s o.core (spaceOf s o.ctx o.level) va .any false with
      | (.fault w, s1) => postFaults (faultPart s1 id o 32 va w) o.ctx
      | (.refused, s1) => lateTrap s1 id o [32] .accessViolation va 0
      | (.conflict, s1) => lateTrap s1 id o [32] .translationConflict va 0
      | (.guarded, s1) => lateTrap s1 id o [32] .accessViolation va 0
      | (.lost e, s1) => lateTrap s1 id o [32] .uncorrectable va e
      | (.busy, s1) => s1
      | (.ok x, s1) =>
        match placeAct s1 id o va x with
        | .stop st s2 => fin s2 o.acted st
        | .wait s2 => s2
        | .acted s2 =>
          let s3 := modOp s2 id (fun q => { q with acted := q.acted + 1 })
          if o.acted + 1 == placePages o then fin s3 (o.acted + 1) 0 else s3

/-! ### Memory -/

/-- The tokens of an access of a part to its runs (R420 to R422). -/
def payFor (s : State) (id : Nat) (o : Op) (p : Part) (segs : List Seg) : Bool × State :=
  let w : Who := { core := o.core, ctx := o.ctx, level := o.level, block := o.block, holder := some (.part id p.lane) }
  let k : AccKind := if !doesRead (kindOf o.instr) then .write else if doesWrite (kindOf o.instr) then .rmw else .read
  payReach s w (reachPorts s w (loadL1 o) k segs)

/-- R433, R434: a compute core's access to the register window, behind those that arrived before it. -/
def performWindow (s : State) (id : Nat) (o : Op) (p : Part) (spa : Nat) : State :=
  let w : Writer := { level := o.level, vmid := (ctxOf s o.ctx).vmid }
  let k := kindOf o.instr
  let reg := winReg (winOfs spa)
  let trap := lateTrap s id o [p.lane] .accessViolation p.va.toNat 0
  if !winShape spa (partBytes o) then trap
  else if k == .load && winPending s then s
  else if k == .load && winAllowed s w reg false then partDone s id p.lane (winRead s w reg).toNat
  else if k == .store && winAllowed s w reg true then
    partDone (winStore s w spa (BitVec.ofNat 64 (laneVal o.vals p.lane))) id p.lane 0
  else trap

/-- A part at memory: the register window, or the route that its page's entry gives (R386, R390, R398, R401). -/
def memServe (s : State) (id : Nat) (o : Op) (p : Part) : State :=
  let segs := segsOf p (partBytes o)
  match segs.find? (fun g => inWindow (segSpa g)) with
  | some g => performWindow s id o p (segSpa g)
  | none =>
    match routeAll s (dieOf o.core) segs with
    | .bad => lateTrap s id o [p.lane] .uncorrectable p.va.toNat 8
    | .frozen =>
      let frozen := segs.filter (fun g => routeOf s (dieOf o.core) (segSpa g) g.len == .frozen)
      postFaults (frozen.foldl (fun s g => faultPart s id o p.lane g.va
        { type := 3, level := 2, gpa := 0, s1walk := false, perm := false, malf := false }) s) o.ctx
    | .closed => holdAccess s (.part id p.lane) (doesWrite (kindOf o.instr)) (runsIn segs)
    | .go => match payFor s id o p segs with
      | (true, s1) => performMem s1 id o p segs
      | (false, s1) => s1

/-- A part at a window of the generic address space, or at memory (R115). -/
def accessServe (s : State) (id : Nat) (o : Op) (p : Part) : State :=
  if isWindow p.va.toNat then
    match windowAt s o.block p.va.toNat with
    | some (b, ofs) => performSpm s id o p b ofs
    | none => lateTrap s id o [p.lane] .peerWindow p.va.toNat 0
  else memServe s id o p

/-- R265: a window address gives the record NOT_MEMORY; a page gives its record. -/
def tierqServe (s : State) (id : Nat) (o : Op) (p : Part) : State :=
  match segsOf p 1 with
  | g :: _ => partDone s id p.lane (tierRecord s (ctxOf s o.ctx).vmid (segSpa g / 2 ^ 19) g.x.allow).toNat
  | [] => partDone s id p.lane 6

/-- A part that may be performed, by the kind of its instruction. -/
def homeServe (s : State) (id : Nat) (o : Op) (p : Part) : State :=
  let r := memFmt o.instr
  let a0 := o.args.getD 0 0
  let ec := r.c.toNat
  match kindOf o.instr with
  | .fence => partDone s id p.lane 0
  | .bar => barPart s r p a0 (o.args.getD 1 0) false
  | .bara => barPart s r p a0 (o.args.getD 1 0) true
  | .ecset => partDone (ecSet s o.block ec (a0.setWidth 32)) id p.lane 0
  | .ecadd => partDone (ecSet s o.block ec (ecGet s o.block ec + a0.setWidth 32)) id p.lane (ecGet s o.block ec).toNat
  | .ecq => partDone s id p.lane (ecGet s o.block ec).toNat
  | .wakeva =>
    let c := ctxOf s o.ctx
    let (n, s1) := wakeKey s p.va c.vmid c.asid ((o.args.getD 1 0).toNat)
    partDone s1 id p.lane n
  | .tierq => tierqServe s id o p
  | .place => placeStep s id o
  | .ldsh => shapeServe s id o
  | .evsh => shapeServe s id o
  | .slot => slotServe s id o
  | .push => pushServe s id o
  | .engine => engineServe s id o
  | .system => s
  | .other => s
  | _ => accessServe s id o p
where
  /-- R252, R254: a lane's arrival with the mask and the count of its word, in the phase in which it was issued, or for a replay list in the
  phase that is current. -/
  barPart (s : State) (r : FmtM) (p : Part) (mask phase : DWord) (pend : Bool) : State :=
    match aget s.agents o.agent with
    | none => partDone s id p.lane 0
    | some ag =>
      let m := mask.setWidth 32
      let b := barrierAt s r.scope.toNat (ownerOf s ag r.scope.toNat) r.d.toNat
      let s1 := if p.late then barIssue s o.agent ag r.scope.toNat r.d.toNat r.b.toNat m (laneSet [p.lane]) pend else s
      if p.late || BitVec.ofNat 64 b.phase == phase then
        partDone (barArrive s1 o.agent ag r.scope.toNat r.d.toNat p.lane r.b.toNat m) id p.lane 0
      else partDone s id p.lane 0

/-- R130: where the part of an acquire at `quad` scope or wider has been performed, the L1 data cache of its core is invalidated. -/
def acquired (o : Op) (lane id : Nat) (s : State) : State :=
  let ended := match (aget s.ops id).bind (fun q => partAt q lane) with
    | some p => !partOpen p
    | none => true
  if isAcquire o && decide (2 ≤ (memFmt o.instr).scope.toNat) && ended then l1Clear s o.core else s

/-- HOME_REQUEST (R394): a part that its strand's order lets go is served; a release first sends out what it must (R130, R133, R139). -/
def homeOp (s : State) (id lane : Nat) : State :=
  match aget s.ops id with
  | none => s
  | some o =>
    match partAt o lane with
    | none => s
    | some p =>
      if p.st != .home || !partReady s o p then s
      else if isRelease o then
        let sc := releaseScope o
        let s1 := releaseOut s o.core o.block sc
        if releaseWaits s1 o.core o.block sc then s1 else acquired o lane id (homeServe s1 id o p)
      else acquired o lane id (homeServe s id o p)

/-- R243: some lanes of one store write a common byte. -/
def storesMeet (o : Op) : Bool :=
  kindOf o.instr == .store && o.parts.any (fun p => o.parts.any (fun q => decide (p.lane < q.lane) && mayOverlap o p o q))

/-- The order in which the parts of an op are asked for: by lane, or where lanes of a store write a common byte, in a rotation that lets any
lane be the last (R243; a free value, log entry 9). -/
def partOrder (s : State) (o : Op) : List Part × State :=
  if storesMeet o then
    let k := Config.storeWinner s.fresh % o.parts.length
    (o.parts.drop k ++ o.parts.take k, { s with fresh := s.fresh + 1 })
  else (o.parts, s)

/-- All parts of an op are asked for. -/
def homeAll (s : State) (id : Nat) : State := match aget s.ops id with
  | some o => match partOrder s o with
    | (l, s1) => l.foldl (fun s p => homeOp s id p.lane) s1
  | none => s

/-- HOME_REQUEST (R394). -/
def execHomeRequest (op part : Nat) (s : State) : Out := .next (homeOp s op part)

/-- WALK (R353, R358): the translation of a part that waits for it, in a walker that is free for its
instruction. -/
def execWalk (op part : Nat) (s : State) : Out :=
  match aget s.ops op with
  | none => .next s
  | some o => match partAt o part with
    | some p => .next (if p.st == .walk && partReady s o p && walkTurn s (dieOf o.core) op then walkOp s op o part else s)
    | none => .next s

/-- ACCESS_COMPLETION (R240). -/
def execAccessCompletion (op : Nat) (s : State) : Out :=
  match aget s.ops op with
  | some o => .next (if completable s o then completeOp s op o else s)
  | none => .next s

/-! ### Replay (R366, R402) -/

/-- The state in which a part begins again. -/
def restartState (o : Op) : PartState := match kindOf o.instr with
  | .place => .home
  | .ldsh => .home
  | .evsh => .home
  | .slot => .home
  | .push => .home
  | .engine => .home
  | .system => .home
  | _ => .walk

/-- R366: a part's accesses are made afresh, each with a new walk; the replay is an acquire at `sys` scope (R130). -/
def redoPart (s : State) (x : Nat × Nat) (o : Op) (p : Part) : State :=
  setPart (dropPages (l1Clear s o.core) o.core (spaceOf s o.ctx o.level) (redoAddr p).toNat (partBytes o)) x.1 x.2 (restartState o)
where
  /-- The address that a part has reached. -/
  redoAddr (p : Part) : DWord := if kindOf o.instr == .place then BitVec.ofNat 64 (placeAddr o) else p.va

/-- R39, R363, R366: a part of a replayed group is performed afresh, if it stands parked, in this group or in that of its other page. -/
def replayPart (s : State) (x : Nat × Nat) : State :=
  match aget s.ops x.1 with
  | none => s
  | some o => match partAt o x.2 with
    | some p => (match p.st with
      | .parked _ => redoPart s x o p
      | _ => s)
    | none => s

/-- R158, R366: the lanes of a fetch group are eligible again, and the fetch walks afresh; the replay is an acquire, so that the launch's fetches
see what the pager has written (R142). -/
def replayFetch (s : State) (a page : Nat) (lanes : List Nat) : State :=
  match aget s.agents a with
  | none => s
  | some ag =>
    let s1 := match aget s.blocks ag.block with
      | some b => dropOld s b.launch (fun _ => true)
      | none => s
    modAgent (dropPages (l1Clear s1 ag.core) ag.core (spaceOf s ag.ctx ag.level) (page * 2 ^ 19) (2 ^ 19)) a
      (fun ag => lanes.foldl unparkLane ag)

/-- The number that stands for no command in a fault group of a copy packet. -/
def noCmd : Nat := 2 ^ 62

/-- A parked burst is requested again (R277, R281), with a new walk of the page it faulted on. -/
def replayBurst (page : Nat) (s : State) (x : Nat × Nat) : State :=
  match aget s.cmds x.1 with
  | none => s
  | some c =>
    modCmd (dropPages s c.core (spaceOf s c.ctx c.level) (page * 2 ^ 19) (2 ^ 19)) x.1
      (fun c => { c with marks := c.marks.filter (fun m => !(m.burst == x.2 && stands m)) })
where
  /-- The burst stands parked, in this group or in that of its other page (R276). -/
  stands (m : BurstMark) : Bool := match m.st with
    | .parked _ => true
    | _ => false

/-- The accesses of queues and packets that wait for a group are made afresh (R328, R330, R334): a parked burst of a copy packet stands
again among those to be performed. -/
def replayQueues (s : State) (g : FaultGroup) : State :=
  let q1 := s.hub.queues.map (fun p => if p.2.group == some g.id then (p.1, { p.2 with group := none }) else p)
  let bursts := g.cmds.filter (fun c => c.1 == noCmd)
  let mine := fun (p : Packet) => match g.pkt with
    | some (q, pos, _) => p.queue == q && p.pos == pos
    | none => false
  let k1 := s.hub.packets.map (fun p =>
    let p1 := if p.group == some g.id then { p with group := none } else p
    if mine p then { p1 with todo := p1.todo ++ (bursts.map (fun c => c.2)).filter (fun o => !p1.todo.contains o) } else p1)
  { s with hub := { s.hub with queues := q1, packets := k1 } }

/-- Every parked part of a group is performed afresh; the group is over. -/
def replayGroup (s : State) (g : FaultGroup) : State :=
  let s1 := { s with hub := { s.hub with groups := s.hub.groups.filter (fun x => x.id != g.id) } }
  let s2 := match g.fetch with
    | some a => replayFetch s1 a g.page (g.ops.map (fun p => p.2))
    | none => g.ops.foldl replayPart s1
  replayQueues (g.cmds.foldl (replayBurst g.page) s2) g

/-- R402: the page of a type-3 group is still frozen: its address is translated again, and the entry of the page is in STATE 2. -/
def stillFrozen (s : State) (g : FaultGroup) : Bool :=
  g.type == 3 && (match (agentTranslate s 255 (spaceOf s g.ctx .s) (g.page * 2 ^ 19) .any false).1 with
    | .ok x => peState (pageEntry s (xlatOut x (g.page * 2 ^ 19) / 2 ^ 19)) == 2
    | _ => false)

/-- R378, R379: a save of a context has been asked for and has not ended. -/
def beingSaved (s : State) (ctx : Nat) : Bool := s.hub.preempts.any (fun p => p.ctx == ctx && !p.restore)

/-- R366, R402: a replay of a group: held while its page is frozen or its context is saved or being saved. -/
def askReplay (s : State) (g : FaultGroup) : State :=
  if stillFrozen s g || g.saved || beingSaved s g.ctx then modGroup s g.id (fun x => { x with held := true }) else replayGroup s g

/-- R402: replays that were held for a freeze that has ended. -/
def heldReplays (s : State) : State :=
  (s.hub.groups.filter (fun g => g.held && !g.saved && !beingSaved s g.ctx)).foldl (fun s g => if stillFrozen s g then s else replayGroup s g) s

/-- The groups that a replay write names and reaches. -/
def replaySet (s : State) (v : DWord) (ok : FaultGroup → Bool) : List FaultGroup :=
  s.hub.groups.filter (fun g => ok g && (v.getLsbD 63 || g.id == nbits v.toNat 0 32))

/-- FQREPLAY (R366): groups of types 1 and 3 of the writer's guest. -/
def execFqreplay (w : Writer) (v : BitVec 64) (s : State) : Out :=
  if !levelGe w.level .s then .next s
  else .next ((replaySet s v (fun g => g.type != 2 && (ctxOf s g.ctx).vmid == w.vmid)).foldl askReplay s)

/-- FQREPLAYH (R366): any group. -/
def execFqreplayh (w : Writer) (v : BitVec 64) (s : State) : Out :=
  if !levelGe w.level .h then .next s else .next ((replaySet s v (fun _ => true)).foldl askReplay s)

/-- QUEUE_RECHECK (R361): the manager reads RDPOS and LOGN of a queue again and posts what it has room for. -/
def execQueueRecheck (q : RecQueue) (s : State) : Out := .next (postQueue s q)

end Sys2Proof.Machine
end

