-- ==== Sys2Proof/Machine/MemoryOps.lean ====
section
/-! DEFINITION. Variable-latency words at issue (R237 to R239, R181): their checks, the flag that holds them, the op they start; the
loads, stores, atomics and fences (R241 to R249) and the prefetch (R244). -/

namespace Sys2Proof.Machine

/-! ### Checks at issue (R239) -/

/-- R244, R265, R151: the instructions that make check 1 and the decode of R115 only. -/
def decodeOnly : Instr → Bool
  | .pfh _ _ => true
  | .tierq _ _ => true
  | .pin _ _ => true
  | .unpin _ _ => true
  | .hint _ _ => true
  | _ => false

/-- R242, R260, R261: check 3, the window restriction of an instruction at an address that decodes. -/
def restricted (i : Instr) (a : Nat) : Bool :=
  let localWin := match decodeAddr a with | .spm _ => true | _ => false
  match i with
  | .lds _ _ => !localWin
  | .sts _ _ => !localWin
  | .waitva _ _ => isWindow a
  | .wakeva _ _ => isWindow a
  | _ => false

/-- R173, R239: the alignment of an access: its size, 4 for `.x2` and `.x4`. -/
def alignOf (t : BitVec 4) : Nat := if t == 0xE || t == 0xF then 4 else mtBytes t

/-- R239: the first check that an address fails, by its number, with its code. -/
def checkAddr (s : State) (bid : Nat) (i : Instr) (a : Nat) : Option (Nat × TrapCode) :=
  let r := memFmt i
  if 2 ^ 56 ≤ a then some (1, .accessViolation)
  else if decodeOnly i then
    match decodeAddr a with
    | .badAccess => some (2, .accessViolation)
    | .badPeer => some (2, .peerWindow)
    | _ => none
  else match windowCheck s bid a (accBytes r) with
    | some c => some (2, c)
    | none =>
      if restricted i a then some (3, .accessViolation) else if a % alignOf r.mtype != 0 then some (4, .misaligned) else none

/-- R239: the trap of a word over its lanes' addresses: the first check that any lane fails, the code of the lowest lane that fails it, and
the lanes that fail it with that code. -/
def laneTrap (s : State) (e : Env) (i : Instr) (addrs : List (Nat × Nat)) : Option TrapReq :=
  let bad := addrs.filterMap (fun p => (checkAddr s e.ag.block i p.2).map (fun c => (p, c)))
  match bad with
  | [] => none
  | b :: t =>
    let first := t.foldl (fun m x => min m x.2.1) b.2.1
    match bad.filter (fun x => x.2.1 == first) with
    | [] => none
    | x :: _ =>
      let same := bad.filter (fun y => y.2.1 == first && y.2.2 == x.2.2)
      some (issueReq e x.2.2 (laneSet (same.map (fun y => y.1.1))) (x.1.2 % 2 ^ 56))

/-! ### Starting an op -/

/-- The lanes that a uniform form acts for (R38, R238): those that are not parked, or all if every one is. -/
def uniformGroup (e : Env) : LaneSet :=
  let free := laneSet ((lanesOf e.pass).filter (fun l => !isParked e.ag l))
  if free == 0 then e.pass else free

/-- R38: a word of the clause in issue enters the replay list of a lane. -/
def inList (s : State) (e : Env) (lane : Nat) : Bool :=
  s.ops.any (fun q => q.2.agent == e.aid && q.2.clause == e.iss.seq &&
    q.2.parts.any (fun p => partOpen p && partOf q.2 p lane && (partStopped p || p.late)))

/-- A part of a lane at an address. -/
def partOfLane (lane : Nat) (va : DWord) (st : PartState) : Part := { lane := lane, va := va, st := st, xs := [], val := 0 }

/-- The op of a word in issue. -/
def opOf_ (e : Env) (i : Instr) (parts : List Part) (vals cmps : List (Nat × BitVec 128)) (args : List DWord) (id : Nat) : Op :=
  { instr := i, agent := e.aid, ctx := e.ag.ctx, level := e.ag.level, core := e.ag.core, block := e.ag.block, pc := e.iss.hdr,
    word := e.iss.idx + 1, seq := id, clause := e.iss.seq, active := e.iss.group, group := uniformGroup e, vals := vals, cmps := cmps,
    args := args, parts := parts, flag := (memFmt i).flag.toNat, acted := 0 }

/-- R343: the credits of a variable-latency word: 4, and 1 for each active lane outside the engine and system groups. -/
def opCredits (i : Instr) (lanes : Nat) : Nat := if (engFmt i).isSome then 4 else 4 + lanes

/-- The word is issued and its op is in flight; its flag rises (R65). Its parts of parked lanes enter their replay lists (R38). -/
def startOp (s : State) (e : Env) (mk : Nat → Op) : Nat × State :=
  let (id, s1) := freshId (finish s e (opCredits (mk 0).instr (lanesOf e.pass).length) [])
  let o := { mk id with parts := (mk id).parts.map (fun p => { p with late := inReplay s (mk id) p }) }
  (id, flagUp { s1 with ops := aset s1.ops id o } e.aid o.flag)

/-- A word of the memory, synchronisation or placement groups: with no passing lane it does nothing; a full flag count holds the cohort
(R65), and so does a full queue of walk requests (R358); a failed check traps (R177); otherwise it acts. -/
def varWord (s : State) (h : Pfx) (i : Instr) (addrs : Env → List (Nat × Nat)) (act : Env → State) : Out :=
  onIssue s h false (fun e =>
    if e.pass == 0 then .next (finish s e (wordCredits 0x1C0 false 0) [])
    else if flagFull e.ag (memFmt i).flag.toNat || walksFull s (dieOf e.ag.core) then .next (holdWord s)
    else match laneTrap s e i (addrs e) with
      | some t => .next (issueTrap s e t)
      | none => .next (act e))

/-- R324: D or C of a lane: vector registers, or the scalar register of a hub thread. -/
def dataOf (e : Env) (reg lane k : Nat) : BitVec 128 :=
  if e.ag.kind == .hubThread then (rdS e reg).setWidth 128 else BitVec.ofNat 128 (rdVs e reg lane k)

/-- The effective addresses of the passing lanes. -/
def laneAddrs (e : Env) (r : FmtM) : List (Nat × Nat) := (lanesOf e.pass).map (fun l => (l, (effAddr e r l).toNat))

/-- Where a part at an address begins: at translation, or at its home for a window. -/
def startState (va : DWord) : PartState := if isWindow va.toNat then .home else .walk

/-- An access to memory by every passing lane (R239, R241 to R248). -/
def memWord (s : State) (h : Pfx) (i : Instr) : Out :=
  let r := memFmt i
  let k := mtRegs r.mtype
  varWord s h i (fun e => laneAddrs e r) (fun e =>
    let parts := (lanesOf e.pass).map (fun l => partOfLane l (effAddr e r l) (startState (effAddr e r l)))
    let vals := (lanesOf e.pass).map (fun l => (l, dataOf e r.d.toNat l k))
    let cmps := (lanesOf e.pass).map (fun l => (l, dataOf e r.c.toNat l k))
    (startOp s e (opOf_ e i parts vals cmps [])).2)

/-! ### Meanings -/

/-- R249, R256, R257: what an earlier access of a passing strand still holds back at issue: an open fence, and of the test of a counter an open
acquire or an open access of the counter. A parked strand holds nothing up (R40). -/
def heldBack (s : State) (e : Env) (counter : Option Nat) : Bool :=
  s.ops.any (fun q => q.2.agent == e.aid &&
    (kindOf q.2.instr == .fence || counter.any (fun c => isAcquire q.2 ||
      ((kindOf q.2.instr == .ecset || kindOf q.2.instr == .ecadd || kindOf q.2.instr == .ecq) && (memFmt q.2.instr).c.toNat == c))) &&
    q.2.parts.any (fun p => partOpen p && (lanesOf e.pass).any (fun l => partOf q.2 p l && !isParked e.ag l)))

/-- R241: `LD`. -/
def execLd (h : Pfx) (r : FmtM) (s : State) : Out := memWord s h (.ld h r)

/-- R241: `ST`. -/
def execSt (h : Pfx) (r : FmtM) (s : State) : Out := memWord s h (.st h r)

/-- R242: `LDS`. -/
def execLds (h : Pfx) (r : FmtM) (s : State) : Out := memWord s h (.lds h r)

/-- R242: `STS`. -/
def execSts (h : Pfx) (r : FmtM) (s : State) : Out := memWord s h (.sts h r)

/-- R242: `LDL`. -/
def execLdl (h : Pfx) (r : FmtM) (s : State) : Out := memWord s h (.ldl h r)

/-- R242: `STL`. -/
def execStl (h : Pfx) (r : FmtM) (s : State) : Out := memWord s h (.stl h r)

/-- R245, R246: `ATOM`. -/
def execAtom (h : Pfx) (r : FmtM) (s : State) : Out := memWord s h (.atom h r)

/-- R247: `ACAS`. -/
def execAcas (h : Pfx) (r : FmtM) (s : State) : Out := memWord s h (.acas h r)

/-- R248: `RED`. -/
def execRed (h : Pfx) (r : FmtM) (s : State) : Out := memWord s h (.red h r)

/-- R249: `FENCE`: one part a lane, met at once where nothing earlier is outstanding. -/
def execFence (h : Pfx) (r : FmtM) (s : State) : Out :=
  varWord s h (.fence h r) (fun _ => []) (fun e =>
    let (id, s1) := startOp s e (opOf_ e (.fence h r) ((lanesOf e.pass).map (fun l => partOfLane l 0 .home)) [] [] [])
    homeAll s1 id)

/-- R244: a prefetch that would merge partials is dropped: the line has some, or so has the entry that would leave the directory for it. -/
def prefetchMerges (s : State) (line : Nat) : Bool :=
  s.mem.red.any (fun e => e.line == line || (dirFull s line && (dirSet s line).head? == some e.line))

/-- R244: a prefetch brings a line into the L2 of the die as a read would, and with `.l1` into the L1 data cache of the core; nothing merges
and nothing counts. It is a request, which takes its tokens or is dropped (R420). -/
def prefetchLine (s : State) (who : Asker) (pay : Payer) (l1 : Option L1) (x : Xlat) (va : Nat) : State :=
  let spa := xlatOut x va
  let line := spa / 128
  if routeOf s who.die spa 1 != .go || !who.install || foreignPage s (spa / 2 ^ 19) || prefetchMerges s line then s
  else match payPorts s pay (segPorts s who.die l1 .read { x := x, va := va, len := 1 }) s with
    | (false, _) => s
    | (true, s0) =>
      if x.cls == 0 then l1Take (touchLine who .read s0 line) who l1 line
      else if (swCopy s0 who.die line).isSome then l1Take s0 who l1 line
      else match swFetch (l2Room (findErrors s0 (line * 128) 128 true) who line) who x.key.toNat line with
        | (s1, c) => l1Take (swPut s1 c) who l1 line

/-- R244: one lane's prefetch: dropped at a window, on a page that does not translate for a read, and on a DEV page. -/
def prefetchLane (e : Env) (r : FmtM) (s : State) (lane : Nat) : State :=
  let va := (effAddr e r lane).toNat
  if isWindow va then s
  else match agentTranslate s e.ag.core (spaceOf s e.ag.ctx e.ag.level) va .read false with
    | (.ok x, s1) =>
      let who := { coreAsker s1 e.ag.core e.ag.ctx x with counted := false }
      let pay : Payer := { cls := classOf s1 e.ag.ctx, part := ctxPart s1 e.ag.ctx, who := 5 * (e.aid * 64 + lane) + 4 }
      if x.cls == 2 then s1 else prefetchLine s1 who pay (if r.d == 1 then l1Data e.ag.core else none) x va
    | (_, s1) => s1

/-- R244, R249: `PFH`; it waits for an open fence of its strand. -/
def execPfh (h : Pfx) (r : FmtM) (s : State) : Out :=
  varWord s h (.pfh h r) (fun e => laneAddrs e r) (fun e =>
    if heldBack s e none then holdWord s else (lanesOf e.pass).foldl (prefetchLane e r) (finish s e (wordCredits 0x1C0 false (lanesOf e.pass).length) []))

end Sys2Proof.Machine
end

