-- ==== Sys2Proof/Machine/SyncOps.lean ====
section
/-! DEFINITION. Barriers, wait and wake, event counters and flag waits at issue (R251 to R262). -/

namespace Sys2Proof.Machine

/-- An op without a result whose parts are all performed completes with its word (R240). -/
def settle (s : State) (id : Nat) : State := match aget s.ops id with
  | some o => if o.parts.all (fun p => p.st == .done) then completeOp s id o else s
  | none => s

/-- R252, R254: the group that executes a barrier word executes it in the phase that is current, all its lanes together, but for those in whose
replay lists it stands (R38). -/
def barNote (s : State) (e : Env) (r : FmtM) (mask : LaneSet) (pend : Bool) : State :=
  let live := (lanesOf e.pass).filter (fun l => !inList s e l)
  if live.isEmpty then s else barIssue s e.aid e.ag r.scope.toNat r.d.toNat r.b.toNat mask (laneSet live) pend

/-- The phase in which a barrier word is issued. -/
def phaseNow (s : State) (e : Env) (r : FmtM) : DWord :=
  BitVec.ofNat 64 (barrierAt s r.scope.toNat (ownerOf s e.ag r.scope.toNat) r.d.toNat).phase

/-- R252, R254: an arrival of every passing lane: the mask of the word, its count in B; `BAR` puts the lanes to sleep. -/
def barWord (s : State) (h : Pfx) (i : Instr) (sleep : Bool) : Out :=
  let r := memFmt i
  varWord s h i (fun _ => []) (fun e =>
    let lanes := lanesOf e.pass
    let mask := (rdK e r.c.toNat).setWidth 64
    let (id, s1) := startOp (barNote s e r (mask.setWidth 32) (!sleep)) e
      (opOf_ e i (lanes.map (fun l => partOfLane l 0 .home)) [] [] [mask, phaseNow s e r])
    let s2 := if sleep then
      modAgent s1 e.aid (fun ag => lanes.foldl (fun ag l => sleepLane ag l (.bar r.scope.toNat r.d.toNat)) ag) else s1
    settle (homeAll s2 id) id)

/-- R252: `BAR`. -/
def execBar (h : Pfx) (r : FmtM) (s : State) : Out := barWord s h (.bar h r) true

/-- R254: `BARA`. -/
def execBara (h : Pfx) (r : FmtM) (s : State) : Out := barWord s h (.bara h r) false

/-- R254, R255: `BARW`: the passing lanes sleep while the phase of the cohort's pending arrival is not complete; to find it complete is an acquire
(R130). -/
def execBarw (h : Pfx) (r : FmtM) (s : State) : Out :=
  varWord s h (.barw h r) (fun _ => []) (fun e =>
    let sc := r.scope.toNat
    let n := r.d.toNat
    let wait := barPending s e.ag sc n
    let ag := if wait then (lanesOf e.pass).foldl (fun ag l => sleepLane ag l (.barw sc n)) e.ag else e.ag
    if heldBack s e none then holdWord s
    else finish (acquireBy s (if wait then 0 else sc) (fun a _ => a == e.aid)) { e with ag := ag } (wordCredits 0x1C0 false (lanesOf e.pass).length) [])

/-- R260: `WAITVA`: each passing lane sleeps; its part enters the table and tests, and rouses the lane if it must not sleep. -/
def execWaitva (h : Pfx) (r : FmtM) (s : State) : Out :=
  varWord s h (.waitva h r) (fun e => laneAddrs e r) (fun e =>
    let lanes := lanesOf e.pass
    let k := mtRegs r.mtype
    let parts := lanes.map (fun l => partOfLane l (effAddr e r l) .walk)
    let vals := lanes.map (fun l => (l, dataOf e r.d.toNat l k))
    let (_, s1) := startOp s e (opOf_ e (.waitva h r) parts vals [] [])
    modAgent s1 e.aid (fun ag => lanes.foldl (fun ag l => sleepLane ag l .waitva) ag))

/-- A uniform form: one part for the group (R238). -/
def uniformWord (s : State) (h : Pfx) (i : Instr) (addrs : Env → List (Nat × Nat)) (va : Env → DWord) (st : PartState)
    (args : Env → List DWord) : Out :=
  varWord s h i addrs (fun e =>
    let (id, s1) := startOp s e (opOf_ e i [partOfLane 32 (va e) st] [] [] (args e))
    homeAll s1 id)

/-- R261: `WAKEVA`. -/
def execWakeva (h : Pfx) (r : FmtM) (s : State) : Out :=
  uniformWord s h (.wakeva h r) (fun e => laneAddrs e r) (fun e => effAddr e r 0) .walk (fun e => [0, rdS e r.c.toNat])

/-- R256: `ECSET`. -/
def execEcset (h : Pfx) (r : FmtM) (s : State) : Out :=
  uniformWord s h (.ecset h r) (fun _ => []) (fun _ => 0) .home (fun e => [rdS e r.sb.toNat])

/-- R256: `ECADD`. -/
def execEcadd (h : Pfx) (r : FmtM) (s : State) : Out :=
  uniformWord s h (.ecadd h r) (fun _ => []) (fun _ => 0) .home (fun e => [rdS e r.sb.toNat])

/-- R256: `ECQ`. -/
def execEcq (h : Pfx) (r : FmtM) (s : State) : Out :=
  uniformWord s h (.ecq h r) (fun _ => []) (fun _ => 0) .home (fun _ => [])

/-- R257: `ECWAIT`: a lane for which the test does not hold sleeps; a parked lane tests once it has been replayed (R39). A test that holds is an
acquire. -/
def execEcwait (h : Pfx) (r : FmtM) (s : State) : Out :=
  varWord s h (.ecwait h r) (fun _ => []) (fun e =>
    let thr : Word := (rdS e r.sb.toNat).setWidth 32
    let c := r.c.toNat
    let met := decide ((ecGet s e.ag.block c).toInt ≤ thr.toInt)
    let one := fun (ag : Agent) (l : Nat) => if met && !inList s e l then ag else sleepLane ag l (.ecwait c thr r.scope.toNat)
    if heldBack s e (some c) then holdWord s
    else finish (acquireBy s (if met then r.scope.toNat else 0) (fun a _ => a == e.aid)) { e with ag := (lanesOf e.pass).foldl one e.ag }
      (wordCredits 0x1C0 false (lanesOf e.pass).length) [])

/-- R258: the flags that an `FWAIT` names. -/
def fwaitFlags (r : FmtM) : List Nat :=
  (List.range 12).filter (fun i => if i < 8 then r.b.getLsbD i else r.c.getLsbD (i - 8))

/-- R258: `FWAIT`: holds the cohort until every flag it names is set. -/
def execFwait (h : Pfx) (r : FmtM) (s : State) : Out :=
  onIssue s h false (fun e =>
    if e.pass != 0 && (fwaitFlags r).any (fun f => flagCount e.ag f != 0) then .next (holdWord s)
    else .next (finish s e (wordCredits 0x1C0 false (lanesOf e.pass).length) []))

/-! ### Placement (R264, R265) -/

/-- R264: `PIN`, `UNPIN`, `HINT`: the base address and the length or operand scalar. -/
def placeWord (s : State) (h : Pfx) (i : Instr) : Out :=
  let r := memFmt i
  uniformWord s h i (fun e => laneAddrs e r) (fun e => effAddr e r 0) .home (fun e => [effAddr e r 0, rdS e r.c.toNat])

/-- R264: `PIN`. -/
def execPin (h : Pfx) (r : FmtM) (s : State) : Out := placeWord s h (.pin h r)

/-- R264: `UNPIN`. -/
def execUnpin (h : Pfx) (r : FmtM) (s : State) : Out := placeWord s h (.unpin h r)

/-- R264: `HINT`. -/
def execHint (h : Pfx) (r : FmtM) (s : State) : Out := placeWord s h (.hint h r)

/-- R265: `TIERQ`. -/
def execTierq (h : Pfx) (r : FmtM) (s : State) : Out := memWord s h (.tierq h r)

end Sys2Proof.Machine
end

