-- ==== Sys2Proof/Machine/EngineOps.lean ====
section
/-! DEFINITION. Engine instructions at issue (R268 to R271): slots and codebooks (R273, R274), copies (R275), handler reads (R278, R279),
`LEND` (R284), subscriptions (R285, R286), matrix commands (R288 to R291), `PUSH` (R292), `QFENCE` (R293), and the cache walker (R250). -/

namespace Sys2Proof.Machine

/-- Every passing lane of the word is parked: the form stands in their replay lists (R38). -/
def allParked (s : State) (e : Env) : Bool := (lanesOf e.pass).all (inList s e)

/-- R72, R135: a codebook that an earlier `CBLD` of the block reads has not entered the matrix queue, for which a later command of the queue waits.
One in a replay list holds up nobody (R40). -/
def bookOpen (s : State) (block : Nat) (i : Instr) : Bool :=
  (queuesOf i).contains .mx && s.ops.any (fun q => q.2.block == block && (match q.2.instr with
    | .cbld _ _ => q.2.parts.any (fun p => partOpen p && !p.late)
    | _ => false))

/-- A trap of kind 1 by a word at an address (R371). -/
def engineReq (e : Env) (c : TrapCode) (addr : Nat) : TrapReq := issueReq e c 0 (addr % 2 ^ 56)

/-- A trap of kind 1 by an engine command (R271, R371): its record says so, though the command has entered no queue. -/
def commandReq (e : Env) (c : TrapCode) (addr : Nat) : TrapReq := { engineReq e c addr with eng := true, esrc := checkSource c }

/-- R269 to R271: an engine command: with no passing lane nothing; a full flag count or queue holds the cohort; a failed check traps;
otherwise the command enters its queues, at once or in the replay list of its lanes. -/
def engineWord (s : State) (h : Pfx) (i : Instr) (args : Env → List DWord) (vals : Env → List (Nat × BitVec 128)) : Out :=
  onIssue s h false (fun e =>
    let parked := allParked s e
    if e.pass == 0 then .next (finish s e 4 [])
    else if flagFull e.ag (memFmt i).flag.toNat || (!parked && (noRoom s e.ag.core e.ag.block i || bookOpen s e.ag.block i)) || walksFull s (dieOf e.ag.core) then
      .next (holdWord s)
    else match (if parked then none else engineCheck s e.ag.block i (args e)) with
      | some c => .next (issueTrap s e (commandReq e c (if c == .accessViolation then ((args e).getD 0 0).toNat else 0)))
      | none =>
        let mk := opOf_ e i [partOfLane 32 0 .home] (vals e) [] (args e)
        match startOp s e mk with
        | (id, s1) => .next (if parked then s1 else settle (enqueue s1 id (mk id) (vals e)) id))

/-- No lane values. -/
def noVals (_e : Env) : List (Nat × BitVec 128) := []

/-- R273, R274: the checks of R239 on the address of a slot instruction of `n` bytes. -/
def shapeAddr (s : State) (e : Env) (va n : Nat) : Option TrapCode :=
  if 2 ^ 56 ≤ va then some .accessViolation
  else match windowCheck s e.ag.block va n with
    | some c => some c
    | none => if va % n != 0 then some .misaligned else none

/-- `LDSH`, `EVSH`, `CBLD`: the address is checked at issue, and the access is made. -/
def shapeWord (s : State) (h : Pfx) (i : Instr) (n : Nat) (addr : Env → DWord) : Out :=
  onIssue s h false (fun e =>
    if e.pass == 0 then .next (finish s e 4 [])
    else if flagFull e.ag (memFmt i).flag.toNat || (!allParked s e && (noRoom s e.ag.core e.ag.block i || bookOpen s e.ag.block i)) || walksFull s (dieOf e.ag.core) then
      .next (holdWord s)
    else match shapeAddr s e (addr e).toNat n with
      | some c =>
        let t := if (queuesOf i).isEmpty then engineReq e c (addr e).toNat else commandReq e c (addr e).toNat
        .next (issueTrap s e { t with lanes := laneSet [lowLane e.pass] })
      | none => match startOp s e (opOf_ e i [partOfLane 32 (addr e) .home] [] [] [addr e]) with
        | (id, s1) => .next (settle (homeAll s1 id) id))

/-- `SHSET`, `SHGET`, `SUBQ`. -/
def slotWord (s : State) (h : Pfx) (i : Instr) (quiet : Bool) (args : Env → List DWord) : Out :=
  onIssue s h false (fun e =>
    if e.pass == 0 then .next (finish s e 4 [])
    else if flagFull e.ag (memFmt i).flag.toNat then .next (holdWord s)
    else match startOp s e (opOf_ e i [partOfLane 32 0 .home] [] [] (args e)) with
      | (id, s1) => .next (if quiet then settle (homeAll s1 id) id else homeAll s1 id))

/-- R273: `LDSH`. -/
def execLdsh (h : Pfx) (r : FmtE) (s : State) : Out := shapeWord s h (.ldsh h r) 64 (fun e => rdS e r.a.toNat)

/-- R273: `EVSH`. -/
def execEvsh (h : Pfx) (r : FmtE) (s : State) : Out := shapeWord s h (.evsh h r) 64 (fun e => rdS e r.a.toNat)

/-- R273: `SHSET`. -/
def execShset (h : Pfx) (r : FmtE) (s : State) : Out := slotWord s h (.shset h r) true (fun e => [rdS e r.a.toNat])

/-- R273: `SHGET`. -/
def execShget (h : Pfx) (r : FmtE) (s : State) : Out := slotWord s h (.shget h r) false (fun _ => [])

/-- R274: `CBLD`. -/
def execCbld (h : Pfx) (r : FmtE) (s : State) : Out := shapeWord s h (.cbld h r) 32 (fun e => rdS e r.a.toNat)

/-- R275: `CPY`. -/
def execCpy (h : Pfx) (r : FmtE) (s : State) : Out := engineWord s h (.cpy h r) (fun _ => []) noVals

/-- R275: `CPYG`: its list descriptor. -/
def execCpyg (h : Pfx) (r : FmtE) (s : State) : Out := engineWord s h (.cpyg h r) (fun e => [rdS e r.b.toNat]) noVals

/-- R279: `RDH`: entry, finale, argument. -/
def execRdh (h : Pfx) (r : FmtE) (s : State) : Out :=
  engineWord s h (.rdh h r) (fun e => [rdS e r.a.toNat, rdS e (r.a.toNat + 1), rdS e r.b.toNat]) noVals

/-- R279: `RDHG`: entry, finale, argument, list descriptor. -/
def execRdhg (h : Pfx) (r : FmtE) (s : State) : Out :=
  engineWord s h (.rdhg h r) (fun e => [rdS e r.a.toNat, rdS e (r.a.toNat + 1), rdS e r.b.toNat, rdS e (r.b.toNat + 1)]) noVals

/-- R284: a read is stopped: nothing more is requested, and bursts without a ladle are discarded. -/
def stopRead (s : State) (id : Nat) : State :=
  let parked := fun (m : BurstMark) => match m.st with
    | .parked _ => true
    | _ => false
  let s1 := modCmd s id (fun c => { c with stopped := true, flying := [], landed := [], marks := c.marks.filter (fun m => !parked m) })
  { s1 with hub := { s1.hub with groups := s1.hub.groups.map (fun g => { g with cmds := g.cmds.filter (fun p => p.1 != id) }) } }

/-- R284: a ladle ends; `.stop` stops its read, unless it is the finale. -/
def lendWord (s : State) (h : Pfx) (stop : Bool) : Out :=
  onIssue s h false (fun e =>
    let ag := if e.pass == 0 then e.ag else (List.range e.ag.lanes.length).foldl exitLane e.ag
    let s1 := finish s { e with ag := ag } 4 []
    if heldBack s e none then .next (holdWord s)
    else .next (if stop && e.pass != 0 && !e.ag.ladle.finale then stopRead s1 e.ag.ladle.read else s1))

/-- R284: `LEND`. -/
def execLend (h : Pfx) (_r : FmtE) (s : State) : Out := lendWord s h false

/-- R284: `LEND.stop`. -/
def execLendStop (h : Pfx) (_r : FmtE) (s : State) : Out := lendWord s h true

/-- R285: `SUB`: local offset and length, publisher core and offset. -/
def execSub (h : Pfx) (r : FmtE) (s : State) : Out :=
  engineWord s h (.sub h r) (fun e => [rdS e r.a.toNat, rdS e (r.a.toNat + 1), rdS e r.b.toNat, rdS e (r.b.toNat + 1)]) noVals

/-- R286: `UNSUB`. -/
def execUnsub (h : Pfx) (r : FmtE) (s : State) : Out := engineWord s h (.unsub h r) (fun e => [rdS e r.a.toNat]) noVals

/-- R286: `SUBQ`. -/
def execSubq (h : Pfx) (r : FmtE) (s : State) : Out := slotWord s h (.subq h r) false (fun e => [rdS e r.a.toNat])

/-- R139: the entries of a core's update buffer are sent when a `PUBFL` issues. -/
def sendOfCore (s : State) (core : Nat) : State := sendUpdates s (fun u => u.core == core)

/-- R286: `PUBFL`. -/
def execPubfl (h : Pfx) (r : FmtE) (s : State) : Out :=
  match engineWord s h (.pubfl h r) (fun _ => []) noVals, issuing s with
  | .next s1, some (_, ag, _) => .next (if s1.cmds == s.cmds then s1 else sendOfCore s1 ag.core)
  | o, _ => o

/-- R288: `MMA`. -/
def execMma (h : Pfx) (r : FmtE) (s : State) : Out := engineWord s h (.mma h r) (fun _ => []) noVals

/-- R290: `MMZ`. -/
def execMmz (h : Pfx) (r : FmtE) (s : State) : Out := engineWord s h (.mmz h r) (fun _ => []) noVals

/-- R290: `ACCLD`. -/
def execAccld (h : Pfx) (r : FmtE) (s : State) : Out := engineWord s h (.accld h r) (fun _ => []) noVals

/-- R291: `ACCST`. -/
def execAccst (h : Pfx) (r : FmtE) (s : State) : Out := engineWord s h (.accst h r) (fun _ => []) noVals

/-- R290: `ACCRD`: the row, and the lanes that it writes. -/
def execAccrd (h : Pfx) (r : FmtE) (s : State) : Out :=
  engineWord s h (.accrd h r) (fun e => [rdS e r.b.toNat]) (fun e => (lanesOf e.pass).map (fun l => (l, 0)))

/-- R290: `ACCWR`: the row, and the four columns of each active lane. -/
def execAccwr (h : Pfx) (r : FmtE) (s : State) : Out :=
  engineWord s h (.accwr h r) (fun e => [rdS e r.b.toNat])
    (fun e => (lanesOf e.pass).map (fun l => (l, BitVec.ofNat 128 (rdVs e r.a.toNat l 4))))

/-- R292: `PUSH`: its result is decided at issue; the packet goes out with the release. -/
def execPush (h : Pfx) (r : FmtE) (s : State) : Out :=
  onIssue s h false (fun e =>
    if e.pass == 0 then .next (finish s e 4 [])
    else if flagFull e.ag r.flag.toNat then .next (holdWord s)
    else
      let words := (List.range 8).map (fun i => rdS e (r.a.toNat + i))
      let mk := fun (res : Nat) => opOf_ e (.push h r) [partOfLane 32 0 .home] [] [] (BitVec.ofNat 64 res :: rdS e r.b.toNat :: words)
      let res := if allParked s e then 4 else pushResult s (mk 4 0)
      match startOp s e (mk res) with
      | (id, s1) => .next (homeAll s1 id))

/-- R250: `FLUSHR`: start and length of the range. -/
def execFlushr (h : Pfx) (r : FmtM) (s : State) : Out :=
  engineWord s h (.flushr h r) (fun e => [rdS e r.sb.toNat, rdS e r.d.toNat]) noVals

/-- R250: `INVR`. -/
def execInvr (h : Pfx) (r : FmtM) (s : State) : Out :=
  engineWord s h (.invr h r) (fun e => [rdS e r.sb.toNat, rdS e r.d.toNat]) noVals

end Sys2Proof.Machine
end

