-- ==== Sys2Proof/Machine/Matrix.lean ====
section
/-! DEFINITION. The matrix engine (R72 to R74, R107 to R109, R288 to R291): tiles, panels, sums, and what each MX command does when it
takes effect. -/

namespace Sys2Proof.Machine

/-! ### Tiles and scratchpad -/

/-- The key of an element of a tile (R73). -/
def tileKey (t i j : Nat) : Nat := 16384 * t + 128 * i + j

/-- Changes an accumulator store by a list of elements; whole 16-byte parts lose their poison (R375). -/
def putTile (s : State) (bid : Nat) (l : List (Nat × Nat)) : State :=
  modBlock s bid (fun b => { b with
    acc := l.foldl (fun m p => sset m p.1 (BitVec.ofNat 32 p.2)) b.acc
    accPoison := b.accPoison.filter (fun p => !(List.range 4).all (fun i => l.any (fun q => q.1 == 4 * p + i))) })

/-- An element of a block's tiles. -/
def tileAt (b : Block) (t i j : Nat) : Nat := (sget b.acc (tileKey t i j)).toNat

/-- R74: sets sticky bits of `mst`: Q, NV, OF. -/
def mstSet (s : State) (bid : Nat) (q nv ovf : Bool) : State :=
  let m : BitVec 3 := BitVec.ofBool ovf ++ (BitVec.ofBool nv ++ BitVec.ofBool q)
  modBlock s bid (fun b => { b with mst := b.mst ||| m })

/-- R71, R289: the clocks that a command's accesses to scratchpad lost to bank conflicts: the spec gives no number (a free value, log
entry 19); `bconf` saturates. -/
def bumpConf (s : State) (bid : Nat) : State :=
  let n := (Config.freeWord s.fresh).toNat % 2 ^ 32
  modBlock { s with fresh := s.fresh + 1 } bid (fun b => { b with bconf := BitVec.ofNat 32 (min 0xFFFFFFFF (b.bconf.toNat + n)) })

/-- The bytes at a scratchpad offset of a block as a number. -/
def spmNat (b : Block) (ofs n : Nat) : Nat := ofBytes (sgetN b.spm ofs n)

/-- A range of a block's scratchpad holds poison. -/
def blkPoison (b : Block) (ofs n : Nat) : Bool := b.poison.any (fun p => rangesMeet (p * 16) 16 ofs n)

/-! ### Panels (R104, R107, R288) -/

/-- One row of a panel: its values without block exponents, the exponent of each C4 block, the scale-region factor, and whether a byte of
it is poisoned. -/
structure PanelRow where
  vals : List Ex
  exps : List Int
  fac  : Ex
  bad  : Bool
deriving DecidableEq, Repr

/-- The 16 values of a C4 block without its exponent (R105). -/
def c4Vals (cb : BitVec 256) (n : Nat) : List Ex :=
  (List.range 16).map (fun k =>
    if nbits n 64 8 == 0xFF then .nan else exScale (cbEntry cb (nbits n (4 * k) 4)) (-(nbits n (72 + k / 2) 1 : Int)))

/-- The float format of a panel. -/
def panelFmt (fmt : Nat) : FloatFmt := match fmt with
  | 0x9 => f8a
  | 0xA => f8b
  | 0x7 => f16
  | _ => bf16

/-- An element of a panel that is not C4. -/
def panelVal (fmt n : Nat) : Ex :=
  if fmt == 0x0 then exOfInt (intOf true 8 n) else if fmt == 0x1 then exOfInt n else unpack (panelFmt fmt) false n

/-- A row of a panel along K. -/
def panelRow (b : Block) (t : Slot) (k x1 : Nat) : PanelRow :=
  let units := (List.range (k / fmtUnit t.fmt)).map (fun u => t.addr u x1 0 0)
  let z := fmtSize t.fmt
  let cb := sget b.cb t.cbi
  let sc := t.scale * 16 + 4 * x1
  { vals := if t.fmt == 0xB then units.flatMap (fun a => c4Vals cb (spmNat b a 10)) else units.map (fun a => panelVal t.fmt (spmNat b a z))
    exps := if t.fmt == 0xB then units.map (fun a => (spmNat b (a + 8) 1 : Int) - 127) else []
    fac := if t.scen then unpack f32 false (spmNat b sc 4) else .fin false 1 0
    bad := units.any (fun a => blkPoison b a z) || (t.scen && blkPoison b sc 4) }

/-! ### Sums (R107 to R109) -/

/-- An element of a tile while it is updated: its bits, NV and OF. -/
structure AccStep where
  acc : Nat
  nv  : Bool
  ovf : Bool
deriving DecidableEq, Repr

/-- R107, R108: P of a chunk, and whether a product 0 × ∞, or products +∞ and −∞ that meet, make it NaN, whatever NaN stands beside them. -/
def chunkSum (l : List (Ex × Ex)) : Ex × Bool :=
  let nan := fun p : Ex × Ex => exIsNan p.1 || exIsNan p.2
  let t := ((l.filter (fun p => !nan p)).map (fun p => exMul p.1 p.2)).foldl (exAdd false) (.fin false 0 0)
  (if l.any nan then .nan else t, exIsNan t)

/-- The product with a factor; NaN from operands that are not sets NV. -/
def timesNv (x : Ex × Bool) (f : Ex) : Ex × Bool :=
  let y := exMul x.1 f
  (y, x.2 || (exIsNan y && !exIsNan x.1 && !exIsNan f))

/-- Whether a value is infinite. -/
def exIsInf : Ex → Bool
  | .inf _ => true
  | _ => false

/-- R107, R108: acc + S, rounded once. -/
def accAdd (a : AccStep) (x : Ex × Bool) : AccStep :=
  let c := unpack f32 false a.acc
  let t := exAdd false c x.1
  let r := roundEx f32 0 false false t
  { acc := if exIsNan t then f32.nan else r.bits
    nv := a.nv || x.2 || (exIsNan t && !exIsNan c && !exIsNan x.1)
    ovf := a.ovf || (!exIsNan t && !exIsInf t && r.ovf) }

/-- R107: the chunks of an element in ascending K. -/
def floatChunks (ch : Nat) (x y : PanelRow) (a : AccStep) (c : Nat) : Nat → AccStep
  | 0 => a
  | n + 1 =>
    let l := ((x.vals.drop (c * ch)).take ch).zip ((y.vals.drop (c * ch)).take ch)
    let e := x.exps.getD c 0 + y.exps.getD c 0
    let p := chunkSum l
    let sv := timesNv (timesNv (exScale p.1 e, p.2) x.fac) y.fac
    floatChunks ch x y (accAdd a sv) (c + 1) n

/-- The integer of an exact integral value. -/
def exInt : Ex → Int
  | .fin n m e => (if n then -(m : Int) else m) * 2 ^ e.toNat
  | _ => 0

/-- R109: an integer element. The second result is Q. -/
def intSum (x y : PanelRow) (acc : Nat) (sat : Bool) : Nat × Bool :=
  narrow true 32 sat (intOf true 32 acc + (x.vals.zip y.vals).foldl (fun t p => t + exInt p.1 * exInt p.2) 0)

/-- What one element of an `MMA` becomes: its bits, Q, NV, OF. A poisoned operand byte gives the value of R375. -/
def mmaElem (int sat : Bool) (ch k : Nat) (x y : PanelRow) (acc : Nat) : Nat × (Bool × Bool × Bool) :=
  if x.bad || y.bad then (if int then 0x80000000 else f32.nan, false, true, false)
  else if int then match intSum x y acc sat with
    | (v, q) => (v, q, false, false)
  else match floatChunks ch x y { acc := acc, nv := false, ovf := false } 0 (k / ch) with
    | a => (a.acc, false, a.nv, a.ovf)

/-- The flags of a list of elements together. -/
def anyFlags (l : List (Nat × Nat × (Bool × Bool × Bool))) : Bool × Bool × Bool :=
  (l.any (fun p => p.2.2.1), l.any (fun p => p.2.2.2.1), l.any (fun p => p.2.2.2.2))

/-- The elements of a list of tile positions with their flags are stored. -/
def putElems (s : State) (bid : Nat) (l : List (Nat × Nat × (Bool × Bool × Bool))) : State :=
  match anyFlags l with
  | (q, nv, ovf) => mstSet (putTile s bid (l.map (fun p => (p.1, p.2.1)))) bid q nv ovf

/-- R375: the errors of a panel's rows are found by its reads. -/
def findPanel (s : State) (bid : Nat) (t : Slot) (rows k : Nat) : State :=
  if s.mem.errs.isEmpty then s
  else (List.range rows).foldl (fun s x1 => (List.range (k / fmtUnit t.fmt)).foldl (fun s u =>
    spmFind s bid (t.addr u x1 0 0) (fmtSize t.fmt)) (if t.scen then spmFind s bid (t.scale * 16 + 4 * x1) 4 else s)) s

/-- R375: an element of a tile lies in a poisoned part. -/
def tileBad (b : Block) (t i j : Nat) : Bool := b.accPoison.contains (tileKey t i j / 4)

/-- R288, R289: the effect of an `MMA` of a block. -/
def doMma (s0 : State) (bid : Nat) (r : FmtE) (a b : Slot) : State :=
  let k := mmaK r
  let n := tilesOf r
  let s := findPanel (findPanel (syncMirror s0 bid 0 (2 ^ 18)) bid a 128 k) bid b (128 * n) k
  match aget s.blocks bid with
  | none => s
  | some blk =>
    let xs := (List.range 128).map (panelRow blk a k)
    let ys := (List.range (128 * n)).map (panelRow blk b k)
    let int := isI8 a.fmt
    let ch := if isF8 a.fmt && isF8 b.fmt then 32 else 16
    let out := ((List.range 128).zip xs).flatMap (fun x => ((List.range (128 * n)).zip ys).map (fun y =>
      let t := r.d.toNat + y.1 / 128
      (tileKey t x.1 (y.1 % 128), mmaElem int (r.opt.getLsbD 6) ch k { x.2 with bad := x.2.bad || tileBad blk t x.1 (y.1 % 128) } y.2 (tileAt blk t x.1 (y.1 % 128)))))
    bumpConf (putElems s bid out) bid

/-! ### Tile instructions (R290, R291) -/

/-- R290: `MMZ`. -/
def doMmz (s : State) (bid : Nat) (r : FmtE) : State :=
  let lo := 16384 * r.d.toNat
  let hi := lo + 16384 * (nbits r.opt.toNat 0 4 + 1)
  modBlock s bid (fun b => { b with
    acc := b.acc.filter (fun p => !(decide (lo ≤ p.1) && decide (p.1 < hi)))
    accPoison := b.accPoison.filter (fun p => !(decide (lo ≤ 4 * p) && decide (4 * p < hi))) })

/-- The positions (i, j) of `n` tiles side by side. -/
def tilePlaces (n : Nat) : List (Nat × Nat) := (List.range 128).flatMap (fun i => (List.range (128 * n)).map (fun j => (i, j)))

/-- The errors of the elements of a tile-shaped slot are found. -/
def findTile (s : State) (bid : Nat) (t : Slot) (n : Nat) : State :=
  if s.mem.errs.isEmpty then s else (tilePlaces n).foldl (fun s p => spmFind s bid (t.addr p.2 p.1 0 0) (fmtSize t.fmt)) s

/-- R290: `ACCLD`; `none` if it reads poison (R375). -/
def doAccld (s0 : State) (bid : Nat) (r : FmtE) (t : Slot) : Option State × State :=
  let n := tilesOf r
  let s := findTile (syncMirror s0 bid 0 (2 ^ 18)) bid t n
  match aget s.blocks bid with
  | none => (some s, s)
  | some b =>
    if (tilePlaces n).any (fun p => blkPoison b (t.addr p.2 p.1 0 0) 4) then (none, s)
    else
      let l := (tilePlaces n).map (fun p => (tileKey (r.d.toNat + p.2 / 128) p.1 (p.2 % 128), spmNat b (t.addr p.2 p.1 0 0) 4))
      (some (bumpConf (putTile s bid l) bid), s)

/-- R290: the four columns of a lane in a row of a tile, over the registers of its group. -/
def accrdLane (b : Block) (tile row lane : Nat) : Nat :=
  (List.range 4).foldr (fun q n => tileAt b tile row (32 * q + lane) + 2 ^ 32 * n) 0

/-- R290: `ACCWR`. -/
def doAccwr (s : State) (bid : Nat) (r : FmtE) (row : Nat) (vals : List (Nat × BitVec 128)) : State :=
  putTile s bid (vals.flatMap (fun p => (List.range 4).map (fun q =>
    (tileKey r.d.toNat row (32 * q + p.1), nbits p.2.toNat (32 * q) 32))))

/-- R274: `CBLD` takes effect. -/
def doCbld (s : State) (bid : Nat) (r : FmtE) (vals : List (Nat × BitVec 128)) : State :=
  modBlock s bid (fun b => { b with cb := sset b.cb r.d.toNat (BitVec.ofNat 256 (laneVal vals 0 + 2 ^ 128 * laneVal vals 1)) })

/-- R291: the activation of a value. -/
def activate (a : Nat) (x : Ex) : Ex :=
  match a with
  | 1 => if exIsNan x then x else if exLe x (.fin false 0 0) then .fin false 0 0 else x
  | 2 => if exIsNan x then x else unpack f32 false (fGelu (roundEx f32 0 false false x).bits)
  | _ => x

/-- The integer formats of a slot: signed, width. -/
def fmtInt (fmt : Nat) : Option (Bool × Nat) := match fmt with
  | 0x0 => some (true, 8)
  | 0x1 => some (false, 8)
  | 0x2 => some (true, 16)
  | 0x3 => some (false, 16)
  | 0x4 => some (true, 32)
  | 0x5 => some (false, 32)
  | _ => none

/-- The float format of an `ACCST` destination. -/
def storeFmt (fmt : Nat) : FloatFmt := if fmt == 0x6 then f32 else panelFmt fmt

/-- R98 to R102, R291: the conversion of an element: bits, Q, NV, OF. A value that is still an integer narrows under R102. -/
def accConvert (fmt : Nat) (sat whole nv : Bool) (x : Ex) : Nat × (Bool × Bool × Bool) :=
  match fmtInt fmt with
  | some (sg, w) => match (if whole then narrow sg w sat (exInt x) else exToIntTy 0 sg w x) with
    | (v, q) => (v, q, nv, false)
  | none =>
    let f := storeFmt fmt
    let r := roundEx f 0 sat false x
    let y := unpack f false r.bits
    (r.bits, r.q, nv || (exIsNan y && !exIsNan x), exIsInf y && !exIsNan x && !exIsInf x)

/-- R291: one element of an `ACCST`. -/
def accElem (r : FmtE) (fmt : Nat) (tile : Nat) (scale bias : Option Nat) : Nat × (Bool × Bool × Bool) :=
  let int := r.opt.getLsbD 3
  let x0 : Ex := if int then exOfInt (intOf true 32 tile) else unpack f32 false tile
  let x1 := match scale with
    | some f => timesNv (x0, false) (unpack f32 false f)
    | none => (x0, false)
  let x2 := match bias with
    | some f =>
      let y := unpack f32 false f
      let t := exAdd false x1.1 y
      (t, x1.2 || (exIsNan t && !exIsNan x1.1 && !exIsNan y))
    | none => x1
  let act := nbits r.opt.toNat 0 2
  accConvert fmt (r.opt.getLsbD 2) (int && scale.isNone && bias.isNone && act != 2) x2.2 (activate act x2.1)

/-- The value of a row slot for a column, and whether it is poisoned. -/
def rowVal (b : Block) (t : Option Slot) (j : Nat) : Option Nat × Bool := match t with
  | some x => (some (spmNat b (x.addr j 0 0 0) 4), blkPoison b (x.addr j 0 0 0) 4)
  | none => (none, false)

/-- R375: what `ACCST` writes for an element computed from a poisoned byte: NaN, or the value whose top bit alone is set, in the width of
the format (DEDUCED, log entry 20: the rule gives the two 32-bit values). -/
def poisonOut (fmt : Nat) : Nat := match fmtInt fmt with
  | some (_, w) => 2 ^ (w - 1)
  | none => (storeFmt fmt).nan

/-- One column position of an `ACCST`: its destination offset, bits and flags. Poison gives the value of R375. -/
def accOut (b : Block) (r : FmtE) (d : Slot) (sc bi : Option Slot) (p : Nat × Nat) : Nat × Nat × (Bool × Bool × Bool) :=
  let v1 := rowVal b sc p.2
  let v2 := rowVal b bi p.2
  (d.addr p.2 p.1 0 0,
    if v1.2 || v2.2 || tileBad b (r.a.toNat + p.2 / 128) p.1 (p.2 % 128) then (poisonOut d.fmt, false, true, false)
    else accElem r d.fmt (tileAt b (r.a.toNat + p.2 / 128) p.1 (p.2 % 128)) v1.1 v2.1)

/-- R375: the errors in the first `n` columns of a row slot are found. -/
def findRow (s : State) (bid n : Nat) : Option Slot → State
  | some t => if s.mem.errs.isEmpty then s else (List.range n).foldl (fun s j => spmFind s bid (t.addr j 0 0 0) 4) s
  | none => s

/-- R375: the writes of a command to scratchpad, those that follow one another as one. -/
def joinRuns : List (Nat × List Byte) → List (Nat × List Byte)
  | [] => []
  | (a, bs) :: t => match joinRuns t with
    | (b, cs) :: u => if b == a + bs.length then (a, bs ++ cs) :: u else (a, bs) :: (b, cs) :: u
    | [] => [(a, bs)]

/-- R291: the effect of an `ACCST`. -/
def doAccst (s0 : State) (bid : Nat) (r : FmtE) (recs : List (BitVec 512)) : State :=
  let d := slotAt recs 0
  let sc := if r.b == 255 then none else some (slotAt recs 1)
  let bi := if r.c == 255 then none else some (slotAt recs (if r.b == 255 then 1 else 2))
  let n := 128 * tilesOf r
  let s := findRow (findRow (syncMirror s0 bid 0 (2 ^ 18)) bid n sc) bid n bi
  match aget s.blocks bid with
  | none => s
  | some b =>
    let out := (tilePlaces (tilesOf r)).map (accOut b r d sc bi)
    let s1 := (joinRuns (out.map (fun p => (p.1, toBytes p.2.1 (fmtSize d.fmt))))).foldl (fun s p => spmWrite s bid p.1 p.2) s
    match anyFlags out with
    | (q, nv, ovf) => bumpConf (mstSet s1 bid q nv ovf) bid

/-- R343: engine cycles of an MX command (R288, R289). -/
def mxCycles (c : Cmd) : Nat :=
  match c.instr with
  | .mma _ r =>
    let a := (slotAt c.recs 0).fmt
    let b := (slotAt c.recs 1).fmt
    if a == 0xB && b == 0xB then mmaK r / 2 else if a == 0x7 || a == 0x8 then 2 * mmaK r else mmaK r
  | .mmz _ r => 8 * (nbits r.opt.toNat 0 4 + 1)
  | .accld _ r => 64 * tilesOf r
  | .accst _ r => 64 * tilesOf r
  | .accrd _ _ => 4
  | .accwr _ _ => 4
  | .cbld _ _ => 64
  | _ => 0

/-- R343: the credits that a cycle of an MX command draws: 340 for each tile of an `MMA`, 40 for another. -/
def cycleCredits (c : Cmd) : Nat := match c.instr with
  | .mma _ r => 340 * tilesOf r
  | _ => 40

end Sys2Proof.Machine
end

