-- ==== Sys2Proof/Machine/EngineEvents.lean ====
section
/-! DEFINITION. Engines at work: ENGINE_COMMAND_START (R135), MMA_ENGINE_EXIT (R289), ENGINE_COMMAND_COMPLETE (R271), COPY_BURST (R276,
R277), handler reads and ladles (R51, R52, R80, R278 to R284), subscriptions (R138 to R140, R285, R286), the cache walker (R123, R250). -/

namespace Sys2Proof.Machine

/-- The counter that a command decrements (R268, R237); 255 for none. -/
def counterOf : Instr → Nat
  | .cpy _ r => r.c.toNat
  | .cpyg _ r => r.c.toNat
  | .rdh _ r => r.c.toNat
  | .rdhg _ r => r.c.toNat
  | .sub _ r => r.c.toNat
  | .unsub _ r => r.c.toNat
  | .pubfl _ r => r.c.toNat
  | .mma _ r => r.c.toNat
  | .qfence _ r => r.c.toNat
  | .flushr _ r => r.c.toNat
  | .invr _ r => r.c.toNat
  | _ => 255

/-- R344: a core's bucket holds credit. -/
def creditOn (s : State) (core : Nat) : Bool := decide (0 < agetD s.hub.credits core 0)

/-- Credits drawn by a command. -/
def chargeCmd (s : State) (c : Cmd) (n : Nat) : State := charge s c.core (cmdQueue s c) n

/-- R344: the matrix engine runs as many cycles of its command as the credit lets it start: each starts only while the bucket is above 0, and is
charged then. `next` counts the cycles run. -/
def runCycles (s : State) (id : Nat) (c : Cmd) : State :=
  let p := cycleCredits c
  let left := mxCycles c - c.next
  let n := if p == 0 then left else min left ((agetD s.hub.credits c.core 0 + p - 1) / p).toNat
  if creditOn s c.core then modCmd (chargeCmd s c (n * p)) id (fun c => { c with next := c.next + n }) else s

/-! ### Subscriptions (R138 to R140, R285, R286) -/

/-- The publications of a core: distinct blocks, offsets and lengths. -/
def pubsOf (s : State) (core : Nat) : List (Nat × Nat × Nat) :=
  ((s.mem.subs.filter (fun x => coreOf s x.pblock == core && !x.ended)).map (fun x => (x.pblock, x.poff, x.len))).dedup

/-- R285: the status of a `SUB` to a peer block. -/
def subStatus (s : State) (c : Cmd) (p lo len po : Nat) : Nat :=
  let mine := s.mem.subs.filter (fun x => x.core == c.core)
  let pubs := pubsOf s (coreOf s p)
  let same := s.mem.subs.filter (fun x => x.pblock == p && x.poff == po && x.len == len && !x.ended)
  if Config.subEntries ≤ mine.length then 1
  else if !pubs.contains (p, po, len) && decide (Config.subEntries ≤ pubs.length) then 2
  else if Config.pubSubscribers ≤ same.length then 3
  else if mine.any (fun x => x.block == c.block && rangesMeet x.loff x.len lo len) || (p == c.block && rangesMeet po len lo len) then 4
  else 0

/-- The lowest free entry of a core's subscription table. -/
def freeIndex (s : State) (core : Nat) : Nat :=
  ((List.range Config.subEntries).find? (fun i => !s.mem.subs.any (fun x => x.core == core && x.index == i))).getD 0

/-- R140, R285: `SUB` starts: its status, and on success the subscription with its snapshot; poison in the region traps the command. -/
def startSub (s : State) (id : Nat) (c : Cmd) : State :=
  let lo := (c.args.getD 0 0).toNat
  let len := (c.args.getD 1 0).toNat
  let core := (c.args.getD 2 0).toNat
  let po := (c.args.getD 3 0).toNat
  let fin := fun (s : State) (v : Nat) => modCmd s id (fun c => { c with st := .running, res := BitVec.ofNat 64 v })
  match peerOf s c.block core with
  | none => trapCmd (fin s 0) id 0 .peerWindow 0 0
  | some p =>
    let st := subStatus s c p lo len po
    if st != 0 then fin s st
    else
      let s1 := spmFind (sendOfCore s (coreOf s p)) p po len
      if spmPoisoned s1 p po len then trapCmd (fin s1 0) id 0 .uncorrectable po 2
      else
        let i := freeIndex s1 c.core
        let x : Subscription :=
          { core := c.core, index := i, block := c.block, pcore := core, pblock := p, poff := po, loff := lo, len := len, snap := true
            lost := false, ended := false, log := [] }
        let bs := spmRead s1 p po len
        let s2 := bumpConf (spmHeal (spmPut s1 c.block lo bs) c.block lo len) c.block
        fin { s2 with mem := { s2.mem with subs := s2.mem.subs ++ [x] } } (i * 256)

/-- R138: two updates of one subscriber touch one line. -/
def sameLine (a b : Update) : Bool :=
  a.scrib == b.scrib && a.index == b.index && a.bytes.any (fun p => b.bytes.any (fun q => p.1 / 128 == q.1 / 128))

/-- UPDATE_APPLY (R138): an update is applied after the earlier ones to its line. -/
def execUpdateApply (upd : Nat) (s : State) : Out :=
  match s.mem.sent.find? (fun u => u.id == upd) with
  | none => .next s
  | some u => .next (if s.mem.sent.any (fun v => decide (v.id < u.id) && sameLine v u) then s else applyUpdate s u)

/-- Every update of a subscription that is on its way is applied (R286). -/
def drainSub (s : State) (bid index : Nat) : State :=
  (s.mem.sent.filter (fun u => u.scrib == bid && u.index == index)).foldl applyUpdate s

/-- R286: a subscription ends. -/
def endSub (s : State) (bid index : Nat) : State :=
  let s1 := drainSub s bid index
  { s1 with mem := { s1.mem with subs := s1.mem.subs.filter (fun x => !(x.block == bid && x.index == index)) } }

/-- UPDATE_BUFFER_TIMEOUT (R139): 64 clocks without a write: the core's buffer is sent. -/
def execUpdateBufferTimeout (core : Nat) (s : State) : Out :=
  .next (if (s.mem.upd.filter (fun e => e.core == core)).all (fun e => decide (e.since + 64 ≤ s.cycles)) then sendOfCore s core else s)

/-! ### The cache walker (R123, R250) -/

/-- The lines of a run of system-physical bytes that a cache or buffer holds anything of. -/
def heldLines (s : State) (die lo hi : Nat) : List Nat :=
  let l := (s.mem.sw.filter (fun x => x.die == die)).map (fun x => x.line) ++ s.mem.dir.map (fun p => p.1) ++ s.mem.red.map (fun e => e.line)
  (l.filter (fun x => decide (lo / 128 ≤ x) && decide (x * 128 < hi))).dedup

/-- R123: one line by its class. -/
def walkLine (die : Nat) (cls : BitVec 2) (inv : Bool) (s : State) (line : Nat) : State :=
  if cls == 0 then recallLine s line
  else if cls == 1 then (if inv then swGone s die line else swFlush s die line)
  else s

/-- What the walker forces on other holders of a line is charged to its class (R422). -/
def walkCharged (who : Asker) (cls : BitVec 2) (inv : Bool) (s : State) (line : Nat) : State :=
  walkLine who.die cls inv (if cls == 0 then chargeWho s who line (forcedBy s 3 true line) else s) line

/-- R250: the part of a range that lies in one 512 KiB page; a page that is skipped raises no fault. A line is acted on whatever its page's
state: what is written back to a line that a move is copying stands before the copy. -/
def walkPage (c : Cmd) (lo hi : Nat) (inv : Bool) (s : State) (page : Nat) : State :=
  let a := max lo (page * 2 ^ 19)
  let b := min hi (page * 2 ^ 19 + 2 ^ 19)
  if isWindow a then s
  else match agentTranslate s c.core (spaceOf s c.ctx c.level) a .any false with
    | (.ok x, s1) =>
      let spa := xlatOut x a
      let who : Asker := { dieAsker (dieOf c.core) with cls := some (classOf s1 c.ctx) }
      (heldLines s1 (dieOf c.core) spa (spa + (b - a))).foldl (walkCharged who x.cls inv) s1
    | (_, s1) => s1

/-- The range of a command of the cache walker, in whole lines. -/
def walkBounds (c : Cmd) : Nat × Nat :=
  let base := (c.args.getD 0 0).toNat
  (base / 128 * 128, (base + (c.args.getD 1 0).toNat + 127) / 128 * 128)

/-- The pages of its range. -/
def walkPages (c : Cmd) : List Nat :=
  let (lo, hi) := walkBounds c
  if (c.args.getD 1 0).toNat == 0 then [] else (List.range ((hi - 1) / 2 ^ 19 - lo / 2 ^ 19 + 1)).map (fun i => lo / 2 ^ 19 + i)

/-- R358, R390: a page of the range cannot be translated now: a walker or a page of its tables is not at hand. -/
def walkWaits (s : State) (c : Cmd) : Bool :=
  (walkPages c).any (fun page => !isWindow (page * 2 ^ 19) &&
    (agentTranslate s c.core (spaceOf s c.ctx c.level) (page * 2 ^ 19) .any false).1 == .busy)

/-- R250: a command of the cache walker acts on every line of its range. -/
def walkRange (s : State) (c : Cmd) (inv : Bool) : State :=
  (walkPages c).foldl (walkPage c (walkBounds c).1 (walkBounds c).2 inv) s

/-! ### Start -/

/-- R275, R279: a command reads its list; poison traps it before it starts (R375), and one that was skipped has no list (R373). -/
def startList (s : State) (id : Nat) (c : Cmd) (d : DWord) : State :=
  let ofs := nbits d.toNat 0 20
  let n := 4 * listCount d
  let s1 := spmFind s c.block ofs n
  if c.marks.any (fun m => m.st == .dropped) then modCmd s1 id (fun c => { c with st := .running })
  else if spmPoisoned s1 c.block ofs n then trapCmd s1 id 0 .uncorrectable ofs 2
  else modCmd (bumpConf s1 c.block) id (fun c => { c with st := .running, list := listRead s1 c.block d })

/-- A command starts: lists are read, a subscription is made, updates go out, the matrix engine runs its first cycles. -/
def startCmd (s : State) (id : Nat) (c : Cmd) : State :=
  let run := modCmd s id (fun c => { c with st := .running })
  match c.instr with
  | .cpyg _ _ => startList s id c (c.args.getD 0 0)
  | .rdhg _ _ => startList s id c (c.args.getD 3 0)
  | .sub _ _ => startSub s id c
  | .pubfl _ _ => sendOfCore run c.core
  | _ => if c.queues == [.mx] then runCycles run id c else run

/-- A `QFENCE`. -/
def isQfence : Instr → Bool
  | .qfence _ _ => true
  | _ => false

/-- R379: the context of a command is being saved: no command starts. -/
def savingCtx (s : State) (ctx : Nat) : Bool := s.hub.preempts.any (fun p => p.ctx == ctx && !p.restore)

/-- ENGINE_COMMAND_START (R135, R344, R379). -/
def execEngineCommandStart (cmd : Nat) (s : State) : Out :=
  match aget s.cmds cmd with
  | none => .next s
  | some c =>
    .next (if mayStart s c && !isQfence c.instr && !savingCtx s c.ctx && (c.queues != [.mx] || creditOn s c.core) then startCmd s cmd c
      else s)

/-- MMA_ENGINE_EXIT (R289, R344): the engine of a core runs the cycles that are left; an `MMA` that has had them all leaves it, and what it
computes stands for every later command. -/
def execMmaEngineExit (core : Nat) (s : State) : Out :=
  match s.cmds.find? (fun p => p.2.core == core && p.2.queues == [.mx] && p.2.st == .running) with
  | some (id, c) => if c.next < mxCycles c then .next (runCycles s id c) else match c.instr with
    | .mma _ r => .next (modCmd (doMma s c.block r (slotAt c.recs 0) (slotAt c.recs 1)) id (fun c => { c with st := .left }))
    | _ => .next s
  | none => .next s

/-! ### Copies (R275 to R277) -/

/-- The bursts of a copy. -/
def copyBursts (c : Cmd) : List CopyBurst :=
  let d := slotAt c.recs 0
  let a := slotAt c.recs 1
  match c.instr with
  | .cpyg _ _ => cpygBursts a d c.list
  | _ => cpyBursts a d

/-- On whose behalf a burst of a command accesses: as one access (R147). -/
def burstWho (id : Nat) (c : Cmd) (burst : Nat) : Who := { cmdWho c with holder := some (.burst id burst), quiet := true }

/-- The places of the bytes of a unit of a slot; those of a C4 block in the next page are reached through that page (R276, R363);
a window has no pages (R117). -/
def unitReach (s : State) (c : Cmd) (w : Who) (t : Slot) (addr : Nat) (need : Need) : List (Nat × Reach) × State :=
  let z := fmtSize t.fmt
  let k := 2 ^ 19 - addr % 2 ^ 19
  if t.space == 1 then ([(addr, .spm c.block addr)], s)
  else if z ≤ k || isWindow addr || (windowCheck s c.block addr z).isSome then
    match probe s w addr z need with
    | (r, s1) => ([(addr, r)], s1)
  else match probe s w addr k need with
    | (a, s1) => match probe s1 w (addr + k) (z - k) need with
      | (b, s2) => (match a, b with
        | .mem l, .mem m => ([(addr, .mem (l ++ m))], s2)
        | _, _ => ([(addr, a), (addr + k, b)], s2))

/-- The places of the units of a burst on one side. -/
def sideReach (c : Cmd) (w : Who) (t : Slot) (need : Need) (acc : List (Nat × Reach) × State) (addr : Nat) : List (Nat × Reach) × State :=
  match unitReach acc.2 c w t addr need with
  | (l, s1) => (acc.1 ++ l, s1)

/-- The faults of a list of places, one for each page. -/
def faultsOf (l : List (Nat × Reach)) : List (Nat × WFault) :=
  l.foldl (fun acc p => match p.2 with
    | .fault va f => if acc.any (fun q => q.1 / 2 ^ 19 == va / 2 ^ 19) then acc else acc ++ [(va, f)]
    | _ => acc) []

/-- The first trap of a list of places. -/
def trapOf (l : List (Nat × Reach)) : Option (Nat × TrapCode × Nat) :=
  l.findSome? (fun p => match p.2 with
    | .trap c e => some (p.1, c, e)
    | _ => none)

/-- Some place of a list has to wait. -/
def anyWait (l : List (Nat × Reach)) : Bool := l.any (fun p => p.2 == .wait)

/-- The translated runs of a list of places. -/
def allSegs (l : List (Nat × Reach)) : List Seg := l.flatMap (fun p => match p.2 with
  | .mem segs => segs
  | _ => [])

/-- Reads the units of a burst; `none` where one is poisoned, with its place. -/
def readUnits (w : Who) (z : Nat) (s : State) : List (Nat × Reach) → (List (List Byte)) × Option (Nat × Nat) × State
  | [] => ([], none, s)
  | (a, p) :: t =>
    match takeBytes s w z p with
    | (got, s1) => match got.bad with
      | some e => ([], some (a, e), s1)
      | none => match readUnits w z s1 t with
        | (l, e, s2) => (got.bytes :: l, e, s2)

/-- A place in scratchpad. -/
def inSpm (p : Nat × Reach) : Bool := match p.2 with
  | .spm _ _ => true
  | _ => false

/-- A burst is performed: its source is read, its destination written; its accesses to scratchpad may lose clocks (R71). -/
def moveBurst (s : State) (id : Nat) (c : Cmd) (burst z : Nat) (src dst : List (Nat × Reach)) : State :=
  let w := burstWho id c burst
  match readUnits w z (countBurst s w .read (allSegs src)) src with
  | (_, some (a, e), s1) => trapCmd s1 id burst .uncorrectable a e
  | (l, none, s1) =>
    let s2 := (joinWrites (dst.zip l |>.map (fun p => (p.1.2, p.2)))).foldl (fun s p => giveBytes s w p.2 p.1) (countBurst s1 w .write (allSegs dst))
    let s3 := if (src ++ dst).any inSpm then bumpConf s2 c.block else s2
    modCmd (chargeCmd s3 c 24) id (fun c => { c with bits := burst :: c.bits })

/-- R276, R277: one burst: it traps, parks (in a group for each page that faults), waits, or is performed. -/
def copyBurst (s : State) (id : Nat) (c : Cmd) (burst : Nat) (b : CopyBurst) : State :=
  let d := slotAt c.recs 0
  let a := slotAt c.recs 1
  let w := burstWho id c burst
  let us := (List.range b.n).map (fun i => b.u + i)
  match (us.map (fun u => a.addr u b.sx1 b.x2 b.x3)).foldl (sideReach c w a .read) ([], s) with
  | (src, s1) => match (us.map (fun u => d.addr u b.dx1 b.x2 b.x3)).foldl (sideReach c w d .write) ([], s1) with
    | (dst, s2) =>
      match trapOf (src ++ dst) with
      | some (va, code, e) => trapCmd s2 id burst code va e
      | none =>
        let fs := faultsOf src
        let fd := faultsOf dst
        if !(fs ++ fd).isEmpty then
          fd.foldl (fun s f => faultBurst s id burst f.1 true f.2) (fs.foldl (fun s f => faultBurst s id burst f.1 false f.2) s2)
        else if anyWait (src ++ dst) then s2
        else match payReach s2 w (reachPorts s2 w none .read (allSegs src) ++ reachPorts s2 w none .write (allSegs dst)) with
          | (false, s3) => s3
          | (true, s3) => moveBurst s3 id c burst (fmtSize a.fmt) src dst

/-- A copy. -/
def isCopy : Instr → Bool
  | .cpy _ _ => true
  | .cpyg _ _ => true
  | _ => false

/-- R379: the lowest burst of a copy that is not performed. -/
def lowBurst (c : Cmd) (n : Nat) : Nat := ((List.range n).find? (fun b => !c.bits.contains b)).getD n

/-- COPY_BURST (R276, R344, R379): no burst runs further than 8,192 ahead of the lowest one not performed. -/
def execCopyBurst (cmd burst : Nat) (s : State) : Out :=
  match aget s.cmds cmd with
  | none => .next s
  | some c =>
    let l := copyBursts c
    match l[burst]? with
    | some b =>
      .next (if c.st == .running && isCopy c.instr && !c.bits.contains burst && !marked c burst && creditOn s c.core && !savingCtx s c.ctx
          && decide (burst ≤ lowBurst c l.length + 8192) then copyBurst s cmd c burst b else s)
    | none => .next s

/-! ### Handler reads (R278 to R284) -/

/-- The bursts of a handler read. -/
def readBursts (c : Cmd) : List ReadBurst :=
  match c.instr with
  | .rdhg _ _ => rdhgBursts (slotAt c.recs 0) c.list
  | _ => rdhBursts (slotAt c.recs 0)

/-- A ladle of a burst lives. -/
def hasLadle (s : State) (id burst : Nat) : Bool :=
  s.agents.any (fun p => p.2.kind == .ladle && p.2.ladle.read == id && p.2.ladle.burst == burst && !p.2.ladle.finale)

/-- R280, R282: a burst that is still to be requested. -/
def burstClear (s : State) (id : Nat) (c : Cmd) (b : Nat) : Bool :=
  !c.bits.contains b && !c.flying.contains b && !c.landed.any (fun x => x.2.1 == b) && !marked c b && !hasLadle s id b

/-- The next burst of a read to be requested. -/
def nextBurst (s : State) (id : Nat) (c : Cmd) : Option (Nat × ReadBurst) :=
  let l := readBursts c
  match (List.range l.length).find? (burstClear s id c) with
  | some b => (l[b]?).map (fun x => (b, x))
  | none => none

/-- R280: bursts of a core that hold or will take a place in its landing buffer. -/
def bufferUse (s : State) (core : Nat) : Nat :=
  ((s.cmds.filter (fun p => p.2.core == core)).map (fun p => p.2.flying.length + p.2.landed.length)).foldl (fun a b => a + b) 0

/-- R280: reads of one core request in issue order: an earlier one has bursts to request. -/
def earlierRequests (s : State) (c : Cmd) : Bool :=
  s.cmds.any (fun p => p.2.core == c.core && isRead p.2.instr && p.2.st == .running && !p.2.stopped && decide (p.2.entry < c.entry)
    && (nextBurst s p.1 p.2).isSome)

/-- R277, R280: a burst is requested: its page is translated. -/
def requestBurst (s : State) (id : Nat) (c : Cmd) (burst : Nat) (b : ReadBurst) : State :=
  let (va, n) := burstRange b
  match reach s (burstWho id c burst) va n .read with
  | (.fault v f, s1) => faultBurst s1 id burst v false f
  | (.trap code e, s1) => trapCmd s1 id burst code va e
  | (.wait, s1) => s1
  | (_, s1) => modCmd (chargeCmd s1 c 24) id (fun c => { c with next := max c.next (burst + 1), flying := c.flying ++ [burst] })

/-- BURST_REQUEST (R280, R282, R344): the next burst of a read, when the landing buffer has room. -/
def execBurstRequest (cmd : Nat) (s : State) : Out :=
  match aget s.cmds cmd with
  | none => .next s
  | some c =>
    if isRead c.instr && c.st == .running && !c.stopped && creditOn s c.core && !savingCtx s c.ctx
        && decide (bufferUse s c.core < Config.landingBursts) && !earlierRequests s c then
      (match nextBurst s cmd c with
       | some (b, x) => .next (requestBurst s cmd c b x)
       | none => .next s)
    else .next s

/-- R80: the 256 bytes of a burst's block; those outside the row read zero. -/
def burstBytes (b : ReadBurst) (bs : List Byte) : List Byte :=
  let (va, n) := burstRange b
  (List.range 256).map (fun i => if va ≤ b.block + i && b.block + i < va + n then bs.getD (b.block + i - va) 0 else 0)

/-- BURST_LANDING (R277, R280): a requested burst is read and lands; poison traps it. -/
def execBurstLanding (cmd burst : Nat) (s : State) : Out :=
  match aget s.cmds cmd with
  | none => .next s
  | some c =>
    match (readBursts c)[burst]? with
    | none => .next s
    | some b =>
      if !c.flying.contains burst then .next s
      else
        let (va, n) := burstRange b
        let off := fun (s : State) => modCmd s cmd (fun c => { c with flying := c.flying.filter (fun x => x != burst) })
        let w := burstWho cmd c burst
        match probe s w va n .read with
        | (.fault v f, s1) => .next (faultBurst (off s1) cmd burst v false f)
        | (.trap code e, s1) => .next (trapCmd (off s1) cmd burst code va e)
        | (.wait, s1) => .next s1
        | (p, s1) =>
          match takeBytes (countBurst s1 w .read (allSegs [(va, p)])) w n p with
          | (got, s2) => match got.bad with
            | some e => .next (trapCmd (off s2) cmd burst .uncorrectable va e)
            | none => match freshId (off (if inSpm (va, p) then bumpConf s2 c.block else s2)) with
              | (stamp, s3) => .next (modCmd s3 cmd (fun c => { c with landed := c.landed ++ [(stamp, burst, burstBytes b got.bytes)] }))

/-! ### Ladles (R51, R52, R80, R281) -/

/-- A slot of a core holds a ladle. -/
def slotTaken (s : State) (core slot : Nat) : Bool :=
  s.agents.any (fun p => p.2.kind == .ladle && p.2.core == core && p.2.index == slot)

/-- The registers of a ladle at its birth. -/
def ladleRegs (bytes : List Byte) (k1 : LaneSet) (arg s2 s3 entry : DWord) : Regs :=
  let word := fun (r l : Nat) => BitVec.ofNat 32 (ofBytes ((bytes.drop (8 * l + 4 * r)).take 4))
  let v := [0, 1].foldl (fun m r => allLanes.foldl (fun m l => sset m (32 * r + l) (word r l)) m) []
  { v := v, s := sset (sset (sset [] 1 arg) 2 s2) 3 s3, k := sset [] 1 k1
    pcv := allLanes.foldl (fun m l => sset m l entry) [], sflags := 0 }

/-- A new ladle of a command in a slot (R51, R80); it runs at U (R306). -/
def bornLadle (s : State) (id : Nat) (c : Cmd) (slot : Nat) (regs : Regs) (data : LadleData) : State :=
  match freshId s with
  | (a, s1) =>
    let home := (aget s1.blocks c.block).elim c.core (fun b => b.home)
    let ag : Agent :=
      { kind := .ladle, core := c.core, home := home, sched := slot % 4, block := c.block, ctx := c.ctx, level := .u, index := slot
        alloc := 16, first := 0, age := a, prio := 0, regs := regs, flags := [], lanes := List.replicate 32 .ready, count := 0
        prevSet := 0, skip := 0, yielded := false, traps := [], bara := [], ladle := { data with read := id }, hub := HubData.reset
        started := true, issue := none }
    putAgent s1 a ag

/-- The landed burst of a core that landed first (R280), with its command. -/
def firstLanded (s : State) (core : Nat) : Option (Nat × Cmd × (Nat × Nat × List Byte)) :=
  let l := (s.cmds.filter (fun p => p.2.core == core)).flatMap (fun p => p.2.landed.map (fun x => (p.1, p.2, x)))
  l.foldl (fun best x => match best with
    | none => some x
    | some y => if x.2.2.1 < y.2.2.1 then some x else some y) none

/-- LADLE_BIRTH (R51, R80, R280): the burst that landed first is born in a free slot. -/
def execLadleBirth (core slot : Nat) (s : State) : Out :=
  if Config.ladleSlots ≤ slot || slotTaken s core slot then .next s
  else match firstLanded s core with
    | none => .next s
    | some (id, c, x) =>
      if savingCtx s c.ctx then .next s
      else match (readBursts c)[x.2.1]? with
        | none => .next s
        | some b =>
          let regs := ladleRegs x.2.2 (burstMask b) (c.args.getD 2 0) (BitVec.ofNat 64 x.2.1) 0 (c.args.getD 0 0)
          let data : LadleData := { LadleData.none with burst := x.2.1, bc := b.bc.map (BitVec.ofNat 32) }
          .next (bornLadle (modCmd s id (fun c => { c with landed := c.landed.filter (fun y => y.1 != x.1) })) id c slot regs data)

/-- R52, R137, R297: every access of a ladle has been performed, its loads too: all are hb-before the release of its read, or the fall of its
read's flag (DEDUCED, log entry 87). -/
def accessesDone (s : State) (a : Nat) : Bool := !s.ops.any (fun q => q.2.agent == a && q.2.parts.any partOpen)

/-- R53: an agent's stores, atomics and reductions have been accepted. -/
def storesDone (s : State) (a : Nat) : Bool :=
  !s.ops.any (fun q => q.2.agent == a && doesWrite (kindOf q.2.instr) && q.2.parts.any partOpen)

/-- An agent is gone: what it still loads goes to discarded registers (R53). -/
def dropAgent (s : State) (a : Nat) : State :=
  let keep := fun (q : Nat × Op) => q.2.agent != a || q.2.parts.any (fun p => p.st == .home || p.st == .walk)
  { s with agents := adel s.agents a, ops := s.ops.filter keep }

/-- A command is over: its flag falls and it leaves its queues, and the replay lists in which it stands (R39). The progress record of a handler read
stays with the block (R298). -/
def endCmd (s : State) (id : Nat) (c : Cmd) : State :=
  let s0 := if isRead c.instr then modBlock s c.block (fun b => { b with progress := b.progress ++ [(id, c.bits)] }) else s
  let s1 := flagDown s0 c.agent c.flag
  (lanesOf c.lanes).foldl (unpark c.agent c.clause) { s1 with cmds := adel s1.cmds id }

/-- LADLE_END (R52, R281): a ladle whose strands have all exited, and whose stores are accepted, ends; its burst's bit is set. The end of
a finale ends its read. -/
def execLadleEnd (core slot : Nat) (s : State) : Out :=
  match s.agents.find? (fun p => p.2.kind == .ladle && p.2.core == core && p.2.index == slot) with
  | none => .next s
  | some (a, ag) =>
    if !allExited ag || !ag.traps.isEmpty || ag.issue.isSome || !accessesDone s a then .next s
    else
      let s1 := dropAgent s a
      match aget s1.cmds ag.ladle.read with
      | none => .next s1
      | some c =>
        if ag.ladle.finale then .next (endCmd s1 ag.ladle.read c)
        else .next (modCmd s1 ag.ladle.read (fun c => { c with bits := ag.ladle.burst :: c.bits }))

/-- FINALE_BIRTH (R52): the finale of a read runs once, in a free slot. -/
def execFinaleBirth (cmd slot : Nat) (s : State) : Out :=
  match aget s.cmds cmd with
  | none => .next s
  | some c =>
    if c.st != .finale || Config.ladleSlots ≤ slot || slotTaken s c.core slot || savingCtx s c.ctx
        || s.agents.any (fun p => p.2.kind == .ladle && p.2.ladle.read == cmd) then .next s
    else
      let regs := ladleRegs [] 0 (c.args.getD 2 0) (BitVec.ofNat 64 (readBursts c).length) (BitVec.ofNat 64 c.bits.length) (c.args.getD 1 0)
      .next (bornLadle s cmd c slot regs { LadleData.none with finale := true })

/-! ### Completion (R271, R280, R289, R293) -/

/-- A burst has been dropped (R373). -/
def droppedBurst (c : Cmd) (b : Nat) : Bool := c.marks.any (fun m => m.burst == b && m.st == .dropped)

/-- A mark that stands for something still to be acted on. -/
def openMark (m : BurstMark) : Bool := m.st != .dropped

/-- R280, R284: every burst of a read has ended, or, when it is stopped, nothing of it is under way. -/
def readOver (s : State) (id : Nat) (c : Cmd) : Bool :=
  !s.agents.any (fun p => p.2.kind == .ladle && p.2.ladle.read == id) && !c.marks.any openMark && c.flying.isEmpty && c.landed.isEmpty
    && (c.stopped || (List.range (readBursts c).length).all (fun b => c.bits.contains b || droppedBurst c b))

/-- R270, R293: every earlier command on the queues of a `QFENCE` has completed. -/
def fenceMet (s : State) (c : Cmd) : Bool :=
  c.queues.all (fun q => (inQueue s c.core c.block q).all (fun p => decide (c.entry ≤ p.2.entry)))

/-- R289: no earlier `MMA` of the core is still to complete. -/
def mmaFirst (s : State) (c : Cmd) : Bool :=
  !s.cmds.any (fun p => p.2.core == c.core && p.2.st == .left && decide (p.2.entry < c.entry))

/-- A command has done what it does and may complete. An MX command that takes 24 cycles or more completes after an `MMA` before it. -/
def cmdDone (s : State) (id : Nat) (c : Cmd) : Bool :=
  match c.instr with
  | .qfence _ _ => fenceMet s c && (c.queues.isEmpty || !issuerOpen s c)
  | .mma _ _ => c.st == .left && mmaFirst s c
  | .cpy _ _ => c.st == .running && !c.marks.any openMark && (List.range (copyBursts c).length).all (fun b => c.bits.contains b || droppedBurst c b)
  | .cpyg _ _ => c.st == .running && !c.marks.any openMark && (List.range (copyBursts c).length).all (fun b => c.bits.contains b || droppedBurst c b)
  | .rdh _ _ => c.st == .running && readOver s id c
  | .rdhg _ _ => c.st == .running && readOver s id c
  | .pubfl _ _ => c.st == .running && !s.mem.sent.any (fun u => u.core == c.core)
  | _ => c.st == .running && !c.marks.any openMark && decide (mxCycles c ≤ c.next) && (decide (mxCycles c < 24) || mmaFirst s c)

/-- The registers that an `ACCRD` writes (R290). -/
def accrdWrite (s : State) (c : Cmd) (r : FmtE) : State :=
  match aget s.blocks c.block with
  | none => s
  | some b => c.vals.foldl (fun s p => writeLanes s c.agent r.d.toNat p.1 (accrdLane b r.a.toNat (c.args.getD 0 0).toNat p.1) 4) s

/-- What a command does at its completion; `none` where it traps instead (R375). -/
def finishCmd (s : State) (id : Nat) (c : Cmd) : Option State × State :=
  let ok := fun (x : State) => (some x, x)
  if droppedBurst c 0 && !isCopy c.instr && !isRead c.instr then ok s
  else match c.instr with
    | .mmz _ r => ok (doMmz s c.block r)
    | .accld _ r => (match doAccld s c.block r (slotAt c.recs 0) with
      | (some s1, _) => ok s1
      | (none, s1) => (none, trapCmd s1 id 0 .uncorrectable (slotAt c.recs 0).base 2))
    | .accst _ r => ok (doAccst s c.block r c.recs)
    | .accrd _ r =>
      if rowPoison s c.block r.a.toNat (c.args.getD 0 0).toNat then (none, trapCmd s id 0 .uncorrectable r.a.toNat 3) else ok (accrdWrite s c r)
    | .accwr _ r => ok (doAccwr s c.block r (c.args.getD 0 0).toNat c.vals)
    | .cbld _ r => ok (doCbld s c.block r c.vals)
    | .flushr _ _ => ok (walkRange s c false)
    | .invr _ _ => ok (walkRange s c true)
    | .sub _ r => ok (writeBack s c.agent (.s r.d.toNat) c.res)
    | .unsub _ r =>
      let i := nbits (c.args.getD 0 0).toNat 0 4
      if (subOf s c.block i).isSome then ok (writeBack (endSub s c.block i) c.agent (.s r.d.toNat) 0)
      else ok (writeBack s c.agent (.s r.d.toNat) 5)
    | _ => ok s

/-- R136, R271: the completion release of a command that has done its work goes out; then its counter falls and its flag falls, or a read
goes on to its finale. -/
def releaseCmd (s : State) (id : Nat) (c : Cmd) : State :=
  let sc := if isRead c.instr then 1 else (memFmt c.instr).scope.toNat
  match releaseStep s c.core c.block sc with
  | (true, s2) => s2
  | (false, s2) =>
    let s3 := ecDec s2 c.block (counterOf c.instr)
    if isRead c.instr && c.args.getD 1 0 != 0 then modCmd s3 id (fun c => { c with st := .finale }) else endCmd s3 id c

/-- The work and the completion release of a command. -/
def completeCmd (s : State) (id : Nat) (c : Cmd) : State :=
  if c.st == .complete then releaseCmd s id c
  else if queuesOf c.instr == [.cw] && walkWaits s c then s
  else match finishCmd s id c with
    | (none, s1) => s1
    | (some s1, _) => releaseCmd (modCmd s1 id (fun c => { c with st := .complete })) id c

/-- ENGINE_COMMAND_COMPLETE (R271). -/
def execEngineCommandComplete (cmd : Nat) (s : State) : Out :=
  match aget s.cmds cmd with
  | some c => .next (if c.st == .complete || cmdDone s cmd c then completeCmd s cmd c else s)
  | none => .next s

/-- R271, R293: `QFENCE`: with a mask of 0 it completes at once, with its release. -/
def execQfence (h : Pfx) (r : FmtE) (s : State) : Out :=
  match engineWord s h (.qfence h r) (fun _ => []) noVals with
  | .next s1 => .next (match aget s1.cmds s.nextId with
    | some c => if c.queues.isEmpty && (aget s.cmds s.nextId).isNone then completeCmd s1 s.nextId c else s1
    | none => s1)
  | o => o

end Sys2Proof.Machine
end

