-- ==== Sys2Proof/Machine/System.lean ====
section
/-! DEFINITION. System instructions (R313 to R323): at issue, and when they take effect (SYSTEM_INSTRUCTION_COMPLETE, R314). -/

namespace Sys2Proof.Machine

/-! ### Privileged registers (R313) -/

/-- The guest and address space of a context, as `ctx` shows it (R311). -/
def ctxValue (s : State) (c : Nat) : DWord :=
  let x := ctxOf s c
  BitVec.ofNat 64 (c + x.asid.toNat * 2 ^ 12 + x.vmid.toNat * 2 ^ 28 + ctxPart s c * 2 ^ 36)

/-- R312: what an agent reads. -/
def privRead (s : State) (ag : Agent) (n : Nat) : DWord :=
  match n with
  | 0x00 => BitVec.ofNat 64 (levelNum ag.level)
  | 0x01 => ctxValue s (privCtx ag)
  | 0x0B => s.hub.fwver
  | 0x10 => BitVec.ofNat 64 ag.index
  | 0x11 => ag.hub.ctxsel.setWidth 64
  | _ => ctxRegRead s (privCtx ag) n

/-- R313: `MOVPR`: written at the clause boundary. -/
def execMovpr (h : Pfx) (r : FmtR) (s : State) : Out :=
  onIssue s h false (fun e =>
    .next (finish s e 4 (if e.pass == 0 then [] else wrS e lateCycle r.d.toNat (privRead s e.ag r.a.toNat))))

/-- R313: a `wwend` at S names a context of another guest. -/
def wwendBad (s : State) (e : Env) (n : Nat) (v : DWord) : Bool :=
  let c := nbits v.toNat 0 12
  n == 0x0A && e.ag.level == .s && ctxHeld s c && (ctxOf s c).vmid != (ctxOf s e.ag.ctx).vmid

/-- R313: `MOVRP`: it takes effect at the clause boundary. -/
def execMovrp (h : Pfx) (r : FmtR) (s : State) : Out :=
  onIssue s h false (fun e =>
    let v := rdS e r.b.toNat
    let n := r.a.toNat
    if e.pass != 0 && wwendBad s e n v then .next (issueTrap s e (engineReq e .privilege 0))
    else
      let p : Producer := { tgt := .priv n, val := v, ready := e.iss.cur + lateCycle, mov := false }
      .next (finish s e 4 (if e.pass == 0 then [] else [p])))

/-! ### At issue -/

/-- R314: a variable-latency system instruction: with no passing lane nothing; a full flag count holds; a failed value check traps. -/
def systemWord (s : State) (h : Pfx) (i : Instr) (args : Env → List DWord) (check : Env → List DWord → Option TrapCode) : Out :=
  onIssue s h false (fun e =>
    if e.pass == 0 then .next (finish s e 4 [])
    else if flagFull e.ag (memFmt i).flag.toNat then .next (holdWord s)
    else match check e (args e) with
      | some c => .next (issueTrap s e (engineReq e c (if c == .accessViolation then ((args e).getD 0 0).toNat else 0)))
      | none => match startOp s e (opOf_ e i [partOfLane 32 0 .home] [] [] (args e)) with
        | (_, s1) => .next s1)

/-- No value check. -/
def noCheck (_e : Env) (_l : List DWord) : Option TrapCode := none

/-- R317: sA + sB above 2^56. -/
def rangeCheck (_e : Env) (l : List DWord) : Option TrapCode :=
  if 2 ^ 56 < (l.getD 0 0).toNat + (l.getD 1 0).toNat then some .accessViolation else none

/-- R316: `SYSC`: an outstanding call is recorded with the op. -/
def execSysc (h : Pfx) (r : FmtE) (s : State) : Out := systemWord s h (.sysc h r) (fun e => [rdS e r.a.toNat]) noCheck

/-- R317: `TLBI.asid`: ASID and VMID scalars. -/
def execTlbiAsid (h : Pfx) (r : FmtE) (s : State) : Out :=
  systemWord s h (.tlbiAsid h r) (fun e => [rdS e r.a.toNat, rdS e r.d.toNat]) noCheck

/-- R317: `TLBI.vm`. -/
def execTlbiVm (h : Pfx) (r : FmtE) (s : State) : Out :=
  systemWord s h (.tlbiVm h r) (fun e => [rdS e r.a.toNat, rdS e r.d.toNat]) noCheck

/-- R317: `TLBI.s2`. -/
def execTlbiS2 (h : Pfx) (r : FmtE) (s : State) : Out :=
  systemWord s h (.tlbiS2 h r) (fun e => [rdS e r.a.toNat, rdS e r.d.toNat]) noCheck

/-- R317: `TLBI.all`. -/
def execTlbiAll (h : Pfx) (r : FmtE) (s : State) : Out :=
  systemWord s h (.tlbiAll h r) (fun e => [rdS e r.a.toNat, rdS e r.d.toNat]) noCheck

/-- R317: `TLBIR`: start, length, ASID, VMID. -/
def execTlbir (h : Pfx) (r : FmtE) (s : State) : Out :=
  systemWord s h (.tlbir h r) (fun e => [rdS e r.a.toNat, rdS e r.b.toNat, rdS e r.c.toNat, rdS e r.d.toNat]) rangeCheck

/-- R317: `TLBIR.s2`. -/
def execTlbirS2 (h : Pfx) (r : FmtE) (s : State) : Out :=
  systemWord s h (.tlbirS2 h r) (fun e => [rdS e r.a.toNat, rdS e r.b.toNat, rdS e r.c.toNat, rdS e r.d.toNat]) rangeCheck

/-- R319: `ATP`. -/
def execAtp (h : Pfx) (r : FmtE) (s : State) : Out := systemWord s h (.atp h r) (fun e => [rdS e r.a.toNat]) noCheck

/-- R320: `LCINV`: start and length; every range is taken (DESIGN CHOICE, log entry 88: no rule says which is malformed). -/
def execLcinv (h : Pfx) (r : FmtE) (s : State) : Out :=
  systemWord s h (.lcinv h r) (fun e => [rdS e r.a.toNat, rdS e r.b.toNat]) noCheck

/-- R320: `LCINV.all`. -/
def execLcinvAll (h : Pfx) (r : FmtE) (s : State) : Out := systemWord s h (.lcinvAll h r) (fun _ => []) noCheck

/-- R321: `NOTIFYW`: queue and value. -/
def execNotifyw (h : Pfx) (r : FmtE) (s : State) : Out :=
  systemWord s h (.notifyw h r) (fun e => [rdS e r.a.toNat, rdS e r.b.toNat]) noCheck

/-- R322: `HALT`: the thread sleeps, unless a notify register was written since its last `HALT`. -/
def execHalt (h : Pfx) (_r : FmtE) (s : State) : Out :=
  onIssue s h false (fun e =>
    let sleep := if e.ag.hub.notified then { e.ag.hub with notified := false } else { e.ag.hub with halted := true }
    .next (finish s { e with ag := if e.pass == 0 then e.ag else { e.ag with hub := sleep } } 4 []))

/-- R416: DPCOUNT of `IPROFn`. -/
def profCount (p : Nat) : Nat := nbits p 32 27

/-- R416: the partition in whose profile the device page of a page of tiers 0 to 2 lies. -/
def profilePart (s : State) (page : Nat) : Option Nat :=
  let e := pageEntry s page
  if !pageValid s page || 3 ≤ peTier e then none
  else ((List.range 8).find? (fun n => nbits (iprof s n) 26 1 == 1 && decide (profBase s n ≤ pePage e) &&
    decide (pePage e < profBase s n + profCount (iprof s n)))).map (fun n => nbits (iprof s n) 28 2)

/-- R323: a system-physical address names no memory word that a context may alter: the register window, a page that the table does not describe, or
memory of another partition. -/
def noWord (s : State) (ctx spa : Nat) : Bool :=
  inWindow spa || !pageValid s (spa / 2 ^ 19) || (profilePart s (spa / 2 ^ 19)).any (fun p => p != ctxPart s ctx)

/-- R323: an address of a context translates to no such word. -/
def wordRefused (s : State) (core ctx : Nat) (level : Level) (va : Nat) : Bool :=
  match (agentTranslate s core (spaceOf s ctx level) va .any false).1 with
  | .ok x => noWord s ctx (xlatOut x va)
  | _ => false

/-- R323: the value checks of `ECCI`: target and index. -/
def ecciCheck (s : State) (e : Env) (l : List DWord) : Option TrapCode :=
  let i := (l.getD 1 0).toNat
  let out := decide (2 ^ 56 ≤ i) || isWindow i || wordRefused s e.ag.core e.ag.ctx e.ag.level i
  let bad : Bool := match (l.getD 0 0).toNat with
    | 0 => decide (spmSize s e.ag.block ≤ i)
    | 1 => e.ag.kind == .hubThread || decide (e.ag.alloc ≤ nbits i 0 8)
    | 2 => out
    | 3 => out
    | _ => true
  if bad then some .accessViolation else none

/-- R323: `ECCI.corr`. -/
def execEcciCorr (h : Pfx) (r : FmtE) (s : State) : Out :=
  systemWord s h (.ecciCorr h r) (fun e => [rdS e r.a.toNat, rdS e r.b.toNat]) (ecciCheck s)

/-- R323: `ECCI.unc`. -/
def execEcciUnc (h : Pfx) (r : FmtE) (s : State) : Out :=
  systemWord s h (.ecciUnc h r) (fun e => [rdS e r.a.toNat, rdS e r.b.toNat]) (ecciCheck s)

/-! ### Taking effect -/

/-- R316, R317, R321: instructions that first perform every earlier access of the issuing group. -/
def systemReleases : Instr → Bool
  | .atp _ _ => false
  | .lcinv _ _ => false
  | .lcinvAll _ _ => false
  | .ecciCorr _ _ => false
  | .ecciUnc _ _ => false
  | _ => true

/-- An earlier access of the issuing group is still open. -/
def groupOpen (s : State) (o : Op) : Bool :=
  s.ops.any (fun q => q.2.agent == o.agent && decide (q.2.seq < o.seq) &&
    q.2.parts.any (fun p => partOpen p && (lanesOf o.active).any (partOf q.2 p)))

/-- R317: the guest that a `TLBI` names: the issuer's own at S. -/
def tlbiVmid (s : State) (o : Op) (v : DWord) : BitVec 8 := if o.level == .s then (ctxOf s o.ctx).vmid else v.setWidth 8

/-- The TLB entry through which a run of an access of an op has been translated. -/
def usedEntry (s : State) (o : Op) (g : Seg) : TlbEntry :=
  let t := spaceOf s o.ctx o.level
  { place := o.core, vmid := t.vmid, asid := t.asid, user := t.level == .u, vbase := g.va - g.va % 2 ^ g.x.size, x := g.x }

/-- The first number that names a burst of a command, and not a lane, among the accesses that a removal waits for. -/
def burstNumber : Nat := 64

/-- The parts (op and lane) that have translated through an entry of a kind and are not performed, and the bursts of handler reads of the guest that
have been requested and have not landed. -/
def usersOf (s : State) (vmid : Option (BitVec 8)) (hit : TlbEntry → Bool) : List (Nat × Nat) :=
  s.ops.flatMap (fun q => (q.2.parts.filter (fun p => p.st == .home && (segsOf p (partBytes q.2)).any (fun g => hit (usedEntry s q.2 g)))).map
    (fun p => (q.1, p.lane))) ++
  (s.cmds.filter (fun c => vmid.all (fun v => (ctxOf s c.2.ctx).vmid == v))).flatMap (fun c => c.2.flying.map (fun b => (c.1, burstNumber + b)))

/-- R317: of the accesses that translated through removed entries, those that are still to be performed. A part that waits in its strand for a
parked one translates afresh instead: it cannot be performed before system software has acted (log entry 49). -/
def usersLeft (s : State) (l : List (Nat × Nat)) : List (Nat × Nat) × State :=
  l.foldl (fun acc x =>
    if burstNumber ≤ x.2 then
      (if (aget acc.2.cmds x.1).any (fun c => c.flying.contains (x.2 - burstNumber)) then (acc.1 ++ [x], acc.2) else acc)
    else match aget acc.2.ops x.1 with
    | none => acc
    | some o => match partAt o x.2 with
      | none => acc
      | some p =>
        if p.st != .home || p.xs.isEmpty then acc
        else if (heldParts acc.2 o.agent).any (fun h => h.1.seq == o.seq && h.2.lane == p.lane) then
          (acc.1, modPart acc.2 x.1 x.2 (fun p => { p with st := .walk, xs := [] }))
        else (acc.1 ++ [x], acc.2)) ([], s)

/-- R317: the selected entries of every TLB go. The parts whose accesses through them are still to be performed. -/
def invalidate (s : State) (vmid : Option (BitVec 8)) (sel : TlbEntry → Bool) : List (Nat × Nat) × State :=
  let hit := fun (e : TlbEntry) => vmid.all (fun v => e.vmid == v) && sel e
  let l := usersOf s vmid hit
  usersLeft (match vmid with
    | some v => tlbRemove s hit (some v)
    | none => { s with mem := { s.mem with tlb := s.mem.tlb.filter (fun e => !hit e), walk := [], tables := [] } }) l

/-- An entry serves an ASID (R317, R351). -/
def servesAsid (e : TlbEntry) (asid : BitVec 16) : Bool := e.x.g || e.asid == asid

/-- An entry's virtual page meets a range. -/
def pageMeets (base size lo len : Nat) : Bool := decide (0 < len) && rangesMeet base (2 ^ size) lo len

/-- R317: the stage-1 page from which an entry is derived meets a range of virtual addresses. -/
def virtMeets (e : TlbEntry) (lo len : Nat) : Bool := pageMeets (e.vbase - e.vbase % 2 ^ e.x.size1) e.x.size1 lo len

/-- R317: the stage-2 page from which an entry is derived meets a range of guest-physical addresses. -/
def physMeets (e : TlbEntry) (lo len : Nat) : Bool := pageMeets (e.x.gpa - e.x.gpa % 2 ^ e.x.size2) e.x.size2 lo len

/-- R317: the removal that an instruction makes. -/
def tlbiEffect (s : State) (o : Op) : List (Nat × Nat) × State :=
  let a := o.args.getD 0 0
  let b := o.args.getD 1 0
  let c := o.args.getD 2 0
  match o.instr with
  | .tlbiAsid _ _ => invalidate s (some (tlbiVmid s o b)) (fun e => servesAsid e (a.setWidth 16))
  | .tlbiVm _ _ => invalidate s (some (tlbiVmid s o b)) (fun _ => true)
  | .tlbiS2 _ _ => invalidate s (some (tlbiVmid s o b)) (fun _ => true)
  | .tlbiAll _ _ => invalidate s none (fun _ => true)
  | .tlbir _ _ =>
    invalidate s (some (tlbiVmid s o (o.args.getD 3 0))) (fun e => servesAsid e (c.setWidth 16) && virtMeets e a.toNat b.toNat)
  | _ => invalidate s (some (tlbiVmid s o (o.args.getD 3 0))) (fun e => physMeets e a.toNat b.toNat)

/-- R317: `TLBI` and `TLBIR`: the entries go at once; the instruction completes when the accesses that used them have been performed. What it
waits for stands in the op, once `acted` says that the entries are gone. -/
def tlbiServe (s : State) (id : Nat) (o : Op) : State :=
  match (if o.acted == 0 then tlbiEffect s o else usersLeft s (o.vals.map (fun v => (v.1, v.2.toNat)))) with
  | ([], s1) => partDone s1 id 32 0
  | (l, s1) => modOp s1 id (fun q => { q with acted := 1, vals := l.map (fun x => (x.1, BitVec.ofNat 128 x.2)) })

/-- R319: the status word of an `ATP` that found a translation. LEVEL is that of a leaf of the combined size (DESIGN CHOICE, log entry 74: the rule
does not say which leaf, where those of the two stages stand at different levels). -/
def atpOk (x : Xlat) : Nat :=
  let size := if x.size == 31 then 2 else if x.size == 25 then 1 else 0
  x.key.toNat * 2 ^ 26 + x.memt.toNat * 2 ^ 24 + x.allow.toNat * 2 ^ 21 + x.cls.toNat * 2 ^ 19 + size * 2 ^ 17
    + (if x.size == 31 then 1 else 2) * 2 ^ 14 + 1

/-- R319: the status word of an `ATP` that did not. -/
def atpFault (ftype level : Nat) (s1walk : Bool) : Nat := bitNat s1walk * 2 ^ 16 + level * 2 ^ 14 + ftype * 2 ^ 8

/-- R319: the access kind of an `ATP`. -/
def atpNeed (r : FmtE) : Need := match nbits r.opt.toNat 0 2 with
  | 0 => .read
  | 1 => .write
  | _ => .fetch

/-- How an `ATP` ends: an address with its status word, a status word alone, or a fault of a walk. -/
inductive AtpEnd where
  | found (addr status : Nat)
  | failed (status : Nat)
  | fault (f : WFault)
deriving DecidableEq, Repr

/-- R319 with `.s1`: stage 1 alone. -/
def atpStage1 (s : State) (die : Nat) (t : Space) (va : Nat) (need : Need) : AtpEnd :=
  match (walk1 s die t va).1 with
  | .error f => .fault f
  | .ok l =>
    if refused1 t l need then .failed (atpFault 7 l.lvl false)
    else .found (leafOut l va) (atpOk (combine { t with vmid := 0 } l l (leafOut l va)))

/-- R319, R354, R355: both stages: a permission that either refuses, masks with no tier in common, or the combined values. -/
def atpBoth (s : State) (die : Nat) (t : Space) (va : Nat) (need : Need) : AtpEnd :=
  match (walkPair s die t va false).1 with
  | .error f => .fault f
  | .ok p =>
    if refused1 t p.l1 need then .failed (atpFault 7 p.l1.lvl false)
    else if t.vmid != 0 && !permits p.l2.ent need then .failed (atpFault 7 p.l2.lvl false)
    else if noTier t p then .failed (atpFault 2 p.l2.lvl false)
    else let x := combine t p.l1 p.l2 p.gpa
      .found (xlatOut x va) (atpOk x)

/-- R319: `ATP` is performed: nothing of the state of translation changes. An address at or above 2^56 is answered like one in a window (DESIGN
CHOICE, log entry 74: the rule gives it no result). -/
def atpServe (s : State) (id : Nat) (o : Op) (r : FmtE) : State :=
  let va := (o.args.getD 0 0).toNat
  let t := spaceOf s o.ctx o.level
  let die := dieOf o.core
  let done := fun (addr st : Nat) => partDone s id 32 (addr % 2 ^ 52 + st * 2 ^ 64)
  if isWindow va || 2 ^ 56 ≤ va then done 0 (atpFault 1 0 false)
  else if walkersLeft s die == 0 then s
  else match (if r.opt.getLsbD 2 then atpStage1 s die t va (atpNeed r) else atpBoth s die t va (atpNeed r)) with
    | .found addr st => done addr st
    | .failed st => done 0 st
    | .fault f =>
      if f.type == 16 then s
      else if f.type == 18 then lateTrap s id o [32] .uncorrectable va f.esrc
      else if o.level == .s && f.type == 2 then postFaults (faultPart s id o 32 va f) o.ctx
      else done 0 (atpFault f.type f.level f.s1walk)

/-- The bits of an entry that system software's changes show in (R388): all but the hint, the pins and the counters. -/
def ownBits (e : BitVec 128) : BitVec 128 := e &&& 0xFF07FFFFFFFF

/-- R388, R390: the entry that software's change makes of that of the agent which serves the page: a new guest's entry, or one that is freed, as
software wrote it; otherwise with the counters, pins and hint that the agent holds. -/
def changedEntry (e t : BitVec 128) : BitVec 128 :=
  if peVmid t != peVmid e || peState t != 0 then t else ownBits t ||| (e &&& ~~~(ownBits (BitVec.allOnes 128)))

/-- R320, R388, R390: a page leaves the location caches; the agent that serves it takes what software has changed in the table, but in STATE 1 to
3, where its own entry stands and the change is discarded. -/
def lcinvPage (s : State) (page : Nat) : State :=
  let s1 := locDrop s page
  match aget s1.mem.pages page with
  | none => s1
  | some e =>
    let t := pltRead s1 page
    if ownBits e == ownBits t then s1
    else if 1 ≤ peState e && peState e ≤ 3 then pltWrite s1 page e
    else
      let n := changedEntry e t
      let s2 := pltWrite s1 page n
      if peState n == 0 then setPageEntry s2 page n else { s2 with mem := { s2.mem with pages := adel s2.mem.pages page } }

/-- R320: the pages of a range that a cache or an agent holds anything of. -/
def heldPages (s : State) (lo hi : Nat) : List Nat :=
  ((s.mem.loc.map (fun e => e.page) ++ s.mem.pages.map (fun p => p.1)).filter (fun p => decide (lo ≤ p) && decide (p < hi))).dedup

/-- R320: `LCINV` over a range. -/
def lcinvRange (s : State) (base len : Nat) : State :=
  if len == 0 then s else (heldPages s (base / 2 ^ 19) ((base + len + 2 ^ 19 - 1) / 2 ^ 19)).foldl lcinvPage s

/-- R321: `NOTIFYW`. -/
def notifyEffect (s : State) (o : Op) : Nat × State :=
  let q := (o.args.getD 0 0).toNat
  if 64 ≤ q || (o.level == .s && (ctxOf s (queueCtx s q)).vmid != (ctxOf s o.ctx).vmid) then (2, s)
  else (0, qwrTake s q ((o.args.getD 1 0).setWidth 32))

/-- R323: an injected error, in place of an earlier one of the same word. -/
def injectErr (s : State) (x : HwErr) : State :=
  { s with mem := { s.mem with errs := s.mem.errs.filter (fun y => y.place != x.place) ++ [x] } }

/-- R323: an injected error in a word of memory, or of a dirty L2 line. -/
def injectMem (s : State) (spa : Nat) (unc inL2 : Bool) : State :=
  let w := spaLoc s spa / 8
  { s with mem := { s.mem with inject := s.mem.inject.filter (fun p => !(p.1 == w && p.2.2 == inL2)) ++ [(w, unc, inL2)] } }

/-- R323, R374: `ECCI` takes effect; a clean or absent L2 line is fetched again, so an error there is never seen. Its address needs any one of R, W
and X, a translation that faults parks it, one that is refused is a late trap, and A and D are not set (DESIGN CHOICE, log entry 89). -/
def ecciServe (s : State) (id : Nat) (o : Op) (unc : Bool) : State :=
  let i := (o.args.getD 1 0).toNat
  match (o.args.getD 0 0).toNat with
  | 0 => partDone (injectErr s { place := .spm o.block (i / 8), unc := unc }) id 32 0
  | 1 => partDone (injectErr s { place := .reg o.agent (nbits i 0 8), unc := unc }) id 32 0
  | k =>
    match agentTranslate s o.core (spaceOf s o.ctx o.level) i .any false with
    | (.fault f, s1) => postFaults (faultPart s1 id o 32 i f) o.ctx
    | (.refused, s1) => lateTrap s1 id o [32] .accessViolation i 0
    | (.conflict, s1) => lateTrap s1 id o [32] .translationConflict i 0
    | (.guarded, s1) => lateTrap s1 id o [32] .accessViolation i 0
    | (.lost e, s1) => lateTrap s1 id o [32] .uncorrectable i e
    | (.busy, s1) => s1
    | (.ok x, s1) =>
      let spa := xlatOut x i
      let dirty := match aget s1.mem.dir (spa / 128) with
        | some (.m _) => true
        | _ => (swCopy s1 (dieOf o.core) (spa / 128)).elim false (fun c => c.dirty != 0)
      if noWord s1 o.ctx spa then lateTrap s1 id o [32] .accessViolation i 0
      else partDone (if k == 3 then injectMem s1 spa unc false else if dirty then injectMem s1 spa unc true else s1) id 32 0

/-- R316: the call record of a `SYSC` whose release has gone out. -/
def syscPost (s : State) (id : Nat) (o : Op) (r : FmtE) : State :=
  if s.hub.calls.any (fun c => c.op == id) then s
  else
    let c : SysCall :=
      { id := id, op := id, level := o.level, code := r.opt, arg := o.args.getD 0 0, ctx := o.ctx, pc := o.pc, place := none }
    { s with hub := { s.hub with calls := s.hub.calls ++ [c] } }

/-- A system instruction takes effect. -/
def systemEffect (s : State) (id : Nat) (o : Op) : State :=
  match o.instr with
  | .sysc _ r => syscPost s id o r
  | .atp _ r => atpServe s id o r
  | .lcinv _ _ => partDone (lcinvRange s (o.args.getD 0 0).toNat (o.args.getD 1 0).toNat) id 32 0
  | .lcinvAll _ _ => partDone ((heldPages s 0 (2 ^ 33)).foldl lcinvPage s) id 32 0
  | .notifyw _ _ => match notifyEffect s o with
    | (v, s1) => partDone s1 id 32 v
  | .ecciCorr _ _ => ecciServe s id o false
  | .ecciUnc _ _ => ecciServe s id o true
  | _ => tlbiServe s id o

/-- R317: a range instruction of length 0 completes at once. -/
def emptyRange (o : Op) : Bool := match o.instr with
  | .tlbir _ _ => o.args.getD 1 0 == 0
  | .tlbirS2 _ _ => o.args.getD 1 0 == 0
  | _ => false

/-- A system instruction that may go on: after its replay list, and where it releases after the accesses of its group and the updates they
sent. -/
def systemServe (s : State) (id : Nat) (o : Op) (p : Part) : State :=
  if p.st != .home || !partReady s o p then s
  else if emptyRange o then partDone s id 32 0
  else if systemReleases o.instr then
    (if groupOpen s o then s
     else match releaseStep s o.core o.block 5 with
       | (true, s1) => s1
       | (false, s1) => systemEffect s1 id o)
  else systemEffect s id o

/-- SYSTEM_INSTRUCTION_COMPLETE (R314): the instruction takes effect, and completes if nothing of it is left. -/
def execSystemInstructionComplete (op : Nat) (s : State) : Out :=
  match aget s.ops op with
  | none => .next s
  | some o =>
    if kindOf o.instr != .system then .next s
    else
      let s1 := match partAt o 32 with
        | some p => systemServe s op o p
        | none => s
      match aget s1.ops op with
      | some q => .next (if completable s1 q then completeOp s1 op q else s1)
      | none => .next s1

end Sys2Proof.Machine
end

