-- ==== Sys2Proof/Machine/Launch.lean ====
section
/-! DEFINITION. Launches: what a core has free (R41), the placement of blocks, teams and cooperative launches (R44, R46, R339 to R341), child
merging (R338), the start of cohorts (R79), and retirement (R53). -/

namespace Sys2Proof.Machine

/-! ### Launch packets (R333) -/

/-- R333, R41: the needs that a launch packet states. -/
def pktNeeds (p : BitVec 512) : Needs :=
  { cohorts := pfld p 70 6, regs := 8 * pfld p 64 6, scratch := pfld p 76 9, acc := pfld p 85 5, shapes := pfld p 90 6
    events := pfld p 96 7, cbooks := pfld p 103 4 }

/-- R333: team size. -/
def pktTeam (p : BitVec 512) : Nat := pfld p 12 2 + 1
/-- R333: priority. -/
def pktPrio (p : BitVec 512) : Nat := pfld p 10 2
/-- R333: COOP. -/
def pktCoop (p : BitVec 512) : Nat := pfld p 14 2
/-- R333: DIE. -/
def pktDie (p : BitVec 512) : Nat := pfld p 17 2
/-- R333: the entry clause. -/
def pktEntry (p : BitVec 512) : DWord := BitVec.ofNat 64 (pfld p 128 56)
/-- R333: the argument block. -/
def pktArgs (p : BitVec 512) : Nat := pfld p 192 56

/-- R306: the level of a code. -/
def levelOfNum : Nat → Level
  | 0 => .u
  | 1 => .s
  | 2 => .h
  | _ => .f

/-! ### What a core has free (R41) -/

/-- The blocks of a core. -/
def blocksOn (s : State) (core : Nat) : List (Nat × Block) := s.blocks.filter (fun p => p.2.core == core)

/-- The cohorts of a core that hold their slots: a retired one holds none (R53). -/
def cohortsOn (s : State) (core : Nat) : List (Nat × Agent) := s.agents.filter (fun p => p.2.kind == .cohort && p.2.core == core)

/-- A sum over a list. -/
def sumOf {α : Type} (f : α → Nat) (l : List α) : Nat := l.foldl (fun n x => n + f x) 0

/-- R41: the needs of `k` like blocks are free on a core. -/
def fitsTimes (s : State) (core : Nat) (n : Needs) (k : Nat) : Bool :=
  let bs := blocksOn s core
  let cs := cohortsOn s core
  let free := fun (used want limit : Nat) => decide (used + k * want ≤ limit)
  free bs.length 1 Config.coreBlocks && free cs.length n.cohorts Config.cohortSlots &&
    free (sumOf (fun p => p.2.alloc) cs) (n.cohorts * n.regs) Config.coreRegs &&
    free (sumOf (fun p => p.2.needs.scratch) bs) n.scratch 256 && free (sumOf (fun p => p.2.needs.acc) bs) n.acc 16 &&
    free (sumOf (fun p => p.2.needs.shapes) bs) n.shapes 32 && free (sumOf (fun p => p.2.needs.events) bs) n.events 64 &&
    free (sumOf (fun p => p.2.needs.cbooks) bs) n.cbooks 8

/-- R41: the needs of a block are free on a core. -/
def fitsOn (s : State) (core : Nat) (n : Needs) : Bool := fitsTimes s core n 1

/-- How many more blocks of some needs a core has room for. -/
def roomOn (s : State) (core : Nat) (n : Needs) : Nat := ((List.range Config.coreBlocks).filter (fun k => fitsTimes s core n (k + 1))).length

/-- R340: the scheduler of a core with the most free slots, the lowest-numbered of equals. -/
def freeSched (s : State) (core : Nat) : Nat :=
  let used := fun k => ((cohortsOn s core).filter (fun p => p.2.sched == k)).length
  [1, 2, 3].foldl (fun best k => if used k < used best then k else best) 0

/-- The lowest run of `n` vector registers of a core that no cohort holds. -/
def freeRun (s : State) (core n : Nat) : Option Nat :=
  let held := (cohortsOn s core).map (fun p => (p.2.first, p.2.alloc))
  let ok := fun b => decide (b + n ≤ Config.coreRegs) && !held.any (fun r => decide (r.1 < b + n) && decide (b < r.1 + r.2))
  ((List.range 512).map (fun i => 8 * i)).find? ok

/-- The runs of a core's cohorts are moved together, in their order. -/
def packRegs (s : State) (core : Nat) : State :=
  let cs := cohortsOn s core
  let below := fun (ag : Agent) => sumOf (fun p => if p.2.first < ag.first then p.2.alloc else 0) cs
  { s with agents := s.agents.map (fun p => if p.2.kind == .cohort && p.2.core == core then (p.1, { p.2 with first := below p.2 }) else p) }

/-- The run of vector registers that a new cohort of a core takes: the lowest that is long enough; where the free registers are no such run, the
others' are first moved together (DESIGN CHOICE, log entry 27: R41 asks only that as many are free). -/
def freeRegs (s : State) (core n : Nat) : Nat × State := match freeRun s core n with
  | some b => (b, s)
  | none => ((sumOf (fun p => p.2.alloc) (cohortsOn s core)), packRegs s core)

/-! ### The start of a cohort (R79) -/

/-- A fault of a cohort's argument read: every strand parks before its first issue; the record names the entry clause. -/
def argsFault (s : State) (a : Nat) (ag : Agent) (entry : DWord) (va : Nat) (w : WFault) : State :=
  let f : FaultReq :=
    { type := w.type, ctx := ag.ctx, va := va, gpa := w.gpa, level := w.level, perm := w.perm, malf := w.malf, s1walk := w.s1walk
      fetch := false, write := false, ladle := false, engine := false, core := ag.core, slot := slotOf ag
      queue := agentQueue s ag, pc := entry, lanes := 0xFFFFFFFF, burst := 0, nburst := 0 }
  match newGroup s f (fun gid => { FaultGroup.of gid f with ops := allLanes.map (fun l => (0, l)), fetch := some a }) with
  | (_, s1) => postFaults (modAgent s1 a (fun ag => allLanes.foldl parkLane ag)) ag.ctx

/-- R79: the arguments that a cohort starts with. -/
def withArgs (g : Regs) (args : Nat) (bs : List Byte) : Regs :=
  let word := fun i => BitVec.ofNat 64 (ofBytes ((bs.drop (8 * i)).take 8))
  { g with s := (List.range 6).foldl (fun m i => sset m (i + 1) (word i)) (sset g.s 7 (BitVec.ofNat 64 args)) }

/-- COHORT_START (R79, R136): a cohort starts with an acquire and reads its arguments, parks, traps, or waits to read them. -/
def startCohort (s0 : State) (a : Nat) : State :=
  let s := acquireBy s0 4 (fun b _ => b == a)
  match aget s.agents a with
  | none => s
  | some ag =>
    let p := (blockOf s ag).elim 0 (fun b => packetOf s b)
    let args := pktArgs p
    let entry := pktEntry p
    let go := fun (s : State) (g : Regs) => modAgent s a (fun ag => { ag with regs := g, started := true })
    if ag.started || !ag.traps.isEmpty || eligible ag == 0 then s
    else if args == 0 then go s ag.regs
    else
      let w : Who := { core := ag.core, ctx := ag.ctx, level := ag.level, block := ag.block }
      let trap := fun (s : State) (c : TrapCode) (e : Nat) =>
        (postTrap s a { TrapReq.of c 2 0 entry 0xFFFFFFFF 0xFFFFFFFF with addr := args, esrc := e }).2
      match reach s w args 48 .read with
      | (.fault va f, s1) => argsFault s1 a ag entry va f
      | (.trap c e, s1) => trap s1 c e
      | (.wait, s1) => s1
      | (r, s1) => match takeBytes s1 w 48 r with
        | (got, s2) => match got.bad with
          | some e => trap s2 .uncorrectable e
          | none => go s2 (withArgs ag.regs args got.bytes)

/-- A new cohort of a block (R28, R79). -/
def newCohort (s : State) (bid : Nat) (b : Block) (p : BitVec 512) (i : Nat) : State :=
  match freshId s with
  | (a, s0) =>
    let (first, s1) := freeRegs s0 b.core b.needs.regs
    let entry := pktEntry p
    let regs : Regs := { Regs.zero with pcv := allLanes.foldl (fun m l => sset m l entry) [] }
    let ag : Agent :=
      { kind := .cohort, core := b.core, home := b.home, sched := freeSched s1 b.core, block := bid, ctx := b.ctx
        level := levelOfNum (pfld p 8 2), index := i, alloc := b.needs.regs, first := first
        age := bid * 64 + i, prio := pktPrio p, regs := regs, flags := [], lanes := List.replicate 32 .ready, count := 0, prevSet := 0
        skip := 0, yielded := false, traps := [], bara := [], ladle := LadleData.none, hub := HubData.reset, started := false
        issue := none }
    putAgent s1 a ag

/-- A block is placed on a core (R41): its resources read zero, its cohorts take their slots. -/
def placeBlock (s : State) (l core child linear : Nat) (p : BitVec 512) (ctx : Nat) : State :=
  match freshId s with
  | (bid, s1) =>
    let b : Block :=
      { launch := l, child := child, linear := linear, core := core, home := core, ctx := ctx, team := linear / pktTeam p
        needs := pktNeeds p, spm := [], acc := [], sh := [], cb := [], ec := [], mst := 0, bconf := 0, poison := [], retired := [] }
    (List.range b.needs.cohorts).foldl (fun s i => newCohort s bid b p i) { s1 with blocks := aset s1.blocks bid b }

/-- R443: a block of a packet is placed on a core: record mode notes the core's `clk` with the packet's entry, replay mode raises the
context's offset so that no `clk` that the context reads there is below the recorded one (R76). -/
def noteClock (s : State) (q core ctx pos : Nat) : State :=
  match s.hub.packets.find? (fun p => p.queue == q && p.pos == BitVec.ofNat 32 pos) with
  | none => s
  | some p =>
    let x := queueOf s q
    let place := recBuffer x + 1024 * (p.entry - 1) + 72 + 8 * core
    if p.entry == 0 then s
    else match recMode x with
      | 1 => sigWrite s place (toBytes (clockOf s core ctx s.cycles).toNat 8)
      | 2 => (match hubRead s 0 place 8 with
        | (bs, s1) =>
          let c := ctxOf s1 ctx
          let ofs := ofBytes bs - ((Config.clkStart core).toNat + s1.cycles)
          putCtx s1 ctx { c with clkOfs := BitVec.ofNat 64 (max c.clkOfs.toNat ofs) })
      | _ => s

/-! ### Where a block may go (R339 to R341) -/

/-- The place of the next block of a launch in its grid: its child and its linear id there. -/
def childAt (l : List (Nat × BitVec 512)) (k n : Nat) : Option (Nat × Nat × BitVec 512) :=
  match l with
  | [] => none
  | c :: t => if n < pktBlocks c.2 then some (k, n, c.2) else childAt t (k + 1) (n - pktBlocks c.2)

/-- All blocks of a launch. -/
def gridBlocks (l : Launch) : Nat := sumOf (fun c => pktBlocks c.2) l.children

/-- The packet that stands for a launch: its children agree in all that the dispatcher reads (R49). -/
def launchPkt (l : Launch) : BitVec 512 := (l.children.head?.map (fun c => c.2)).getD 0

/-- The partition of a launch: that of its context. -/
def launchPart (s : State) (l : Launch) : Nat := ctxPart s l.ctx

/-- A quarter is in a merge or split (R430): no block goes there. -/
def quarterBusy (s : State) (q : Nat) : Bool := s.hub.partCfg.getLsbD (4 + q)

/-- R340, R415: a core that a launch may use: of its context's partition, on the die that DIE allows, outside a changing quarter. -/
def coreAllowed (s : State) (l : Launch) (core : Nat) : Bool :=
  let d := pktDie (launchPkt l)
  corePart s core == launchPart s l && (d == 0 || dieOf core == d) && !quarterBusy s (coreQuarter core)

/-- R341: a cooperative launch that started earlier, of this priority or above, and waits to be placed whole, keeps a core. -/
def coreReserved (s : State) (l : Launch) (core : Nat) : Bool :=
  s.hub.launches.any (fun p =>
    let m := p.2
    m.started && pktCoop (launchPkt m) != 0 && m.placed == 0 && m.order < l.order && pktPrio (launchPkt l) ≤ pktPrio (launchPkt m) &&
      coreAllowed s m core)

/-- R340: the core for a block: the fewest resident cohorts, the lowest number of equals. -/
def bestCore (s : State) (cores : List Nat) (n : Needs) : Option Nat :=
  (cores.filter (fun c => fitsOn s c n)).foldl (fun best c => match best with
    | none => some c
    | some d => if (cohortsOn s c).length < (cohortsOn s d).length then some c else some d) none

/-- R44, R340: the quad for a team of `t` blocks: the most free cohort slots, the lowest number of equals; in it the cores with room
for the most such blocks, the lowest numbers of equals (DESIGN CHOICE, log entry 27), which leaves room for as many teams as can be (R46). -/
def bestQuad (s : State) (cores : List Nat) (n : Needs) (t : Nat) : Option (List Nat) :=
  let room := fun c => roomOn s c n
  let fitting := fun g => (cores.filter (fun c => gquad c == g && fitsOn s c n)).insertionSort (fun a b => room b ≤ room a)
  let free := fun g => 4 * Config.cohortSlots - sumOf (fun c => (cohortsOn s c).length) ((List.range Config.cores).filter (fun c => gquad c == g))
  let quads := (List.range 20).filter (fun g => decide (t ≤ (fitting g).length))
  (quads.foldl (fun best g => match best with
    | none => some g
    | some b => if free b < free g then some g else some b) none).map (fun g => (fitting g).take t)

/-- R340, R44: where the next `members` blocks of a launch go: a block to its core, a team to a quad where t of its cores fit. The t of a last team
of fewer members is the team size, but in a cooperative launch, which R46 may have found to fit with less, it is the number of its members (DESIGN
CHOICE, log entry 27). -/
def turnCores (s : State) (cores : List Nat) (p : BitVec 512) (members : Nat) : Option (List Nat) :=
  if pktTeam p < 2 then (bestCore s cores (pktNeeds p)).map (fun c => [c])
  else bestQuad s cores (pktNeeds p) (if pktCoop p == 0 then pktTeam p else members)

/-- R339: one turn of a launch on some cores: its next block, or its next whole team. With its first block the launch has started (R142). -/
def placeTurn (s : State) (id : Nat) (l : Launch) (cores : List Nat) : Option State :=
  match childAt l.children 0 l.placed with
  | none => none
  | some (k, n, p) =>
    let t := pktTeam p
    let members := if t < 2 then 1 else min t (pktBlocks p - n)
    (turnCores s cores p members).map (fun cs =>
      let pos := (l.children[k]?.map (fun c => c.1)).getD 0
      let s1 := ((List.range members).zip cs).foldl (fun s x => noteClock (placeBlock s id x.2 k (n + x.1) p l.ctx) l.queue x.2 l.ctx pos) s
      let s2 := if s1.mem.code.contains id then s1 else { s1 with mem := { s1.mem with code := s1.mem.code ++ [id] } }
      { s2 with hub := { s2.hub with launches := aset s2.hub.launches id { l with placed := l.placed + members } } })

/-- Turns of a launch until all its blocks are placed; `none` where one does not fit. -/
def placeWhole (s : State) (id : Nat) (cores : List Nat) : Nat → Option State
  | 0 => none
  | n + 1 => match aget s.hub.launches id with
    | none => none
    | some l =>
      if l.placed == gridBlocks l then some s
      else match placeTurn s id l cores with
        | none => none
        | some s1 => placeWhole s1 id cores n

/-- R46, R340: a cooperative launch placed whole within its scope: one die, or the partition. Where either die has room for it, its first block or
team decides, which goes where R340 sends it. -/
def placeCoop (s : State) (id : Nat) (l : Launch) (cores : List Nat) : Option State :=
  let n := gridBlocks l
  let p := launchPkt l
  let on := fun d => placeWhole s id (cores.filter (fun c => dieOf c == d)) (n + 1)
  if Config.cores * Config.coreBlocks < n then none
  else if pktCoop p == 1 then
    (match on 1, on 2 with
     | some a, some b => if ((turnCores s cores p (min (pktTeam p) (pktBlocks p))).bind (·.head?)).any (fun c => dieOf c == 2) then some b else some a
     | some a, none => some a
     | none, b => b)
  else placeWhole s id cores (n + 1)

/-- The package with no other work present, for a check of one launch. -/
def bareWith (s : State) (l : Launch) : State := { s with blocks := [], agents := [], hub := { s.hub with launches := [(0, l)] } }

/-- The cores of a launch's partition on the die that DIE allows (R46, R415). -/
def scopeCores (s : State) (l : Launch) : List Nat :=
  let d := pktDie (launchPkt l)
  (List.range Config.cores).filter (fun c => corePart s c == launchPart s l && (d == 0 || dieOf c == d))

/-- R46: all blocks of a cooperative launch could be resident at once, with no other work present. -/
def coopFits (s : State) (l : Launch) : Bool := (placeCoop (bareWith s l) 0 l (scopeCores s l)).isSome

/-- R331: a block of a launch fits a core of its partition, or its team a quad, with no other work present. -/
def blockFits (s : State) (l : Launch) : Bool := (placeTurn (bareWith s l) 0 l (scopeCores s l)).isSome

/-! ### Child merging (R338) -/

/-- R49: what the packets of merged launches agree in: all but the grid, the arguments, the signal and the tag. -/
def mergeKey (p : BitVec 512) : Nat × Nat × Nat := (pfld p 0 16, pfld p 17 111, pfld p 128 56)

/-- R338: two launches may become one grid. -/
def mergeable (l m : Launch) (lastPos : Nat) : Bool :=
  m.queue == l.queue && !m.host && !l.host && m.placed == 0 && l.placed == 0 && m.started && mergeKey (launchPkt l) == mergeKey (launchPkt m) &&
    pktCoop (launchPkt l) == 0 && (m.children.head?.map (fun c => c.1)) == some ((lastPos + 1) % 2 ^ 32) &&
    decide (gridBlocks l + gridBlocks m ≤ 4096) && decide (l.children.length + m.children.length ≤ 256)

/-- CHILD_MERGE (R338, R49): the consecutive compatible child launches of a queue join the first, before a block of any is placed. -/
def mergeChildren (s : State) (id : Nat) : Nat → State
  | 0 => s
  | n + 1 => match aget s.hub.launches id with
    | none => s
    | some l =>
      let last := (l.children.getLast?.map (fun c => c.1)).getD 0
      match s.hub.launches.find? (fun p => p.1 != id && mergeable l p.2 last) with
      | none => s
      | some (j, m) =>
        let ls := adel (aset s.hub.launches id { l with children := l.children ++ m.children }) j
        mergeChildren { s with hub := { s.hub with launches := ls } } id n

/-! ### DISPATCH_PLACEMENT (R339) -/

/-- R379, R382: the context of a launch is being saved, is saved or is being restored: nothing of it is placed. -/
def ctxStopped (s : State) (ctx : Nat) : Bool := savingCtx s ctx || s.hub.saved.any (fun x => x.ctx == ctx)

/-- A launch whose turn may come: started, not fully placed, and the first such of its queue among those of its priority or above. -/
def mayPlace (s : State) (p : Nat × Launch) : Bool :=
  let l := p.2
  l.started && decide (l.placed < gridBlocks l) && !ctxStopped s l.ctx &&
    !s.hub.launches.any (fun q => q.2.queue == l.queue && q.2.started && decide (q.2.order < l.order) &&
      decide (q.2.placed < gridBlocks q.2) && decide (pktPrio (launchPkt l) ≤ pktPrio (launchPkt q.2)))

/-- R339: the launches that may be placed, in the order in which they are tried: by priority, then the queues in rotation, from one pointer for
all priorities (DESIGN CHOICE, log entry 75). -/
def placeOrder (s : State) : List Nat :=
  let c := s.hub.launches.filter (mayPlace s)
  [3, 2, 1, 0].flatMap (fun prio =>
    (List.range 64).flatMap (fun i =>
      let q := (s.hub.rot + i) % 64
      (c.filter (fun p => p.2.queue == q && pktPrio (launchPkt p.2) == prio)).map (fun p => p.1)))

/-- One try: the merged children of a launch, then its next turn. -/
def tryPlace (s : State) (id : Nat) : Option State :=
  let s1 := match aget s.hub.launches id with
    | some l => if l.placed == 0 then mergeChildren s id 256 else s
    | none => s
  match aget s1.hub.launches id with
  | none => none
  | some l =>
    let cores := (List.range Config.cores).filter (fun c => coreAllowed s1 l c && !coreReserved s1 l c)
    if pktCoop (launchPkt l) == 0 then placeTurn s1 id l cores else placeCoop s1 id l cores

/-- Starts every cohort that has not started (R79). -/
def startAll (s : State) : State := s.agents.foldl (fun s p => if p.2.started then s else startCohort s p.1) s

/-- DISPATCH_PLACEMENT (R339): the first launch in order whose turn fits is served; the rotation goes on behind its queue. -/
def execDispatchPlacement (s : State) : Out :=
  match (placeOrder s).findSome? (fun id => (tryPlace s id).map (fun t => (id, t))) with
  | none => .next s
  | some (id, t) =>
    let q := (aget t.hub.launches id).elim 0 (fun l => l.queue)
    .next (startAll { t with hub := { t.hub with rot := (q + 1) % 64 } })

/-! ### Retirement (R53) -/

/-- COHORT_RETIRE (R53): a cohort whose strands have exited and whose writes are accepted frees its slot and registers. -/
def cohortRetire (s : State) (a : Nat) : State :=
  match aget s.agents a with
  | none => s
  | some ag =>
    if ag.kind == .cohort && allExited ag && ag.traps.isEmpty && ag.issue.isNone && storesDone s a then
      evalBarriers (dropAgent (modBlock s ag.block (fun b => { b with retired := b.retired ++ [ag.index] })) a)
    else s

/-- COHORT_RETIRE (R53, R212). -/
def execCohortRetire (agent : Nat) (s : State) : Out := .next (cohortRetire s agent)

/-- R50, R53: an instruction in flight that is still to become a command or a launch bound to a counter of its block: a `CBLD` in its read, or a
`PUSH` with a counter that has been accepted and waits for its release. -/
def becomesWork (o : Op) : Bool := o.parts.any partOpen &&
  (isCommand o.instr || (kindOf o.instr == .push && pushEc o != 255 && (o.args.getD 0 0 == 0 || o.args.getD 0 0 == 4)))

/-- R53, R50: a block may retire. -/
def mayRetire (s : State) (bid : Nat) : Bool :=
  !s.agents.any (fun p => p.2.block == bid && p.2.kind != .hubThread) && !s.cmds.any (fun p => p.2.block == bid) &&
    !s.ops.any (fun p => p.2.block == bid && becomesWork p.2) &&
    !s.hub.defers.any (fun d => d.block == bid && !d.ready)

/-- The subscriptions of a block end, and its publications after its update buffer has been flushed (R53, R286). -/
def endSharing (s : State) (bid : Nat) : State :=
  let core := coreOf s bid
  let s1 := sendUpdates s (fun e => e.core == core && e.block == bid)
  let s2 := (s1.mem.subs.filter (fun x => x.block == bid)).foldl (fun s x => endSub s bid x.index) s1
  { s2 with mem := { s2.mem with subs := s2.mem.subs.map (fun x => if x.pblock == bid then { x with ended := true } else x) } }

/-- What a completing launch carries out as a release at `sys` (R53, R133, R139): the partials of its context merge, which its class pays for
(R422), and the updates on their way are applied. -/
def releaseSys (s : State) (ctx : Nat) : State :=
  let who := fun (c : Nat) => { dieAsker (dieOf c) with cls := some (classOf s ctx) }
  let s1 := (List.range Config.cores).foldl (fun s c => mergeFor (who c) s c (fun e => e.ctxs.contains ctx)) s
  let s2 := sendUpdates s1 (fun e => (aget s1.blocks e.block).elim true (fun b => b.ctx == ctx))
  s2.mem.sent.foldl applyUpdate s2

/-- The packet of a queue at a position ends with a status; its completion is still to be signalled (R330). -/
def endPacket (s : State) (q : Nat) (pos : BitVec 32) (status detail : Nat) : State :=
  { s with hub := { s.hub with packets := s.hub.packets.map (fun p =>
      if p.queue == q && p.pos == pos && p.st < 2 then { p with st := 2, status := status, detail := detail } else p) } }

/-- R142: nothing is kept for the fetches of a launch any more. -/
def dropCode (m : MemSys) (id : Nat) : MemSys :=
  { m with code := m.code.filter (fun c => c != id), old := m.old.filter (fun o => o.launch != id) }

/-- LAUNCH_COMPLETE (R53, R338): a block of a child has retired; a child whose blocks have all retired completes, and the launch with the
last of them. -/
def launchRetire (s : State) (id child : Nat) : State :=
  match aget s.hub.launches id with
  | none => s
  | some l =>
    let l1 := { l with retired := l.retired ++ [child] }
    let s1 := { s with hub := { s.hub with launches := aset s.hub.launches id l1 } }
    match l1.children[child]? with
    | none => s1
    | some (pos, p) =>
      if (l1.retired.filter (fun c => c == child)).length < pktBlocks p then s1
      else
        let s2 := endPacket (releaseSys s1 l.ctx) l.queue (BitVec.ofNat 32 pos) 0 0
        let l2 := { l1 with doneKids := l1.doneKids ++ [child] }
        if l2.doneKids.length == l2.children.length then
          { s2 with hub := { s2.hub with launches := adel s2.hub.launches id }
                    mem := dropCode s2.mem id
                    bars := s2.bars.filter (fun b => b.scope == 1 || b.owner / 2 ^ 40 != id) }
        else { s2 with hub := { s2.hub with launches := aset s2.hub.launches id l2 } }

/-- BLOCK_RETIRE (R53): sharing ends, the resources are free, and the launch counts the block. -/
def blockRetire (s : State) (bid : Nat) : State :=
  match aget s.blocks bid with
  | none => s
  | some b =>
    if !mayRetire s bid then s
    else
      let s1 := endSharing s bid
      let s2 := { s1 with blocks := adel s1.blocks bid, bars := s1.bars.filter (fun x => !(x.scope == 1 && x.owner == bid)) }
      launchRetire (evalBarriers s2) b.launch b.child

/-- BLOCK_RETIRE (R53). -/
def execBlockRetire (block : Nat) (s : State) : Out := .next (blockRetire s block)

end Sys2Proof.Machine
end

