-- ==== Sys2Proof/Machine/Fetch.lean ====
section
/-! DEFINITION. The issue of clauses: which agent a scheduler picks (R342, R52), which group of it issues (R33, R35), the fetch of its clause
(R158), the checks before any word issues (R175), and the next word of a clause in issue (R34, R183). -/

namespace Sys2Proof.Machine

/-! ### Groups (R33, R35) -/

/-- The lanes of a set that stand at an address. -/
def lanesAt (ag : Agent) (l : LaneSet) (pc : DWord) : LaneSet := laneSet ((lanesOf l).filter (fun i => regPc ag.regs i == pc))

/-- The least address at which a lane of a set stands. -/
def minPc (ag : Agent) (l : LaneSet) : DWord :=
  (lanesOf l).foldl (fun m i => if regPc ag.regs i < m then regPc ag.regs i else m) (regPc ag.regs (lowLane l))

/-- R35: the group of an agent's next issue step, its address, and the rotation count that the step leaves. -/
def issueGroup (ag : Agent) : LaneSet × DWord × Nat :=
  let e := eligible ag
  let m := minPc ag e
  let g := lanesAt ag e m
  let rest := e &&& ~~~g
  if rest == 0 then (g, m, 0)
  else if g == ag.prevSet && ag.count == 256 then
    (let m2 := minPc ag rest
     (lanesAt ag e m2, m2, 0))
  else (g, m, if g == ag.prevSet then ag.count + 1 else 1)

/-! ### Fetch (R158) -/

/-- What a fetch of bytes finds. -/
inductive Fetched where
  | bytes (l : List Byte)
  | fault (va : Nat) (f : WFault)
  | trap (code : TrapCode) (esrc : Nat)
  | wait
deriving DecidableEq, Repr

/-- On whose behalf an agent fetches. -/
def fetchWho (ag : Agent) : Who := { core := ag.core, ctx := ag.ctx, level := ag.level, block := ag.block }

/-- R115: an address of the local or of the peer window. -/
def inWindows (va : Nat) : Bool := match decodeAddr va with
  | .spm _ => true
  | .peer _ _ => true
  | _ => false

/-- The launch for which a block runs; none for a hub thread. -/
def fetchLaunch (s : State) (w : Who) : Option Nat :=
  if w.core < Config.cores then (aget s.blocks w.block).map (fun b => b.launch) else none

/-- R142: the bytes of a run as a launch's fetches see them: a line that was written while it ran, as it stood. -/
def startBytes (s : State) (launch : Option Nat) (spa : Nat) (bs : List Byte) : List Byte :=
  if s.mem.old.isEmpty then bs
  else (linePieces spa bs.length).flatMap (fun p =>
    match s.mem.old.find? (fun o => launch == some o.launch && o.line == p.1 / 128) with
    | some o => (o.data.drop (p.1 % 128)).take p.2
    | none => (bs.drop (p.1 - spa)).take p.2)

/-- R142, R375: the runs of a fetch are read through the instruction cache of the core. -/
def fetchSegs (s : State) (w : Who) : List Seg → Got × State
  | [] => ({ bytes := [], bad := none }, s)
  | g :: t =>
    let (a, s1) := segRead s (whoAsker s w g.x) (l1Code w.core) g
    let (b, s2) := fetchSegs s1 w t
    ({ bytes := startBytes s (fetchLaunch s w) (segSpa g) a.bytes ++ b.bytes, bad := a.bad.orElse (fun _ => b.bad) }, s2)

/-- R158, R420: a fetch of `n` bytes, with a token at each port that it reaches past the instruction cache. The windows of R115 hold no page with X permission (DEDUCED, log entry 21). -/
def fetchBytes (s : State) (w : Who) (va n : Nat) : Fetched × State :=
  if inWindows va then (.trap .accessViolation 0, s)
  else match probe s w va n .fetch with
  | (.spm _ _, s1) => (.trap .accessViolation 0, s1)
  | (.fault a f, s1) => (.fault a f, s1)
  | (.trap c e, s1) => (.trap c e, s1)
  | (.wait, s1) => (.wait, s1)
  | (.mem segs, s1) => match payReach s1 w (reachPorts s1 w (l1Code w.core) .read segs) with
    | (false, s2) => (.wait, s2)
    | (true, s2) => (match fetchSegs s2 w segs with
      | (got, s3) => (match got.bad with
        | some e => .trap .uncorrectable e
        | none => .bytes got.bytes, s3))

/-- The 8-byte words of a list of bytes. -/
def wordsOf (bs : List Byte) : Nat → List DWord
  | 0 => []
  | n + 1 => BitVec.ofNat 64 (ofBytes (bs.take 8)) :: wordsOf (bs.drop 8) n

/-- R158, R363: a fetch faults: every strand of the group parks with an empty replay list, and one group of the whole issuing group is
reported. -/
def fetchFault (s : State) (a : Nat) (ag : Agent) (g : LaneSet) (pc : DWord) (va : Nat) (w : WFault) : State :=
  let f : FaultReq :=
    { type := w.type, ctx := ag.ctx, va := va, gpa := w.gpa, level := w.level, perm := w.perm, malf := w.malf, s1walk := w.s1walk
      fetch := true, write := false, ladle := ag.kind == .ladle, engine := false, core := ag.core, slot := slotOf ag
      queue := agentQueue s ag, pc := pc, lanes := g, burst := 0, nburst := 0 }
  match newGroup s f (fun gid => { FaultGroup.of gid f with ops := (lanesOf g).map (fun l => (0, l)), fetch := some a }) with
  | (_, s1) => postFaults (modAgent s1 a (fun ag => (lanesOf g).foldl parkLane ag)) ag.ctx

/-! ### The checks before issue (R175) -/

/-- R175: the checks of a clause header. -/
def headerCheck (h : Header) : Option TrapCode :=
  if h.mark != 0x3FF then some .clauseFormat
  else if h.rsv != 0 || 6 ≤ h.cls.toNat then some .illegal
  else if h.count == 0 then some .clauseFormat
  else none

/-- R159: the class that a clause must have to hold an opcode; none where any class may. -/
def opClass (op : Nat) : Option Nat :=
  if op < 0x080 then none
  else if op < 0x1C0 then some 0
  else if op < 0x260 then some 1
  else if op == 0x264 || (0x26E ≤ op && op ≤ 0x273) then some 2
  else if op < 0x300 then some 3
  else some 5

/-- R30, R159, R160, R284, R322: instructions that must be the last word of their clause. `NOP`, which R160 excludes from the control instructions that
end a clause, does not end one, so that it may stand before a `HALT` (DEDUCED, log entry 92). -/
def mustBeLast (op : Nat) : Bool :=
  (0x061 ≤ op && op ≤ 0x06B) || op == 0x200 || op == 0x202 || op == 0x203 || op == 0x207 || op == 0x269 || op == 0x308

/-- A system instruction. -/
def isSystem (op : Nat) : Bool := decide (0x300 ≤ op)

/-- The lowest level that may execute an instruction (R312, R315, R317, R322). -/
def minLevel : Instr → Level
  | .tlbiS2 _ _ => .h
  | .tlbiAll _ _ => .h
  | .tlbirS2 _ _ => .h
  | .lcinv _ _ => .h
  | .lcinvAll _ _ => .h
  | .ecciCorr _ _ => .h
  | .ecciUnc _ _ => .h
  | .halt _ _ => .f
  | .movpr _ r => (privLevels r.a.toNat).1.getD .f
  | .movrp _ r => (privLevels r.a.toNat).2.getD .f
  | i => if isSystem (opcodeOf i) then .s else .u

/-- R317, R319: what an instruction at S may not ask for: a guest of its own choice, or an `ATP` through stage 2. -/
def beyondS : Instr → Bool
  | .tlbiAsid _ r => r.d != 0
  | .tlbiVm _ r => r.d != 0
  | .tlbir _ r => r.d != 0
  | .atp _ r => !r.opt.getLsbD 2
  | _ => false

/-- R161, R313 to R323: an instruction that the level of its issuer does not reach. -/
def privilegeBad (ag : Agent) (cls : Nat) (i : Instr) : Bool :=
  (ag.level == .u && cls == 5) || !levelGe ag.level (minLevel i) || (ag.level == .s && beyondS i)

/-- R283: an instruction that a handler region may not hold. -/
def ladleForbids (i : Instr) : Bool :=
  match i with
  | .bar _ _ => true
  | .bara _ _ => true
  | .barw _ _ => true
  | .ecwait _ _ => true
  | .waitva _ _ => true
  | .flushr _ _ => true
  | .invr _ _ => true
  | .shget _ _ => false
  | .subq _ _ => false
  | .lend _ _ => false
  | .lendStop _ _ => false
  | _ => let op := opcodeOf i; decide (0x260 ≤ op) && decide (op < 0x300)

/-- R324: the memory words that a hub thread accepts: mode 0, at most 8 bytes, scalar registers in D and C. -/
def hubMem (r : FmtM) (c : Bool) : Bool :=
  r.am == 0 && decide (mtBytes r.mtype ≤ 8) && decide (r.d.toNat < 64) && (!c || decide (r.c.toNat < 64))

/-- R324: an instruction that a hub thread accepts. -/
def hubAccepts (i : Instr) : Bool :=
  match i with
  | .movsr _ r => r.a == 0x0D || r.a == 0x0E
  | .movrs _ r => r.a == 0x0E
  | .nop _ _ => true
  | .bra _ _ => true
  | .brc _ _ => true
  | .brl _ _ => true
  | .jmpS _ _ => true
  | .trap _ _ => true
  | .brk _ _ => true
  | .ld _ r => hubMem r false
  | .st _ r => hubMem r false
  | .atom _ r => hubMem r false
  | .acas _ r => hubMem r true
  | .fence _ _ => true
  | .wakeva _ r => hubMem r false
  | _ => let op := opcodeOf i; decide (op < 0x048) || isSystem op

/-- R75, R284, R316, R324: an instruction that is illegal for its issuer. -/
def illegalFor (ag : Agent) (i : Instr) : Bool :=
  match ag.kind with
  | .hubThread => !hubAccepts i || (match i with | .sysc _ _ => ag.level == .f | _ => false)
  | .ladle => false
  | .cohort => match i with
    | .movsr _ r => decide (0x11 ≤ r.a.toNat) && decide (r.a.toNat ≤ 0x14)
    | .lend _ _ => true
    | .lendStop _ _ => true
    | _ => false

/-- The scalar registers and mask registers of an agent's allocation (R63, R64, R81). -/
def fileLimit (ag : Agent) (f : RegFile) : Nat :=
  match ag.kind, f with
  | .hubThread, .v => 64
  | _, .v => ag.alloc
  | .ladle, .s => 16
  | .ladle, .k => 4
  | _, .s => 64
  | _, .k => 16
  | _, _ => 256

/-- An operand that REL names (R165): it is checked lane by lane at issue. -/
def isRelative (w : DWord) (l : List Opnd) (o : Opnd) : Bool :=
  l.any (fun x => x.fld == .vi) && o.file == .v &&
    (match o.fld with
     | .d => (fmtR w).rel == 1
     | .a => (fmtR w).rel == 2
     | .b => (fmtR w).rel == 3
     | _ => false)

/-- R60, R81, R163, R165: a static number at or above its limit. -/
def boundBad (ag : Agent) (w : DWord) (l : List Opnd) : Bool :=
  (ag.kind == .ladle && decide (4 ≤ (pfxOf w).pred.toNat)) ||
    l.any (fun o => !isRelative w l o && decide (fileLimit ag o.file < o.num + (if ag.kind == .hubThread then 1 else o.len)))

/-- R371: the register number that a word's static check refuses. -/
def boundReg (ag : Agent) (w : DWord) : Nat := match decodeWord w with
  | .error _ => 0
  | .ok i =>
    let l := opnds i
    if ag.kind == .ladle && decide (4 ≤ (pfxOf w).pred.toNat) then (pfxOf w).pred.toNat
    else ((l.find? (fun o => !isRelative w l o &&
      decide (fileLimit ag o.file < o.num + (if ag.kind == .hubThread then 1 else o.len)))).map (fun o => o.num)).getD 0

/-- How many of a shared resource a block was given (R59). -/
def givenOf (n : Needs) : RegFile → Nat
  | .ec => n.events
  | .sh => n.shapes
  | .cb => n.cbooks
  | .acc => n.acc
  | _ => 256

/-- R48, R251: how many barriers of a scope a block has. -/
def barCount (s : State) (ag : Agent) (scope : Nat) : Nat :=
  match blockOf s ag with
  | none => 0
  | some b =>
    let coop := pfld (packetOf s b) 14 2
    match scope with
    | 1 => 16
    | 2 => if 2 ≤ teamSize s b then 8 else 0
    | 3 => if coop == 1 then 4 else 0
    | 4 => if coop == 2 then 2 else 0
    | _ => 0

/-- R48, R59, R251: a resource number at or above the block's count. -/
def resourceBad (s : State) (ag : Agent) (i : Instr) (l : List Opnd) : Bool :=
  let needs := (blockOf s ag).elim { cohorts := 0, regs := 0, scratch := 0, acc := 0, shapes := 0, events := 0, cbooks := 0 } (fun b => b.needs)
  let bar := fun r : FmtM => decide (barCount s ag r.scope.toNat ≤ r.d.toNat)
  l.any (fun o => (o.file == .ec || o.file == .sh || o.file == .cb || o.file == .acc) && decide (givenOf needs o.file < o.num + o.len)) ||
    (match i with
     | .bar _ r => bar r
     | .bara _ r => bar r
     | .barw _ r => bar r
     | _ => false)

/-- R324: in a hub thread a vector operand's field names one scalar register. -/
def hubView (ag : Agent) (l : List Opnd) : List Opnd :=
  if ag.kind == .hubThread then l.map (fun o => if o.file == .v then { o with file := .s, len := 1 } else o) else l

/-- R176: two static ranges of one word overlap in a way that is refused. -/
def overlapBad (w : DWord) (l : List Opnd) : Bool :=
  let st := l.filter (fun o => !isRelative w l o && (o.file == .v || o.file == .s || o.file == .k))
  let rg := fun o : Opnd => ((o.num : Int), o.len)
  st.any (fun d => d.isDst && st.any (fun o => o.isSrc && o.file == d.file && clash (rg d) (rg o)))

/-- R175: the checks of one word of a clause, `last` saying whether it is the last. -/
def wordCheck (s : State) (ag : Agent) (h : Header) (last : Bool) (w : DWord) : Option TrapCode :=
  let cls := h.cls.toNat
  let op := (opOf w).toNat
  if op == 0x3FF then (if ag.level == .u && cls == 5 then some .privilege else some .clauseFormat)
  else match decodeWord w with
    | .error _ => some .illegal
    | .ok i =>
      let l := opnds i
      if illegalFor ag i then some .illegal
      else if privilegeBad ag cls i then some .privilege
      else if ag.kind == .ladle && ladleForbids i then some .ladleForbidden
      else if (opClass op).any (fun c => c != cls) || (mustBeLast op && !last) then some .clauseFormat
      else if boundBad ag w l then some .regBound
      else if resourceBad s ag i l then some .resource
      else if overlapBad w (hubView ag l) then some .regOverlap
      else none

/-- R175: the first check of a clause's words that fails, with the index of its word. -/
def wordsCheck (s : State) (ag : Agent) (h : Header) (k : Nat) : List DWord → Option (Nat × TrapCode × Nat)
  | [] => none
  | w :: rest => match wordCheck s ag h rest.isEmpty w with
    | some c => some (k, c, (opOf w).toNat)
    | none => wordsCheck s ag h (k + 1) rest

/-! ### One issue step (R33, R158, R175) -/

/-- A trap of kind 0: nothing of the clause takes effect (R369). -/
def decodeTrap (s : State) (a : Nat) (g : LaneSet) (pc : DWord) (code : TrapCode) (word op count : Nat) : State :=
  (postTrap s a { TrapReq.of code 0 word pc g 0 with op := op, count := count }).2

/-- A trap of a word of a clause at decode. A refused register number stands in ADDR (R371). -/
def wordTrap (s : State) (a : Nat) (ag : Agent) (g : LaneSet) (pc : DWord) (code : TrapCode) (k op : Nat) (words : List DWord) : State :=
  let num := if code == .regBound then boundReg ag (words.getD (k - 1) 0) else 0
  (postTrap s a { TrapReq.of code 0 k pc g 0 with op := op, count := words.length, addr := num }).2

/-- A trap of a fetch: at the fetched address, in every lane of the group; its kind is the one that R368 gives the code. -/
def fetchTrap (s : State) (a : Nat) (g : LaneSet) (pc : DWord) (code : TrapCode) (esrc : Nat) : State :=
  let kind := match code with
    | .uncorrectable => 1
    | .translationConflict => 2
    | _ => 0
  (postTrap s a { TrapReq.of code kind 0 pc g g with addr := pc.toNat, esrc := esrc, fetch := true }).2

/-- R34, R178: a clause begins to issue: it draws the credits of its header, and its agent has the turn. -/
def beginClause (s : State) (a : Nat) (g : LaneSet) (pc header : DWord) (words : List DWord) : State :=
  match freshId s, aget s.agents a with
  | (_, _), none => s
  | (seq, s1), some ag =>
    let i : Issue :=
      { hdr := pc, header := header, words := words, group := g, idx := 0, cur := 0, prev := none, inCycle := 0, freeAt := 0
        prods := [], jumps := [], yields := (headerOf header).yld, seq := seq }
    let s2 := putAgent s1 a { ag with issue := some i }
    let s3 := if ag.kind == .hubThread then s2 else charge s2 ag.core (agentQueue s ag) 2
    { s3 with turn := .agent a }

/-- ISSUE_STEP (R33, R158, R175): the clause of a group is fetched and checked, and issues, traps or parks the group. An address that is not a multiple
of 8 is refused before it is fetched, whatever its page or space (DESIGN CHOICE, log entry 93). -/
def issueStep (s : State) (a : Nat) (ag : Agent) (g : LaneSet) (pc : DWord) : State :=
  let w := fetchWho ag
  if pc.toNat % 8 != 0 then decodeTrap s a g pc .clauseFormat 0 0 0
  else match fetchBytes s w pc.toNat 8 with
    | (.fault va f, s1) => fetchFault s1 a ag g pc va f
    | (.trap c e, s1) => fetchTrap s1 a g pc c e
    | (.wait, s1) => s1
    | (.bytes hb, s1) =>
      let header := BitVec.ofNat 64 (ofBytes hb)
      let h := headerOf header
      match headerCheck h with
      | some c => decodeTrap s1 a g pc c 0 0 h.count.toNat
      | none =>
        let n := h.count.toNat
        match fetchBytes s1 w (pc.toNat + 8) (8 * n) with
        | (.fault va f, s2) => fetchFault s2 a ag g pc va f
        | (.trap c e, s2) => fetchTrap s2 a g pc c e
        | (.wait, s2) => s2
        | (.bytes wb, s2) =>
          let words := wordsOf wb n
          match wordsCheck s2 ag h 1 words with
          | some (k, c, op) => wordTrap s2 a ag g pc c k op words
          | none => beginClause s2 a g pc header words

/-- R32, R35: the group of the next issue step: the one that a header wait holds, less the strands that have parked since, or a fresh choice. -/
def nextGroup (ag : Agent) : LaneSet × DWord × Nat := match ag.chosen with
  | some (g, pc, count) =>
    let g1 := lanesAt ag (g &&& eligible ag) pc
    if g1 == 0 then issueGroup ag else (g1, pc, count)
  | none => issueGroup ag

/-- R35, R283: an agent takes an issue step; a ladle's 257th traps before it issues. -/
def agentIssues (s : State) (a : Nat) (ag : Agent) : State :=
  match nextGroup ag with
  | (g, pc, count) =>
    if ag.kind == .ladle && decide (256 ≤ ag.ladle.steps) then decodeTrap s a g pc .ladleBudget 0 0 0
    else
      let ag1 := { ag with count := count, prevSet := g, chosen := none, ladle := { ag.ladle with steps := ag.ladle.steps + 1 } }
      issueStep (putAgent s a ag1) a ag1 g pc

/-! ### The pick (R342) -/

/-- What holds the clause that an agent would issue: nothing, a flag of its header's wait mask, or a fetch that has to wait. -/
inductive Hold where
  | none
  | flag
  | fetch
deriving DecidableEq, Repr

/-- R32, R156, R158: what holds the clause at an address. A fetch that has to wait is not yet an issue step (R35, R36). -/
def holdOf (s : State) (ag : Agent) (pc : DWord) : Hold :=
  if pc.toNat % 8 != 0 then .none
  else match fetchBytes s (fetchWho ag) pc.toNat 8 with
    | (.wait, _) => .fetch
    | (.bytes hb, s1) =>
      let h := headerOf (BitVec.ofNat 64 (ofBytes hb))
      if (headerCheck h).isSome then .none
      else if (List.range 12).any (fun f => h.wait.getLsbD f && flagCount ag f != 0) then .flag
      else if (fetchBytes s1 (fetchWho ag) (pc.toNat + 8) (8 * h.count.toNat)).1 == .wait then .fetch else .none
    | _ => .none

/-- An agent at which nothing but its next clause can hold back an issue step: a strand is eligible, no record stops it (R369), and its
context is not being saved (R379). -/
def awake (s : State) (ag : Agent) : Bool :=
  ag.issue.isNone && ag.traps.isEmpty && ag.started && eligible ag != 0 && !(ag.kind == .cohort && savingCtx s ag.ctx) &&
    !(ag.kind == .hubThread && (ag.hub.halted || ag.hub.parked))

/-- A ladle whose budget is spent: its next issue step traps (R283). -/
def budgetSpent (ag : Agent) : Bool := ag.kind == .ladle && decide (256 ≤ ag.ladle.steps)

/-- An agent that may take an issue step: it is awake, and nothing holds its clause. -/
def mayIssue (s : State) (ag : Agent) : Bool :=
  awake s ag && (budgetSpent ag || holdOf s ag (nextGroup ag).2.1 == .none)

/-- R32, R35: an agent whose chosen group is held by a header wait and is not yet kept: no other group is to be chosen in its place. -/
def toKeep (s : State) (ag : Agent) : Bool :=
  awake s ag && !budgetSpent ag && ag.chosen != some (nextGroup ag) && holdOf s ag (nextGroup ag).2.1 == .flag

/-- The agents of a scheduler: a hub thread is its own. -/
def onScheduler (s : State) (core sched : Nat) : List (Nat × Agent) :=
  s.agents.filter (fun p => p.2.core == core && (if p.2.kind == .hubThread then p.2.index == sched else p.2.sched == sched))

/-- The agent of a list that was born first. -/
def oldest (l : List (Nat × Agent)) : Option (Nat × Agent) :=
  l.foldl (fun best p => match best with
    | none => some p
    | some q => if p.2.age < q.2.age then some p else some q) none

/-- R342: the choice among eligible cohorts of one priority. -/
def chooseCohort (c : List (Nat × Agent)) : Option (Nat × Agent) :=
  let top := (c.map (fun p => p.2.skip)).foldl max 0
  if 16 ≤ top then oldest (c.filter (fun p => p.2.skip == top))
  else match oldest (c.filter (fun p => !p.2.yielded)) with
    | some p => some p
    | none => oldest c

/-- R342: the skip counts after a pick of a cohort. -/
def skipAfter (c : List (Nat × Agent)) (chosen : Nat) (s : State) : State :=
  c.foldl (fun s p =>
    if p.1 == chosen then modAgent s p.1 (fun ag => { ag with skip := 0 })
    else if p.2.yielded then s
    else modAgent s p.1 (fun ag => { ag with skip := min (ag.skip + 1) 31 })) s

/-- R34: a yield counts at one pick. -/
def clearYields (l : List (Nat × Agent)) (s : State) : State :=
  l.foldl (fun s p => modAgent s p.1 (fun ag => { ag with yielded := false })) s

/-- R342, R52: the agent that a pick chooses, with the cohorts whose skip counts it changes. -/
def choose (l : List (Nat × Agent)) : Option (Nat × List (Nat × Agent)) :=
  match oldest (l.filter (fun p => p.2.kind == .ladle)) with
  | some p => some (p.1, [])
  | none =>
    let top := (l.map (fun p => p.2.prio)).foldl max 0
    let c := l.filter (fun p => p.2.prio == top)
    (chooseCohort c).map (fun p => (p.1, c))

/-- R344: a scheduler may pick: a hub thread always, a core while it holds credit. -/
def mayPick (s : State) (core : Nat) : Bool := decide (Config.cores ≤ core) || creditOn s core

/-- R79: the cohorts of a scheduler that have not started read their arguments. -/
def startPending (s : State) (core sched : Nat) : State :=
  (onScheduler s core sched).foldl (fun s p => if p.2.started then s else startCohort s p.1) s

/-- SCHEDULER_PICK (R342, R34): a clause in issue goes on; otherwise the chosen agent takes an issue step. -/
def schedulerPick (s : State) (core sched : Nat) : State :=
  let all := onScheduler s core sched
  match all.find? (fun p => p.2.issue.isSome) with
  | some p => { s with turn := .agent p.1 }
  | none =>
    if !mayPick s core then s
    else match choose (all.filter (fun p => mayIssue s p.2)) with
      | none => s
      | some (a, c) =>
        let s1 := clearYields all (skipAfter c a s)
        match aget s1.agents a with
        | some ag => agentIssues s1 a ag
        | none => s1

/-- R35: the held choices of a scheduler's agents are kept. -/
def keepHeld (s : State) (core sched : Nat) : State :=
  (onScheduler s core sched).foldl (fun s p =>
    if toKeep s p.2 then modAgent s p.1 (fun ag => { ag with chosen := some (nextGroup ag) }) else s) s

/-- What a scheduler does before it picks. -/
def prepare (s : State) (core sched : Nat) : State := keepHeld (startPending s core sched) core sched

/-- SCHEDULER_PICK (R342): one pick of a scheduler of a core; core 255 is the hub, whose scheduler `t` is thread `t`. -/
def execSchedulerPick (core sched : Nat) (s : State) : Out := .next (schedulerPick (prepare s core sched) core sched)

/-! ### The next word of a clause -/

/-- What happens to a clause in issue next. -/
inductive NextWord where
  /-- A word issues. -/
  | run (i : Instr)
  /-- Something else happened: the boundary, or a register error. -/
  | done (s : State)

/-- The vector registers that the operands of a word name in its passing lanes. -/
def namedRegs (e : Env) (w : DWord) (i : Instr) (wanted : Opnd → Bool) : List Nat :=
  let l := opnds i
  (l.filter (fun o => o.file == .v && wanted o)).flatMap (fun o =>
    if isRelative w l o then
      (lanesOf e.pass).flatMap (fun lane => match rangeIn e (fmtR w) o lane with
        | (n, k) => (List.range k).map (fun j => n.toNat + j))
    else (List.range o.len).map (fun j => o.num + j))

/-- The registers that a word reads, as places of errors: scalar register n is 256 + n. -/
def readRegs (e : Env) (w : DWord) (i : Instr) : List Nat :=
  namedRegs e w i (fun o => o.isSrc) ++
    ((opnds i).filter (fun o => o.file == .s && o.isSrc)).flatMap (fun o => (List.range o.len).map (fun j => 256 + (o.num + j)))

/-- R323, R375: the injected errors of an agent's registers among some numbers. -/
def regErrs (s : State) (a : Nat) (l : List Nat) : List HwErr :=
  s.mem.errs.filter (fun x => match x.place with
    | .reg b n => b == a && l.contains n
    | _ => false)

/-- An instruction whose words are alone in their cycle (R178): a vector float word of type `.f64`, or a conversion with one. -/
def wordF64 (w : DWord) : Bool :=
  let op := (opOf w).toNat
  let r := fmtR w
  (decide (0x100 ≤ op) && decide (op < 0x180) && r.ty == 0x0C) || (op == 0x180 && (r.ty == 0x0C || cvtFrom r == 0x0C))

/-- R374, R375: the registers that a word reads are checked: a correctable error is corrected and counted, an uncorrectable one traps. -/
def readChecked (s : State) (a : Nat) (ag : Agent) (iss : Issue) (w : DWord) (i : Instr) : Option State :=
  if s.mem.errs.isEmpty then none
  else
    let e := envOf (pfxOf w) (wordF64 w) a ag iss
    let errs := regErrs s a (readRegs e w i)
    if e.pass == 0 || errs.isEmpty then none
    else match errs.find? (fun x => x.unc) with
      | some x =>
        let num := match x.place with | .reg _ n => n % 256 | _ => 0
        some (issueTrap s e { issueReq e .uncorrectable e.pass num with esrc := 1 })
      | none => some (healRegs (errs.foldl (fun s _ => countError s 1) s) a (readRegs e w i))

/-- R34, R183: the next word of an agent's clause, or its boundary. A word that does not decode never stands in a clause in issue (R175);
such a clause ends here. -/
def nextWord (s : State) (a : Nat) : NextWord :=
  match aget s.agents a with
  | none => .done { s with turn := .idle }
  | some ag => match ag.issue with
    | none => .done { s with turn := .idle }
    | some iss => match iss.words[iss.idx]? with
      | none => .done (boundary s a ag iss)
      | some w => match decodeWord w with
        | .error _ => .done (boundary s a ag iss)
        | .ok i => match readChecked s a ag iss w i with
          | some s1 => .done s1
          | none => .run i

/-- R323, R375: a word that issued has stored fresh check bits in the registers that it writes whole: those of which its new producers name every lane
(log entry 83). -/
def afterWord (before : State) (a : Nat) (s : State) : State :=
  if before.mem.errs.isEmpty then s
  else match aget before.agents a, aget s.agents a with
    | some ag, some ag1 =>
      let old := ag.issue.elim [] (fun i => i.prods)
      let new := (ag1.issue.elim [] (fun i => i.prods)).filter (fun p => !old.contains p)
      let whole := fun (n : Nat) => (List.range 32).all (fun l => new.any (fun p => p.tgt == .v n l))
      healRegs s a ((new.filterMap (fun p => match p.tgt with
        | .v n _ => if whole n then some n else none
        | .s n => some (256 + n)
        | _ => none)).dedup)
    | _, _ => s

end Sys2Proof.Machine
end

