-- ==== Sys2Proof/Machine/Host.lean ====
section
/-! DEFINITION. The host harts as the part sees them (R118, R141, R266, R267, R307, R318, R367, R431 to R433): their translation, their
ordinary accesses, the Xtn3 instructions, the fences, and the RISC-V exceptions that these raise. -/

namespace Sys2Proof.Machine

/-! ### Registers and exceptions -/

/-- A hart; one that was never released stands at reset. -/
def hartOf (s : State) (h : Nat) : Hart := (aget s.harts h).getD Hart.reset

/-- Replaces a hart. -/
def putHart (s : State) (h : Nat) (x : Hart) : State := { s with harts := aset s.harts h x }

/-- A register of a hart: `x0` reads zero. -/
def rdX (x : Hart) (n : BitVec 5) : DWord := if n == 0 then 0 else sget x.x n.toNat

/-- A register written: `x0` discards it. -/
def wrX (x : Hart) (n : BitVec 5) (v : DWord) : Hart := if n == 0 then x else { x with x := sset x.x n.toNat v }

/-- Some bits of a register written. -/
def putBits (old mask v : DWord) : DWord := (old &&& ~~~mask) ||| (v &&& mask)

/-- Some bits of a CSR set or cleared. -/
def setCsr (x : Hart) (n : Nat) (mask : DWord) (on : Bool) : Hart :=
  { x with csrs := sset x.csrs n (putBits (sget x.csrs n) mask (if on then mask else 0)) }

/-- An instruction of a hart retires: its result and the pc after it. -/
def retire (s : State) (h : Nat) (x : Hart) (rd : BitVec 5) (v : Nat) : State :=
  putHart s h (goesTo (wrX x rd (BitVec.ofNat 64 v)) (x.pc + 4))

/-- Whether a mode is virtual (V = 1). -/
def isVirtual : HostMode → Bool
  | .vs => true
  | .vu => true
  | _ => false

/-- The float registers are dirty, in the status registers of the mode at hand. -/
def dirtyF (x : Hart) : Hart :=
  let y := setCsr x 0x300 0x6000 true
  if isVirtual x.mode then setCsr y 0x200 0x6000 true else y

/-- A float register written: a number of 32 bits stands in it boxed, under ones. -/
def wrF (x : Hart) (n : BitVec 5) (size : Nat) (v : DWord) : Hart :=
  dirtyF { x with f := sset x.f n.toNat (if size == 2 then (0xFFFFFFFF00000000 : DWord) ||| (v &&& 0xFFFFFFFF) else v) }

/-- Bits of the vector registers, from a bit of `v0` on. -/
def vBits (x : Hart) (i n : Nat) : Nat := nbits (sget x.v (i / 512)).toNat (i % 512) n

/-- The same, written. -/
def vPutBits (x : Hart) (i n v : Nat) : Hart :=
  { x with v := sset x.v (i / 512) (BitVec.ofNat 512 (nset (sget x.v (i / 512)).toNat (i % 512) n v)) }

/-- R307: the level of a mode. M holds level F over the host die and nothing of the hub: `hostWindow` gives it no access (log entry 14). -/
def modeLevel : HostMode → Level
  | .m => .f
  | .hs => .h
  | .vs => .s
  | _ => .u

/-- What an exception or an interrupt leaves to be read: its cause, the value, the guest address divided by 4, the pseudoinstruction of a walk
of a guest's own tables, and whether the value is an address of a guest. -/
structure HartExc where
  cause : Nat
  tval  : Nat
  tval2 : Nat := 0
  tinst : Nat := 0
  gva   : Bool := false
  intr  : Bool := false
deriving DecidableEq, Repr

/-- The interrupts that M leaves to HS: those of the guests always (RISC-V). -/
def midelegOf (x : Hart) : DWord := (sget x.csrs 0x303 &&& 0x222) ||| 0x1444

/-- The interrupts that HS leaves to VS. -/
def hidelegOf (x : Hart) : DWord := sget x.csrs 0x603 &&& 0x444

/-- The mode that takes an exception or an interrupt: guest-page faults go to HS (R367); the rest follow delegation as RISC-V gives it (PRESUMED,
log entry 7). -/
def trapMode (x : Hart) (e : HartExc) : HostMode :=
  if e.intr then
    if !(midelegOf x).getLsbD e.cause then .m else if (hidelegOf x).getLsbD e.cause then .vs else .hs
  else if x.mode == .m then .m
  else if e.cause == 20 || e.cause == 21 || e.cause == 23 then .hs
  else if !x.medeleg.getLsbD e.cause then .m
  else if isVirtual x.mode && x.hedeleg.getLsbD e.cause then .vs
  else .hs

/-- What a mode saves at an exception or an interrupt, by the cause number that it sees. -/
def saveCsrs (c : TrapCsrs) (x : Hart) (e : HartExc) (cause : Nat) : TrapCsrs :=
  { c with epc := x.pc, cause := BitVec.ofNat 64 ((if e.intr then 2 ^ 63 else 0) + cause), tval := BitVec.ofNat 64 e.tval
           tval2 := BitVec.ofNat 64 e.tval2, prev := x.mode, pie := c.ie, ie := false }

/-- Where a mode's vector sends an exception or an interrupt: a vectored one has a place for each interrupt. -/
def vectorOf (c : TrapCsrs) (e : HartExc) (cause : Nat) : DWord :=
  (c.tvec &&& ~~~3) + (if e.intr && c.tvec.getLsbD 0 then BitVec.ofNat 64 (4 * cause) else 0)

/-- The causes whose value is an address. -/
def addressCause (cause : Nat) : Bool := ([0, 1, 3, 4, 5, 6, 7, 12, 13, 15, 20, 21, 23] : List Nat).contains cause

/-- A hart takes an exception or an interrupt (R307, R367): the pc, cause and values are saved for the mode that takes it, its interrupts are
off, and the pc goes to its vector. VS sees the interrupts of its guest under the numbers of S. -/
def hartExc (s : State) (h : Nat) (e : HartExc) : State :=
  let x := hartOf s h
  let y := { x with run := .running, fence := none, vfield := 0 }
  let gva := !e.intr && addressCause e.cause && (isVirtual x.mode || e.gva)
  match trapMode x e with
  | .m =>
    let z := setCsr (setCsr y 0x300 (2 ^ 39 : DWord) false) 0x300 (2 ^ 38 : DWord) gva
    putHart s h { z with csrs := sset z.csrs 0x34A (BitVec.ofNat 64 e.tinst), mt := saveCsrs x.mt x e e.cause, mode := .m, pc := vectorOf x.mt e e.cause }
  | .vs =>
    let n := if e.intr then e.cause - 1 else e.cause
    putHart s h { y with vst := saveCsrs x.vst x e n, mode := .vs, pc := vectorOf x.vst e n }
  | _ =>
    let z0 := setCsr y 0x600 0x40 gva
    let z := if isVirtual x.mode then setCsr z0 0x600 0x100 (x.mode == .vs) else z0
    putHart s h { z with csrs := sset z.csrs 0x64A (BitVec.ofNat 64 e.tinst), st := saveCsrs x.st x e e.cause, mode := .hs, pc := vectorOf x.st e e.cause }

/-- A hart takes an exception that leaves a cause and two values. -/
def hartTrap (s : State) (h cause tval tval2 : Nat) : State := hartExc s h { cause := cause, tval := tval, tval2 := tval2 }

/-- A hart returns from an exception: the pc, the mode and the interrupt enable that were saved come back; the saved mode is the lowest from
then on, and a return to a mode below M ends MPRV (R307; RISC-V, log entry 7). -/
def hartReturn (s : State) (h : Nat) (low : HostMode) (c : TrapCsrs) (put : Hart → TrapCsrs → Hart) : State :=
  let x := put (hartOf s h) { c with ie := c.pie, pie := true, prev := low }
  putHart s h { goesTo (if c.prev == .m then x else setCsr x 0x300 0x20000 false) c.epc with mode := c.prev }

/-- The kinds of host access, which choose among the exception causes of RISC-V (log entry 7). -/
inductive HostKind where
  | fetch | load | store
deriving DecidableEq, Repr

/-- Access-fault cause. -/
def accessCause : HostKind → Nat
  | .fetch => 1
  | .load => 5
  | .store => 7

/-- Address-misaligned cause. -/
def alignCause : HostKind → Nat
  | .fetch => 0
  | .load => 4
  | .store => 6

/-- Page-fault cause. -/
def pageCause : HostKind → Nat
  | .fetch => 12
  | .load => 13
  | .store => 15

/-- Guest-page-fault cause. -/
def guestCause : HostKind → Nat
  | .fetch => 20
  | .load => 21
  | .store => 23

/-! ### Translation (R367, R432) -/

/-- R432: a root of a hart in the form of `s1root`; one that is malformed makes every walk fault at level 0. -/
def rootOf (atp : DWord) : DWord :=
  let root := nbits atp.toNat 0 44 * 2 ^ 12
  if root % 2 ^ 15 == 0 && root < 2 ^ 52 then BitVec.ofNat 64 (root + 1) else 0

/-- R432: a root register translates (MODE 14); otherwise it is Bare. -/
def atpOn (atp : DWord) : Bool := nbits atp.toNat 60 4 == 14

/-- R432: the VMID of `hgatp`. -/
def hgatpVmid (x : Hart) : BitVec 8 := BitVec.ofNat 8 (nbits x.hgatp.toNat 44 8)

/-- The stage-1 root register of a hart's mode. -/
def stage1Atp (x : Hart) : DWord := if isVirtual x.mode then x.vsatp else x.satp

/-- The guest that a hart runs as: `hgatp` names it where V = 1 and it translates; otherwise the hypervisor's own (R310). -/
def hartVmid (x : Hart) : BitVec 8 := if isVirtual x.mode && atpOn x.hgatp then hgatpVmid x else 0

/-- The address space that a hart runs in. -/
def hartAsid (x : Hart) : BitVec 16 := if x.mode == .m || !atpOn (stage1Atp x) then 0 else BitVec.ofNat 16 (nbits (stage1Atp x).toNat 44 16)

/-- R367, R432: the translation state of a hart. -/
def hartSpace (x : Hart) : Space :=
  { vmid := hartVmid x, asid := hartAsid x, root1 := rootOf (stage1Atp x), root2 := rootOf x.hgatp, level := modeLevel x.mode, pmp := some x.pmp }

/-- The context whose identity a hart's placement and quotas carry (R310): that of its guest and address space; where none holds both, the
first of its guest, or context 0 (DESIGN CHOICE, log entry 22). -/
def hartCtx (s : State) (x : Hart) : Nat :=
  match ctxOfIds s (hartVmid x) (hartAsid x) with
  | some c => c
  | none => (s.hub.ctxs.find? (fun p => p.2.vmid == hartVmid x)).elim 0 (fun p => p.1)

/-- RISC-V: under MPRV the loads and stores of M are made in the mode that M saved. -/
def dataView (x : Hart) : Hart := if x.mode == .m && (sget x.csrs 0x300).getLsbD 17 then { x with mode := x.mt.prev } else x

/-- A hart translates, seen in the mode that the access is made in: M mode and Bare roots map each address to itself (RISC-V), at class HC with
no key (DESIGN CHOICE, log entry 23). -/
def hartXlate (s : State) (h : Nat) (x : Hart) (va : Nat) (need : Need) (ad : Bool) : Walked × State :=
  let t := hartSpace x
  if x.mode != .m && atpOn (stage1Atp x) then hartTranslate s h t va need ad
  else if x.mode == .m || t.vmid == 0 then (.ok (combine { t with vmid := 0 } identityLeaf identityLeaf va), s)
  else if walkersLeft s 0 == 0 then (.busy, s)
  else
    let r := bareWalk s t
    if refusal r.1 then bareWalk (dropWalks r.2 0 t) t else r
where
  /-- The walk of stage 2 alone, where stage 1 is Bare. -/
  bareWalk (s : State) (t : Space) : Walked × State := match stage2 s 0 t va with
    | (.error f, s1) => (walkEnd (if f.type == 2 then { f with gpa := va } else f), s1)
    | (.ok l2, s1) =>
      if permits l2.ent need then (match (if ad then setEntry s1 0 t l2 (if needWrites need then 0xC0 else 0x40) else (.ok (), s1)) with
        | (.error f, s2) => (walkEnd f, s2)
        | (.ok _, s2) => (.ok (combine t identityLeaf l2 va), s2))
      else (.fault { type := 2, level := l2.lvl, gpa := va, s1walk := false, perm := true, malf := false }, s1)

/-! ### Accesses -/

/-- Where a host access goes, or what it raises. -/
inductive HostReach where
  | mem (segs : List Seg)
  | window (spa : Nat)
  | exc (e : HartExc)
  | wait
  | held (segs : List Seg)
deriving DecidableEq, Repr

/-- The exception that a failed translation raises (R367). -/
def hostFault (k : HostKind) (va : Nat) : Walked → HostReach
  | .fault f => if f.type == 1 then .exc { cause := pageCause k, tval := va }
    else .exc { cause := guestCause k, tval := va, tval2 := f.gpa / 4, tinst := if f.s1walk then (if f.set then 0x3020 else 0x3000) else 0 }
  | .busy => .wait
  | .conflict => .exc { cause := accessCause k, tval := va }
  | .guarded => .exc { cause := accessCause k, tval := va }
  | .lost _ => .exc { cause := accessCause k, tval := va }
  | _ => .exc { cause := pageCause k, tval := va }

/-- R118: an address meets the range in which a host access raises an access fault. -/
def hostForbidden (va n : Nat) : Bool := decide (va < 0x00FF000000000000) && decide (0x00FD000000000000 < va + n)

/-- R118, R346: an address that no host access reaches: the range of R118, or bits [63:56] that are not zero (log entry 23). -/
def hostHole (k : HostKind) (x : Hart) (va n : Nat) : Option HostReach :=
  if 2 ^ 56 ≤ va + (n - 1) then some (.exc { cause := if x.mode == .m then accessCause k else pageCause k, tval := va })
  else if hostForbidden va n then some (.exc { cause := accessCause k, tval := va })
  else none

/-- What a failed translation comes to; a table that is lost is reported (R386, R375). -/
def hostFail (s : State) (h : Nat) (k : HostKind) (va : Nat) (r : Walked) : (HostReach ⊕ List Seg) × State :=
  (.inl (hostFault k va r), match r with
    | .lost e => postQueue (hubErrorRecord s (hartCtx s (hartOf s h)) e 0xFF 0 0 va) .hypTrap
    | _ => s)

/-- The translated runs of a host access. -/
def hostRuns (s : State) (h : Nat) (x : Hart) (k : HostKind) (va n : Nat) (need : Need) : (HostReach ⊕ List Seg) × State :=
  match hartXlate s h x va need true with
  | (.ok y, s1) =>
    let m := 2 ^ y.size - va % 2 ^ y.size
    if n ≤ m then (.inr [{ x := y, va := va, len := n }], s1)
    else (match hartXlate s1 h x (va + m) need true with
      | (.ok z, s2) => (.inr [{ x := y, va := va, len := m }, { x := z, va := va + m, len := n - m }], s2)
      | (r, s2) => hostFail s2 h k (va + m) r)
  | (r, s1) => hostFail s1 h k va r

/-- R420: the class of a hart. -/
def hartBucket (s : State) (h : Nat) : Nat := nbits (sget s.hub.hartClass h).toNat 0 4

/-- The partition of a hart (R413). -/
def hartPart (s : State) (h : Nat) : Nat := partOfQuarter s.hub.partCfg (h / 36)

/-- R386, R398, R401, R420, R431, R433: a translated host access goes, waits or raises an exception. A frozen page delays it without an exception
(R155). -/
def hostRoute (s : State) (h : Nat) (x : Hart) (k : HostKind) (va n : Nat) (need : Need) (segs : List Seg) : HostReach × State :=
  if segs.any (fun g => !pmpAllows x.pmp (x.mode == .m) (segSpa g) g.len need) then (.exc { cause := accessCause k, tval := va }, s)
  else match segs.find? (fun g => inWindow (segSpa g)) with
  | some g => (if k != .fetch && segs.length == 1 && winShape (segSpa g) n then .window (segSpa g) else .exc { cause := accessCause k, tval := va }, s)
  | none => match routeAll s 0 segs with
    | .bad => (.exc { cause := accessCause k, tval := va }, postQueue (hubErrorRecord s (hartCtx s (hartOf s h)) 8 0xFF 0 0 va) .hypTrap)
    | .frozen => (.wait, s)
    | .closed => (.held segs, s)
    | .go => match payPorts s { cls := hartBucket s h, part := hartPart s h, who := 5 * h + 3 } (segs.flatMap (segPorts s 0 none (needKind need))) s with
      | (true, s1) => (.mem segs, s1)
      | (false, s1) => (.wait, s1)

/-- A host access of `n` bytes, made by a hart seen in a mode. -/
def hostReach (s : State) (h : Nat) (x : Hart) (k : HostKind) (va n : Nat) (need : Need) : HostReach × State :=
  match hostHole k x va n with
  | some r => (r, s)
  | none => match hostRuns s h x k va n need with
    | (.inl r, s1) => (r, s1)
    | (.inr segs, s1) => hostRoute s1 h x k va n need segs

/-- The requester of a hart's accesses (R141): the host die, and the class held for the hart (R420, R422). -/
def hostAsker (s : State) (h : Nat) (x : Xlat) : Asker := { die := 0, counted := true, install := x.memt == 0, cls := some (hartBucket s h) }

/-- One run brought to where it is read or written: the directory for HC pages, the home for the others (R121, R141, R147). -/
def hostTouch (h : Nat) (k : AccKind) (s : State) (g : Seg) : State :=
  let s0 := locateFill s 0 (segSpa g / 2 ^ 19)
  let who := hostAsker s h g.x
  if g.x.cls == 0 then touchLines s0 who k (segSpa g) g.len else count s0 who (segSpa g / 2 ^ 19)

/-- The same for a read, which finds the errors of what it reads (R374, R375). -/
def hostFind (h : Nat) (k : AccKind) (s : State) (g : Seg) : State :=
  if g.x.cls == 0 then touchRead (locateFill s 0 (segSpa g / 2 ^ 19)) (hostAsker s h g.x) k (segSpa g) g.len
  else findErrors (hostTouch h k s g) (segSpa g) g.len true

/-- A host read: the source of the error if it meets poison (R371, R375). -/
def hostRead (s : State) (h : Nat) (k : AccKind) (segs : List Seg) : (Nat ⊕ List Byte) × State :=
  let s1 := segs.foldl (hostFind h k) s
  match segs.find? (fun g => poisoned s1 (segSpa g) g.len) with
  | some g => (.inl (errSource s1 (segSpa g) g.len), s1)
  | none => (.inr (segs.flatMap (fun g => spaReadN s1 g.x.key.toNat (segSpa g) g.len)), s1)

/-- Bytes stored run by run. -/
def hostPut (s : State) : List Seg → List Byte → State
  | [], _ => s
  | g :: t, bs => hostPut (spaWriteN s g.x.key.toNat (segSpa g) (bs.take g.len)) t (bs.drop g.len)

/-- A host write. -/
def hostWrite (s : State) (h : Nat) (segs : List Seg) (bs : List Byte) : State := hostPut (segs.foldl (hostTouch h .write) s) segs bs

/-- R375: the record of poison that a hart has consumed, to the trap queue of H. -/
def poisonRecord (s : State) (h esrc va : Nat) : State := postQueue (hubErrorRecord s (hartCtx s (hartOf s h)) esrc 0xFF 0 0 va) .hypTrap

/-- R375: a hart consumes poison: an access fault, and a record to the trap queue of H. -/
def hostPoison (s : State) (h : Nat) (k : HostKind) (esrc va : Nat) : State := hartTrap (poisonRecord s h esrc va) h (accessCause k) va 0

/-! ### Ordinary accesses (R141, R431) -/

/-- The writer that a hart is to the register window (R307, R433). -/
def hartWriter (x : Hart) : Writer := { level := modeLevel x.mode, vmid := hartVmid x }

/-- The kind of an ordinary access. -/
def opKind : HostOp → HostKind
  | .load => .load
  | .lr => .load
  | _ => .store

/-- The permissions an ordinary access needs; some loads of the hypervisor need X in place of R. -/
def accNeed (a : HostAcc) : Need := if a.ex then .fetch else opNeed a.op
where
  /-- By the operation. -/
  opNeed : HostOp → Need
  | .load => .read
  | .lr => .read
  | .store => .write
  | .sc => .write
  | _ => .both

/-- The result of an AMO (RISC-V): the new value of `8 n` bits. -/
def amoNew (op : HostOp) (n old v : Nat) : Nat :=
  let w := 8 * n
  let a := BitVec.ofNat w old
  let b := BitVec.ofNat w v
  match op with
  | .amoadd => (a + b).toNat
  | .amoxor => (a ^^^ b).toNat
  | .amoand => (a &&& b).toNat
  | .amoor => (a ||| b).toNat
  | .amomin => if a.slt b then a.toNat else b.toNat
  | .amomax => if a.slt b then b.toNat else a.toNat
  | .amominu => if a < b then a.toNat else b.toNat
  | .amomaxu => if a < b then b.toNat else a.toNat
  | _ => b.toNat

/-- A value read, extended to a register. -/
def hostExtend (n v : Nat) (zext : Bool) : DWord :=
  if zext then BitVec.ofNat 64 v else (BitVec.ofNat (8 * n) v).signExtend 64

/-- One access of a vector load or store is done: the next field of its segment is due, or the next element. -/
def vStepped (x : Hart) (fields : Nat) : Hart :=
  if x.vfield + 1 < fields then { x with vfield := x.vfield + 1, run := .running }
  else { x with vfield := 0, csrs := sset x.csrs 0x008 (sget x.csrs 0x008 + 1), run := .running }

/-- An access is done: the pc moves past its instruction (log entry 24), unless it is one of the many of a vector load or store. -/
def hostEnd (s : State) (h : Nat) (a : HostAcc) : State :=
  putHart s h (match a.dst with
    | .v _ fields _ => vStepped (hartOf s h) fields
    | _ => goesTo (hartOf s h) ((hartOf s h).pc + BitVec.ofNat 64 a.len))

/-- A hart's register takes the result of an access. -/
def wrDst (x : Hart) (a : HostAcc) (v : DWord) : Hart :=
  match a.dst with
  | .x => wrX x a.rd v
  | .f => wrF x a.rd a.size.toNat v
  | .v bit _ _ => vPutBits x bit (8 * 2 ^ a.size.toNat) v.toNat

/-- An access is done, and its register takes its result. -/
def hostResult (s : State) (h : Nat) (a : HostAcc) (v : DWord) : State := hostEnd (putHart s h (wrDst (hartOf s h) a v)) h a

/-- The hart as an access sees it: in its own mode, in the mode that M saved (MPRV), or in the mode that the hypervisor's loads and stores
name. -/
def accView (x : Hart) (a : HostAcc) : Hart :=
  match a.view with
  | some md => { x with mode := md }
  | none => dataView x

/-- An exception of an access is taken; past the first element of a fault-only-first load it ends the load there instead. -/
def accExc (s : State) (h : Nat) (a : HostAcc) (e : HartExc) : State :=
  let x := hartOf s h
  match a.dst, sget x.csrs 0x008 != 0 with
  | .v _ _ true, true =>
    putHart s h (goesTo { x with vfield := 0, csrs := sset (sset x.csrs 0xC20 (sget x.csrs 0x008)) 0x008 0 } (x.pc + 4))
  | _, _ => hartExc s h { e with gva := isVirtual (accView x a).mode }

/-- R433, R434: a hart's load or store of the register window, behind those that arrived before it; AMOs and LR/SC have no access to it, nor has M,
which holds nothing of the hub (R307). -/
def hostWindow (s : State) (h : Nat) (a : HostAcc) (spa : Nat) : State :=
  let x := accView (hartOf s h) a
  let r := winReg (winOfs spa)
  let bad := accExc s h a { cause := accessCause (opKind a.op), tval := a.va.toNat }
  if (hartOf s h).mode == .m then bad else match a.op with
  | .load => if winPending s then s else if winAllowed s (hartWriter x) r false then hostResult s h a (winRead s (hartWriter x) r) else bad
  | .store => if winAllowed s (hartWriter x) r true then hostEnd (winStore s (hartWriter x) spa a.val) h a else bad
  | _ => bad

/-- An ordinary access at its place. A hart's accesses are performed one by one in program order, so that acquire, release and fence ask for
no more (R141). -/
def hostPerform (s : State) (h : Nat) (a : HostAcc) (segs : List Seg) : State :=
  let n := 2 ^ a.size.toNat
  let line := segs.head?.map (fun g => segSpa g / 128)
  match a.op with
  | .fence => hostEnd s h a
  | .store => hostEnd (hostWrite s h segs (toBytes a.val.toNat n)) h a
  | .sc =>
    let x := hartOf s h
    if x.resv.isSome && x.resv == line then hostResult (hostWrite (putHart s h { x with resv := none }) h segs (toBytes a.val.toNat n)) h a 0
    else hostResult (putHart s h { x with resv := none }) h a 1
  | .load => match hostRead s h .read segs with
    | (.inr bs, s1) => hostResult s1 h a (hostExtend n (ofBytes bs) a.zext)
    | (.inl e, s1) => accExc (poisonRecord s1 h e a.va.toNat) h a { cause := 5, tval := a.va.toNat }
  | .lr => match hostRead s h .read segs with
    | (.inr bs, s1) => hostResult (putHart s1 h { hartOf s1 h with resv := line }) h a (hostExtend n (ofBytes bs) false)
    | (.inl e, s1) => hostPoison s1 h .load e a.va.toNat
  | op => match hostRead s h .write segs with
    | (.inr bs, s1) => hostResult (hostPut s1 segs (toBytes (amoNew op n (ofBytes bs) a.val.toNat) n)) h a (hostExtend n (ofBytes bs) false)
    | (.inl e, s1) => hostPoison s1 h .store e a.va.toNat

/-- R398: an access waits for its closed line, and its hart with it, if the line has taken it. -/
def hostHold (s : State) (h : Nat) (a : HostAcc) (segs : List Seg) : State :=
  let who := Holder.host h a
  let s1 := holdAccess s who (needWrites (accNeed a)) (segs.map (fun g => (segSpa g, g.len)))
  if s1.mem.forwards.any (fun f => f.held.any (fun x => x.1 == who)) then putHart s1 h { hartOf s1 h with run := .waiting } else s1

/-- Whether a hart runs instructions. -/
def hartRuns (s : State) (h : Nat) : Bool := decide (h < Config.harts) && (hartOf s h).run == .running

/-- HOST_ACCESS (R141, R118, R431): an ordinary load, store, AMO, LR or SC of a running hart, or its fence. One whose page is frozen is offered
again (R155); one that finds its line closed waits for it in arrival order (R398), a write once the hold window has an entry for it. A
misaligned LR, SC or AMO raises address-misaligned before any other exception that it would meet, in the range of R118 too (DESIGN CHOICE,
log entry 24: no rule says which comes first). -/
def execHostAccess (h : Nat) (a : HostAcc) (s : State) : Out :=
  let n := 2 ^ a.size.toNat
  if !hartRuns s h then .next s
  else if a.op == .fence then .next (hostEnd s h a)
  else if a.op != .load && a.op != .store && a.va.toNat % n != 0 then .next (hartTrap s h (alignCause (opKind a.op)) a.va.toNat 0)
  else match hostReach s h (accView (hartOf s h) a) (opKind a.op) a.va.toNat n (accNeed a) with
    | (.exc e, s1) => .next (accExc s1 h a e)
    | (.window spa, s1) => .next (hostWindow s1 h a spa)
    | (.wait, s1) => .next s1
    | (.held segs, s1) => .next (hostHold s1 h a segs)
    | (.mem segs, s1) => .next (hostPerform s1 h a segs)

/-! ### Xtn3 (R266, R267) -/

/-- The meaning of a host word with the hart at hand. -/
def onHart (s : State) (f : Nat → Hart → Out) : Out :=
  match s.turn with
  | .hart h => f h (hartOf s h)
  | _ => .fault .noHart

/-- The interrupts that are pending for a hart (RISC-V): those that software set, in `mip` and in `hvip`. -/
def mipOf (x : Hart) : DWord := (sget x.csrs 0x344 &&& 0x222) ||| (sget x.csrs 0x645 &&& 0x444)

/-- R260, R267: a waiting load of `n` bytes: 0 where the value differs, asleep otherwise; 2 where the table has no free key, or where an interrupt
that the hart enables is pending already. -/
def hostWait (s : State) (h : Nat) (x : Hart) (rd : BitVec 5) (va n expect : Nat) : State :=
  if va % n != 0 then hartTrap s h 4 va 0
  else match hostReach s h (dataView x) .load va n .read with
    | (.exc e, s1) => hartExc s1 h e
    | (.window _, s1) => hartTrap s1 h 5 va 0
    | (.wait, s1) => s1
    | (.held _, s1) => s1
    | (.mem segs, s1) =>
      if segs.any (fun g => g.x.cls != 0) then hartTrap s1 h 5 va 0
      else if !keyFree s1 (BitVec.ofNat 64 va) (hartVmid x) (hartAsid x) then retire s1 h (hartOf s1 h) rd 2
      else match hostRead s1 h .read segs with
        | (.inl e, s2) => hostPoison s2 h .load e va
        | (.inr bs, s2) =>
          if ofBytes bs != expect % 2 ^ (8 * n) then retire s2 h (hartOf s2 h) rd 0
          else if mipOf x &&& sget x.csrs 0x304 != 0 then retire s2 h (hartOf s2 h) rd 2
          else
            let w : WaitEntry :=
              { who := .hart h, va := BitVec.ofNat 64 va, vmid := hartVmid x, asid := hartAsid x, spa := segs.head?.elim 0 segSpa }
            let s3 := putHart s2 h { hartOf s2 h with run := .asleep, wrd := rd }
            { s3 with hub := { s3.hub with waiters := s3.hub.waiters ++ [w] } }

/-- R267: `xwaitva` on 4 bytes. -/
def execXwaitvaW (d a b : BitVec 5) (s : State) : Out := onHart s (fun h x => .next (hostWait s h x d (rdX x a).toNat 4 (rdX x b).toNat))

/-- R267: `xwaitva` on 8 bytes. -/
def execXwaitvaD (d a b : BitVec 5) (s : State) : Out := onHart s (fun h x => .next (hostWait s h x d (rdX x a).toNat 8 (rdX x b).toNat))

/-- R261, R267: `xwakeva`: a release at `sys`; a page without R, or of class SW or DEV, is an access fault. Its translation
sets neither A nor D (R356). -/
def execXwakeva (d a b : BitVec 5) (s : State) : Out :=
  onHart s (fun h x =>
    let va := rdX x a
    if va.toNat % 4 != 0 then .next (hartTrap s h 4 va.toNat 0)
    else match hostHole .load (dataView x) va.toNat 1 with
      | some (.exc e) => .next (hartExc s h e)
      | some _ => .next s
      | none => match hartXlate s h (dataView x) va.toNat .read false with
        | (.ok y, s1) =>
          if y.cls != 0 || inWindow (xlatOut y va.toNat) then .next (hartTrap s1 h 5 va.toNat 0)
          else (match wakeKey s1 va (hartVmid x) (hartAsid x) (rdX x b).toNat with
            | (n, s2) => .next (retire s2 h (hartOf s2 h) d n))
        | (.refused, s1) => .next (hartTrap s1 h 5 va.toNat 0)
        | (r, s1) => match hostFail s1 h .load va.toNat r with
          | (.inl (.exc e), s2) => .next (hartExc s2 h e)
          | (_, s2) => .next s2)

/-- R152, R265, R267: a record of a page, half of which goes to rd. -/
def hostTierq (s : State) (h : Nat) (x : Hart) (d : BitVec 5) (va hi : Nat) : State :=
  let half := fun (r : BitVec 128) => nbits r.toNat (64 * hi) 64
  match decodeAddr va with
  | .spm _ => retire s h x d (half 6)
  | .peer _ _ => retire s h x d (half 6)
  | .badAccess => hartTrap s h 5 va 0
  | .badPeer => hartTrap s h 5 va 0
  | .mem => match hartXlate s h (dataView x) va .any false with
    | (.ok y, s1) => retire s1 h (hartOf s1 h) d (half (tierRecord s1 (hartVmid x) (xlatOut y va / 2 ^ 19) y.allow))
    | (.refused, s1) => hartTrap s1 h 5 va 0
    | (r, s1) => match hostFail s1 h .load va r with
      | (.inl (.exc e), s2) => hartExc s2 h e
      | (_, s2) => s2

/-- R267: `xtierq`, bits [63:0]. -/
def execXtierqLo (d a : BitVec 5) (s : State) : Out := onHart s (fun h x => .next (hostTierq s h x d (rdX x a).toNat 0))

/-- R267: `xtierq`, bits [127:64]. -/
def execXtierqHi (d a : BitVec 5) (s : State) : Out := onHart s (fun h x => .next (hostTierq s h x d (rdX x a).toNat 1))

/-- Which placement instruction acts. -/
inductive PlaceKind where
  | pin | unpin | hint
deriving DecidableEq, Repr

/-- One page of a host placement instruction. -/
def hostPlaceAct (s : State) (h : Nat) (k : PlaceKind) (va oper : Nat) (x : Xlat) : PageAct :=
  let page := xlatOut x va / 2 ^ 19
  let ctx := hartCtx s (hartOf s h)
  match k with
  | .pin => pinPage s (2 ^ 40 + h) ctx page (x.gpa + va % 2 ^ x.size)
  | .unpin => unpinPage s ctx page
  | .hint => hintPage s ctx page (nbits oper 56 3) (nbits oper 60 2) (x.cls == 1)

/-- R151, R264, R267: a placement instruction acts on the page that it has reached, and retires, raises an exception on its first page, stops
with NOT_PRESENT on a later one, or goes on. An address that R115 and R151 leave unused raises its exception on any page. -/
def hostPlace (s : State) (h : Nat) (x : Hart) (k : PlaceKind) (d : BitVec 5) (base oper : Nat) : State :=
  let acted := match x.run with | .placing n => n | _ => 0
  let len := nbits oper 0 48
  let pages := if len == 0 then 0 else (base + len - 1) / 2 ^ 19 - base / 2 ^ 19 + 1
  let va := if acted == 0 then base else (base / 2 ^ 19 + acted) * 2 ^ 19
  let fin := fun (s : State) (n st : Nat) => retire s h (hartOf s h) d (n * 256 + st)
  let first := fun (s : State) (cause t2 : Nat) => if acted == 0 then hartTrap s h cause va t2 else fin s acted 8
  if pages ≤ acted then fin s acted 0
  else match decodeAddr va with
    | .spm _ => fin s acted 6
    | .peer _ _ => fin s acted 6
    | .badAccess => hartTrap s h 5 va 0
    | .badPeer => hartTrap s h 5 va 0
    | .mem => match hartXlate s h (dataView x) va .any false with
      | (.ok y, s1) => (match hostPlaceAct s1 h k va oper y with
        | .stop st s2 => fin s2 acted st
        | .wait s2 => putHart s2 h { hartOf s2 h with run := .placing acted }
        | .acted s2 =>
          if acted + 1 == pages then fin s2 (acted + 1) 0 else putHart s2 h { hartOf s2 h with run := .placing (acted + 1) })
      | (.fault f, s1) => if f.type == 1 then fin s1 acted 8 else match hostFail s1 h .load va (.fault f) with
        | (.inl (.exc e), s2) => if acted == 0 then hartExc s2 h e else fin s2 acted 8
        | (_, s2) => s2
      | (.refused, s1) => first s1 5 0
      | (.conflict, s1) => first s1 5 0
      | (.busy, s1) => putHart s1 h { hartOf s1 h with run := .placing acted }
      | (r, s1) => match hostFail s1 h .load va r with
        | (.inl (.exc e), s2) => hartExc s2 h e
        | (_, s2) => s2

/-- R267: `xpin`. -/
def execXpin (d a b : BitVec 5) (s : State) : Out := onHart s (fun h x => .next (hostPlace s h x .pin d (rdX x a).toNat (rdX x b).toNat))

/-- R267: `xunpin`. -/
def execXunpin (d a b : BitVec 5) (s : State) : Out := onHart s (fun h x => .next (hostPlace s h x .unpin d (rdX x a).toNat (rdX x b).toNat))

/-- R267: `xhint`. -/
def execXhint (d a b : BitVec 5) (s : State) : Out := onHart s (fun h x => .next (hostPlace s h x .hint d (rdX x a).toNat (rdX x b).toNat))

/-- INTERRUPT_PENDING (R267): a hart asleep in `xwaitva` returns 2 with the pc after the instruction. Delivery is RISC-V's own. -/
def execInterruptPending (h : Nat) (s : State) : Out :=
  match s.hub.waiters.find? (fun w => w.who == .hart h) with
  | some w => .next (wakeWaiter s w 2)
  | none => .next s

/-! ### Fences (R318) -/

/-- A stage-1 invalidation by RISC-V's rs1 and rs2: an address or all, an address space or all (R318, R317). -/
def fenceStage1 (vmid : BitVec 8) (va asid : Option DWord) (s : State) : List (Nat × Nat) × State :=
  let page := fun (e : TlbEntry) => match va with
    | some v => virtMeets e v.toNat 1
    | none => true
  match asid with
  | some a => invalidate s (some vmid) (fun e => servesAsid e (a.setWidth 16) && page e)
  | none => invalidate s (some vmid) page

/-- A source register of a fence: `x0` names none. -/
def fenceArg (x : Hart) (n : BitVec 5) : Option DWord := if n == 0 then none else some (rdX x n)

/-- R317, R318: a fence removes its entries, and retires once the accesses that translated through them are performed; until then the hart
executes it again. -/
def hostFence (s : State) (h : Nat) (remove : State → List (Nat × Nat) × State) : State :=
  let (l, s1) := match (hartOf s h).fence with
    | none => remove s
    | some l => usersLeft s l
  let x := hartOf s1 h
  if l.isEmpty then retire s1 h { x with fence := none } 0 0 else putHart s1 h { x with fence := some l }

/-- RISC-V's refusal of a fence in a mode: illegal instruction (2), or virtual instruction (22) where HS could execute it; `hyp` says that the
fence is the hypervisor's, `tvm` that TVM bars HS from it, and VTVM bars VS from its own (log entry 7). -/
def fenceBars (x : Hart) (hyp tvm : Bool) : Option Nat :=
  match x.mode with
  | .m => none
  | .hs => if tvm && (sget x.csrs 0x300).getLsbD 20 then some 2 else none
  | .vs => if hyp || (sget x.csrs 0x600).getLsbD 20 then some 22 else none
  | .u => some 2
  | .vu => some 22

/-- The word of a fence, which a refusal leaves in `tval`. -/
def fenceWord (f7 : BitVec 7) (a b : BitVec 5) : Nat := (f7 ++ (b ++ (a ++ (0x073 : BitVec 15)))).toNat

/-- R318: `SFENCE.VMA`: the hart's own address spaces; in VS those of its guest. -/
def execSfenceVma (a b : BitVec 5) (s : State) : Out :=
  onHart s (fun h x => match fenceBars x false true with
    | some c => .next (hartTrap s h c (fenceWord 0x09 a b) 0)
    | none => .next (hostFence s h (fenceStage1 (hartVmid x) (fenceArg x a) (fenceArg x b))))

/-- R318: `HFENCE.VVMA`: the address spaces of the guest that `hgatp` names. -/
def execHfenceVvma (a b : BitVec 5) (s : State) : Out :=
  onHart s (fun h x => match fenceBars x true false with
    | some c => .next (hartTrap s h c (fenceWord 0x11 a b) 0)
    | none => .next (hostFence s h (fenceStage1 (hgatpVmid x) (fenceArg x a) (fenceArg x b))))

/-- R318: `HFENCE.GVMA`: stage 2 of the guest that rs2 names, or of every guest (VMID 0 has none); rs1 holds a guest-physical address divided
by 4, or names none. -/
def fenceStage2 (gpa vmid : Option DWord) (s : State) : List (Nat × Nat) × State :=
  invalidate s (vmid.map (fun v => v.setWidth 8)) (fun e => e.vmid != 0 && (match gpa with
    | some g => physMeets e (4 * g.toNat) 1
    | none => true))

/-- R318: `HFENCE.GVMA`. -/
def execHfenceGvma (a b : BitVec 5) (s : State) : Out :=
  onHart s (fun h x => match fenceBars x true true with
    | some c => .next (hartTrap s h c (fenceWord 0x31 a b) 0)
    | none => .next (hostFence s h (fenceStage2 (fenceArg x a) (fenceArg x b))))

end Sys2Proof.Machine
end

