-- ==== Sys2Proof/Machine/Packets.lean ====
section
/-! DEFINITION. Packets of the hardware queues: acceptance with its checks and the journal (R328, R331 to R334, R441, R443), their start
(R329), launch, copy, dependence-wait, signal, migrate and reply packets (R333, R334, R336), completion records (R330), and deferred
launches (R337). -/

namespace Sys2Proof.Machine

/-! ### Packets in progress -/

/-- The packet of a queue at a position. -/
def pktAt (s : State) (q : Nat) (pos : BitVec 32) : Option Packet := s.hub.packets.find? (fun p => p.queue == q && p.pos == pos)

/-- Changes the packet of a queue at a position. -/
def modPkt (s : State) (q : Nat) (pos : BitVec 32) (f : Packet → Packet) : State :=
  { s with hub := { s.hub with packets := s.hub.packets.map (fun p => if p.queue == q && p.pos == pos then f p else p) } }

/-- R332: the kind of a packet. -/
def pktKind (p : BitVec 512) : Nat := pfld p 0 8
/-- R332: BAR. -/
def pktBar (p : BitVec 512) : Bool := pfld p 16 1 == 1
/-- R332: SIGADDR. -/
def pktSig (p : BitVec 512) : Nat := pfld p 320 56
/-- R332: SIGVAL. -/
def pktSigVal (p : BitVec 512) : Nat := pfld p 384 64
/-- R334: MODE. -/
def pktMode (p : BitVec 512) : Nat := pfld p 24 2
/-- R334: ADDR, SRC. -/
def pktAddr (p : BitVec 512) : Nat := pfld p 64 56
/-- R334: VAL. -/
def pktVal (p : BitVec 512) : Nat := pfld p 128 64
/-- R334: DST. -/
def pktDst (p : BitVec 512) : Nat := pfld p 128 56
/-- R334: LEN. -/
def pktLen (p : BitVec 512) : Nat := pfld p 192 48

/-- QCFG.LEVEL (R327). -/
def queueLevel (s : State) (q : Nat) : Nat := nbits (queueOf s q).cfg.toNat 32 2

/-- On whose behalf the hub accesses memory for a packet (R330, R334): the queue's context, above level U, at which alone R355 asks for
the U bit (DEDUCED, log entry 28). -/
def pktWho (s : State) (q : Nat) (pos : BitVec 32) : Who :=
  { core := 255, ctx := queueCtx s q, level := .h, block := 0, holder := some (.packet q pos) }

/-! ### Checks at acceptance (R331 to R334) -/

/-- The bits of a list of fields, each by its lowest bit and width. -/
def bitsOf : List (Nat × Nat) → Nat
  | [] => 0
  | (lo, n) :: t => 2 ^ lo * (2 ^ n - 1) ||| bitsOf t

/-- The fields that a kind of packet names besides those that every packet holds (R333, R334, R336). -/
def kindFields (kind mode : Nat) : List (Nat × Nat) :=
  match kind with
  | 1 => [(8, 8), (17, 2), (64, 43), (128, 56), (192, 56), (256, 31), (288, 32)]
  | 2 => [(64, 56), (128, 56), (192, 48)]
  | 3 => if mode == 2 then [(24, 2), (64, 6), (128, 64)] else [(24, 2), (64, 56), (128, 64)]
  | 4 => [(24, 2), (64, 56), (128, 64)]
  | 5 => [(64, 56), (128, 56), (192, 3)]
  | _ => [(64, 32), (96, 6), (128, 64)]

/-- R332: the bits of a packet that must be zero. -/
def reservedBits (p : BitVec 512) : Nat :=
  let used := bitsOf ([(0, 8), (16, 1), (320, 56), (384, 64), (448, 64)] ++ kindFields (pktKind p) (pktMode p))
  p.toNat - (p.toNat &&& used)

/-- R333: a field of a launch packet is out of range or misaligned. -/
def launchBad (p : BitVec 512) : Bool :=
  let n := pktNeeds p
  pktNx p == 0 || pktNy p == 0 || pktNz p == 0 || pktArgs p % 8 != 0 || pfld p 128 56 % 8 != 0 || decide (8 < n.cbooks) ||
    decide (64 < n.events) || decide (32 < n.shapes) || decide (16 < n.acc) || decide (256 < n.scratch) || n.cohorts == 0 ||
    decide (32 < n.cohorts) || n.regs == 0 || decide (256 < n.regs) || decide (4096 < n.regs * n.cohorts) || pktDie p == 3 ||
    (pktCoop p == 2 && pktDie p != 0) || pktCoop p == 3 || pfld p 8 2 == 3

/-- R331, R332: a packet is malformed. A service call is written only by the hub, so software that writes one writes an unknown kind. -/
def pktBad (p : BitVec 512) : Bool :=
  let k := pktKind p
  k == 0 || k == 6 || decide (7 < k) || reservedBits p != 0 || pktSig p % 16 != 0 ||
    (match k with
     | 1 => launchBad p
     | 2 => pktLen p == 0 || decide (2 ^ 40 < pktLen p)
     | 3 => pktMode p == 3 || (pktMode p != 2 && pktAddr p % 8 != 0)
     | 4 => decide (1 < pktMode p) || pktAddr p % 8 != 0
     | 5 => pfld p 192 3 == 0 || decide (5 < pfld p 192 3)
     | _ => false)

/-- A launch packet of a queue as a launch that has not been placed (R333). -/
def launchFrom (s : State) (q : Nat) (pos : BitVec 32) (p : BitVec 512) (order : Nat) : Launch :=
  { queue := q, ctx := queueCtx s q, children := [(pos.toNat, p)], started := true, order := order, placed := 0, retired := [], doneKids := []
    host := !(queueOf s q).cfg.getLsbD 1 }

/-- R331, R333: the status with which a packet is refused when it is accepted; 0 for none. -/
def acceptStatus (s : State) (q : Nat) (pos : BitVec 32) (p : BitVec 512) : Nat :=
  let guest := fun n => (ctxOf s (queueCtx s n)).vmid
  if pktBad p then 3
  else if pktKind p == 1 && decide (queueLevel s q < pfld p 8 2) then 2
  else if pktKind p == 3 && pktMode p == 2 && guest q != guest (pfld p 64 6) then 2
  else if pktKind p == 7 && guest q != guest (pfld p 96 6) then 2
  else if pktKind p == 1 && !blockFits s (launchFrom s q pos p 0) then 1
  else 0

/-! ### The journal (R441) and record mode (R443) -/

/-- R441: JRNCFG.EN. -/
def journalOn (s : State) : Bool := s.plat.jrnCfg.getLsbD 63

/-- R441: the offset of an entry from the base of the journal, or of its mirror. -/
def journalOfs (s : State) (seq : Nat) : Nat := 64 * (seq % 2 ^ nbits s.plat.jrnCfg.toNat 0 5)

/-- The LPDDR6 location of an entry, and its location in the pool (log entry 11). -/
def journalPlaces (s : State) (seq : Nat) : List Nat :=
  let home := hubLoc (nbits s.plat.jrnCfg.toNat 12 40 * 2 ^ 12) + journalOfs s seq
  let m := s.plat.jrnMirror.toNat + journalOfs s seq
  home :: (if s.plat.jrnMirror == 0 then [] else [dloc 3 (m / 2 ^ 19) (m % 2 ^ 19)])

/-- R441: the 64 bytes of an entry. -/
def journalEntry (s : State) (k : Packet) : List Byte :=
  toBytes k.seq 8 ++ toBytes k.pos.toNat 4 ++ toBytes k.queue 1 ++ [0xFF, 0, 0] ++ toBytes k.ver.toNat 4 ++ toBytes (queueCtx s k.queue) 4
    ++ toBytes (Config.shake256 (toBytes k.bits.toNat 64)).toNat 32 ++ toBytes 0 8

/-- R441: an accepted packet takes its entry, before QRD advances past it. -/
def journalAccept (s : State) (k : Packet) : State :=
  if journalOn s then (journalPlaces s k.seq).foldl (fun s a => rawWriteN s a (journalEntry s k)) s else s

/-- R441: the status byte of a packet's entry, unless a later entry has taken its place. -/
def journalStatus (s : State) (k : Packet) : State :=
  if journalOn s then
    (journalPlaces s k.seq).foldl (fun s a =>
      if ofBytes (rawReadN s a 8) == k.seq % 2 ^ 64 then rawWrite s (a + 13) (BitVec.ofNat 8 k.status) else s) s
  else s

/-- R443: an accepted packet goes to the buffer of a queue in record mode: the packet, then its SEQ, then room for 80 clocks. -/
def recordAccept (s : State) (k : Packet) : State :=
  let x := queueOf s k.queue
  if recMode x == 1 && decide (x.recPos < recEntries x) then
    sigWrite s (recBuffer x + 1024 * x.recPos) (toBytes k.bits.toNat 64 ++ toBytes k.seq 8 ++ toBytes 0 640)
  else s

/-! ### PACKET_ACCEPT (R328) -/

/-- The hub thread of a queue serves packets: it has not parked (R440) and no record stops it (R444). -/
def threadServes (s : State) (q : Nat) : Bool := match aget s.agents q with
  | some ag => !ag.hub.parked && ag.traps.isEmpty
  | none => false

/-- R327, R328, R336: a queue may accept its next packet. A service queue's packets are consumed by software. -/
def mayAccept (s : State) (q : Nat) : Bool :=
  let x := queueOf s q
  decide (q < Config.queues) && queueOn x && !isService s q && x.wr != x.rd && x.group.isNone && threadServes s q

/-- A packet that has been read takes its place in the queue: its checks are made, the journal and the buffer of record mode are written,
and QRD advances. One whose context ended while it stood in the ring ends too (R377). -/
def acceptPacket (s : State) (q : Nat) (p : BitVec 512) : State :=
  let x := queueOf s q
  let st := if x.ends != 0 then 5 else acceptStatus s q x.rd p
  let seq := s.plat.jrnSeq.toNat
  let rec1 := if recMode x == 1 && decide (x.recPos < recEntries x) then x.recPos + 1 else 0
  let entry := if recMode x == 2 then x.replay else rec1
  let k : Packet :=
    { queue := q, pos := x.rd, bits := p, st := if st == 0 then 0 else 2, status := st, detail := 0, sig := pktSig p != 0, group := none
      prog := 0, todo := [], failed := false, seq := seq, ver := s.hub.fwver.setWidth 32, entry := entry }
  let s1 := recordAccept (journalAccept s k) k
  let s2 := { s1 with plat := { s1.plat with jrnSeq := s1.plat.jrnSeq + 1 }, hub := { s1.hub with packets := s1.hub.packets ++ [k] } }
  let y := queueOf s2 q
  putQueue s2 q { y with rd := y.rd + 1, ends := y.ends - 1, recPos := if rec1 == 0 then y.recPos else rec1 }

/-- PACKET_ACCEPT (R328): the thread reads the packet at QRD and advances past it. -/
def execPacketAccept (q : Nat) (s : State) : Out :=
  if !mayAccept s q then .next s
  else match ringRead s q (queueOf s q).rd with
    | (some p, s1) => .next (acceptPacket s1 q p)
    | (none, s1) => .next s1

/-! ### PACKET_START (R329) -/

/-- The packets of a queue in position order. -/
def queuePackets (s : State) (q : Nat) : List Packet := s.hub.packets.filter (fun p => p.queue == q)

/-- R329, R334: a packet holds every later one of its queue from starting: a launch that is not yet eligible for placement, a dependence wait
that has not completed, a signal that waits for its page. -/
def holdsQueue (p : Packet) : Bool :=
  (p.st == 1 && pktKind p.bits == 1 && p.prog == 0) || (decide (p.st < 3) && pktKind p.bits == 3) ||
    (p.st == 1 && pktKind p.bits == 4 && p.group.isSome)

/-- R328, R329: the packet of a queue that starts next, when it may. -/
def nextStart (s : State) (q : Nat) : Option Packet :=
  let l := queuePackets s q
  let before := l.takeWhile (fun p => p.st != 0)
  match l.drop before.length with
  | [] => none
  | p :: _ =>
    if before.any holdsQueue || (pktBar p.bits && before.any (fun x => x.st != 3)) then none else some p

/-- R328, R376, R379, R430: a queue starts packets: it is enabled, its context is not being saved, its quarter is not in a merge or split. -/
def mayStartPackets (s : State) (q : Nat) : Bool :=
  queueOn (queueOf s q) && !ctxStopped s (queueCtx s q) && !quarterBusy s (q / 16) && threadServes s q

/-- PACKET_START (R329). -/
def execPacketStart (q : Nat) (s : State) : Out :=
  match nextStart s q with
  | some p => .next (if mayStartPackets s q then modPkt s q p.pos (fun x => { x with st := 1 }) else s)
  | none => .next s

/-- A started packet of a kind that is not being stopped with its context. -/
def running (s : State) (q : Nat) (pos : BitVec 32) (kind : Nat) : Option Packet := match pktAt s q pos with
  | some p => if p.st == 1 && pktKind p.bits == kind && p.group.isNone && !ctxStopped s (queueCtx s q) then some p else none
  | none => none

/-! ### Launch packets (R333) -/

/-- LAUNCH_PACKET (R333, R46): the blocks of a started launch become eligible for placement, or a cooperative launch that can never fit is
refused. -/
def execLaunchPacket (q pos : Nat) (s : State) : Out :=
  let at_ := BitVec.ofNat 32 pos
  match running s q at_ 1 with
  | none => .next s
  | some p =>
    match freshId s with
    | (id, s1) =>
      let l := launchFrom s1 q at_ p.bits id
      if p.prog != 0 then .next s
      else if pktCoop p.bits != 0 && !coopFits s l then .next (endPacket s q at_ 1 0)
      else
        let s2 := modPkt s1 q at_ (fun x => { x with prog := 1 })
        .next { s2 with hub := { s2.hub with launches := aset s2.hub.launches id l } }

/-! ### Faults of packets (R330, R334) -/

/-- The record fields of a fault of the hub on behalf of a queue. -/
def pktFault (s : State) (q va : Nat) (write engine : Bool) (burst : Nat) (w : WFault) : FaultReq :=
  { type := w.type, ctx := queueCtx s q, va := va, gpa := w.gpa, level := w.level, perm := w.perm, malf := w.malf, s1walk := w.s1walk
    fetch := false, write := write, ladle := false, engine := engine, core := 0xFF, slot := 0, queue := q, pc := 0, lanes := 0
    burst := burst, nburst := if engine then 1 else 0 }

/-- A packet waits for the page of an access of its own: a record is posted (R330). -/
def pktWaits (s : State) (q : Nat) (pos : BitVec 32) (va : Nat) (write : Bool) (w : WFault) : State :=
  let f := pktFault s q va write false 0 w
  match newGroup s f (fun gid => { FaultGroup.of gid f with pkt := some (q, pos, 0) }) with
  | (gid, s1) => postFaults (modPkt s1 q pos (fun x => { x with group := some gid })) f.ctx

/-! ### Copy packets (R276, R277, R334, R344) -/

/-- R276: the bytes of the copy burst that starts at an offset: it ends where the source or the destination enters another aligned 256-byte
block. -/
def pktBurstLen (p : BitVec 512) (o : Nat) : Nat :=
  min (pktLen p - o) (min (256 - (pktAddr p + o) % 256) (256 - (pktDst p + o) % 256))

/-- The index of the burst that starts at an offset: how many bursts start below it. -/
def pktBurstIndex (p : BitVec 512) (o : Nat) : Nat :=
  let a := pktAddr p
  let d := pktDst p
  let blocks := fun x => (x + o) / 256 - x / 256
  if a % 256 == d % 256 then blocks a else blocks a + blocks d

/-- R344: the partition's hub bucket holds credit. -/
def hubCreditOn (s : State) (part : Nat) : Bool := decide (0 < agetD s.hub.hubCredit part 0)

/-- R343 to R345: a burst of a copy packet is charged to the partition's hub bucket and to the queue. -/
def chargeBurst (s : State) (q : Nat) : State :=
  let p := queuePart s q
  let s1 := { s with hub := { s.hub with
    hubCredit := aset s.hub.hubCredit p (agetD s.hub.hubCredit p 0 - 24)
    penergy := aset s.hub.penergy p (agetD s.hub.penergy p 0 + 24) } }
  chargeQueue s1 q 24

/-- R277, R363: a burst of a copy packet parks in the open group of its packet, type and page, or in a new one, whose record stays with the
manager while other bursts may join it. -/
def parkPktBurst (s : State) (q : Nat) (pos : BitVec 32) (p : BitVec 512) (o va : Nat) (write : Bool) (w : WFault) : State :=
  let mine := fun (g : FaultGroup) => g.pkt == some (q, pos, 1) && g.type == w.type && g.page == va / 2 ^ 19 &&
    (!g.posted || g.cmds.contains (noCmd, o))
  match s.hub.groups.find? mine with
  | some g =>
    if g.cmds.contains (noCmd, o) then s
    else editHeld (modGroup s g.id (fun x => { x with cmds := x.cmds ++ [(noCmd, o)] })) g.id (widenBursts (pktBurstIndex p o) va)
  | none =>
    let f := pktFault s q va write true (pktBurstIndex p o) w
    (newGroup s f (fun gid => { FaultGroup.of gid f with cmds := [(noCmd, o)], pkt := some (q, pos, 1) })).2

/-- A burst of a copy packet that has been made waits in no group. -/
def burstMade (s : State) (q : Nat) (pos : BitVec 32) (o : Nat) : State :=
  { s with hub := { s.hub with groups := s.hub.groups.map (fun g =>
    if g.pkt == some (q, pos, 1) then { g with cmds := g.cmds.filter (fun c => c != (noCmd, o)) } else g) } }

/-- R334, R420: one burst of a copy packet: performed, with a token at each port that it reaches, parked, failed, or still to be made. True when it has
been taken up. -/
def pktBurst (s : State) (q : Nat) (pos : BitVec 32) (p : BitVec 512) (o : Nat) : Bool × State :=
  let w := pktWho s q pos
  let n := pktBurstLen p o
  let fail := fun (s : State) => (true, modPkt (chargeBurst s q) q pos (fun x => { x with failed := true }))
  match probe s w (pktAddr p + o) n .read with
  | (.trap _ _, s1) => fail s1
  | (.wait, s1) => (false, s1)
  | (src, s1) => match probe s1 w (pktDst p + o) n .write with
    | (.trap _ _, s2) => fail s2
    | (.wait, s2) => (false, s2)
    | (dst, s2) =>
      let park := fun (s : State) (r : Reach) (write : Bool) => match r with
        | .fault va f => parkPktBurst s q pos p o va write f
        | _ => s
      match src, dst with
      | .mem a, .mem b => (match payReach s2 w (reachPorts s2 w none .read a ++ reachPorts s2 w none .write b) with
        | (false, s3) => (false, s3)
        | (true, s3) => (match takeBytes (burstMade s3 q pos o) w n src with
          | (got, s4) => if got.bad.isSome then fail s4 else (true, chargeBurst (giveBytes s4 w got.bytes dst) q)))
      | _, _ => (true, park (park s2 src false) dst true)

/-- R334: a copy packet whose bursts are all done completes, with ACCESS if one of them failed. -/
def copyEnd (s : State) (q : Nat) (pos : BitVec 32) : State := match pktAt s q pos with
  | some p =>
    if p.prog == pktLen p.bits && p.todo.isEmpty && !s.hub.groups.any (fun g => g.pkt == some (q, pos, 1) && !g.cmds.isEmpty) then
      endPacket s q pos (if p.failed then 4 else 0) 0
    else s
  | none => s

/-- COPY_PACKET (R334, R344): the next burst of a copy packet, while its partition's hub bucket holds credit. -/
def execCopyPacket (q pos : Nat) (s : State) : Out :=
  let at_ := BitVec.ofNat 32 pos
  match running s q at_ 2 with
  | none => .next s
  | some p =>
    let take := fun (o : Nat) (f : Packet → Packet) => match pktBurst s q at_ p.bits o with
      | (true, s1) => copyEnd (modPkt s1 q at_ f) q at_
      | (false, s1) => s1
    if (p.todo.isEmpty && p.prog == pktLen p.bits) || !hubCreditOn s (queuePart s q) then .next (copyEnd s q at_)
    else match p.todo with
      | o :: _ => .next (take o (fun x => { x with todo := x.todo.drop 1 }))
      | [] => .next (take p.prog (fun x => { x with prog := p.prog + pktBurstLen p.bits p.prog }))

/-! ### Dependence waits and signals (R334) -/

/-- A packet's waiter stands in the table. -/
def pktAsleep (s : State) (q : Nat) (pos : BitVec 32) : Bool := s.hub.waiters.any (fun w => w.who == .packet q pos)

/-- R334: the test of a dependence wait on memory. It enters the table before it reads, and leaves again when the test holds; with no free
key it tests again. -/
def waitMemory (s : State) (q : Nat) (pos : BitVec 32) (p : BitVec 512) : State :=
  let va := pktAddr p
  let c := ctxOf s (queueCtx s q)
  match reach s (pktWho s q pos) va 8 .read with
  | (.fault v f, s1) => pktWaits s1 q pos v false f
  | (.mem segs, s1) => match takeBytes s1 (pktWho s1 q pos) 8 (.mem segs) with
    | (got, s2) =>
      let v := ofBytes got.bytes
      if got.bad.isSome then endPacket s2 q pos 4 0
      else if (if pktMode p == 0 then decide (pktVal p ≤ v) else v == pktVal p) then endPacket s2 q pos 0 0
      else if keyFree s2 (BitVec.ofNat 64 va) c.vmid c.asid then
        let e : WaitEntry :=
          { who := .packet q pos, va := BitVec.ofNat 64 va, vmid := c.vmid, asid := c.asid, spa := (segs.head?.map segSpa).getD 0 }
        { s2 with hub := { s2.hub with waiters := s2.hub.waiters ++ [e] } }
      else s2
  | (.wait, s1) => s1
  | (_, s1) => endPacket s1 q pos 4 0

/-- R334: one test of a dependence wait. -/
def waitTest (s : State) (q : Nat) (pos : BitVec 32) : State :=
  match running s q pos 3 with
  | none => s
  | some p =>
    if pktAsleep s q pos then s
    else if pktMode p.bits == 2 then
      (if ((queueOf s (pfld p.bits 64 6)).done - BitVec.ofNat 32 (pfld p.bits 128 32)).toNat < 2 ^ 31 then endPacket s q pos 0 0 else s)
    else waitMemory s q pos p.bits

/-- DEPENDENCE_WAIT (R334). -/
def execDependenceWait (q pos : Nat) (s : State) : Out := .next (waitTest s q (BitVec.ofNat 32 pos))

/-- DEPENDENCE_WAIT_RETEST (R334): a dependence wait tests again after its waiter has returned. -/
def execDependenceWaitRetest (q pos : Nat) (s : State) : Out := .next (waitTest s q (BitVec.ofNat 32 pos))

/-- SIGNAL (R334): a store or an atomic add of VAL at ADDR, then the wake of its waiters. -/
def execSignal (q pos : Nat) (s : State) : Out :=
  let at_ := BitVec.ofNat 32 pos
  match running s q at_ 4 with
  | none => .next s
  | some p =>
    let w := pktWho s q at_
    let add := pktMode p.bits == 1
    match reach s w (pktAddr p.bits) 8 (if add then .both else .write) with
    | (.fault v f, s1) => .next (pktWaits s1 q at_ v true f)
    | (.wait, s1) => .next s1
    | (.mem segs, s1) =>
      let store := fun (s : State) (v : Nat) =>
        endPacket (wakeSpa (giveBytes s w (toBytes v 8) (.mem segs)) ((segs.head?.map segSpa).getD 0)) q at_ 0 0
      if !add then .next (store s1 (pktVal p.bits))
      else (match takeBytes s1 w 8 (.mem segs) with
        | (got, s2) =>
          .next (if got.bad.isSome then endPacket s2 q at_ 4 0 else store s2 ((ofBytes got.bytes + pktVal p.bits) % 2 ^ 64)))
    | (_, s1) => .next (endPacket s1 q at_ 4 0)

/-! ### Migrate requests (R334) -/

/-- R334, R151: what becomes of the page of a migrate request at an address: the packet ends with a status and a detail, the page is done, or
the packet waits. -/
def migratePage (s : State) (q : Nat) (pos : BitVec 32) (p : BitVec 512) (va : Nat) : State :=
  let fin := fun (s : State) st d => endPacket s q pos st d
  match decodeAddr va with
  | .spm _ => fin s 0 6
  | .peer _ _ => fin s 0 6
  | .mem =>
    let w := pktWho s q pos
    (match agentTranslate s w.core (spaceOf s w.ctx w.level) va .any false with
     | (.fault _, s1) => fin s1 0 8
     | (.ok x, s1) => (match hintPage s1 w.ctx (xlatOut x va / 2 ^ 19) (pfld p 192 3) 3 (x.cls == 1) with
       | .stop st s2 => fin s2 0 st
       | .wait s2 => s2
       | .acted s2 => modPkt s2 q pos (fun x => { x with prog := x.prog + 1 }))
     | (.busy, s1) => s1
     | (_, s1) => fin s1 4 0)
  | _ => fin s 4 0

/-- MIGRATE_REQUEST (R334): the page that a migrate request has reached. -/
def execMigrateRequest (q pos : Nat) (s : State) : Out :=
  let at_ := BitVec.ofNat 32 pos
  match running s q at_ 5 with
  | none => .next s
  | some p =>
    let base := pktAddr p.bits
    let len := pktDst p.bits
    let pages := if len == 0 then 0 else (base + len - 1) / 2 ^ 19 - base / 2 ^ 19 + 1
    if pages ≤ p.prog then .next (endPacket s q at_ 0 0)
    else
      let va := if p.prog == 0 then base else (base / 2 ^ 19 + p.prog) * 2 ^ 19
      .next (if 2 ^ 56 ≤ va then endPacket s q at_ 4 0 else migratePage s q at_ p.bits va)

/-! ### Completion (R330) -/

/-- R330: QDONE is the least position whose packet has not completed. -/
def advanceDone (s : State) (q : Nat) : State :=
  let x := queueOf s q
  let d := ((queuePackets s q).find? (fun p => p.st != 3)).elim x.rd (fun p => p.pos)
  putQueue s q { x with done := d }

/-- R330: the 16 bytes of a completion record. -/
def completionRecord (p : Packet) : List Byte :=
  toBytes (pktSigVal p.bits) 8 ++ toBytes p.pos.toNat 4 ++ toBytes p.status 2 ++ toBytes p.detail 2

/-- R330: the trap record of a completion record that stage 1 refuses. It stops no agent, but may be acted on (R372). -/
def sigRefused (s : State) (q va : Nat) : State :=
  let ctx := queueCtx s q
  let c := ctxOf s ctx
  let (nobody, s0) := freshId s
  match recordId s0 with
  | (id, s1) =>
    let info : TrapInfo :=
      { id := id, ctx := ctx, agent := nobody, level := .u, code := BitVec.ofNat 8 TrapCode.accessViolation.num, kind := 0, word := 0
        hdr := 0, group := 0, count := 0, op := 0, cmd := none, fetch := false, loose := true }
    let s2 := { s1 with hub := { s1.hub with traps := s1.hub.traps ++ [info] } }
    postRecord s2 (if ctx == 0 then .hypTrap else .trap ctx) (mkRec [(272, 8, 0xFF), (256, 6, q), (192, 32, id), (64, 56, va), (40, 16, c.asid.toNat),
      (32, 8, c.vmid.toNat), (20, 12, ctx), (0, 8, TrapCode.accessViolation.num)]) none

/-- R330: the completion record of a packet: written with its wake, refused with a trap record, or held for a fault group. -/
def writeCompletion (s : State) (p : Packet) : State :=
  let va := pktSig p.bits
  let gone := fun (s : State) => modPkt s p.queue p.pos (fun x => { x with sig := false })
  match reach s (pktWho s p.queue p.pos) va 16 .write with
  | (.fault v f, s1) => pktWaits s1 p.queue p.pos v true f
  | (.wait, s1) => s1
  | (.mem segs, s1) =>
    gone (wakeSpa (giveBytes s1 (pktWho s1 p.queue p.pos) (completionRecord p) (.mem segs)) ((segs.head?.map segSpa).getD 0))
  | (_, s1) => gone (sigRefused s1 p.queue va)

/-- Packets that have completed and whose records are written leave the queue. -/
def dropDone (s : State) (q : Nat) : State :=
  { s with hub := { s.hub with packets := s.hub.packets.filter (fun p => !(p.queue == q && p.st == 3 && !p.sig)) } }

/-- PACKET_COMPLETE (R330, R441): the journal's status, QDONE, then the completion record, which may wait for a page. -/
def execPacketComplete (q pos : Nat) (s : State) : Out :=
  let at_ := BitVec.ofNat 32 pos
  match pktAt s q at_ with
  | none => .next s
  | some p =>
    if p.st < 2 || p.group.isSome then .next s
    else
      let s1 := if p.st == 2 then advanceDone (modPkt (journalStatus s p) q at_ (fun x => { x with st := 3 })) q else s
      .next (dropDone (if p.sig then writeCompletion s1 p else s1) q)

/-- The access that a packet waits to make is made again (R398). -/
def packetAccess (s : State) (q : Nat) (pos : BitVec 32) : Out := match pktAt s q pos with
  | none => .next s
  | some p =>
    if 2 ≤ p.st then execPacketComplete q pos.toNat s
    else match pktKind p.bits with
      | 2 => execCopyPacket q pos.toNat s
      | 3 => execDependenceWait q pos.toNat s
      | 4 => execSignal q pos.toNat s
      | _ => .next s

/-! ### Deferred launches (R50, R337) -/

/-- DEFERRED_APPEND (R337): a ready deferred launch of a core goes to its ring, once the queue is enabled and has room. -/
def execDeferredAppend (core idx : Nat) (s : State) : Out :=
  match (deferredOn s core)[idx]? with
  | none => .next s
  | some d =>
    if !d.ready || !queueOn (queueOf s d.queue) || ringFull (queueOf s d.queue) then .next s
    else match ringAppend s d.queue d.bits with
      | (true, s1) => .next { s1 with hub := { s1.hub with defers := s1.hub.defers.erase d } }
      | (false, s1) => .next s1

/-! ### Notify registers (R322, R328) -/

/-- QWR_WRITE (R328, R433). -/
def execQwrWrite (w : Writer) (q : Nat) (v : BitVec 64) (s : State) : Out :=
  .next (if winAllowed s w (.queue q 2) true then qwrTake s q (v.setWidth 32) else s)

/-- HUB_THREAD_WAKE (R322): a thread that sleeps in `HALT` wakes when the notify register of its queue has been written. -/
def execHubThreadWake (t : Nat) (s : State) : Out :=
  .next (if decide (t < 64) then modAgent s t (fun ag => if ag.hub.notified && ag.hub.halted then { ag with hub := { ag.hub with halted := false } } else ag)
    else s)

end Sys2Proof.Machine
end

