-- ==== Sys2Proof/Machine/Registers.lean ====
section
/-! DEFINITION. Writes of the hub register window that change what the package is configured to (R150, R312, R313, R327, R387, R415 to
R420, R427, R435, R441, R443), the change of cut (R429, R430), and token refills (R420). -/

namespace Sys2Proof.Machine

/-! ### Queues (R326, R327, R415) -/

/-- R327: the bits of QCFG that a write sets. -/
def qcfgBits : DWord := 0x00003FFFF000000F

/-- R326, R345: EN of a queue changes: QELAPSED and QENERGY begin afresh when it rises, and QELAPSED stops when it falls. -/
def setEnable (s : State) (x : Queue) (on : Bool) : Queue :=
  let now := BitVec.ofNat 64 s.cycles
  match queueOn x, on with
  | false, true => { x with elapsed := 0 - now, energy := 0, rem := 0 }
  | true, false => { x with elapsed := x.elapsed + now }
  | _, _ => x

/-- QCFG_WRITE (R327, R415): LEVEL 3 is ignored as a whole; while EN is 1 only EN changes; EN is not set for a context of another
partition. -/
def execQcfgWrite (w : Writer) (q : Nat) (v : BitVec 64) (s : State) : Out :=
  let x := queueOf s q
  let new := if queueOn x then (x.cfg &&& (~~~1)) ||| (v &&& 1) else v &&& qcfgBits
  let foreign := new.getLsbD 0 && !queueOn x && ctxPart s (nbits new.toNat 34 12) != queuePart s q
  if !winAllowed s w (.queue q 0) true || nbits v.toNat 32 2 == 3 || foreign then .next s
  else .next (putQueue s q { setEnable s x (new.getLsbD 0) with cfg := new })

/-! ### Registers of contexts (R150, R312, R313, R418) -/

/-- HINTBUD_WRITE (R150, R312). -/
def execHintbudWrite (w : Writer) (ctx : Nat) (v : BitVec 64) (s : State) : Out :=
  .next (if winAllowed s w (.ctxreg ctx 9) true then ctxRegWrite s ctx 9 v else s)

/-- WWEND (R313): at S, a context of another guest is out of reach. -/
def execWwend (w : Writer) (v : BitVec 64) (s : State) : Out :=
  let c := nbits v.toNat 0 12
  if !levelGe w.level .s || (w.level == .s && ctxHeld s c && (ctxOf s c).vmid != w.vmid) then .next s
  else .next (ctxRegWrite s 0 10 v)

/-- R418: some page of a guest lies in tiers 0 to 2. -/
def guestHasPages (s : State) (vmid : Nat) : Bool :=
  (livePages s).any (fun k =>
    let e := pageEntry s k
    peVmid e == vmid && decide (peState e < 3) && decide (peTier e < 3))

/-- R418: the bits of CTXQOS that a write sets. -/
def qosBits : DWord := 0xFFFF00F30FFF0007

/-- A field of CTXQOS, PROF, SEED and DIEMASK together. -/
def qosPlace (v : DWord) : Nat × Nat × Nat := (nbits v.toNat 0 3, nbits v.toNat 16 12, nbits v.toNat 32 2)

/-- R416: the stacks of a profile on a die. -/
def profStacks (p die : Nat) : Nat := ((List.range 4).filter (fun i => nbits p (4 * (die - 1) + i) 1 == 1)).length

/-- R418: a new value of a context's CTXQOS breaks one of the conditions. -/
def qosBad (s : State) (c : Nat) (v : DWord) : Bool :=
  let x := ctxOf s c
  let p := iprof s (nbits v.toNat 0 3)
  let others := s.hub.ctxs.filter (fun y => y.1 != c && y.2.vmid == x.vmid)
  let old := qosPlace x.qos
  let new := qosPlace v
  others.any (fun y => qosPlace y.2.qos != new) || nbits p 26 1 == 0 || nbits p 28 2 != ctxPart s c ||
    (nbits v.toNat 32 1 == 1 && profStacks p 1 == 0) || (nbits v.toNat 33 1 == 1 && profStacks p 2 == 0) ||
    classPart s (nbits v.toNat 36 4) != ctxPart s c || ((old.1 != new.1 || old.2.1 != new.2.1) && guestHasPages s x.vmid.toNat)

/-- CTXQOS_WRITE (R418): a write that breaks a condition leaves the whole register unchanged. -/
def execCtxqosWrite (w : Writer) (ctx : Nat) (v : BitVec 64) (s : State) : Out :=
  let new := v &&& qosBits
  if !winAllowed s w (.ctxqos ctx) true || qosBad s ctx new then .next s
  else .next (putCtx s ctx { ctxOf s ctx with qos := new })

/-! ### Interleave profiles (R416) -/

/-- R416: the bits of a register of a profile: `IPROFn`, `IPHASHn_0`, the other hash registers. -/
def profBits (i : Nat) : DWord :=
  if i == 0 then 0x07FFFFFF34FFFFFF else if i == 1 then 0x1FFFFF7FFFFFFFFF else 0x7FFFFFFFFF

/-- The XOR of the masks that a set names. -/
def maskSum (masks : List Nat) (set : Nat) : Nat :=
  ((List.range masks.length).filter (fun i => nbits set i 1 == 1)).foldl (fun a i => a ^^^ masks.getD i 0) 0

/-- R416: seven masks are linearly independent over GF(2): no nonempty set of them sums to 0. -/
def independent (masks : List Nat) : Bool := (List.range 127).all (fun k => maskSum masks (k + 1) != 0)


/-- R416: the checks of a write that sets VALID. -/
def profileFits (s : State) (n p : Nat) : Bool :=
  let part := nbits p 28 2
  let hbm := (List.range 8).filter (fun i => nbits p i 1 == 1)
  let chans := (List.range 16).filter (fun i => nbits p (8 + i) 1 == 1)
  let mine := fun q => partOfQuarter s.hub.partCfg q == part
  let onDie := fun d => profStacks p d == 0 || decide (profCount p ≤ 131072 * profStacks p d)
  let base := profBase s n
  [0, 1, 2, 4].contains (profStacks p 1) && [0, 1, 2, 4].contains (profStacks p 2) && [0, 1, 2, 4, 8, 16].contains chans.length &&
    hbm.all (fun i => mine (i / 2)) && chans.all (fun i => mine (i / 4)) && independent ((List.range 7).map (profMask s n)) &&
    onDie 1 && onDie 2 && decide (profCount p ≤ 65536 * chans.length) && decide (base + profCount p ≤ 2 ^ 21) &&
    (List.range 8).all (fun m => m == n || nbits (iprof s m) 26 1 == 0 || !rangesMeet base (profCount p) (profBase s m) (profCount (iprof s m)))

/-- IPROF_WRITE (R416): a register of a profile. While VALID is 1 only VALID changes, and not while a context names the profile; VALID is set
only where every check holds. -/
def execIprofWrite (w : Writer) (n i : Nat) (v : BitVec 64) (s : State) : Out :=
  let old := sget s.hub.profiles (8 * n + i)
  let new := v &&& profBits i
  let valid := nbits (iprof s n) 26 1 == 1
  let noValid := fun (x : DWord) => x &&& ~~~(0x4000000 : DWord)
  let put := fun (x : DWord) => Host.Outcome.next { s with hub := { s.hub with profiles := sset s.hub.profiles (8 * n + i) x } }
  if !winAllowed s w (.prof n i) true then .next s
  else if i != 0 then (if valid then .next s else put new)
  else if valid then
    (if noValid new != noValid old || new.getLsbD 26 || s.hub.ctxs.any (fun c => nbits c.2.qos.toNat 0 3 == n) then .next s else put new)
  else put (if new.getLsbD 26 && !profileFits s n new.toNat then noValid new else new)

/-! ### Token buckets (R420) -/

/-- R420: the bits of a class register. -/
def l2bktBits : DWord := 0x00000007FFFFFFFF

/-- L2BKT_WRITE (R420): a class; its buckets are full when it becomes valid. -/
def execL2bktWrite (w : Writer) (n : Nat) (v : BitVec 64) (s : State) : Out :=
  if !winAllowed s w (.l2bkt n) true then .next s
  else
    let s1 := { s with hub := { s.hub with buckets := sset s.hub.buckets n (v &&& l2bktBits) } }
    .next (if v.getLsbD 34 && !classValid s n then { s1 with mem := { s1.mem with tokens := s1.mem.tokens.filter (fun t => t.2.1 != n) } }
      else s1)

/-- BUCKET_REFILL (R420): 1,024 clocks have passed: each bucket gains RATE tokens, up to DEPTH. -/
def execBucketRefill (s : State) : Out :=
  .next { s with mem := { s.mem with tokens := s.mem.tokens.map (fun t =>
    (t.1, t.2.1, min (t.2.2 + (nbits (sget s.hub.buckets t.2.1).toNat 0 16 : Nat)) (classDepth s t.2.1))) } }

/-! ### Ports (R435) -/

/-- R435: CTXID, VMID and MODE of a port, which a write sets while the link is down. -/
def portBits : DWord := 0x00000000FFFFF003

/-- PORT_WRITE (R435). The reserved code 3 is not written: MODE stays (R8). -/
def execPortWrite (w : Writer) (n : Nat) (v : BitVec 64) (s : State) : Out :=
  let old := sget s.plat.ports n
  if !winAllowed s w (.port n) true || old.getLsbD 2 then .next s
  else
    let bits := if nbits v.toNat 0 2 == 3 then portBits &&& ~~~(3 : DWord) else portBits
    .next { s with plat := { s.plat with ports := sset s.plat.ports n ((old &&& ~~~bits) ||| (v &&& bits)) } }

/-! ### The other registers -/

/-- R443: RECCTL of a queue: its buffer is written, or read, from its beginning. MODE code 3, to which R443 gives no meaning, is stored and neither
records nor replays (DESIGN CHOICE, log entry 90). -/
def recctlWrite (s : State) (q : Nat) (v : DWord) : State :=
  putQueue s q { queueOf s q with recctl := v &&& 0xFFFFFFFFFFFFF003, recPos := 0, replay := 0 }

/-- R427: PCAP of a partition; one of a number that is not a partition ignores writes. -/
def pcapWrite (s : State) (n : Nat) (v : DWord) : State :=
  if isPart s.hub.partCfg n then { s with hub := { s.hub with pcap := sset s.hub.pcap n (v &&& 0xFFFF) } } else s

/-- What a permitted write of a register sets, for the registers that have no row of their own in the opcode table (R312, R326, R378, R387,
R427, R429, R420, R440, R441, R443). -/
def regWrite (s : State) (r : WinReg) (v : DWord) : State :=
  let plat := fun (p : Platform) => { s with plat := p }
  let p := s.plat
  match r with
  | .queue q 1 => putQueue s q { queueOf s q with base := v &&& ~~~(0x3F : DWord) }
  | .queue q 3 => if isService s q then putQueue s q { queueOf s q with rd := v.setWidth 32 } else s
  | .preemptsig => { s with hub := { s.hub with preemptSig := v &&& ~~~(0xF : DWord) } }
  | .partsig => { s with hub := { s.hub with partSig := v } }
  | .pltcfg => plat { p with pltcfg := v &&& 0x000FFFFFFFE00000 }
  | .pltlim => plat { p with pltlim := v &&& 0x00000003FFFFFFFF }
  | .pkgid => plat { p with pkgid := v &&& 0x1F }
  | .poolown => plat { p with poolown := v &&& 0x000FFFFFFFFFF000 }
  | .migpol n => plat { p with migpol := sset p.migpol n (v &&& 0x0001FFFFFFFFFFFF) }
  | .gstatsel => plat { p with gstatsel := v &&& 0xFF }
  | .pcap n => pcapWrite s n v
  | .hartclass h => { s with hub := { s.hub with hartClass := sset s.hub.hartClass h (v &&& 0xF) } }
  | .jrncfg => if journalOn s then s else plat { p with jrnCfg := v &&& 0x800FFFFFFFFFF01F }
  | .jrnmirror => if journalOn s then s else plat { p with jrnMirror := v }
  | .recctl q => recctlWrite s q v
  | .fwstage => plat { p with fwStage := v }
  | .ctxreg c n => ctxRegWrite s c n v
  | _ => s

/-- REGISTER_WRITE (R312, R433): a write below the register's level, or of another guest's register, is not performed. -/
def execRegisterWrite (w : Writer) (ofs : Nat) (v : BitVec 64) (s : State) : Out :=
  .next (if winAllowed s w (winReg ofs) true then regWrite s (winReg ofs) v else s)

/-! ### The change of cut (R429, R430) -/

/-- The quarters of a WHICH (R429). -/
def cutQuarters (which : BitVec 2) : List Nat :=
  match which.toNat with
  | 0 => [0, 1]
  | 1 => [2, 3]
  | _ => [0, 1, 2, 3]

/-- R429: the parts that a WHICH names are joined. -/
def cutJoined (cfg : BitVec 8) (which : BitVec 2) : Bool :=
  match which.toNat with
  | 0 => cfg.getLsbD 0
  | 1 => cfg.getLsbD 1
  | 2 => cfg.getLsbD 2
  | _ => false

/-- R414, R429: a request is invalid. A half of the whole package cannot be split, for PARTCFG holds no such cut. -/
def cutInvalid (cfg : BitVec 8) (merge : Bool) (which : BitVec 2) : Bool :=
  which == 3 || (if merge then cutJoined cfg which || (which == 2 && !(cfg.getLsbD 0 && cfg.getLsbD 1))
    else !cutJoined cfg which || (which != 2 && cfg.getLsbD 2))

/-- R429: the record of the end of a request. -/
def cutRecord (s : State) (merge : Bool) (which : BitVec 2) (status busy us : Nat) : State :=
  sigWrite s s.hub.partSig.toNat ([if merge then 1 else 2, which.setWidth 8, 0, 0] ++ toBytes status 4 ++ toBytes busy 4 ++ toBytes us 4)

/-- BUSY bits of some quarters (R414). -/
def busyBits (l : List Nat) : BitVec 8 := l.foldl (fun b q => b ||| (1 <<< (4 + q))) 0

/-- R429, R430: a request for a change of cut: ignored while one is under way, refused where it is invalid, or begun with BUSY set. -/
def cutRequest (s : State) (merge : Bool) (v : DWord) : State :=
  let which : BitVec 2 := BitVec.ofNat 2 (nbits v.toNat 60 2)
  let us := nbits v.toNat 0 32
  if s.hub.partCfg.toNat / 16 % 16 != 0 then s
  else if cutInvalid s.hub.partCfg merge which then cutRecord s merge which 2 0xFFFFFFFF 0
  else
    let c : CutChange := { merge := merge, which := which, deadline := if us == 0 then 1000 else us, since := s.cycles }
    { s with hub := { s.hub with partCfg := s.hub.partCfg ||| busyBits (cutQuarters which), cut := some c } }

/-- PARTCTL_MERGE (R429, R430). -/
def execPartctlMerge (w : Writer) (v : BitVec 64) (s : State) : Out :=
  .next (if winAllowed s w .partctl true then cutRequest s true v else s)

/-- PARTCTL_SPLIT (R429, R430). -/
def execPartctlSplit (w : Writer) (v : BitVec 64) (s : State) : Out :=
  .next (if winAllowed s w .partctl true then cutRequest s false v else s)

/-- R430: a queue is idle: it is disabled, or every started packet has completed. -/
def queueIdle (s : State) (q : Nat) : Bool :=
  !queueOn (queueOf s q) || !(queuePackets s q).any (fun p => p.st == 1 || p.st == 2)

/-- R429: the lowest busy queue of some quarters. -/
def lowestBusy (s : State) (quarters : List Nat) : Option Nat :=
  (List.range 64).find? (fun q => quarters.contains (q / 16) && !queueIdle s q)

/-- R430 step 1: the quarters of a change are quiet: their queues are idle and no block is resident on their cores. -/
def cutQuiet (s : State) (quarters : List Nat) : Bool :=
  (lowestBusy s quarters).isNone && !s.blocks.any (fun b => quarters.contains (coreQuarter b.2.core))

/-- The microseconds since a request (R14). -/
def usSince (s : State) (t : Nat) : Nat := (s.cycles - t) / Config.usClocks

/-- A request for a change of cut ends: BUSY clears and the record is written. -/
def cutEnd (s : State) (c : CutChange) (status : Nat) (busy : Option Nat) : State :=
  let s1 := { s with hub := { s.hub with partCfg := s.hub.partCfg &&& 0x0F, cut := none } }
  cutRecord s1 c.merge c.which status (busy.getD 0xFFFFFFFF) (usSince s c.since)

/-- R427: the effective cap of a partition. -/
def effCap (s : State) (p : Nat) : Nat :=
  let share := Config.quarterWatts * quartersOf s.hub.partCfg p
  let c := nbits (sget s.hub.pcap p).toNat 0 16
  if c == 0 || share < c then share else c

/-- The partitions that a WHICH joins, lower first. -/
def cutParts (which : BitVec 2) : Nat × Nat := if which == 0 then (0, 1) else if which == 1 then (2, 3) else (0, 2)

/-- R430 step 2: what stands in PART of the profiles and classes of the joined partition. -/
def repart (lo a b : Nat) (m : Sparse 64) : Sparse 64 :=
  m.foldl (fun m p => if nbits p.2.toNat lo 2 == b then sset m p.1 (BitVec.ofNat 64 (nset p.2.toNat lo 2 a)) else m) m

/-- The profile registers that hold PART. -/
def isIprof (p : Nat × DWord) : Bool := p.1 % 8 == 0

/-- R430 step 2: the rewrite. The partition of ports, queues, harts and contexts follows from the J bits. -/
def cutRewrite (s : State) (c : CutChange) : State :=
  let bit : BitVec 8 := 1 <<< c.which.toNat
  if c.merge then
    let (a, b) := cutParts c.which
    let cap := effCap s a + effCap s b
    let heads := s.hub.profiles.filter isIprof
    let profs := (repart 28 a b heads).foldl (fun m p => sset m p.1 p.2) s.hub.profiles
    let caps := sset (sset s.hub.pcap a (BitVec.ofNat 64 cap)) b 0
    { s with hub := { s.hub with
      partCfg := s.hub.partCfg ||| bit, profiles := profs, buckets := repart 32 a b s.hub.buckets, pcap := caps } }
  else { s with hub := { s.hub with partCfg := s.hub.partCfg &&& ~~~bit } }

/-- R430 step 3: the cores' TLBs, the quads' TLBs, and the walk and location caches of the dies of some quarters lose their entries. -/
def shootDown (s : State) (quarters : List Nat) : State :=
  let core := fun c => quarters.contains (coreQuarter c)
  let dies := (if quarters.contains 0 || quarters.contains 1 then [1] else []) ++ (if quarters.contains 2 || quarters.contains 3 then [2] else [])
  let gone := fun (e : TlbEntry) => (decide (e.place < 80) && core e.place) || (decide (100 ≤ e.place) && decide (e.place < 120) && core (4 * (e.place - 100)))
  { s with mem := { s.mem with
    tlb := s.mem.tlb.filter (fun e => !gone e)
    walk := s.mem.walk.filter (fun e => !dies.contains e.die)
    loc := s.mem.loc.filter (fun e => !dies.contains e.die)
    tables := s.mem.tables.filter (fun e => !dies.contains e.die) } }

/-- R430: a split also requires that no context of the partition exists and that no valid profile is its own. Context 0, the hypervisor's own (R370), is
held from reset by the manager of H's trap queue and not by a tenant of the partition; it is not counted (DEDUCED, log entry 36). -/
def splitHeld (s : State) (which : BitVec 2) : Bool :=
  let p := (cutParts which).1
  s.hub.ctxs.any (fun c => c.1 != 0 && ctxPart s c.1 == p) ||
    (List.range 8).any (fun n => nbits (iprof s n) 26 1 == 1 && nbits (iprof s n) 28 2 == p)

/-- R430 step 1: the deadline of a request has passed. -/
def cutLate (s : State) (c : CutChange) : Bool := decide (c.deadline ≤ usSince s c.since)

/-- PARTITION_QUIESCED (R430): the quarters are quiet before the deadline: rewrite, shoot down, release. -/
def execPartitionQuiesced (s : State) : Out :=
  match s.hub.cut with
  | none => .next s
  | some c =>
    if !cutQuiet s (cutQuarters c.which) || cutLate s c then .next s
    else if !c.merge && splitHeld s c.which then .next (cutEnd s c 1 none)
    else .next (cutEnd (shootDown (cutRewrite s c) (cutQuarters c.which)) c 0 none)

/-- PARTITION_DEADLINE (R430): the deadline has passed first. -/
def execPartitionDeadline (s : State) : Out :=
  match s.hub.cut with
  | none => .next s
  | some c =>
    if !cutLate s c then .next s
    else .next (cutEnd s c 1 (lowestBusy s (cutQuarters c.which)))

end Sys2Proof.Machine
end

