-- ==== Sys2Proof/Machine/Services.lean ====
section
/-! DEFINITION. Service calls (R316, R336) and the hub firmware's answers: free device pages (R389), attestation, measurements and keys
(R438). -/

namespace Sys2Proof.Machine

/-! ### Calls and replies (R316, R336) -/

/-- An outstanding call. -/
def callOf (s : State) (id : Nat) : Option SysCall := s.hub.calls.find? (fun c => c.id == id)

/-- R336: the service queue that takes the calls made at a level: the lowest-numbered of those enabled whose SVCL names it (DESIGN CHOICE, log
entry 30: the spec does not say which of several). -/
def serviceQueue (s : State) (l : Level) : Option Nat :=
  let svcl := l == .h
  (List.range Config.queues).find? (fun q => queueOn (queueOf s q) && isService s q && (queueOf s q).cfg.getLsbD 3 == svcl)

/-- R336: the packet of a call at a position. -/
def callPacket (c : SysCall) (pos : BitVec 32) : BitVec 512 :=
  mkRec [(256, 32, pos.toNat), (192, 64, c.pc.toNat), (128, 12, c.ctx), (64, 64, c.arg.toNat), (16, 7, c.code.toNat), (8, 2, levelNum c.level), (0, 8, 6)]

/-- SERVICE_CALL (R336): the call is appended to its service queue, or waits while the ring is full. -/
def execServiceCall (call : Nat) (s : State) : Out :=
  match callOf s call with
  | none => .next s
  | some c => match serviceQueue s c.level with
    | none => .next s
    | some q =>
      let pos := (queueOf s q).wr
      if c.place.isSome || ringFull (queueOf s q) then .next s
      else match ringAppend s q (callPacket c pos) with
        | (true, s1) => .next { s1 with hub := { s1.hub with calls := s1.hub.calls.map (fun x =>
            if x.id == call then { x with place := some (q, pos) } else x) } }
        | (false, s1) => .next s1

/-- R316: a reply reaches a call: its `SYSC` has its value, also while its context is saved. -/
def answerCall (s : State) (c : SysCall) (v : DWord) : State :=
  let s1 := { s with hub := { s.hub with calls := s.hub.calls.filter (fun x => x.id != c.id) } }
  let done := fun (o : Op) => { o with parts := o.parts.map (fun p => { p with st := .done, val := v.setWidth 128 }) }
  if (opOfId s1 c.op).isSome then partDone s1 c.op 32 v.toNat
  else { s1 with hub := { s1.hub with saved := s1.hub.saved.map (fun x => { x with ops := amod x.ops c.op done }) } }

/-- SERVICE_REPLY (R336): VAL goes to the call that CALLID names in SVCQ; where none is outstanding, or the queue is not bound to a context
of the serving level (that of the hypervisor's own guest, DEDUCED, log entry 30), the packet completes with detail 1. -/
def execServiceReply (q pos : Nat) (s : State) : Out :=
  let at_ := BitVec.ofNat 32 pos
  match running s q at_ 7 with
  | none => .next s
  | some p =>
    let place := (pfld p.bits 96 6, BitVec.ofNat 32 (pfld p.bits 64 32))
    let serves := (ctxOf s (queueCtx s q)).vmid == 0
    match s.hub.calls.find? (fun c => c.place == some place && c.level == .s) with
    | some c => .next (if serves then endPacket (answerCall s c (BitVec.ofNat 64 (pktVal p.bits))) q at_ 0 0 else endPacket s q at_ 0 1)
    | none => .next (endPacket s q at_ 0 1)

/-! ### Answers of hub firmware (R389, R438) -/

/-- A call at H that hub firmware may answer: it stands first in its service queue, or no queue takes the calls of H. -/
def fwCall (s : State) (call : Nat) (codes : List Nat) : Option SysCall := match callOf s call with
  | none => none
  | some c =>
    let ready := match c.place with
      | some (q, pos) => (queueOf s q).rd == pos
      | none => (serviceQueue s .h).isNone
    if c.level == .h && ready && codes.contains c.code.toNat then some c else none

/-- Hub firmware answers a call, and consumes its packet. -/
def fwAnswer (s : State) (c : SysCall) (v : DWord) : State :=
  let s1 := match c.place with
    | some (q, pos) => putQueue s q { queueOf s q with rd := pos + 1 }
    | none => s
  answerCall s1 c v

/-- All ones. -/
def allOnes : DWord := 0xFFFFFFFFFFFFFFFF

/-- FREE_TAKE (R389): a page of a list, or all ones; also the answer of all ones to the codes up to 0x1F that name nothing. -/
def execFreeTake (call : Nat) (s : State) : Out :=
  match fwCall s call (0x10 :: (List.range 14).map (fun i => 0x12 + i)) with
  | none => .next s
  | some c =>
    let tier := nbits c.arg.toNat 0 2
    if c.code != 0x10 then .next (fwAnswer s c allOnes)
    else match takeFree s tier (if tier == 3 then 0 else nbits c.arg.toNat 2 3) with
      | some (page, s1) => .next (fwAnswer s1 c (BitVec.ofNat 64 page))
      | none => .next (fwAnswer s c allOnes)

/-- R389: a device page is in use: an entry in STATE 0 to 2 names it. -/
def pageNamed (s : State) (tier page : Nat) : Bool :=
  (livePages s).any (fun k =>
    let e := pageEntry s k
    decide (peState e < 3) && peTier e == tier && pePage e == page)

/-- R389: a device page stands on a list of its tier. -/
def pageListed (s : State) (tier page : Nat) : Bool := s.mem.free.any (fun f => f.tier == tier && f.pages.contains page)

/-- FREE_ADD (R389): a page goes on a list, unless it is listed, named by an entry, or outside the profile's range. -/
def execFreeAdd (call : Nat) (s : State) : Out :=
  match fwCall s call [0x11] with
  | none => .next s
  | some c =>
    let tier := nbits c.arg.toNat 27 2
    let page := nbits c.arg.toNat 0 27
    let prof := if tier == 3 then 0 else nbits c.arg.toNat 29 3
    let out := tier != 3 && (decide (page < profBase s prof) || decide (profBase s prof + profCount (iprof s prof) ≤ page))
    if pageListed s tier page || pageNamed s tier page || out then .next (fwAnswer s c 1)
    else .next (fwAnswer (giveFree s tier prof page) c 0)

/-- R438: the bytes of a measurement register. -/
def measBytes (s : State) (n : Nat) : List Byte := toBytes (sget s.plat.meas n).toNat 64

/-- R437: a measurement register is extended with a digest. -/
def extendMeas (s : State) (n : Nat) (d : List Byte) : State :=
  { s with plat := { s.plat with meas := sset s.plat.meas n (Config.shake256 (measBytes s n ++ d)) } }

/-- R438: bytes 0 to 575 of an attestation report. -/
def reportHead (s : State) (nonce : List Byte) : List Byte :=
  nonce ++ toBytes s.hub.fwver.toNat 4 ++ [s.plat.pkgid.setWidth 8, s.hub.partCfg &&& 7, 0, 0] ++ List.replicate 24 0 ++
    (List.range 8).flatMap (measBytes s)

/-- R438: an attestation report with its signature. -/
def attestReport (s : State) (nonce : List Byte) : List Byte :=
  let head := reportHead s nonce
  head ++ (List.range 3309).map (Config.mldsaSign (Config.shake256 head))

/-- R438: hub firmware may write a buffer at a system-physical address: it is aligned, and its page is resident (DESIGN CHOICE, log entry 30:
the spec does not say what makes a buffer not writable). -/
def bufferOk (s : State) (spa : Nat) : Bool := spa % 4096 == 0 && decide (spa < 2 ^ 52) && pageValid s (spa / 2 ^ 19) && peState (pageEntry s (spa / 2 ^ 19)) < 2

/-- ATTEST (R438); the report is a write of the hub, which may wait for its page (R398). -/
def execAttest (call : Nat) (s : State) : Out :=
  match fwCall s call [0x20] with
  | none => .next s
  | some c =>
    let spa := c.arg.toNat
    if !bufferOk s spa then .next (fwAnswer s c 1)
    else if hubWaits s spa 32 then .next s
    else match hubRead s 0 spa 32 with
      | (nonce, s1) => (match hubPut s1 0 spa false (attestReport s1 nonce) with
        | (true, s2) => .next (fwAnswer s2 c 0)
        | (false, s2) => .next s2)

/-- EXTEND (R438): registers 3 to 7. -/
def execExtend (call : Nat) (s : State) : Out :=
  match fwCall s call [0x21] with
  | none => .next s
  | some c =>
    let n := nbits c.arg.toNat 0 3
    let at_ := nbits c.arg.toNat 6 46 * 64
    if n < 3 then .next (fwAnswer s c 1)
    else if hubWaits s at_ 64 then .next s
    else match hubRead s 0 at_ 64 with
      | (d, s1) => .next (fwAnswer (extendMeas s1 n d) c 0)

/-- KEYSET (R438, R439): the keys of a slot are replaced at once. -/
def execKeyset (call : Nat) (s : State) : Out :=
  match fwCall s call [0x22] with
  | none => .next s
  | some c =>
    let n := nbits c.arg.toNat 0 6
    let at_ := nbits c.arg.toNat 7 45 * 128
    if n == 0 then .next (fwAnswer s c 1)
    else if hubWaits s at_ 64 then .next s
    else match hubRead s 0 at_ 64 with
      | (k, s1) => .next (fwAnswer { s1 with plat := { s1.plat with keys := sset s1.plat.keys n (BitVec.ofNat 512 (ofBytes k)) } } c 0)

end Sys2Proof.Machine
end

