-- ==== Sys2Proof/Machine/TrapAct.lean ====
section
/-! DEFINITION. Actions on trap records (R372, R373), the end of a context (R377), and network errors (R376). -/

namespace Sys2Proof.Machine

/-! ### The end of a context (R377) -/

/-- R377: each packet of a context's queues that has not completed completes with ENDED; those that stand in a ring will, once read. -/
def endPackets (s : State) (ctx : Nat) : State :=
  let mine := fun q => queueCtx s q == ctx
  let pkts := s.hub.packets.map (fun p => if mine p.queue && decide (p.st < 2) then { p with st := 2, status := 5, detail := 0, group := none } else p)
  let qs := s.hub.queues.map (fun p =>
    if mine p.1 && !isService s p.1 then (p.1, { p.2 with ends := ringUsed p.2, group := none }) else p)
  { s with hub := { s.hub with packets := pkts, queues := qs } }

/-- R378: the record of the end of a request (its layout of bytes 0 to 3: DESIGN CHOICE, log entry 35). -/
def preemptRecord (s : State) (ctx op status since : Nat) : State :=
  sigWrite s s.hub.preemptSig.toNat (toBytes ctx 2 ++ [BitVec.ofNat 8 op, 0] ++ toBytes status 4 ++ toBytes (s.cycles - since) 8)

/-- A request ends with a status. -/
def endRequest (s : State) (p : Preempt) (status : Nat) : State :=
  preemptRecord { s with hub := { s.hub with preempts := s.hub.preempts.filter (fun y => y.ctx != p.ctx) } } p.ctx (bitNat p.restore) status p.since

/-- R377: what the hub holds of a context goes: launches, deferred launches, outstanding calls, fault groups with the records of them that are
not posted, trap records, a saved state; a request that has not ended ends refused (R378; its status: DESIGN CHOICE, log entry 35). -/
def endHeld (s : State) (ctx : Nat) : State :=
  let gone := (s.hub.groups.filter (fun g => g.ctx == ctx)).map (fun g => g.id)
  let lost := fun (g : Option Nat) => g.any (fun (n : Nat) => gone.contains n)
  let hub : Hub :=
    { s.hub with
      launches := s.hub.launches.filter (fun l => l.2.ctx != ctx)
      defers := s.hub.defers.filter (fun d => d.ctx != ctx)
      calls := s.hub.calls.filter (fun c => c.ctx != ctx)
      groups := s.hub.groups.filter (fun g => g.ctx != ctx)
      recs := s.hub.recs.map (fun q => { q with held := q.held.filter (fun r => !lost r.2) })
      kept := s.hub.kept.filter (fun k => !lost k.group)
      traps := s.hub.traps.filter (fun t => t.ctx != ctx || decide (t.agent < 64))
      saved := s.hub.saved.filter (fun x => x.ctx != ctx) }
  let s1 := { s with hub := hub }
  (s1.hub.preempts.filter (fun p => p.ctx == ctx)).foldl (fun s p => endRequest s p 1) (takeKept s1 s1.hub.kept)

/-- R377: the blocks of a context, its cohorts and ladles, their accesses and commands, and its barriers are removed. -/
def removeWork (s : State) (ctx : Nat) : State :=
  let ag := fun (p : Nat × Agent) => p.2.ctx != ctx || p.2.kind == .hubThread
  let live := s.agents.filter ag
  let launch := fun n => s.hub.launches.any (fun l => l.1 == n && l.2.ctx == ctx)
  let block := fun n => s.blocks.any (fun b => b.1 == n && b.2.ctx == ctx)
  { s with
    agents := live
    ops := s.ops.filter (fun o => o.2.ctx != ctx || decide (o.2.agent < 64))
    cmds := s.cmds.filter (fun c => c.2.ctx != ctx)
    mem := { s.mem with code := s.mem.code.filter (fun n => !launch n), old := s.mem.old.filter (fun o => !launch o.launch) }
    blocks := s.blocks.filter (fun b => b.2.ctx != ctx)
    bars := s.bars.filter (fun b => !(if b.scope == 1 then block b.owner else launch (b.owner / 2 ^ 40)))
    turn := match s.turn with
      | .agent a => if (aget live a).isSome then s.turn else .idle
      | t => t }

/-- R377: a context is ended: its waiters are withdrawn, its partials merge, its sharing ends (that of its saved blocks too), its work is removed and
its packets complete with ENDED. Pins stay, and so does every write that was performed. -/
def endContext (s : State) (ctx : Nat) : State :=
  let s1 := withdrawWaiters s ctx
  let s2 := (List.range Config.cores).foldl (fun s c => mergeCore s c (fun e => e.ctxs.contains ctx)) s1
  let s3 := (s2.blocks.filter (fun b => b.2.ctx == ctx)).foldl (fun s b => endSharing s b.1) s2
  let kept := (s3.hub.saved.filter (fun x => x.ctx == ctx)).flatMap (fun x => x.blocks.map (fun b => b.1))
  let ids := (s3.blocks.filter (fun b => b.2.ctx == ctx)).map (fun b => b.1) ++ kept
  let ended := fun (x : Subscription) => if ids.contains x.pblock then { x with ended := true } else x
  let gone := fun (x : Subscription) => ids.contains x.block
  let s4 := { s3 with mem := { s3.mem with subs := (s3.mem.subs.filter (fun x => !gone x)).map ended } }
  evalBarriers (removeWork (endHeld (endPackets s4 ctx) ctx) ctx)

/-- ENDCTX (R377, R433). -/
def execEndctx (w : Writer) (ctx : Nat) (s : State) : Out :=
  let own := levelGe w.level .h || (ctxOf s ctx).vmid == w.vmid
  .next (if winAllowed s w .endctx true && own then endContext s ctx else s)

/-- FLIT_PAYLOAD_ERROR (R376): the flit is dropped, the context that its header names is ended, and a record with ESRC 6 is posted. -/
def execFlitPayloadError (ctx : Nat) (s : State) : Out :=
  .next (postQueue (hubErrorRecord (endContext s ctx) ctx 6 0xFF 0 0 0) .hypTrap)

/-- FLIT_HEADER_ERROR (R376): the partition comes down: its contexts are ended, its queues are left, and a record with ESRC 7 is posted. Each
queue starts again when it is enabled (DEDUCED, log entry 31). -/
def execFlitHeaderError (part : Nat) (s : State) : Out :=
  if !isPart s.hub.partCfg part then .next s
  else
    let ids := (s.hub.ctxs.filter (fun c => ctxPart s c.1 == part)).map (fun c => c.1)
    let s1 := ids.foldl endContext s
    let s2 := ((List.range Config.queues).filter (fun q => queuePart s q == part)).foldl (fun s q =>
      let x := queueOf s q
      if queueOn x then putQueue s q { setEnable s x false with cfg := x.cfg &&& ~~~(1 : DWord) } else s) s1
    .next (postQueue (hubErrorRecord s2 0 7 0xFF 0 0 0) .hypTrap)

/-! ### Records (R372) -/

/-- A record that has not been acted on. -/
def trapInfoOf (s : State) (id : Nat) : Option TrapInfo := s.hub.traps.find? (fun t => t.id == id)

/-- R370: the record of an id is held by the manager: it is in no queue yet, and its agent stays stopped. -/
def trapHeld (s : State) (id : Nat) : Bool :=
  let trapQueue := fun (q : RecQueue) => match q with
    | .trap _ => true
    | .hypTrap => true
    | _ => false
  s.hub.recs.any (fun q => trapQueue q.queue && q.held.any (fun r => pfld r.1 192 32 == id))

/-- R309, R372: a writer reaches a record: at H any, at S those of the trap queues of its own guest's contexts. -/
def trapReached (s : State) (w : Writer) (t : TrapInfo) : Bool :=
  levelGe w.level .h || (w.level == .s && t.level == .u && (ctxOf s t.ctx).vmid == w.vmid)

/-- A record has been acted on: its agent runs again once no other is pending for it (R373). -/
def retireTrap (s : State) (t : TrapInfo) : State :=
  let s1 := { s with hub := { s.hub with traps := s.hub.traps.filter (fun x => x.id != t.id) } }
  modAgent s1 t.agent (fun ag => { ag with traps := ag.traps.filter (fun x => x != t.id) })

/-- The parts that a trap detached, each with its op. -/
def detachedParts (s : State) (id : Nat) : List (Nat × Nat) :=
  s.ops.flatMap (fun o => (o.2.parts.filter (fun p => p.st == .detached id)).map (fun p => (o.1, p.lane)))

/-- The bursts that a trap detached, each with its command. -/
def detachedBursts (s : State) (id : Nat) : List (Nat × Nat) :=
  s.cmds.flatMap (fun c => (c.2.marks.filter (fun m => m.st == .detached id)).map (fun m => (c.1, m.burst)))

/-! ### RESUME (R373) -/

/-- A detached part is performed afresh, with a new translation (R39). -/
def resumePart (s : State) (x : Nat × Nat) : State := match aget s.ops x.1 with
  | none => s
  | some o => match partAt o x.2 with
    | some p => redoPart s x o p
    | none => s

/-- A command whose start trapped starts again. -/
def restartCmd (c : Cmd) : Cmd := match c.instr with
  | .sub _ _ => { c with st := .queued }
  | _ => c

/-- R277, R373: a burst is not performed; `bit` says whether a handler read's has its progress bit set, without a ladle. -/
def dropBurst (bit : Bool) (s : State) (x : Nat × Nat) : State :=
  modCmd s x.1 (fun c =>
    { c with marks := c.marks.map (fun m => if m.burst == x.2 then { m with st := .dropped } else m)
             bits := if bit && isRead c.instr then x.2 :: c.bits else c.bits })

/-- R373: a burst of a resumed record: TRANSLATION_CONFLICT and UNCORRECTABLE bursts are performed afresh, others are not performed (DEDUCED, log entry 59:
their progress bits stay clear). -/
def resumeBurst (code : BitVec 8) (s : State) (x : Nat × Nat) : State :=
  if code == 0x11 || code == 0x20 then modCmd s x.1 (fun c => restartCmd { c with marks := c.marks.filter (fun m => m.burst != x.2) })
  else dropBurst false s x

/-- R130, R372: an action is an acquire at `sys` for the agent that it lets go on: the L1 data cache of its core is invalidated. -/
def trapAcquire (s : State) (t : TrapInfo) : State := acquireBy s 4 (fun a _ => a == t.agent)

/-- R373: RESUME. -/
def resumeTrap (s : State) (t : TrapInfo) : State :=
  let s0 := trapAcquire s t
  let s1 := (detachedParts s0 t.id).foldl resumePart s0
  let s2 := (detachedBursts s1 t.id).foldl (resumeBurst t.code) s1
  let s3 := if t.code == 0x09 then modAgent s2 t.agent (fun ag => { ag with ladle := { ag.ladle with steps := 0 } }) else s2
  retireTrap s3 t

/-! ### SKIP (R373) -/

/-- R158, R373: a decode trap that arises from the header itself, and a trap of a fetch of any kind, leave no fall-through address. -/
def headerTrap (t : TrapInfo) : Bool := t.fetch || (t.kind == 0 && t.word == 0 && t.code != 0x09)

/-- R373: every lane of the group takes the fall-through address; a ladle ends. -/
def skipClause (s : State) (t : TrapInfo) : State :=
  let next := t.hdr + BitVec.ofNat 64 (8 * (t.count + 1))
  modAgent s t.agent (fun ag =>
    if ag.kind == .ladle then { ag with lanes := ag.lanes.map (fun _ => .exited) }
    else reconvene { ag with regs := { ag.regs with pcv := (lanesOf t.group).foldl (fun m l => sset m l next) ag.regs.pcv } })

/-- An instruction that puts its lane to sleep as it issues. -/
def sleeps (i : Instr) : Bool := match i with
  | .waitva _ _ => true
  | .bar _ _ => true
  | _ => false

/-- A part is discarded; a lane that slept in its instruction is Ready. -/
def dropPart (s : State) (x : Nat × Nat) : State := match aget s.ops x.1 with
  | none => s
  | some o =>
    let s1 := setPart s x.1 x.2 .dropped
    if sleeps o.instr then wakeLane s1 o.agent x.2 else s1

/-- R38, R373: the replay list of a lane after a part: the later open parts of the same clause in that lane, and the uniform forms all of
whose lanes are skipped. -/
def replayList (s : State) (o : Op) (lanes : LaneSet) : List (Nat × Nat) :=
  s.ops.flatMap (fun q =>
    if q.2.agent == o.agent && q.2.clause == o.clause && decide (o.seq < q.2.seq) then
      (q.2.parts.filter (fun p => partOpen p && (if p.lane == 32 then q.2.group &&& ~~~lanes == 0 else lanes.getLsbD p.lane))).map (fun p => (q.1, p.lane))
    else [])

/-- R373: a detached part and the replay list of its lanes are discarded. -/
def skipPart (all : LaneSet) (s : State) (x : Nat × Nat) : State := match aget s.ops x.1 with
  | none => s
  | some o => dropPart ((replayList s o (all &&& (if x.2 == 32 then o.group else laneSet [x.2]))).foldl dropPart s) x

/-- R79: the read of a cohort's arguments is skipped. -/
def skipArgs (s : State) (t : TrapInfo) : State :=
  let p := (aget s.agents t.agent).elim 0 (fun ag => (blockOf s ag).elim 0 (fun b => packetOf s b))
  modAgent s t.agent (fun ag => if ag.started then ag else { ag with started := true, regs := withArgs ag.regs (pktArgs p) [] })

/-- R373: SKIP. -/
def skipTrap (s : State) (t : TrapInfo) : State :=
  if headerTrap t then s
  else
    let s0 := trapAcquire s t
    let parts := detachedParts s0 t.id
    let lanes := parts.foldl (fun m x => m ||| (match aget s0.ops x.1 with
      | some o => partLanes o x.2
      | none => 0)) (0 : LaneSet)
    let s1 := parts.foldl (skipPart lanes) s0
    let s2 := (detachedBursts s1 t.id).foldl (dropBurst true) s1
    let s3 := if t.kind < 2 then skipClause s2 t else if t.kind == 2 && parts.isEmpty && t.cmd.isNone then skipArgs s2 t else s2
    retireTrap s3 t

/-! ### TRAPACT (R372, R373) -/

/-- A record's context is saved. -/
def ctxSaved (s : State) (ctx : Nat) : Bool := s.hub.saved.any (fun x => x.ctx == ctx)

/-- An action on a record of a saved context waits for the restore, as a replay does (DESIGN CHOICE, log entry 32). -/
def holdAct (s : State) (t : TrapInfo) (act : Nat) : State :=
  { s with hub := { s.hub with saved := s.hub.saved.map (fun x =>
    if x.ctx == t.ctx && (aget x.acts t.id).isNone then { x with acts := aset x.acts t.id act } else x) } }

/-- R372: a writer acts on a record that has been posted and that it reaches. -/
def mayAct (s : State) (w : Writer) (t : TrapInfo) : Bool := winAllowed s w .trapact true && trapReached s w t && !trapHeld s t.id

/-- R372: RESUME (0) or SKIP (1) of a record; one that stops no agent is only retired (R330). -/
def trapAct (s : State) (w : Writer) (id act : Nat) : State :=
  match trapInfoOf s id with
  | none => s
  | some t =>
    if !mayAct s w t then s
    else if t.loose then retireTrap s t
    else if ctxSaved s t.ctx && decide (64 ≤ t.agent) then holdAct s t act
    else if act == 0 then resumeTrap s t else skipTrap s t

/-- TRAPACT_RESUME (R372, R373). -/
def execTrapactResume (w : Writer) (id : BitVec 32) (s : State) : Out := .next (trapAct s w id.toNat 0)

/-- TRAPACT_SKIP (R372, R373). -/
def execTrapactSkip (w : Writer) (id : BitVec 32) (s : State) : Out := .next (trapAct s w id.toNat 1)

/-- TRAPACT_END (R373, R377): the context of the record is ended; that of a hub thread ends the context bound to its queue (R444); a record that stops
no agent is only retired (R330). -/
def execTrapactEnd (w : Writer) (id : BitVec 32) (s : State) : Out :=
  match trapInfoOf s id.toNat with
  | none => .next s
  | some t =>
    if !mayAct s w t then .next s
    else if t.loose then .next (retireTrap s t)
    else if t.agent < 64 then .next (endContext (retireTrap s t) (queueCtx s t.agent))
    else .next (endContext s t.ctx)

end Sys2Proof.Machine
end

