-- ==== Sys2Proof/Machine/Tiers.lean ====
section
/-! DEFINITION. The migration engine at work (R397, R399), write-back of location entries (R390), back-invalidates (R405), and the hand-over
of pool pages between packages (R403 to R409). What another package does in a hand-over is folded into the event that detects it (DESIGN
CHOICE, log entry 33). -/

namespace Sys2Proof.Machine

/-! ### Moves (R397, R398) -/

/-- MOVE_START (R397). -/
def execMoveStart (page : Nat) (s : State) : Out := .next (moveStart s page)

/-! ### Policy (R399) -/

/-- R399: the score of a page for the HBM of a die: its counter, and a part of PROMOTE for a hint that prefers it. -/
def policyScore (s : State) (e : BitVec 128) (promote die : Nat) : Nat :=
  let code := efld e 35 3
  let wanted := (code == 1 || code == 2 || code == 3) && hintTier s e code == some (die - 1)
  efld e (64 + 16 * die) 16 + (if wanted then promote * efld e 38 2 / 4 else 0)

/-- R399: the tiers to which the shipped policy would move a page. -/
def policyTiers (s : State) (e : BitVec 128) (pol : DWord) : List Nat :=
  let promote := nbits pol.toNat 0 16
  let demote := nbits pol.toNat 16 16
  let up := fun d o => decide (promote ≤ policyScore s e promote d) && decide (2 * efld e (64 + 16 * o) 16 < policyScore s e promote d)
  let code := efld e 35 3
  (if up 1 2 then [0] else []) ++ (if up 2 1 then [1] else []) ++ (if efld e 38 2 == 3 && (code == 4 || code == 5) then [code - 2] else [])
    ++ (if decide (peTier e < 2) && [64, 80, 96, 112].all (fun lo => decide (efld e lo 16 < demote)) && tierAllowed e 2 then [2] else [])

/-- R395, R399: the first of them that is a move, and one that the engine takes. -/
def policyTier (s : State) (page : Nat) (pol : DWord) : Option Nat :=
  let e := pageEntry s page
  (policyTiers s e pol).find? (fun t => t != peTier e && mayMove s page t)

/-- POLICY_PASS (R399): hub firmware's requests for the pages of a partition, at most RATE MiB since the last pass (one pass a millisecond,
log entry 34). -/
def execPolicyPass (part : Nat) (s : State) : Out :=
  let pol := sget s.plat.migpol part
  let limit := 2 * nbits pol.toNat 32 16
  let one := fun (s : State) (page : Nat) =>
    let e := pageEntry s page
    if pageValid s page && peState e == 0 && pagePart s e == part && decide (agetD s.mem.reqs part 0 < limit) then
      (match policyTier s page pol with
       | some t => moveRequest s page t
       | none => s)
    else s
  let s1 := if pol.getLsbD 48 then (tablePages s).foldl one s else s
  .next { s1 with mem := { s1.mem with reqs := adel s1.mem.reqs part } }

/-! ### Location entries (R388, R390) -/

/-- LOCATION_WRITEBACK (R390, R388): the serving agent writes a page's counters, pins and hint to LPDDR6; of a page in STATE 1 to 3 the whole
entry, so that a write by software there is discarded. -/
def execLocationWriteback (page : Nat) (s : State) : Out :=
  match aget s.mem.pages page with
  | none => .next s
  | some e =>
    let t := pltRead s page
    .next (pltWrite s page (if peState e == 0 then ownBits t ||| (e &&& ~~~(ownBits (BitVec.allOnes 128))) else e))

/-- The key slot under which the bytes of a line were written; 0 for none. -/
def lineSlot (s : State) (spa : Nat) : Nat := match aget s.mem.lineKeys (spaLoc s spa / 128) with
  | some (k, _) => ((List.range 64).find? (fun n => n != 0 && keyOf s n == k)).getD 0
  | none => 0

/-- R147, R393: some L2 of this package holds a copy of a line; partials alone are none. -/
def copyHeld (s : State) (line : Nat) : Bool := match aget s.mem.dir line with
  | some (.p _) => false
  | some _ => true
  | none => false

/-- BACK_INVALIDATE (R405): another package's access to a line of a pool page: copies cached here are recalled, which counts once in CREM, and
what it writes stands at the device; a launch that runs keeps the line as its fetches see it (R142). Its requester's class is none of this package's, so
that what it forces is charged to none (DEDUCED, log entry 13). -/
def execBackInvalidate (page line : Nat) (w : List (Nat × Byte)) (s : State) : Out :=
  let spa := page * 2 ^ 19 + line % 4096 * 128
  let e := pageEntry s page
  if peTier e != 3 || decide (4 ≤ peState e) || !poolUp s then .next s
  else
    let bytes := w.filter (fun p => decide (p.1 < 128))
    let s0 := if bytes.isEmpty then s else keepCode s (lineSlot s spa) spa 128
    let s1 := recallLine s0 (spa / 128)
    let s2 := if copyHeld s (spa / 128) then countPage s1 page 3 else s1
    let s3 := bytes.foldl (fun s p => rawWrite s (spaLoc s (spa + p.1)) p.2) s2
    let whole := (List.range 8).filter (fun i => (List.range 16).all (fun j => bytes.any (fun p => p.1 == 16 * i + j)))
    let s4 := whole.foldl (fun s i => clearPoison s (spa + 16 * i) 16) s3
    .next (if bytes.isEmpty then s4 else breakReservations s4 spa 128)

/-! ### Claims (R404, R406, R407) -/

/-- A new value of a claimed record: RSTATE 1 and CLAIMER (R406 step 1). -/
def claimedBy (r pkg : Nat) : Nat := nset (nset r 34 3 1) 43 5 pkg

/-- R406 step 1: an `ACAS` on the ownership record of a page that this package claims. One that fails is tried again; so is one that no port carries
(R26). -/
def claimTry (s : State) (page : Nat) : State :=
  let e := pageEntry s page
  match claimOf s page with
  | none => s
  | some h =>
    if h.step != .claiming || peState e != 3 || !poolUp s then s
    else match ownRead s (pePage e) with
      | (r, s1) =>
        if !ownShared r || 4 ≤ ownState r then dropHand s1 page true
        else if ownState r == 0 then setHand (ownWrite s1 (pePage e) (claimedBy r (pkgNum s1))) page true .claimed
        else s1

/-- POOL_CLAIM (R406 step 1): a claim for a waiting `PIN`, or, where there is none, one of the package's policy for a page that another package
owns. -/
def execPoolClaim (page : Nat) (s : State) : Out :=
  let policy := (claimOf s page).isNone && pageValid s page && peState (pageEntry s page) == 3 && !inOwnRegion s page
  .next (claimTry (if policy then setHand s page true .claiming else s) page)

/-- POOL_CLAIM_RETRY (R406 step 1, R407): the claim is tried again, every 10 µs. -/
def execPoolClaimRetry (page : Nat) (s : State) : Out := .next (claimTry s page)

/-- The context whose `PIN` a type-4 record names, and its guest-physical address (R403): those of the note; with none, the first context of
the page's guest and 0. -/
def pinNoteOf (s : State) (page : Nat) : Nat × Nat :=
  match s.mem.notes.find? (fun n => n.page == page) with
  | some n => (n.ctx, n.gpa)
  | none => (((s.hub.ctxs.find? (fun c => c.2.vmid.toNat == peVmid (pageEntry s page))).map (fun c => c.1)).getD 0, 0)

/-- R403: a record of type 4 for a claim by a package; it stands for no group. While the manager's store is full it is kept as a fault is (R361). -/
def requestRecord (s : State) (page : Nat) (pkg : BitVec 5) : State :=
  let (ctx, gpa) := pinNoteOf s page
  let f : FaultReq :=
    { type := 4, ctx := ctx, va := 0, gpa := gpa, level := 0, perm := false, malf := false, s1walk := false, fetch := false, write := false
      ladle := false, engine := false, core := 0xFE, slot := 0, queue := 0, pc := 0, lanes := 0, burst := pkg.toNat, nburst := 0 }
  match recordId s with
  | (id, s1) => postQueue (holdFault s1 3 (faultQueueOf s1 4 ctx) (faultRecord s1 id f) none) (faultQueueOf s1 4 ctx)

/-- The hand-over of a page that this package owns. -/
def givingOf (s : State) (page : Nat) : Option Handover := s.mem.hand.find? (fun h => h.page == page && !h.claimant)

/-- CLAIM_DETECT (R406 step 2, R403): a package's claim of a page of this package is seen; a pinned page posts one record. -/
def execClaimDetect (page : Nat) (pkg : BitVec 5) (s : State) : Out :=
  let e := pageEntry s page
  if !pageValid s page || peState e != 0 || peTier e != 3 || (givingOf s page).isSome || !poolUp s then .next s
  else match ownRead s (pePage e) with
    | (r, s1) =>
      let mine := ownOwner r == pkgNum s1 && ownShared r
      let s2 := if ownState r == 0 then ownWrite s1 (pePage e) (claimedBy r pkg.toNat) else s1
      if !mine || 1 < ownState r || (ownState r == 1 && ownClaimer r != pkg.toNat) then .next s1
      else
        let s3 := setHand s2 page false .asked
        .next (if pePins e == 0 then s3 else requestRecord s3 page pkg)

/-- HANDOVER_FREEZE (R406 step 3): the page has no pin left: STATE 2. It waits for an access to the page that a later access has passed, which may
fault no more (R38; DEDUCED, log entry 91). -/
def execHandoverFreeze (page : Nat) (s : State) : Out :=
  let e := pageEntry s page
  match givingOf s page with
  | none => .next s
  | some h =>
    if h.step != .asked || pePins e != 0 || peState e != 0 || passedOn s page then .next s
    else .next (setHand (setEntryHw (moveCancel s page) page (eset e 29 3 2)) page false .frozen)

/-- The lines of a page of which a directory or a buffer holds anything. -/
def pageLines (s : State) (page : Nat) : List Nat :=
  ((s.mem.dir.map (fun p => p.1) ++ s.mem.red.map (fun r => r.line)).filter (fun l => l / 4096 == page)).dedup

/-- An entry with zero counters, pins and hint. -/
def bareEntry (e : BitVec 128) : BitVec 128 := ownBits e

/-- HANDOVER_RELEASE (R406 steps 4 and 5): every line is recalled; the record names the new owner; the page is foreign from now on. -/
def execHandoverRelease (page : Nat) (s : State) : Out :=
  match givingOf s page with
  | none => .next s
  | some h =>
    if h.step != .frozen || !poolUp s then .next s
    else
      let s1 := (pageLines s page).foldl recallLine s
      let e := pageEntry s1 page
      match ownRead s1 (pePage e) with
      | (r, s2) =>
        let s3 := ownWrite s2 (pePage e) (ownHand r (ownClaimer r) 2)
        let s4 := setEntryHw s3 page (eset (bareEntry e) 29 3 3)
        let gone := fun (n : PinNote) => n.page == page
        let s5 := { s4 with mem := { s4.mem with notes := s4.mem.notes.filter (fun n => !gone n), pins := s4.mem.pins.filter (fun p => p.page != page) } }
        .next (heldReplays (bumpStat (dropHand s5 page false) (peVmid e) 5 1))

/-- HANDOVER_DETECT (R406 step 6, R409): the owner has released the page, or this package has taken it over: STATE 2 while it is installed. It waits as
HANDOVER_FREEZE does. -/
def execHandoverDetect (page : Nat) (s : State) : Out :=
  let e := pageEntry s page
  match claimOf s page with
  | none => .next s
  | some h =>
    if h.step != .claimed || peState e != 3 || !poolUp s || passedOn s page then .next s
    else match ownRead s (pePage e) with
      | (r, s1) =>
        let me := pkgNum s1
        let s2 := if ownState r == 1 && ownClaimer r == me then ownWrite s1 (pePage e) (ownHand r me 2) else s1
        if (ownState r == 1 && ownClaimer r == me) || (decide (2 ≤ ownState r) && ownOwner r == me) then
          .next (setHand (setEntryHw s2 page (eset e 29 3 2)) page true .released)
        else .next s1

/-- The instructions that wait for a page go on: their pages are tried again (R148, R406 step 7). -/
def wakeClaims (s : State) (page : Nat) : State :=
  let ops := (s.mem.claims.filter (fun c => c.1 == page)).map (fun c => c.2)
  ops.foldl (fun s id => homeOp s id 32) { s with mem := { s.mem with claims := s.mem.claims.filter (fun c => c.1 != page) } }

/-- HANDOVER_INSTALL (R406 step 7): STATE 0 with zero counters and no pin; RSTATE 0 acknowledges; waiting `PIN`s and held replays go on. -/
def execHandoverInstall (page : Nat) (s : State) : Out :=
  let e := pageEntry s page
  match claimOf s page with
  | none => .next s
  | some h =>
    if h.step != .released || !poolUp s then .next s
    else match ownRead s (pePage e) with
      | (r, s1) =>
        let s2 := setEntryHw s1 page (eset (eset (eset e 29 3 0) 27 2 3) 48 80 0)
        let s3 := ownWrite s2 (pePage e) (nset r 34 3 0)
        .next (heldReplays (wakeClaims (bumpStat (dropHand s3 page true) (peVmid e) 4 1) page))

/-- The system-physical pages that name a pool device page in STATE 3. -/
def foreignNames (s : State) (dpage : Nat) : List Nat :=
  (tablePages s).filter (fun k =>
    let e := pageEntry s k
    pageValid s k && peState e == 3 && peTier e == 3 && pePage e == dpage)

/-- R409: a page of a failed owner is frozen while it is installed; where it still waits as HANDOVER_FREEZE does, HANDOVER_DETECT freezes it. -/
def takePage (s : State) (page : Nat) : State :=
  if passedOn s page then setHand s page true .claimed
  else setHand (setEntryHw s page (eset (pageEntry s page) 29 3 2)) page true .released

/-- POOLTAKE (R409): the hub takes over a pool page of a failed owner: OWNER, EPOCH + 1 and RSTATE 3 go into the record, and the page is
installed. -/
def execPooltake (w : Writer) (v : BitVec 64) (s : State) : Out :=
  let d := nbits v.toNat 0 27
  if !winAllowed s w .pooltake true || !poolUp s then .next s
  else match ownRead s d with
    | (r, s1) =>
      if ownOwner r == pkgNum s1 then .next s1
      else
        let s2 := ownWrite s1 d (ownHand r (pkgNum s1) 3)
        match foreignNames s2 d with
        | [] => .next (ownWrite s2 d (nset (ownHand r (pkgNum s1) 3) 34 3 0))
        | l => .next (l.foldl takePage s2)

end Sys2Proof.Machine
end

