-- ==== Sys2Proof/Machine/Preempt.lean ====
section
/-! DEFINITION. Pre-emption (R378 to R384): requests, the save of a context and its save area, the restore. The bytes of the area whose
content the spec leaves to hardware hold free values (log entry 35). -/

namespace Sys2Proof.Machine

/-! ### Requests (R378) -/

/-- R378: a request of a context is still under way. -/
def requested (s : State) (ctx : Nat) : Bool := s.hub.preempts.any (fun p => p.ctx == ctx)

/-- R378: a request of a writer for a context begins, or is refused. -/
def preemptRequest (s : State) (w : Writer) (ctx : Nat) (restore : Bool) : State :=
  let own := levelGe w.level .h || (ctxOf s ctx).vmid == w.vmid
  let refused := requested s ctx || (if restore then !ctxSaved s ctx else ctxSaved s ctx || !ctxHeld s ctx)
  if !winAllowed s w .preempt true || !own then s
  else if refused then preemptRecord s ctx (bitNat restore) 1 s.cycles
  else { s with hub := { s.hub with preempts := s.hub.preempts ++ [{ ctx := ctx, restore := restore, since := s.cycles }] } }

/-- PREEMPT_SAVE (R378, R379): from now on the context places, starts and picks nothing. -/
def execPreemptSave (w : Writer) (ctx : Nat) (s : State) : Out := .next (preemptRequest s w ctx false)

/-- PREEMPT_RESTORE (R378, R382). -/
def execPreemptRestore (w : Writer) (ctx : Nat) (s : State) : Out := .next (preemptRequest s w ctx true)

/-! ### When a save may end (R379) -/

/-- R379 steps 2 and 3: an agent is at a boundary; a ladle has trapped, or has parked: a strand of it is Parked and none is Ready. -/
def agentStill (ag : Agent) : Bool :=
  ag.issue.isNone && (ag.kind != .ladle || !ag.traps.isEmpty || ag.lanes.all (fun l => l != .ready) && ag.lanes.any (fun l => match l with
    | .parked _ => true
    | _ => false))

/-- R379 step 4: a command that is saved as it stands: one that has not started, a copy, a read or a walk that has stopped, or one that
waits for a fault group or a record. -/
def cmdStill (c : Cmd) : Bool :=
  match c.st with
  | .queued => true
  | .running => c.marks.any openMark || c.queues == [.cp] || c.queues == [.hr] || c.queues == [.cw]
  | .finale => true
  | _ => false

/-- R379 step 5: a part that is saved as it stands: parked, detached, behind such a part in its strand or in the replay lists of its lanes, or a
call that awaits its reply. -/
def partStill (s : State) (id : Nat) (o : Op) (p : Part) : Bool :=
  match p.st with
  | .parked _ => true
  | .detached _ => true
  | .walk => !partReady s o p
  | .home => s.hub.calls.any (fun c => c.op == id) || !partReady s o p
  | _ => false

/-- R379: nothing of a context is still under way. -/
def saveReady (s : State) (ctx : Nat) : Bool :=
  s.agents.all (fun a => a.2.ctx != ctx || a.2.kind == .hubThread || agentStill a.2) &&
    s.cmds.all (fun c => c.2.ctx != ctx || cmdStill c.2) &&
    s.ops.all (fun o => o.2.ctx != ctx || decide (o.2.agent < 64) || o.2.parts.all (partStill s o.1 o.2))

/-! ### The save area (R381) -/

/-- The bytes of the save area, of which `touchArea` has read what a restore reads. -/
def areaRead (s : State) (spa n : Nat) : List Byte :=
  let k := 2 ^ 19 - spa % 2 ^ 19
  if n ≤ k then (hubRead s 0 spa n).1 else (hubRead s 0 spa k).1 ++ (hubRead s 0 (spa + k) (n - k)).1

/-- R147, R374: the hub reads a part of the save area: it finds, counts and records the errors there. -/
def touchPart (s : State) (spa n : Nat) : State :=
  let k := 2 ^ 19 - spa % 2 ^ 19
  if n ≤ k then (hubRead s 0 spa n).2 else (hubRead (hubRead s 0 spa k).2 0 (spa + k) (n - k)).2

/-- R375: the 16-byte parts of some bytes of memory that are poisoned, numbered from the first. -/
def poisonOf (s : State) (spa n : Nat) : List Nat :=
  (List.range (n / 16)).filter (fun i => s.mem.poison.contains (spaLoc s (spa + 16 * i) / 16))

/-- The saved cohorts of a core: their records stand in this order (DESIGN CHOICE, log entry 35). -/
def savedCohorts (x : Saved) (core : Nat) : AMap Agent := x.agents.filter (fun a => a.2.kind == .cohort && a.2.core == core)

/-- The saved blocks of a core, whose images stand in this order (DESIGN CHOICE, log entry 35). -/
def savedBlocks (x : Saved) (core : Nat) : AMap Block := x.blocks.filter (fun b => b.2.core == core)

/-- R381: the first bytes of a cohort record. -/
def cohortRecord (ag : Agent) : List Byte :=
  (List.range 64).flatMap (fun i => toBytes (sget ag.regs.s i).toNat 8) ++ allLanes.flatMap (fun l => toBytes (sget ag.regs.pcv l).toNat 8)
    ++ (List.range 16).flatMap (fun i => toBytes (if i == 0 then 0xFFFFFFFF else (sget ag.regs.k i).toNat) 4) ++ toBytes ag.regs.sflags.toNat 8
    ++ toBytes (ag.traps.headD 0) 8 ++ toBytes ag.first 2

/-- R381: the vector registers of a cohort: the offset in its core record and the bytes of each. -/
def vectorImage (ag : Agent) : List (Nat × List Byte) :=
  (List.range ag.alloc).map (fun r =>
    (0x80000 + 128 * (ag.first + r), allLanes.flatMap (fun l => toBytes (sget ag.regs.v (32 * r + l)).toNat 4)))

/-- R381: where the scratchpad (in units of 4 KiB) and the tiles of each block of a core begin in their images. -/
def imageBases (l : AMap Block) : List (Nat × Block × Nat × Nat) :=
  (l.foldl (fun acc p => (acc.1 ++ [(p.1, p.2, acc.2.1, acc.2.2)], acc.2.1 + p.2.needs.scratch, acc.2.2 + p.2.needs.acc)) ([], 0, 0)).1

/-- R381: the scratchpad and accumulator images of a block. -/
def blockImage (b : Block) (spm acc : Nat) : List (Nat × List Byte) :=
  (List.range b.needs.scratch).map (fun i => (0x100000 + 4096 * (spm + i), sgetN b.spm (4096 * i) 4096)) ++
    (List.range b.needs.acc).map (fun t => (0x200000 + 65536 * (acc + t),
      (List.range 16384).flatMap (fun e => toBytes (sget b.acc (16384 * t + e)).toNat 4)))

/-- R381: the hardware-state regions of a save area, by offset and length: engine state, strand records, replay lists, ladle slots, late
updates, the rest of each cohort record, the check value and the copy-packet states. -/
def hardwareRegions (s : State) (x : Saved) : List (Nat × Nat) :=
  let cores := savedCores x
  let records := ((List.range cores.length).zip cores).flatMap (fun p =>
    let r := recordAt p.1
    let ladles := x.agents.filter (fun a => a.2.kind == .ladle && a.2.core == p.2)
    [(r, 0x10000), (r + 0x20000, 0x10000), (r + 0x40000, logLength s x p.2)] ++ ladles.map (fun a => (r + 0x30000 + 0x1000 * a.2.index, 0x1000)) ++
      (List.range (savedCohorts x p.2).length).map (fun j => (r + 0x10000 + 0x400 * j + 0x352, 0xAE)))
  (0x10, 64) :: x.queues.map (fun q => (0x1000 + 1088 * q, 1088)) ++ records

/-- R381: format, records, context and `clk` offset. -/
def areaHead (s : State) (x : Saved) : List Byte :=
  toBytes (1 + 2 ^ 16 * (savedCores x).length + 2 ^ 32 * x.ctx) 8 ++ toBytes (ctxOf s x.ctx).clkOfs.toNat 8

/-- R381: the core map of a save. -/
def coreMap (x : Saved) : List Byte :=
  let cores := savedCores x
  (List.range 80).flatMap (fun k => match cores[k]? with
    | some c => toBytes (c + 2 ^ 8 * c + 2 ^ 15) 8
    | none => toBytes 0 8)

/-- R381, R384: the images and records that software may read and, in part, change. -/
def openRegions (x : Saved) : List (Nat × List Byte) :=
  let cores := savedCores x
  ((List.range cores.length).zip cores).flatMap (fun p =>
    let r := recordAt p.1
    let co := savedCohorts x p.2
    ((List.range co.length).zip co).map (fun q => (r + 0x10000 + 0x400 * q.1, cohortRecord q.2.2)) ++
      (co.flatMap (fun a => vectorImage a.2) ++ (imageBases (savedBlocks x p.2)).flatMap (fun b => blockImage b.2.1 b.2.2.1 b.2.2.2)).map
        (fun i => (r + i.1, i.2)))

/-- R323, R374, R375: the registers of a saved agent are read: a correctable error is corrected and counted, and its uncorrectable ones are left
for the images. -/
def findAgent (s : State) (a : Nat) : State :=
  let mine := s.mem.errs.filter (fun x => match x.place with
    | .reg b _ => b == a && !x.unc
    | .spm _ _ => false)
  mine.foldl (fun s x => countError { s with mem := { s.mem with errs := s.mem.errs.erase x } } 1) s

/-- R374, R375: what a save reads is found to be sound, corrected or poisoned: registers, and scratchpads. -/
def findSaved (s : State) (ctx : Nat) : State :=
  if s.mem.errs.isEmpty then s
  else
    let s1 := (s.agents.filter (fun a => a.2.ctx == ctx)).foldl (fun s a => findAgent s a.1) s
    (s1.blocks.filter (fun b => b.2.ctx == ctx)).foldl (fun s b => spmErrs s b.1 0 (4096 * b.2.needs.scratch)) s1

/-- R375: the poisoned 16-byte parts of the images, by their offset in the save area: of registers with an uncorrectable error (a register is one
protected word, log entry 83), of scratchpads and of tiles. -/
def poisonedImages (s : State) (x : Saved) : List Nat :=
  let cores := savedCores x
  ((List.range cores.length).zip cores).flatMap (fun p =>
    let r := recordAt p.1
    let co := savedCohorts x p.2
    let regs := fun (j a : Nat) (ag : Agent) => s.mem.errs.flatMap (fun e => match e.place with
      | .reg b n =>
        if b != a || !e.unc then []
        else if n < 256 then (List.range 8).map (fun i => r + 0x80000 + 128 * (ag.first + n) + 16 * i)
        else [r + 0x10000 + 0x400 * j + 16 * ((n - 256) / 2)]
      | .spm _ _ => [])
    ((List.range co.length).zip co).flatMap (fun q => regs q.1 q.2.1 q.2.2) ++
      (imageBases (savedBlocks x p.2)).flatMap (fun b =>
        b.2.1.poison.map (fun i => r + 0x100000 + 4096 * b.2.2.1 + 16 * i) ++ b.2.1.accPoison.map (fun i => r + 0x200000 + 65536 * b.2.2.2 + 16 * i)))

/-- R379 step 7, R375: the state is written to the save area; poison travels with it. -/
def writeArea (s : State) (x : Saved) : State :=
  let base := saveBase s x.ctx
  let s1 := areaWrite (areaWrite s base (areaHead s x)) (base + 0x100) (coreMap x)
  let s2 := (hardwareRegions s x).foldl (fun s r => areaWrite s (base + r.1) (freeBytes (x.base + r.1) r.2)) s1
  let s3 := (openRegions x).foldl (fun s r => areaWrite s (base + r.1) r.2) s2
  (poisonedImages s x).foldl (fun s ofs => addPoison s (spaLoc s (base + ofs) / 16) false) s3

/-! ### SAVE_COMPLETE (R379) -/

/-- R282, R379: a read keeps the bits of handled bursts; requested and landed ones are discarded. -/
def saveCmd (c : Cmd) : Cmd := { c with flying := [], landed := [] }

/-- R379 steps 5 and 6: partials merge, publishers send and apply their updates, subscribers drain, waiters are withdrawn. -/
def settleCtx (s : State) (ctx : Nat) : State :=
  let mine := fun b => (aget s.blocks b).elim false (fun x => x.ctx == ctx)
  let s1 := (List.range Config.cores).foldl (fun s c => mergeCore s c (fun e => e.ctxs.contains ctx)) s
  let s2 := sendUpdates s1 (fun e => mine e.block)
  let s3 := s2.mem.sent.foldl (fun s u => if mine u.scrib || (s.mem.subs.any (fun x => x.block == u.scrib && x.index == u.index && mine x.pblock))
    then applyUpdate s u else s) s2
  withdrawWaiters s3 ctx

/-- R76: the last value of `clk` that the context could have read. -/
def lastClock (s : State) (ctx : Nat) : DWord :=
  let vals := (((s.blocks.filter (fun b => b.2.ctx == ctx)).map (fun b => (clockOf s b.2.core ctx s.cycles).toNat)).foldl max 0)
  BitVec.ofNat 64 vals

/-- What is held of a context. -/
def takeSaved (s : State) (ctx : Nat) : Saved :=
  let blocks := s.blocks.filter (fun b => b.2.ctx == ctx)
  let has := fun n => blocks.any (fun b => b.1 == n)
  let launch := fun n => s.hub.launches.any (fun l => l.1 == n && l.2.ctx == ctx)
  { ctx := ctx
    agents := s.agents.filter (fun a => a.2.ctx == ctx && a.2.kind != .hubThread)
    blocks := blocks
    ops := s.ops.filter (fun o => o.2.ctx == ctx && decide (64 ≤ o.2.agent))
    cmds := (s.cmds.filter (fun c => c.2.ctx == ctx)).map (fun c => (c.1, saveCmd c.2))
    bars := s.bars.filter (fun b => if b.scope == 1 then has b.owner else launch (b.owner / 2 ^ 40))
    defers := s.hub.defers.filter (fun d => d.ctx == ctx)
    acts := [], base := s.fresh, clkRef := lastClock s ctx
    queues := (List.range Config.queues).filter (fun q => queueCtx s q == ctx && queueOn (queueOf s q)) }

/-- A core number that no core has: the entries of a saved subscriber take no room. -/
def noCore : Nat := 255

/-- R379 step 7: the resources of a saved context are free. -/
def freeCtx (s : State) (x : Saved) : State :=
  let has := fun n => x.blocks.any (fun b => b.1 == n)
  let off := fun (y : Subscription) => if has y.block then { y with core := noCore } else y
  { s with
    agents := s.agents.filter (fun a => (aget x.agents a.1).isNone)
    blocks := s.blocks.filter (fun b => !has b.1)
    ops := s.ops.filter (fun o => (aget x.ops o.1).isNone)
    cmds := s.cmds.filter (fun c => (aget x.cmds c.1).isNone)
    bars := s.bars.filter (fun b => !x.bars.contains b)
    mem := { s.mem with
      subs := s.mem.subs.map off
      errs := s.mem.errs.filter (fun e => match e.place with
        | .reg a _ => (aget x.agents a).isNone
        | .spm b _ => !has b) }
    hub := { s.hub with
      defers := s.hub.defers.filter (fun d => !x.defers.contains d)
      groups := s.hub.groups.map (fun g => if g.ctx == x.ctx && g.pkt.isNone then { g with saved := true } else g)
      saved := s.hub.saved ++ [x] }
    fresh := s.fresh + recordAt (savedCores x).length }

/-- The request of a kind that is under way for a context. -/
def requestOf (s : State) (ctx : Nat) (restore : Bool) : Option Preempt :=
  s.hub.preempts.find? (fun p => p.ctx == ctx && p.restore == restore)

/-- SAVE_COMPLETE (R379, R381): all is at rest: the state is written, the resources are freed, the record goes out. -/
def execSaveComplete (ctx : Nat) (s : State) : Out :=
  match requestOf s ctx false with
  | none => .next s
  | some p =>
    if !saveReady s ctx then .next s
    else
      let s1 := findSaved (settleCtx s ctx) ctx
      let x := takeSaved s1 ctx
      .next (endRequest (freeCtx (writeArea s1 x) x) p 0)

/-! ### RESTORE_COMPLETE (R382 to R384) -/

/-- The parts of a save area that a restore reads: head and core map, hardware-state regions, records and images. -/
def readRegions (s : State) (x : Saved) : List (Nat × Nat) :=
  (0, 16) :: (0x100, 640) :: hardwareRegions s x ++ (openRegions x).map (fun r => (r.1, r.2.length))

/-- R382: the hub reads a save area. -/
def touchArea (s : State) (x : Saved) : State :=
  (readRegions s x).foldl (fun s r => touchPart s (saveBase s x.ctx + r.1) r.2) s

/-- The pages of a save area that a restore reads. -/
def areaPages (s : State) (x : Saved) : List Nat :=
  let base := saveBase s x.ctx
  ((readRegions s x).flatMap (fun (r : Nat × Nat) => [(base + r.1) / 2 ^ 19, (base + r.1 + r.2 - 1) / 2 ^ 19])).dedup

/-- The hub cannot read a page as a whole now: it moves, is frozen, or cannot be reached (R390, R398). -/
def pageWaits (s : State) (page : Nat) : Bool := routeOf s 3 (page * 2 ^ 19) 1 != .go || s.mem.forwards.any (fun f => f.page == page)

/-- R382 step 1, R384: an area holds what the save wrote, except what software may change. A part that cannot be read and that no image holds counts
as changed (log entry 35). -/
def areaGood (s : State) (x : Saved) : Bool :=
  let base := saveBase s x.ctx
  let same := fun (ofs : Nat) (bs : List Byte) => areaRead s (base + ofs) bs.length == bs && !poisoned s (base + ofs) bs.length
  let cores := savedCores x
  let cohort := fun (k j : Nat) (ag : Agent) =>
    let at_ := recordAt k + 0x10000 + 0x400 * j
    if ag.traps.isEmpty then same at_ (cohortRecord ag)
    else !poisoned s (base + at_ + 0x200) 0x148 && same (at_ + 0x348) ((cohortRecord ag).drop 0x348)
  same 0 (areaHead s x) && (hardwareRegions s x).all (fun r => same r.1 (freeBytes (x.base + r.1) r.2)) &&
    ((List.range cores.length).zip cores).all (fun p =>
      ((List.range (savedCohorts x p.2).length).zip (savedCohorts x p.2)).all (fun q => cohort p.1 q.1 q.2.2))

/-- R381, R383: the core on which each core record is restored, where the map is whole. -/
def restoreMap (s : State) (x : Saved) : Option (List (Nat × Nat)) :=
  let cores := savedCores x
  let entry := fun k => ofBytes (areaRead s (saveBase s x.ctx + 0x100 + 8 * k) 8)
  let l := ((List.range cores.length).zip cores).map (fun p => (p.2, nbits (entry p.1) 8 7, nbits (entry p.1) 0 7 == p.2 && nbits (entry p.1) 15 1 == 1))
  if l.all (fun p => p.2.2) then some (l.map (fun p => (p.1, p.2.1))) else none

/-- The core that a map gives for a core. -/
def mapped (m : List (Nat × Nat)) (core : Nat) : Nat := ((m.find? (fun p => p.1 == core)).map (fun p => p.2)).getD core

/-- R383: a map keeps each record in the context's partition, each team on distinct cores of one quad, and each cooperative launch in its
scope. -/
def mapGood (s : State) (x : Saved) (m : List (Nat × Nat)) : Bool :=
  let place := fun (b : Block) => mapped m b.core
  let pkt := fun (b : Block) => (launchOf s b).elim 0 launchPkt
  m.all (fun p => decide (p.2 < Config.cores) && corePart s p.2 == ctxPart s x.ctx) &&
    x.blocks.all (fun a => x.blocks.all (fun b =>
      let sameL := a.2.launch == b.2.launch && a.2.child == b.2.child
      let team := sameL && a.2.team == b.2.team && decide (1 < pktTeam (pkt a.2))
      (!team || (gquad (place a.2) == gquad (place b.2) && (a.1 == b.1 || place a.2 != place b.2))) &&
        (!(sameL && pktCoop (pkt a.2) == 1) || dieOf (place a.2) == dieOf (place b.2))))

/-- Words of an image. -/
def wordsAt (bs : List Byte) (w n : Nat) : List Nat := (List.range n).map (fun i => ofBytes ((bs.drop (w * i)).take w))

/-- R382 step 3, R384: a cohort's registers from the area: its vector registers, and where a trap is pending the others. -/
def loadCohort (s : State) (at_ cohort : Nat) (ag : Agent) : Agent :=
  let v := (List.range ag.alloc).foldl (fun m r =>
    ((allLanes.zip (wordsAt (areaRead s (at_ + 0x80000 + 128 * (ag.first + r)) 128) 4 32))).foldl (fun m p =>
      sset m (32 * r + p.1) (BitVec.ofNat 32 p.2)) m) ([] : Sparse 32)
  let rec_ := areaRead s cohort 0x352
  let put := fun {w : Nat} (m : Sparse w) (l : List Nat) => ((List.range l.length).zip l).foldl (fun m p => sset m p.1 (BitVec.ofNat w p.2)) m
  let g := ag.regs
  let g1 := { g with v := v }
  if ag.traps.isEmpty then { ag with regs := g1 }
  else { ag with regs :=
    { g1 with
      s := sdel (put ([] : Sparse 64) (wordsAt rec_ 8 64)) 0
      pcv := put ([] : Sparse 64) (wordsAt (rec_.drop 0x200) 8 32)
      k := sdel (put ([] : Sparse 32) (wordsAt (rec_.drop 0x300) 4 16)) 0
      sflags := BitVec.ofNat 6 (ofBytes ((rec_.drop 0x340).take 8)) } }

/-- R382 step 3: a block's scratchpad and tiles from the area. -/
def loadBlock (s : State) (at_ : Nat) (b : Block) (spm acc : Nat) : Block :=
  let pages := (List.range b.needs.scratch).foldl (fun m i => ssetN m (4096 * i) (areaRead s (at_ + 0x100000 + 4096 * (spm + i)) 4096)) ([] : Sparse 8)
  let tiles := (List.range b.needs.acc).foldl (fun m t =>
    ssetN m (16384 * t) ((wordsAt (areaRead s (at_ + 0x200000 + 65536 * (acc + t)) 65536) 4 16384).map (BitVec.ofNat 32))) ([] : Sparse 32)
  { b with
    spm := pages, acc := tiles
    poison := poisonOf s (at_ + 0x100000 + 4096 * spm) (4096 * b.needs.scratch)
    accPoison := poisonOf s (at_ + 0x200000 + 65536 * acc) (65536 * b.needs.acc) }

/-- R375: the registers of a restored cohort whose images are poisoned; its scalar registers come from the area where a trap is pending (R384). -/
def loadErrs (s : State) (at_ cohort a : Nat) (ag : Agent) : List HwErr :=
  let vec := (List.range ag.alloc).filter (fun n => poisoned s (at_ + 0x80000 + 128 * (ag.first + n)) 128)
  let sca := if ag.traps.isEmpty then [] else (List.range 64).filter (fun n => n != 0 && poisoned s (cohort + 8 * n) 8)
  (vec ++ sca.map (fun n => 256 + n)).map (fun n => { place := .reg a n, unc := true })

/-- R375: the register errors that a restore of what is held of a context brings in. -/
def savedErrs (s : State) (x : Saved) : List HwErr :=
  let base := saveBase s x.ctx
  let cores := savedCores x
  ((List.range cores.length).zip cores).flatMap (fun p =>
    ((List.range (savedCohorts x p.2).length).zip (savedCohorts x p.2)).flatMap (fun q =>
      loadErrs s (base + recordAt p.1) (base + recordAt p.1 + 0x10000 + 0x400 * q.1) q.2.1 q.2.2))

/-- R382 step 3: what is held of a context with the images that stand in the area. -/
def loadSaved (s : State) (x : Saved) : Saved :=
  let base := saveBase s x.ctx
  let cores := savedCores x
  let recs := (List.range cores.length).zip cores
  let agents := recs.foldl (fun m p =>
    ((List.range (savedCohorts x p.2).length).zip (savedCohorts x p.2)).foldl (fun m q =>
      aset m q.2.1 (loadCohort s (base + recordAt p.1) (base + recordAt p.1 + 0x10000 + 0x400 * q.1) q.2.2)) m) x.agents
  let blocks := recs.foldl (fun m p =>
    (imageBases (savedBlocks x p.2)).foldl (fun m b => aset m b.1 (loadBlock s (base + recordAt p.1) b.2.1 b.2.2.1 b.2.2.2)) m) x.blocks
  { x with agents := agents, blocks := blocks }

/-- R382 step 2: an agent of a restored block takes a slot: a cohort a scheduler's slot and registers, a ladle its slot. -/
def placeAgent (core : Nat) (s : Option State) (p : Nat × Agent) : Option State :=
  match s with
  | none => none
  | some s =>
    let ag := p.2
    if ag.kind == .ladle then
      (if slotTaken s core ag.index then none else some (putAgent s p.1 { ag with core := core }))
    else
      let (first, s1) := freeRegs s core ag.alloc
      some (putAgent s1 p.1 { ag with core := core, sched := freeSched s1 core, first := first })

/-- R382 step 2: the blocks of a context go to the cores of a map, with all that runs in them; `none` while resources are not free. -/
def placeSaved (s : State) (x : Saved) (m : List (Nat × Nat)) : Option State :=
  x.blocks.foldl (fun s b => match s with
    | none => none
    | some s =>
      let core := mapped m b.2.core
      if !fitsOn s core b.2.needs then none
      else
        let s1 := { s with blocks := aset s.blocks b.1 { b.2 with core := core } }
        (x.agents.filter (fun a => a.2.block == b.1)).foldl (placeAgent core) (some s1)) (some s)

/-- The core of a block once restored. -/
def coreAfter (x : Saved) (m : List (Nat × Nat)) (block : Nat) : Nat := (aget x.blocks block).elim noCore (fun b => mapped m b.core)

/-- R382 steps 2 and 4: the entries of a core's shared tables that a context needs are free: the matrix queue, the reads, the subscriptions and
the deferred launches. -/
def tablesFree (s : State) (x : Saved) (m : List (Nat × Nat)) : Bool :=
  let at_ := coreAfter x m
  (List.range Config.cores).all (fun core =>
    let mx := (x.cmds.filter (fun c => at_ c.2.block == core && c.2.queues.contains .mx)).length
    let rd := (x.cmds.filter (fun c => at_ c.2.block == core && isRead c.2.instr)).length
    let df := (x.defers.filter (fun d => at_ d.block == core)).length
    decide (mx + (s.cmds.filter (fun c => c.2.core == core && c.2.queues.contains .mx)).length ≤ Config.mxEntries) &&
      decide (rd + (s.cmds.filter (fun c => c.2.core == core && isRead c.2.instr)).length ≤ Config.coreReads) &&
      decide (df + (deferredOn s core).length ≤ Config.deferEntries)) &&
    (s.mem.subs.filter (fun y => x.blocks.any (fun b => b.1 == y.block))).all (fun y =>
      !s.mem.subs.any (fun z => z.core == at_ y.block && z.index == y.index))

/-- R270: the place of a saved command in queue order. -/
def savedRank (x : Saved) (c : Cmd) : Nat := (x.cmds.filter (fun d => decide (d.2.entry < c.entry))).length

/-- R382 steps 4 and 5: accesses, commands (in queue order, behind what is queued), barriers, deferred launches and subscriptions are back, on the
cores of the map. -/
def putWork (s : State) (x : Saved) (m : List (Nat × Nat)) : State :=
  let at_ := coreAfter x m
  let sub := fun (y : Subscription) => if x.blocks.any (fun b => b.1 == y.block) then { y with core := at_ y.block } else y
  { s with
    ops := x.ops.foldl (fun l o => aset l o.1 { o.2 with core := at_ o.2.block }) s.ops
    cmds := x.cmds.foldl (fun l c => aset l c.1 { c.2 with core := at_ c.2.block, entry := s.nextId + savedRank x c.2 }) s.cmds
    bars := s.bars ++ x.bars
    nextId := s.nextId + x.cmds.length
    mem := { s.mem with subs := s.mem.subs.map sub, errs := s.mem.errs ++ savedErrs s x }
    hub := { s.hub with
      defers := s.hub.defers ++ x.defers.map (fun d => { d with core := at_ d.block })
      groups := s.hub.groups.map (fun g => if g.ctx == x.ctx then { g with saved := false } else g)
      saved := s.hub.saved.filter (fun y => y.ctx != x.ctx) } }

/-- R287, R382 step 3: the late updates of a context's mirrors, in arrival order. -/
def replayLogs (s : State) (x : Saved) : State :=
  (s.mem.subs.filter (fun y => x.blocks.any (fun b => b.1 == y.block))).foldl (fun s y =>
    modSub (mirrorWrite s y.block y.log) y.block y.index (fun z => { z with log := [] })) s

/-- R76, R382: the `clk` offset of a context, so that no core of its blocks reads less than the context could have read. -/
def restoreClock (s : State) (x : Saved) : State :=
  let ofs := ((s.blocks.filter (fun b => b.2.ctx == x.ctx)).map (fun b =>
    x.clkRef.toNat - ((Config.clkStart b.2.core).toNat + s.cycles))).foldl max 0
  putCtx s x.ctx { ctxOf s x.ctx with clkOfs := BitVec.ofNat 64 ofs }

/-- R373, R382 step 6: the actions that were written on records while their context was saved. -/
def heldActs (s : State) (x : Saved) : State :=
  x.acts.foldl (fun s a => match trapInfoOf s a.1 with
    | some t => if a.2 == 0 then resumeTrap s t else skipTrap s t
    | none => s) s

/-- R382: the context runs again. -/
def restoreCtx (s : State) (x : Saved) (m : List (Nat × Nat)) : Option State :=
  let y := loadSaved s x
  if !tablesFree s y m then none
  else (placeSaved s y m).map (fun s1 => startAll (heldReplays (heldActs (restoreClock (replayLogs (putWork s1 y m) y) y) y)))

/-- RESTORE_COMPLETE (R382, R383, R430): a restore ends with status 2 where the area was changed, with status 1 where the map breaks a rule; it
waits while its quarters are in a merge or split, while its area cannot be reached or a write of the hub is still to come (R390, R398), and until
the resources are free. An area on a page that the table does not describe holds nothing that the save wrote (R386). -/
def execRestoreComplete (ctx : Nat) (s0 : State) : Out :=
  match requestOf s0 ctx true, s0.hub.saved.find? (fun x => x.ctx == ctx) with
  | some p, some x =>
    let pages := areaPages s0 x
    let s := touchArea s0 x
    if (List.range 4).any (fun q => quarterBusy s0 q && partOfQuarter s0.hub.partCfg q == ctxPart s0 ctx) || !s0.hub.puts.isEmpty || hubHeld s0 then
      .next s0
    else if pages.any (fun n => routeOf s0 3 (n * 2 ^ 19) 1 == .bad) then .next (endRequest s0 p 2)
    else if pages.any (pageWaits s0) then .next s0
    else if !areaGood s x then .next (endRequest s p 2)
    else match restoreMap s x with
      | none => .next (endRequest s p 1)
      | some m =>
        if !mapGood s x m then .next (endRequest s p 1)
        else match restoreCtx s x m with
          | some s1 => .next (endRequest s1 p 0)
          | none => .next s
  | _, _ => .next s0

end Sys2Proof.Machine
end

