-- ==== Sys2Proof/Machine/RiscvCsr.lean ====
section
/-! DEFINITION. The control and status registers of the host harts (R307, R431, R432): those of RISC-V's machine, supervisor and hypervisor
levels with its counters, float and vector state, who may access which, and the interrupts that they make pending (PRESUMED, log entry 7). -/

namespace Sys2Proof.Machine

/-! ### Modes in status registers -/

/-- The two bits by which a status register names a mode. -/
def modeBits : HostMode → Nat
  | .m => 3
  | .hs => 1
  | .vs => 1
  | _ => 0

/-- The mode that two bits and V name. -/
def modeFrom (b : Nat) (virt : Bool) : HostMode := if b == 3 then .m else if b == 0 then (if virt then .vu else .u) else if virt then .vs else .hs

/-- The trap registers of one mode, by the low eight bits of their CSR numbers. -/
def trapReg (c : TrapCsrs) (n : Nat) : DWord :=
  if n == 0x05 then c.tvec else if n == 0x41 then c.epc else if n == 0x42 then c.cause else c.tval

/-- One of them written; a vector takes mode 0 or 1. -/
def trapPut (c : TrapCsrs) (n : Nat) (v : DWord) : TrapCsrs :=
  if n == 0x05 then { c with tvec := v &&& ~~~2 } else if n == 0x41 then { c with epc := v &&& ~~~1 } else if n == 0x42 then { c with cause := v }
  else { c with tval := v }

/-- The interrupt enables and the saved mode of S or VS in their status register. -/
def statusOf (c : TrapCsrs) : DWord := BitVec.ofNat 64 (bitNat c.ie * 2 + bitNat c.pie * 2 ^ 5 + modeBits c.prev * 2 ^ 8)

/-- The same, written. -/
def statusPut (c : TrapCsrs) (v : DWord) : TrapCsrs :=
  { c with ie := v.getLsbD 1, pie := v.getLsbD 5, prev := modeFrom (bitNat (v.getLsbD 8)) (isVirtual c.prev) }

/-! ### Status registers -/

/-- The fields of `mstatus` that stand in no trap register: VS, FS, MPRV, SUM, MXR, TVM, TW, TSR and GVA; and MPV, while MPP is M. -/
def mstatusKept : DWord := BitVec.ofNat 64 (0x7E6600 + 2 ^ 38 + 2 ^ 39)

/-- The fields of `sstatus` and `vsstatus` that stand in no trap register: VS, FS, SUM and MXR. -/
def sstatusKept : DWord := 0xC6600

/-- The widths of the lower modes, 64 bits, and SD, which the float and the vector state set. -/
def statusFixed (v : DWord) (uxl : Nat) : DWord :=
  BitVec.ofNat 64 (uxl + (if nbits v.toNat 13 2 == 3 || nbits v.toNat 9 2 == 3 then 2 ^ 63 else 0))

/-- `mstatus`. -/
def mstatusOf (x : Hart) : DWord :=
  let k := sget x.csrs 0x300
  (k &&& ~~~(2 ^ 39 : DWord)) ||| statusFixed k 0xA00000000 ||| statusOf x.st |||
    BitVec.ofNat 64 (bitNat x.mt.ie * 2 ^ 3 + bitNat x.mt.pie * 2 ^ 7 + modeBits x.mt.prev * 2 ^ 11 +
      bitNat (if x.mt.prev == .m then k.getLsbD 39 else isVirtual x.mt.prev) * 2 ^ 39)

/-- `mstatus` written; an MPP that names no mode keeps its value. -/
def mstatusPut (x : Hart) (v : DWord) : Hart :=
  let mpp := if nbits v.toNat 11 2 == 2 then modeBits x.mt.prev else nbits v.toNat 11 2
  { x with
    csrs := sset x.csrs 0x300 (v &&& mstatusKept)
    st := statusPut x.st v
    mt := { x.mt with ie := v.getLsbD 3, pie := v.getLsbD 7, prev := modeFrom mpp (v.getLsbD 39) } }

/-- `sstatus`. -/
def sstatusOf (x : Hart) : DWord := (sget x.csrs 0x300 &&& sstatusKept) ||| statusFixed (sget x.csrs 0x300) 0x200000000 ||| statusOf x.st

/-- `vsstatus`. -/
def vsstatusOf (x : Hart) : DWord := sget x.csrs 0x200 ||| statusFixed (sget x.csrs 0x200) 0x200000000 ||| statusOf x.vst

/-- `hstatus`. -/
def hstatusOf (x : Hart) : DWord := sget x.csrs 0x600 ||| 0x200000000 ||| (if isVirtual x.st.prev then 0x80 else 0)

/-! ### Interrupts -/

/-- The bits of `mie` that are there. -/
def mieBits : DWord := 0x1EEE

/-- Some interrupts as S sees them that M leaves to it. -/
def sView (x : Hart) (v : DWord) : DWord := v &&& sget x.csrs 0x303 &&& 0x222

/-- Some interrupts as VS sees them that HS leaves to it, under the numbers of S. -/
def vsView (x : Hart) (v : DWord) : DWord := (v &&& hidelegOf x) >>> 1

/-- Interrupts of some causes, in RISC-V's order of priority: the first of a set. -/
def firstIntr (v : DWord) : Option Nat := ([11, 3, 7, 9, 1, 5, 12, 10, 2, 6] : List Nat).find? (fun i => v.getLsbD i)

/-- The interrupt that a hart takes now: one that is pending, enabled, and not held off by the mode that would take it; M's first, then those of HS,
then those of VS. -/
def dueIntr (x : Hart) : Option Nat :=
  let p := mipOf x &&& sget x.csrs 0x304
  let m := p &&& ~~~(midelegOf x)
  let hs := p &&& midelegOf x &&& ~~~(hidelegOf x)
  let vs := p &&& hidelegOf x
  let mOn := x.mode != .m || x.mt.ie
  let hsOn := x.mode != .m && (x.mode != .hs || x.st.ie)
  let vsOn := x.mode == .vu || (x.mode == .vs && x.vst.ie)
  ((if mOn then firstIntr m else none).orElse (fun _ => if hsOn then firstIntr hs else none)).orElse (fun _ => if vsOn then firstIntr vs else none)

/-! ### Which registers there are -/

/-- The counters of the unprivileged level: cycle, time, instret and the 29 event counters. -/
def isCounter (n : Nat) : Bool := decide (0xC00 ≤ n) && decide (n < 0xC20)

/-- The registers that are there. -/
def csrExists (n : Nat) : Bool :=
  (([0x001, 0x002, 0x003, 0x008, 0x009, 0x00A, 0x00F, 0xC20, 0xC21, 0xC22,
     0x100, 0x104, 0x105, 0x106, 0x10A, 0x140, 0x141, 0x142, 0x143, 0x144, 0x180,
     0x200, 0x204, 0x205, 0x240, 0x241, 0x242, 0x243, 0x244, 0x280,
     0x600, 0x602, 0x603, 0x604, 0x605, 0x606, 0x607, 0x60A, 0x643, 0x644, 0x645, 0x64A, 0x680, 0xE12,
     0x300, 0x301, 0x302, 0x303, 0x304, 0x305, 0x306, 0x30A, 0x320, 0x340, 0x341, 0x342, 0x343, 0x344, 0x34A, 0x34B, 0x3A0, 0x3A2,
     0xB00, 0xB02, 0xF11, 0xF12, 0xF13, 0xF14, 0xF15] : List Nat).contains n) || isCounter n ||
    (decide (0x3B0 ≤ n) && decide (n < 0x3C0)) || (decide (0x323 ≤ n) && decide (n < 0x340)) || (decide (0xB03 ≤ n) && decide (n < 0xB20))

/-- A register of the float state. -/
def isFloatCsr (n : Nat) : Bool := decide (1 ≤ n) && decide (n ≤ 3)

/-- A register of the vector state. -/
def isVectorCsr (n : Nat) : Bool := n == 0x008 || n == 0x009 || n == 0x00A || n == 0x00F || n == 0xC20 || n == 0xC21 || n == 0xC22

/-- The float state is on, in the status registers of the mode at hand. -/
def floatOn (x : Hart) : Bool := nbits (sget x.csrs 0x300).toNat 13 2 != 0 && (!isVirtual x.mode || nbits (sget x.csrs 0x200).toNat 13 2 != 0)

/-- The vector state is on. -/
def vectorOn (x : Hart) : Bool := nbits (sget x.csrs 0x300).toNat 9 2 != 0 && (!isVirtual x.mode || nbits (sget x.csrs 0x200).toNat 9 2 != 0)

/-- The vector state is dirty. -/
def dirtyV (x : Hart) : Hart :=
  let y := setCsr x 0x300 0x600 true
  if isVirtual x.mode then setCsr y 0x200 0x600 true else y

/-- In a virtual mode the numbers of S name the registers of VS. -/
def csrHere (x : Hart) (n : Nat) : Nat :=
  if isVirtual x.mode && (([0x100, 0x104, 0x105, 0x140, 0x141, 0x142, 0x143, 0x144, 0x180] : List Nat).contains n) then n + 0x100 else n

/-! ### Reading and writing -/

/-- `vtype`: at reset, as after a setting that is not supported, the bit that makes it illegal. -/
def vtypeOf (x : Hart) : DWord := sget x.csrs 0xC21 ^^^ (2 ^ 63 : DWord)

/-- R431: `misa`: RV64 with A, C, D, F, H, I, M, S, U and V. -/
def misaValue : DWord := BitVec.ofNat 64 (2 * 2 ^ 62 + ([0, 2, 3, 5, 7, 8, 12, 18, 20, 21].map (fun k => 2 ^ k)).sum)

/-- The counters: free numbers for cycles, for the host clock has no fixed rate (R14); the shared timer (R431); the instructions retired; the events
counted, none. -/
def counterRead (s : State) (x : Hart) (n : Nat) : DWord :=
  if n % 0x100 == 0 then Config.freeWord s.fresh
  else if n == 0xC01 then s.mtime + (if isVirtual x.mode then sget x.csrs 0x605 else 0)
  else if n % 0x100 == 2 then x.instret
  else 0

/-- A register read. -/
def csrRead (s : State) (x : Hart) (h n : Nat) : DWord :=
  match n with
  | 0x001 => sget x.csrs 3 &&& 0x1F
  | 0x002 => (sget x.csrs 3 >>> 5) &&& 7
  | 0x00F => (sget x.csrs 0x00A <<< 1) ||| sget x.csrs 0x009
  | 0xC21 => vtypeOf x
  | 0xC22 => 64
  | 0x100 => sstatusOf x
  | 0x200 => vsstatusOf x
  | 0x300 => mstatusOf x
  | 0x600 => hstatusOf x
  | 0x301 => misaValue
  | 0x302 => x.medeleg
  | 0x303 => midelegOf x
  | 0x602 => x.hedeleg
  | 0x603 => hidelegOf x
  | 0x344 => mipOf x
  | 0x644 => mipOf x &&& 0x1444
  | 0x604 => sget x.csrs 0x304 &&& 0x1444
  | 0x144 => sView x (mipOf x)
  | 0x104 => sView x (sget x.csrs 0x304)
  | 0x244 => vsView x (mipOf x)
  | 0x204 => vsView x (sget x.csrs 0x304)
  | 0x180 => x.satp
  | 0x280 => x.vsatp
  | 0x680 => x.hgatp
  | 0x34B => x.mt.tval2
  | 0x643 => x.st.tval2
  | 0xF14 => BitVec.ofNat 64 h
  | n =>
    if isCounter n || n / 0x100 == 0xB then counterRead s x n
    else if (([0x05, 0x41, 0x42, 0x43] : List Nat).contains (n % 0x100)) && n / 0x100 == 3 then trapReg x.mt (n % 0x100)
    else if (([0x05, 0x41, 0x42, 0x43] : List Nat).contains (n % 0x100)) && n / 0x100 == 1 then trapReg x.st (n % 0x100)
    else if (([0x05, 0x41, 0x42, 0x43] : List Nat).contains (n % 0x100)) && n / 0x100 == 2 then trapReg x.vst (n % 0x100)
    else if 0x3A0 ≤ n && n < 0x3C0 then sget x.pmp n
    else sget x.csrs n

/-- R432: a root register takes MODE 0 or 14 only. -/
def atpPut (old v : DWord) : DWord := if atpOn v || nbits v.toNat 60 4 == 0 then v else old

/-- The configuration byte that a write leaves of a PMP entry: a locked one keeps its own, and W without R is not taken. -/
def pmpCfgByte (old v : Nat) : Nat := if nbits old 7 1 == 1 || nbits v 0 2 == 2 then old else nbits v 0 5 + 2 ^ 7 * nbits v 7 1

/-- A PMP register written: a locked entry keeps its address, and so does the one below a locked entry that reaches up from it. -/
def pmpPut (p : Sparse 64) (n : Nat) (v : DWord) : Sparse 64 :=
  if n < 0x3B0 then
    sset p n (BitVec.ofNat 64 ((List.range 8).map (fun i => 2 ^ (8 * i) * pmpCfgByte (nbits (sget p n).toNat (8 * i) 8) (nbits v.toNat (8 * i) 8))).sum)
  else
    let i := n - 0x3B0
    let above := if i + 1 < 16 then pmpCfg p (i + 1) else 0
    if nbits (pmpCfg p i) 7 1 == 1 || (nbits above 7 1 == 1 && nbits above 3 2 == 1) then p else sset p n (v &&& 0x003FFFFFFFFFFFFF)

/-- The bits of a register that hold what is written to them, in the registers with no other rule; none for one that holds nothing. -/
def csrMask (n : Nat) : DWord :=
  match n with
  | 0x003 => 0xFF
  | 0x008 => 0x1FF
  | 0x009 => 1
  | 0x00A => 3
  | 0x106 => 0xFFFFFFFF
  | 0x306 => 0xFFFFFFFF
  | 0x606 => 0xFFFFFFFF
  | 0x10A => 1
  | 0x30A => 1
  | 0x60A => 1
  | 0x140 => BitVec.allOnes 64
  | 0x240 => BitVec.allOnes 64
  | 0x340 => BitVec.allOnes 64
  | 0x34A => BitVec.allOnes 64
  | 0x64A => BitVec.allOnes 64
  | 0x605 => BitVec.allOnes 64
  | 0x303 => 0x222
  | 0x603 => 0x444
  | 0x304 => mieBits
  | 0x344 => 0x222
  | 0x645 => 0x444
  | 0x320 => 5
  | _ => 0

/-- Some bits of a register written. -/
def putCsr (x : Hart) (n : Nat) (mask v : DWord) : Hart := { x with csrs := sset x.csrs n (putBits (sget x.csrs n) mask v) }

/-- A register written; one that only reads is refused before. -/
def csrWrite (x : Hart) (n : Nat) (v : DWord) : Hart :=
  match n with
  | 0x001 => putCsr x 3 0x1F v
  | 0x002 => putCsr x 3 0xE0 (v <<< 5)
  | 0x00F => putCsr (putCsr x 0x009 1 v) 0x00A 3 (v >>> 1)
  | 0x100 => let y := putCsr x 0x300 sstatusKept v; { y with st := statusPut y.st v }
  | 0x200 => let y := putCsr x 0x200 sstatusKept v; { y with vst := statusPut y.vst v }
  | 0x300 => mstatusPut x v
  | 0x600 => let y := putCsr x 0x600 0x700340 v; { y with st := { y.st with prev := modeFrom (modeBits y.st.prev) (v.getLsbD 7) } }
  | 0x302 => { x with medeleg := v &&& 0xF0B7FF }
  | 0x602 => { x with hedeleg := v &&& 0xB1FF }
  | 0x644 => putCsr x 0x645 4 v
  | 0x604 => putCsr x 0x304 0x1444 v
  | 0x144 => putCsr x 0x344 (sget x.csrs 0x303 &&& 2) v
  | 0x104 => putCsr x 0x304 (sget x.csrs 0x303 &&& 0x222) v
  | 0x244 => putCsr x 0x645 (hidelegOf x &&& 4) (v <<< 1)
  | 0x204 => putCsr x 0x304 (hidelegOf x) (v <<< 1)
  | 0x180 => { x with satp := atpPut x.satp v }
  | 0x280 => { x with vsatp := atpPut x.vsatp v }
  | 0x680 => { x with hgatp := atpPut x.hgatp (v &&& ~~~(0x03F0000000000000 : DWord)) }
  | 0x34B => { x with mt := { x.mt with tval2 := v } }
  | 0x643 => { x with st := { x.st with tval2 := v } }
  | 0xB02 => { x with instret := v }
  | n =>
    if (([0x05, 0x41, 0x42, 0x43] : List Nat).contains (n % 0x100)) && n / 0x100 == 3 then { x with mt := trapPut x.mt (n % 0x100) v }
    else if (([0x05, 0x41, 0x42, 0x43] : List Nat).contains (n % 0x100)) && n / 0x100 == 1 then { x with st := trapPut x.st (n % 0x100) v }
    else if (([0x05, 0x41, 0x42, 0x43] : List Nat).contains (n % 0x100)) && n / 0x100 == 2 then { x with vst := trapPut x.vst (n % 0x100) v }
    else if 0x3A0 ≤ n && n < 0x3C0 then { x with pmp := pmpPut x.pmp n v }
    else putCsr x n (csrMask n) v

/-- What a register's write makes dirty. -/
def csrDirty (n : Nat) (x : Hart) : Hart := if isFloatCsr n then dirtyF x else if isVectorCsr n then dirtyV x else x

/-! ### Who may access which -/

/-- An exception that refuses an instruction: illegal, or virtual where HS could execute it. -/
inductive Refused where
  | illegal
  | virtual
deriving DecidableEq, Repr

/-- The refusal of a counter: `mcounteren` bars the modes below M, `hcounteren` the virtual ones, `scounteren` the user modes. -/
def counterBar (x : Hart) (n : Nat) : Option Refused :=
  let on := fun (r : Nat) => (sget x.csrs r).getLsbD (n - 0xC00)
  if x.mode == .m then none
  else if !on 0x306 then some .illegal
  else if isVirtual x.mode && !on 0x606 then some .virtual
  else if x.mode == .u && !on 0x106 then some .illegal
  else if x.mode == .vu && !on 0x106 then some .virtual
  else none

/-- The refusal of an access to a register by a mode: what is not there, what the mode may not reach, what only reads, and what the status
registers bar. -/
def csrBar (x : Hart) (n : Nat) (writes : Bool) : Option Refused :=
  let need := n / 0x100 % 4
  let ro := writes && n / 0x400 == 3
  let level := match x.mode with
    | .m => 3
    | .hs => 2
    | .vs => 1
    | _ => 0
  if !csrExists n then some .illegal
  else if level < need then some (if isVirtual x.mode && need < 3 && !ro then .virtual else .illegal)
  else if ro then some .illegal
  else if isFloatCsr n && !floatOn x then some .illegal
  else if isVectorCsr n && !vectorOn x then some .illegal
  else if n == 0x180 && x.mode == .vs && (sget x.csrs 0x600).getLsbD 20 then some .virtual
  else if (n == 0x180 || n == 0x680) && x.mode == .hs && (sget x.csrs 0x300).getLsbD 20 then some .illegal
  else if isCounter n then counterBar x n
  else none

/-- A hart is refused an instruction, whose word stays in `tval`. -/
def refuseWord (s : State) (h : Nat) (w : Nat) (r : Refused) : State := hartTrap s h (match r with
  | .illegal => 2
  | .virtual => 22) w 0

/-- An instruction of some bytes retires. -/
def retireBy (s : State) (h : Nat) (x : Hart) (rd : BitVec 5) (v : DWord) (len : Nat) : State :=
  putHart s h (goesTo (wrX x rd v) (x.pc + BitVec.ofNat 64 len))

/-- The register that a write of `minstret` leaves is not counted up by the instruction that writes it. -/
def keepCount (n : Nat) (v : DWord) (writes : Bool) (h : Nat) (s : State) : State :=
  if writes && n == 0xB02 then putHart s h { hartOf s h with instret := v } else s

/-- A CSR instruction: 1 writes, 2 sets, 3 clears; 4 more takes a number in place of a register. The cycle counters take a free number. -/
def rvCsr (s : State) (h : Nat) (x : Hart) (w : Word) (f3 n : Nat) (rd rs : BitVec 5) : State :=
  let writes := f3 % 4 == 1 || rs != 0
  let arg := if 4 ≤ f3 then rs.setWidth 64 else rdX x rs
  match csrBar x n writes with
  | some r => refuseWord s h w.toNat r
  | none =>
    let k := csrHere x n
    let old := csrRead s x h k
    let base := if k == 0x344 then sget x.csrs 0x344 else old
    let v := match f3 % 4 with
      | 1 => arg
      | 2 => base ||| arg
      | _ => base &&& ~~~arg
    let s1 := if k == 0xC00 || k == 0xB00 then { s with fresh := s.fresh + 1 } else s
    keepCount k v writes h (retireBy s1 h (if writes then csrDirty k (csrWrite x k v) else x) rd old 4)

end Sys2Proof.Machine
end

