-- ==== Sys2Proof/Machine/RiscvFloat.lean ====
section
/-! DEFINITION. The float arithmetic of the host harts (R431: F and D, and the same in V): RISC-V's results with their flags. A result is exact,
and rounded once (PRESUMED, log entry 64). -/

namespace Sys2Proof.Machine

/-- A result and the exception flags that it raises: NX 1, UF 2, OF 4, DZ 8, NV 16. -/
structure FRes where
  bits  : Nat
  flags : Nat
deriving DecidableEq, Repr

/-- An operand: its value, and whether it is a signaling NaN. -/
structure FVal where
  ex   : Ex
  snan : Bool
deriving DecidableEq, Repr

/-- The operand that bits stand for. -/
def fVal (f : FloatFmt) (bits : Nat) : FVal :=
  { ex := unpack f false bits, snan := exIsNan (unpack f false bits) && bits / 2 ^ (f.fbits - 1) % 2 == 0 }

/-- An operand is a NaN. -/
def FVal.isNan (a : FVal) : Bool := exIsNan a.ex

/-- An operand with the other sign. -/
def FVal.negate (a : FVal) : FVal := { a with ex := exNeg a.ex }

/-- A format with the same fraction and room for every exponent that an exact result has. -/
def wideFmt (f : FloatFmt) : FloatFmt := { f with ebits := 16, bias := 32767 }

/-- RISC-V's rounding mode as the code of `roundsUp`; none for a reserved one. -/
def rvRound (rm : Nat) : Option Nat := ([0, 1, 3, 2, 4] : List Nat)[rm]?

/-- An exact finite number rounded, with its flags: overflow where the rounded magnitude, its exponent unbounded, passes the greatest finite
one; underflow where it is inexact and stays below the least normal one. -/
def fRound (f : FloatFmt) (rnd : Nat) (neg : Bool) (m : Nat) (e : Int) (sticky : Bool) : FRes :=
  if m == 0 then { bits := f.sign neg, flags := 0 }
  else
    let r := (roundFin f rnd false false neg m e sticky).bits
    let w := exAbs (unpack (wideFmt f) false (roundFin (wideFmt f) rnd false false neg m e sticky).bits)
    let ovf := exCmp w (unpack f false (f.maxFin false)) == .gt
    let tiny := exCmp w (.fin false 1 (1 - (f.bias : Int))) == .lt
    let inexact := sticky || ovf || exCmp (.fin neg m e) (unpack f false r) != .eq
    { bits := r, flags := (if inexact then 1 else 0) + (if inexact && tiny then 2 else 0) + (if ovf then 4 else 0) }

/-- A result: a NaN is the canonical one, invalid if an operand signals or if `new` says that no operand was a NaN. -/
def fEnd (f : FloatFmt) (rnd : Nat) (snan new : Bool) (x : Ex) : FRes :=
  let nv := if snan then 16 else 0
  match x with
  | .nan => { bits := f.nan, flags := if snan || new then 16 else 0 }
  | .inf n => { bits := f.inf n, flags := nv }
  | .fin n m e => let r := fRound f rnd n m e false; { r with flags := r.flags ||| nv }

/-- A sum. -/
def fAddV (f : FloatFmt) (rnd : Nat) (a b : FVal) : FRes :=
  fEnd f rnd (a.snan || b.snan) (!a.isNan && !b.isNan) (exAdd (rnd == 3) a.ex b.ex)

/-- A product. -/
def fMulV (f : FloatFmt) (rnd : Nat) (a b : FVal) : FRes :=
  fEnd f rnd (a.snan || b.snan) (!a.isNan && !b.isNan) (exMul a.ex b.ex)

/-- A product and a sum rounded once; ∞ times 0 is invalid also beside a quiet NaN. -/
def fFmaV (f : FloatFmt) (rnd : Nat) (a b c : FVal) : FRes :=
  let p := exMul a.ex b.ex
  let bad := exIsNan p && !a.isNan && !b.isNan
  fEnd f rnd (a.snan || b.snan || c.snan || bad) (!a.isNan && !b.isNan && !c.isNan) (exAdd (rnd == 3) p c.ex)

/-- A quotient. -/
def fDivV (f : FloatFmt) (rnd : Nat) (a b : FVal) : FRes :=
  let sn := a.snan || b.snan
  match a.ex, b.ex with
  | .nan, _ => fEnd f rnd sn false .nan
  | _, .nan => fEnd f rnd sn false .nan
  | .inf _, .inf _ => fEnd f rnd sn true .nan
  | .inf n, .fin k _ _ => { bits := f.inf (n != k), flags := 0 }
  | .fin n _ _, .inf k => { bits := f.sign (n != k), flags := 0 }
  | .fin n m e, .fin k d g =>
    if d == 0 then (if m == 0 then { bits := f.nan, flags := 16 } else { bits := f.inf (n != k), flags := 8 })
    else
      let sh := 200 + bitLen d
      fRound f rnd (n != k) (m * 2 ^ sh / d) (e - g - sh) (m * 2 ^ sh % d != 0)

/-- A square root. -/
def fSqrtV (f : FloatFmt) (rnd : Nat) (a : FVal) : FRes :=
  match a.ex with
  | .nan => fEnd f rnd a.snan false .nan
  | .inf n => if n then { bits := f.nan, flags := 16 } else { bits := f.inf false, flags := 0 }
  | .fin n m e =>
    if m == 0 then { bits := f.sign n, flags := 0 }
    else if n then { bits := f.nan, flags := 16 }
    else
      let k : Nat := if e % 2 == 0 then 200 else 201
      let v := m * 2 ^ k
      let r := isqrt v 0 (bitLen v / 2 + 1)
      fRound f rnd false r ((e - k) / 2) (r * r != v)

/-- Minimum or maximum: the other operand where one is a NaN; −0 before +0. -/
def fMinMaxV (f : FloatFmt) (isMin : Bool) (a b : Nat) : FRes :=
  let x := fVal f a
  let y := fVal f b
  { bits := if x.isNan && y.isNan then f.nan else if x.isNan then b else if y.isNan then a else if exBefore x.ex y.ex == isMin then a else b
    flags := if x.snan || y.snan then 16 else 0 }

/-- Comparisons: 0 less or equal, 1 less, 2 equal. The ordered ones are invalid on any NaN, equality on a signaling one. -/
def fCmpV (k : Nat) (a b : FVal) : Bool × Nat :=
  let nan := a.isNan || b.isNan
  let o := exCmp a.ex b.ex
  (!nan && (if k == 0 then o != .gt else if k == 1 then o == .lt else o == .eq),
   if (if k == 2 then a.snan || b.snan else nan) then 16 else 0)

/-- Sign injection: 0 the sign of b, 1 its inverse, 2 their exclusive or. -/
def fSgnjV (f : FloatFmt) (k a b : Nat) : Nat :=
  let s := 2 ^ (f.ebits + f.fbits)
  let sb := b / s % 2
  a % s + s * (if k == 0 then sb else if k == 1 then 1 - sb else (a / s % 2 + sb) % 2)

/-- The class of a number, as a mask of ten bits. -/
def fClassV (f : FloatFmt) (a : Nat) : Nat := if (fVal f a).isNan then (if (fVal f a).snan then 2 ^ 8 else 2 ^ 9) else fClass f a

/-- A float to an integer of `w` bits: out of range, and a NaN as the greatest, is invalid. -/
def fToIntV (rnd : Nat) (signed : Bool) (w : Nat) (a : FVal) : FRes :=
  let put := fun (v : Int) => (v % 2 ^ w).toNat
  match a.ex with
  | .nan => { bits := put (intMax signed w), flags := 16 }
  | .inf n => { bits := put (if n then intMin signed w else intMax signed w), flags := 16 }
  | .fin n m e =>
    let v := exToInt rnd n m e
    if v < intMin signed w then { bits := put (intMin signed w), flags := 16 }
    else if intMax signed w < v then { bits := put (intMax signed w), flags := 16 }
    else { bits := put v, flags := if exCmp (exOfInt v) a.ex == .eq then 0 else 1 }

/-- An integer to a float. -/
def fOfInt (f : FloatFmt) (rnd : Nat) (v : Int) : FRes := fEnd f rnd false false (exOfInt v)

/-- A float to another format. -/
def fToFmt (f : FloatFmt) (rnd : Nat) (a : FVal) : FRes := fEnd f rnd a.snan false a.ex

/-- A fraction field and its exponent, a subnormal number normalised. -/
def fNormal (f : FloatFmt) (a : Nat) : Int × Nat :=
  let e := a / 2 ^ f.fbits % 2 ^ f.ebits
  let s := a % 2 ^ f.fbits
  if e != 0 then (e, s)
  else
    let lz := f.fbits - bitLen s
    (-(lz : Int), s * 2 ^ (lz + 1) % 2 ^ f.fbits)

/-- The estimate of a reciprocal to 7 bits (`vfrec7.v`): the table is the reciprocal of the middle of each of 128 steps. -/
def fRec7 (f : FloatFmt) (rnd : Nat) (a : Nat) : FRes :=
  let x := fVal f a
  let n := a / 2 ^ (f.ebits + f.fbits) % 2 == 1
  match x.ex with
  | .nan => { bits := f.nan, flags := if x.snan then 16 else 0 }
  | .inf k => { bits := f.sign k, flags := 0 }
  | .fin _ m _ =>
    if m == 0 then { bits := f.inf n, flags := 8 }
    else
      let (e, s) := fNormal f a
      if e < -1 then
        { bits := if rnd == 1 || (rnd == 3 && !n) || (rnd == 2 && n) then f.maxFin n else f.inf n, flags := 5 }
      else
        let t := (2 * 65536 / (257 + 2 * (s / 2 ^ (f.fbits - 7))) + 1) / 2 - 128
        let sig := t * 2 ^ (f.fbits - 7)
        let oe : Int := 2 * (f.bias : Int) - 1 - e
        if oe ≤ 0 then
          (let h := sig / 2 + 2 ^ (f.fbits - 1)
           { bits := f.sign n + (if oe < 0 then h / 2 else h), flags := 0 })
        else { bits := f.sign n + oe.toNat * 2 ^ f.fbits + sig, flags := 0 }

/-- The estimate of a reciprocal square root to 7 bits (`vfrsqrt7.v`): 64 steps of [2, 4), then 64 of [1, 2). -/
def fRsqrt7 (f : FloatFmt) (a : Nat) : FRes :=
  let x := fVal f a
  match x.ex with
  | .nan => { bits := f.nan, flags := if x.snan then 16 else 0 }
  | .inf n => if n then { bits := f.nan, flags := 16 } else { bits := 0, flags := 0 }
  | .fin n m _ =>
    if m == 0 then { bits := f.inf n, flags := 8 }
    else if n then { bits := f.nan, flags := 16 }
    else
      let (e, s) := fNormal f a
      let i := s / 2 ^ (f.fbits - 6)
      let v := 4 * 65536 * 128 / ((129 + 2 * i) * (if e % 2 == 0 then 2 else 1))
      let t := (isqrt v 0 16 + 1) / 2 - 128
      { bits := ((3 * (f.bias : Int) - 1 - e) / 2).toNat * 2 ^ f.fbits + t * 2 ^ (f.fbits - 7), flags := 0 }

end Sys2Proof.Machine
end

