-- ==== Sys2Proof/Machine/RiscvVector.lean ====
section
/-! DEFINITION. The vector instructions of the host harts (R431: V with VLEN 512 and ELEN 64), as RISC-V gives them (PRESUMED, log entry 64).
An element that RISC-V calls agnostic keeps its value or becomes all ones, by a free choice. What RISC-V reserves is an illegal instruction. -/

namespace Sys2Proof.Machine

/-! ### The configuration -/

/-- What a vector instruction works with: the hart before it, its fields, the element width, the binary logarithm of the register grouping, the
vector length, the first element, whether tail and masked-off elements are agnostic, the two rounding modes, and the first free number. -/
structure VCtx where
  x     : Hart
  vd    : Nat
  vs1   : Nat
  vs2   : Nat
  f6    : Nat
  f3    : Nat
  vm    : Bool
  sew   : Nat
  lmul  : Int
  vl    : Nat
  start : Nat
  ta    : Bool
  ma    : Bool
  rnd   : Nat
  vxrm  : Nat
  fresh : Nat
deriving DecidableEq, Repr

/-- The element width that a `vtype` gives. -/
def vSew (vt : Nat) : Nat := 8 * 2 ^ nbits vt 3 3

/-- The binary logarithm of its register grouping. -/
def vLmul (vt : Nat) : Int := if nbits vt 0 3 < 4 then (nbits vt 0 3 : Int) else (nbits vt 0 3 : Int) - 8

/-- The elements of a group. -/
def vlmax (sew : Nat) (lmul : Int) : Nat := 512 * 2 ^ (lmul + 3).toNat / 8 / sew

/-- A setting that is supported. -/
def vtypeOk (vt : Nat) : Bool :=
  decide (vt < 256) && decide (nbits vt 3 3 ≤ 3) && nbits vt 0 3 != 4 && decide (8 * vSew vt ≤ 64 * 2 ^ (vLmul vt + 3).toNat)

/-- The setting is an illegal one. -/
def villOf (x : Hart) : Bool := (vtypeOf x).getLsbD 63

/-- `vsetvli` and its kin: the new setting and length; with no length given, the one that stands, if as many elements fit as before. A length above
what fits becomes what fits. -/
def vset (x : Hart) (vt : Nat) (avl : Option Nat) : Hart × Nat :=
  let old := (vtypeOf x).toNat
  let most := vlmax (vSew vt) (vLmul vt)
  let put := fun (t : DWord) (vl : Nat) =>
    (dirtyV { x with csrs := sset (sset (sset x.csrs 0xC21 (t ^^^ (2 ^ 63 : DWord))) 0xC20 (BitVec.ofNat 64 vl)) 0x008 0 }, vl)
  if !vtypeOk vt then put (2 ^ 63 : DWord) 0
  else match avl with
    | some n => put (BitVec.ofNat 64 vt) (min n most)
    | none => if villOf x || vlmax (vSew old) (vLmul old) != most then put (2 ^ 63 : DWord) 0 else put (BitVec.ofNat 64 vt) (sget x.csrs 0xC20).toNat

/-! ### Elements -/

/-- An element of a register group. -/
def vElem (x : Hart) (reg e i : Nat) : Nat := vBits x (512 * reg + e * i) e

/-- The same, written. -/
def vPut (x : Hart) (reg e i v : Nat) : Hart := vPutBits x (512 * reg + e * i) e v

/-- The mask bit of an element. -/
def maskBit (x : Hart) (i : Nat) : Bool := vBits x i 1 == 1

/-- An element is active. -/
def vActive (c : VCtx) (i : Nat) : Bool := c.vm || maskBit c.x i

/-- What an agnostic element becomes. -/
def agnostic (c : VCtx) (i e old : Nat) : Nat := if (Config.freeWord (c.fresh + i / 64)).getLsbD (i % 64) then 2 ^ e - 1 else old

/-- The binary logarithm of the registers that a group of elements of a width takes; a mask takes one register. -/
def vGroup (c : VCtx) (e : Nat) : Int := if e == 1 then 0 else c.lmul + (Nat.log2 e : Int) - (Nat.log2 c.sew : Int)

/-- The registers of a group. -/
def groupRegs (g : Int) : Nat := if g ≤ 0 then 1 else 2 ^ g.toNat

/-- A group may stand at a register. -/
def groupOk (c : VCtx) (reg e : Nat) : Bool :=
  e == 1 || (decide (8 ≤ e) && decide (e ≤ 64) && decide (-3 ≤ vGroup c e) && decide (vGroup c e ≤ 3) && reg % groupRegs (vGroup c e) == 0)

/-- Two groups have no register in common. -/
def apart (a n b m : Nat) : Bool := decide (a + n ≤ b) || decide (b + m ≤ a)

/-- A destination group may overlap a source group: both of one width; narrower, at its lowest registers; wider, at its highest. -/
def overlapOk (c : VCtx) (vd ed vs es : Nat) : Bool :=
  let nd := groupRegs (vGroup c ed)
  let ns := groupRegs (vGroup c es)
  apart vd nd vs ns || ed == es || (decide (ed < es) && vd == vs) || (decide (es < ed) && es != 1 && decide (0 ≤ vGroup c es) && vs + ns == vd + nd)

/-- The registers of an instruction are legal: each source with its width, and the destination; under a mask the destination is not `v0`, unless it
is a mask itself. -/
def vLegal (c : VCtx) (ed : Nat) (srcs : List (Nat × Nat)) : Bool :=
  groupOk c c.vd ed && (c.vm || ed == 1 || c.vd != 0) && srcs.all (fun p => groupOk c p.1 p.2 && overlapOk c c.vd ed p.1 p.2)

/-- The destination overlaps none of some sources. -/
def vApart (c : VCtx) (ed : Nat) (srcs : List (Nat × Nat)) : Bool :=
  srcs.all (fun p => apart c.vd (groupRegs (vGroup c ed)) p.1 (groupRegs (vGroup c p.2)))

/-- The destination's elements: those from the first on are computed where they are active; the masked-off ones and the tail follow the setting. With
nothing to do, nothing changes. -/
def vFill (c : VCtx) (e n lo : Nat) (act : Nat → Bool) (tail : Bool) (f : Nat → Nat) (x : Hart) : Hart :=
  if c.vl ≤ c.start then x
  else (List.range n).foldl (fun x i =>
    let free := vPut x c.vd e i (agnostic c i e (vElem c.x c.vd e i))
    if i < max c.start lo then x
    else if i < c.vl then (if act i then vPut x c.vd e i (f i) else if c.ma then free else x)
    else if tail then free else x) x

/-- The flags of the elements that are computed. -/
def vFlags (c : VCtx) (act : Nat → Bool) (f : Nat → FRes) : Nat :=
  (List.range c.vl).foldl (fun m i => if decide (c.start ≤ i) && act i then m ||| (f i).flags else m) 0

/-- Exception flags, and above them `vxsat`, are raised. -/
def raiseFlags (x : Hart) (fl : Nat) : Hart :=
  let y := if fl % 32 == 0 then x else dirtyF { x with csrs := sset x.csrs 3 (sget x.csrs 3 ||| BitVec.ofNat 64 (fl % 32)) }
  if fl / 32 == 0 then y else { y with csrs := sset y.csrs 0x009 1 }

/-- A vector instruction retires: `vstart` is 0 again. -/
def vRetire (s : State) (h : Nat) (x : Hart) (fl : Nat) : State :=
  let y := dirtyV (raiseFlags x fl)
  putHart { s with fresh := s.fresh + 64 } h (goesTo { y with csrs := sset y.csrs 0x008 0, vfield := 0 } (x.pc + 4))

/-- An instruction computed element by element, with a destination of some width; `act` says which are. -/
def vEach (s : State) (h : Nat) (c : VCtx) (e lo : Nat) (act : Nat → Bool) (f : Nat → FRes) : State :=
  let n := if e == 1 then 512 else groupRegs (vGroup c e) * 512 / e
  vRetire s h (vFill c e n lo act (c.ta || e == 1) (fun i => (f i).bits) c.x) (vFlags c act f)

/-- The same, under the mask of the instruction, where its registers are legal. -/
def vMasked (s : State) (h : Nat) (c : VCtx) (e : Nat) (srcs : List (Nat × Nat)) (f : Nat → FRes) : Option State :=
  if vLegal c e srcs then some (vEach s h c e 0 (vActive c) f) else none

/-- A result without flags. -/
def bare (v : Nat) : FRes := { bits := v, flags := 0 }

/-- A truth value as an element of a mask. -/
def truth (b : Bool) : FRes := bare (bitNat b)

/-! ### Operands -/

/-- The immediate of a word, extended by its sign, in an element. -/
def vImm (c : VCtx) (e : Nat) : Nat := (intOf true 5 c.vs1 % 2 ^ e).toNat

/-- A float register as an element: a number of 32 bits that is not boxed is the canonical NaN. -/
def fReg (x : Hart) (n size : Nat) : Nat :=
  let v := (sget x.f n).toNat
  if size == 64 then v else if v / 2 ^ 32 == 2 ^ 32 - 1 then v % 2 ^ 32 else f32.nan

/-- The second operand of an element: of a vector, a register or the word. -/
def vB (c : VCtx) (e i : Nat) : Nat :=
  if c.f3 < 3 then vElem c.x c.vs1 e i
  else if c.f3 == 3 then vImm c e
  else if c.f3 == 5 then fReg c.x c.vs1 e
  else (rdX c.x (BitVec.ofNat 5 c.vs1)).toNat % 2 ^ e

/-- The same where the word's number has no sign: an amount or an index. -/
def vAmount (c : VCtx) (e i : Nat) : Nat := if c.f3 == 3 then c.vs1 else if c.f3 < 3 then vElem c.x c.vs1 e i else (rdX c.x (BitVec.ofNat 5 c.vs1)).toNat

/-- The source groups of an instruction with operands of two widths. -/
def vSrcs (c : VCtx) (e2 e1 : Nat) : List (Nat × Nat) := (c.vs2, e2) :: (if c.f3 < 3 then [(c.vs1, e1)] else [])

/-! ### Integer arithmetic -/

/-- An integer wrapped into an element. -/
def wrapTo (w : Nat) (v : Int) : Nat := (v % 2 ^ w).toNat

/-- A number of a width, with its sign or without. -/
def asInt (signed : Bool) (w v : Nat) : Int := intOf signed w v

/-- RISC-V's fixed-point rounding: nearest up, nearest even, down, to odd. -/
def roundOff (vxrm : Nat) (v : Int) (d : Nat) : Int :=
  if d == 0 then v
  else
    let rest := v % 2 ^ d
    let half : Int := 2 ^ (d - 1)
    let q := v / 2 ^ d
    let up := match vxrm with
      | 0 => decide (half ≤ rest)
      | 1 => decide (half < rest) || (rest == half && q % 2 == 1)
      | 2 => false
      | _ => rest != 0 && q % 2 == 0
    if up then q + 1 else q

/-- A number brought into a range, and whether it had to be. -/
def clipTo (signed : Bool) (w : Nat) (v : Int) : FRes :=
  let r := narrow signed w true v
  { bits := r.1, flags := if r.2 then 32 else 0 }

/-- The operations of one width of OPIVV, OPIVX and OPIVI: `a` is the element of vs2. -/
def vOpI (vxrm f6 w a b sh : Nat) : Option FRes :=
  let wrap := fun (v : Int) => some (bare (wrapTo w v))
  let n := sh % w
  match f6 with
  | 0x00 => wrap (a + b)
  | 0x02 => wrap (a - b)
  | 0x03 => wrap (b - a)
  | 0x04 => some (bare (min a b))
  | 0x05 => some (bare (if asInt true w a < asInt true w b then a else b))
  | 0x06 => some (bare (max a b))
  | 0x07 => some (bare (if asInt true w a < asInt true w b then b else a))
  | 0x09 => some (bare (a &&& b))
  | 0x0A => some (bare (a ||| b))
  | 0x0B => some (bare (a ^^^ b))
  | 0x20 => some (clipTo false w (a + b))
  | 0x21 => some (clipTo true w (asInt true w a + asInt true w b))
  | 0x22 => some (clipTo false w (a - b))
  | 0x23 => some (clipTo true w (asInt true w a - asInt true w b))
  | 0x25 => wrap (a * 2 ^ n)
  | 0x27 => some (clipTo true w (roundOff vxrm (asInt true w a * asInt true w b) (w - 1)))
  | 0x28 => some (bare (a / 2 ^ n))
  | 0x29 => wrap (asInt true w a / 2 ^ n)
  | 0x2A => wrap (roundOff vxrm a n)
  | 0x2B => wrap (roundOff vxrm (asInt true w a) n)
  | _ => none

/-- The comparisons. -/
def vCmpI (f6 w a b : Nat) : Option Bool :=
  let x := asInt true w a
  let y := asInt true w b
  match f6 with
  | 0x18 => some (a == b)
  | 0x19 => some (a != b)
  | 0x1A => some (decide (a < b))
  | 0x1B => some (decide (x < y))
  | 0x1C => some (decide (a ≤ b))
  | 0x1D => some (decide (x ≤ y))
  | 0x1E => some (decide (b < a))
  | 0x1F => some (decide (y < x))
  | _ => none

/-- The operations of one width of OPMVV and OPMVX. -/
def vOpM (vxrm f6 w a b : Nat) : Option FRes :=
  let wrap := fun (v : Int) => some (bare (wrapTo w v))
  let x := asInt true w a
  let y := asInt true w b
  match f6 with
  | 0x08 => wrap (roundOff vxrm (a + b) 1)
  | 0x09 => wrap (roundOff vxrm (x + y) 1)
  | 0x0A => wrap (roundOff vxrm ((a : Int) - b) 1)
  | 0x0B => wrap (roundOff vxrm (x - y) 1)
  | 0x20 => some (bare (if b == 0 then 2 ^ w - 1 else a / b))
  | 0x21 => wrap (if b == 0 then -1 else x.tdiv y)
  | 0x22 => some (bare (if b == 0 then a else a % b))
  | 0x23 => wrap (if b == 0 then x else x.tmod y)
  | 0x24 => some (bare (a * b / 2 ^ w))
  | 0x25 => wrap (a * b)
  | 0x26 => wrap (x * b / 2 ^ w)
  | 0x27 => wrap (x * y / 2 ^ w)
  | _ => none

/-- The multiply-adds of one width: `d` is the old element of vd. -/
def vMac (f6 w d a b : Nat) : Option FRes :=
  let wrap := fun (v : Int) => some (bare (wrapTo w v))
  match f6 with
  | 0x29 => wrap (b * d + a)
  | 0x2B => wrap (-((b : Int) * d) + a)
  | 0x2D => wrap (b * a + d)
  | 0x2F => wrap (-((b : Int) * a) + d)
  | _ => none

/-- The widening operations: sums and products of two narrow elements, with the old wide one for the multiply-adds. -/
def vWide (f6 w d a b : Nat) : Option FRes :=
  let wrap := fun (v : Int) => some (bare (wrapTo (2 * w) v))
  let x := asInt true w a
  let y := asInt true w b
  match f6 with
  | 0x30 => wrap (a + b)
  | 0x31 => wrap (x + y)
  | 0x32 => wrap ((a : Int) - b)
  | 0x33 => wrap (x - y)
  | 0x38 => wrap (a * b)
  | 0x3A => wrap (x * b)
  | 0x3B => wrap (x * y)
  | 0x3C => wrap (a * b + d)
  | 0x3D => wrap (x * y + d)
  | 0x3E => wrap (x * b + d)
  | 0x3F => wrap (a * y + d)
  | _ => none

/-- The sums of a wide and a narrow element. -/
def vWideW (f6 w a b : Nat) : Option FRes :=
  let wrap := fun (v : Int) => some (bare (wrapTo (2 * w) v))
  match f6 with
  | 0x34 => wrap (a + b)
  | 0x35 => wrap (a + asInt true w b)
  | 0x36 => wrap ((a : Int) - b)
  | 0x37 => wrap (a - asInt true w b)
  | _ => none

/-- The narrowing shifts and clips of a wide element. -/
def vNarrow (vxrm f6 w a sh : Nat) : Option FRes :=
  let n := sh % (2 * w)
  let x := asInt true (2 * w) a
  match f6 with
  | 0x2C => some (bare (a / 2 ^ n % 2 ^ w))
  | 0x2D => some (bare (wrapTo w (x / 2 ^ n)))
  | 0x2E => some (clipTo false w (roundOff vxrm a n))
  | 0x2F => some (clipTo true w (roundOff vxrm x n))
  | _ => none

/-- One step of an integer reduction. -/
def vRedI (f6 w acc a : Nat) : Nat :=
  match f6 with
  | 0x00 => (acc + a) % 2 ^ w
  | 0x01 => acc &&& a
  | 0x02 => acc ||| a
  | 0x03 => acc ^^^ a
  | 0x04 => min acc a
  | 0x05 => if asInt true w a < asInt true w acc then a else acc
  | 0x06 => max acc a
  | _ => if asInt true w acc < asInt true w a then a else acc

/-! ### Reductions, masks and permutations -/

/-- The active elements of a vector. -/
def vActives (c : VCtx) : List Nat := (List.range c.vl).filter (vActive c)

/-- A reduction: the result stands in element 0 of one register; it starts at element 0 of vs1 and at element 0 of the vector. -/
def vReduce (s : State) (h : Nat) (c : VCtx) (ed : Nat) (r : FRes) : Option State :=
  if c.start != 0 || !groupOk c c.vs2 c.sew then none
  else
    let one := { c with vl := if c.vl == 0 then 0 else 1, vm := true }
    some (vRetire s h (vFill one ed (512 / ed) 0 (fun _ => true) c.ta (fun _ => r.bits) c.x) (if c.vl == 0 then 0 else r.flags))

/-- The operations on masks. -/
def vMaskOp (f6 : Nat) (a b : Bool) : Bool :=
  match f6 with
  | 0x18 => a && !b
  | 0x19 => a && b
  | 0x1A => a || b
  | 0x1B => a != b
  | 0x1C => a || !b
  | 0x1D => !(a && b)
  | 0x1E => !(a || b)
  | _ => a == b

/-- A bit of a mask register. -/
def vMaskOf (c : VCtx) (reg i : Nat) : Bool := vElem c.x reg 1 i == 1

/-- The first active element whose bit of vs2 is set. -/
def vFirst (c : VCtx) : Option Nat := (vActives c).find? (vMaskOf c c.vs2)

/-- `vslideup`, `vslidedown` by an amount. -/
def vSlide (s : State) (h : Nat) (c : VCtx) (up : Bool) (ofs : Nat) : Option State :=
  let most := vlmax c.sew c.lmul
  if !vLegal c c.sew [(c.vs2, c.sew)] || (up && !vApart c c.sew [(c.vs2, c.sew)]) then none
  else if up then some (vEach s h c c.sew ofs (vActive c) (fun i => bare (vElem c.x c.vs2 c.sew (i - ofs))))
  else some (vEach s h c c.sew 0 (vActive c) (fun i => bare (if i + ofs < most then vElem c.x c.vs2 c.sew (i + ofs) else 0)))

/-- The slides by one, with an element of a register. -/
def vSlide1 (s : State) (h : Nat) (c : VCtx) (up : Bool) : Option State :=
  let b := vB c c.sew 0
  if !vLegal c c.sew [(c.vs2, c.sew)] || (up && !vApart c c.sew [(c.vs2, c.sew)]) then none
  else some (vEach s h c c.sew 0 (vActive c) (fun i => bare (
    if up then (if i == 0 then b else vElem c.x c.vs2 c.sew (i - 1))
    else if i + 1 == c.vl then b else vElem c.x c.vs2 c.sew (i + 1))))

/-- `vrgather` with indexes of a width. -/
def vGather (s : State) (h : Nat) (c : VCtx) (ei : Nat) : Option State :=
  let srcs := (c.vs2, c.sew) :: (if c.f3 == 0 then [(c.vs1, ei)] else [])
  if !vLegal c c.sew srcs || !vApart c c.sew srcs then none
  else some (vEach s h c c.sew 0 (vActive c) (fun i =>
    let k := vAmount c ei i
    bare (if k < vlmax c.sew c.lmul then vElem c.x c.vs2 c.sew k else 0)))

/-- `vcompress`: the elements whose bit of vs1 is set, packed. -/
def vCompress (s : State) (h : Nat) (c : VCtx) : Option State :=
  let l := (List.range c.vl).filter (vMaskOf c c.vs1)
  let srcs := [(c.vs2, c.sew), (c.vs1, 1)]
  if !c.vm || c.start != 0 || !vLegal c c.sew [(c.vs2, c.sew)] || !vApart c c.sew srcs then none
  else
    let n := groupRegs (vGroup c c.sew) * 512 / c.sew
    let put := (List.range n).foldl (fun x i => match l[i]? with
      | some k => vPut x c.vd c.sew i (vElem c.x c.vs2 c.sew k)
      | none => if c.ta then vPut x c.vd c.sew i (agnostic c i c.sew (vElem c.x c.vd c.sew i)) else x) c.x
    some (vRetire s h (if c.vl == 0 then c.x else put) 0)

/-- A copy of whole registers. -/
def vMoveRegs (s : State) (h : Nat) (c : VCtx) : Option State :=
  let n := c.vs1 + 1
  if !c.vm || !(([1, 2, 4, 8] : List Nat).contains n) || c.vd % n != 0 || c.vs2 % n != 0 then none
  else
    let l := (List.range (n * 512 / c.sew)).drop c.start
    some (vRetire s h (l.foldl (fun x i => vPut x c.vd c.sew i (vElem c.x c.vs2 c.sew i)) c.x) 0)

/-- The mask instructions of `VMUNARY0`: set-before-first, set-only-first, set-including-first, `viota` and `vid`. -/
def vMaskUnary (s : State) (h : Nat) (c : VCtx) : Option State :=
  let first := (vFirst c).getD c.vl
  let part := fun (f : Nat → Bool) =>
    if c.start != 0 || !apart c.vd 1 c.vs2 1 || (!c.vm && c.vd == 0) then none else some (vEach s h c 1 0 (vActive c) (fun i => truth (f i)))
  match c.vs1 with
  | 1 => part (fun i => decide (i < first))
  | 2 => part (fun i => i == first)
  | 3 => part (fun i => decide (i ≤ first))
  | 16 =>
    if c.start != 0 || !vLegal c c.sew [] || !vApart c c.sew [(c.vs2, 1)] then none
    else some (vEach s h c c.sew 0 (vActive c) (fun i => bare (((vActives c).filter (fun k => decide (k < i) && vMaskOf c c.vs2 k)).length % 2 ^ c.sew)))
  | 17 => if c.vs2 != 0 then none else vMasked s h c c.sew [] (fun i => bare i)
  | _ => none

/-- `vzext` and `vsext`. -/
def vExtend (s : State) (h : Nat) (c : VCtx) : Option State :=
  let k := if c.vs1 / 2 == 1 then 8 else if c.vs1 / 2 == 2 then 4 else 2
  let e := c.sew / k
  if c.vs1 < 2 || 7 < c.vs1 || e < 8 then none
  else vMasked s h c c.sew [(c.vs2, e)] (fun i => bare (wrapTo c.sew (asInt (c.vs1 % 2 == 1) e (vElem c.x c.vs2 e i))))

/-! ### OPIVV, OPIVX, OPIVI -/

/-- The forms that an operation code of OPI has: of a vector, a register, the word. -/
def formI (f6 f3 : Nat) : Bool :=
  let all : List Nat := [0x00, 0x09, 0x0A, 0x0B, 0x0C, 0x0E, 0x10, 0x11, 0x17, 0x18, 0x19, 0x1C, 0x1D, 0x20, 0x21, 0x25, 0x27, 0x28, 0x29, 0x2A, 0x2B,
    0x2C, 0x2D, 0x2E, 0x2F]
  let vx : List Nat := [0x02, 0x04, 0x05, 0x06, 0x07, 0x12, 0x13, 0x1A, 0x1B, 0x22, 0x23]
  let xi : List Nat := [0x03, 0x0F, 0x1E, 0x1F]
  all.contains f6 || (f3 != 3 && vx.contains f6) || (f3 != 0 && xi.contains f6) || (f3 == 0 && (f6 == 0x30 || f6 == 0x31))

/-- The instructions that carry or borrow: the sum or difference, or the carry out. -/
def vCarry (s : State) (h : Nat) (c : VCtx) : Option State :=
  let e := c.sew
  let cin := fun (i : Nat) => bitNat (!c.vm && maskBit c.x i)
  let out := c.f6 % 2 == 1
  let sum := fun (i : Nat) =>
    if c.f6 < 0x12 then (vElem c.x c.vs2 e i : Int) + vB c e i + cin i else (vElem c.x c.vs2 e i : Int) - vB c e i - cin i
  if (!out && (c.vm || c.vd == 0)) || !vLegal { c with vm := true } (if out then 1 else e) (vSrcs c e e) then none
  else some (vEach s h c (if out then 1 else e) 0 (fun _ => true) (fun i =>
    if out then truth (decide (sum i < 0) || decide (2 ^ e ≤ sum i)) else bare (wrapTo e (sum i))))

/-- `vmerge` and `vmv.v`. -/
def vMerge (s : State) (h : Nat) (c : VCtx) : Option State :=
  let srcs := vSrcs c c.sew c.sew
  if c.vm then (if c.vs2 != 0 || !vLegal c c.sew (srcs.drop 1) then none else some (vEach s h c c.sew 0 (fun _ => true) (fun i => bare (vB c c.sew i))))
  else if !vLegal c c.sew srcs then none
  else some (vEach s h c c.sew 0 (fun _ => true) (fun i => bare (if maskBit c.x i then vB c c.sew i else vElem c.x c.vs2 c.sew i)))

/-- An instruction of OPIVV, OPIVX or OPIVI. -/
def vInstrI (s : State) (h : Nat) (c : VCtx) : Option State :=
  let e := c.sew
  let two := vSrcs c e e
  let sum := fun (signed : Bool) => vReduce s h c (2 * e) (bare ((vActives c).foldl (fun a i =>
    wrapTo (2 * e) (a + asInt signed e (vElem c.x c.vs2 e i))) (vElem c.x c.vs1 (2 * e) 0)))
  if !formI c.f6 c.f3 then none
  else match c.f6 with
    | 0x0C => vGather s h c e
    | 0x0E => if c.f3 == 0 then vGather s h c 16 else vSlide s h c true (vAmount c 64 0)
    | 0x0F => vSlide s h c false (vAmount c 64 0)
    | 0x10 => vCarry s h c
    | 0x11 => vCarry s h c
    | 0x12 => vCarry s h c
    | 0x13 => vCarry s h c
    | 0x17 => vMerge s h c
    | 0x30 => if 64 < 2 * e then none else sum false
    | 0x31 => if 64 < 2 * e then none else sum true
    | n =>
      if n == 0x27 && c.f3 == 3 then vMoveRegs s h c
      else if 0x18 ≤ n && n < 0x20 then vMasked s h c 1 two (fun i => truth ((vCmpI n e (vElem c.x c.vs2 e i) (vB c e i)).getD false))
      else if 0x2C ≤ n then
        vMasked s h c e (vSrcs c (2 * e) e) (fun i => (vNarrow c.vxrm n e (vElem c.x c.vs2 (2 * e) i) (vAmount c e i)).getD (bare 0))
      else vMasked s h c e two (fun i => (vOpI c.vxrm n e (vElem c.x c.vs2 e i) (vB c e i) (vAmount c e i)).getD (bare 0))

/-! ### OPMVV, OPMVX -/

/-- The forms that an operation code of OPM has. -/
def formM (f6 f3 : Nat) : Bool :=
  let both : List Nat := [0x08, 0x09, 0x0A, 0x0B, 0x10, 0x20, 0x21, 0x22, 0x23, 0x24, 0x25, 0x26, 0x27, 0x29, 0x2B, 0x2D, 0x2F, 0x30, 0x31, 0x32, 0x33,
    0x34, 0x35, 0x36, 0x37, 0x38, 0x3A, 0x3B, 0x3C, 0x3D, 0x3F]
  both.contains f6 || (f3 == 2 && (decide (f6 < 8) || f6 == 0x12 || f6 == 0x14 || f6 == 0x17 || (decide (0x18 ≤ f6) && decide (f6 < 0x20)))) ||
    (f3 == 6 && (f6 == 0x0E || f6 == 0x0F || f6 == 0x3E))

/-- A result of a vector instruction in an integer register. -/
def vToX (s : State) (h : Nat) (c : VCtx) (v : Int) : State := vRetire s h (wrX c.x (BitVec.ofNat 5 c.vd) (BitVec.ofInt 64 v)) 0

/-- The moves between element 0 and a register, and the counts of masks. -/
def vScalarM (s : State) (h : Nat) (c : VCtx) : Option State :=
  if c.f3 == 6 then
    (if !c.vm || c.vs2 != 0 then none
     else
      let one := { c with vl := min c.vl 1 }
      some (vRetire s h (if c.vl ≤ c.start then c.x else vFill one c.sew (512 / c.sew) 0 (fun _ => true) c.ta (fun _ => vB c c.sew 0) c.x) 0))
  else if c.vs1 == 0 then (if c.vm then some (vToX s h c (asInt true c.sew (vElem c.x c.vs2 c.sew 0))) else none)
  else if c.start != 0 then none
  else if c.vs1 == 16 then some (vToX s h c ((vActives c).filter (vMaskOf c c.vs2)).length)
  else if c.vs1 == 17 then some (vToX s h c ((vFirst c).elim (-1) (fun k => (k : Int))))
  else none

/-- An instruction of OPMVV or OPMVX. -/
def vInstrM (s : State) (h : Nat) (c : VCtx) : Option State :=
  let e := c.sew
  let a := fun (i : Nat) => vElem c.x c.vs2 e i
  let n := c.f6
  let fits := decide (2 * e ≤ 64)
  if !formM n c.f3 then none
  else if n < 8 then vReduce s h c e (bare ((vActives c).foldl (fun r i => vRedI n e r (a i)) (vElem c.x c.vs1 e 0)))
  else if n == 0x0E || n == 0x0F then vSlide1 s h c (n == 0x0E)
  else if n == 0x10 then vScalarM s h c
  else if n == 0x12 then vExtend s h c
  else if n == 0x14 then vMaskUnary s h c
  else if n == 0x17 then vCompress s h c
  else if 0x18 ≤ n && n < 0x20 then
    (if c.vm then some (vEach s h c 1 0 (fun _ => true) (fun i => truth (vMaskOp n (vMaskOf c c.vs2 i) (vMaskOf c c.vs1 i)))) else none)
  else if n == 0x29 || n == 0x2B || n == 0x2D || n == 0x2F then
    vMasked s h c e (vSrcs c e e) (fun i => (vMac n e (vElem c.x c.vd e i) (a i) (vB c e i)).getD (bare 0))
  else if 0x34 ≤ n && n < 0x38 then
    (if fits then vMasked s h c (2 * e) (vSrcs c (2 * e) e) (fun i => (vWideW n e (vElem c.x c.vs2 (2 * e) i) (vB c e i)).getD (bare 0)) else none)
  else if 0x30 ≤ n then
    (if fits then vMasked s h c (2 * e) (vSrcs c e e) (fun i => (vWide n e (vElem c.x c.vd (2 * e) i) (a i) (vB c e i)).getD (bare 0)) else none)
  else vMasked s h c e (vSrcs c e e) (fun i => (vOpM c.vxrm n e (a i) (vB c e i)).getD (bare 0))

/-! ### OPFVV, OPFVF -/

/-- The float format of a width. -/
def vFmt (e : Nat) : Option FloatFmt := if e == 32 then some f32 else if e == 64 then some f64 else none

/-- The operations of one width. -/
def vOpF (f : FloatFmt) (rnd f6 a b : Nat) : Option FRes :=
  let x := fVal f a
  let y := fVal f b
  match f6 with
  | 0x00 => some (fAddV f rnd x y)
  | 0x02 => some (fAddV f rnd x y.negate)
  | 0x04 => some (fMinMaxV f true a b)
  | 0x06 => some (fMinMaxV f false a b)
  | 0x08 => some (bare (fSgnjV f 0 a b))
  | 0x09 => some (bare (fSgnjV f 1 a b))
  | 0x0A => some (bare (fSgnjV f 2 a b))
  | 0x20 => some (fDivV f rnd x y)
  | 0x21 => some (fDivV f rnd y x)
  | 0x24 => some (fMulV f rnd x y)
  | 0x27 => some (fAddV f rnd y x.negate)
  | _ => none

/-- The comparisons. -/
def vCmpF (f : FloatFmt) (f6 a b : Nat) : Bool × Nat :=
  let x := fVal f a
  let y := fVal f b
  match f6 with
  | 0x18 => fCmpV 2 x y
  | 0x19 => fCmpV 0 x y
  | 0x1B => fCmpV 1 x y
  | 0x1C => (!(fCmpV 2 x y).1, (fCmpV 2 x y).2)
  | 0x1D => fCmpV 1 y x
  | _ => fCmpV 0 y x

/-- The multiply-adds, by the low two bits of their code: which signs turn. -/
def vMacF (f : FloatFmt) (rnd f6 : Nat) (a b c : FVal) : FRes :=
  let k := f6 % 4
  fFmaV f rnd (if k == 1 || k == 3 then a.negate else a) b (if k == 1 || k == 2 then c.negate else c)

/-- The conversions of `VFUNARY0`, by the low three bits of their code: to an unsigned or signed integer, from one, between formats; those to
integers also toward zero. `src` and `dst` are the widths. -/
def vConvert (rnd k src dst a : Nat) : Option FRes :=
  match k, vFmt src, vFmt dst with
  | 0, some f, _ => some (fToIntV rnd false dst (fVal f a))
  | 1, some f, _ => some (fToIntV rnd true dst (fVal f a))
  | 6, some f, _ => some (fToIntV 1 false dst (fVal f a))
  | 7, some f, _ => some (fToIntV 1 true dst (fVal f a))
  | 2, _, some g => some (fOfInt g rnd (asInt false src a))
  | 3, _, some g => some (fOfInt g rnd (asInt true src a))
  | 4, some f, some g => some (fToFmt g rnd (fVal f a))
  | 5, some f, some g => some (fToFmt g 5 (fVal f a))
  | _, _, _ => none

/-- A conversion: of one width, widening or narrowing. -/
def vConvF (s : State) (h : Nat) (c : VCtx) : Option State :=
  let src := if c.vs1 / 8 == 2 then 2 * c.sew else c.sew
  let dst := if c.vs1 / 8 == 1 then 2 * c.sew else c.sew
  let k := c.vs1 % 8
  let odd := (c.vs1 / 8 == 0 && (k == 4 || k == 5)) || (c.vs1 / 8 == 1 && k == 5) || decide (3 ≤ c.vs1 / 8)
  if odd || 64 < src || 64 < dst || (vConvert c.rnd k src dst 0).isNone then none
  else vMasked s h c dst [(c.vs2, src)] (fun i => (vConvert c.rnd k src dst (vElem c.x c.vs2 src i)).getD (bare 0))

/-- `VFUNARY1`: root, the two estimates, class. -/
def vUnaryF (s : State) (h : Nat) (c : VCtx) (f : FloatFmt) : Option State :=
  let go := fun (g : Nat → FRes) => vMasked s h c c.sew [(c.vs2, c.sew)] (fun i => g (vElem c.x c.vs2 c.sew i))
  match c.vs1 with
  | 0 => go (fun a => fSqrtV f c.rnd (fVal f a))
  | 4 => go (fRsqrt7 f)
  | 5 => go (fRec7 f c.rnd)
  | 16 => go (fun a => bare (fClassV f a))
  | _ => none

/-- The moves between element 0 and a float register. -/
def vScalarF (s : State) (h : Nat) (c : VCtx) : Option State :=
  if !c.vm then none
  else if c.f3 == 1 then
    (if c.vs1 != 0 then none
     else some (vRetire s h (wrF c.x (BitVec.ofNat 5 c.vd) (if c.sew == 32 then 2 else 3) (BitVec.ofNat 64 (vElem c.x c.vs2 c.sew 0))) 0))
  else if c.vs2 != 0 then none
  else
    let one := { c with vl := min c.vl 1 }
    some (vRetire s h (if c.vl ≤ c.start then c.x else vFill one c.sew (512 / c.sew) 0 (fun _ => true) c.ta (fun _ => vB c c.sew 0) c.x) 0)

/-- A float reduction in the order of the elements, which RISC-V also allows the unordered sums. -/
def vReduceF (s : State) (h : Nat) (c : VCtx) (ed : Nat) (step : Nat → Nat → FRes) : Option State :=
  vReduce s h c ed ((vActives c).foldl (fun r i => let t := step r.bits (vElem c.x c.vs2 c.sew i); { t with flags := t.flags ||| r.flags })
    (bare (vElem c.x c.vs1 ed 0)))

/-- The forms that an operation code of OPF has. -/
def formF (f6 f3 : Nat) : Bool :=
  let both : List Nat := [0x00, 0x02, 0x04, 0x06, 0x08, 0x09, 0x0A, 0x10, 0x18, 0x19, 0x1B, 0x1C, 0x20, 0x24, 0x28, 0x29, 0x2A, 0x2B, 0x2C, 0x2D, 0x2E,
    0x2F, 0x30, 0x32, 0x34, 0x36, 0x38, 0x3C, 0x3D, 0x3E, 0x3F]
  both.contains f6 || (f3 == 1 && (([0x01, 0x03, 0x05, 0x07, 0x12, 0x13, 0x31, 0x33] : List Nat).contains f6)) ||
    (f3 == 5 && (([0x0E, 0x0F, 0x17, 0x1D, 0x1F, 0x21, 0x27] : List Nat).contains f6))

/-- The widening float instructions, from 32 to 64 bits. -/
def vWideF (s : State) (h : Nat) (c : VCtx) : Option State :=
  let n := c.f6
  let a := fun (i : Nat) => fVal f32 (vElem c.x c.vs2 32 i)
  let wide := fun (i : Nat) => fVal f64 (vElem c.x c.vs2 64 i)
  let b := fun (i : Nat) => fVal f32 (vB c 32 i)
  let two := vSrcs c 32 32
  if c.sew != 32 then none
  else match n with
    | 0x30 => vMasked s h c 64 two (fun i => fAddV f64 c.rnd (a i) (b i))
    | 0x32 => vMasked s h c 64 two (fun i => fAddV f64 c.rnd (a i) (b i).negate)
    | 0x34 => vMasked s h c 64 (vSrcs c 64 32) (fun i => fAddV f64 c.rnd (wide i) (b i))
    | 0x36 => vMasked s h c 64 (vSrcs c 64 32) (fun i => fAddV f64 c.rnd (wide i) (b i).negate)
    | 0x38 => vMasked s h c 64 two (fun i => fMulV f64 c.rnd (a i) (b i))
    | 0x31 => vReduceF s h c 64 (fun r v => fAddV f64 c.rnd (fVal f64 r) (fVal f32 v))
    | 0x33 => vReduceF s h c 64 (fun r v => fAddV f64 c.rnd (fVal f64 r) (fVal f32 v))
    | _ => vMasked s h c 64 two (fun i => vMacF f64 c.rnd n (a i) (b i) (fVal f64 (vElem c.x c.vd 64 i)))

/-- An instruction of OPFVV or OPFVF. -/
def vInstrF (s : State) (h : Nat) (c : VCtx) : Option State :=
  let n := c.f6
  let e := c.sew
  let a := fun (i : Nat) => vElem c.x c.vs2 e i
  if !formF n c.f3 then none
  else if n == 0x12 then vConvF s h c
  else if 0x30 ≤ n then vWideF s h c
  else match vFmt e with
    | none => none
    | some f =>
      if n == 0x01 || n == 0x03 then vReduceF s h c e (fun r v => fAddV f c.rnd (fVal f r) (fVal f v))
      else if n == 0x05 then vReduceF s h c e (fun r v => fMinMaxV f true r v)
      else if n == 0x07 then vReduceF s h c e (fun r v => fMinMaxV f false r v)
      else if n == 0x0E || n == 0x0F then vSlide1 s h c (n == 0x0E)
      else if n == 0x10 then vScalarF s h c
      else if n == 0x13 then vUnaryF s h c f
      else if n == 0x17 then vMerge s h c
      else if 0x18 ≤ n && n < 0x20 then vMasked s h c 1 (vSrcs c e e) (fun i => let r := vCmpF f n (a i) (vB c e i); { bits := bitNat r.1, flags := r.2 })
      else if 0x28 ≤ n then
        vMasked s h c e (vSrcs c e e) (fun i =>
          let d := fVal f (vElem c.x c.vd e i)
          let y := fVal f (vB c e i)
          let v := fVal f (a i)
          if n < 0x2C then vMacF f c.rnd n y d v
          else vMacF f c.rnd n y v d)
      else vMasked s h c e (vSrcs c e e) (fun i => (vOpF f c.rnd n (a i) (vB c e i)).getD (bare 0))

/-! ### The words of OP-V -/

/-- What an instruction works with. -/
def vContext (s : State) (x : Hart) (w : Word) : VCtx :=
  let n := w.toNat
  let vt := (vtypeOf x).toNat
  { x := x, vd := nbits n 7 5, vs1 := nbits n 15 5, vs2 := nbits n 20 5, f6 := nbits n 26 6, f3 := nbits n 12 3, vm := nbits n 25 1 == 1
    sew := vSew vt, lmul := vLmul vt, vl := (sget x.csrs 0xC20).toNat, start := (sget x.csrs 0x008).toNat, ta := nbits vt 6 1 == 1
    ma := nbits vt 7 1 == 1, rnd := (rvRound (nbits (sget x.csrs 3).toNat 5 3)).getD 0, vxrm := (sget x.csrs 0x00A).toNat, fresh := s.fresh }

/-- The instructions that set the vector configuration. -/
def rvVset (s : State) (h : Nat) (x : Hart) (w : Word) : Option State :=
  let n := w.toNat
  let rd := w.extractLsb' 7 5
  let rs1 := w.extractLsb' 15 5
  let len : Option Nat :=
    if nbits n 30 2 == 3 then some (nbits n 15 5)
    else if rs1 != 0 then some (rdX x rs1).toNat
    else if rd != 0 then some (2 ^ 64)
    else none
  let vt : Option Nat :=
    if nbits n 31 1 == 0 then some (nbits n 20 11)
    else if nbits n 30 2 == 3 then some (nbits n 20 10)
    else if nbits n 25 7 == 0x40 then some (rdX x (w.extractLsb' 20 5)).toNat
    else none
  vt.map (fun t => match vset x t len with
    | (y, vl) => retireBy s h y rd (BitVec.ofNat 64 vl) 4)

/-- A word of OP-V; none for an illegal one. -/
def rvVector (s : State) (h : Nat) (x : Hart) (w : Word) : Option State :=
  let c := vContext s x w
  if !vectorOn x then none
  else if c.f3 == 7 then rvVset s h x w
  else if villOf x then none
  else if c.f3 == 1 || c.f3 == 5 then
    (if !floatOn x || (rvRound (nbits (sget x.csrs 3).toNat 5 3)).isNone then none else vInstrF s h c)
  else if c.f3 == 2 || c.f3 == 6 then vInstrM s h c
  else vInstrI s h c

/-! ### Vector loads and stores -/

/-- A vector load or store: the fields of its segments, the width of their elements, how many segments, where a field stands, the first register,
the registers of a field, whether the tail is agnostic, and whether an exception past the first element ends it. -/
structure VMem where
  fields : Nat
  eew    : Nat
  evl    : Nat
  addr   : Nat → Nat → DWord
  regs   : Nat
  tail   : Bool
  trim   : Bool

/-- The width of an element by its code. -/
def vWidth (f3 : Nat) : Option Nat := if f3 == 0 then some 8 else if f3 == 5 then some 16 else if f3 == 6 then some 32 else if f3 == 7 then some 64 else none

/-- The accesses of a word; none for an illegal one. -/
def vMemOf (c : VCtx) (vill load : Bool) (n : Nat) : Option VMem :=
  let nf := nbits n 29 3 + 1
  let mop := nbits n 26 2
  let base := rdX c.x (BitVec.ofNat 5 c.vs1)
  let at_ := fun (k : Nat) => base + BitVec.ofNat 64 k
  match vWidth c.f3 with
  | none => none
  | some w =>
    let ed := if mop % 2 == 1 then c.sew else w
    let regs := groupRegs (vGroup c ed)
    let fit := decide (nf * regs ≤ 8) && decide (c.vd + nf * regs ≤ 32) && groupOk c c.vd ed && (c.vm || !load || c.vd != 0)
    if nbits n 28 1 == 1 then none
    else if mop == 0 && c.vs2 == 8 then
      (if !c.vm || !(([1, 2, 4, 8] : List Nat).contains nf) || c.vd % nf != 0 || (!load && w != 8) then none
       else some { fields := 1, eew := w, evl := nf * 512 / w, addr := fun i _ => at_ (i * (w / 8)), regs := nf, tail := false, trim := false })
    else if vill then none
    else if mop == 0 && c.vs2 == 11 then
      (if !c.vm || w != 8 || nf != 1 then none
       else some { fields := 1, eew := 8, evl := (c.vl + 7) / 8, addr := fun i _ => at_ i, regs := 1, tail := true, trim := false })
    else if !fit then none
    else if mop == 0 then
      (if c.vs2 == 0 || (c.vs2 == 16 && load) then
        some { fields := nf, eew := w, evl := c.vl, addr := fun i f => at_ ((i * nf + f) * (w / 8)), regs := regs, tail := c.ta, trim := c.vs2 == 16 }
       else none)
    else if mop == 2 then
      some { fields := nf, eew := w, evl := c.vl, addr := fun i f => at_ (f * (w / 8)) + BitVec.ofNat 64 i * rdX c.x (BitVec.ofNat 5 c.vs2)
             regs := regs, tail := c.ta, trim := false }
    else if !groupOk c c.vs2 w || (load && nf == 1 && !overlapOk c c.vd c.sew c.vs2 w) ||
      (load && nf != 1 && !apart c.vd (nf * regs) c.vs2 (groupRegs (vGroup c w))) then none
    else
      some { fields := nf, eew := c.sew, evl := c.vl, addr := fun i f => at_ (vElem c.x c.vs2 w i + f * (c.sew / 8)), regs := regs, tail := c.ta
             trim := false }

/-- The elements of every field from one to before another become agnostic. -/
def vLoose (c : VCtx) (m : VMem) (lo hi : Nat) (x : Hart) : Hart :=
  (List.range m.fields).foldl (fun x f =>
    (List.range hi).foldl (fun x i =>
      if i < lo then x else vPut x (c.vd + f * m.regs) m.eew i (agnostic c i m.eew (vElem x (c.vd + f * m.regs) m.eew i))) x) x

/-- One access of a vector load or store, in the order of elements and of their fields; `vstart` and the hart's count of fields say how far it has
come. With the last element the tail follows the setting. -/
def vMemStep (s : State) (h : Nat) (c : VCtx) (m : VMem) (load : Bool) : State :=
  let i := c.start
  let x := c.x
  if m.evl ≤ i then vRetire s h x 0
  else
    let last := load && m.tail && i + 1 == m.evl && x.vfield == 0
    let y := dirtyV (if last then vLoose c m m.evl (m.regs * 512 / m.eew) x else x)
    let s1 := { s with fresh := s.fresh + 64 }
    if !vActive c i then
      let z := if load && c.ma then vLoose c m i (i + 1) y else y
      putHart s1 h { z with csrs := sset z.csrs 0x008 (BitVec.ofNat 64 (i + 1)), vfield := 0 }
    else
      let bit := 512 * (c.vd + x.vfield * m.regs) + m.eew * i
      let a : HostAcc :=
        { op := if load then .load else .store, va := m.addr i x.vfield, size := BitVec.ofNat 2 (Nat.log2 m.eew - 3), zext := true
          val := BitVec.ofNat 64 (vBits x bit m.eew), rd := 0, len := 4, dst := .v bit m.fields m.trim }
      match execHostAccess h a (putHart s1 h y) with
      | .next t => t
      | _ => s

/-- A vector word of LOAD-FP or STORE-FP; none for an illegal one. -/
def rvVecMem (s : State) (h : Nat) (x : Hart) (w : Word) (load : Bool) : Option State :=
  let c := vContext s x w
  if !vectorOn x then none else (vMemOf c (villOf x) load w.toNat).map (fun m => vMemStep s h c m load)

end Sys2Proof.Machine
end

