-- ==== Sys2Proof/Machine/RiscvWords.lean ====
section
/-! DEFINITION. The words of RISC-V's own that the host harts need around the spec's (R141, R307, R318, R431, R432): the integer instructions, loads,
stores and AMOs, FENCE, the float instructions, the hypervisor's loads and stores, the CSRs, traps and the return from them. The spec names the
extensions and describes none of these; their encodings and meanings are RISC-V's (PRESUMED, log entry 64). -/

namespace Sys2Proof.Machine

open Sys2Proof

/-! ### Integer results -/

/-- The operations of OP and OP-IMM on 64 bits. -/
def rvAlu (f3 : Nat) (alt : Bool) (a b : DWord) : DWord :=
  let n := b.toNat % 64
  match f3 with
  | 0 => if alt then a - b else a + b
  | 1 => a <<< n
  | 2 => if a.slt b then 1 else 0
  | 3 => if a < b then 1 else 0
  | 4 => a ^^^ b
  | 5 => if alt then a.sshiftRight n else a >>> n
  | 6 => a ||| b
  | _ => a &&& b

/-- The operations of OP-32 and OP-IMM-32: on the low words, sign-extended. -/
def rvAluW (f3 : Nat) (alt : Bool) (a b : DWord) : DWord :=
  let x := a.setWidth 32
  let y := b.setWidth 32
  let n := b.toNat % 32
  (match f3 with
    | 1 => x <<< n
    | 5 => if alt then x.sshiftRight n else x >>> n
    | _ => if alt then x - y else x + y : BitVec 32).signExtend 64

/-- Division: the quotient of a zero divisor is all ones and its remainder the dividend. -/
def rvDiv {w : Nat} (f3 : Nat) (a b : BitVec w) : BitVec w :=
  match f3 with
  | 4 => if b == 0 then BitVec.allOnes w else a.sdiv b
  | 5 => if b == 0 then BitVec.allOnes w else a / b
  | 6 => if b == 0 then a else a.srem b
  | _ => if b == 0 then a else a % b

/-- The operations of M on 64 bits. -/
def rvMul (f3 : Nat) (a b : DWord) : DWord :=
  match f3 with
  | 0 => a * b
  | 1 => (a.signExtend 128 * b.signExtend 128).extractLsb' 64 64
  | 2 => (a.signExtend 128 * b.setWidth 128).extractLsb' 64 64
  | 3 => (a.setWidth 128 * b.setWidth 128).extractLsb' 64 64
  | n => rvDiv n a b

/-- The operations of M on words. -/
def rvMulW (f3 : Nat) (a b : DWord) : DWord :=
  let x := a.setWidth 32
  let y := b.setWidth 32
  (if f3 == 0 then x * y else rvDiv f3 x y : BitVec 32).signExtend 64

/-- A branch is taken; none for an encoding that is no branch. -/
def rvTaken (f3 : Nat) (a b : DWord) : Option Bool :=
  match f3 with
  | 0 => some (a == b)
  | 1 => some (a != b)
  | 4 => some (a.slt b)
  | 5 => some (!a.slt b)
  | 6 => some (decide (a < b))
  | 7 => some (!decide (a < b))
  | _ => none

/-- The operation of an AMO word. -/
def rvAmo (f5 : Nat) : Option HostOp :=
  (([(0, .amoadd), (1, .amoswap), (2, .lr), (3, .sc), (4, .amoxor), (8, .amoor), (12, .amoand), (16, .amomin), (20, .amomax), (24, .amominu),
    (28, .amomaxu)] : List (Nat × HostOp)).find? (fun p => p.1 == f5)).map (fun p => p.2)

/-! ### Immediates -/

/-- The immediate of format I. -/
def immI (w : Word) : DWord := (w.extractLsb' 20 12).signExtend 64

/-- The immediate of format S. -/
def immS (w : Word) : DWord := (w.extractLsb' 25 7 ++ w.extractLsb' 7 5).signExtend 64

/-- The immediate of format B. -/
def immB (w : Word) : DWord := (w.extractLsb' 31 1 ++ w.extractLsb' 7 1 ++ w.extractLsb' 25 6 ++ w.extractLsb' 8 4 ++ (0 : BitVec 1)).signExtend 64

/-- The immediate of format J. -/
def immJ (w : Word) : DWord := (w.extractLsb' 31 1 ++ w.extractLsb' 12 8 ++ w.extractLsb' 20 1 ++ w.extractLsb' 21 10 ++ (0 : BitVec 1)).signExtend 64

/-- The immediate of format U. -/
def immU (w : Word) : DWord := (w.extractLsb' 12 20 ++ (0 : BitVec 12)).signExtend 64

/-! ### System words -/

/-- The state after an access of an instruction. -/
def hostAct (s : State) (h : Nat) (a : HostAcc) : State := match execHostAccess h a s with
  | .next t => t
  | _ => s

/-- SRET: of S, or of VS in a guest; TSR and VTSR bar it. -/
def rvSret (s : State) (h : Nat) (x : Hart) (w : Nat) : State :=
  match x.mode with
  | .vs => if (sget x.csrs 0x600).getLsbD 22 then refuseWord s h w .virtual else hartReturn s h .vu x.vst (fun x c => { x with vst := c })
  | .hs => if (sget x.csrs 0x300).getLsbD 22 then refuseWord s h w .illegal else hartReturn s h .u x.st (fun x c => { x with st := c })
  | .m => hartReturn s h .u x.st (fun x c => { x with st := c })
  | .u => refuseWord s h w .illegal
  | .vu => refuseWord s h w .virtual

/-- WFI: it ends at once; below M where TW bars it, and in VS where VTW does, it is refused, for the time that it may wait is none. -/
def rvWfi (s : State) (h : Nat) (x : Hart) (w : Nat) : State :=
  if x.mode != .m && (sget x.csrs 0x300).getLsbD 21 then refuseWord s h w .illegal
  else if x.mode == .vs && (sget x.csrs 0x600).getLsbD 21 then refuseWord s h w .virtual
  else retireBy s h x 0 0 4

/-- ECALL, EBREAK, SRET, MRET and WFI; none for another word. -/
def rvSystem (s : State) (h : Nat) (x : Hart) (w : Word) : Option State :=
  if w == 0x00000073 then some (hartTrap s h (match x.mode with
    | .m => 11
    | .vs => 10
    | .hs => 9
    | _ => 8) 0 0)
  else if w == 0x00100073 then some (hartTrap s h 3 x.pc.toNat 0)
  else if w == 0x10500073 then some (rvWfi s h x w.toNat)
  else if w == 0x30200073 then some (if x.mode == .m then hartReturn s h .u x.mt (fun x c => { x with mt := c }) else refuseWord s h w.toNat .illegal)
  else if w == 0x10200073 then some (rvSret s h x w.toNat)
  else none

/-- The mode that the hypervisor's loads and stores are made in: that of the guest that SPVP names. -/
def guestView (x : Hart) : HostMode := if (sget x.csrs 0x600).getLsbD 8 then .vs else .vu

/-- The hypervisor's loads and stores: HLV, HLVX and HSV; none for an illegal one. In U they ask for HU; a guest may not make them. -/
def rvHyper (s : State) (h : Nat) (x : Hart) (w : Word) (rd rs1 : BitVec 5) : Option State :=
  let f7 := (w.extractLsb' 25 7).toNat
  let k := (w.extractLsb' 20 5).toNat
  let size := f7 / 2 % 4
  let store := f7 % 2 == 1
  let there := decide (0x30 ≤ f7) && decide (f7 < 0x38) && (if store then rd == 0 else
    k == 0 || (k == 1 && size != 3) || (k == 3 && (size == 1 || size == 2)))
  let a : HostAcc :=
    { op := if store then .store else .load, va := rdX x rs1, size := BitVec.ofNat 2 size, zext := k != 0, val := rdX x (w.extractLsb' 20 5), rd := rd
      len := 4, view := some (guestView x), ex := !store && k == 3 }
  if !there then none
  else if isVirtual x.mode then some (refuseWord s h w.toNat .virtual)
  else if x.mode == .u && !(sget x.csrs 0x600).getLsbD 9 then none
  else some (hostAct s h a)

/-! ### Float words -/

/-- A float format by the two bits of a word. -/
def rvFmt (n : Nat) : Option (FloatFmt × Nat) := if n == 0 then some (f32, 32) else if n == 1 then some (f64, 64) else none

/-- The rounding mode of a word, its own or that of `fcsr`; none for a reserved one. -/
def rvRm (x : Hart) (rm : Nat) : Option Nat := rvRound (if rm == 7 then nbits (sget x.csrs 3).toNat 5 3 else rm)

/-- A float result retires with its flags. -/
def retireF (s : State) (h : Nat) (x : Hart) (rd : BitVec 5) (size : Nat) (r : FRes) : State :=
  putHart s h (goesTo (raiseFlags (wrF x rd (if size == 32 then 2 else 3) (BitVec.ofNat 64 r.bits)) r.flags) (x.pc + 4))

/-- An integer result of a float instruction retires with its flags. -/
def retireX (s : State) (h : Nat) (x : Hart) (rd : BitVec 5) (v : DWord) (fl : Nat) : State :=
  putHart s h (goesTo (raiseFlags (wrX x rd v) fl) (x.pc + 4))

/-- The width and sign of an integer that a conversion names. -/
def rvIntTy (k : Nat) : Bool × Nat := (k % 2 == 0, if k < 2 then 32 else 64)

/-- The words of OP-FP whose result has a rounding mode of their own or none; `p` is the format with its width. -/
def rvFpOp (s : State) (h : Nat) (x : Hart) (w : Word) (f : FloatFmt) (p : Nat) : Option State :=
  let f5 := (w.extractLsb' 27 5).toNat
  let rm := (w.extractLsb' 12 3).toNat
  let rd := w.extractLsb' 7 5
  let r1 := w.extractLsb' 15 5
  let r2 := (w.extractLsb' 20 5).toNat
  let a := fReg x r1.toNat p
  let b := fReg x r2 p
  let round := fun (g : Nat → FRes) => (rvRm x rm).map (fun r => retireF s h x rd p (g r))
  match f5 with
  | 0x00 => round (fun r => fAddV f r (fVal f a) (fVal f b))
  | 0x01 => round (fun r => fAddV f r (fVal f a) (fVal f b).negate)
  | 0x02 => round (fun r => fMulV f r (fVal f a) (fVal f b))
  | 0x03 => round (fun r => fDivV f r (fVal f a) (fVal f b))
  | 0x0B => if r2 == 0 then round (fun r => fSqrtV f r (fVal f a)) else none
  | 0x04 => if rm < 3 then some (retireF s h x rd p (bare (fSgnjV f rm a b))) else none
  | 0x05 => if rm < 2 then some (retireF s h x rd p (fMinMaxV f (rm == 0) a b)) else none
  | 0x08 => (match p, r2 with
    | 32, 1 => round (fun r => fToFmt f r (fVal f64 (fReg x r1.toNat 64)))
    | 64, 0 => round (fun r => fToFmt f r (fVal f32 (fReg x r1.toNat 32)))
    | _, _ => none)
  | 0x14 => if rm < 3 then (let r := fCmpV rm (fVal f a) (fVal f b); some (retireX s h x rd (BitVec.ofNat 64 (bitNat r.1)) r.2)) else none
  | 0x18 => if r2 < 4 then (rvRm x rm).map (fun r =>
      let y := fToIntV r (rvIntTy r2).1 (rvIntTy r2).2 (fVal f a)
      retireX s h x rd ((BitVec.ofNat (rvIntTy r2).2 y.bits).signExtend 64) y.flags) else none
  | 0x1A => if r2 < 4 then round (fun r => fOfInt f r (intOf (rvIntTy r2).1 (rvIntTy r2).2 (rdX x r1).toNat)) else none
  | 0x1C =>
    if r2 != 0 then none
    else if rm == 0 then some (retireX s h x rd ((BitVec.ofNat p (sget x.f r1.toNat).toNat).signExtend 64) 0)
    else if rm == 1 then some (retireX s h x rd (BitVec.ofNat 64 (fClassV f a)) 0)
    else none
  | 0x1E => if r2 == 0 && rm == 0 then some (retireF s h x rd p (bare ((rdX x r1).toNat % 2 ^ p))) else none
  | _ => none

/-- A multiply-add: MADD, MSUB, NMSUB, NMADD by two bits of their opcode. -/
def rvFma (s : State) (h : Nat) (x : Hart) (w : Word) (f : FloatFmt) (p : Nat) : Option State :=
  let k := (w.extractLsb' 2 2).toNat
  let v := fun (lo : Nat) => fVal f (fReg x (w.extractLsb' lo 5).toNat p)
  (rvRm x (w.extractLsb' 12 3).toNat).map (fun r =>
    retireF s h x (w.extractLsb' 7 5) p (fFmaV f r (if 2 ≤ k then (v 15).negate else v 15) (v 20) (if k == 1 || k == 3 then (v 27).negate else v 27)))

/-- A float word: arithmetic, a multiply-add; none for an illegal one, among them all while the float state is off. -/
def rvFloat (s : State) (h : Nat) (x : Hart) (w : Word) (fma : Bool) : Option State :=
  if !floatOn x then none
  else match rvFmt (w.extractLsb' 25 2).toNat with
    | none => none
    | some (f, p) => if fma then rvFma s h x w f p else rvFpOp s h x w f p

/-! ### The words -/

/-- A hart goes to an address, its link written behind an instruction of some bytes. -/
def hostJump (s : State) (h : Nat) (x : Hart) (rd : BitVec 5) (dest : DWord) (len : Nat) : State :=
  putHart s h (goesTo (wrX x rd (x.pc + BitVec.ofNat 64 len)) dest)

/-- A load or store of the float registers, or of the vector registers by its width; none for an illegal one. -/
def rvFloatMem (s : State) (h : Nat) (x : Hart) (w : Word) (load : Bool) (a : HostAcc) : Option State :=
  let f3 := (w.extractLsb' 12 3).toNat
  if f3 == 2 || f3 == 3 then
    (if floatOn x then some (hostAct s h { a with zext := true, dst := .f, val := sget x.f (w.extractLsb' 20 5).toNat }) else none)
  else rvVecMem s h x w load

/-- An integer word of OP-IMM, OP-IMM-32, OP or OP-32; none for an illegal one. -/
def rvInt (w : Word) (a b : DWord) : Option DWord :=
  let f3 := (w.extractLsb' 12 3).toNat
  let f7 := (w.extractLsb' 25 7).toNat
  let alt := w.getLsbD 30
  match (w.extractLsb' 0 7).toNat with
  | 0x13 => if (f3 == 1 && f7 / 2 != 0) || (f3 == 5 && f7 / 2 != 0 && f7 / 2 != 0x10) then none else some (rvAlu f3 (f3 == 5 && alt) a (immI w))
  | 0x1B => if f3 == 0 then some (rvAluW 0 false a (immI w)) else if f3 == 1 && f7 == 0 then some (rvAluW 1 false a (immI w))
    else if f3 == 5 && (f7 == 0 || f7 == 0x20) then some (rvAluW 5 alt a (immI w)) else none
  | 0x33 => if f7 == 1 then some (rvMul f3 a b) else if f7 == 0 || (f7 == 0x20 && (f3 == 0 || f3 == 5)) then some (rvAlu f3 alt a b) else none
  | 0x3B => if f7 == 1 && (f3 == 0 || decide (4 ≤ f3)) then some (rvMulW f3 a b)
    else if (f7 == 0 && (f3 == 0 || f3 == 1 || f3 == 5)) || (f7 == 0x20 && (f3 == 0 || f3 == 5)) then some (rvAluW f3 alt a b) else none
  | _ => none

/-- The AMO, LR or SC of a word; none for an illegal one. -/
def rvAtomic (w : Word) (acc : HostAcc) : Option HostAcc :=
  let f7 := (w.extractLsb' 25 7).toNat
  let f3 := (w.extractLsb' 12 3).toNat
  if f3 != 2 && f3 != 3 then none
  else (rvAmo (f7 / 4)).bind (fun op =>
    if op == .lr && w.extractLsb' 20 5 != 0 then none else some { acc with op := op, aq := w.getLsbD 26, rl := w.getLsbD 25 })

/-- A word of some bytes (those of the compressed word that it stands for); none for an illegal one. -/
def rvMeaning (s : State) (h : Nat) (x : Hart) (w : Word) (len : Nat) : Option State :=
  let rd := w.extractLsb' 7 5
  let f3 := (w.extractLsb' 12 3).toNat
  let rs1 := w.extractLsb' 15 5
  let a := rdX x rs1
  let b := rdX x (w.extractLsb' 20 5)
  let put := fun (v : DWord) => retireBy s h x rd v len
  let acc : HostAcc := { op := .load, va := a, size := BitVec.ofNat 2 f3, zext := decide (4 ≤ f3), val := b, rd := rd, len := len }
  match (w.extractLsb' 0 7).toNat with
  | 0x37 => some (put (immU w))
  | 0x17 => some (put (x.pc + immU w))
  | 0x6F => some (hostJump s h x rd (x.pc + immJ w) len)
  | 0x67 => if f3 == 0 then some (hostJump s h x rd ((a + immI w) &&& ~~~1) len) else none
  | 0x63 => (rvTaken f3 a b).map (fun t => putHart s h (goesTo x (x.pc + (if t then immB w else BitVec.ofNat 64 len))))
  | 0x03 => if f3 == 7 then none else some (hostAct s h { acc with va := a + immI w })
  | 0x23 => if 4 ≤ f3 then none else some (hostAct s h { acc with op := .store, va := a + immS w, rd := 0 })
  | 0x07 => rvFloatMem s h x w true { acc with va := a + immI w }
  | 0x27 => rvFloatMem s h x w false { acc with op := .store, va := a + immS w, rd := 0 }
  | 0x2F => (rvAtomic w acc).map (hostAct s h)
  | 0x0F => if f3 == 0 then some (hostAct s h { acc with op := .fence, rd := 0 }) else if f3 == 1 then some (retireBy s h x 0 0 len) else none
  | 0x73 => if f3 == 0 then rvSystem s h x w else if f3 == 4 then rvHyper s h x w rd rs1
    else some (rvCsr s h x w f3 (w.extractLsb' 20 12).toNat rd rs1)
  | 0x57 => rvVector s h x w
  | 0x53 => rvFloat s h x w false
  | 0x43 => rvFloat s h x w true
  | 0x47 => rvFloat s h x w true
  | 0x4B => rvFloat s h x w true
  | 0x4F => rvFloat s h x w true
  | _ => (rvInt w a b).map put

/-- A word of RISC-V's own; one that is none is an illegal instruction, with the bits that were fetched in `tval`. -/
def rvWord (s : State) (h : Nat) (w : Word) (raw len : Nat) : State :=
  (rvMeaning s h (hartOf s h) w len).getD (refuseWord s h raw .illegal)

end Sys2Proof.Machine
end

