-- ==== Sys2Proof/Machine/Riscv.lean ====
section
/-! DEFINITION. The next instruction of a host hart: the interrupt that it takes first, the fetch of a word of 16 or 32 bits, and the word of 32 bits
that a compressed one stands for (R266, R307, R367, R431; the compressed words are RISC-V's: PRESUMED, log entry 64). -/

namespace Sys2Proof.Machine

open Sys2Proof

/-! ### Compressed words -/

/-- A word of format R. -/
def encR (op f3 f7 rd rs1 rs2 : Nat) : Nat := op + rd * 2 ^ 7 + f3 * 2 ^ 12 + rs1 * 2 ^ 15 + rs2 * 2 ^ 20 + f7 * 2 ^ 25

/-- A word of format I; its immediate is a number below 2^12. -/
def encI (op f3 rd rs1 imm : Nat) : Nat := op + rd * 2 ^ 7 + f3 * 2 ^ 12 + rs1 * 2 ^ 15 + imm * 2 ^ 20

/-- A word of format S. -/
def encS (op f3 rs1 rs2 imm : Nat) : Nat := encR op f3 (imm / 32) (imm % 32) rs1 rs2

/-- A branch on a register and zero, by an offset below 2^13. -/
def encB (f3 rs1 ofs : Nat) : Nat := encR 0x63 f3 (nbits ofs 12 1 * 64 + nbits ofs 5 6) (nbits ofs 1 4 * 2 + nbits ofs 11 1) rs1 0

/-- A jump by an offset below 2^21. -/
def encJ (ofs : Nat) : Nat := 0x6F + nbits ofs 12 8 * 2 ^ 12 + nbits ofs 11 1 * 2 ^ 20 + nbits ofs 1 10 * 2 ^ 21 + nbits ofs 20 1 * 2 ^ 31

/-- A number of some bits extended by its sign to more. -/
def sextTo (n m v : Nat) : Nat := if nbits v (n - 1) 1 == 1 then v + (2 ^ m - 2 ^ n) else v

/-- The six-bit immediate of a compressed word. -/
def cImm6 (c : Nat) : Nat := nbits c 12 1 * 32 + nbits c 2 5

/-- The offset of a compressed access of 8 bytes. -/
def cOfs8 (c : Nat) : Nat := nbits c 10 3 * 8 + nbits c 5 2 * 64

/-- The offset of a compressed access of 4 bytes. -/
def cOfs4 (c : Nat) : Nat := nbits c 10 3 * 8 + nbits c 6 1 * 4 + nbits c 5 1 * 64

/-- The offset of a compressed load of 8 bytes from the stack. -/
def cSp8 (c : Nat) : Nat := nbits c 12 1 * 32 + nbits c 5 2 * 8 + nbits c 2 3 * 64

/-- Quadrant 0: loads and stores by a base register, and an address on the stack. -/
def cQuad0 (c : Nat) : Option Nat :=
  let rd := 8 + nbits c 2 3
  let rs := 8 + nbits c 7 3
  let spn := nbits c 11 2 * 16 + nbits c 7 4 * 64 + nbits c 6 1 * 4 + nbits c 5 1 * 8
  match nbits c 13 3 with
  | 0 => if spn == 0 then none else some (encI 0x13 0 rd 2 spn)
  | 1 => some (encI 0x07 3 rd rs (cOfs8 c))
  | 2 => some (encI 0x03 2 rd rs (cOfs4 c))
  | 3 => some (encI 0x03 3 rd rs (cOfs8 c))
  | 5 => some (encS 0x27 3 rs rd (cOfs8 c))
  | 6 => some (encS 0x23 2 rs rd (cOfs4 c))
  | 7 => some (encS 0x23 3 rs rd (cOfs8 c))
  | _ => none

/-- The arithmetic of quadrant 1 on the eight short registers. -/
def cArith (c : Nat) : Option Nat :=
  let rd := 8 + nbits c 7 3
  let rs := 8 + nbits c 2 3
  match nbits c 10 2 with
  | 0 => some (encI 0x13 5 rd rd (cImm6 c))
  | 1 => some (encI 0x13 5 rd rd (0x400 + cImm6 c))
  | 2 => some (encI 0x13 7 rd rd (sextTo 6 12 (cImm6 c)))
  | _ => (match nbits c 12 1, nbits c 5 2 with
    | 0, 0 => some (encR 0x33 0 0x20 rd rd rs)
    | 0, 1 => some (encR 0x33 4 0 rd rd rs)
    | 0, 2 => some (encR 0x33 6 0 rd rd rs)
    | 0, 3 => some (encR 0x33 7 0 rd rd rs)
    | 1, 0 => some (encR 0x3B 0 0x20 rd rd rs)
    | 1, 1 => some (encR 0x3B 0 0 rd rd rs)
    | _, _ => none)

/-- Quadrant 1: immediates, arithmetic, jumps and branches. -/
def cQuad1 (c : Nat) : Option Nat :=
  let rd := nbits c 7 5
  let sp := nbits c 12 1 * 512 + nbits c 6 1 * 16 + nbits c 5 1 * 64 + nbits c 3 2 * 128 + nbits c 2 1 * 32
  let jmp := nbits c 12 1 * 2 ^ 11 + nbits c 11 1 * 2 ^ 4 + nbits c 9 2 * 2 ^ 8 + nbits c 8 1 * 2 ^ 10 + nbits c 7 1 * 2 ^ 6 + nbits c 6 1 * 2 ^ 7 +
    nbits c 3 3 * 2 + nbits c 2 1 * 2 ^ 5
  let br := nbits c 12 1 * 2 ^ 8 + nbits c 10 2 * 2 ^ 3 + nbits c 5 2 * 2 ^ 6 + nbits c 3 2 * 2 + nbits c 2 1 * 2 ^ 5
  match nbits c 13 3 with
  | 0 => some (encI 0x13 0 rd rd (sextTo 6 12 (cImm6 c)))
  | 1 => if rd == 0 then none else some (encI 0x1B 0 rd rd (sextTo 6 12 (cImm6 c)))
  | 2 => some (encI 0x13 0 rd 0 (sextTo 6 12 (cImm6 c)))
  | 3 =>
    if rd == 2 then (if sp == 0 then none else some (encI 0x13 0 2 2 (sextTo 10 12 sp)))
    else if cImm6 c == 0 then none
    else some (0x37 + rd * 2 ^ 7 + sextTo 6 20 (cImm6 c) * 2 ^ 12)
  | 4 => cArith c
  | 5 => some (encJ (sextTo 12 21 jmp))
  | 6 => some (encB 0 (8 + nbits c 7 3) (sextTo 9 13 br))
  | _ => some (encB 1 (8 + nbits c 7 3) (sextTo 9 13 br))

/-- Quadrant 2: shifts, accesses on the stack, moves, jumps by a register. -/
def cQuad2 (c : Nat) : Option Nat :=
  let rd := nbits c 7 5
  let rs := nbits c 2 5
  match nbits c 13 3 with
  | 0 => some (encI 0x13 1 rd rd (cImm6 c))
  | 1 => some (encI 0x07 3 rd 2 (cSp8 c))
  | 2 => if rd == 0 then none else some (encI 0x03 2 rd 2 (nbits c 12 1 * 32 + nbits c 4 3 * 4 + nbits c 2 2 * 64))
  | 3 => if rd == 0 then none else some (encI 0x03 3 rd 2 (cSp8 c))
  | 4 => (match nbits c 12 1 == 1, rd == 0, rs == 0 with
    | false, true, true => none
    | false, false, true => some (encI 0x67 0 0 rd 0)
    | false, _, false => some (encR 0x33 0 0 rd 0 rs)
    | true, true, true => some 0x00100073
    | true, false, true => some (encI 0x67 0 1 rd 0)
    | true, _, false => some (encR 0x33 0 0 rd rd rs))
  | 5 => some (encS 0x27 3 2 rs (nbits c 10 3 * 8 + nbits c 7 3 * 64))
  | 6 => some (encS 0x23 2 2 rs (nbits c 9 4 * 4 + nbits c 7 2 * 64))
  | _ => some (encS 0x23 3 2 rs (nbits c 10 3 * 8 + nbits c 7 3 * 64))

/-- The word that a compressed one stands for; none for an illegal one. -/
def cExpand (c : Nat) : Option Word :=
  (match c % 4 with
    | 0 => cQuad0 c
    | 1 => cQuad1 c
    | _ => cQuad2 c).map (BitVec.ofNat 32)

/-! ### The next instruction of a hart -/

/-- What a hart does next. -/
inductive NextHost where
  /-- An instruction of the spec's own runs. -/
  | run (i : Instr) (s : State)
  /-- Something else happened: a word of RISC-V's own, an exception, an interrupt, or a wait. -/
  | done (s : State)

/-- The bytes of a fetch of a hart, or the state that it leaves where it finds none (R367, R375, R431). -/
def hartFetch (s : State) (h : Nat) (va n : Nat) : Except State (Nat × State) :=
  match hostReach s h (hartOf s h) .fetch va n .fetch with
  | (.exc e, s1) => .error (hartExc s1 h e)
  | (.window _, s1) => .error (hartTrap s1 h 1 va 0)
  | (.wait, s1) => .error s1
  | (.held _, s1) => .error s1
  | (.mem segs, s1) => match hostRead s1 h .read segs with
    | (.inl e, s2) => .error (hostPoison s2 h .fetch e va)
    | (.inr bs, s2) => .ok (ofBytes bs, s2)

/-- A word of 32 bits: the spec's (R266, R318), or RISC-V's own. A word of the custom-0 opcode that R266 does not list is an illegal instruction. -/
def runWord32 (s : State) (h n : Nat) : NextHost :=
  let w : Word := BitVec.ofNat 32 n
  match decodeHost w with
  | .ok i => .run i s
  | .error _ => .done (rvWord s h w n 4)

/-- A word of 16 bits. -/
def runWord16 (s : State) (h n : Nat) : NextHost :=
  match cExpand n with
  | some w => .done (rvWord s h w n 2)
  | none => .done (refuseWord s h n .illegal)

/-- R266, R307, R367, R431: a running hart takes the interrupt that is due, or fetches the word at its pc: 4 bytes where they are aligned, else 2 and,
if the word has 32 bits, the 2 behind them. -/
def nextHost (s : State) (h : Nat) : NextHost :=
  let x := hartOf s h
  let pc := x.pc.toNat
  match if x.run == .running then dueIntr x else none with
  | some c => .done (hartExc s h { cause := c, tval := 0, intr := true })
  | none =>
    if pc % 2 != 0 then .done (hartTrap s h 0 pc 0)
    else match hartFetch s h pc (if pc % 4 == 0 then 4 else 2) with
      | .error t => .done t
      | .ok (n, s1) =>
        if n % 4 != 3 then runWord16 s1 h (n % 2 ^ 16)
        else if pc % 4 == 0 then runWord32 s1 h n
        else match hartFetch s1 h ((pc + 2) % 2 ^ 64) 2 with
          | .error t => .done t
          | .ok (m, s2) => runWord32 s2 h (n + 2 ^ 16 * m)

end Sys2Proof.Machine
end

