-- ==== Sys2Proof/Machine/Platform.lean ====
section
/-! DEFINITION. The package around its cores: power windows (R344), refills of hint budgets (R150), the CXL and PCIe ports and what comes in
by them (R435, R436), boot (R437), the live switch of hub firmware (R440) and the feed of replayed packets (R443). -/

namespace Sys2Proof.Machine

/-! ### Power (R344) -/

/-- R24, R413: the compute dies of a partition. -/
def partDies (s : State) (p : Nat) : List Nat :=
  ([0, 2] : List Nat).flatMap (fun q =>
    if partOfQuarter s.hub.partCfg q == p || partOfQuarter s.hub.partCfg (q + 1) == p then [q / 2 + 1] else [])

/-- R344: `a` of a partition in 64ths, after a window in which the dies that `excess` names drew more than their limits. -/
def nextGrant (s : State) (excess : BitVec 2) (p : Nat) : Nat :=
  let a := agetD s.hub.grantA p 64
  if (partDies s p).any (fun d => excess.getLsbD (d - 1)) then max 32 (a - 1) else min 64 (a + 1)

/-- R344: the cores that take a share of a partition's grant. -/
def shareCores (s : State) (p : Nat) : List Nat :=
  (List.range Config.cores).filter (fun c => corePart s c == p && s.blocks.any (fun b => b.2.core == c))

/-- R344: a copy packet of one of a partition's queues is in progress. -/
def copyInProgress (s : State) (p : Nat) : Bool := s.hub.packets.any (fun k => pktKind k.bits == 2 && k.st == 1 && queuePart s k.queue == p)

/-- R344: a partition's buckets are set to their shares, rounded down; what was left over is dropped. -/
def grantPart (excess : BitVec 2) (s : State) (p : Nat) : State :=
  let a := nextGrant s excess p
  let cores := shareCores s p
  let hub := copyInProgress s p
  let n := cores.length + bitNat hub
  let share : Int := Int.ofNat (if n == 0 then 0 else a * effCap s p * 1000000 / 64 / n)
  let cleared := s.hub.credits.filter (fun c => corePart s c.1 != p)
  { s with hub := { s.hub with
    grantA := aset s.hub.grantA p a
    credits := cores.foldl (fun m c => aset m c share) cleared
    hubCredit := aset s.hub.hubCredit p (if hub then share else 0) } }

/-- POWER_WINDOW (R344): a new window of 10 µs begins for every partition. -/
def execPowerWindow (excess : BitVec 2) (s : State) : Out :=
  .next ((([0, 1, 2, 3] : List Nat).filter (isPart s.hub.partCfg)).foldl (grantPart excess) s)

/-- R150: `n` units of a context's hint refill. -/
def hintRefill (s : State) (ctx n : Nat) : State :=
  let c := ctxOf s ctx
  let cap := nbits c.hintbud.toNat 0 32
  if ctxHeld s ctx then putCtx s ctx { c with balance := max c.balance (min cap (c.balance + n)) } else s

/-- HINT_REFILL (R150): the balance of a context that refills rises by a unit, to its capacity at most. -/
def execHintRefill (ctx : Nat) (s : State) : Out :=
  .next (if nbits (ctxOf s ctx).hintbud.toNat 32 16 == 0 then s else hintRefill s ctx 1)

/-! ### Ports (R435, R436) -/

/-- A port's register changed. -/
def portSet (s : State) (n : Nat) (f : DWord → DWord) : State :=
  { s with plat := { s.plat with ports := sset s.plat.ports n (f (sget s.plat.ports n)) } }

/-- LINK_UP (R435): a port has trained at a rate and a width. -/
def execLinkUp (n : Nat) (speed : BitVec 4) (width : BitVec 5) (s : State) : Out :=
  .next (if n < 8 then portSet s n (fun v => (v &&& ~~~(0xFFC : DWord)) ||| (speed.setWidth 64 <<< 8) ||| (width.setWidth 64 <<< 3) ||| 4) else s)

/-- LINK_DOWN (R435): UP is clear, and no rate or width is trained. -/
def execLinkDown (n : Nat) (s : State) : Out := .next (if n < 8 then portSet s n (fun v => v &&& ~~~(0xFFC : DWord)) else s)

/-- A request of a port has completed. -/
def complete (s : State) (r : Inbound) (c : CplStatus) (data : List Byte) (bad : Bool) : State :=
  { s with plat := { s.plat with cpls := aset s.plat.cpls r.port { status := c, data := data, bad := bad } } }

/-- R436: a write to BAR0 is performed only to QWR of a queue bound to the port's context; any other completes as Unsupported Request. -/
def bar0Write (s : State) (port : DWord) (r : Inbound) : State :=
  let no := complete s r .unsupported [] false
  match winReg (r.addr.toNat % 4096) with
  | .queue q 2 =>
    if r.len == 8 && queueCtx s q == nbits port.toNat 20 12 then
      complete (qwrTake s q (BitVec.ofNat 32 (ofBytes r.data))) r .success [] false
    else no
  | _ => no

/-- A byte of the queue block of the window, as BAR0 maps it (R436). -/
def bar0Byte (s : State) (ofs : Nat) : Byte :=
  let v := match winReg (ofs / 8 * 8 % 4096) with
    | .queue q k => queueReg s q k
    | _ => 0
  v.extractLsb' (8 * (ofs % 8)) 8

/-- R436: a read of BAR0 completes with the bytes of the registers there. -/
def bar0Read (s : State) (r : Inbound) : State :=
  complete s r .success ((List.range r.len).map (fun i => bar0Byte s (r.addr.toNat + i))) false

/-- R436: a request that fails translation or permission posts a record of type 2 to the hypervisor's queue. Nothing waits for it. -/
def inboundFault (s : State) (r : Inbound) (ctx gpa : Nat) (w : WFault) : State :=
  let f : FaultReq :=
    { type := 2, ctx := ctx, va := 0, gpa := gpa, level := w.level, perm := w.perm, malf := w.malf, s1walk := w.s1walk
      fetch := false, write := r.write, ladle := false, engine := false, core := 0xFD, slot := 0, queue := r.port, pc := 0, lanes := 0
      burst := 0, nburst := 0 }
  match recordId s with
  | (id, s1) => postQueue (holdFault s1 3 .hypFault (faultRecord s id f) none) .hypFault

/-- R436: the address space of a port's requests: stage 2 of its guest. -/
def portSpace (s : State) (port : DWord) : Space := { spaceOf s (nbits port.toNat 20 12) .s with vmid := BitVec.ofNat 8 (nbits port.toNat 12 8) }

/-- The place of a byte of an inbound request, or the fault of its translation. An address of 2^52 or more is no guest-physical address. -/
def inboundPlace (s : State) (port : DWord) (r : Inbound) (addr : Nat) : Except WFault (Nat × Nat) × State :=
  if 2 ^ 52 ≤ addr then (.error { type := 2, level := 0, gpa := addr % 2 ^ 52, s1walk := false, perm := false, malf := false }, s)
  else gpaXlat s (portSpace s port) addr (if r.write then .write else .read)

/-- A run of an inbound request within a page: the offset in the request, the place, the key and the length. -/
structure InRun where
  ofs : Nat
  spa : Nat
  key : Nat
  len : Nat

/-- The pieces of a request within pages: address and length. -/
def inboundPieces (a n : Nat) : List (Nat × Nat) :=
  ((List.range ((a % 2 ^ 19 + n + 2 ^ 19 - 1) / 2 ^ 19)).map (fun i =>
    let lo := max a ((a / 2 ^ 19 + i) * 2 ^ 19)
    (lo, min (a + n) ((a / 2 ^ 19 + i + 1) * 2 ^ 19) - lo)))

/-- R436: the runs of a request, or the first fault of its translation with the address that met it. -/
def inboundRuns (port : DWord) (r : Inbound) : List (Nat × Nat) → State → Except (WFault × Nat) (List InRun) × State
  | [], s => (.ok [], s)
  | (a, n) :: t, s => match inboundPlace s port r a with
    | (.error w, s1) => (.error (w, a), s1)
    | (.ok (p, key), s1) => match inboundRuns port r t s1 with
      | (.ok l, s2) => (.ok ({ ofs := a - r.addr.toNat, spa := p, key := key, len := n } :: l), s2)
      | e => e

/-- R147, R334, R436: one run of an inbound request, at its home: counted as remote, written or read. -/
def inboundRun (r : Inbound) (s : State) (x : InRun) : State :=
  let s1 := countPage s (x.spa / 2 ^ 19) 3
  if r.write then hubWrite s1 x.key x.spa ((r.data.drop x.ofs).take x.len) else touchRead s1 hubAsker .read x.spa x.len

/-- R375, R436: a request that has been performed completes; poison goes out with what was read. -/
def inboundDone (s : State) (r : Inbound) (l : List InRun) : State :=
  if r.write then complete s r .success [] false
  else complete s r .success (l.flatMap (fun x => spaReadN s x.key x.spa x.len)) (l.any (fun x => poisoned s x.spa x.len))

/-- R386: a page that the table does not describe answers with poison, and takes no write. -/
def inboundLost (s : State) (r : Inbound) : State := complete s r .success (if r.write then [] else List.replicate r.len 0) (!r.write)

/-- R436: what an inbound memory request comes to, given its runs or the first fault of its translation. True when it has been taken up; false
while its walk waits, while a page is frozen, or while it waits for a line that a move has closed (R398). The register window is no memory and
aborts it, as does a table that the hub may not read or cannot (R357, R375). -/
def inboundAnswer (port : DWord) (r : Inbound) : Except (WFault × Nat) (List InRun) × State → Bool × State
  | (.error (w, at_), s) =>
    let ctx := nbits port.toNat 20 12
    if w.type == 16 then (false, s)
    else if w.type == 17 then (true, complete s r .abort [] false)
    else if w.type == 18 then (true, complete (hubErrorRecord s ctx w.esrc 0xFD 0 r.port (at_ % 2 ^ 52)) r .abort [] false)
    else (true, complete (inboundFault s r ctx (at_ % 2 ^ 52) w) r .abort [] false)
  | (.ok l, s) =>
    let routes := l.map (fun x => routeOf s 0 x.spa x.len)
    if l.any (fun x => inWindow x.spa) then (true, complete s r .abort [] false)
    else if routes.contains .bad then (true, inboundLost s r)
    else if routes.all (fun x => x == .go) then (true, inboundDone (l.foldl (inboundRun r) s) r l)
    else (false, holdAccess s (.inbound r) r.write (l.map (fun x => (x.spa, x.len))))

/-- R436: an inbound memory request: its runs are translated and the request answered. -/
def inboundMem (s : State) (port : DWord) (r : Inbound) : Bool × State :=
  inboundAnswer port r (inboundRuns port r (inboundPieces r.addr.toNat r.len) s)

/-- R436: a request at a port in one of its PCIe modes. -/
def inboundServe (s : State) (r : Inbound) : Bool × State :=
  let port := sget s.plat.ports r.port
  let mode := nbits port.toNat 0 2
  if !port.getLsbD 2 || !(decide (r.port < 8)) || !(mode == 1 || mode == 2) then (true, s)
  else if r.bar0 then (true, if mode == 1 then (if r.write then bar0Write s port r else bar0Read s r) else complete s r .unsupported [] false)
  else inboundMem s port r

/-- The requests that wait at the ports, tried again in order. -/
def inboundAgain (s : State) : State :=
  s.plat.inbound.foldl (fun s r => match inboundServe s r with
    | (true, s1) => s1
    | (false, s1) => { s1 with plat := { s1.plat with inbound := s1.plat.inbound ++ [r] } })
    { s with plat := { s.plat with inbound := [] } }

/-- R397: an access that waited for a line is performed at the destination. -/
def performHeld (s : State) (who : Holder) : State :=
  let after := fun (o : Out) => match o with
    | .next t => t
    | _ => s
  match who with
  | .part op lane => homeOp s op lane
  | .burst cmd n => match aget s.cmds cmd with
    | none => s
    | some c => after (if isCopy c.instr then execCopyBurst cmd n s else if c.flying.contains n then execBurstLanding cmd n s else execBurstRequest cmd s)
  | .packet q pos => after (packetAccess s q pos)
  | .hub _ key spa wake bs => hubMake s key spa wake bs
  | .entry die key spa old new => setHeld s die key spa old new
  | .host h a => if (hartOf s h).run == .waiting then after (execHostAccess h a (putHart s h { hartOf s h with run := .running })) else s
  | .inbound r =>
    if !s.plat.inbound.contains r then s
    else match inboundServe s r with
      | (true, s1) => { s1 with plat := { s1.plat with inbound := s1.plat.inbound.erase r } }
      | (false, s1) => s1

/-- MOVE_LINE_COPY (R397, R398): a line is copied; then its held accesses are performed at the destination, in arrival order. -/
def execMoveLineCopy (page : Nat) (s : State) : Out :=
  match forwardOf s page with
  | none => .next s
  | some f => .next (if f.begun then f.held.foldl (fun s x => performHeld s x.1) (moveLine s f) else s)

/-- INBOUND_REQUEST (R436): a request is served, or waits at its port while its page moves. -/
def execInboundRequest (r : Inbound) (s : State) : Out :=
  match inboundServe s r with
  | (true, s1) => .next s1
  | (false, s1) => .next { s1 with plat := { s1.plat with inbound := s1.plat.inbound ++ [r] } }

/-! ### Boot (R437) -/

/-- A device location in the pool, which is no part of the package. -/
def inPool (loc : Nat) : Bool := decide (loc / 2 ^ 46 = 3)

/-- POWER_ON_RESET (R437): the package stands at reset, and clocks are counted anew (R76). The pool keeps its bytes; what is still to come still comes (log entry 26). -/
def execPowerOnReset (s : State) : Out :=
  let z := State.reset
  .next { z with
    mem := { z.mem with cells := s.mem.cells.filter (fun c => inPool c.1), lineKeys := s.mem.lineKeys.filter (fun l => inPool (128 * l.1)) }
    agenda := s.agenda, fresh := s.fresh }

/-- R385, R437: the page location table is cleared: every entry of it holds STATE 4. -/
def clearTable (s : State) : State :=
  let base := hubLoc (pltBase s.plat)
  let n := pltLim s.plat
  { s with plat := { s.plat with cleared := some (base, n) }
           mem := { s.mem with cells := s.mem.cells.filter (fun c => decide (c.1 < base) || decide (base + 16 * n ≤ c.1)) } }

/-- R437: what an image signs: its header and its payload, whose length bytes 4 to 7 hold. -/
def imageBody (bs : List Byte) : List Byte := bs.take (64 + ofBytes ((bs.drop 4).take 4))

/-- R437: the key of an image. -/
def imageKey (bs : List Byte) : List Byte := (bs.drop (64 + ofBytes ((bs.drop 4).take 4))).take 1952

/-- R437: the signature of an image. -/
def imageSig (bs : List Byte) : List Byte := (bs.drop (64 + ofBytes ((bs.drop 4).take 4) + 1952)).take 3309

/-- R437: the version of an image. -/
def imageVersion (bs : List Byte) : BitVec 32 := BitVec.ofNat 32 (ofBytes (bs.take 4))

/-- R437: the digest of an image. -/
def imageDigest (bs : List Byte) : BitVec 512 := Config.shake256 (imageBody bs)

/-- R437: an image is valid: the digest of its key is the fused one, its signature verifies, and its version is the fused minimum or more. -/
def imageValid (bs : List Byte) : Bool :=
  Config.shake256 (imageKey bs) == Config.fuseKeyDigest && Config.mldsaVerify (imageKey bs) (imageDigest bs) (imageSig bs) &&
    decide (Config.fuseMinVersion.toNat ≤ (imageVersion bs).toNat)

/-- R437 step 1: the checked image of hub firmware is measured and runs. -/
def firmwareRuns (s : State) (image : List Byte) : State :=
  let s1 := extendMeas s 0 (toBytes (imageDigest image).toNat 64)
  { s1 with
    hub := { s1.hub with fwver := (imageVersion image).setWidth 64 }
    plat := { s1.plat with fwVer := imageVersion image, boot := 1 } }

/-- HUB_FIRMWARE_BOOT (R437 steps 1 and 2): the image in flash is checked and measured, or only the flash recovery path answers; hub firmware then
writes the table's registers and PKGID and clears the table, or reports that training failed to the power-on monitor. -/
def execHubFirmwareBoot (pltcfg pltlim poolown : BitVec 64) (s : State) : Out :=
  let image := Config.flashImage 1
  if s.plat.boot != 0 then .next s
  else if !imageValid image then .next { s with plat := { s.plat with flashRec := true } }
  else
    let s1 := firmwareRuns s image
    if !Config.trainingOk then .next { s1 with plat := { s1.plat with bootFail := true } }
    else
      let s2 := regWrite (regWrite (regWrite s1 .pltcfg pltcfg) .pltlim pltlim) .poolown poolown
      .next (clearTable { s2 with plat := { s2.plat with pkgid := Config.pkgidStraps.setWidth 64, boot := 2 } })

/-- HOST_MONITOR_RELEASE (R437 step 3): the host monitor's image is checked and measured; hart 0 runs from its entry in M mode. -/
def execHostMonitorRelease (entry : BitVec 64) (s : State) : Out :=
  let image := Config.flashImage 3
  if s.plat.boot != 2 then .next s
  else if !imageValid image then .next { s with plat := { s.plat with flashRec := true } }
  else
    let s1 := extendMeas s 1 (toBytes (imageDigest image).toNat 64)
    .next (putHart { s1 with plat := { s1.plat with boot := 3 } } 0 { hartOf s1 0 with pc := entry, mode := .m, run := .running })

/-! ### The live switch of hub firmware (R440) -/

/-- FWCTL_SWITCH (R440): a write of 1 to FWCTL while STATE is 0 begins a check. -/
def execFwctlSwitch (w : Writer) (v : BitVec 64) (s : State) : Out :=
  .next (if winAllowed s w .fwctl true && v == 1 && s.plat.fwState == 0 then { s with plat := { s.plat with fwState := 1 } } else s)

/-- The hub can read a run now (R390, R398). -/
def fwGo (s : State) (at_ n : Nat) : Bool := (inboundPieces at_ n).all (fun p => !hubWaits s p.1 p.2)

/-- The hub reads a run, page by page. -/
def fwRead (s : State) (at_ n : Nat) : List Byte × State :=
  (inboundPieces at_ n).foldl (fun acc p => match hubRead acc.2 0 p.1 p.2 with
    | (bs, s1) => (acc.1 ++ bs, s1)) ([], s)

/-- FW_IMAGE_CHECKED (R437, R440): the image at FWSTAGE is valid and parking begins, or STATE returns to 0 with RESULT 1. An image that cannot be
read for poison is not valid. -/
def execFwImageChecked (s : State) : Out :=
  let at_ := s.plat.fwStage.toNat % 2 ^ 52
  if s.plat.fwState != 1 || !fwGo s at_ 64 then .next s
  else match fwRead s at_ 64 with
    | (header, s1) =>
      let n := 64 + ofBytes ((header.drop 4).take 4) + 1952 + 3309
      if !fwGo s1 at_ n then .next s1
      else match fwRead s1 at_ n with
        | (image, s2) =>
          let p := s2.plat
          if imageValid image && !poisoned s2 at_ n then
            .next { s2 with plat := { p with fwState := 2, fwSince := s2.cycles, fwNext := imageVersion image, fwDigest := imageDigest image } }
          else .next { s2 with plat := { p with fwState := 0, fwResult := 1 } }

/-- R440: every hub thread has parked. -/
def threadsParked (s : State) : Bool := (List.range 64).all (fun t => match aget s.agents t with
  | some ag => ag.hub.parked
  | none => false)

/-- R440: the switch commits: every thread resumes under the new image. -/
def fwCommit (s : State) : State :=
  let s1 := extendMeas (fwAbort s 0) 2 (toBytes s.plat.fwDigest.toNat 64)
  { s1 with hub := { s1.hub with fwver := s.plat.fwNext.setWidth 64 }, plat := { s1.plat with fwVer := s.plat.fwNext } }

/-- R440: a thread's idle point: in `HALT`, or between two packets: it issues no clause, and no packet of its queue is in service (DEDUCED, log
entry 61). -/
def idlePoint (s : State) (t : Nat) (ag : Agent) : Bool :=
  ag.issue.isNone && (ag.hub.halted || ag.traps.isEmpty && !s.hub.packets.any (fun p => p.queue == t && p.st != 0))

/-- HUB_THREAD_PARK (R440): a thread at its idle point parks; with the last of them the switch commits. -/
def execHubThreadPark (t : Nat) (s : State) : Out :=
  match aget s.agents t with
  | none => .next s
  | some ag =>
    if s.plat.fwState != 2 || ag.kind != .hubThread || !idlePoint s t ag then .next s
    else
      let s1 := putAgent s t { ag with hub := { ag.hub with parked := true } }
      .next (if threadsParked s1 then fwCommit s1 else s1)

/-- R440: compute clocks of 100 ms. -/
def parkClocks : Nat := 100000 * Config.usClocks

/-- FW_SWITCH_TIMEOUT (R440): 100 ms have passed without a commit. -/
def execFwSwitchTimeout (s : State) : Out :=
  .next (if s.plat.fwState == 2 && decide (s.plat.fwSince + parkClocks ≤ s.cycles) then fwAbort s 2 else s)

/-! ### Replay (R443) -/

/-- R443: a queue in replay mode. -/
def replays (s : State) (q : Nat) : Bool := recMode (queueOf s q) == 2

/-- Where the next entry of a queue in replay stands, while there is one in its buffer. -/
def replayAt (s : State) (q : Nat) : Option Nat :=
  let x := queueOf s q
  if !replays s q || decide (recEntries x ≤ x.replay) then none else some (recBuffer x + 1024 * x.replay)

/-- The next entry of a queue in replay: its packet and its recorded SEQ; none at the end of the buffer or of the record, or where it cannot be
read. -/
def nextReplay (s : State) (q : Nat) : Option (BitVec 512 × Nat) := match replayAt s q with
  | none => none
  | some spa =>
    let bs := (hubRead s 0 spa 72).1
    let p := BitVec.ofNat 512 (ofBytes (bs.take 64))
    if p != 0 && !poisoned (hubRead s 0 spa 72).2 spa 72 then some (p, ofBytes (bs.drop 64)) else none

/-- R443: a queue's next packet is the one of the lowest recorded SEQ, and every earlier one has been accepted. -/
def replayTurn (s : State) (q seq : Nat) : Bool :=
  (List.range Config.queues).all (fun j =>
    !replays s j || ((queueOf s j).rd == (queueOf s j).wr && (j == q || match nextReplay s j with
      | some (_, m) => decide (seq ≤ m)
      | none => true)))

/-- RECORD_REPLAY_FEED (R443): the hub appends a queue's next recorded packet to its ring, once it can read the buffer (R390, R398). -/
def execRecordReplayFeed (q : Nat) (s0 : State) : Out :=
  let ready := (replayAt s0 q).elim false (fun spa => !hubWaits s0 spa 72)
  let s := if ready then (replayAt s0 q).elim s0 (fun spa => (hubRead s0 0 spa 72).2) else s0
  match (if ready then nextReplay s q else none) with
  | none => .next s
  | some (p, seq) =>
    if !(decide (q < Config.queues)) || !replayTurn s q seq then .next s
    else match ringAppend s q p with
      | (true, s1) => .next (putQueue s1 q { queueOf s1 q with replay := (queueOf s1 q).replay + 1 })
      | (false, s1) => .next s1

end Sys2Proof.Machine
end

