-- ==== Sys2Proof/Machine/Dispatch.lean ====
section
/-! DEFINITION. The dispatcher: one arm for every row of the opcode table, each one direct call of its meaning. -/

namespace Sys2Proof.Machine

open Sys2Proof

/-- What an instruction or event does. -/
def exec (i : Instr) (s : State) : Host.Outcome State Fault Refusal :=
  match i with
  | .smov h r => Sys2Proof.Machine.execSmov h r s
  | .smovi h r => Sys2Proof.Machine.execSmovi h r s
  | .sadd h r => Sys2Proof.Machine.execSadd h r s
  | .saddi h r => Sys2Proof.Machine.execSaddi h r s
  | .ssub h r => Sys2Proof.Machine.execSsub h r s
  | .smul h r => Sys2Proof.Machine.execSmul h r s
  | .smulh h r => Sys2Proof.Machine.execSmulh h r s
  | .sdiv h r => Sys2Proof.Machine.execSdiv h r s
  | .srem h r => Sys2Proof.Machine.execSrem h r s
  | .sand h r => Sys2Proof.Machine.execSand h r s
  | .sor h r => Sys2Proof.Machine.execSor h r s
  | .sxor h r => Sys2Proof.Machine.execSxor h r s
  | .sshl h r => Sys2Proof.Machine.execSshl h r s
  | .sshr h r => Sys2Proof.Machine.execSshr h r s
  | .ssra h r => Sys2Proof.Machine.execSsra h r s
  | .smin h r => Sys2Proof.Machine.execSmin h r s
  | .smax h r => Sys2Proof.Machine.execSmax h r s
  | .scmp h r => Sys2Proof.Machine.execScmp h r s
  | .ssel h r => Sys2Proof.Machine.execSsel h r s
  | .slea h r => Sys2Proof.Machine.execSlea h r s
  | .sbfe h r => Sys2Proof.Machine.execSbfe h r s
  | .sbfi h r => Sys2Proof.Machine.execSbfi h r s
  | .spopc h r => Sys2Proof.Machine.execSpopc h r s
  | .sclz h r => Sys2Proof.Machine.execSclz h r s
  | .movsr h r => Sys2Proof.Machine.execMovsr h r s
  | .movrs h r => Sys2Proof.Machine.execMovrs h r s
  | .kmovK h r => Sys2Proof.Machine.execKmovK h r s
  | .kmovFromS h r => Sys2Proof.Machine.execKmovFromS h r s
  | .kmovToS h r => Sys2Proof.Machine.execKmovToS h r s
  | .kand h r => Sys2Proof.Machine.execKand h r s
  | .kor h r => Sys2Proof.Machine.execKor h r s
  | .kxor h r => Sys2Proof.Machine.execKxor h r s
  | .knot h r => Sys2Proof.Machine.execKnot h r s
  | .kpopc h r => Sys2Proof.Machine.execKpopc h r s
  | .kffs h r => Sys2Proof.Machine.execKffs h r s
  | .kset h r => Sys2Proof.Machine.execKset h r s
  | .nop h r => Sys2Proof.Machine.execNop h r s
  | .bra h r => Sys2Proof.Machine.execBra h r s
  | .brc h r => Sys2Proof.Machine.execBrc h r s
  | .brl h r => Sys2Proof.Machine.execBrl h r s
  | .jmpS h r => Sys2Proof.Machine.execJmpS h r s
  | .jmpV h r => Sys2Proof.Machine.execJmpV h r s
  | .call h r => Sys2Proof.Machine.execCall h r s
  | .ret h r => Sys2Proof.Machine.execRet h r s
  | .reconv h r => Sys2Proof.Machine.execReconv h r s
  | .exit h r => Sys2Proof.Machine.execExit h r s
  | .yield h r => Sys2Proof.Machine.execYield h r s
  | .trap h r => Sys2Proof.Machine.execTrap h r s
  | .brk h r => Sys2Proof.Machine.execBrk h r s
  | .vmov h r => Sys2Proof.Machine.execVmov h r s
  | .vmovi h r => Sys2Proof.Machine.execVmovi h r s
  | .vadd h r => Sys2Proof.Machine.execVadd h r s
  | .vsub h r => Sys2Proof.Machine.execVsub h r s
  | .vmul h r => Sys2Proof.Machine.execVmul h r s
  | .vmulh h r => Sys2Proof.Machine.execVmulh h r s
  | .vmad h r => Sys2Proof.Machine.execVmad h r s
  | .vmin h r => Sys2Proof.Machine.execVmin h r s
  | .vmax h r => Sys2Proof.Machine.execVmax h r s
  | .vabs h r => Sys2Proof.Machine.execVabs h r s
  | .vneg h r => Sys2Proof.Machine.execVneg h r s
  | .vand h r => Sys2Proof.Machine.execVand h r s
  | .vor h r => Sys2Proof.Machine.execVor h r s
  | .vxor h r => Sys2Proof.Machine.execVxor h r s
  | .vnot h r => Sys2Proof.Machine.execVnot h r s
  | .vshl h r => Sys2Proof.Machine.execVshl h r s
  | .vshr h r => Sys2Proof.Machine.execVshr h r s
  | .vsra h r => Sys2Proof.Machine.execVsra h r s
  | .vrot h r => Sys2Proof.Machine.execVrot h r s
  | .vbfe h r => Sys2Proof.Machine.execVbfe h r s
  | .vbfi h r => Sys2Proof.Machine.execVbfi h r s
  | .vpopc h r => Sys2Proof.Machine.execVpopc h r s
  | .vclz h r => Sys2Proof.Machine.execVclz h r s
  | .vbrev h r => Sys2Proof.Machine.execVbrev h r s
  | .vcmp h r => Sys2Proof.Machine.execVcmp h r s
  | .vsel h r => Sys2Proof.Machine.execVsel h r s
  | .vaddc h r => Sys2Proof.Machine.execVaddc h r s
  | .vdot4 h r => Sys2Proof.Machine.execVdot4 h r s
  | .vidx h r => Sys2Proof.Machine.execVidx h r s
  | .vfadd h r => Sys2Proof.Machine.execVfadd h r s
  | .vfsub h r => Sys2Proof.Machine.execVfsub h r s
  | .vfmul h r => Sys2Proof.Machine.execVfmul h r s
  | .vfma h r => Sys2Proof.Machine.execVfma h r s
  | .vfmin h r => Sys2Proof.Machine.execVfmin h r s
  | .vfmax h r => Sys2Proof.Machine.execVfmax h r s
  | .vfcmp h r => Sys2Proof.Machine.execVfcmp h r s
  | .vfclass h r => Sys2Proof.Machine.execVfclass h r s
  | .vfrnd h r => Sys2Proof.Machine.execVfrnd h r s
  | .vfdiv h r => Sys2Proof.Machine.execVfdiv h r s
  | .vfsqrt h r => Sys2Proof.Machine.execVfsqrt h r s
  | .vfrcp h r => Sys2Proof.Machine.execVfrcp h r s
  | .vfrsq h r => Sys2Proof.Machine.execVfrsq h r s
  | .vfexp2 h r => Sys2Proof.Machine.execVfexp2 h r s
  | .vflog2 h r => Sys2Proof.Machine.execVflog2 h r s
  | .vfsin h r => Sys2Proof.Machine.execVfsin h r s
  | .vfcos h r => Sys2Proof.Machine.execVfcos h r s
  | .vftanh h r => Sys2Proof.Machine.execVftanh h r s
  | .vfscale h r => Sys2Proof.Machine.execVfscale h r s
  | .vfdot2 h r => Sys2Proof.Machine.execVfdot2 h r s
  | .vcvt h r => Sys2Proof.Machine.execVcvt h r s
  | .vpack8 h r => Sys2Proof.Machine.execVpack8 h r s
  | .vunpk8 h r => Sys2Proof.Machine.execVunpk8 h r s
  | .vquant h r => Sys2Proof.Machine.execVquant h r s
  | .vdeq h r => Sys2Proof.Machine.execVdeq h r s
  | .vbscale h r => Sys2Proof.Machine.execVbscale h r s
  | .vshfl h r => Sys2Proof.Machine.execVshfl h r s
  | .vshup h r => Sys2Proof.Machine.execVshup h r s
  | .vshdn h r => Sys2Proof.Machine.execVshdn h r s
  | .vshxr h r => Sys2Proof.Machine.execVshxr h r s
  | .vbcast h r => Sys2Proof.Machine.execVbcast h r s
  | .v2s h r => Sys2Proof.Machine.execV2s h r s
  | .s2v h r => Sys2Proof.Machine.execS2v h r s
  | .vred h r => Sys2Proof.Machine.execVred h r s
  | .vscan h r => Sys2Proof.Machine.execVscan h r s
  | .vvote h r => Sys2Proof.Machine.execVvote h r s
  | .vmatch h r => Sys2Proof.Machine.execVmatch h r s
  | .vcomp h r => Sys2Proof.Machine.execVcomp h r s
  | .vexpd h r => Sys2Proof.Machine.execVexpd h r s
  | .ld h r => Sys2Proof.Machine.execLd h r s
  | .st h r => Sys2Proof.Machine.execSt h r s
  | .lds h r => Sys2Proof.Machine.execLds h r s
  | .sts h r => Sys2Proof.Machine.execSts h r s
  | .ldl h r => Sys2Proof.Machine.execLdl h r s
  | .stl h r => Sys2Proof.Machine.execStl h r s
  | .pfh h r => Sys2Proof.Machine.execPfh h r s
  | .atom h r => Sys2Proof.Machine.execAtom h r s
  | .acas h r => Sys2Proof.Machine.execAcas h r s
  | .red h r => Sys2Proof.Machine.execRed h r s
  | .fence h r => Sys2Proof.Machine.execFence h r s
  | .flushr h r => Sys2Proof.Machine.execFlushr h r s
  | .invr h r => Sys2Proof.Machine.execInvr h r s
  | .bar h r => Sys2Proof.Machine.execBar h r s
  | .bara h r => Sys2Proof.Machine.execBara h r s
  | .barw h r => Sys2Proof.Machine.execBarw h r s
  | .waitva h r => Sys2Proof.Machine.execWaitva h r s
  | .wakeva h r => Sys2Proof.Machine.execWakeva h r s
  | .ecset h r => Sys2Proof.Machine.execEcset h r s
  | .ecadd h r => Sys2Proof.Machine.execEcadd h r s
  | .ecwait h r => Sys2Proof.Machine.execEcwait h r s
  | .ecq h r => Sys2Proof.Machine.execEcq h r s
  | .fwait h r => Sys2Proof.Machine.execFwait h r s
  | .pin h r => Sys2Proof.Machine.execPin h r s
  | .unpin h r => Sys2Proof.Machine.execUnpin h r s
  | .hint h r => Sys2Proof.Machine.execHint h r s
  | .tierq h r => Sys2Proof.Machine.execTierq h r s
  | .ldsh h r => Sys2Proof.Machine.execLdsh h r s
  | .evsh h r => Sys2Proof.Machine.execEvsh h r s
  | .shset h r => Sys2Proof.Machine.execShset h r s
  | .shget h r => Sys2Proof.Machine.execShget h r s
  | .cbld h r => Sys2Proof.Machine.execCbld h r s
  | .cpy h r => Sys2Proof.Machine.execCpy h r s
  | .cpyg h r => Sys2Proof.Machine.execCpyg h r s
  | .rdh h r => Sys2Proof.Machine.execRdh h r s
  | .rdhg h r => Sys2Proof.Machine.execRdhg h r s
  | .lend h r => Sys2Proof.Machine.execLend h r s
  | .lendStop h r => Sys2Proof.Machine.execLendStop h r s
  | .sub h r => Sys2Proof.Machine.execSub h r s
  | .unsub h r => Sys2Proof.Machine.execUnsub h r s
  | .subq h r => Sys2Proof.Machine.execSubq h r s
  | .pubfl h r => Sys2Proof.Machine.execPubfl h r s
  | .mma h r => Sys2Proof.Machine.execMma h r s
  | .mmz h r => Sys2Proof.Machine.execMmz h r s
  | .accld h r => Sys2Proof.Machine.execAccld h r s
  | .accst h r => Sys2Proof.Machine.execAccst h r s
  | .accrd h r => Sys2Proof.Machine.execAccrd h r s
  | .accwr h r => Sys2Proof.Machine.execAccwr h r s
  | .push h r => Sys2Proof.Machine.execPush h r s
  | .qfence h r => Sys2Proof.Machine.execQfence h r s
  | .sysc h r => Sys2Proof.Machine.execSysc h r s
  | .movpr h r => Sys2Proof.Machine.execMovpr h r s
  | .movrp h r => Sys2Proof.Machine.execMovrp h r s
  | .tlbiAsid h r => Sys2Proof.Machine.execTlbiAsid h r s
  | .tlbiVm h r => Sys2Proof.Machine.execTlbiVm h r s
  | .tlbiS2 h r => Sys2Proof.Machine.execTlbiS2 h r s
  | .tlbiAll h r => Sys2Proof.Machine.execTlbiAll h r s
  | .tlbir h r => Sys2Proof.Machine.execTlbir h r s
  | .tlbirS2 h r => Sys2Proof.Machine.execTlbirS2 h r s
  | .atp h r => Sys2Proof.Machine.execAtp h r s
  | .lcinv h r => Sys2Proof.Machine.execLcinv h r s
  | .lcinvAll h r => Sys2Proof.Machine.execLcinvAll h r s
  | .notifyw h r => Sys2Proof.Machine.execNotifyw h r s
  | .halt h r => Sys2Proof.Machine.execHalt h r s
  | .ecciCorr h r => Sys2Proof.Machine.execEcciCorr h r s
  | .ecciUnc h r => Sys2Proof.Machine.execEcciUnc h r s
  | .xpin d a b => Sys2Proof.Machine.execXpin d a b s
  | .xunpin d a b => Sys2Proof.Machine.execXunpin d a b s
  | .xhint d a b => Sys2Proof.Machine.execXhint d a b s
  | .xtierqLo d a => Sys2Proof.Machine.execXtierqLo d a s
  | .xtierqHi d a => Sys2Proof.Machine.execXtierqHi d a s
  | .xwaitvaW d a b => Sys2Proof.Machine.execXwaitvaW d a b s
  | .xwaitvaD d a b => Sys2Proof.Machine.execXwaitvaD d a b s
  | .xwakeva d a b => Sys2Proof.Machine.execXwakeva d a b s
  | .sfenceVma a b => Sys2Proof.Machine.execSfenceVma a b s
  | .hfenceVvma a b => Sys2Proof.Machine.execHfenceVvma a b s
  | .hfenceGvma a b => Sys2Proof.Machine.execHfenceGvma a b s
  | .fqreplay w v => Sys2Proof.Machine.execFqreplay w v s
  | .fqreplayh w v => Sys2Proof.Machine.execFqreplayh w v s
  | .qwrWrite w q v => Sys2Proof.Machine.execQwrWrite w q v s
  | .qcfgWrite w q v => Sys2Proof.Machine.execQcfgWrite w q v s
  | .hintbudWrite w ctx v => Sys2Proof.Machine.execHintbudWrite w ctx v s
  | .wwend w v => Sys2Proof.Machine.execWwend w v s
  | .registerWrite w ofs v => Sys2Proof.Machine.execRegisterWrite w ofs v s
  | .trapactResume w id => Sys2Proof.Machine.execTrapactResume w id s
  | .trapactSkip w id => Sys2Proof.Machine.execTrapactSkip w id s
  | .trapactEnd w id => Sys2Proof.Machine.execTrapactEnd w id s
  | .endctx w ctx => Sys2Proof.Machine.execEndctx w ctx s
  | .preemptSave w ctx => Sys2Proof.Machine.execPreemptSave w ctx s
  | .preemptRestore w ctx => Sys2Proof.Machine.execPreemptRestore w ctx s
  | .pooltake w v => Sys2Proof.Machine.execPooltake w v s
  | .partctlMerge w v => Sys2Proof.Machine.execPartctlMerge w v s
  | .partctlSplit w v => Sys2Proof.Machine.execPartctlSplit w v s
  | .iprofWrite w n idx v => Sys2Proof.Machine.execIprofWrite w n idx v s
  | .ctxqosWrite w ctx v => Sys2Proof.Machine.execCtxqosWrite w ctx v s
  | .l2bktWrite w n v => Sys2Proof.Machine.execL2bktWrite w n v s
  | .portWrite w n v => Sys2Proof.Machine.execPortWrite w n v s
  | .fwctlSwitch w v => Sys2Proof.Machine.execFwctlSwitch w v s
  | .schedulerPick core sched => Sys2Proof.Machine.execSchedulerPick core sched s
  | .accessCompletion op => Sys2Proof.Machine.execAccessCompletion op s
  | .walk op part => Sys2Proof.Machine.execWalk op part s
  | .queueRecheck q => Sys2Proof.Machine.execQueueRecheck q s
  | .homeRequest op part => Sys2Proof.Machine.execHomeRequest op part s
  | .updateBufferTimeout core => Sys2Proof.Machine.execUpdateBufferTimeout core s
  | .updateApply upd => Sys2Proof.Machine.execUpdateApply upd s
  | .engineCommandStart cmd => Sys2Proof.Machine.execEngineCommandStart cmd s
  | .mmaEngineExit core => Sys2Proof.Machine.execMmaEngineExit core s
  | .engineCommandComplete cmd => Sys2Proof.Machine.execEngineCommandComplete cmd s
  | .copyBurst cmd burst => Sys2Proof.Machine.execCopyBurst cmd burst s
  | .burstRequest cmd => Sys2Proof.Machine.execBurstRequest cmd s
  | .burstLanding cmd burst => Sys2Proof.Machine.execBurstLanding cmd burst s
  | .ladleBirth core slot => Sys2Proof.Machine.execLadleBirth core slot s
  | .ladleEnd core slot => Sys2Proof.Machine.execLadleEnd core slot s
  | .finaleBirth cmd slot => Sys2Proof.Machine.execFinaleBirth cmd slot s
  | .cohortRetire agent => Sys2Proof.Machine.execCohortRetire agent s
  | .blockRetire block => Sys2Proof.Machine.execBlockRetire block s
  | .dispatchPlacement => Sys2Proof.Machine.execDispatchPlacement s
  | .hubThreadWake t => Sys2Proof.Machine.execHubThreadWake t s
  | .packetAccept q => Sys2Proof.Machine.execPacketAccept q s
  | .packetStart q => Sys2Proof.Machine.execPacketStart q s
  | .launchPacket q pos => Sys2Proof.Machine.execLaunchPacket q pos s
  | .copyPacket q pos => Sys2Proof.Machine.execCopyPacket q pos s
  | .dependenceWait q pos => Sys2Proof.Machine.execDependenceWait q pos s
  | .dependenceWaitRetest q pos => Sys2Proof.Machine.execDependenceWaitRetest q pos s
  | .signal q pos => Sys2Proof.Machine.execSignal q pos s
  | .migrateRequest q pos => Sys2Proof.Machine.execMigrateRequest q pos s
  | .serviceCall call => Sys2Proof.Machine.execServiceCall call s
  | .serviceReply q pos => Sys2Proof.Machine.execServiceReply q pos s
  | .packetComplete q pos => Sys2Proof.Machine.execPacketComplete q pos s
  | .deferredAppend core idx => Sys2Proof.Machine.execDeferredAppend core idx s
  | .powerWindow excess => Sys2Proof.Machine.execPowerWindow excess s
  | .hintRefill ctx => Sys2Proof.Machine.execHintRefill ctx s
  | .saveComplete ctx => Sys2Proof.Machine.execSaveComplete ctx s
  | .restoreComplete ctx => Sys2Proof.Machine.execRestoreComplete ctx s
  | .flitPayloadError ctx => Sys2Proof.Machine.execFlitPayloadError ctx s
  | .flitHeaderError part => Sys2Proof.Machine.execFlitHeaderError part s
  | .moveStart page => Sys2Proof.Machine.execMoveStart page s
  | .moveLineCopy page => Sys2Proof.Machine.execMoveLineCopy page s
  | .policyPass part => Sys2Proof.Machine.execPolicyPass part s
  | .locationWriteback page => Sys2Proof.Machine.execLocationWriteback page s
  | .freeTake call => Sys2Proof.Machine.execFreeTake call s
  | .freeAdd call => Sys2Proof.Machine.execFreeAdd call s
  | .attest call => Sys2Proof.Machine.execAttest call s
  | .extend call => Sys2Proof.Machine.execExtend call s
  | .keyset call => Sys2Proof.Machine.execKeyset call s
  | .poolClaim page => Sys2Proof.Machine.execPoolClaim page s
  | .poolClaimRetry page => Sys2Proof.Machine.execPoolClaimRetry page s
  | .claimDetect page pkg => Sys2Proof.Machine.execClaimDetect page pkg s
  | .handoverFreeze page => Sys2Proof.Machine.execHandoverFreeze page s
  | .handoverRelease page => Sys2Proof.Machine.execHandoverRelease page s
  | .handoverDetect page => Sys2Proof.Machine.execHandoverDetect page s
  | .handoverInstall page => Sys2Proof.Machine.execHandoverInstall page s
  | .partitionQuiesced => Sys2Proof.Machine.execPartitionQuiesced s
  | .partitionDeadline => Sys2Proof.Machine.execPartitionDeadline s
  | .bucketRefill => Sys2Proof.Machine.execBucketRefill s
  | .linkUp n speed width => Sys2Proof.Machine.execLinkUp n speed width s
  | .inboundRequest r => Sys2Proof.Machine.execInboundRequest r s
  | .powerOnReset => Sys2Proof.Machine.execPowerOnReset s
  | .hubFirmwareBoot pltcfg pltlim poolown => Sys2Proof.Machine.execHubFirmwareBoot pltcfg pltlim poolown s
  | .hostMonitorRelease entry => Sys2Proof.Machine.execHostMonitorRelease entry s
  | .fwImageChecked => Sys2Proof.Machine.execFwImageChecked s
  | .hubThreadPark t => Sys2Proof.Machine.execHubThreadPark t s
  | .fwSwitchTimeout => Sys2Proof.Machine.execFwSwitchTimeout s
  | .recordReplayFeed q => Sys2Proof.Machine.execRecordReplayFeed q s
  | .hostAccess h a => Sys2Proof.Machine.execHostAccess h a s
  | .interruptPending h => Sys2Proof.Machine.execInterruptPending h s
  | .systemInstructionComplete op => Sys2Proof.Machine.execSystemInstructionComplete op s
  | .backInvalidate page line w => Sys2Proof.Machine.execBackInvalidate page line w s
  | .linkDown n => Sys2Proof.Machine.execLinkDown n s

end Sys2Proof.Machine
end

