-- ==== Sys2Proof/Machine/Sched.lean ====
section
/-! DEFINITION. What happens when no event is at hand (DESIGN CHOICE, log entry 25: the arbitration and the timing that the spec leaves open):
a clock passes, the clocks' own work is done, everything that is under way goes one step on, then a scheduler or a hart is picked. Also the
places where a program of one word is put (log entry 26). -/

namespace Sys2Proof.Machine

/-- The state after an action. -/
def orSame (s : State) : Out → State
  | .next t => t
  | _ => s

/-- An action for each of some numbers, in order. -/
def sweep (l : List Nat) (f : Nat → State → Out) (s : State) : State := l.foldl (fun s n => orSame s (f n s)) s

/-- The keys of a map. -/
def keys {α : Type} (m : AMap α) : List Nat := m.map (fun p => p.1)

/-! ### What the clocks bring (R139, R150, R344, R390, R399, R406, R420) -/

/-- How many periods of some clocks have ended since the clocks' work was last done. -/
def beats (s : State) (period : Nat) : Nat := s.cycles / period - s.plat.ticked / period

/-- An action whose period has ended. -/
def onBeat (period : Nat) (f : State → State) (s : State) : State := if beats s period == 0 then s else f s

/-- R150: the units that a context's balance has gained, counted from reset (DESIGN CHOICE, log entry 76: the spec gives the rate alone). -/
def refillHints (s : State) : State :=
  let units := fun (clocks rate : Nat) => clocks * rate / (1000 * Config.usClocks)
  s.hub.ctxs.foldl (fun s c =>
    let r := nbits c.2.hintbud.toNat 32 16
    let n := units s.cycles r - units s.plat.ticked r
    if n == 0 then s else hintRefill s c.1 n) s

/-- R431: `mtime` counts compute clocks by sixteen, which makes 100 MHz (DESIGN CHOICE, log
entry 4: the spec fixes no relation to the compute clock). -/
def tickTime (s : State) : State := { s with mtime := s.mtime + BitVec.ofNat 64 (beats s 16) }

/-- The clocks' own work. No die draws more than its limit (log entry 25). -/
def clockWork (s0 : State) : State :=
  let s := tickTime s0
  let s1 := onBeat Config.windowClocks (fun s => orSame s (execPowerWindow 0 s)) (refillHints s)
  let s2 := onBeat 1024 (fun s => orSame s (execBucketRefill s)) s1
  let s3 := sweep ((s2.mem.upd.map (fun e => e.core)).dedup) execUpdateBufferTimeout s2
  let s4 := onBeat (10 * Config.usClocks) (fun s => sweep (s.mem.hand.map (fun h => h.page)) execPoolClaimRetry s) s3
  let s5 := onBeat (100 * Config.usClocks) (fun s => sweep (keys s.mem.pages) execLocationWriteback s) s4
  let s6 := onBeat (1000 * Config.usClocks) (sweep [0, 1, 2, 3] execPolicyPass) s5
  { s6 with plat := { s6.plat with ticked := s6.cycles } }

/-! ### What is under way -/

/-- One instruction in flight goes one step on. -/
def opStep (s : State) (id : Nat) : State :=
  match aget s.ops id with
  | none => s
  | some o =>
    let s1 := o.parts.foldl (fun s p => orSame s (execWalk id p.lane s)) s
    let s2 := homeAll s1 id
    let s3 := orSame s2 (execSystemInstructionComplete id s2)
    orSame s3 (execAccessCompletion id s3)

/-- The lowest slot of a core that holds no ladle. -/
def freeSlot (s : State) (core : Nat) : Nat := ((List.range Config.ladleSlots).find? (fun k => !slotTaken s core k)).getD 0

/-- The burst that a command makes or lands next. -/
def burstStep (s : State) (id : Nat) (c : Cmd) : State :=
  if isCopy c.instr then
    (match (List.range (copyBursts c).length).find? (fun b => !c.bits.contains b && !marked c b) with
     | some b => orSame s (execCopyBurst id b s)
     | none => s)
  else if isRead c.instr then
    (match c.flying with
     | b :: _ => orSame s (execBurstLanding id b s)
     | [] => orSame s (execBurstRequest id s))
  else orSame s (execMmaEngineExit c.core s)

/-- One engine command goes one step on. -/
def cmdStep (s : State) (id : Nat) : State :=
  let s1 := orSame s (execEngineCommandStart id s)
  let s2 := match aget s1.cmds id with
    | some c => if c.st == .running then burstStep s1 id c else s1
    | none => s1
  match aget s2.cmds id with
  | some c => if c.st == .finale then orSame s2 (execFinaleBirth id (freeSlot s2 c.core) s2) else orSame s2 (execEngineCommandComplete id s2)
  | none => s2

/-- The ladles of a core: those that are done end, and the burst that landed first is born. -/
def ladleStep (core : Nat) (s : State) : Out :=
  let ends := (s.agents.filter (fun p => p.2.kind == .ladle && p.2.core == core)).map (fun p => p.2.index)
  let s1 := sweep ends (execLadleEnd core) s
  if s1.cmds.any (fun c => c.2.core == core && !c.2.landed.isEmpty) then execLadleBirth core (freeSlot s1 core) s1 else .next s1

/-- What a packet does next. -/
def packetStep (s : State) (p : Packet) : State :=
  let q := p.queue
  let n := p.pos.toNat
  if p.st == 0 then s
  else if p.st == 1 then
    (match pktKind p.bits with
     | 1 => orSame s (execLaunchPacket q n s)
     | 2 => orSame s (execCopyPacket q n s)
     | 3 => orSame s (execDependenceWait q n s)
     | 4 => orSame s (execSignal q n s)
     | 5 => orSame s (execMigrateRequest q n s)
     | 7 => orSame s (execServiceReply q n s)
     | _ => s)
  else orSame s (execPacketComplete q n s)

/-- The queues: replayed packets are fed, packets are accepted and started, go on and complete; deferred launches are appended. -/
def queueWork (s : State) : State :=
  let qs := keys s.hub.queues
  let s1 := sweep qs execPacketStart (sweep qs execPacketAccept (sweep qs execRecordReplayFeed s))
  let s2 := s1.hub.packets.foldl packetStep s1
  sweep ((s2.hub.defers.map (fun d => d.core)).dedup) (fun core s => sweep (List.range Config.deferEntries).reverse (execDeferredAppend core) s |> .next) s2

/-- Service calls, and hub firmware's answers to those at H. -/
def callWork (s : State) : State :=
  let s1 := sweep (s.hub.calls.map (fun c => c.id)) execServiceCall s
  let ids := s1.hub.calls.map (fun c => c.id)
  [execFreeTake, execFreeAdd, execAttest, execExtend, execKeyset].foldl (fun s f => sweep ids f s) s1

/-- Moves and hand-overs. -/
def pageWork (s : State) : State :=
  let s1 := sweep (s.mem.forwards.map (fun f => f.page)) execMoveLineCopy (sweep (s.mem.forwards.map (fun f => f.page)) execMoveStart s)
  let give := (s1.mem.hand.filter (fun h => !h.claimant)).map (fun h => h.page)
  let take := (s1.mem.hand.filter (fun h => h.claimant)).map (fun h => h.page)
  sweep take execHandoverInstall (sweep give execHandoverRelease (sweep give execHandoverFreeze s1))

/-- Saves and restores, the change of cut, the switch of hub firmware, waiting inbound requests. -/
def hubWork (s : State) : State :=
  let saves := (s.hub.preempts.filter (fun p => !p.restore)).map (fun p => p.ctx)
  let loads := (s.hub.preempts.filter (fun p => p.restore)).map (fun p => p.ctx)
  let s0 := putsGo s.hub.puts s
  let s1 := sweep loads execRestoreComplete (sweep saves execSaveComplete s0)
  let s2 := orSame s1 (execPartitionQuiesced s1)
  let s3 := orSame s2 (execPartitionDeadline s2)
  let s4 := orSame s3 (execFwImageChecked s3)
  let s5 := if s4.plat.fwState == 2 then sweep (List.range 64) execHubThreadPark s4 else s4
  inboundAgain (orSame s5 (execFwSwitchTimeout s5))

/-- R358, R363: the next burst of a command lies on a page and can be requested now. -/
def cmdJoins (s : State) (page id : Nat) : Bool := match aget s.cmds id with
  | none => false
  | some c =>
    c.st == .running && !c.stopped && creditOn s c.core && !savingCtx s c.ctx &&
      (if isCopy c.instr then
        let l := copyBursts c
        (match (List.range l.length).find? (fun b => !c.bits.contains b && !marked c b) with
         | some k => decide (k ≤ lowBurst c l.length + 8192) && (match l[k]? with
           | some b => (List.range b.n).any (fun i => (slotAt c.recs 1).addr (b.u + i) b.sx1 b.x2 b.x3 / 2 ^ 19 == page
               || (slotAt c.recs 0).addr (b.u + i) b.dx1 b.x2 b.x3 / 2 ^ 19 == page)
           | none => false)
         | none => false)
      else isRead c.instr && decide (bufferUse s c.core < Config.landingBursts) && !earlierRequests s c &&
        (match nextBurst s id c with
         | some (_, b) => b.block / 2 ^ 19 == page
         | none => false))

/-- R358, R363: the same of a copy packet. -/
def pktJoins (s : State) (page : Nat) (k : Nat × BitVec 32 × Nat) : Bool := match running s k.1 k.2.1 2 with
  | none => false
  | some p =>
    k.2.2 == 1 && hubCreditOn s (queuePart s k.1) && p.todo.isEmpty && decide (p.prog < pktLen p.bits) &&
      ((pktAddr p.bits + p.prog) / 2 ^ 19 == page || (pktDst p.bits + p.prog) / 2 ^ 19 == page)

/-- A group's record is not out, and another burst may join it. -/
def mayJoin (s : State) (id : Nat) : Bool := match s.hub.groups.find? (fun g => g.id == id) with
  | none => false
  | some g => !g.posted && (g.cmds.any (fun p => cmdJoins s g.page p.1) || (match g.pkt with
    | some k => pktJoins s g.page k
    | none => false))

/-- Record queues that hold records (R361): what may go out goes out, but for a queue that holds the record of a group which is still
growing. -/
def recordWork (s : State) : State :=
  s.hub.recs.foldl (fun s x =>
    if x.held.isEmpty || x.held.any (fun r => (r.2.map (mayJoin s)).getD false) then s else postQueue s x.queue) s

/-- Everything that is under way goes one step on. -/
def progress (s : State) : State :=
  let s1 := (keys s.cmds).foldl cmdStep ((keys s.ops).foldl opStep s)
  let s2 := sweep (((keys s1.cmds).filterMap (fun c => (aget s1.cmds c).map (fun x => x.core))).dedup) ladleStep s1
  let s3 := sweep (s2.mem.sent.map (fun u => u.id)) execUpdateApply s2
  let s4 := sweep (keys s3.blocks) execBlockRetire (sweep (keys (s3.agents.filter (fun p => p.2.kind == .cohort))) execCohortRetire s3)
  let s5 := callWork (queueWork s4)
  let s6 := if s5.hub.launches.isEmpty then s5 else orSame s5 (execDispatchPlacement s5)
  recordWork (hubWork (pageWork (startAll s6)))

/-! ### The pick -/

/-- A turn would bring an agent on: its next clause may issue, or its held choice is to be kept (R35). -/
def wantsTurn (s : State) (ag : Agent) : Bool :=
  awake s ag && (budgetSpent ag || (match holdOf s ag (nextGroup ag).2.1 with
    | .none => true
    | .flag => ag.chosen != some (nextGroup ag)
    | .fetch => false))

/-- The schedulers of the agents that could issue. -/
def readySchedulers (s : State) : List (Nat × Nat) :=
  ((s.agents.filter (fun p => p.2.issue.isSome || (mayPick s p.2.core && wantsTurn s p.2))).map (fun p =>
    (p.2.core, if p.2.kind == .hubThread then p.2.index else p.2.sched))).dedup

/-- The harts that run. -/
def readyHarts (s : State) : List Nat :=
  (s.harts.filter (fun p => match p.2.run with
    | .running => true
    | .placing _ => true
    | _ => false)).map (fun p => p.1)

/-- The places in the rotation of those that could take a turn: schedulers by core, then harts. -/
def turnPlaces (s : State) : List Nat :=
  (readySchedulers s).map (fun p => p.1 * 64 + p.2 + 1) ++ (readyHarts s).map (fun h => 0x10000 + h)

/-- The place after the last one that had a turn, around the rotation; none where nobody is ready. -/
def nextPlace (rotor : Nat) (l : List Nat) : Option Nat := match (l.filter (fun n => decide (rotor < n))).min? with
  | some n => some n
  | none => l.min?

/-- One clock passes with nothing at hand; schedulers and harts take turns in a rotation, so that no ready one waits for ever. -/
def idle (s : State) : State :=
  let s1 := progress (clockWork { s with cycles := s.cycles + 1 })
  match nextPlace s1.rotor (turnPlaces s1) with
  | some n =>
    let s2 := { s1 with rotor := n }
    if 0x10000 ≤ n then { s2 with turn := .hart (n - 0x10000) } else
      let core := (n - 1) / 64
      let sched := (n - 1) % 64
      schedulerPick (keepHeld s2 core sched) core sched
  | none => s1

/-- A host instruction has ended: the hart gives its turn back. -/
def endHart (s : State) : State := { s with turn := .idle }

/-! ### A program of one word (log entry 26) -/

/-- R385: the entry of a page that is resident in HBM. -/
def residentEntry (page : Nat) : BitVec 128 := BitVec.ofNat 128 (7 * 2 ^ 32 + 1 * 2 ^ 27 + page % 2 ^ 27)

/-- A 32-bit host word where hart 0 fetches next: its page is resident, the hart runs in M mode and has the turn. -/
def placeHostWord (s : State) (w : Nat) : State :=
  let x := hartOf s 0
  let page := x.pc.toNat / 2 ^ 19
  let s1 := putHart s 0 { x with run := .running, mode := .m }
  let s2 := { s1 with plat := { s1.plat with pltlim := if pltLim s1.plat ≤ page then BitVec.ofNat 64 (page + 1) else s1.plat.pltlim } }
  let s3 := setPageEntry s2 page (residentEntry page)
  { spaWriteN s3 0 x.pc.toNat (toBytes w 4) with agenda := [], turn := .hart 0 }

/-- The needs of a block that every static check of a word finds room in (R41). -/
def fullNeeds : Needs := { cohorts := 1, regs := 256, scratch := 256, acc := 16, shapes := 32, events := 64, cbooks := 8 }

/-- A block of core 0 for one cohort. -/
def wordBlock : Block :=
  { launch := 0, child := 0, linear := 0, core := 0, home := 0, ctx := 0, team := 0, needs := fullNeeds, spm := [], acc := [], sh := []
    cb := [], ec := [], mst := 0, bconf := 0, poison := [], retired := [] }

/-- A cohort whose clause of one word is in issue. -/
def wordAgent (block : Nat) (w : DWord) : Agent :=
  { kind := .cohort, core := 0, home := 0, sched := 0, block := block, ctx := 0, level := .u, index := 0, alloc := 256, first := 0
    age := block, prio := 0, regs := Regs.zero, flags := [], lanes := List.replicate 32 .ready, count := 0, prevSet := 0, skip := 0
    yielded := false, traps := [], bara := [], ladle := LadleData.none, hub := HubData.reset, started := true
    issue := some { hdr := 0, header := 0, words := [w], group := 0xFFFFFFFF, idx := 0, cur := 0, prev := none, inCycle := 0, freeAt := 0
                    prods := [], jumps := [], yields := false, seq := 0 } }

/-- A compute word as a clause in issue of a new cohort of a new block on core 0, which has the turn. -/
def placeClause (s : State) (w : Nat) : State :=
  let b := s.nextId
  let s1 := { s with blocks := aset s.blocks b wordBlock, agents := aset s.agents (b + 1) (wordAgent b (BitVec.ofNat 64 w)) }
  { s1 with nextId := b + 2, agenda := [], turn := .agent (b + 1) }

end Sys2Proof.Machine
end

