-- ==== Sys2Proof/Machine/Step.lean ====
section
/-! DEFINITION. One step: the next event of the agenda, the next word of the clause or host instruction whose turn it is, or an idle clock. -/

namespace Sys2Proof.Machine

open Sys2Proof

/-- A word of a clause has run: the registers that it writes hold fresh check bits (R323). -/
def runWord (s : State) (a : Nat) (i : Instr) : Host.Outcome State Fault Refusal :=
  match exec i s with
  | .next t => .next (afterWord s a t)
  | o => o

/-- A host instruction has run. -/
def runHost (i : Instr) (s : State) : Host.Outcome State Fault Refusal :=
  match exec i s with
  | .next t => .next (endHart t)
  | o => o

/-- One step of the package. -/
def step (s : State) : Host.Outcome State Fault Refusal :=
  match s.agenda with
  | i :: rest => exec i { s with agenda := rest }
  | [] => match s.turn with
    | .agent a => match nextWord s a with
      | .run i => runWord s a i
      | .done t => .next t
    | .hart h => match nextHost s h with
      | .run i t => runHost i t
      | .done t => .next (endHart t)
    | .idle => .next (idle s)

/-- The state with one instruction placed where `step` takes its next one (log entry 26). -/
def State.withFetchWord (s : State) (nbits w : Nat) : State := if nbits ≤ 32 then placeHostWord s w else placeClause s w

end Sys2Proof.Machine
end

