-- ==== Sys2Proof/Safety.lean ====
section
/-! DEFINITION. What counts as a safe step, and the terms that the statements share. -/

namespace Sys2Proof

/-- A step is safe where it answers a next state: neither a fault nor a refusal. -/
def SafeStep (s : Machine.State) : Prop := ∃ t, Machine.step s = .next t

end Sys2Proof

namespace Sys2Proof.Claims

open Sys2Proof Sys2Proof.Machine

/-- A word at hand: the agent whose turn it is has a clause in issue, and `e` is what the word sees of it (R163, R178, R180). -/
def Running (s : State) (h : Pfx) (f64 : Bool) (e : Env) : Prop :=
  ∃ a ag iss, issuing s = some (a, ag, iss) ∧ e = envOf h f64 a ag iss

/-- No relative operand of a passing lane breaks its bound or overlaps unequally (R78). -/
def RelFine (e : Env) (i : Instr) (r : FmtR) : Prop := relBad e i r = 0#32 ∧ relOverlap e i r = 0#32

/-- The producers of a lane-by-lane word with one destination of `k` registers: value and saturation of each passing lane. -/
def lanewise (e : Env) (r : FmtR) (lat k : Nat) (f : Nat → Nat × Bool) : List Producer :=
  (lanesOf e.pass).flatMap (fun l => wrVs e lat (regD e r l) l (f l).1 k ++ wrQ e lat (f l).2)

/-- The producers of a comparison: the bit of each passing lane in mask D. -/
def lanebits (e : Env) (r : FmtR) (lat : Nat) (f : Nat → Bool) : List Producer :=
  (lanesOf e.pass).flatMap (fun l => wrKs e lat r.d.toNat (laneSet [l]) (if f l then laneSet [l] else 0))

end Sys2Proof.Claims
end

