-- ==== Sys2Proof/Certificates/Slice0/Obligations.lean ====
section
/-! DEFINITION. The statements for the provers. Each says what an instruction, an event or the machine does, in the terms of the shared
operations of Sys2Proof/Machine/; its rules stand in OBLIGATIONS.json. -/

section

open Sys2Proof Sys2Proof.Machine Sys2Proof.Claims

/-! ### Encodings -/

/-- R156, R157, R162 to R170, R185, R266: words assembled by the spec's own examples or written out from its encodings, one or more for each group of R185's
map and for the host forms; a header mark in an instruction position is refused by name. -/
def Obligations.DecodedWords : Prop :=
  decodeWord 0x00C0024240000001 = .ok (.saddi { stall := 0, pred := 0, neg := false } { d := 9, a := 9, imm := 1 })
    ∧ decodeWord 0x10400080C1000000 = .ok (.kand { stall := 0, pred := 0, neg := false }
        { d := 2, a := 3, b := 4, c := 0, rel := 0, ty := 0, rnd := 0, sat := false, ftz := false, sub := 0 })
    ∧ decodeWord 0x1888008000000000 = .ok (.brc { stall := 1, pred := 0, neg := false } { d := 2, a := 0, ofs := 0 })
    ∧ decodeWord 0x1941850000000400 = .ok (.call { stall := 0, pred := 3, neg := false } { d := 20, a := 0, ofs := 1024 })
    ∧ decodeWord 0x2600008100C00280 = .ok (.vcmp { stall := 0, pred := 0, neg := false }
        { d := 2, a := 4, b := 3, c := 0, rel := 0, ty := 5, rnd := 0, sat := false, ftz := false, sub := 0 })
    ∧ decodeWord 0x4001010141800300 = .ok (.vfadd { stall := 0, pred := 2, neg := false }
        { d := 4, a := 5, b := 6, c := 0, rel := 0, ty := 6, rnd := 0, sat := false, ftz := false, sub := 0 })
    ∧ decodeWord 0x6000028300010300 = .ok (.vcvt { stall := 0, pred := 0, neg := false }
        { d := 10, a := 12, b := 0, c := 4, rel := 0, ty := 6, rnd := 0, sat := false, ftz := false, sub := 0 })
    ∧ decodeWord 0x69C002830000C300 = .ok (.vred { stall := 0, pred := 0, neg := false }
        { d := 10, a := 12, b := 0, c := 3, rel := 0, ty := 6, rnd := 0, sat := false, ftz := false, sub := 0 })
    ∧ decodeWord 0x70000201040002A2 = .ok (.ld { stall := 0, pred := 0, neg := false }
        { d := 8, am := 0, sb := 4, b := 16, c := 0, ord := 0, scope := 1, mtype := 5, sc := false, flag := 2 })
    ∧ decodeWord 0x80C000C0400002AF = .ok (.waitva { stall := 0, pred := 0, neg := false }
        { d := 3, am := 0, sb := 1, b := 0, c := 0, ord := 0, scope := 1, mtype := 5, sc := false, flag := 15 })
    ∧ decodeWord 0x9000024040008200 = .ok (.pin { stall := 0, pred := 0, neg := false }
        { d := 9, am := 0, sb := 1, b := 0, c := 2, ord := 0, scope := 1, mtype := 0, sc := false, flag := 0 })
    ∧ decodeWord 0x99C0008283014803 = .ok (.rdh { stall := 0, pred := 0, neg := false }
        { d := 2, a := 10, b := 12, c := 5, scope := 1, opt := 0, flag := 3 })
    ∧ decodeWord 0xC100000080C10802 = .ok (.tlbir { stall := 0, pred := 0, neg := false }
        { d := 0, a := 2, b := 3, c := 4, scope := 1, opt := 0, flag := 2 })
    ∧ decodeHost 0x00B50E0B = .ok (.xpin 28 10 11)
    ∧ ∀ w : DWord, opOf w = 0x3FF → decodeWord w = .error .headerMark

/-- R162 to R170, R174, R185, R266: every well-formed instruction that has a word is what its word decodes to: no operand is lost. -/
def Obligations.EncodeDecodeRoundTrip : Prop :=
  ∀ (i : Instr) (c : Code), wellFormed i = true → encode i = some c → decode c = .ok i

/-- R162 to R170, R185, R266: a word that decodes is the word of what it decodes to: every bit of a word is read; and what decodes is well
formed. -/
def Obligations.DecodeEncodeRoundTrip : Prop :=
  (∀ (w : DWord) (i : Instr), decodeWord w = .ok i → encode i = some (.compute w) ∧ wellFormed i = true)
    ∧ ∀ (w : Word) (i : Instr), decodeHost w = .ok i → encode i = some (.host w) ∧ wellFormed i = true

/-! ### One step -/

/-- R34, R141, R158, R183, R266, R323: a step. An event at the head of the agenda is taken first (log entry 8: the model's choice of one
order). With none, the word at the head of the running clause is decoded and executed; around it stand only the error checks of R323, which
do nothing where no error was injected. When its words are used up, the step is the clause boundary. With the turn at a hart that has no interrupt
to take, the Xtn3 or fence word that it fetches at its pc is executed, and the turn goes back; so it does after whatever else the hart does. -/
def Obligations.StepRuns : Prop :=
  ∀ (s : State) (a : Nat) (ag : Agent) (iss : Issue) (h : Nat),
    (∀ i rest, s.agenda = i :: rest → step s = exec i { s with agenda := rest })
      ∧ (s.agenda = [] → s.turn = .agent a → aget s.agents a = some ag → ag.issue = some iss →
        (∀ w i, iss.words[iss.idx]? = some w → decodeWord w = .ok i →
          (∀ t, readChecked s a ag iss w i = none → exec i s = .next t → step s = .next (afterWord s a t))
            ∧ (∀ t, readChecked s a ag iss w i = some t → step s = .next t)
            ∧ (s.mem.errs = [] → readChecked s a ag iss w i = none ∧ ∀ t, afterWord s a t = t))
          ∧ (iss.words[iss.idx]? = none → step s = .next (boundary s a ag iss)))
      ∧ (∀ i s1 t, s.agenda = [] → s.turn = .hart h → nextHost s h = .run i s1 → exec i s1 = .next t → step s = .next { t with turn := .idle })
      ∧ (∀ s1, s.agenda = [] → s.turn = .hart h → nextHost s h = .done s1 → step s = .next { s1 with turn := .idle })
      ∧ ∀ n s1 i, (hartOf s h).run = .running → dueIntr (hartOf s h) = none → (hartOf s h).pc.toNat % 4 = 0 →
        hartFetch s h (hartOf s h).pc.toNat 4 = .ok (n, s1) → n % 4 = 3 → decodeHost (BitVec.ofNat 32 n) = .ok i → nextHost s h = .run i s1

/-! ### Scalar, mask and control words -/

/-- R202, R204, R205: the scalar words without flags, in a passing lane: D takes the value of the table one cycle later. -/
def Obligations.ScalarResults : Prop :=
  ∀ (s : State) (h : Pfx) (r : FmtR) (m : FmtI) (e : Env), Running s h false e → e.pass ≠ 0#32 →
    let a := rdS e r.a.toNat
    let b := rdS e r.b.toNat
    let sg : Bool := r.ty == 0x0D
    let d := fun v => Host.Outcome.next (finish s e 1 (wrS e 1 r.d.toNat v))
    exec (.smov h r) s = d a
      ∧ exec (.smovi h m) s = .next (finish s e 1 (wrS e 1 m.d.toNat (m.imm.signExtend 64)))
      ∧ exec (.smulh h r) s = d (if sg then BitVec.ofInt 64 (a.toInt * b.toInt / 2 ^ 64) else BitVec.ofNat 64 (a.toNat * b.toNat / 2 ^ 64))
      ∧ exec (.sand h r) s = d (a &&& b) ∧ exec (.sor h r) s = d (a ||| b) ∧ exec (.sxor h r) s = d (a ^^^ b)
      ∧ exec (.sshl h r) s = d (if 64 ≤ b.toNat then 0 else a <<< b.toNat)
      ∧ exec (.sshr h r) s = d (if 64 ≤ b.toNat then 0 else a >>> b.toNat)
      ∧ exec (.ssra h r) s = d (if 64 ≤ b.toNat then (if a.msb then BitVec.allOnes 64 else 0) else a.sshiftRight b.toNat)
      ∧ exec (.smin h r) s = d (if sg then (if b.toInt < a.toInt then b else a) else (if b.toNat < a.toNat then b else a))
      ∧ exec (.smax h r) s = d (if sg then (if a.toInt < b.toInt then b else a) else (if a.toNat < b.toNat then b else a))
      ∧ exec (.slea h r) s = d (a + b <<< r.sub.toNat)
      ∧ exec (.spopc h r) s = d (BitVec.ofNat 64 ((List.range 64).filter (fun i => a.getLsbD i)).length)
      ∧ exec (.ssel h r) s = d (if condHolds r.sub.toNat (!(r.ty == 0x0D)) (rdF e) then a else b)
      ∧ exec (.sclz h r) s = d (BitVec.ofNat 64 (leadingZeros a.toNat 64))
      ∧ exec (.sbfe h r) s = d (fieldExtract (r.ty == 0x0D) a b)
      ∧ exec (.sbfi h r) s = d (fieldInsert a b (rdS e r.c.toNat))

/-- R199, R202: the scalar words that set Z, N, C and V. -/
def Obligations.ScalarFlagResults : Prop :=
  ∀ (s : State) (h : Pfx) (r : FmtR) (m : FmtI) (e : Env), Running s h false e → e.pass ≠ 0#32 →
    let a := rdS e r.a.toNat
    let b := rdS e r.b.toNat
    let k := m.imm.signExtend 64
    let x := rdS e m.a.toNat
    let out := fun (d : BitVec 8) (v z : DWord) => Host.Outcome.next (finish s e 1 (wrS e 1 d.toNat v ++ [wrZncv e z]))
    exec (.sadd h r) s = out r.d (a + b) (flagsAdd a b)
      ∧ exec (.saddi h m) s = out m.d (x + k) (flagsAdd x k)
      ∧ exec (.ssub h r) s = out r.d (a - b) (flagsSub a b)
      ∧ exec (.smul h r) s = out r.d (a * b) (flagsMul a b)
      ∧ exec (.scmp h r) s =
          out r.d (if condHolds r.sub.toNat (!(r.ty == 0x0D)) (withZncv (rdF e) (flagsSub a b)) then 1 else 0) (flagsSub a b)

/-- R199, R201: the condition codes on the flags, in both columns; after a subtraction or comparison of A and B, codes 0 to 5 state the named relation in the selected signedness. -/
def Obligations.ConditionCodes : Prop :=
  ∀ (f : FlagSet) (a b : DWord),
    let z := withZncv f (flagsSub a b)
    let col := fun (code : Nat) (sg us : Bool) => condHolds code false f = sg ∧ condHolds code true f = us
    col 0 f.z f.z ∧ col 1 (!f.z) (!f.z) ∧ col 2 (f.n != f.v) f.c ∧ col 3 (f.z || f.n != f.v) (f.c || f.z)
      ∧ col 4 (!f.z && f.n == f.v) (!f.c && !f.z) ∧ col 5 (f.n == f.v) (!f.c) ∧ col 6 f.q f.q ∧ col 7 f.e f.e
      ∧ condHolds 0 false z = decide (a = b) ∧ condHolds 0 true z = decide (a = b)
      ∧ condHolds 1 false z = decide (a ≠ b) ∧ condHolds 1 true z = decide (a ≠ b)
      ∧ condHolds 2 false z = decide (a.toInt < b.toInt) ∧ condHolds 2 true z = decide (a.toNat < b.toNat)
      ∧ condHolds 3 false z = decide (a.toInt ≤ b.toInt) ∧ condHolds 3 true z = decide (a.toNat ≤ b.toNat)
      ∧ condHolds 4 false z = decide (b.toInt < a.toInt) ∧ condHolds 4 true z = decide (b.toNat < a.toNat)
      ∧ condHolds 5 false z = decide (b.toInt ≤ a.toInt) ∧ condHolds 5 true z = decide (b.toNat ≤ a.toNat)

/-- R203: division: a quotient and a remainder where B is not 0, and the trap, with D kept, where it is. -/
def Obligations.ScalarDivide : Prop :=
  ∀ (s : State) (h : Pfx) (r : FmtR) (e : Env), Running s h false e → e.pass ≠ 0#32 →
    let a := rdS e r.a.toNat
    let b := rdS e r.b.toNat
    let sg : Bool := r.ty == 0x0D
    let q := if sg then BitVec.ofInt 64 (a.toInt.tdiv b.toInt) else BitVec.ofNat 64 (a.toNat / b.toNat)
    let m := if sg then BitVec.ofInt 64 (a.toInt - a.toInt.tdiv b.toInt * b.toInt) else BitVec.ofNat 64 (a.toNat - a.toNat / b.toNat * b.toNat)
    (b ≠ 0 →
      exec (.sdiv h r) s = .next (finish s e 1 (wrS e 1 r.d.toNat q))
        ∧ exec (.srem h r) s = .next (finish s e 1 (wrS e 1 r.d.toNat m)))
      ∧ (b = 0 →
        exec (.sdiv h r) s = .next (issueTrap s e (issueReq e .divideByZero 0 0))
          ∧ exec (.srem h r) s = .next (issueTrap s e (issueReq e .divideByZero 0 0)))

/-- R203: the quotient truncates toward zero and the remainder has the sign of A or is zero; −2^63 / −1 wraps with remainder 0. -/
def Obligations.DivisionLaw : Prop :=
  ∀ (sg : Bool) (a b : DWord), b ≠ 0 →
    quotient sg a b * b + remainder sg a b = a
      ∧ (sg = false → (remainder sg a b).toNat < b.toNat ∧ (quotient sg a b).toNat = a.toNat / b.toNat)
      ∧ (sg = true → (remainder sg a b).toInt.natAbs < b.toInt.natAbs ∧ (a.toInt < 0 → (remainder sg a b).toInt ≤ 0)
        ∧ (0 ≤ a.toInt → 0 ≤ (remainder sg a b).toInt))

/-- R205: field extract and field insert, bit by bit, for p = B[5:0] (C[5:0] for `SBFI`) and w2 = min(B[14:8], 64 − p). -/
def Obligations.FieldBits : Prop :=
  ∀ (s : State) (h : Pfx) (r : FmtR) (e : Env), Running s h false e → e.pass ≠ 0#32 →
    let a := rdS e r.a.toNat
    let b := rdS e r.b.toNat
    let c := rdS e r.c.toNat
    let p := b.toNat % 64
    let w := min (b.toNat / 256 % 128) (64 - p)
    let p' := c.toNat % 64
    let w' := min (c.toNat / 256 % 128) (64 - p')
    let sg : Bool := r.ty == 0x0D
    (∃ v, exec (.sbfe h r) s = .next (finish s e 1 (wrS e 1 r.d.toNat v))
        ∧ (∀ i < 64, v.getLsbD i = (if i < w then a.getLsbD (p + i) else sg && decide (0 < w) && a.getLsbD (p + w - 1))))
      ∧ ∃ v, exec (.sbfi h r) s = .next (finish s e 1 (wrS e 1 r.d.toNat v))
        ∧ ∀ i < 64, v.getLsbD i = (if p' ≤ i ∧ i < p' + w' then b.getLsbD (i - p') else a.getLsbD i)

/-- R206: the special-register moves. -/
def Obligations.SpecialMoves : Prop :=
  ∀ (s : State) (h : Pfx) (r : FmtR) (e : Env), Running s h false e → e.pass ≠ 0#32 →
    let b := rdS e r.b.toNat
    (r.a = 0 → exec (.movsr h r) s = .next (finish s e 1 ((lanesOf e.pass).map (fun l => wrV e 1 r.d.toNat l (BitVec.ofNat 32 l)))))
      ∧ (r.a ≠ 0 → exec (.movsr h r) s = .next (finish s e 1 (wrS e 1 r.d.toNat (special s e r.a.toNat))))
      ∧ (r.a = 0x0E → exec (.movrs h r) s = .next (finish s e 1 (movFlags e b)))
      ∧ (r.a = 0x0F → exec (.movrs h r) s = .next (finish (modBlock s e.ag.block (fun x => { x with mst := x.mst &&& ~~~(b.setWidth 3) })) e 1
          [{ tgt := .blk 0x0F, val := BitVec.ofNat 64 (mstOf s e.ag.block), ready := e.iss.cur + 1, mov := true }]))
      ∧ (∀ x, r.a = 0x10 → aget s.blocks e.ag.block = some x →
        exec (.movrs h r) s = .next (finish (modBlock s e.ag.block (fun x => { x with bconf := b.setWidth 32 })) e 1
          [{ tgt := .blk 0x10, val := x.bconf.setWidth 64, ready := e.iss.cur + 1, mov := true }]))

/-- R207: the mask words, and those of their words that are illegal instructions at decode. -/
def Obligations.MaskResults : Prop :=
  ∀ (s : State) (h : Pfx) (r : FmtR) (m : FmtI) (e : Env), Running s h false e → e.pass ≠ 0#32 →
    let a := rdK e r.a.toNat
    let b := rdK e r.b.toNat
    let k := fun v => Host.Outcome.next (finish s e 1 (wrK e 1 r.d.toNat v))
    let d := fun n => Host.Outcome.next (finish s e 1 (wrS e 1 r.d.toNat (BitVec.ofNat 64 n)))
    let lo := m.imm.toNat % 32
    let n := m.imm.toNat / 32 % 64
    exec (.kmovK h r) s = k a ∧ exec (.kmovFromS h r) s = k ((rdS e r.a.toNat).setWidth 32) ∧ exec (.kmovToS h r) s = d a.toNat
      ∧ exec (.kand h r) s = k (a &&& b) ∧ exec (.kor h r) s = k (a ||| b) ∧ exec (.kxor h r) s = k (a ^^^ b)
      ∧ exec (.knot h r) s = k (~~~a)
      ∧ exec (.kpopc h r) s = d ((List.range 32).filter (fun i => a.getLsbD i)).length
      ∧ exec (.kffs h r) s = d (((List.range 32).find? (fun i => a.getLsbD i)).getD 32)
      ∧ exec (.kset h m) s = .next (finish s e 1 (wrK e 1 m.d.toNat (BitVec.ofNat 32 ((2 ^ n - 1) * 2 ^ lo))))
      ∧ (∀ w, opOf w = 0x040 → 3 ≤ (fmtR w).sub.toNat →
        decodeWord w = .error .opcode ∧ ∀ ag hd last, wordCheck s ag hd last w = some .illegal)
      ∧ ∀ w, opOf w = 0x047 →
        let x := fmtI w
        x.a ≠ 0 ∨ x.imm.toNat / 2 ^ 11 ≠ 0 ∨ 32 < x.imm.toNat / 32 % 64 ∨ 32 < x.imm.toNat % 32 + x.imm.toNat / 32 % 64 →
          decodeWord w = .error .field ∧ ∀ ag hd last, wordCheck s ag hd last w = some .illegal

/-- R208 to R213, R215: the transfers: the lanes that pass are given their targets, links are written at the boundary if a lane passes, and nothing
else of the machine changes beyond the word's issue. -/
def Obligations.ControlTransfers : Prop :=
  ∀ (s : State) (h : Pfx) (r : FmtR) (b : FmtB) (e : Env), Running s h false e →
    let lanes := lanesOf e.pass
    let go := fun (js : List (Nat × DWord)) (ps : List Producer) (y : Bool) =>
      Host.Outcome.next (finish s { e with iss := { e.iss with jumps := js, yields := e.iss.yields || y } } 1 ps)
    let target := e.iss.hdr + 8 * b.ofs.signExtend 64
    let pair := fun l => BitVec.ofNat 64 ((rdV e r.a.toNat l).toNat + 2 ^ 32 * (rdV e (r.a.toNat + 1) l).toNat)
    let next := e.iss.hdr + BitVec.ofNat 64 (8 * (e.iss.words.length + 1))
    exec (.nop h r) s = .next (finish s e 1 [])
      ∧ exec (.bra h b) s = go (lanes.map (fun l => (l, target))) [] false
      ∧ exec (.brc h b) s = go (if condHolds (b.d.toNat % 8) (b.d.getLsbD 3) (rdF e) then lanes.map (fun l => (l, target)) else []) [] false
      ∧ exec (.brl h b) s = go (lanes.map (fun l => (l, target))) (if e.pass = 0#32 then [] else wrS e lateCycle b.d.toNat next) false
      ∧ exec (.jmpS h r) s = go (lanes.map (fun l => (l, rdS e r.a.toNat))) [] false
      ∧ exec (.jmpV h r) s = go (lanes.map (fun l => (l, pair l))) [] false
      ∧ exec (.call h b) s = go (lanes.map (fun l => (l, target))) (lanes.flatMap (fun l => wrVs e lateCycle b.d.toNat l next.toNat 2)) false
      ∧ exec (.ret h r) s = go (lanes.map (fun l => (l, pair l))) [] false
      ∧ exec (.yield h r) s = go [] [] (e.pass != 0)

/-- R211 to R214: the passing lanes sleep at a rendezvous or exit, and rendezvous and barriers are evaluated; a trap word's agent stops with
one record of kind 3 after the word has issued. With no passing lane nobody sleeps, exits or stops. -/
def Obligations.StrandEnds : Prop :=
  ∀ (s : State) (h : Pfx) (r : FmtR) (m : FmtI) (e : Env), Running s h false e →
    let lanes := lanesOf e.pass
    let asleep := lanes.foldl (fun ag l => sleepLane ag l (.reconv e.iss.hdr (rdK e r.a.toNat ||| laneSet [l]))) e.ag
    let stop := fun (c : TrapCode) =>
      Host.Outcome.next (postTrap (finish s e 1 []) e.aid { issueReq e c 0 0 with kind := 3, info := m.imm.toNat % 2 ^ 16 }).2
    exec (.reconv h r) s = .next (finish s { e with ag := reconvene asleep } 1 [])
      ∧ exec (.exit h r) s = .next (evalBarriers (finish s { e with ag := reconvene (lanes.foldl exitLane e.ag) } 1 []))
      ∧ (e.pass ≠ 0#32 → exec (.trap h m) s = stop .userTrap ∧ exec (.brk h m) s = stop .breakpoint)
      ∧ (e.pass = 0#32 → asleep = e.ag ∧ lanes.foldl exitLane e.ag = e.ag
        ∧ exec (.trap h m) s = .next (finish s e 1 []) ∧ exec (.brk h m) s = .next (finish s e 1 []))

/-- R163, R197: a scalar word, a mask word, a special-register move, `TRAP` or `BRK` that no active lane passes has no effect but its issue. -/
def Obligations.NoPassingLane : Prop :=
  ∀ (s : State) (h : Pfx) (r : FmtR) (m : FmtI) (e : Env), Running s h false e → e.pass = 0#32 →
    let idle := Host.Outcome.next (finish s e 1 [])
    exec (.smov h r) s = idle ∧ exec (.smovi h m) s = idle ∧ exec (.saddi h m) s = idle ∧ exec (.sadd h r) s = idle
      ∧ exec (.ssub h r) s = idle ∧ exec (.smul h r) s = idle ∧ exec (.smulh h r) s = idle ∧ exec (.sdiv h r) s = idle
      ∧ exec (.srem h r) s = idle ∧ exec (.sand h r) s = idle ∧ exec (.sor h r) s = idle ∧ exec (.sxor h r) s = idle
      ∧ exec (.sshl h r) s = idle ∧ exec (.sshr h r) s = idle ∧ exec (.ssra h r) s = idle ∧ exec (.smin h r) s = idle
      ∧ exec (.smax h r) s = idle ∧ exec (.scmp h r) s = idle ∧ exec (.ssel h r) s = idle ∧ exec (.slea h r) s = idle
      ∧ exec (.sbfe h r) s = idle ∧ exec (.sbfi h r) s = idle ∧ exec (.spopc h r) s = idle ∧ exec (.sclz h r) s = idle
      ∧ exec (.movsr h r) s = idle ∧ exec (.movrs h r) s = idle ∧ exec (.kmovK h r) s = idle ∧ exec (.kmovFromS h r) s = idle
      ∧ exec (.kmovToS h r) s = idle ∧ exec (.kand h r) s = idle ∧ exec (.kor h r) s = idle ∧ exec (.kxor h r) s = idle
      ∧ exec (.knot h r) s = idle ∧ exec (.kpopc h r) s = idle ∧ exec (.kffs h r) s = idle ∧ exec (.kset h m) s = idle
      ∧ exec (.trap h m) s = idle ∧ exec (.brk h m) s = idle

/-! ### Vector, float, conversion and cross-lane words -/

/-- R84, R179, R220, R343: the vector integer arithmetic: in each passing lane one exact result of A, B and C in the type, wrapped or
clamped once; latency 2, or 4 for the multiplications. -/
def Obligations.VectorArithmetic : Prop :=
  ∀ (s : State) (h : Pfx) (r : FmtR) (e : Env), Running s h false e →
    let k := tyRegs r.ty
    let t := (tyInt r.ty.toNat).getD (true, 32)
    let a := fun l => intOf t.1 t.2 (opA e r k l)
    let b := fun l => intOf t.1 t.2 (opB e r k l)
    let c := fun l => intOf t.1 t.2 (opC e r 1 l)
    let out := fun (i : Instr) (lat n : Nat) (f : Nat → Nat × Bool) =>
      RelFine e i r → exec i s = .next (finish s e 3 (lanewise e r lat n f))
    out (.vadd h r) 2 k (fun l => narrow t.1 t.2 r.sat (a l + b l))
      ∧ out (.vsub h r) 2 k (fun l => narrow t.1 t.2 r.sat (a l - b l))
      ∧ out (.vmul h r) 4 k (fun l => narrow t.1 t.2 r.sat (a l * b l))
      ∧ out (.vmulh h r) 4 k (fun l => narrow t.1 t.2 false (a l * b l / 2 ^ 32))
      ∧ out (.vmin h r) 2 k (fun l => narrow t.1 t.2 false (min (a l) (b l)))
      ∧ out (.vmax h r) 2 k (fun l => narrow t.1 t.2 false (max (a l) (b l)))
      ∧ out (.vmad h r) 4 1 (fun l =>
          narrow t.1 t.2 r.sat (intOf t.1 t.2 (opA e r 1 l) * intOf t.1 t.2 (opB e r 1 l) + c l))
      ∧ out (.vabs h r) 2 k (fun l => narrow true 32 r.sat (intOf true 32 (opA e r k l)).natAbs)
      ∧ out (.vneg h r) 2 k (fun l => narrow true 32 r.sat (-intOf true 32 (opA e r k l)))

/-- R84: narrowing wraps modulo 2^w, and with `.sat` clamps to the type's range once and says whether it did. -/
def Obligations.NarrowLaw : Prop :=
  ∀ (sg : Bool) (w : Nat) (v : Int), 0 < w →
    (narrow sg w false v).1 < 2 ^ w ∧ ((narrow sg w false v).1 : Int) % 2 ^ w = v % 2 ^ w ∧ (narrow sg w false v).2 = false
      ∧ (intMin sg w ≤ v ∧ v ≤ intMax sg w → intOf sg w (narrow sg w true v).1 = v ∧ (narrow sg w true v).2 = false)
      ∧ (v < intMin sg w → intOf sg w (narrow sg w true v).1 = intMin sg w ∧ (narrow sg w true v).2 = true)
      ∧ (intMax sg w < v → intOf sg w (narrow sg w true v).1 = intMax sg w ∧ (narrow sg w true v).2 = true)

/-- R220, R221, R223: moves, logic, shifts, rotations, bit fields, counts, select and the indexed and packed forms. -/
def Obligations.VectorBits : Prop :=
  ∀ (s : State) (h : Pfx) (r : FmtR) (m : FmtI) (e : Env), Running s h false e →
    let k := tyRegs r.ty
    let w := 32 * k
    let a := fun l => opA e r k l
    let b := fun l => opB e r k l
    let n := fun l => opB e r k l % 2 ^ 32
    let one := fun (i : Instr) (f : Nat → Nat) => RelFine e i r → exec i s = .next (finish s e 3 (lanewise e r 2 k (fun l => (f l, false))))
    let sh := fun l => if 2 ^ (w - 1) ≤ a l % 2 ^ w then (a l % 2 ^ w : Int) - 2 ^ w else (a l % 2 ^ w : Int)
    one (.vmov h r) a ∧ one (.vand h r) (fun l => a l &&& b l) ∧ one (.vor h r) (fun l => a l ||| b l)
      ∧ one (.vxor h r) (fun l => a l ^^^ b l) ∧ one (.vnot h r) (fun l => (2 ^ w - 1) ^^^ a l)
      ∧ one (.vshl h r) (fun l => if w ≤ n l then 0 else a l * 2 ^ n l % 2 ^ w)
      ∧ one (.vshr h r) (fun l => if w ≤ n l then 0 else a l / 2 ^ n l)
      ∧ one (.vsra h r) (fun l => ((sh l / 2 ^ min (n l) w) % 2 ^ w).toNat)
      ∧ one (.vrot h r) (fun l => ((BitVec.ofNat 32 (a l)).rotateLeft (b l % 32)).toNat)
      ∧ one (.vbfe h r) (fun l => bfe32 ((tyInt r.ty.toNat).getD (true, 32)).1 (a l) (b l))
      ∧ one (.vpopc h r) (fun l => popcount (a l) 32) ∧ one (.vclz h r) (fun l => leadingZeros (a l) 32)
      ∧ one (.vbrev h r) (fun l => (BitVec.ofNat 32 (a l)).reverse.toNat)
      ∧ one (.vsel h r) (fun l => if (rdK e r.c.toNat).getLsbD l then a l else b l)
      ∧ (RelFine e (.vbfi h r) r → exec (.vbfi h r) s = .next (finish s e 3 (lanewise e r 2 1 (fun l =>
          let c := opC e r 1 l
          (nset (opA e r 1 l) (c % 32) (min (c / 256 % 64) (32 - c % 32)) (nbits (opB e r 1 l) 0 (min (c / 256 % 64) (32 - c % 32))), false)))))
      ∧ (RelFine e (.vdot4 h r) r → exec (.vdot4 h r) s = .next (finish s e 3 (lanewise e r 4 1 (fun l =>
          narrow true 32 r.sat (dot4 r.sub.toNat (opA e r 1 l) (opB e r 1 l) (opC e r 1 l))))))
      ∧ (RelFine e (.vidx h r) r → exec (.vidx h r) s = .next (finish s e 3 (lanewise e r 2 1 (fun l =>
          (((rdS e r.a.toNat).toNat + l * (rdS e r.b.toNat).toNat) % 2 ^ 32, false)))))
      ∧ exec (.vmovi h m) s = .next (finish s e 3 ((lanesOf e.pass).map (fun l => wrV e 2 m.d.toNat l
          (if m.imm.getLsbD 29 then (m.imm.extractLsb' 0 29).setWidth 32 <<< 3 else (m.imm.extractLsb' 0 29).signExtend 32))))

/-- R222, R225: comparisons write the bits of the passing lanes in mask D; the add with carry also writes its carries to kC. -/
def Obligations.VectorCompares : Prop :=
  ∀ (s : State) (h : Pfx) (r : FmtR) (e e' : Env), Running s h false e → Running s h (r.ty == 0x0C) e' →
    let k := tyRegs r.ty
    let t := (tyInt r.ty.toNat).getD (true, 32)
    let x := fun l => intOf t.1 t.2 (opA e r k l)
    let y := fun l => intOf t.1 t.2 (opB e r k l)
    let u := fun v => unpack ((tyFloat r.ty.toNat).getD f32) r.ftz v
    let holds := fun l => match r.sub.toNat with
      | 0 => decide (x l = y l)
      | 1 => decide (x l ≠ y l)
      | 2 => decide (x l < y l)
      | 3 => decide (x l ≤ y l)
      | 4 => decide (y l < x l)
      | _ => decide (y l ≤ x l)
    let sum := fun l => opA e r 1 l + opB e r 1 l + (if (rdK e r.c.toNat).getLsbD l then 1 else 0)
    (RelFine e (.vcmp h r) r → exec (.vcmp h r) s = .next (finish s e 3 (lanebits e r 2 holds)))
      ∧ (RelFine e' (.vfcmp h r) r → exec (.vfcmp h r) s = .next (finish s e' (if r.ty == 0x0C then 16 else 4)
          (lanebits e' r 4 (fun l => fCond r.sub.toNat (u (opA e' r k l)) (u (opB e' r k l))))))
      ∧ (RelFine e (.vaddc h r) r → exec (.vaddc h r) s = .next (finish s e 3 ((lanesOf e.pass).flatMap (fun l =>
          wrVs e 2 r.d.toNat l (sum l % 2 ^ 32) 1 ++ wrKs e 2 r.c.toNat (laneSet [l]) (if 2 ^ 32 ≤ sum l then laneSet [l] else 0)))))

/-- R106, R224 to R226: float arithmetic: each element is computed exactly and rounded once in the format of TYPE; latency 4, 16 for division
and square root, 8 for the transcendentals, whose results inside their bounds are free values. -/
def Obligations.FloatArithmetic : Prop :=
  ∀ (s : State) (h : Pfx) (r : FmtR) (e e' : Env), Running s h (r.ty == 0x0C) e → Running s h false e' →
    let k := tyRegs r.ty
    let f := (tyFloat r.ty.toNat).getD f32
    let cost := fun n => if r.ty == 0x0C then 16 else n
    let m := r.rnd.toNat
    let out := fun (i : Instr) (n lat : Nat) (c : Bool) (g : Nat → Nat → Nat → Nat × Bool) =>
      RelFine e i r → exec i s = .next (finish s e (cost n) (lanewise e r lat k (fun l =>
        perElement r g (opA e r k l) (opB e r k l) (if c then opC e r k l else 0))))
    let op2 := fun which a b (_c : Nat) => ((fOp2 f m r.sat r.ftz which a b).bits, (fOp2 f m r.sat r.ftz which a b).q)
    let tr := fun (i : Instr) (g : Bool → Nat → Nat) =>
      RelFine e' i r → exec i s = .next (finish s e' 8 (lanewise e' r 8 1 (fun l => (g r.ftz (opA e' r 1 l), false))))
    out (.vfadd h r) 4 4 false (op2 0) ∧ out (.vfsub h r) 4 4 false (op2 1) ∧ out (.vfmul h r) 4 4 false (op2 2)
      ∧ out (.vfdiv h r) 8 16 false (op2 3)
      ∧ out (.vfma h r) 4 4 true (fun a b c => ((fFma f m r.sat r.ftz a b c).bits, (fFma f m r.sat r.ftz a b c).q))
      ∧ out (.vfmin h r) 4 4 false (fun a b _ => (fMinMax f r.ftz true a b, false))
      ∧ out (.vfmax h r) 4 4 false (fun a b _ => (fMinMax f r.ftz false a b, false))
      ∧ out (.vfrnd h r) 4 4 false (fun a _ _ => (fRnd f m r.ftz a, false))
      ∧ out (.vfsqrt h r) 8 16 false (fun a _ _ => ((exSqrt f m r.ftz (unpack f r.ftz a)).bits, false))
      ∧ (RelFine e (.vfclass h r) r → exec (.vfclass h r) s =
        .next (finish s e (cost 4) (lanewise e r 4 1 (fun l => (fClass f (opA e r k l), false)))))
      ∧ (RelFine e (.vfscale h r) r → exec (.vfscale h r) s = .next (finish s e (cost 4) (lanewise e r 4 k (fun l =>
          ofRounded (roundEx f m r.sat r.ftz (exScale (unpack f r.ftz (opA e r k l)) (scaleBy (opB e r 1 l))))))))
      ∧ (RelFine e' (.vfdot2 h r) r → exec (.vfdot2 h r) s = .next (finish s e' 4 (lanewise e' r 4 1 (fun l =>
          ofRounded (dot2 f m r.sat r.ftz (opA e' r 1 l) (opB e' r 1 l) (opC e' r 1 l))))))
      ∧ tr (.vfrcp h r) fRcp ∧ tr (.vfrsq h r) fRsq ∧ tr (.vfexp2 h r) fExp2 ∧ tr (.vflog2 h r) fLog2
      ∧ tr (.vfsin h r) (fSinCos 4) ∧ tr (.vfcos h r) (fSinCos 5) ∧ tr (.vftanh h r) fTanh

/-- R227 to R231: the conversions, one lane at a time; the block scale, one group of 16 lanes at a time. -/
def Obligations.Conversions : Prop :=
  ∀ (s : State) (h : Pfx) (r : FmtR) (e e' : Env),
    Running s h (r.ty == 0x0C || r.c.toNat % 32 == 0x0C) e → Running s h false e' →
    let out := fun (i : Instr) (k : Nat) (f : Nat → Nat × Bool) => RelFine e' i r → exec i s = .next (finish s e' 3 (lanewise e' r 4 k f))
    let cvt := fun td ts v => convert td ts r.rnd.toNat r.sat r.ftz v
    let ts8 := if r.ty.toNat < 2 then 0x04 else 0x06
    let td8 := if r.ty == 0 then 0x04 else if r.ty == 1 then 0x05 else 0x06
    let cb := codebook s e' r.c
    (RelFine e (.vcvt h r) r → exec (.vcvt h r) s = .next (finish s e
        (if r.ty == 0x0C || r.c.toNat % 32 == 0x0C then 16 else 3) (lanewise e r 4 (cvtRegs r) (fun l =>
          cvtLane r (opA e r (tyRegs (BitVec.ofNat 5 (r.c.toNat % 32))) l) (opB e r 1 l)))))
      ∧ out (.vpack8 h r) 1 (fun l =>
          let c := fun i => cvt r.ty.toNat ts8 (opA e' r 4 l / 2 ^ (32 * i) % 2 ^ 32)
          pairUp 16 (pairUp 8 (c 0) (c 1)) (pairUp 8 (c 2) (c 3)))
      ∧ out (.vunpk8 h r) 4 (fun l =>
          let c := fun i => ((convert td8 r.ty.toNat 0 false false (opA e' r 1 l / 2 ^ (8 * i) % 2 ^ 8)).1, false)
          pairUp 64 (pairUp 32 (c 0) (c 1)) (pairUp 32 (c 2) (c 3)))
      ∧ out (.vquant h r) 1 (fun l => (quantLane cb (opA e' r 1 l) (opB e' r 1 l), false))
      ∧ out (.vdeq h r) 1 (fun l => ofRounded (roundEx ((tyFloat r.ty.toNat).getD f32) r.rnd.toNat r.sat r.ftz
          (c4Value cb (opA e' r 1 l % 16) (opB e' r 1 l % 256) (opB e' r 1 l / 256 % 2))))
      ∧ exec (.vbscale h r) s = .next (finish s e' 3 (scaleGroup e' r (cbMax cb) 0 ++ scaleGroup e' r (cbMax cb) 1))

/-- R110 to R114, R232 to R236: the cross-lane moves: only the lanes of kC that pass take part. Reductions and scans over the members: E says
whether there were none (after a scan too: log entry 47), Q whether the result was clamped. -/
def Obligations.CrossLaneMoves : Prop :=
  ∀ (s : State) (h : Pfx) (r : FmtR) (e : Env), Running s h false e →
    let p := rdK e r.c.toNat &&& e.pass
    let n := (rdS e r.b.toNat).toNat % 32
    let a := fun l => rdV e r.a.toNat l
    let out := fun (ps : List Producer) => Host.Outcome.next (finish s e 3 ps)
    let perm := fun (j : Nat → Int) => out ((lanesOf p).map (fun l =>
      wrV e 6 r.d.toNat l (a (if (decide (0 ≤ j l) && decide (j l < 32) && p.getLsbD (j l).toNat) then (j l).toNat else l))))
    let ballot := laneSet ((lanesOf p).filter (fun l => a l != 0))
    let once := fun (ps : List Producer) => out (if e.pass == 0 then [] else ps)
    let x := if p == 0 then (emptyResult r, false) else reduceMembers e r p
    let y := scanLanes e r (lanesOf p)
    let v : DWord := if r.ty == 0x04 then (BitVec.ofNat 32 x.1).signExtend 64 else BitVec.ofNat 64 x.1
    exec (.vshfl h r) s = perm (fun l => (((rdV e r.b.toNat l).toNat % 32 : Nat) : Int))
      ∧ exec (.vshup h r) s = perm (fun l => (l : Int) - n) ∧ exec (.vshdn h r) s = perm (fun l => (l : Int) + n)
      ∧ exec (.vshxr h r) s = perm (fun l => ((l ^^^ n : Nat) : Int)) ∧ exec (.vbcast h r) s = perm (fun _ => (n : Int))
      ∧ exec (.v2s h r) s = once (wrS e 6 r.d.toNat (if p.getLsbD n then (a n).setWidth 64 else 0))
      ∧ exec (.s2v h r) s = out ((lanesOf p).map (fun l => wrV e 6 r.d.toNat l ((rdS e r.a.toNat).setWidth 32)))
      ∧ exec (.vvote h r) s = once (wrS e 6 r.d.toNat
          (if r.sub == 0 then (if ballot != 0 then 1 else 0) else if r.sub == 1 then (if ballot == p then 1 else 0) else ballot.setWidth 64))
      ∧ exec (.vmatch h r) s = out ((lanesOf p).map (fun l => wrV e 6 r.d.toNat l (laneSet ((lanesOf p).filter (fun j => a j == a l)))))
      ∧ exec (.vcomp h r) s = out (((List.range (lanesOf p).length).zip (lanesOf p)).map (fun x => wrV e 6 r.d.toNat x.1 (a x.2)))
      ∧ exec (.vexpd h r) s = out (((List.range (lanesOf p).length).zip (lanesOf p)).map (fun x => wrV e 6 r.d.toNat x.2 (a x.1)))
      ∧ exec (.vred h r) s = once (wrS e 6 r.d.toNat v ++ [wrE e 6 (p == 0)] ++ wrQ e 6 x.2)
      ∧ exec (.vscan h r) s = out (y.1.map (fun w => wrV e 6 r.d.toNat w.1 (BitVec.ofNat 32 w.2)) ++ [wrE e 6 (p == 0)] ++ wrQ e 6 y.2)
      ∧ (e.pass = 0#32 → y.1 = [] ∧ p = 0#32)

/-- R110, R113: an unclamped integer sum of the members, unsigned or signed, is their exact sum modulo 2^32, whatever the tree. -/
def Obligations.ReductionSum : Prop :=
  ∀ (e : Env) (r : FmtR) (p : LaneSet), r.sub = 0 → r.sat = false →
    (r.ty = 0x05 → ((reduceMembers e r p).1 : Int) = (((lanesOf p).map (fun l => ((rdV e r.a.toNat l).toNat : Int))).sum) % 2 ^ 32
        ∧ (reduceMembers e r p).2 = false)
      ∧ (r.ty = 0x04 → ((reduceMembers e r p).1 : Int) = (((lanesOf p).map (fun l => (rdV e r.a.toNat l).toInt)).sum) % 2 ^ 32
        ∧ (reduceMembers e r p).2 = false)

/-- R78, R177: a relative operand out of its bound, and then a relative destination that overlaps a source unequally, trap at issue. That the register
vI of a relative operand counts among the sources is the model's choice (log entry 69), as is how a negative register number stands in ADDR
(log entry 94). -/
def Obligations.RelativeTraps : Prop :=
  ∀ (s : State) (h : Pfx) (r : FmtR) (f64 : Bool) (i : Instr) (e : Env),
    (i ∈ [.vmov h r, .vadd h r, .vsub h r, .vmul h r, .vmulh h r, .vmad h r, .vmin h r, .vmax h r, .vabs h r, .vneg h r, .vand h r, .vor h r,
        .vxor h r, .vnot h r, .vshl h r, .vshr h r, .vsra h r, .vrot h r, .vbfe h r, .vbfi h r, .vpopc h r, .vclz h r, .vbrev h r, .vcmp h r,
        .vsel h r, .vaddc h r, .vdot4 h r, .vidx h r, .vfrcp h r, .vfrsq h r, .vfexp2 h r, .vflog2 h r, .vfsin h r, .vfcos h r, .vftanh h r,
        .vfdot2 h r, .vpack8 h r, .vunpk8 h r, .vquant h r, .vdeq h r] ∧ f64 = false
      ∨ i ∈ [.vfadd h r, .vfsub h r, .vfmul h r, .vfma h r, .vfmin h r, .vfmax h r, .vfcmp h r, .vfclass h r, .vfrnd h r, .vfdiv h r,
        .vfsqrt h r, .vfscale h r] ∧ f64 = (r.ty == 0x0C)
      ∨ i = .vcvt h r ∧ f64 = (r.ty == 0x0C || r.c.toNat % 32 == 0x0C)) →
    Running s h f64 e →
    (relBad e i r ≠ 0#32 → exec i s = .next (issueTrap s e (regBoundTrap e r (relBad e i r))))
      ∧ (relBad e i r = 0#32 → relOverlap e i r ≠ 0#32 →
        exec i s = .next (issueTrap s e (issueReq e .regOverlap (relOverlap e i r) 0)))

/-! ### Variable-latency words at issue -/

/-- R237 to R242, R245 to R248, R265: a load, store or atomic of which every passing lane's address keeps the checks issues: one part a
lane goes out at the lane's effective address with the operands as the word reads them, and its flag is up; no count of a flag passes 15. -/
def Obligations.MemoryWordsIssue : Prop :=
  ∀ (s : State) (h : Pfx) (r : FmtM) (i : Instr) (e : Env),
    i ∈ [.ld h r, .st h r, .lds h r, .sts h r, .ldl h r, .stl h r, .atom h r, .acas h r, .red h r, .tierq h r] →
    Running s h false e → e.pass ≠ 0#32 → flagFull e.ag r.flag.toNat = false → walksFull s (dieOf e.ag.core) = false →
    (∀ l ∈ lanesOf e.pass, checkAddr s e.ag.block i (effAddr e r l).toNat = none) →
    let k := mtRegs r.mtype
    let parts := (lanesOf e.pass).map (fun l => partOfLane l (effAddr e r l) (startState (effAddr e r l)))
    let vals := (lanesOf e.pass).map (fun l => (l, dataOf e r.d.toNat l k))
    let cmps := (lanesOf e.pass).map (fun l => (l, dataOf e r.c.toNat l k))
    let t := (startOp s e (opOf_ e i parts vals cmps [])).2
    exec i s = .next t
      ∧ ∀ f, flagCount e.ag f ≤ 15 → ∀ ag', aget t.agents e.aid = some ag' → flagCount ag' f ≤ 15

/-- R169, R173, R239, R242: the checks of an address of a load, store or atomic: 56 bits, then the windows, then for `LDS` and `STS` that it lies in
the local window, then the alignment of its size (4 for `.x2` and `.x4`). -/
def Obligations.AddressChecks : Prop :=
  ∀ (s : State) (h : Pfx) (r : FmtM) (i : Instr) (b a : Nat),
    let unit := if r.mtype = 0xE ∨ r.mtype = 0xF then 4 else mtBytes r.mtype
    i ∈ [.ld h r, .st h r, .lds h r, .sts h r, .ldl h r, .stl h r, .atom h r, .acas h r, .red h r] →
    (2 ^ 56 ≤ a → checkAddr s b i a = some (1, .accessViolation))
      ∧ (∀ c, a < 2 ^ 56 → windowCheck s b a (accBytes r) = some c → checkAddr s b i a = some (2, c))
      ∧ (a < 2 ^ 56 → windowCheck s b a (accBytes r) = none →
        ((i = .lds h r ∨ i = .sts h r) → (∀ o, decodeAddr a ≠ .spm o) → checkAddr s b i a = some (3, .accessViolation))
          ∧ ((i ≠ .lds h r ∧ i ≠ .sts h r ∨ ∃ o, decodeAddr a = .spm o) →
            (a % unit ≠ 0 → checkAddr s b i a = some (4, .misaligned)) ∧ (a % unit = 0 → checkAddr s b i a = none)))

/-- R65, R72, R177, R239, R270, R271, R358: a variable-latency word is held while its flag's count, a queue that it needs or the queue of walk
requests of its die is full, and a matrix command while a codebook load of its block is open; a check of a lane or of an engine command that fails traps it before anything happens. -/
def Obligations.VariableWordsStop : Prop :=
  ∀ (s : State) (h : Pfx) (r : FmtM) (x : FmtE) (i : Instr) (e : Env), Running s h false e → e.pass ≠ 0#32 →
    let full := walksFull s (dieOf e.ag.core)
    (i ∈ [.ld h r, .st h r, .lds h r, .sts h r, .ldl h r, .stl h r, .atom h r, .acas h r, .red h r, .tierq h r, .waitva h r, .wakeva h r,
        .pin h r, .unpin h r, .hint h r] →
        (flagFull e.ag r.flag.toNat = true ∨ full = true → exec i s = .next (holdWord s))
          ∧ (flagFull e.ag r.flag.toNat = false → full = false → ∀ t, laneTrap s e i (laneAddrs e r) = some t → exec i s = .next (issueTrap s e t)))
      ∧ (i ∈ [.cpy h x, .mma h x, .mmz h x, .accld h x, .accst h x, .qfence h x] → allParked s e = false →
        let room := !noRoom s e.ag.core e.ag.block i && !bookOpen s e.ag.block i
        (flagFull e.ag x.flag.toNat = true ∨ room = false ∨ full = true → exec i s = .next (holdWord s))
          ∧ (flagFull e.ag x.flag.toNat = false → room = true → full = false →
            ∀ c, engineCheck s e.ag.block i [] = some c →
              exec i s = .next (issueTrap s e { issueReq e c 0 0 with eng := true, esrc := checkSource c })))

/-- R244, R249, R258: the fence, the prefetch and the flag wait. A prefetch behind an open fence of its strands is held. -/
def Obligations.FenceAndWait : Prop :=
  ∀ (s : State) (h : Pfx) (r : FmtM) (e : Env), Running s h false e → e.pass ≠ 0#32 → walksFull s (dieOf e.ag.core) = false →
    let n := (lanesOf e.pass).length
    (flagFull e.ag r.flag.toNat = false →
        let o := startOp s e (opOf_ e (.fence h r) ((lanesOf e.pass).map (fun l => partOfLane l 0 .home)) [] [] [])
        exec (.fence h r) s = .next (homeAll o.2 o.1))
      ∧ (flagFull e.ag r.flag.toNat = false → (∀ l ∈ lanesOf e.pass, checkAddr s e.ag.block (.pfh h r) (effAddr e r l).toNat = none) →
        (heldBack s e none = false → exec (.pfh h r) s = .next ((lanesOf e.pass).foldl (prefetchLane e r) (finish s e (4 + n) [])))
          ∧ (heldBack s e none = true → exec (.pfh h r) s = .next (holdWord s)))
      ∧ ((∀ f ∈ fwaitFlags r, flagCount e.ag f = 0) → exec (.fwait h r) s = .next (finish s e (4 + n) []))
      ∧ ((∃ f ∈ fwaitFlags r, flagCount e.ag f ≠ 0) → exec (.fwait h r) s = .next (holdWord s))

/-- R130, R249, R252, R254, R255: the barrier words: `BAR` and `BARA` send one arrival a lane with the mask of kC, which the cohort names for the phase that
is current at issue, and `BAR` puts the lanes to sleep; `BARW`'s lanes sleep while the phase that their cohort arrived in is open, and to find it
complete is an acquire at the word's scope. A `BARW` behind an open fence of its strands is held. -/
def Obligations.BarrierWords : Prop :=
  ∀ (s : State) (h : Pfx) (r : FmtM) (e : Env), Running s h false e → e.pass ≠ 0#32 → flagFull e.ag r.flag.toNat = false →
    walksFull s (dieOf e.ag.core) = false →
    let lanes := lanesOf e.pass
    let arrive := fun (i : Instr) (pend : Bool) => startOp (barNote s e r (rdK e r.c.toNat) pend) e
      (opOf_ e i (lanes.map (fun l => partOfLane l 0 .home)) [] [] [(rdK e r.c.toNat).setWidth 64, phaseNow s e r])
    let b := arrive (.bar h r) false
    let a := arrive (.bara h r) true
    let asleep := fun (why : Sleep) (ag : Agent) => lanes.foldl (fun ag l => sleepLane ag l why) ag
    exec (.bar h r) s =
        .next (settle (homeAll (modAgent b.2 e.aid (asleep (.bar r.scope.toNat r.d.toNat))) b.1) b.1)
      ∧ exec (.bara h r) s = .next (settle (homeAll a.2 a.1) a.1)
      ∧ (heldBack s e none = true → exec (.barw h r) s = .next (holdWord s))
      ∧ (heldBack s e none = false → barPending s e.ag r.scope.toNat r.d.toNat = false →
        exec (.barw h r) s = .next (finish (acquireBy s r.scope.toNat (fun a _ => a == e.aid)) e (4 + lanes.length) []))
      ∧ (heldBack s e none = false → barPending s e.ag r.scope.toNat r.d.toNat = true →
        exec (.barw h r) s = .next (finish s { e with ag := asleep (.barw r.scope.toNat r.d.toNat) e.ag } (4 + lanes.length) []))

/-- R256, R257, R260, R261, R264: event counters, wait and wake, and the placement words, which issue as one uniform operation with their
base address and operand. -/
def Obligations.CounterAndWakeWords : Prop :=
  ∀ (s : State) (h : Pfx) (r : FmtM) (e : Env), Running s h false e → e.pass ≠ 0#32 → flagFull e.ag r.flag.toNat = false →
    walksFull s (dieOf e.ag.core) = false →
    let lanes := lanesOf e.pass
    let one := fun (i : Instr) (va : DWord) (st : PartState) (args : List DWord) =>
      let o := startOp s e (opOf_ e i [partOfLane 32 va st] [] [] args)
      exec i s = .next (homeAll o.2 o.1)
    let thr : Word := (rdS e r.sb.toNat).setWidth 32
    let met := decide ((ecGet s e.ag.block r.c.toNat).toInt ≤ thr.toInt)
    let wait := fun (ag : Agent) (l : Nat) => if met && !inList s e l then ag else sleepLane ag l (.ecwait r.c.toNat thr r.scope.toNat)
    one (.ecset h r) 0 .home [rdS e r.sb.toNat] ∧ one (.ecadd h r) 0 .home [rdS e r.sb.toNat] ∧ one (.ecq h r) 0 .home []
      ∧ (heldBack s e (some r.c.toNat) = true → exec (.ecwait h r) s = .next (holdWord s))
      ∧ (heldBack s e (some r.c.toNat) = false → exec (.ecwait h r) s = .next (finish
          (acquireBy s (if met then r.scope.toNat else 0) (fun a _ => a == e.aid)) { e with ag := lanes.foldl wait e.ag } (4 + lanes.length) []))
      ∧ ((∀ l ∈ lanes, checkAddr s e.ag.block (.wakeva h r) (effAddr e r l).toNat = none) →
        one (.wakeva h r) (effAddr e r 0) .walk [0, rdS e r.c.toNat])
      ∧ ((∀ l ∈ lanes, checkAddr s e.ag.block (.waitva h r) (effAddr e r l).toNat = none) →
        exec (.waitva h r) s = .next (modAgent
          (startOp s e (opOf_ e (.waitva h r) (lanes.map (fun l => partOfLane l (effAddr e r l) .walk))
            (lanes.map (fun l => (l, dataOf e r.d.toNat l (mtRegs r.mtype)))) [] [])).2
          e.aid (fun ag => lanes.foldl (fun ag l => sleepLane ag l .waitva) ag)))
      ∧ ∀ i ∈ [Instr.pin h r, .unpin h r, .hint h r], (∀ l ∈ lanes, checkAddr s e.ag.block i (effAddr e r l).toNat = none) →
        one i (effAddr e r 0) .home [effAddr e r 0, rdS e r.c.toNat]

/-- R269 to R271, R250, R72, R275 to R293: an engine command whose queues have room, which waits for no open codebook load and whose checks hold enters its queues with its operands; in
the replay list of parked lanes it only goes in flight. A fence of no queue completes at once, with its release. A publication flush also sends
what the update buffer of its core holds. -/
def Obligations.EngineCommandsIssue : Prop :=
  ∀ (s : State) (h : Pfx) (r : FmtE) (m : FmtM) (e : Env), Running s h false e → e.pass ≠ 0#32 → allParked s e = false →
    let s' := fun n => rdS e n
    let sent := fun (i : Instr) (args : List DWord) (vals : List (Nat × BitVec 128)) =>
      let mk := opOf_ e i [partOfLane 32 0 .home] vals [] args
      let o := startOp s e mk
      settle (enqueue o.2 o.1 (mk o.1) vals) o.1
    let ready := fun (i : Instr) (flag : BitVec 4) (args : List DWord) =>
      flagFull e.ag flag.toNat = false ∧ noRoom s e.ag.core e.ag.block i = false ∧ bookOpen s e.ag.block i = false
        ∧ walksFull s (dieOf e.ag.core) = false ∧ engineCheck s e.ag.block i args = none
    let issue := fun (i : Instr) (flag : BitVec 4) (args : List DWord) (vals : List (Nat × BitVec 128)) =>
      ready i flag args → exec i s = .next (sent i args vals)
    issue (.cpy h r) r.flag [] [] ∧ issue (.cpyg h r) r.flag [s' r.b.toNat] []
      ∧ issue (.rdh h r) r.flag [s' r.a.toNat, s' (r.a.toNat + 1), s' r.b.toNat] []
      ∧ issue (.rdhg h r) r.flag [s' r.a.toNat, s' (r.a.toNat + 1), s' r.b.toNat, s' (r.b.toNat + 1)] []
      ∧ issue (.sub h r) r.flag [s' r.a.toNat, s' (r.a.toNat + 1), s' r.b.toNat, s' (r.b.toNat + 1)] []
      ∧ issue (.unsub h r) r.flag [s' r.a.toNat] []
      ∧ issue (.mma h r) r.flag [] [] ∧ issue (.mmz h r) r.flag [] [] ∧ issue (.accld h r) r.flag [] [] ∧ issue (.accst h r) r.flag [] []
      ∧ issue (.accrd h r) r.flag [s' r.b.toNat] ((lanesOf e.pass).map (fun l => (l, 0)))
      ∧ issue (.accwr h r) r.flag [s' r.b.toNat] ((lanesOf e.pass).map (fun l => (l, BitVec.ofNat 128 (rdVs e r.a.toNat l 4))))
      ∧ (ready (.qfence h r) r.flag [] →
        let t := sent (.qfence h r) [] []
        exec (.qfence h r) s = .next (match aget t.cmds s.nextId with
          | some c => if c.queues.isEmpty && (aget s.cmds s.nextId).isNone then completeCmd t s.nextId c else t
          | none => t))
      ∧ issue (.flushr h m) m.flag [s' m.sb.toNat, s' m.d.toNat] [] ∧ issue (.invr h m) m.flag [s' m.sb.toNat, s' m.d.toNat] []
      ∧ (ready (.pubfl h r) r.flag [] →
        let t := sent (.pubfl h r) [] []
        exec (.pubfl h r) s = .next (if t.cmds == s.cmds then t else sendOfCore t e.ag.core))

/-- R249, R273, R274, R284, R292: slot and codebook words, the ends of a ladle, which wait for an open fence of its strands, and the push. -/
def Obligations.SlotAndRingWords : Prop :=
  ∀ (s : State) (h : Pfx) (r : FmtE) (e : Env), Running s h false e → e.pass ≠ 0#32 →
    let a := rdS e r.a.toNat
    let op := fun (i : Instr) (va : DWord) (args : List DWord) => startOp s e (opOf_ e i [partOfLane 32 va .home] [] [] args)
    let shape := fun (i : Instr) (n : Nat) =>
      flagFull e.ag r.flag.toNat = false → walksFull s (dieOf e.ag.core) = false →
        (allParked s e = true ∨ noRoom s e.ag.core e.ag.block i = false ∧ bookOpen s e.ag.block i = false) → shapeAddr s e a.toNat n = none →
        exec i s = .next (settle (homeAll (op i a [a]).2 (op i a [a]).1) (op i a [a]).1)
    let words := (List.range 8).map (fun i => rdS e (r.a.toNat + i))
    let pushOp := fun (res : Nat) =>
      opOf_ e (.push h r) [partOfLane 32 0 .home] [] [] (BitVec.ofNat 64 res :: rdS e r.b.toNat :: words)
    let pushed := fun (res : Nat) => startOp s e (pushOp res)
    let gone := (List.range e.ag.lanes.length).foldl exitLane e.ag
    shape (.ldsh h r) 64 ∧ shape (.evsh h r) 64 ∧ shape (.cbld h r) 32
      ∧ (flagFull e.ag r.flag.toNat = false →
        exec (.shset h r) s = .next (settle (homeAll (op (.shset h r) 0 [a]).2 (op (.shset h r) 0 [a]).1) (op (.shset h r) 0 [a]).1)
          ∧ exec (.shget h r) s = .next (homeAll (op (.shget h r) 0 []).2 (op (.shget h r) 0 []).1)
          ∧ exec (.subq h r) s = .next (homeAll (op (.subq h r) 0 [a]).2 (op (.subq h r) 0 [a]).1)
          ∧ (allParked s e = false → exec (.push h r) s =
              .next (homeAll (pushed (pushResult s (pushOp 4 0))).2 (pushed (pushResult s (pushOp 4 0))).1)))
      ∧ (heldBack s e none = true → exec (.lend h r) s = .next (holdWord s) ∧ exec (.lendStop h r) s = .next (holdWord s))
      ∧ (heldBack s e none = false → exec (.lend h r) s = .next (finish s { e with ag := gone } 4 [])
        ∧ exec (.lendStop h r) s = .next (if e.ag.ladle.finale then finish s { e with ag := gone } 4 []
          else stopRead (finish s { e with ag := gone } 4 []) e.ag.ladle.read))

/-- R312 to R323: the system words at issue: one operation goes in flight with its scalars. Privileged register moves take effect at the
boundary; a halting hub thread sleeps unless it was notified since. -/
def Obligations.SystemWordsIssue : Prop :=
  ∀ (s : State) (h : Pfx) (r : FmtE) (p : FmtR) (e : Env), Running s h false e → e.pass ≠ 0#32 →
    let a := rdS e r.a.toNat
    let b := rdS e r.b.toNat
    let d := rdS e r.d.toNat
    let v := rdS e p.b.toNat
    let sleep := if e.ag.hub.notified then { e.ag.hub with notified := false } else { e.ag.hub with halted := true }
    let go := fun (i : Instr) (args : List DWord) =>
      flagFull e.ag r.flag.toNat = false → exec i s = .next (startOp s e (opOf_ e i [partOfLane 32 0 .home] [] [] args)).2
    go (.sysc h r) [a] ∧ go (.tlbiAsid h r) [a, d] ∧ go (.tlbiVm h r) [a, d] ∧ go (.tlbiS2 h r) [a, d] ∧ go (.tlbiAll h r) [a, d]
      ∧ (a.toNat + b.toNat ≤ 2 ^ 56 → go (.tlbir h r) [a, b, rdS e r.c.toNat, d] ∧ go (.tlbirS2 h r) [a, b, rdS e r.c.toNat, d])
      ∧ (flagFull e.ag r.flag.toNat = false → 2 ^ 56 < a.toNat + b.toNat →
        exec (.tlbir h r) s = .next (issueTrap s e (issueReq e .accessViolation 0 (a.toNat % 2 ^ 56))))
      ∧ go (.atp h r) [a] ∧ go (.lcinv h r) [a, b] ∧ go (.lcinvAll h r) [] ∧ go (.notifyw h r) [a, b]
      ∧ (ecciCheck s e [a, b] = none → go (.ecciCorr h r) [a, b] ∧ go (.ecciUnc h r) [a, b])
      ∧ exec (.movpr h p) s = .next (finish s e 4 (wrS e lateCycle p.d.toNat (privRead s e.ag p.a.toNat)))
      ∧ (wwendBad s e p.a.toNat v = false → exec (.movrp h p) s =
          .next (finish s e 4 [{ tgt := .priv p.a.toNat, val := v, ready := e.iss.cur + lateCycle, mov := false }]))
      ∧ (wwendBad s e p.a.toNat v = true → exec (.movrp h p) s = .next (issueTrap s e (issueReq e .privilege 0 0)))
      ∧ exec (.halt h r) s = .next (finish s { e with ag := { e.ag with hub := sleep } } 4 [])

/-! ### Instructions in flight and engine events -/

/-- R240, R314, R353, R394: the steps of an instruction in flight: a part that is its strand's turn is translated, then served by its home,
after what a release of it sends out; a system instruction takes effect; and what is performed completes. -/
def Obligations.AccessSteps : Prop :=
  ∀ (s : State) (op lane : Nat) (o : Op) (p : Part), aget s.ops op = some o → partAt o lane = some p →
    let s1 := releaseOut s o.core o.block (releaseScope o)
    let s2 := systemEffect s op o
    (p.st = .walk → partReady s o p = true → walkTurn s (dieOf o.core) op = true → exec (.walk op lane) s = .next (walkOp s op o lane))
      ∧ (p.st = .home → partReady s o p = true → isRelease o = false →
        exec (.homeRequest op lane) s = .next (acquired o lane op (homeServe s op o p)))
      ∧ (p.st = .home → partReady s o p = true → isRelease o = true → releaseWaits s1 o.core o.block (releaseScope o) = false →
        exec (.homeRequest op lane) s = .next (acquired o lane op (homeServe s1 op o p)))
      ∧ (completable s o = true → exec (.accessCompletion op) s = .next (completeOp s op o))
      ∧ (lane = 32 → kindOf o.instr = .system → p.st = .home → partReady s o p = true → emptyRange o = false →
        systemReleases o.instr = false →
        exec (.systemInstructionComplete op) s = .next (match aget s2.ops op with
          | some q => if completable s2 q then completeOp s2 op q else s2
          | none => s2))

/-- R67, R117, R241, R242, R256: what a home does for the parts of counters and of scratchpad loads and stores: the value read is the bytes
at the offset, the bytes written are the lane's, and the part is done. -/
def Obligations.HomeEffects : Prop :=
  ∀ (s : State) (id : Nat) (o : Op) (p : Part) (h : Pfx) (r : FmtM) (b ofs : Nat),
    let ec := r.c.toNat
    let v : Word := (o.args.getD 0 0).setWidth 32
    let n := partBytes o
    (o.instr = .ecset h r → homeServe s id o p = partDone (ecSet s o.block ec v) id p.lane 0)
      ∧ (o.instr = .ecadd h r → homeServe s id o p =
          partDone (ecSet s o.block ec (ecGet s o.block ec + v)) id p.lane (ecGet s o.block ec).toNat)
      ∧ (o.instr = .ecq h r → homeServe s id o p = partDone s id p.lane (ecGet s o.block ec).toNat)
      ∧ (isWindow p.va.toNat = true → windowAt s o.block p.va.toNat = some (b, ofs) →
        (o.instr = .stl h r ∨ o.instr = .sts h r ∨ o.instr = .st h r →
          homeServe s id o p = partDone (spmWrite s b ofs (toBytes (laneVal o.vals p.lane) n)) id p.lane 0)
          ∧ (o.instr = .ldl h r ∨ o.instr = .lds h r ∨ o.instr = .ld h r →
            let s1 := spmFind s b ofs n
            spmPoisoned s1 b ofs n = false →
              homeServe s id o p = partDone s1 id p.lane (loadValue r.mtype (ofBytes (spmRead s1 b ofs n)))))

/-- R135, R271, R276, R280, R289, R138, R139: an engine command that may start does, its bursts are requested, land and are performed, a
matrix command leaves the engine, and a command that is done completes; buffered updates are sent and applied. -/
def Obligations.EngineSteps : Prop :=
  ∀ (s : State) (cmd core burst : Nat) (c : Cmd),
    (aget s.cmds cmd = some c → mayStart s c = true → isQfence c.instr = false → savingCtx s c.ctx = false →
        (c.queues ≠ [.mx] ∨ creditOn s c.core = true) → exec (.engineCommandStart cmd) s = .next (startCmd s cmd c))
      ∧ (aget s.cmds cmd = some c → (c.st = .complete ∨ cmdDone s cmd c = true) →
        exec (.engineCommandComplete cmd) s = .next (completeCmd s cmd c))
      ∧ (s.cmds.find? (fun p => p.2.core == core && p.2.queues == [.mx] && p.2.st == .running) = some (cmd, c) → c.next < mxCycles c →
        exec (.mmaEngineExit core) s = .next (runCycles s cmd c))
      ∧ (∀ h r, s.cmds.find? (fun p => p.2.core == core && p.2.queues == [.mx] && p.2.st == .running) = some (cmd, c) → mxCycles c ≤ c.next →
        c.instr = .mma h r → exec (.mmaEngineExit core) s =
          .next (modCmd (doMma s c.block r (slotAt c.recs 0) (slotAt c.recs 1)) cmd (fun c => { c with st := .left })))
      ∧ (∀ b, aget s.cmds cmd = some c → c.st = .running → isCopy c.instr = true → (copyBursts c)[burst]? = some b →
        c.bits.contains burst = false → marked c burst = false → creditOn s c.core = true → savingCtx s c.ctx = false →
        burst ≤ lowBurst c (copyBursts c).length + 8192 → exec (.copyBurst cmd burst) s = .next (copyBurst s cmd c burst b))
      ∧ (∀ n b, aget s.cmds cmd = some c → c.st = .running → isRead c.instr = true → c.stopped = false → creditOn s c.core = true →
        savingCtx s c.ctx = false → bufferUse s c.core < 128 → earlierRequests s c = false → nextBurst s cmd c = some (n, b) →
        exec (.burstRequest cmd) s = .next (requestBurst s cmd c n b))
      ∧ (∀ b segs s1 got s2, aget s.cmds cmd = some c → (readBursts c)[burst]? = some b → c.flying.contains burst = true →
        let w := burstWho cmd c burst
        probe s w (burstRange b).1 (burstRange b).2 .read = (.mem segs, s1) →
        takeBytes (countBurst s1 w .read segs) w (burstRange b).2 (.mem segs) = (got, s2) → got.bad = none →
        let s3 := modCmd s2 cmd (fun c => { c with flying := c.flying.filter (fun x => x != burst) })
        exec (.burstLanding cmd burst) s = .next (modCmd { s3 with nextId := s3.nextId + 1 } cmd (fun c =>
          { c with landed := c.landed ++ [(s3.nextId, burst, burstBytes b got.bytes)] })))
      ∧ exec (.updateBufferTimeout core) s = .next
          (if ∀ x ∈ s.mem.upd, x.core = core → x.since + 64 ≤ s.cycles then sendOfCore s core else s)
      ∧ (∀ u, s.mem.sent.find? (fun u => u.id == cmd) = some u → (∀ v ∈ s.mem.sent, v.id < u.id → sameLine v u = false) →
        exec (.updateApply cmd) s = .next (applyUpdate s u))

/-- R34, R35, R51 to R53, R79, R80, R281, R339, R342: ladles are born from the burst that landed first and end, finales run, cohorts and blocks
retire, the dispatcher places the first launch in order whose turn fits, and a scheduler goes on with the clause in issue or lets the agent
it chooses take an issue step. Behind whose queue the rotation goes on (log entry 75), that a read's command ends with its finale (log entry 77) and
how a retiring block leaves its sharing (log entry 39) are the model's choices. -/
def Obligations.BirthsAndEnds : Prop :=
  ∀ (s : State) (core slot cmd a : Nat) (c : Cmd) (ag : Agent),
    (∀ x b, slot < 16 → slotTaken s core slot = false → firstLanded s core = some (cmd, c, x) → savingCtx s c.ctx = false →
        (readBursts c)[x.2.1]? = some b →
        exec (.ladleBirth core slot) s = .next (bornLadle
          (modCmd s cmd (fun c => { c with landed := c.landed.filter (fun y => y.1 != x.1) })) cmd c slot
          (ladleRegs x.2.2 (burstMask b) (c.args.getD 2 0) (BitVec.ofNat 64 x.2.1) 0 (c.args.getD 0 0))
          { LadleData.none with burst := x.2.1, bc := b.bc.map (BitVec.ofNat 32) }))
      ∧ (s.agents.find? (fun p => p.2.kind == .ladle && p.2.core == core && p.2.index == slot) = some (a, ag) → allExited ag = true →
        ag.traps = [] → ag.issue = none → accessesDone s a = true → aget (dropAgent s a).cmds ag.ladle.read = some c →
        exec (.ladleEnd core slot) s = .next (if ag.ladle.finale then endCmd (dropAgent s a) ag.ladle.read c
          else modCmd (dropAgent s a) ag.ladle.read (fun c => { c with bits := ag.ladle.burst :: c.bits })))
      ∧ (aget s.cmds cmd = some c → c.st = .finale → slot < 16 → slotTaken s c.core slot = false → savingCtx s c.ctx = false →
        (∀ p ∈ s.agents, p.2.kind = .ladle → p.2.ladle.read ≠ cmd) →
        exec (.finaleBirth cmd slot) s = .next (bornLadle s cmd c slot
          (ladleRegs [] 0 (c.args.getD 2 0) (BitVec.ofNat 64 (readBursts c).length) (BitVec.ofNat 64 c.bits.length) (c.args.getD 1 0))
          { LadleData.none with finale := true }))
      ∧ (aget s.agents a = some ag → ag.kind = .cohort → allExited ag = true → ag.traps = [] → ag.issue = none → storesDone s a = true →
        exec (.cohortRetire a) s =
          .next (evalBarriers (dropAgent (modBlock s ag.block (fun b => { b with retired := b.retired ++ [ag.index] })) a)))
      ∧ (∀ b, aget s.blocks a = some b → mayRetire s a = true →
        let s1 := endSharing s a
        exec (.blockRetire a) s = .next (launchRetire (evalBarriers { s1 with
          blocks := adel s1.blocks a, bars := s1.bars.filter (fun x => !(x.scope == 1 && x.owner == a)) }) b.launch b.child))
      ∧ (∀ id t, (placeOrder s).findSome? (fun id => (tryPlace s id).map (fun t => (id, t))) = some (id, t) →
        exec .dispatchPlacement s = .next (startAll { t with hub := { t.hub with
          rot := ((aget t.hub.launches id).elim 0 (fun l => l.queue) + 1) % 64 } }))
      ∧ (∀ sched, let s1 := prepare s core sched
        let all := onScheduler s1 core sched
        (∀ p, all.find? (fun p => p.2.issue.isSome) = some p → exec (.schedulerPick core sched) s = .next { s1 with turn := .agent p.1 })
          ∧ (∀ x l g, all.find? (fun p => p.2.issue.isSome) = none → mayPick s1 core = true →
            choose (all.filter (fun p => mayIssue s1 p.2)) = some (x, l) → aget (clearYields all (skipAfter l x s1)).agents x = some g →
            exec (.schedulerPick core sched) s = .next (agentIssues (clearYields all (skipAfter l x s1)) x g)))

/-! ### The hub: packets, calls, registers -/

/-- R328, R329, R330, R333, R334: packets are accepted in order, start, and a launch becomes eligible; a copy goes on by bursts; a packet
that has ended completes. -/
def Obligations.PacketSteps : Prop :=
  ∀ (s : State) (q n : Nat) (p : Packet),
    let at_ := BitVec.ofNat 32 n
    (∀ bits s1, mayAccept s q = true → ringRead s q (queueOf s q).rd = (some bits, s1) →
        exec (.packetAccept q) s = .next (acceptPacket s1 q bits))
      ∧ (nextStart s q = some p → mayStartPackets s q = true →
        exec (.packetStart q) s = .next (modPkt s q p.pos (fun x => { x with st := 1 })))
      ∧ (running s q at_ 1 = some p → p.prog = 0 →
        let s1 := { s with nextId := s.nextId + 1 }
        let l := launchFrom s1 q at_ p.bits s.nextId
        let s2 := modPkt s1 q at_ (fun x => { x with prog := 1 })
        exec (.launchPacket q n) s = .next (if pktCoop p.bits != 0 && !coopFits s l then endPacket s q at_ 1 0
          else { s2 with hub := { s2.hub with launches := aset s2.hub.launches s.nextId l } }))
      ∧ (running s q at_ 2 = some p → p.todo = [] → p.prog ≠ pktLen p.bits → hubCreditOn s (queuePart s q) = true →
        exec (.copyPacket q n) s = .next (match pktBurst s q at_ p.bits p.prog with
          | (true, s1) => copyEnd (modPkt s1 q at_ (fun x => { x with prog := p.prog + pktBurstLen p.bits p.prog })) q at_
          | (false, s1) => s1))
      ∧ (pktAt s q at_ = some p → p.st = 2 → p.group = none →
        let s1 := advanceDone (modPkt (journalStatus s p) q at_ (fun x => { x with st := 3 })) q
        exec (.packetComplete q n) s = .next (dropDone (if p.sig then writeCompletion s1 p else s1) q))

/-- R334: dependence waits on QDONE end when the position is reached; signals store or add and wake; migrate requests go page by page. -/
def Obligations.PacketEffects : Prop :=
  ∀ (s : State) (q n : Nat) (p : Packet),
    let at_ := BitVec.ofNat 32 n
    (running s q at_ 3 = some p → pktAsleep s q at_ = false → pktMode p.bits = 2 →
        let reached := ((queueOf s (pfld p.bits 64 6)).done - BitVec.ofNat 32 (pfld p.bits 128 32)).toNat < 2 ^ 31
        let t := if reached then endPacket s q at_ 0 0 else s
        exec (.dependenceWait q n) s = .next t ∧ exec (.dependenceWaitRetest q n) s = .next t)
      ∧ (running s q at_ 3 = some p → pktAsleep s q at_ = false → pktMode p.bits ≠ 2 →
        exec (.dependenceWait q n) s = .next (waitMemory s q at_ p.bits)
          ∧ exec (.dependenceWaitRetest q n) s = .next (waitMemory s q at_ p.bits))
      ∧ (∀ segs s1, running s q at_ 4 = some p →
        let w := pktWho s q at_
        let store := fun (s : State) (v : Nat) =>
          endPacket (wakeSpa (giveBytes s w (toBytes v 8) (.mem segs)) ((segs.head?.map segSpa).getD 0)) q at_ 0 0
        reach s w (pktAddr p.bits) 8 (if pktMode p.bits == 1 then .both else .write) = (.mem segs, s1) →
        (pktMode p.bits ≠ 1 → exec (.signal q n) s = .next (store s1 (pktVal p.bits)))
          ∧ (∀ got s2, pktMode p.bits = 1 → takeBytes s1 w 8 (.mem segs) = (got, s2) → got.bad = none →
            exec (.signal q n) s = .next (store s2 ((ofBytes got.bytes + pktVal p.bits) % 2 ^ 64))))
      ∧ (running s q at_ 5 = some p →
        let base := pktAddr p.bits
        let len := pktDst p.bits
        let pages := if len == 0 then 0 else (base + len - 1) / 2 ^ 19 - base / 2 ^ 19 + 1
        let va := if p.prog == 0 then base else (base / 2 ^ 19 + p.prog) * 2 ^ 19
        (pages ≤ p.prog → exec (.migrateRequest q n) s = .next (endPacket s q at_ 0 0))
          ∧ (p.prog < pages → va < 2 ^ 56 → exec (.migrateRequest q n) s = .next (migratePage s q at_ p.bits va)))

/-- R316, R336, R337, R389, R438: service calls are appended and answered; ready deferred launches are appended; hub firmware answers its
calls. Which service queue serves a level, that only a queue of VMID 0 may reply, and the answer 1 to a buffer that ATTEST may not write are the
model's choices (log entry 30). -/
def Obligations.CallSteps : Prop :=
  ∀ (s : State) (id q n : Nat) (c : SysCall),
    (∀ s1, callOf s id = some c → serviceQueue s c.level = some q → c.place = none → ringFull (queueOf s q) = false →
        ringAppend s q (callPacket c (queueOf s q).wr) = (true, s1) →
        exec (.serviceCall id) s = .next { s1 with hub := { s1.hub with calls := s1.hub.calls.map (fun x =>
          if x.id == id then { x with place := some (q, (queueOf s q).wr) } else x) } })
      ∧ (∀ p, running s q (BitVec.ofNat 32 n) 7 = some p → (ctxOf s (queueCtx s q)).vmid = 0 →
        s.hub.calls.find? (fun x => x.place == some (pfld p.bits 96 6, BitVec.ofNat 32 (pfld p.bits 64 32)) && x.level == .s) = some c →
        exec (.serviceReply q n) s = .next (endPacket (answerCall s c (BitVec.ofNat 64 (pktVal p.bits))) q (BitVec.ofNat 32 n) 0 0))
      ∧ (∀ d s1, (deferredOn s q)[n]? = some d → d.ready = true → queueOn (queueOf s d.queue) = true →
        ringFull (queueOf s d.queue) = false → ringAppend s d.queue d.bits = (true, s1) →
        exec (.deferredAppend q n) s = .next { s1 with hub := { s1.hub with defers := s1.hub.defers.erase d } })
      ∧ (fwCall s id (0x10 :: (List.range 14).map (fun i => 0x12 + i)) = some c →
        let tier := c.arg.toNat % 4
        exec (.freeTake id) s = .next (if c.code != 0x10 then fwAnswer s c (BitVec.allOnes 64)
          else match takeFree s tier (if tier == 3 then 0 else c.arg.toNat / 4 % 8) with
            | some (page, s1) => fwAnswer s1 c (BitVec.ofNat 64 page)
            | none => fwAnswer s c (BitVec.allOnes 64)))
      ∧ (fwCall s id [0x11] = some c →
        let tier := c.arg.toNat / 2 ^ 27 % 4
        let page := c.arg.toNat % 2 ^ 27
        let prof := if tier == 3 then 0 else c.arg.toNat / 2 ^ 29 % 8
        let out := tier != 3 && (decide (page < profBase s prof) || decide (profBase s prof + profCount (iprof s prof) ≤ page))
        exec (.freeAdd id) s = .next (if pageListed s tier page || pageNamed s tier page || out then fwAnswer s c 1
          else fwAnswer (giveFree s tier prof page) c 0))
      ∧ (fwCall s id [0x20] = some c →
        let spa := c.arg.toNat
        let r := hubRead s 0 spa 32
        (bufferOk s spa = false → exec (.attest id) s = .next (fwAnswer s c 1))
          ∧ (∀ s1, bufferOk s spa = true → hubWaits s spa 32 = false → hubPut r.2 0 spa false (attestReport r.2 r.1) = (true, s1) →
            exec (.attest id) s = .next (fwAnswer s1 c 0)))
      ∧ (fwCall s id [0x21] = some c →
        let spa := c.arg.toNat / 64 % 2 ^ 46 * 64
        let r := hubRead s 0 spa 64
        (c.arg.toNat % 8 < 3 → exec (.extend id) s = .next (fwAnswer s c 1))
          ∧ (3 ≤ c.arg.toNat % 8 → hubWaits s spa 64 = false →
            exec (.extend id) s = .next (fwAnswer (extendMeas r.2 (c.arg.toNat % 8) r.1) c 0)))
      ∧ (fwCall s id [0x22] = some c →
        let slot := c.arg.toNat % 64
        let spa := c.arg.toNat / 128 % 2 ^ 45 * 128
        let r := hubRead s 0 spa 64
        (slot = 0 → exec (.keyset id) s = .next (fwAnswer s c 1))
          ∧ (slot ≠ 0 → hubWaits s spa 64 = false → exec (.keyset id) s =
            .next (fwAnswer { r.2 with plat := { r.2.plat with keys := sset r.2.plat.keys slot (BitVec.ofNat 512 (ofBytes r.1)) } } c 0)))

/-- R150, R312, R313, R327, R328, R416, R418, R420, R433, R435, R440: a permitted write of a register with a row of its own has its effect; the first
register of a profile takes VALID only where its checks hold, and a valid one changes in VALID alone, while no context names it. -/
def Obligations.RegisterWrites : Prop :=
  ∀ (s : State) (w : Writer) (n : Nat) (v : BitVec 64),
    let prof := fun (i : Nat) (x : DWord) => Host.Outcome.next { s with hub := { s.hub with profiles := sset s.hub.profiles (8 * n + i) x } }
    let p0 := v &&& profBits 0
    let held := sget s.hub.profiles (8 * n)
    let bare := fun (x : DWord) => x &&& ~~~(0x4000000 : DWord)
    let free := ∀ c ∈ s.hub.ctxs, c.2.qos.toNat % 8 ≠ n
    let x := queueOf s n
    let new := if queueOn x then (x.cfg &&& ~~~(1 : DWord)) ||| (v &&& 1) else v &&& qcfgBits
    let c := v.toNat % 2 ^ 12
    let port := sget s.plat.ports n
    let l2 := { s with hub := { s.hub with buckets := sset s.hub.buckets n (v &&& l2bktBits) } }
    (winAllowed s w (.queue n 2) true = true → exec (.qwrWrite w n v) s = .next (qwrTake s n (v.setWidth 32)))
      ∧ (winAllowed s w (.queue n 0) true = true → v.toNat / 2 ^ 32 % 4 ≠ 3 →
        (new.getLsbD 0 = true → queueOn x = false → ctxPart s (new.toNat / 2 ^ 34 % 2 ^ 12) = queuePart s n) →
        exec (.qcfgWrite w n v) s = .next (putQueue s n { setEnable s x (new.getLsbD 0) with cfg := new }))
      ∧ (winAllowed s w (.ctxreg n 9) true = true → exec (.hintbudWrite w n v) s =
          .next (putCtx s n { ctxOf s n with hintbud := v &&& 0x0000FFFFFFFFFFFF, balance := v.toNat % 2 ^ 32 }))
      ∧ (levelGe w.level .s = true → (w.level = .s → ctxHeld s c = true → (ctxOf s c).vmid = w.vmid) →
        exec (.wwend w v) s = .next (withdrawWaiters s c))
      ∧ (winAllowed s w (winReg n) true = true → exec (.registerWrite w n v) s = .next (regWrite s (winReg n) v))
      ∧ (winAllowed s w (.ctxqos n) true = true → qosBad s n (v &&& qosBits) = false →
        exec (.ctxqosWrite w n v) s = .next (putCtx s n { ctxOf s n with qos := v &&& qosBits }))
      ∧ (∀ i, winAllowed s w (.prof n i) true = true → i ≠ 0 → nbits (iprof s n) 26 1 = 0 →
        exec (.iprofWrite w n i v) s = prof i (v &&& profBits i))
      ∧ (∀ i, winAllowed s w (.prof n i) true = true → i ≠ 0 → nbits (iprof s n) 26 1 = 1 → exec (.iprofWrite w n i v) s = .next s)
      ∧ (winAllowed s w (.prof n 0) true = true → nbits (iprof s n) 26 1 = 0 →
        (p0.getLsbD 26 = false ∨ profileFits s n p0.toNat = true → exec (.iprofWrite w n 0 v) s = prof 0 p0)
          ∧ (p0.getLsbD 26 = true → profileFits s n p0.toNat = false → exec (.iprofWrite w n 0 v) s = prof 0 (bare p0)))
      ∧ (winAllowed s w (.prof n 0) true = true → nbits (iprof s n) 26 1 = 1 →
        (p0.getLsbD 26 = false → bare p0 = bare held → free → exec (.iprofWrite w n 0 v) s = prof 0 p0)
          ∧ (p0.getLsbD 26 = true ∨ bare p0 ≠ bare held ∨ ¬free → exec (.iprofWrite w n 0 v) s = .next s))
      ∧ (winAllowed s w (.l2bkt n) true = true → (v.getLsbD 34 = false ∨ classValid s n = true) → exec (.l2bktWrite w n v) s = .next l2)
      ∧ (winAllowed s w (.l2bkt n) true = true → v.getLsbD 34 = true → classValid s n = false → exec (.l2bktWrite w n v) s =
          .next { l2 with mem := { l2.mem with tokens := l2.mem.tokens.filter (fun t => t.2.1 != n) } })
      ∧ (winAllowed s w (.port n) true = true → port.getLsbD 2 = false →
        let bits := if v.toNat % 4 = 3 then portBits &&& ~~~(3 : DWord) else portBits
        exec (.portWrite w n v) s =
          .next { s with plat := { s.plat with ports := sset s.plat.ports n ((port &&& ~~~bits) ||| (v &&& bits)) } })
      ∧ (winAllowed s w .fwctl true = true → v = 1 → s.plat.fwState = 0 →
        exec (.fwctlSwitch w v) s = .next { s with plat := { s.plat with fwState := 1 } })

/-- R306, R309, R313, R366, R372, R433: a write below the register's level, of another guest's register, or to a record or context outside the writer's
reach, changes nothing. -/
def Obligations.RegisterWritesRefused : Prop :=
  ∀ (s : State) (w : Writer) (n i : Nat) (v : BitVec 64) (id : BitVec 32),
    let c := v.toNat % 2 ^ 12
    let unread := fun (x : Host.Outcome State Fault Refusal) => x = .next s
    let acts := unread (exec (.trapactResume w id) s) ∧ unread (exec (.trapactSkip w id) s) ∧ unread (exec (.trapactEnd w id) s)
    (winAllowed s w (.queue n 2) true = false → exec (.qwrWrite w n v) s = .next s)
      ∧ (winAllowed s w (.queue n 0) true = false → exec (.qcfgWrite w n v) s = .next s)
      ∧ (winAllowed s w (.ctxreg n 9) true = false → exec (.hintbudWrite w n v) s = .next s)
      ∧ (winAllowed s w (winReg n) true = false → exec (.registerWrite w n v) s = .next s)
      ∧ (winAllowed s w (.ctxqos n) true = false → exec (.ctxqosWrite w n v) s = .next s)
      ∧ (winAllowed s w (.prof n i) true = false → exec (.iprofWrite w n i v) s = .next s)
      ∧ (winAllowed s w (.l2bkt n) true = false → exec (.l2bktWrite w n v) s = .next s)
      ∧ (winAllowed s w (.port n) true = false → exec (.portWrite w n v) s = .next s)
      ∧ (winAllowed s w .partctl true = false → exec (.partctlMerge w v) s = .next s ∧ exec (.partctlSplit w v) s = .next s)
      ∧ (winAllowed s w .endctx true = false → exec (.endctx w n) s = .next s)
      ∧ (winAllowed s w .preempt true = false → exec (.preemptSave w n) s = .next s ∧ exec (.preemptRestore w n) s = .next s)
      ∧ (winAllowed s w .pooltake true = false → exec (.pooltake w v) s = .next s)
      ∧ (winAllowed s w .fwctl true = false → exec (.fwctlSwitch w v) s = .next s)
      ∧ (winAllowed s w .trapact true = false → acts) ∧ (trapInfoOf s id.toNat = none → acts)
      ∧ (∀ t, trapInfoOf s id.toNat = some t → trapReached s w t = false → acts)
      ∧ (levelGe w.level .s = false → exec (.fqreplay w v) s = .next s) ∧ (levelGe w.level .h = false → exec (.fqreplayh w v) s = .next s)
      ∧ (levelGe w.level .s = false → exec (.wwend w v) s = .next s)
      ∧ (w.level = .s → ctxHeld s c = true → (ctxOf s c).vmid ≠ w.vmid → exec (.wwend w v) s = .next s)
      ∧ (levelGe w.level .h = false → (ctxOf s n).vmid ≠ w.vmid →
        exec (.endctx w n) s = .next s ∧ exec (.preemptSave w n) s = .next s ∧ exec (.preemptRestore w n) s = .next s)
      ∧ (w.level = .u → winAllowed s w (winReg n) true = false)

/-! ### The hub: traps, contexts, pages, the package -/

/-- R330, R361, R366, R370 to R373, R376, R377, R444: records that have been posted are acted on by a writer who reaches them; END of a hub thread's
record ends the context bound to its queue; an action on a record of a saved context is kept for its restore; SKIP of a fetch trap has no effect.
The record of a completion record that stage 1 refuses stops no agent, and every action on it only retires it; so is the record of a hub error that
names no context (the model's choice, log entry 31). Contexts end, and fault groups are replayed. That a partition that has come down leaves its
queues disabled is the model's choice (log entry 31). -/
def Obligations.TrapActions : Prop :=
  ∀ (s : State) (w : Writer) (id : BitVec 32) (ctx : Nat) (v : BitVec 64) (t : TrapInfo) (q : RecQueue),
    (trapInfoOf s id.toNat = some t → winAllowed s w .trapact true = true → trapReached s w t = true →
        trapHeld s t.id = false →
        (t.loose = false → (t.agent < 64 → exec (.trapactEnd w id) s = .next (endContext (retireTrap s t) (queueCtx s t.agent)))
            ∧ (64 ≤ t.agent → exec (.trapactEnd w id) s = .next (endContext s t.ctx))
            ∧ (ctxSaved s t.ctx = false ∨ t.agent < 64 → exec (.trapactResume w id) s = .next (resumeTrap s t)
              ∧ (headerTrap t = false → exec (.trapactSkip w id) s = .next (skipTrap s t))
              ∧ (headerTrap t = true → exec (.trapactSkip w id) s = .next s))
            ∧ (ctxSaved s t.ctx = true → 64 ≤ t.agent → exec (.trapactResume w id) s = .next (holdAct s t 0)
              ∧ exec (.trapactSkip w id) s = .next (holdAct s t 1)))
          ∧ (t.loose = true → aget s.agents t.agent = none →
            let gone := Host.Outcome.next { s with hub := { s.hub with traps := s.hub.traps.filter (fun x => x.id != t.id) } }
            exec (.trapactResume w id) s = gone ∧ exec (.trapactSkip w id) s = gone ∧ exec (.trapactEnd w id) s = gone))
      ∧ (∀ n va, aget s.agents s.nextId = none → let c := queueCtx s n
        ∃ info s1 bits, sigRefused s n va = postRecord s1 (if c == 0 then .hypTrap else .trap c) bits none
          ∧ s1.hub.traps = s.hub.traps ++ [info] ∧ info.loose = true ∧ info.ctx = c ∧ s1.agents = s.agents ∧ aget s.agents info.agent = none)
      ∧ (winAllowed s w .endctx true = true → (levelGe w.level .h = true ∨ (ctxOf s ctx).vmid = w.vmid) →
        exec (.endctx w ctx) s = .next (endContext s ctx))
      ∧ exec (.flitPayloadError ctx) s = .next (postQueue (hubErrorRecord (endContext s ctx) ctx 6 0xFF 0 0 0) .hypTrap)
      ∧ (isPart s.hub.partCfg ctx = true →
        let s1 := ((s.hub.ctxs.filter (fun c => ctxPart s c.1 == ctx)).map (fun c => c.1)).foldl endContext s
        let off := fun (s : State) (q : Nat) =>
          if queueOn (queueOf s q) then putQueue s q { setEnable s (queueOf s q) false with cfg := (queueOf s q).cfg &&& ~~~(1 : DWord) } else s
        exec (.flitHeaderError ctx) s = .next (postQueue (hubErrorRecord
          (((List.range 64).filter (fun q => queuePart s q == ctx)).foldl off s1) 0 7 0xFF 0 0 0) .hypTrap))
      ∧ (levelGe w.level .s = true → exec (.fqreplay w v) s =
          .next ((replaySet s v (fun g => g.type != 2 && (ctxOf s g.ctx).vmid == w.vmid)).foldl askReplay s))
      ∧ (levelGe w.level .h = true → exec (.fqreplayh w v) s = .next ((replaySet s v (fun _ => true)).foldl askReplay s))
      ∧ exec (.queueRecheck q) s = .next (postQueue s q)

/-- R378 to R384: a permitted request to save or restore begins; a save whose work is at rest is written and freed; a restore whose area can be read
ends with status 0 where its work fits, with status 2 where the area was changed and with status 1 where the map breaks a rule. -/
def Obligations.Preemption : Prop :=
  ∀ (s : State) (w : Writer) (ctx : Nat) (p : Preempt),
    let own := levelGe w.level .h = true ∨ (ctxOf s ctx).vmid = w.vmid
    let ask := fun (r : Bool) => Host.Outcome.next
      { s with hub := { s.hub with preempts := s.hub.preempts ++ [{ ctx := ctx, restore := r, since := s.cycles }] } }
    (winAllowed s w .preempt true = true → own → requested s ctx = false → ctxSaved s ctx = false → ctxHeld s ctx = true →
        exec (.preemptSave w ctx) s = ask false)
      ∧ (winAllowed s w .preempt true = true → own → requested s ctx = false → ctxSaved s ctx = true →
        exec (.preemptRestore w ctx) s = ask true)
      ∧ (requestOf s ctx false = some p → saveReady s ctx = true →
        let s1 := findSaved (settleCtx s ctx) ctx
        let x := takeSaved s1 ctx
        exec (.saveComplete ctx) s = .next (endRequest (freeCtx (writeArea s1 x) x) p 0))
      ∧ (∀ x, requestOf s ctx true = some p → s.hub.saved.find? (fun x => x.ctx == ctx) = some x →
        (∀ q < 4, partOfQuarter s.hub.partCfg q = ctxPart s ctx → quarterBusy s q = false) → s.hub.puts = [] → hubHeld s = false →
        (∀ n ∈ areaPages s x, pageWaits s n = false) →
        let t := touchArea s x
        (areaGood t x = false → exec (.restoreComplete ctx) s = .next (endRequest t p 2))
          ∧ (∀ m, areaGood t x = true → restoreMap t x = some m →
            (mapGood t x m = false → exec (.restoreComplete ctx) s = .next (endRequest t p 1))
              ∧ (∀ s1, mapGood t x m = true → restoreCtx t x m = some s1 → exec (.restoreComplete ctx) s = .next (endRequest s1 p 0))))

/-- R142, R147, R388, R390, R395 to R400, R405: moves, the policy pass, write-back and another package's accesses. That a pass is one event, which resets
the requests counted since the last one and asks for the tiers in one order, is the model's choice (log entry 34). -/
def Obligations.PageEvents : Prop :=
  ∀ (s : State) (page n : Nat) (f : Forward) (l : List (Nat × Byte)),
    let e := pageEntry s page
    (s.mem.forwards.find? (fun f => !f.begun) = some f → f.page = page → (s.mem.forwards.filter (fun f => f.begun)).length < 8 →
        peTier e ≠ 3 →
        (mayMove s page f.dstTier.toNat = true →
          exec (.moveStart page) s = .next (closeLine (setEntryHw s page (eset e 29 3 1)) { f with begun := true } 0))
          ∧ (mayMove s page f.dstTier.toNat = false → exec (.moveStart page) s = .next (moveCancel s page)))
      ∧ (forwardOf s page = some f → f.begun = true →
        exec (.moveLineCopy page) s = .next (f.held.foldl (fun s x => performHeld s x.1) (moveLine s f)))
      ∧ ((sget s.plat.migpol n).getLsbD 48 = false →
        exec (.policyPass n) s = .next { s with mem := { s.mem with reqs := adel s.mem.reqs n } })
      ∧ ((sget s.plat.migpol n).getLsbD 48 = true →
        let pol := sget s.plat.migpol n
        let mine := fun (t : State) (p : Nat) => pageValid t p && peState (pageEntry t p) == 0 && pagePart t (pageEntry t p) == n
          && decide (agetD t.mem.reqs n 0 < 2 * (pol.toNat / 2 ^ 32 % 2 ^ 16))
        let s1 := (tablePages s).foldl (fun t p => if mine t p then (match policyTier t p pol with
            | some k => moveRequest t p k
            | none => t) else t) s
        exec (.policyPass n) s = .next { s1 with mem := { s1.mem with reqs := adel s1.mem.reqs n } })
      ∧ (∀ e', aget s.mem.pages page = some e' → peState e' ≠ 0 → exec (.locationWriteback page) s = .next (pltWrite s page e'))
      ∧ (∀ e', aget s.mem.pages page = some e' → peState e' = 0 → exec (.locationWriteback page) s =
          .next (pltWrite s page (ownBits (pltRead s page) ||| (e' &&& ~~~(ownBits (BitVec.allOnes 128))))))
      ∧ (peTier e = 3 → peState e < 4 → poolUp s = true →
        let spa := page * 2 ^ 19 + n % 4096 * 128
        let s1 := recallLine s (spa / 128)
        exec (.backInvalidate page n []) s = .next (if copyHeld s (spa / 128) then countPage s1 page 3 else s1))
      ∧ (peTier e = 3 → peState e < 4 → poolUp s = true → l = [(0, 1)] →
        let spa := page * 2 ^ 19 + n % 4096 * 128
        let s0 := keepCode s (lineSlot s spa) spa 128
        let s1 := recallLine s0 (spa / 128)
        let s2 := if copyHeld s (spa / 128) then countPage s1 page 3 else s1
        exec (.backInvalidate page n l) s = .next (breakReservations (rawWrite s2 (spaLoc s2 (spa + 0)) 1) spa 128))
      ∧ (poolUp s = false → exec (.backInvalidate page n l) s = .next s)

/-- R26, R403, R406, R407, R409: the hand-over of a pool page, step by step on this package's side while a port carries the pool, and the takeover.
What the other package does is folded into the event that detects it: its claim is written as CLAIM_DETECT sees it (log entry 33, the model's
choice), where it does not stand already; a freeze waits for an access that a later one has passed (log entry 91, the model's choice). -/
def Obligations.HandOver : Prop :=
  ∀ (s : State) (page : Nat) (pkg : BitVec 5) (w : Writer) (v : BitVec 64) (h : Handover), poolUp s = true →
    let e := pageEntry s page
    let r := ownRead s (pePage e)
    (claimOf s page = some h → h.step = .claiming → peState e = 3 → ownShared r.1 = true → ownState r.1 = 0 →
        let t := setHand (ownWrite r.2 (pePage e) (claimedBy r.1 (pkgNum r.2))) page true .claimed
        exec (.poolClaim page) s = .next t ∧ exec (.poolClaimRetry page) s = .next t)
      ∧ (pageValid s page = true → peState e = 0 → peTier e = 3 → givingOf s page = none → ownOwner r.1 = pkgNum r.2 →
        ownShared r.1 = true → ownState r.1 = 0 →
        let s3 := setHand (ownWrite r.2 (pePage e) (claimedBy r.1 pkg.toNat)) page false .asked
        exec (.claimDetect page pkg) s = .next (if pePins e == 0 then s3 else requestRecord s3 page pkg))
      ∧ (pageValid s page = true → peState e = 0 → peTier e = 3 → givingOf s page = none → ownOwner r.1 = pkgNum r.2 →
        ownShared r.1 = true → ownState r.1 = 1 →
        let s3 := setHand r.2 page false .asked
        (ownClaimer r.1 = pkg.toNat → exec (.claimDetect page pkg) s = .next (if pePins e == 0 then s3 else requestRecord s3 page pkg))
          ∧ (ownClaimer r.1 ≠ pkg.toNat → exec (.claimDetect page pkg) s = .next r.2))
      ∧ (givingOf s page = some h → h.step = .asked → pePins e = 0 → peState e = 0 → passedOn s page = false →
        exec (.handoverFreeze page) s = .next (setHand (setEntryHw (moveCancel s page) page (eset e 29 3 2)) page false .frozen))
      ∧ (givingOf s page = some h → h.step = .frozen →
        let s1 := (pageLines s page).foldl recallLine s
        let e1 := pageEntry s1 page
        let o := ownRead s1 (pePage e1)
        let s4 := setEntryHw (ownWrite o.2 (pePage e1) (ownHand o.1 (ownClaimer o.1) 2)) page (eset (bareEntry e1) 29 3 3)
        let s5 := { s4 with mem := { s4.mem with
          notes := s4.mem.notes.filter (fun n => !(n.page == page)), pins := s4.mem.pins.filter (fun p => p.page != page) } }
        exec (.handoverRelease page) s = .next (heldReplays (bumpStat (dropHand s5 page false) (peVmid e1) 5 1)))
      ∧ (claimOf s page = some h → h.step = .claimed → peState e = 3 → passedOn s page = false →
        let frozen := fun (s : State) => Host.Outcome.next (setHand (setEntryHw s page (eset e 29 3 2)) page true .released)
        (ownState r.1 = 2 ∨ ownState r.1 = 3 → ownOwner r.1 = pkgNum r.2 → exec (.handoverDetect page) s = frozen r.2)
          ∧ (ownState r.1 = 1 → ownClaimer r.1 = pkgNum r.2 →
            exec (.handoverDetect page) s = frozen (ownWrite r.2 (pePage e) (ownHand r.1 (pkgNum r.2) 2))))
      ∧ (claimOf s page = some h → h.step = .released →
        let s2 := setEntryHw r.2 page (eset (eset (eset e 29 3 0) 27 2 3) 48 80 0)
        exec (.handoverInstall page) s = .next (heldReplays (wakeClaims (bumpStat
          (dropHand (ownWrite s2 (pePage e) (nset r.1 34 3 0)) page true) (peVmid e) 4 1) page)))
      ∧ (winAllowed s w .pooltake true = true →
        let d := v.toNat % 2 ^ 27
        let o := ownRead s d
        let s2 := ownWrite o.2 d (ownHand o.1 (pkgNum o.2) 3)
        ownOwner o.1 ≠ pkgNum o.2 →
          (foreignNames s2 d = [] → exec (.pooltake w v) s = .next (ownWrite s2 d (nset (ownHand o.1 (pkgNum o.2) 3) 34 3 0)))
            ∧ (∀ p, foreignNames s2 d = [p] → passedOn s2 p = false →
              exec (.pooltake w v) s = .next (setHand (setEntryHw s2 p (eset (pageEntry s2 p) 29 3 2)) p true .released)))

/-- R414, R429, R430: a change of cut: a valid request marks its quarters busy; when they are quiet before the deadline the change is made, and a split
that finds a context or a profile of its own is refused; past the deadline it ends without it. That a split does not count context 0 (log entry
36) and which requests are invalid as to the joined whole (log entry 57) are the model's choices. -/
def Obligations.CutChanges : Prop :=
  ∀ (s : State) (w : Writer) (v : BitVec 64) (c : CutChange),
    let which : BitVec 2 := BitVec.ofNat 2 (v.toNat / 2 ^ 60 % 4)
    let us := v.toNat % 2 ^ 32
    let begun := fun (m : Bool) => Host.Outcome.next { s with hub := { s.hub with
      partCfg := s.hub.partCfg ||| busyBits (cutQuarters which)
      cut := some { merge := m, which := which, deadline := if us == 0 then 1000 else us, since := s.cycles } } }
    (winAllowed s w .partctl true = true → s.hub.partCfg.toNat / 16 % 16 = 0 →
        (cutInvalid s.hub.partCfg true which = false → exec (.partctlMerge w v) s = begun true)
          ∧ (cutInvalid s.hub.partCfg false which = false → exec (.partctlSplit w v) s = begun false)
          ∧ (cutInvalid s.hub.partCfg true which = true →
            exec (.partctlMerge w v) s = .next (cutRecord s true which 2 0xFFFFFFFF 0)))
      ∧ (s.hub.cut = some c → cutQuiet s (cutQuarters c.which) = true → usSince s c.since < c.deadline →
        (c.merge = true ∨ splitHeld s c.which = false →
          exec .partitionQuiesced s = .next (cutEnd (shootDown (cutRewrite s c) (cutQuarters c.which)) c 0 none))
        ∧ (c.merge = false → splitHeld s c.which = true → exec .partitionQuiesced s = .next (cutEnd s c 1 none)))
      ∧ (s.hub.cut = some c → c.deadline ≤ usSince s c.since →
        exec .partitionQuiesced s = .next s ∧ exec .partitionDeadline s = .next (cutEnd s c 1 (lowestBusy s (cutQuarters c.which))))

/-- R150, R322, R344, R420, R435, R436: power windows, bucket refills, hint refills, links, inbound requests and the wake of hub threads. That the operand
of a window names the dies over their limit (log entry 62), and that a request waits at its port while its page moves (log entry 60), are the
model's choices. -/
def Obligations.PlatformEvents : Prop :=
  ∀ (s : State) (x : BitVec 2) (n : Nat) (sp : BitVec 4) (wd : BitVec 5) (r : Inbound) (ag : Agent),
    let c := ctxOf s n
    let port := sget s.plat.ports n
    let ports := fun v => Host.Outcome.next { s with plat := { s.plat with ports := sset s.plat.ports n v } }
    exec (.powerWindow x) s = .next (((([0, 1, 2, 3] : List Nat).filter (isPart s.hub.partCfg))).foldl (grantPart x) s)
      ∧ exec .bucketRefill s = .next { s with mem := { s.mem with tokens := s.mem.tokens.map (fun t =>
          (t.1, t.2.1, min (t.2.2 + (((sget s.hub.buckets t.2.1).toNat % 2 ^ 16 : Nat) : Int)) (classDepth s t.2.1))) } }
      ∧ (c.hintbud.toNat / 2 ^ 32 % 2 ^ 16 ≠ 0 → ctxHeld s n = true → exec (.hintRefill n) s =
          .next (putCtx s n { c with balance := max c.balance (min (c.hintbud.toNat % 2 ^ 32) (c.balance + 1)) }))
      ∧ (n < 8 → exec (.linkUp n sp wd) s = ports ((port &&& ~~~(0xFFC : DWord)) ||| (sp.setWidth 64 <<< 8) ||| (wd.setWidth 64 <<< 3) ||| 4)
          ∧ exec (.linkDown n) s = ports (port &&& ~~~(0xFFC : DWord)))
      ∧ (∀ t, inboundServe s r = (true, t) → exec (.inboundRequest r) s = .next t)
      ∧ (∀ t, inboundServe s r = (false, t) → exec (.inboundRequest r) s =
          .next { t with plat := { t.plat with inbound := t.plat.inbound ++ [r] } })
      ∧ (n < 64 → aget s.agents n = some ag → ag.hub.notified = true → ag.hub.halted = true → exec (.hubThreadWake n) s =
          .next (putAgent s n { ag with hub := { ag.hub with halted := false } }))

/-- R437, R440, R443: power-on reset, boot, the switch of hub firmware, and the replay of recorded packets. What flash holds, and whether training
succeeds, are free values, so both outcomes of a check stand. That a power-on reset keeps the pool and counts clocks anew (log entry 26), the idle
point of a thread that is not in `HALT` (log entry 61) and the order in which replayed queues are fed (log entry 63) are the model's choices. -/
def Obligations.BootAndFirmware : Prop :=
  ∀ (s : State) (cfg lim own entry : BitVec 64) (t q : Nat) (ag : Agent),
    let hub := Config.flashImage 1
    let monitor := Config.flashImage 3
    let m1 := extendMeas s 0 (toBytes (imageDigest hub).toNat 64)
    let s1 := { m1 with
      hub := { m1.hub with fwver := (imageVersion hub).setWidth 64 }
      plat := { m1.plat with fwVer := imageVersion hub, boot := 1 } }
    let s2 := regWrite (regWrite (regWrite s1 .pltcfg cfg) .pltlim lim) .poolown own
    let s3 := extendMeas s 1 (toBytes (imageDigest monitor).toNat 64)
    let broken := Host.Outcome.next { s with plat := { s.plat with flashRec := true } }
    (exec .powerOnReset s = .next { State.reset with
        mem := { MemSys.reset with
          cells := s.mem.cells.filter (fun c => inPool c.1), lineKeys := s.mem.lineKeys.filter (fun l => inPool (128 * l.1)) }
        agenda := s.agenda, fresh := s.fresh })
      ∧ (∀ bs, imageValid bs = true ↔ Config.shake256 (imageKey bs) = Config.fuseKeyDigest
          ∧ Config.mldsaVerify (imageKey bs) (Config.shake256 (imageBody bs)) (imageSig bs) = true
          ∧ Config.fuseMinVersion.toNat ≤ (imageVersion bs).toNat)
      ∧ (s.plat.boot = 0 →
        (imageValid hub = false → exec (.hubFirmwareBoot cfg lim own) s = broken)
          ∧ (imageValid hub = true → Config.trainingOk = false →
            exec (.hubFirmwareBoot cfg lim own) s = .next { s1 with plat := { s1.plat with bootFail := true } })
          ∧ (imageValid hub = true → Config.trainingOk = true → exec (.hubFirmwareBoot cfg lim own) s =
            .next (clearTable { s2 with plat := { s2.plat with pkgid := Config.pkgidStraps.setWidth 64, boot := 2 } })))
      ∧ (s.plat.boot = 2 → exec (.hostMonitorRelease entry) s = (if imageValid monitor then
          Host.Outcome.next (putHart { s3 with plat := { s3.plat with boot := 3 } } 0 { hartOf s3 0 with pc := entry, mode := .m, run := .running })
        else broken))
      ∧ (s.plat.fwState = 1 →
        let at_ := s.plat.fwStage.toNat % 2 ^ 52
        let hd := fwRead s at_ 64
        let n := 64 + ofBytes ((hd.1.drop 4).take 4) + 1952 + 3309
        let image := fwRead hd.2 at_ n
        let p := image.2.plat
        let good := imageValid image.1 && !poisoned image.2 at_ n
        fwGo s at_ 64 = true → fwGo hd.2 at_ n = true → exec .fwImageChecked s = .next { image.2 with
          plat := if good then { p with fwState := 2, fwSince := image.2.cycles, fwNext := imageVersion image.1, fwDigest := imageDigest image.1 }
          else { p with fwState := 0, fwResult := 1 } })
      ∧ (aget s.agents t = some ag → s.plat.fwState = 2 → ag.kind = .hubThread → ag.issue = none →
        (ag.hub.halted = true ∨ ag.traps = [] ∧ ∀ p ∈ s.hub.packets, p.queue = t → p.st = 0) →
        let p := putAgent s t { ag with hub := { ag.hub with parked := true } }
        exec (.hubThreadPark t) s = .next (if threadsParked p then fwCommit p else p))
      ∧ (s.plat.fwState = 2 → s.plat.fwSince + parkClocks ≤ s.cycles → exec .fwSwitchTimeout s = .next (fwAbort s 2))
      ∧ (∀ spa p seq t1, replayAt s q = some spa → hubWaits s spa 72 = false →
        let r := (hubRead s 0 spa 72).2
        nextReplay r q = some (p, seq) → q < 64 → replayTurn r q seq = true → ringAppend r q p = (true, t1) →
        exec (.recordReplayFeed q) s = .next (putQueue t1 q { queueOf t1 q with replay := (queueOf t1 q).replay + 1 }))

/-! ### Host harts -/

/-- R152, R261, R264 to R267: the Xtn3 words of the hart whose turn it is. -/
def Obligations.Xtn3Words : Prop :=
  ∀ (s : State) (h : Nat) (d a b : BitVec 5), s.turn = .hart h →
    let x := hartOf s h
    let va := rdX x a
    let vb := rdX x b
    exec (.xpin d a b) s = .next (hostPlace s h x .pin d va.toNat vb.toNat)
      ∧ exec (.xunpin d a b) s = .next (hostPlace s h x .unpin d va.toNat vb.toNat)
      ∧ exec (.xhint d a b) s = .next (hostPlace s h x .hint d va.toNat vb.toNat)
      ∧ exec (.xtierqLo d a) s = .next (hostTierq s h x d va.toNat 0) ∧ exec (.xtierqHi d a) s = .next (hostTierq s h x d va.toNat 1)
      ∧ exec (.xwaitvaW d a b) s = .next (hostWait s h x d va.toNat 4 vb.toNat)
      ∧ exec (.xwaitvaD d a b) s = .next (hostWait s h x d va.toNat 8 vb.toNat)
      ∧ (∀ y s1, va.toNat % 4 = 0 → hostHole .load (dataView x) va.toNat 1 = none →
        hartXlate s h (dataView x) va.toNat .read false = (.ok y, s1) → y.cls = 0 →
        inWindow (xlatOut y va.toNat) = false →
        let k := wakeKey s1 va (hartVmid x) (hartAsid x) vb.toNat
        exec (.xwakeva d a b) s = .next (retire k.2 h (hartOf k.2 h) d k.1))
      ∧ (va.toNat % 4 ≠ 0 → exec (.xwakeva d a b) s = .next (hartTrap s h 4 va.toNat 0))

/-- R118, R141, R267, R307, R318, R431: the fences of a mode that may run them, the exceptions of RISC-V in the others (causes 2 and 22: log entry 7),
ordinary accesses of a running hart (whose pc moves past the word: log entry 24), and interrupts that end a wait. The words of the fences and
their operands are RISC-V's (log entry 10). Log entries 7, 10 and 24 are the model's choices. -/
def Obligations.HostFencesAndAccesses : Prop :=
  ∀ (s : State) (h : Nat) (a b : BitVec 5) (acc : HostAcc),
    let x := hartOf s h
    let trap := fun (cause : Nat) (f7 : BitVec 7) => Host.Outcome.next (hartTrap s h cause (fenceWord f7 a b) 0)
    let tvm := (sget x.csrs 0x300).getLsbD 20
    (s.turn = .hart h →
        (x.mode = .m ∨ (x.mode = .hs ∧ tvm = false) ∨ (x.mode = .vs ∧ (sget x.csrs 0x600).getLsbD 20 = false) →
          exec (.sfenceVma a b) s = .next (hostFence s h (fenceStage1 (hartVmid x) (fenceArg x a) (fenceArg x b))))
          ∧ (x.mode = .m ∨ x.mode = .hs →
            exec (.hfenceVvma a b) s = .next (hostFence s h (fenceStage1 (hgatpVmid x) (fenceArg x a) (fenceArg x b))))
          ∧ (x.mode = .m ∨ (x.mode = .hs ∧ tvm = false) →
            exec (.hfenceGvma a b) s = .next (hostFence s h (fenceStage2 (fenceArg x a) (fenceArg x b))))
          ∧ (x.mode = .hs → tvm = true → exec (.sfenceVma a b) s = trap 2 0x09 ∧ exec (.hfenceGvma a b) s = trap 2 0x31)
          ∧ (x.mode = .vs → (sget x.csrs 0x600).getLsbD 20 = true → exec (.sfenceVma a b) s = trap 22 0x09)
          ∧ (x.mode = .vs → exec (.hfenceVvma a b) s = trap 22 0x11 ∧ exec (.hfenceGvma a b) s = trap 22 0x31)
          ∧ (x.mode = .u → exec (.sfenceVma a b) s = trap 2 0x09 ∧ exec (.hfenceVvma a b) s = trap 2 0x11 ∧ exec (.hfenceGvma a b) s = trap 2 0x31)
          ∧ (x.mode = .vu → exec (.sfenceVma a b) s = trap 22 0x09 ∧ exec (.hfenceVvma a b) s = trap 22 0x11 ∧ exec (.hfenceGvma a b) s = trap 22 0x31))
      ∧ (hartRuns s h = true → acc.op = .fence → exec (.hostAccess h acc) s = .next (hostEnd s h acc))
      ∧ (hartRuns s h = true → acc.op ≠ .fence → acc.op ≠ .load → acc.op ≠ .store → acc.va.toNat % 2 ^ acc.size.toNat ≠ 0 →
        exec (.hostAccess h acc) s = .next (hartTrap s h (alignCause (opKind acc.op)) acc.va.toNat 0))
      ∧ (∀ segs s1, hartRuns s h = true → acc.op ≠ .fence → (acc.op = .load ∨ acc.op = .store ∨ acc.va.toNat % 2 ^ acc.size.toNat = 0) →
        hostReach s h (accView x acc) (opKind acc.op) acc.va.toNat (2 ^ acc.size.toNat) (accNeed acc) = (.mem segs, s1) →
        exec (.hostAccess h acc) s = .next (hostPerform s1 h acc segs))
      ∧ (∀ e s1, hartRuns s h = true → acc.op ≠ .fence → (acc.op = .load ∨ acc.op = .store ∨ acc.va.toNat % 2 ^ acc.size.toNat = 0) →
        hostReach s h (accView x acc) (opKind acc.op) acc.va.toNat (2 ^ acc.size.toNat) (accNeed acc) = (.exc e, s1) →
        exec (.hostAccess h acc) s = .next (accExc s1 h acc e))
      ∧ (∀ w, s.hub.waiters.find? (fun w => w.who == .hart h) = some w → exec (.interruptPending h) s = .next (wakeWaiter s w 2))

/-! ### The whole machine -/

/-- R312, R326, R385, R387, R394, R414, R437, R440: right after reset: no page is described, no memory is listed (so memory has its canonical form), no
line, cache or translation entry exists, the cut is four quarters, no queue is enabled, registers 0x02 to 0x09 of every context read 0, every hart is held and every
hub thread is at level F; every map of an agent's registers and flags has its canonical form. The limit 0 of the page table (log entry 2), the state
of the harts (log entry 4), the empty memory (log entry 1) and the state of the hub threads (log entry 5) are the model's choices, where the rules give
no value. -/
def Obligations.ResetState : Prop :=
  let s := State.reset
  s.mem.cells = [] ∧ Memory.wf s.mem.cells = true ∧ pltLim s.plat = 0 ∧ (∀ die page, locate s die page = none) ∧ s.mem.dir = [] ∧ s.mem.tlb = [] ∧ s.mem.loc = []
    ∧ s.hub.partCfg = 0 ∧ (∀ q, queueOn (queueOf s q) = false ∧ (queueOf s q).wr = 0 ∧ (queueOf s q).rd = 0)
    ∧ (∀ (ag : Agent) (n : Nat), 2 ≤ n → n ≤ 9 → ag.kind = .cohort → privRead s ag n = 0)
    ∧ (∀ h, (hartOf s h).run = .held) ∧ s.plat.fwState = 0
    ∧ (∀ t < 64, ∃ ag, aget s.agents t = some ag ∧ ag.kind = .hubThread ∧ ag.level = .f)
    ∧ ∀ p ∈ s.agents, Sparse.wf p.2.regs.v = true ∧ Sparse.wf p.2.regs.s = true ∧ Sparse.wf p.2.regs.k = true ∧ Sparse.wf p.2.regs.pcv = true
      ∧ ∀ f, flagCount p.2 f ≤ 15

/-- R5, R385, R439: a byte of memory that is written is read back, and every other byte reads as before; so too through system-physical
addresses without keys, where the pages' entries are live. -/
def Obligations.MemoryBytes : Prop :=
  ∀ (s : State) (b : Byte), Memory.wf s.mem.cells = true →
    (∀ l l', rawRead (rawWrite s l b) l' = if l' = l then b else rawRead s l')
      ∧ ∀ a a', s.mem.lineKeys = [] → (aget s.mem.pages (a / 2 ^ 19)).isSome = true → (aget s.mem.pages (a' / 2 ^ 19)).isSome = true →
        spaRead (spaWrite s 0 a b) 0 a' = if spaLoc s a' = spaLoc s a then b else spaRead s 0 a'

/-- Memory keeps its canonical form (an invariant of the model's own memory, log entry 1): its addresses rise and no listed byte is one that an
unlisted address reads as; every step from a state that has the form gives a state that has it. -/
def Obligations.MemoryCanonical : Prop :=
  ∀ (s t : State), Memory.wf s.mem.cells = true → step s = .next t → Memory.wf t.mem.cells = true

/-- R67, R115, R117, R130: a scratchpad write of a resident block: its bytes read back, every other block and all of memory are as before, and every
other byte of the scratchpad but what reaches a mirror of the block first (the updates of the writes that stand before it: log entry 68); a
block that subscribes to nothing has no mirror; an event counter that is set reads back, the other counters are as before, and so is memory, but for the L1 lines that the acquire of a woken strand takes away. The maps of the bytes and
of the counters keep their canonical form. -/
def Obligations.LocalStores : Prop :=
  ∀ (s : State) (b : Nat) (x : Block), aget s.blocks b = some x →
    (∀ ofs bs, Sparse.wf x.spm = true →
      spmRead (spmWrite s b ofs bs) b ofs bs.length = bs
        ∧ (∀ o, (o < ofs ∨ ofs + bs.length ≤ o) → spmRead (spmWrite s b ofs bs) b o 1 = spmRead (syncMirror s b ofs bs.length) b o 1)
        ∧ ((∀ y ∈ s.mem.subs, y.block ≠ b) → ∀ o, spmRead (syncMirror s b ofs bs.length) b o 1 = spmRead s b o 1)
        ∧ (∀ b', b' ≠ b → aget (spmWrite s b ofs bs).blocks b' = aget s.blocks b')
        ∧ (∀ y, aget (spmWrite s b ofs bs).blocks b = some y → Sparse.wf y.spm = true)
        ∧ (spmWrite s b ofs bs).mem.cells = s.mem.cells)
      ∧ (∀ n v, Sparse.wf x.ec = true →
        ecGet (ecSet s b n v) b n = v ∧ (∀ m, m ≠ n → ecGet (ecSet s b n v) b m = ecGet s b m)
          ∧ (∀ y, aget (ecSet s b n v).blocks b = some y → Sparse.wf y.ec = true)
          ∧ (∀ b', b' ≠ b → aget (ecSet s b n v).blocks b' = aget s.blocks b') ∧ ∃ l1, (ecSet s b n v).mem = { s.mem with l1 := l1 })

/-- R63, R180: a word reads the visible producer with the greatest ready cycle, ties to the later in program order, and without one the
value at the start of the clause; `s0` reads zero. -/
def Obligations.ProducerVisibility : Prop :=
  ∀ (g : Regs) (ps qs : List Producer) (p : Producer) (c : Nat),
    (p.ready ≤ c → (∀ x ∈ ps, x.tgt = p.tgt → x.ready ≤ c → x.ready ≤ p.ready) →
        (∀ x ∈ qs, x.tgt = p.tgt → x.ready ≤ c → x.ready < p.ready) → readTarget g (ps ++ p :: qs) c p.tgt = p.val)
      ∧ (∀ t, (∀ x ∈ ps, x.tgt = t → c < x.ready) → readTarget g ps c t = startVal g t)
      ∧ ∀ e : Env, rdS e 0 = 0

/-- R34, R63, R64, R180, R343: the frame of a word that issues and of a clause that ends. Issuing leaves every other agent, the issuing agent's
registers, strands and flags, the blocks, what is in flight, the harts, memory and the package as they are; at the boundary a register
without a producer keeps its value, and the maps of the registers keep their canonical form. -/
def Obligations.IssueFrame : Prop :=
  ∀ (s : State) (e : Env) (cost : Nat) (ps : List Producer) (g : Regs),
    let t := finish s e cost ps
    t.mem = s.mem ∧ t.blocks = s.blocks ∧ t.bars = s.bars ∧ t.ops = s.ops ∧ t.cmds = s.cmds ∧ t.harts = s.harts ∧ t.plat = s.plat
      ∧ t.turn = s.turn ∧ t.agenda = s.agenda ∧ t.mtime = s.mtime ∧ t.fresh = s.fresh ∧ t.nextId = s.nextId
      ∧ t.hub.ctxs = s.hub.ctxs ∧ t.hub.traps = s.hub.traps ∧ t.hub.recs = s.hub.recs ∧ t.hub.launches = s.hub.launches
      ∧ (∀ a, a ≠ e.aid → aget t.agents a = aget s.agents a)
      ∧ (∃ ag, aget t.agents e.aid = some ag ∧ ag.regs = e.ag.regs ∧ ag.lanes = e.ag.lanes ∧ ag.flags = e.ag.flags ∧ ag.traps = e.ag.traps)
      ∧ (∀ n l, l < 32 → (∀ p ∈ ps, p.tgt ≠ .v n l) → (∀ p ∈ ps, ∀ m k, p.tgt = .v m k → k < 32) → regV (commit g ps) n l = regV g n l)
      ∧ (∀ n, (∀ p ∈ ps, p.tgt ≠ .s n) → regS (commit g ps) n = regS g n)
      ∧ (∀ n, (∀ p ∈ ps, ∀ m, p.tgt ≠ .k n m) → regK (commit g ps) n = regK g n)
      ∧ ((∀ p ∈ ps, p.tgt ≠ .zncv ∧ p.tgt ≠ .eBit ∧ p.tgt ≠ .qBit) → (commit g ps).sflags = g.sflags)
      ∧ regS (commit g ps) 0 = 0 ∧ regK (commit g ps) 0 = 0xFFFFFFFF#32
      ∧ (Sparse.wf g.v = true → Sparse.wf (commit g ps).v = true) ∧ (Sparse.wf g.s = true → Sparse.wf (commit g ps).s = true)
      ∧ (Sparse.wf g.k = true → Sparse.wf (commit g ps).k = true) ∧ (Sparse.wf g.pcv = true → Sparse.wf (commit g ps).pcv = true)

/-- R54, R177, R369 to R371: a trap posts one record, whose fields stand at the places of R371 and whose reserved bits are zero, and stops its agent; the
TRAPID is the next number that no record or group holds (log entry 12, the model's choice); a word that traps at issue
leaves the words before it their effects and the group at its header. -/
def Obligations.TrapEntry : Prop :=
  ∀ (s : State) (e : Env) (ag : Agent) (id : Nat) (t : TrapReq),
    let r := trapRecord s ag id t
    let f := fun lo n => (r.toNat / 2 ^ lo) % 2 ^ n
    let ends := { e.ag with regs := commit e.ag.regs e.iss.prods, issue := none }
    (∀ z ∈ [(8, 2), (56, 8), (120, 8), (154, 6), (164, 28), (224, 32), (262, 10), (376, 8)], f z.1 z.2 = 0)
      ∧ f 0 8 = t.code.num % 2 ^ 8 ∧ f 10 1 = (if ag.kind == .ladle then 1 else 0) ∧ f 11 1 = (if t.cmd.isSome || t.eng then 1 else 0) ∧ f 12 4 = t.word % 2 ^ 4 ∧ f 16 2 = t.kind % 2 ^ 2
      ∧ f 18 2 = levelNum ag.level ∧ f 20 12 = ag.ctx % 2 ^ 12 ∧ f 32 8 = (ctxOf s ag.ctx).vmid.toNat ∧ f 40 16 = (ctxOf s ag.ctx).asid.toNat
      ∧ f 64 56 = t.addr % 2 ^ 56 ∧ f 128 16 = t.info % 2 ^ 16 ∧ f 144 10 = t.op % 2 ^ 10 ∧ f 160 4 = t.esrc % 2 ^ 4 ∧ f 192 32 = id % 2 ^ 32
      ∧ f 272 8 = (if ag.kind == .hubThread then 0xFF else ag.core % 2 ^ 8) ∧ f 288 32 = t.lanes.toNat ∧ f 320 56 = t.hdr.toNat % 2 ^ 56
      ∧ f 256 6 = agentQueue s ag % 2 ^ 6 ∧ f 280 8 = slotOf ag % 2 ^ 8 ∧ f 384 32 = t.burst % 2 ^ 32 ∧ f 416 32 = t.group.toNat
      ∧ f 448 64 = (if ag.kind == .hubThread then 0 else linearOf s ag % 2 ^ 64)
      ∧ (∀ a, aget s.agents a = some ag → ag.kind ≠ .hubThread → let new := (recordId s).1
        (postTrap s a t).1 = new ∧ ∃ info s1, info.id = new ∧ info.code = BitVec.ofNat 8 t.code.num ∧ info.agent = a ∧ info.group = t.group ∧
          s1.hub.traps = s.hub.traps ++ [info] ∧ s1.mem = s.mem ∧
          aget s1.agents a = some { ag with traps := ag.traps ++ [new] } ∧ (∀ b, b ≠ a → aget s1.agents b = aget s.agents b) ∧
          (postTrap s a t).2 = postRecord s1 (trapQueueOf ag) (trapRecord s ag new t) none)
      ∧ issueTrap s e t = privWrites { (postTrap (putAgent s e.aid ends) e.aid t).2 with turn := .idle } e.aid e.iss.prods

/-- R57, R342: a pick: if a ladle is eligible, a ladle is chosen and no skip count is touched; otherwise a cohort of the highest priority, and among those one whose
skip count has reached 16 if there is one, a greatest. Someone is chosen where someone is eligible. -/
def Obligations.PickLaw : Prop :=
  ∀ (l : List (Nat × Agent)),
    (l ≠ [] → (choose l).isSome = true)
      ∧ (∀ a c, choose l = some (a, c) → ∃ ag, (a, ag) ∈ l ∧
        ((∃ p ∈ l, p.2.kind = .ladle) → ag.kind = .ladle ∧ c = [] ∧ ∀ p ∈ l, p.2.kind = .ladle → ag.age ≤ p.2.age)
          ∧ ((∀ p ∈ l, p.2.kind ≠ .ladle) → (∀ p ∈ l, p.2.prio ≤ ag.prio) ∧ c = l.filter (fun p => p.2.prio == ag.prio)
            ∧ ((∃ p ∈ c, 16 ≤ p.2.skip) → ∀ p ∈ c, p.2.skip ≤ ag.skip)
            ∧ ((∀ p ∈ c, p.2.skip < 16) → (∃ p ∈ c, p.2.yielded = false) →
              ag.yielded = false ∧ ∀ p ∈ c, p.2.yielded = false → ag.age ≤ p.2.age)))

/-- R157, R161, R175, R283, R313 to R324: the order of the checks of a clause's words: a header mark, an undefined word, an instruction that its
issuer may not hold, one above its level (a U clause of the system class too), one that a handler region may not hold. A word that an issuer
of level U may issue is no system word. -/
def Obligations.WordChecks : Prop :=
  ∀ (s : State) (ag : Agent) (h : Header) (last : Bool) (w : DWord),
    (opOf w = 0x3FF → ag.level = .u → h.cls = 5 → wordCheck s ag h last w = some .privilege)
      ∧ (opOf w = 0x3FF → ag.level ≠ .u ∨ h.cls ≠ 5 → wordCheck s ag h last w = some .clauseFormat)
      ∧ (∀ x, opOf w ≠ 0x3FF → decodeWord w = .error x → wordCheck s ag h last w = some .illegal)
      ∧ ∀ i, decodeWord w = .ok i →
        (illegalFor ag i = true → wordCheck s ag h last w = some .illegal)
          ∧ (illegalFor ag i = false → ag.level = .u → (h.cls = 5 ∨ isSystem (opcodeOf i) = true) →
            wordCheck s ag h last w = some .privilege)
          ∧ (illegalFor ag i = false → privilegeBad ag h.cls.toNat i = false → ag.kind = .ladle → ladleForbids i = true →
            wordCheck s ag h last w = some .ladleForbidden)
          ∧ (wordCheck s ag h last w = none → ag.level = .u → isSystem (opcodeOf i) = false)

end
end

