-- ==== Sys2Proof/Laws/Store.lean ====
section
/-! SUPPORT. The laws of the maps that State is made of: reading what was set, and the canonical form that every operation keeps. -/

namespace Sys2Proof.Machine

variable {α : Type} {w : Nat}

/-! ### Maps -/

@[simp] theorem aget_nil (k : Nat) : aget ([] : AMap α) k = none := rfl

/-- A key that lies below every listed key is not listed. -/
theorem aget_below {m : AMap α} {lo k : Nat} (h : keysFrom lo m = true) (hk : k < lo) : aget m k = none := by
  induction m generalizing lo with
  | nil => rfl
  | cons p t ih =>
    obtain ⟨j, a⟩ := p
    simp only [keysFrom, Bool.and_eq_true, decide_eq_true_eq] at h
    rw [aget, if_neg (by simp; omega)]
    exact ih h.2 (by omega)

/-- A lower bound on the keys may be lowered. -/
theorem keysFrom_mono {m : AMap α} {lo lo' : Nat} (h : keysFrom lo m = true) (hl : lo' ≤ lo) : keysFrom lo' m = true := by
  cases m with
  | nil => rfl
  | cons p t =>
    simp only [keysFrom, Bool.and_eq_true, decide_eq_true_eq] at h ⊢
    exact ⟨by omega, h.2⟩

/-- What is set is read back. -/
@[simp] theorem aget_aset_self (m : AMap α) (k : Nat) (a : α) : aget (aset m k a) k = some a := by
  induction m with
  | nil => simp [aset, aget]
  | cons p t ih =>
    obtain ⟨j, b⟩ := p
    rw [aset]
    split
    · simp [aget]
    · split
      · simp [aget]
      · rename_i h1 h2
        rw [aget, if_neg h2, ih]

/-- Every other key is as before. -/
@[simp] theorem aget_aset_other (m : AMap α) {k k' : Nat} (a : α) (h : k' ≠ k) : aget (aset m k a) k' = aget m k' := by
  have hk : (k == k') = false := by simpa using fun e => h e.symm
  induction m with
  | nil => simp [aset, aget, hk]
  | cons p t ih =>
    obtain ⟨j, b⟩ := p
    rw [aset]
    split
    · rw [aget, hk]; simp
    · split
      · rename_i h1 h2
        obtain rfl : j = k := by simpa using h2
        simp [aget, hk]
      · rw [aget, aget, ih]

/-- A read after a write, in one form. -/
theorem aget_aset (m : AMap α) (k k' : Nat) (a : α) : aget (aset m k a) k' = if k' = k then some a else aget m k' := by
  split
  · next h => rw [h, aget_aset_self]
  · next h => exact aget_aset_other m a h

/-- Setting keeps the keys rising. -/
theorem keysFrom_aset {m : AMap α} {lo k : Nat} (a : α) (h : keysFrom lo m = true) (hk : lo ≤ k) : keysFrom lo (aset m k a) = true := by
  induction m generalizing lo with
  | nil => simp [aset, keysFrom, hk]
  | cons p t ih =>
    obtain ⟨j, b⟩ := p
    simp only [keysFrom, Bool.and_eq_true, decide_eq_true_eq] at h
    rw [aset]
    split
    · simp only [keysFrom, Bool.and_eq_true, decide_eq_true_eq]
      exact ⟨hk, by omega, h.2⟩
    · split
      · rename_i h1 h2
        obtain rfl : j = k := by simpa using h2
        simp only [keysFrom, Bool.and_eq_true, decide_eq_true_eq]
        exact h
      · rename_i h1 h2
        simp only [keysFrom, Bool.and_eq_true, decide_eq_true_eq]
        exact ⟨h.1, ih h.2 (by have : j ≠ k := by simpa using h2
                               omega)⟩

/-- Removing entries keeps the keys rising. -/
theorem keysFrom_filter {m : AMap α} {lo : Nat} (f : Nat × α → Bool) (h : keysFrom lo m = true) : keysFrom lo (m.filter f) = true := by
  induction m generalizing lo with
  | nil => rfl
  | cons p t ih =>
    obtain ⟨j, b⟩ := p
    simp only [keysFrom, Bool.and_eq_true, decide_eq_true_eq] at h
    rw [List.filter_cons]
    split
    · simp only [keysFrom, Bool.and_eq_true, decide_eq_true_eq]
      exact ⟨h.1, ih h.2⟩
    · exact keysFrom_mono (ih h.2) (by omega)

theorem AMap_wf_aset {m : AMap α} (k : Nat) (a : α) (h : AMap.wf m = true) : AMap.wf (aset m k a) = true :=
  keysFrom_aset a h (Nat.zero_le _)

theorem AMap_wf_adel {m : AMap α} (k : Nat) (h : AMap.wf m = true) : AMap.wf (adel m k) = true := keysFrom_filter _ h

/-- Removing a key removes it, and it alone. -/
theorem aget_adel (m : AMap α) (k k' : Nat) : aget (adel m k) k' = if k' = k then none else aget m k' := by
  induction m with
  | nil => simp [adel, aget]
  | cons p t ih =>
    obtain ⟨j, b⟩ := p
    unfold adel at ih ⊢
    rw [List.filter_cons]
    by_cases hj : j = k
    · subst hj
      simp only [bne_self_eq_false, Bool.false_eq_true, if_false, ih, aget]
      by_cases hk : k' = j
      · simp [hk]
      · have : (j == k') = false := by simpa using fun e => hk e.symm
        simp [hk, this]
    · have : (j != k) = true := by simpa using hj
      simp only [this, if_true, aget, ih]
      by_cases hk : k' = k
      · subst hk; simp [hj]
      · simp [hk]

/-- Changing what stands at a key changes nothing else. -/
theorem aget_amod (m : AMap α) (k k' : Nat) (f : α → α) :
    aget (amod m k f) k' = if k' = k then (aget m k').map f else aget m k' := by
  induction m with
  | nil => simp [amod, aget]
  | cons p t ih =>
    obtain ⟨j, b⟩ := p
    unfold amod at ih ⊢
    simp only [List.map_cons]
    by_cases hj : j = k
    · subst hj
      simp only [beq_self_eq_true, if_true, aget]
      by_cases hk : j = k'
      · subst hk; simp
      · have h2 : (j == k') = false := by simpa using hk
        simp only [h2, Bool.false_eq_true, if_false, ih]
    · have h1 : (j == k) = false := by simpa using hj
      simp only [h1, Bool.false_eq_true, if_false, aget, ih]
      by_cases hk : j = k'
      · subst hk; simp [hj]
      · have h2 : (j == k') = false := by simpa using hk
        simp [h2]

/-! ### Words with zero not listed -/

@[simp] theorem sget_nil (k : Nat) : sget ([] : Sparse w) k = 0 := rfl

theorem keysFrom_sdel {m : Sparse w} {lo k : Nat} (h : keysFrom lo m = true) : keysFrom lo (sdel m k) = true := by
  induction m generalizing lo with
  | nil => rfl
  | cons p t ih =>
    obtain ⟨j, b⟩ := p
    have h' := h
    simp only [keysFrom, Bool.and_eq_true, decide_eq_true_eq] at h
    rw [sdel]
    split
    · exact keysFrom_mono h.2 (by omega)
    · split
      · exact h'
      · simp only [keysFrom, Bool.and_eq_true, decide_eq_true_eq]
        exact ⟨h.1, ih h.2⟩

theorem noZero_sdel {m : Sparse w} {k : Nat} (h : noZero m = true) : noZero (sdel m k) = true := by
  induction m with
  | nil => rfl
  | cons p t ih =>
    obtain ⟨j, b⟩ := p
    have h' := h
    simp only [noZero, List.all_cons, Bool.and_eq_true] at h
    rw [sdel]
    split
    · exact h.2
    · split
      · exact h'
      · simp only [noZero, List.all_cons, Bool.and_eq_true]
        exact ⟨h.1, ih h.2⟩

theorem noZero_aset {m : Sparse w} {k : Nat} {v : BitVec w} (h : noZero m = true) (hv : v ≠ 0) : noZero (aset m k v) = true := by
  have hb : (v != 0) = true := by simpa using hv
  induction m with
  | nil => simpa [noZero, aset] using hv
  | cons p t ih =>
    obtain ⟨j, b⟩ := p
    simp only [noZero, List.all_cons, Bool.and_eq_true] at h
    rw [aset]
    split
    · simp only [noZero, List.all_cons, Bool.and_eq_true]
      exact ⟨hb, h⟩
    · split
      · simp only [noZero, List.all_cons, Bool.and_eq_true]
        exact ⟨hb, h.2⟩
      · simp only [noZero, List.all_cons, Bool.and_eq_true]
        exact ⟨h.1, ih h.2⟩

theorem noZero_filter {m : Sparse w} (f : Nat × BitVec w → Bool) (h : noZero m = true) : noZero (m.filter f) = true := by
  unfold noZero at h ⊢
  rw [List.all_eq_true] at h ⊢
  exact fun x hx => h x (List.mem_of_mem_filter hx)

/-- Setting a word keeps the canonical form. -/
theorem Sparse_wf_sset {m : Sparse w} (k : Nat) (v : BitVec w) (h : Sparse.wf m = true) : Sparse.wf (sset m k v) = true := by
  simp only [Sparse.wf, Bool.and_eq_true] at h ⊢
  unfold sset
  split
  · exact ⟨keysFrom_sdel h.1, noZero_sdel h.2⟩
  · next hv => exact ⟨keysFrom_aset v h.1 (Nat.zero_le _), noZero_aset h.2 (by simpa using hv)⟩

/-- Setting consecutive words keeps it. -/
theorem Sparse_wf_ssetN {m : Sparse w} (k : Nat) (l : List (BitVec w)) (h : Sparse.wf m = true) : Sparse.wf (ssetN m k l) = true := by
  induction l generalizing m k with
  | nil => exact h
  | cons b t ih => exact ih _ (Sparse_wf_sset k b h)

/-- Removing entries keeps it. -/
theorem Sparse_wf_filter {m : Sparse w} (f : Nat × BitVec w → Bool) (h : Sparse.wf m = true) : Sparse.wf (m.filter f) = true := by
  simp only [Sparse.wf, Bool.and_eq_true] at h ⊢
  exact ⟨keysFrom_filter f h.1, noZero_filter f h.2⟩

theorem aget_sdel {m : Sparse w} {lo k : Nat} (h : keysFrom lo m = true) (k' : Nat) :
    aget (sdel m k) k' = if k' = k then none else aget m k' := by
  induction m generalizing lo with
  | nil => simp [sdel]
  | cons p t ih =>
    obtain ⟨j, b⟩ := p
    simp only [keysFrom, Bool.and_eq_true, decide_eq_true_eq] at h
    rw [sdel]
    by_cases hj : j = k
    · subst hj
      rw [if_pos (by simp)]
      by_cases hk : k' = j
      · subst hk
        rw [if_pos rfl]
        exact aget_below h.2 (by omega)
      · rw [if_neg hk, aget, if_neg (by simpa using fun e => hk e.symm)]
    · rw [if_neg (by simpa using hj)]
      split
      · next hlt =>
        by_cases hk : k' = k
        · subst hk
          rw [if_pos rfl, aget, if_neg (by simpa using hj)]
          exact aget_below h.2 (by omega)
        · rw [if_neg hk]
      · rw [aget, aget, ih h.2]
        by_cases hk : k' = k
        · subst hk; simp [hj]
        · simp [hk]

/-- A word that is set is read back, and every other word reads as before. -/
theorem sget_sset {m : Sparse w} (h : Sparse.wf m = true) (k k' : Nat) (v : BitVec w) :
    sget (sset m k v) k' = if k' = k then v else sget m k' := by
  simp only [Sparse.wf, Bool.and_eq_true] at h
  unfold sset sget
  split
  · next hv =>
    obtain rfl : v = 0 := by simpa using hv
    rw [aget_sdel h.1]
    split <;> rfl
  · rw [aget_aset]
    split <;> rfl

/-! ### Bytes -/

@[simp] theorem length_toBytes (v n : Nat) : (toBytes v n).length = n := by
  induction n generalizing v with
  | zero => rfl
  | succ n ih => simp [toBytes, ih]

/-- The bytes of a number give the number back, modulo what they hold. -/
theorem ofBytes_toBytes (v n : Nat) : ofBytes (toBytes v n) = v % 256 ^ n := by
  induction n generalizing v with
  | zero => simp [toBytes, ofBytes, Nat.mod_one]
  | succ n ih =>
    simp only [toBytes, ofBytes, ih, BitVec.toNat_ofNat]
    have h : 256 ^ (n + 1) = 256 * 256 ^ n := by rw [Nat.pow_succ, Nat.mul_comm]
    rw [h, Nat.mod_mul]

theorem length_sgetN (m : Sparse w) (k n : Nat) : (sgetN m k n).length = n := by
  induction n generalizing k with
  | zero => rfl
  | succ n ih => simp [sgetN, ih]

end Sys2Proof.Machine
end

