-- ==== Sys2Proof/Laws/CanonMemory.lean ====
section
/-! SUPPORT. Every operation keeps the canonical form of memory: memory, translation and the words' shared operations. The patterns let `grind` use each lemma where its
operation stands. -/

namespace Sys2Proof.Machine

set_option Elab.async false

/-- Memory keeps its canonical form in a state. -/
def Canonical (s : State) : Prop := Memory.wf s.mem.cells = true

theorem foldl_canonical {α : Type} {f : State → α → State} {l : List α} {s : State} (hf : ∀ s x, Canonical s → Canonical (f s x)) (h : Canonical s) :
    Canonical (l.foldl f s) := by
  induction l generalizing s with
  | nil => exact h
  | cons a t ih => exact ih (hf _ _ h)

theorem next_canonical {a b : State} (h : (Host.Outcome.next a : Out) = .next b) (hc : Canonical a) : Canonical b := by
  injection h with h
  rwa [← h]

/-! Sys2Proof/Machine/Memory.lean -/

theorem rawWrite_canonical {s : State} (loc : Nat) (b : Byte) (hc : Canonical s) : Canonical (rawWrite s loc b) := Sparse_wf_sset _ _ hc
grind_pattern rawWrite_canonical => rawWrite s loc b

theorem rawWriteN_canonical {s : State} (loc : Nat) (l) (hc : Canonical s) : Canonical (rawWriteN s loc l) := by
  induction l generalizing s loc with
  | nil => exact hc
  | cons a t ih =>
    unfold rawWriteN; grind [Canonical]
grind_pattern rawWriteN_canonical => rawWriteN s loc l

theorem pltWrite_canonical {s : State} (page : Nat) (e : BitVec 128) (hc : Canonical s) : Canonical (pltWrite s page e) := by
  grind [pltWrite, Canonical]
grind_pattern pltWrite_canonical => pltWrite s page e

theorem locInsert_canonical {s : State} (die page : Nat) (e : BitVec 128) (hc : Canonical s) : Canonical (locInsert s die page e) := by
  grind [locInsert, Canonical]
grind_pattern locInsert_canonical => locInsert s die page e

theorem locDrop_canonical {s : State} (page : Nat) (hc : Canonical s) : Canonical (locDrop s page) := by
  exact hc
grind_pattern locDrop_canonical => locDrop s page

theorem locateFill_canonical {s : State} (die page : Nat) (hc : Canonical s) : Canonical (locateFill s die page) := by
  grind [locateFill, Canonical]
grind_pattern locateFill_canonical => locateFill s die page

theorem setPageEntry_canonical {s : State} (page : Nat) (e : BitVec 128) (hc : Canonical s) : Canonical (setPageEntry s page e) := by
  exact hc
grind_pattern setPageEntry_canonical => setPageEntry s page e

theorem countPage_canonical {s : State} (page src : Nat) (hc : Canonical s) : Canonical (countPage s page src) := by
  grind [countPage, Canonical]
grind_pattern countPage_canonical => countPage s page src

theorem retag_canonical {s : State} (n tweak line : Nat) (hc : Canonical s) : Canonical (retag s n tweak line) := by
  grind [retag, Canonical]
grind_pattern retag_canonical => retag s n tweak line

theorem spaWrite_canonical {s : State} (n spa : Nat) (b : Byte) (hc : Canonical s) : Canonical (spaWrite s n spa b) := by
  grind [spaWrite, Canonical]
grind_pattern spaWrite_canonical => spaWrite s n spa b

theorem spaWriteBytes_canonical {s : State} (n spa : Nat) (l) (hc : Canonical s) : Canonical (spaWriteBytes s n spa l) := by
  induction l generalizing s n spa with
  | nil => exact hc
  | cons a t ih =>
    unfold spaWriteBytes; grind [Canonical]
grind_pattern spaWriteBytes_canonical => spaWriteBytes s n spa l

theorem clearPoison_canonical {s : State} (spa len : Nat) (hc : Canonical s) : Canonical (clearPoison s spa len) := by
  grind [clearPoison, Canonical]
grind_pattern clearPoison_canonical => clearPoison s spa len

theorem breakReservations_canonical {s : State} (spa len : Nat) (hc : Canonical s) : Canonical (breakReservations s spa len) := by
  exact hc
grind_pattern breakReservations_canonical => breakReservations s spa len

theorem l1Forget_canonical {s : State} (spa : Nat) (len : Nat) (hc : Canonical s) : Canonical (l1Forget s spa len) := by
  grind [l1Forget, Canonical, foldl_canonical]
grind_pattern l1Forget_canonical => l1Forget s spa len

theorem l1Clear_canonical {s : State} (core : Nat) (hc : Canonical s) : Canonical (l1Clear s core) := by
  grind [l1Clear, Canonical, foldl_canonical]
grind_pattern l1Clear_canonical => l1Clear s core

theorem acquireBy_canonical {s : State} (scope : Nat) (p : Nat → Agent → Bool) (hc : Canonical s) : Canonical (acquireBy s scope p) := by
  grind [acquireBy, Canonical, foldl_canonical]
grind_pattern acquireBy_canonical => acquireBy s scope p

theorem keepLine_canonical {s : State} (l : Nat) (data : List Byte) (hc : Canonical s) : Canonical (keepLine s l data) := by
  grind [keepLine, Canonical, foldl_canonical]
grind_pattern keepLine_canonical => keepLine s l data

theorem keepCode_canonical {s : State} (n : Nat) (spa : Nat) (len : Nat) (hc : Canonical s) : Canonical (keepCode s n spa len) := by
  grind [keepCode, Canonical, foldl_canonical]
grind_pattern keepCode_canonical => keepCode s n spa len

theorem dropOld_canonical {s : State} (launch : Nat) (p : Nat → Bool) (hc : Canonical s) : Canonical (dropOld s launch p) := by
  grind [dropOld, Canonical, foldl_canonical]
grind_pattern dropOld_canonical => dropOld s launch p

theorem spaWriteN_canonical {s : State} (n spa : Nat) (bs : List Byte) (hc : Canonical s) : Canonical (spaWriteN s n spa bs) := by
  grind [spaWriteN, Canonical]
grind_pattern spaWriteN_canonical => spaWriteN s n spa bs

theorem countError_canonical {s : State} (esrc : Nat) (hc : Canonical s) : Canonical (countError s esrc) := by
  grind [countError, Canonical]
grind_pattern countError_canonical => countError s esrc

theorem addPoison_canonical {s : State} (part : Nat) (l2 : Bool) (hc : Canonical s) : Canonical (addPoison s part l2) := by
  grind [addPoison, Canonical, foldl_canonical]
grind_pattern addPoison_canonical => addPoison s part l2

theorem findErrors_canonical {s : State} (spa : Nat) (len : Nat) (mem : Bool) (hc : Canonical s) : Canonical (findErrors s spa len mem) := by
  grind [findErrors, Canonical, foldl_canonical]
grind_pattern findErrors_canonical => findErrors s spa len mem

theorem setDir_canonical {s : State} (line : Nat) (d : Option DirState) (hc : Canonical s) : Canonical (setDir s line d) := by
  unfold setDir
  (repeat' split) <;> exact hc
grind_pattern setDir_canonical => setDir s line d

theorem count_canonical {s : State} (who : Asker) (page : Nat) (hc : Canonical s) : Canonical (count s who page) := by
  grind [count, Canonical]
grind_pattern count_canonical => count s who page

theorem touchHc_canonical {s : State} (who : Asker) (k : AccKind) (spa : Nat) (hc : Canonical s) : Canonical (touchHc s who k spa) := by
  grind [touchHc, Canonical]
grind_pattern touchHc_canonical => touchHc s who k spa

theorem swPut_canonical {s : State} (c : SwLine) (hc : Canonical s) : Canonical (swPut s c) := by
  exact hc
grind_pattern swPut_canonical => swPut s c

theorem swDrop_canonical {s : State} (die line : Nat) (hc : Canonical s) : Canonical (swDrop s die line) := by
  exact hc
grind_pattern swDrop_canonical => swDrop s die line

theorem swFetch_canonical {s : State} (who : Asker) (n line : Nat) (hc : Canonical s) : Canonical (swFetch s who n line).1 := by
  grind [swFetch, Canonical]
grind_pattern swFetch_canonical => swFetch s who n line

theorem setTokens_canonical {s : State} (port c : Nat) (v : Int) (hc : Canonical s) : Canonical (setTokens s port c v) := by
  exact hc
grind_pattern setTokens_canonical => setTokens s port c v

theorem starve_canonical {s : State} (port : Nat) (who : Nat) (hc : Canonical s) : Canonical (starve s port who) := by
  grind [starve, Canonical, foldl_canonical]
grind_pattern starve_canonical => starve s port who

theorem sated_canonical {s : State} (port : Nat) (who : Nat) (hc : Canonical s) : Canonical (sated s port who) := by
  grind [sated, Canonical, foldl_canonical]
grind_pattern sated_canonical => sated s port who

theorem takeToken_canonical {s : State} (port : Nat) (p : Payer) (hc : Canonical s) : Canonical (takeToken s port p).2 := by
  grind [takeToken, Canonical, foldl_canonical]
grind_pattern takeToken_canonical => takeToken s port p

theorem payPorts_canonical {s0 s : State} (p : Payer) (l : List Nat) (h0 : Canonical s0) (hc : Canonical s) : Canonical (payPorts s0 p l s).2 := by
  induction l generalizing s with
  | nil => exact hc
  | cons a t ih => unfold payPorts; grind [Canonical]
grind_pattern payPorts_canonical => payPorts s0 p l s

theorem chargeForced_canonical {s : State} (port c n : Nat) (hc : Canonical s) : Canonical (chargeForced s port c n) := by
  grind [chargeForced, Canonical]
grind_pattern chargeForced_canonical => chargeForced s port c n

theorem chargeWho_canonical {s : State} (who : Asker) (line : Nat) (n : Nat) (hc : Canonical s) : Canonical (chargeWho s who line n) := by
  grind [chargeWho, Canonical, foldl_canonical]
grind_pattern chargeWho_canonical => chargeWho s who line n

theorem dirtied_canonical {s : State} (who : Asker) (line : Nat) (hc : Canonical s) : Canonical (dirtied s who line) := by
  grind [dirtied, Canonical, foldl_canonical]
grind_pattern dirtied_canonical => dirtied s who line

theorem chargeBack_canonical {s : State} (die : Nat) (line : Nat) (hc : Canonical s) : Canonical (chargeBack s die line) := by
  grind [chargeBack, Canonical, foldl_canonical]
grind_pattern chargeBack_canonical => chargeBack s die line

theorem putForward_canonical {s : State} (f : Forward) (hc : Canonical s) : Canonical (putForward s f) := by
  exact hc
grind_pattern putForward_canonical => putForward s f

theorem holdAccess_canonical {s : State} (who : Holder) (write : Bool) (runs : List (Nat × Nat)) (hc : Canonical s) : Canonical (holdAccess s who write runs) := by
  grind [holdAccess, Canonical, foldl_canonical]
grind_pattern holdAccess_canonical => holdAccess s who write runs

/-! Sys2Proof/Machine/Atomics.lean -/

theorem holdRecord_canonical {s : State} (q : RecQueue) (r : BitVec 512) (g : Option Nat) (hc : Canonical s) : Canonical (holdRecord s q r g) := by
  grind [holdRecord, Canonical]
grind_pattern holdRecord_canonical => holdRecord s q r g

theorem freshId_canonical {s : State} (hc : Canonical s) : Canonical (freshId s).2 := by
  grind [freshId, Canonical]
grind_pattern freshId_canonical => freshId s

theorem recordId_canonical {s : State}  (hc : Canonical s) : Canonical (recordId s).2 := by
  grind [recordId, Canonical, foldl_canonical]
grind_pattern recordId_canonical => recordId s

theorem freeNat_canonical {s : State} (hc : Canonical s) : Canonical (freeNat s).2 := by
  grind [freeNat, Canonical]
grind_pattern freeNat_canonical => freeNat s

theorem hubErrorRecord_canonical {s : State} (ctx esrc core slot queue addr : Nat) (hc : Canonical s) : Canonical (hubErrorRecord s ctx esrc core slot queue addr) := by
  grind [hubErrorRecord, Canonical]
grind_pattern hubErrorRecord_canonical => hubErrorRecord s ctx esrc core slot queue addr

theorem dirAfterMerge_canonical {s : State} (line : Nat) (hc : Canonical s) : Canonical (dirAfterMerge s line) := by
  grind [dirAfterMerge, Canonical]
grind_pattern dirAfterMerge_canonical => dirAfterMerge s line

theorem mergeEntry_canonical {s : State} (e : RedEntry) (hc : Canonical s) : Canonical (mergeEntry s e) := by
  grind [mergeEntry, Canonical, foldl_canonical]
grind_pattern mergeEntry_canonical => mergeEntry s e

theorem mergeLine_canonical {s : State} (line : Nat) (hc : Canonical s) : Canonical (mergeLine s line) := by
  unfold mergeLine
  refine foldl_canonical (fun _ _ h => ?_) hc
  grind [Canonical, foldl_canonical]
grind_pattern mergeLine_canonical => mergeLine s line

theorem mergeCore_canonical {s : State} (core : Nat) (sel : RedEntry → Bool) (hc : Canonical s) : Canonical (mergeCore s core sel) := by
  unfold mergeCore
  refine foldl_canonical (fun _ _ h => ?_) hc
  grind [Canonical, foldl_canonical]
grind_pattern mergeCore_canonical => mergeCore s core sel

theorem mergeFor_canonical {s : State} (who : Asker) (core : Nat) (sel : RedEntry → Bool) (hc : Canonical s) : Canonical (mergeFor who s core sel) := by
  grind [mergeFor, Canonical, foldl_canonical]
grind_pattern mergeFor_canonical => mergeFor who s core sel

theorem errorsBack_canonical {s : State} (line : Nat) (hc : Canonical s) : Canonical (errorsBack s line) := by
  grind [errorsBack, Canonical, foldl_canonical]
grind_pattern errorsBack_canonical => errorsBack s line

theorem freshCheck_canonical {s : State} (line : Nat) (hc : Canonical s) : Canonical (freshCheck s line) := by
  grind [freshCheck, Canonical, foldl_canonical]
grind_pattern freshCheck_canonical => freshCheck s line

theorem lineBack_canonical {s : State} (die : Nat) (line : Nat) (hc : Canonical s) : Canonical (lineBack s die line) := by
  grind [lineBack, Canonical, foldl_canonical]
grind_pattern lineBack_canonical => lineBack s die line

theorem dirtyBack_canonical {s : State} (line : Nat) (hc : Canonical s) : Canonical (dirtyBack s line) := by
  grind [dirtyBack, Canonical, foldl_canonical]
grind_pattern dirtyBack_canonical => dirtyBack s line

theorem swFlush_canonical {s : State} (die : Nat) (line : Nat) (hc : Canonical s) : Canonical (swFlush s die line) := by
  grind [swFlush, Canonical, foldl_canonical]
grind_pattern swFlush_canonical => swFlush s die line

theorem l1Drop_canonical {s : State} (die : Nat) (line : Nat) (hc : Canonical s) : Canonical (l1Drop s die line) := by
  grind [l1Drop, Canonical, foldl_canonical]
grind_pattern l1Drop_canonical => l1Drop s die line

theorem swGone_canonical {s : State} (die : Nat) (line : Nat) (hc : Canonical s) : Canonical (swGone s die line) := by
  grind [swGone, Canonical, foldl_canonical]
grind_pattern swGone_canonical => swGone s die line

theorem recallLine_canonical {s : State} (line : Nat) (hc : Canonical s) : Canonical (recallLine s line) := by
  grind [recallLine, Canonical]
grind_pattern recallLine_canonical => recallLine s line

theorem l2Evict_canonical {s : State} (die line : Nat) (hc : Canonical s) : Canonical (l2Evict s die line) := by
  have h1 := swGone_canonical die line hc
  unfold l2Evict
  generalize swGone s die line = s1 at h1
  dsimp only
  (repeat' split) <;> first | exact h1 | exact setDir_canonical _ _ h1 | exact setDir_canonical _ _ (lineBack_canonical _ _ h1)
grind_pattern l2Evict_canonical => l2Evict s die line

theorem takeWay_canonical {s : State} (die : Nat) (line : Nat) (way : Nat) (low : Bool) (hc : Canonical s) : Canonical (takeWay s die line way low) := by
  grind [takeWay, Canonical, foldl_canonical]
grind_pattern takeWay_canonical => takeWay s die line way low

theorem l2Room_canonical {s : State} (who : Asker) (line : Nat) (hc : Canonical s) : Canonical (l2Room s who line) := by
  grind [l2Room, Canonical, foldl_canonical]
grind_pattern l2Room_canonical => l2Room s who line

theorem dirRoom_canonical {s : State} (who : Asker) (line : Nat) (hc : Canonical s) : Canonical (dirRoom s who line) := by
  grind [dirRoom, Canonical, foldl_canonical]
grind_pattern dirRoom_canonical => dirRoom s who line

theorem touchLine_canonical {s : State} (who : Asker) (k : AccKind) (line : Nat) (hc : Canonical s) : Canonical (touchLine who k s line) := by
  grind [touchLine, Canonical, foldl_canonical]
grind_pattern touchLine_canonical => touchLine who k s line

theorem touchLines_canonical {s : State} (who : Asker) (k : AccKind) (spa len : Nat) (hc : Canonical s) : Canonical (touchLines s who k spa len) := by
  unfold touchLines
  refine foldl_canonical (fun _ _ h => ?_) hc
  grind [Canonical, foldl_canonical]
grind_pattern touchLines_canonical => touchLines s who k spa len

theorem touchRead_canonical {s : State} (who : Asker) (k : AccKind) (spa : Nat) (len : Nat) (hc : Canonical s) : Canonical (touchRead s who k spa len) := by
  grind [touchRead, Canonical, foldl_canonical]
grind_pattern touchRead_canonical => touchRead s who k spa len

theorem bufferRed_canonical {s : State} (who : Asker) (core : Nat) (ctx : Nat) (line : Nat) (op : Nat) (t : BitVec 4) (ofs : Nat) (d : DWord) (scope : Nat) (key : BitVec 6) (hc : Canonical s) : Canonical (bufferRed s who core ctx line op t ofs d scope key) := by
  grind [bufferRed, Canonical, foldl_canonical]
grind_pattern bufferRed_canonical => bufferRed s who core ctx line op t ofs d scope key

theorem hubRead_canonical {s : State} (key spa len : Nat) (hc : Canonical s) : Canonical (hubRead s key spa len).2 := by
  grind [hubRead, Canonical]
grind_pattern hubRead_canonical => hubRead s key spa len

theorem hubWrite_canonical {s : State} (key spa : Nat) (bs : List Byte) (hc : Canonical s) : Canonical (hubWrite s key spa bs) := by
  grind [hubWrite, Canonical]
grind_pattern hubWrite_canonical => hubWrite s key spa bs

/-! Sys2Proof/Machine/Operands.lean -/

theorem putAgent_canonical {s : State} (a : Nat) (ag : Agent) (hc : Canonical s) : Canonical (putAgent s a ag) := by
  exact hc
grind_pattern putAgent_canonical => putAgent s a ag

theorem modAgent_canonical {s : State} (a : Nat) (f : Agent → Agent) (hc : Canonical s) : Canonical (modAgent s a f) := by
  grind [modAgent, Canonical]
grind_pattern modAgent_canonical => modAgent s a f

theorem modBlock_canonical {s : State} (b : Nat) (f : Block → Block) (hc : Canonical s) : Canonical (modBlock s b f) := by
  grind [modBlock, Canonical]
grind_pattern modBlock_canonical => modBlock s b f

theorem putQueue_canonical {s : State} (q : Nat) (x : Queue) (hc : Canonical s) : Canonical (putQueue s q x) := by
  exact hc
grind_pattern putQueue_canonical => putQueue s q x

theorem chargeQueue_canonical {s : State} (q n : Nat) (hc : Canonical s) : Canonical (chargeQueue s q n) := by
  grind [chargeQueue, Canonical]
grind_pattern chargeQueue_canonical => chargeQueue s q n

theorem charge_canonical {s : State} (core q n : Nat) (hc : Canonical s) : Canonical (charge s core q n) := by
  grind [charge, Canonical]
grind_pattern charge_canonical => charge s core q n

theorem finish_canonical {s : State} (e : Env) (cost : Nat) (ps : List Producer) (hc : Canonical s) : Canonical (finish s e cost ps) := by
  grind [finish, Canonical]
grind_pattern finish_canonical => finish s e cost ps

/-! Sys2Proof/Machine/Translate.lean -/

theorem tableWalk_canonical {s : State} (rd : EntryRead) (inv : Nat → Bool → WFault) (stage2 : Bool) (vmid : BitVec 8) (root va : Nat)
    (hr : ∀ s n a, Canonical s → Canonical (rd s n a).2) (hc : Canonical s) : Canonical (tableWalk s rd inv stage2 vmid root va).2 := by
  have step : ∀ {s n a x s1}, Canonical s → rd s n a = (x, s1) → Canonical s1 := fun {s n a x s1} h e => by have := hr s n a h; rwa [e] at this
  unfold tableWalk
  (repeat' (first | split | dsimp only)) <;> first
    | exact hc
    | exact step hc (by assumption)
    | exact step (step hc (by assumption)) (by assumption)
    | exact step (step (step hc (by assumption)) (by assumption)) (by assumption)

theorem entryAt_canonical {s : State} (die : Nat) (t : Space) (level : Nat) (spa : Nat) (key : Nat) (hc : Canonical s) : Canonical (entryAt s die t level spa key).2 := by
  grind [entryAt, Canonical, foldl_canonical]
grind_pattern entryAt_canonical => entryAt s die t level spa key

theorem walk2_canonical {s : State} (die : Nat) (t : Space) (gpa : Nat) (hc : Canonical s) : Canonical (walk2 s die t gpa).2 := by
  unfold walk2
  dsimp only
  split
  · exact hc
  refine tableWalk_canonical _ _ _ _ _ _ (fun s n a h => ?_) hc
  grind [Canonical]
grind_pattern walk2_canonical => walk2 s die t gpa

theorem setEntry_canonical {s : State} (die : Nat) (t : Space) (l : LeafAt) (bits : Nat) (hc : Canonical s) : Canonical (setEntry s die t l bits).2 := by
  grind [setEntry, Canonical, foldl_canonical]
grind_pattern setEntry_canonical => setEntry s die t l bits

theorem setHeld_canonical {s : State} (die : Nat) (key : Nat) (spa : Nat) (old : Nat) (new : Nat) (hc : Canonical s) : Canonical (setHeld s die key spa old new) := by
  grind [setHeld, Canonical, foldl_canonical]
grind_pattern setHeld_canonical => setHeld s die key spa old new

theorem stage2_canonical {s : State} (die : Nat) (t : Space) (gpa : Nat) (hc : Canonical s) : Canonical (stage2 s die t gpa).2 := by
  grind [stage2, Canonical]
grind_pattern stage2_canonical => stage2 s die t gpa

theorem holdTable_canonical {s : State} (die : Nat) (t : Space) (ea : Nat) (ent : Nat) (l : LeafAt) (hc : Canonical s) : Canonical (holdTable s die t ea ent l) := by
  grind [holdTable, Canonical, foldl_canonical]
grind_pattern holdTable_canonical => holdTable s die t ea ent l

theorem tableLeaf_canonical {s : State} (die : Nat) (t : Space) (level : Nat) (ea : Nat) (set : Bool) (hc : Canonical s) : Canonical (tableLeaf s die t level ea set).2 := by
  grind [tableLeaf, Canonical, foldl_canonical]
grind_pattern tableLeaf_canonical => tableLeaf s die t level ea set

theorem readStage1_canonical (die : Nat) (t : Space) (set : Bool) (s : State) (n a : Nat) (h : Canonical s) :
    Canonical (readStage1 die t set s n a).2 := by
  grind [readStage1, Canonical]

theorem setStage1_canonical {s : State} (die : Nat) (t : Space) (l1 : LeafAt) (bits : Nat) (hc : Canonical s) : Canonical (setStage1 s die t l1 bits).2 := by
  grind [setStage1, Canonical]
grind_pattern setStage1_canonical => setStage1 s die t l1 bits

theorem walkPair_canonical {s : State} (die : Nat) (t : Space) (va : Nat) (set : Bool) (hc : Canonical s) : Canonical (walkPair s die t va set).2 := by
  have := fun i b v r a => tableWalk_canonical (s := s) (readStage1 die t set) i b v r a (readStage1_canonical die t set) hc
  grind [walkPair]
grind_pattern walkPair_canonical => walkPair s die t va set

theorem walkOnce_canonical {s : State} (die : Nat) (t : Space) (va : Nat) (need : Need) (ad : Bool) (hc : Canonical s) : Canonical (walkOnce s die t va need ad).2 := by
  grind [walkOnce, Canonical, foldl_canonical]
grind_pattern walkOnce_canonical => walkOnce s die t va need ad

theorem fullWalk_canonical {s : State} (die : Nat) (t : Space) (va : Nat) (need : Need) (ad : Bool) (hc : Canonical s) :
    Canonical (fullWalk s die t va need ad).2 := by
  grind [fullWalk]
grind_pattern fullWalk_canonical => fullWalk s die t va need ad

theorem walk1_canonical {s : State} (die : Nat) (t : Space) (va : Nat) (hc : Canonical s) : Canonical (walk1 s die t va).2 := by
  have := fun i b v r a => tableWalk_canonical (s := s) (readStage1 die t false) i b v r a (readStage1_canonical die t false) hc
  grind [walk1]
grind_pattern walk1_canonical => walk1 s die t va

theorem gpaXlat_canonical {s : State} (t : Space) (gpa : Nat) (need : Need) (hc : Canonical s) : Canonical (gpaXlat s t gpa need).2 := by
  grind [gpaXlat, Canonical]
grind_pattern gpaXlat_canonical => gpaXlat s t gpa need

theorem tlbInsert_canonical {s : State} (place size : Nat) (e : TlbEntry) (hc : Canonical s) : Canonical (tlbInsert s place size e) := by
  grind [tlbInsert, Canonical]
grind_pattern tlbInsert_canonical => tlbInsert s place size e

theorem dropWalks_canonical {s : State} (die : Nat) (t : Space) (hc : Canonical s) : Canonical (dropWalks s die t) := by
  grind [dropWalks, Canonical, foldl_canonical]
grind_pattern dropWalks_canonical => dropWalks s die t

theorem freshWalk_canonical {s : State} (die : Nat) (t : Space) (va : Nat) (need : Need) (ad : Bool) (hc : Canonical s) :
    Canonical (freshWalk s die t va need ad).2 := by
  unfold freshWalk
  exact fullWalk_canonical die t va need ad hc
grind_pattern freshWalk_canonical => freshWalk s die t va need ad

theorem decidedWalk_canonical {s : State} (cached : Bool) (die : Nat) (t : Space) (va : Nat) (need : Need) (ad : Bool) (hc : Canonical s) :
    Canonical (decidedWalk s cached die t va need ad).2 := by
  grind [decidedWalk, Canonical]
grind_pattern decidedWalk_canonical => decidedWalk s cached die t va need ad

theorem translate_canonical {s : State} (core : Nat) (t : Space) (va : Nat) (need : Need) (ad : Bool) (hc : Canonical s) : Canonical (translate s core t va need ad).2 := by
  grind [translate, Canonical]
grind_pattern translate_canonical => translate s core t va need ad

theorem hubTranslate_canonical {s : State} (t : Space) (va : Nat) (need : Need) (hc : Canonical s) : Canonical (hubTranslate s t va need).2 := by
  grind [hubTranslate, Canonical]
grind_pattern hubTranslate_canonical => hubTranslate s t va need

theorem agentTranslate_canonical {s : State} (core : Nat) (t : Space) (va : Nat) (need : Need) (ad : Bool) (hc : Canonical s) : Canonical (agentTranslate s core t va need ad).2 := by
  grind [agentTranslate, Canonical]
grind_pattern agentTranslate_canonical => agentTranslate s core t va need ad

theorem dropPages_canonical {s : State} (core : Nat) (t : Space) (va : Nat) (n : Nat) (hc : Canonical s) : Canonical (dropPages s core t va n) := by
  grind [dropPages, Canonical, foldl_canonical]
grind_pattern dropPages_canonical => dropPages s core t va n

theorem hartTranslate_canonical {s : State} (h : Nat) (t : Space) (va : Nat) (need : Need) (ad : Bool) (hc : Canonical s) : Canonical (hartTranslate s h t va need ad).2 := by
  grind [hartTranslate, Canonical]
grind_pattern hartTranslate_canonical => hartTranslate s h t va need ad

theorem tlbRemove_canonical {s : State} (sel : TlbEntry → Bool) (vmid : Option (BitVec 8)) (hc : Canonical s) : Canonical (tlbRemove s sel vmid) := by
  exact hc
grind_pattern tlbRemove_canonical => tlbRemove s sel vmid

/-! Sys2Proof/Machine/Ops.lean -/

theorem wakeLane_canonical {s : State} (a l : Nat) (hc : Canonical s) : Canonical (wakeLane s a l) := by
  grind [wakeLane, Canonical]
grind_pattern wakeLane_canonical => wakeLane s a l

theorem wakeWaiter_canonical {s : State} (w : WaitEntry) (ret : Nat) (hc : Canonical s) : Canonical (wakeWaiter s w ret) := by
  grind [wakeWaiter, Canonical]
grind_pattern wakeWaiter_canonical => wakeWaiter s w ret

theorem wakeSpa_canonical {s : State} (spa : Nat) (hc : Canonical s) : Canonical (wakeSpa s spa) := by
  unfold wakeSpa
  refine foldl_canonical (fun _ _ h => ?_) hc
  grind [Canonical, foldl_canonical]
grind_pattern wakeSpa_canonical => wakeSpa s spa

theorem wakeKey_canonical {s : State} (va : DWord) (vmid : BitVec 8) (asid : BitVec 16) (n : Nat) (hc : Canonical s) : Canonical (wakeKey s va vmid asid n).2 := by
  grind [wakeKey, Canonical, foldl_canonical]
grind_pattern wakeKey_canonical => wakeKey s va vmid asid n

theorem recPlace_canonical {s : State} (q : RecQueue) (addr : Nat) (hc : Canonical s) : Canonical (recPlace s q addr).2 := by
  unfold recPlace
  (repeat' split) <;> first | exact hc | grind [Canonical]
grind_pattern recPlace_canonical => recPlace s q addr

theorem markPosted_canonical {s : State} (g : Option Nat) (hc : Canonical s) : Canonical (markPosted s g) := by
  unfold markPosted
  (repeat' split) <;> exact hc
grind_pattern markPosted_canonical => markPosted s g

theorem putRecStore_canonical {s : State} (x : RecStore) (hc : Canonical s) : Canonical (putRecStore s x) := by
  exact hc
grind_pattern putRecStore_canonical => putRecStore s x

theorem bumpStat_canonical {s : State} (vmid k n : Nat) (hc : Canonical s) : Canonical (bumpStat s vmid k n) := by
  grind [bumpStat, Canonical]
grind_pattern bumpStat_canonical => bumpStat s vmid k n

theorem countPosted_canonical {s : State} (q : RecQueue) (r : BitVec 512) (hc : Canonical s) : Canonical (countPosted s q r) := by
  grind [countPosted, Canonical, foldl_canonical]
grind_pattern countPosted_canonical => countPosted s q r

theorem hubMake_canonical {s : State} (key : Nat) (spa : Nat) (wake : Bool) (bs : List Byte) (hc : Canonical s) : Canonical (hubMake s key spa wake bs) := by
  grind [hubMake, Canonical, foldl_canonical]
grind_pattern hubMake_canonical => hubMake s key spa wake bs

theorem hubPut_canonical {s : State} (key : Nat) (spa : Nat) (wake : Bool) (bs : List Byte) (hc : Canonical s) : Canonical (hubPut s key spa wake bs).2 := by
  grind [hubPut, Canonical, foldl_canonical]
grind_pattern hubPut_canonical => hubPut s key spa wake bs

theorem putsGo_canonical {s : State} (l : List HubWrite) (hc : Canonical s) : Canonical (putsGo l s) := by
  induction l generalizing s with
  | nil => exact hc
  | cons a t ih => unfold putsGo; (repeat' split) <;> grind [Canonical]
grind_pattern putsGo_canonical => putsGo l s

theorem sigPut_canonical {s : State} (p : HubWrite) (hc : Canonical s) : Canonical (sigPut s p) := putsGo_canonical _ hc
grind_pattern sigPut_canonical => sigPut s p

theorem sigWrite_canonical {s : State} (spa : Nat) (bs : List Byte) (hc : Canonical s) : Canonical (sigWrite s spa bs) := by
  grind [sigWrite, Canonical]
grind_pattern sigWrite_canonical => sigWrite s spa bs

theorem postOne_canonical {s : State} (q : RecQueue) (hc : Canonical s) : Canonical (postOne s q) := by
  have key : ∀ {s : State} {b x s1}, Canonical s → recPlace s q b = (x, s1) → Canonical s1 := fun {s b x s1} h e => by
    have := recPlace_canonical q b h
    rwa [e] at this
  unfold postOne
  dsimp only
  split
  · exact hc
  split
  · exact hc
  split
  · next h => exact key hc h
  next c k s1 h =>
  have g1 := key hc h
  split
  · exact g1
  have g2 := hubRead_canonical k c 12 g1
  generalize (hubRead s1 k c 12).2 = s2 at *
  (repeat' split) <;> first | exact putRecStore_canonical _ g2 | exact key g2 (by assumption) | (have g3 := key g2 (by assumption); grind)
grind_pattern postOne_canonical => postOne s q

theorem postN_canonical {s : State} (q : RecQueue) (l) (hc : Canonical s) : Canonical (postN s q l) := by
  induction l generalizing s q with
  | zero => exact hc
  | succ a ih =>
    unfold postN; grind [Canonical]
grind_pattern postN_canonical => postN s q l

theorem holdFault_canonical {s : State} (die : Nat) (q : RecQueue) (r : BitVec 512) (g : Option Nat) (hc : Canonical s) : Canonical (holdFault s die q r g) := by
  grind [holdFault, Canonical, foldl_canonical]
grind_pattern holdFault_canonical => holdFault s die q r g

theorem takeKept_canonical {s : State} (l : List KeptFault) (hc : Canonical s) : Canonical (takeKept s l) := by
  induction l generalizing s with
  | nil => exact hc
  | cons a t ih =>
    unfold takeKept
    split
    · exact ih (holdRecord_canonical _ _ _ hc)
    · exact hc
grind_pattern takeKept_canonical => takeKept s l

theorem postQueue_canonical {s : State} (q : RecQueue) (hc : Canonical s) : Canonical (postQueue s q) := by
  grind [postQueue, Canonical]
grind_pattern postQueue_canonical => postQueue s q

theorem postRecord_canonical {s : State} (q : RecQueue) (r : BitVec 512) (g : Option Nat) (hc : Canonical s) : Canonical (postRecord s q r g) := by
  grind [postRecord, Canonical]
grind_pattern postRecord_canonical => postRecord s q r g

theorem fwAbort_canonical {s : State} (result : BitVec 8) (hc : Canonical s) : Canonical (fwAbort s result) := by
  exact hc
grind_pattern fwAbort_canonical => fwAbort s result

theorem fwTrap_canonical {s : State} (ag : Agent) (hc : Canonical s) : Canonical (fwTrap s ag) := by
  grind [fwTrap, Canonical]
grind_pattern fwTrap_canonical => fwTrap s ag

theorem postTrap_canonical {s : State} (a : Nat) (t : TrapReq) (hc : Canonical s) : Canonical (postTrap s a t).2 := by
  grind [postTrap, Canonical]
grind_pattern postTrap_canonical => postTrap s a t

theorem putCtx_canonical {s : State} (c : Nat) (x : Ctx) (hc : Canonical s) : Canonical (putCtx s c x) := by
  exact hc
grind_pattern putCtx_canonical => putCtx s c x

theorem withdrawWaiters_canonical {s : State} (ctx : Nat) (hc : Canonical s) : Canonical (withdrawWaiters s ctx) := by
  unfold withdrawWaiters
  refine foldl_canonical (fun _ _ h => ?_) hc
  grind [Canonical, foldl_canonical]
grind_pattern withdrawWaiters_canonical => withdrawWaiters s ctx

theorem ctxRegWrite_canonical {s : State} (c n : Nat) (v : DWord) (hc : Canonical s) : Canonical (ctxRegWrite s c n v) := by
  unfold ctxRegWrite
  (repeat' split) <;> first | exact hc | grind [Canonical]
grind_pattern ctxRegWrite_canonical => ctxRegWrite s c n v

theorem privWrite_canonical {s : State} (a : Nat) (n : Nat) (v : DWord) (hc : Canonical s) : Canonical (privWrite s a n v) := by
  grind [privWrite, Canonical]
grind_pattern privWrite_canonical => privWrite s a n v

theorem privWrites_canonical {s : State} (a : Nat) (ps : List Producer) (hc : Canonical s) : Canonical (privWrites s a ps) := by
  unfold privWrites
  refine foldl_canonical (fun _ _ h => ?_) hc
  grind [Canonical, foldl_canonical]
grind_pattern privWrites_canonical => privWrites s a ps

theorem boundary_canonical {s : State} (a : Nat) (ag : Agent) (i : Issue) (hc : Canonical s) : Canonical (boundary s a ag i) := by
  unfold boundary
  refine foldl_canonical (fun _ _ h => ?_) hc
  grind [Canonical, foldl_canonical]
grind_pattern boundary_canonical => boundary s a ag i

theorem issueTrap_canonical {s : State} (e : Env) (t : TrapReq) (hc : Canonical s) : Canonical (issueTrap s e t) := by
  grind [issueTrap, Canonical]
grind_pattern issueTrap_canonical => issueTrap s e t

theorem onIssue_canonical {s : State} (h : Pfx) (isF64 : Bool) (f : Env → Out) {t : State} (hf : ∀ e, f e = .next t → Canonical t)
    (ht : onIssue s h isF64 f = .next t) : Canonical t := by
  unfold onIssue at ht
  split at ht
  · cases ht
  · exact hf _ ht

theorem fixedWord_canonical {s : State} (h : Pfx) (isF64 : Bool) (op : Nat) (f : Env → List Producer) {out : State} (hc : Canonical s) (ht : fixedWord s h isF64 op f = .next out) : Canonical out := by
  grind [fixedWord, Canonical, onIssue_canonical]

theorem holdWord_canonical {s : State} (hc : Canonical s) : Canonical (holdWord s) := by
  exact hc
grind_pattern holdWord_canonical => holdWord s

theorem ecWake_canonical {s : State} (b n : Nat) (hc : Canonical s) : Canonical (ecWake s b n) := by
  grind [ecWake, Canonical, foldl_canonical]
grind_pattern ecWake_canonical => ecWake s b n

theorem ecReady_canonical {s : State} (b n : Nat) (hc : Canonical s) : Canonical (ecReady s b n) := by
  grind [ecReady, Canonical]
grind_pattern ecReady_canonical => ecReady s b n

theorem ecSet_canonical {s : State} (b n : Nat) (v : Word) (hc : Canonical s) : Canonical (ecSet s b n v) := by
  grind [ecSet, Canonical]
grind_pattern ecSet_canonical => ecSet s b n v

theorem ecDec_canonical {s : State} (b n : Nat) (hc : Canonical s) : Canonical (ecDec s b n) := by
  grind [ecDec, Canonical]
grind_pattern ecDec_canonical => ecDec s b n

theorem flagUp_canonical {s : State} (a f : Nat) (hc : Canonical s) : Canonical (flagUp s a f) := by
  grind [flagUp, Canonical]
grind_pattern flagUp_canonical => flagUp s a f

theorem flagDown_canonical {s : State} (a f : Nat) (hc : Canonical s) : Canonical (flagDown s a f) := by
  grind [flagDown, Canonical]
grind_pattern flagDown_canonical => flagDown s a f

end Sys2Proof.Machine
end

