-- ==== Sys2Proof/Laws/CanonWords.lean ====
section
/-! SUPPORT. Every operation keeps the canonical form of memory: the shared forms of words, moves, accesses and engine commands. The patterns let `grind` use each lemma where its
operation stands. -/

namespace Sys2Proof.Machine

set_option Elab.async false

/-! Sys2Proof/Machine/Moves.lean -/

theorem putFree_canonical {s : State} (tier prof : Nat) (l : List Nat) (hc : Canonical s) : Canonical (putFree s tier prof l) := by
  grind [putFree, Canonical]
grind_pattern putFree_canonical => putFree s tier prof l

theorem takeFree_canonical {s t : State} {tier prof d : Nat} (hc : Canonical s) (ht : takeFree s tier prof = some (d, t)) : Canonical t := by
  grind [takeFree, Canonical]

theorem giveFree_canonical {s : State} (tier prof page : Nat) (hc : Canonical s) : Canonical (giveFree s tier prof page) := by
  grind [giveFree, Canonical]
grind_pattern giveFree_canonical => giveFree s tier prof page

theorem ownRead_canonical {s : State} (dpage : Nat) (hc : Canonical s) : Canonical (ownRead s dpage).2 := by
  grind [ownRead, Canonical]
grind_pattern ownRead_canonical => ownRead s dpage

theorem ownWrite_canonical {s : State} (dpage r : Nat) (hc : Canonical s) : Canonical (ownWrite s dpage r) := by
  grind [ownWrite, Canonical]
grind_pattern ownWrite_canonical => ownWrite s dpage r

theorem dropForward_canonical {s : State} (page : Nat) (hc : Canonical s) : Canonical (dropForward s page) := by
  exact hc
grind_pattern dropForward_canonical => dropForward s page

theorem poolMovable_canonical {s : State} (page : Nat) (hc : Canonical s) : Canonical (poolMovable s page).2 := by
  grind [poolMovable, Canonical, foldl_canonical]
grind_pattern poolMovable_canonical => poolMovable s page

theorem countReq_canonical {s : State} (e : BitVec 128) (hc : Canonical s) : Canonical (countReq s e) := by
  grind [countReq, Canonical]
grind_pattern countReq_canonical => countReq s e

theorem moveRequest_canonical {s : State} (page tier : Nat) (hc : Canonical s) : Canonical (moveRequest s page tier) := by
  unfold moveRequest
  dsimp only
  split
  · exact hc
  · have hp := poolMovable_canonical (s := s) page hc
    split
    · next h => rwa [h] at hp
    · next s1 h =>
      rw [h] at hp
      (repeat' split) <;> first | exact hp | (have g2 := takeFree_canonical hp (by assumption); grind [Canonical])
grind_pattern moveRequest_canonical => moveRequest s page tier

theorem moveCancel_canonical {s : State} (page : Nat) (hc : Canonical s) : Canonical (moveCancel s page) := by
  grind [moveCancel, Canonical]
grind_pattern moveCancel_canonical => moveCancel s page

theorem setEntryHw_canonical {s : State} (page : Nat) (e : BitVec 128) (hc : Canonical s) : Canonical (setEntryHw s page e) := by
  grind [setEntryHw, Canonical]
grind_pattern setEntryHw_canonical => setEntryHw s page e

theorem closeLine_canonical {s : State} (f : Forward) (line : Nat) (hc : Canonical s) : Canonical (closeLine s f line) := by
  grind [closeLine, Canonical, foldl_canonical]
grind_pattern closeLine_canonical => closeLine s f line

theorem moveStart_canonical {s : State} (page : Nat) (hc : Canonical s) : Canonical (moveStart s page) := by
  grind [moveStart, Canonical]
grind_pattern moveStart_canonical => moveStart s page

theorem copyLine_canonical {s : State} (src dst : Nat) (hc : Canonical s) : Canonical (copyLine s src dst) := by
  grind [copyLine, Canonical]
grind_pattern copyLine_canonical => copyLine s src dst

theorem moveEnd_canonical {s : State} (f : Forward) (hc : Canonical s) : Canonical (moveEnd s f) := by
  grind [moveEnd, Canonical]
grind_pattern moveEnd_canonical => moveEnd s f

theorem moveLine_canonical {s : State} (f : Forward) (hc : Canonical s) : Canonical (moveLine s f) := by
  grind [moveLine, Canonical]
grind_pattern moveLine_canonical => moveLine s f

theorem noteOf_canonical {s : State} (page gpa ctx : Nat) (hc : Canonical s) : Canonical (noteOf s page gpa ctx) := by
  grind [noteOf, Canonical]
grind_pattern noteOf_canonical => noteOf s page gpa ctx

theorem pinAdd_canonical {s : State} (ctx page gpa : Nat) (hc : Canonical s) : Canonical (pinAdd s ctx page gpa) := by
  grind [pinAdd, Canonical]
grind_pattern pinAdd_canonical => pinAdd s ctx page gpa

theorem setHand_canonical {s : State} (page : Nat) (claimant : Bool) (step : HandoverStep) (hc : Canonical s) : Canonical (setHand s page claimant step) := by
  exact hc
grind_pattern setHand_canonical => setHand s page claimant step

theorem dropHand_canonical {s : State} (page : Nat) (claimant : Bool) (hc : Canonical s) : Canonical (dropHand s page claimant) := by
  exact hc
grind_pattern dropHand_canonical => dropHand s page claimant

theorem claimFor_canonical {s : State} (page op : Nat) (hc : Canonical s) : Canonical (claimFor s page op) := by
  grind [claimFor, Canonical]
grind_pattern claimFor_canonical => claimFor s page op

/-- Every state that a placement act leaves has canonical memory. -/
def CanonicalAct : PageAct → Prop
  | .stop _ s => Canonical s
  | .wait s => Canonical s
  | .acted s => Canonical s

theorem pinPage_canonical {s : State} (id ctx page gpa : Nat) (hc : Canonical s) : CanonicalAct (pinPage s id ctx page gpa) := by
  grind [pinPage, CanonicalAct, Canonical]
theorem unpinPage_canonical {s : State} (ctx page : Nat) (hc : Canonical s) : CanonicalAct (unpinPage s ctx page) := by
  grind [unpinPage, CanonicalAct, Canonical]
theorem hintPage_canonical {s : State} (ctx page a b : Nat) (w : Bool) (hc : Canonical s) : CanonicalAct (hintPage s ctx page a b w) := by
  grind [hintPage, CanonicalAct, Canonical]
theorem placeAct_canonical {s : State} (id : Nat) (o : Op) (va : Nat) (x : Xlat) (hc : Canonical s) : CanonicalAct (placeAct s id o va x) := by
  grind [placeAct, pinPage_canonical, unpinPage_canonical, hintPage_canonical]

/-! Sys2Proof/Machine/Window.lean -/

theorem winStore_canonical {s : State} (w : Writer) (spa : Nat) (v : DWord) (hc : Canonical s) : Canonical (winStore s w spa v) := by
  grind [winStore, Canonical]
grind_pattern winStore_canonical => winStore s w spa v

/-! Sys2Proof/Machine/Scalar.lean -/

theorem scalarWord_canonical {s : State} (h : Pfx) (op : Nat) (f : Env → List Producer) {out : State} (hc : Canonical s) (ht : scalarWord s h op f = .next out) : Canonical out := by
  grind [scalarWord, Canonical, fixedWord_canonical]

theorem scalarOp_canonical {s : State} (h : Pfx) (r : FmtR) (op : Nat) (f : DWord → DWord → DWord) {out : State} (hc : Canonical s) (ht : scalarOp s h r op f = .next out) : Canonical out := by
  grind [scalarOp, Canonical, scalarWord_canonical]

theorem scalarFlagOp_canonical {s : State} (h : Pfx) (r : FmtR) (op : Nat) (f fl : DWord → DWord → DWord) {out : State} (hc : Canonical s) (ht : scalarFlagOp s h r op f fl = .next out) : Canonical out := by
  grind [scalarFlagOp, Canonical, scalarWord_canonical]

theorem divideWord_canonical {s : State} (h : Pfx) (r : FmtR) (op : Nat) (f : DWord → DWord → DWord) {out : State} (hc : Canonical s) (ht : divideWord s h r op f = .next out) : Canonical out := by
  grind [divideWord, Canonical, onIssue_canonical, scalarOp_canonical]

theorem movBlock_canonical {s : State} (b n : Nat) (v : DWord) (hc : Canonical s) : Canonical (movBlock s b n v) := by
  grind [movBlock, Canonical]
grind_pattern movBlock_canonical => movBlock s b n v

theorem maskOp_canonical {s : State} (h : Pfx) (r : FmtR) (op : Nat) (f : LaneSet → LaneSet → LaneSet) {out : State} (hc : Canonical s) (ht : maskOp s h r op f = .next out) : Canonical out := by
  grind [maskOp, Canonical, scalarWord_canonical]

theorem maskToScalar_canonical {s : State} (h : Pfx) (r : FmtR) (op : Nat) (f : LaneSet → Nat) {out : State} (hc : Canonical s) (ht : maskToScalar s h r op f = .next out) : Canonical out := by
  grind [maskToScalar, Canonical, scalarWord_canonical]

/-! Sys2Proof/Machine/Scratch.lean -/

theorem sendEntry_canonical {s : State} (e : UpdEntry) (hc : Canonical s) : Canonical (sendEntry s e) := by
  unfold sendEntry
  refine foldl_canonical (fun _ _ h => ?_) hc
  grind [Canonical, foldl_canonical]
grind_pattern sendEntry_canonical => sendEntry s e

theorem sendUpdates_canonical {s : State} (sel : UpdEntry → Bool) (hc : Canonical s) : Canonical (sendUpdates s sel) := by
  unfold sendUpdates
  refine foldl_canonical (fun _ _ h => ?_) hc
  grind [Canonical, foldl_canonical]
grind_pattern sendUpdates_canonical => sendUpdates s sel

theorem publishByte_canonical {s : State} (bid ofs : Nat) (b : Byte) (hc : Canonical s) : Canonical (publishByte s bid ofs b) := by
  grind [publishByte, Canonical]
grind_pattern publishByte_canonical => publishByte s bid ofs b

theorem spmPut_canonical {s : State} (bid ofs : Nat) (bs : List Byte) (hc : Canonical s) : Canonical (spmPut s bid ofs bs) := by
  grind [spmPut, Canonical]
grind_pattern spmPut_canonical => spmPut s bid ofs bs

theorem publish_canonical {s : State} (bid ofs : Nat) (l) (hc : Canonical s) : Canonical (publish s bid ofs l) := by
  induction l generalizing s bid ofs with
  | nil => exact hc
  | cons a t ih =>
    unfold publish; grind [Canonical]
grind_pattern publish_canonical => publish s bid ofs l

theorem spmHeal_canonical {s : State} (bid ofs n : Nat) (hc : Canonical s) : Canonical (spmHeal s bid ofs n) := by
  grind [spmHeal, Canonical]
grind_pattern spmHeal_canonical => spmHeal s bid ofs n

theorem spmErrs_canonical {s : State} (bid ofs n : Nat) (hc : Canonical s) : Canonical (spmErrs s bid ofs n) := by
  unfold spmErrs
  refine foldl_canonical (fun _ _ h => ?_) hc
  grind [Canonical, foldl_canonical]
grind_pattern spmErrs_canonical => spmErrs s bid ofs n

theorem modSub_canonical {s : State} (bid index : Nat) (f : Subscription → Subscription) (hc : Canonical s) : Canonical (modSub s bid index f) := by
  exact hc
grind_pattern modSub_canonical => modSub s bid index f

theorem mirrorWrite_canonical {s : State} (bid : Nat) (l : List (Nat × Byte)) (hc : Canonical s) : Canonical (mirrorWrite s bid l) := by
  unfold mirrorWrite
  refine foldl_canonical (fun _ _ h => ?_) hc
  grind [Canonical, foldl_canonical]
grind_pattern mirrorWrite_canonical => mirrorWrite s bid l

theorem areaWrite_canonical {s : State} (spa : Nat) (bs : List Byte) (hc : Canonical s) : Canonical (areaWrite s spa bs) := by
  grind [areaWrite, Canonical]
grind_pattern areaWrite_canonical => areaWrite s spa bs

theorem logUpdate_canonical {s : State} (u : Update) (hc : Canonical s) : Canonical (logUpdate s u) := by
  grind [logUpdate, Canonical]
grind_pattern logUpdate_canonical => logUpdate s u

theorem applyUpdate_canonical {s : State} (u : Update) (hc : Canonical s) : Canonical (applyUpdate s u) := by
  grind [applyUpdate, Canonical]
grind_pattern applyUpdate_canonical => applyUpdate s u

theorem syncMirror_canonical {s : State} (bid ofs n : Nat) (hc : Canonical s) : Canonical (syncMirror s bid ofs n) := by
  grind [syncMirror, Canonical, foldl_canonical]
grind_pattern syncMirror_canonical => syncMirror s bid ofs n

theorem spmFind_canonical {s : State} (bid ofs n : Nat) (hc : Canonical s) : Canonical (spmFind s bid ofs n) := by
  grind [spmFind]
grind_pattern spmFind_canonical => spmFind s bid ofs n

theorem spmWrite_canonical {s : State} (bid ofs : Nat) (bs : List Byte) (hc : Canonical s) : Canonical (spmWrite s bid ofs bs) := by
  grind [spmWrite, Canonical]
grind_pattern spmWrite_canonical => spmWrite s bid ofs bs

theorem releaseOut_canonical {s : State} (core bid scope : Nat) (hc : Canonical s) : Canonical (releaseOut s core bid scope) := by
  grind [releaseOut, Canonical]
grind_pattern releaseOut_canonical => releaseOut s core bid scope

/-! Sys2Proof/Machine/Barriers.lean -/

theorem putBarrier_canonical {s : State} (b : Barrier) (hc : Canonical s) : Canonical (putBarrier s b) := by
  exact hc
grind_pattern putBarrier_canonical => putBarrier s b

theorem evalBarrier_canonical {s : State} (b : Barrier) (hc : Canonical s) : Canonical (evalBarrier s b) := by
  grind [evalBarrier, Canonical]
grind_pattern evalBarrier_canonical => evalBarrier s b

theorem evalBarriers_canonical {s : State} (hc : Canonical s) : Canonical (evalBarriers s) := by
  unfold evalBarriers
  refine foldl_canonical (fun _ _ h => ?_) hc
  grind [Canonical, foldl_canonical]
grind_pattern evalBarriers_canonical => evalBarriers s

theorem notePending_canonical {s : State} (a : Nat) (b : Barrier) (hc : Canonical s) : Canonical (notePending s a b) := by
  grind [notePending, Canonical, foldl_canonical]
grind_pattern notePending_canonical => notePending s a b

theorem barIssue_canonical {s : State} (a : Nat) (ag : Agent) (scope : Nat) (num : Nat) (count : Nat) (mask : LaneSet) (lanes : LaneSet) (pend : Bool) (hc : Canonical s) : Canonical (barIssue s a ag scope num count mask lanes pend) := by
  grind [barIssue, Canonical, foldl_canonical]
grind_pattern barIssue_canonical => barIssue s a ag scope num count mask lanes pend

theorem barArrive_canonical {s : State} (a : Nat) (ag : Agent) (scope : Nat) (num : Nat) (lane : Nat) (count : Nat) (mask : LaneSet) (hc : Canonical s) : Canonical (barArrive s a ag scope num lane count mask) := by
  grind [barArrive, Canonical, foldl_canonical]
grind_pattern barArrive_canonical => barArrive s a ag scope num lane count mask

/-! Sys2Proof/Machine/Control.lean -/

theorem controlWord_canonical {s : State} (h : Pfx) (op : Nat) (f : Env → List (Nat × DWord) × List Producer × Bool) {out : State} (hc : Canonical s) (ht : controlWord s h op f = .next out) : Canonical out := by
  grind [controlWord, Canonical, onIssue_canonical]

theorem trapWord_canonical {s : State} (h : Pfx) (op : Nat) (code : TrapCode) (imm : BitVec 30) {out : State} (hc : Canonical s) (ht : trapWord s h op code imm = .next out) : Canonical out := by
  grind [trapWord, Canonical, onIssue_canonical]

/-! Sys2Proof/Machine/VectorInt.lean -/

theorem laneWord_canonical {s : State} (h : Pfx) (r : FmtR) (i : Instr) (isF64 : Bool) (op : Nat) (f : Env → Nat → List Producer) {out : State} (hc : Canonical s) (ht : laneWord s h r i isF64 op f = .next out) : Canonical out := by
  grind [laneWord, Canonical, onIssue_canonical]

theorem vecWord_canonical {s : State} (h : Pfx) (r : FmtR) (i : Instr) (isF64 : Bool) (op k : Nat) (f : Env → Nat → Nat × Bool) {out : State} (hc : Canonical s) (ht : vecWord s h r i isF64 op k f = .next out) : Canonical out := by
  grind [vecWord, Canonical, laneWord_canonical]

theorem intWord_canonical {s : State} (h : Pfx) (r : FmtR) (i : Instr) (op : Nat) (f : Nat → Nat → Nat × Bool) {out : State} (hc : Canonical s) (ht : intWord s h r i op f = .next out) : Canonical out := by
  grind [intWord, Canonical, vecWord_canonical]

theorem compareWord_canonical {s : State} (h : Pfx) (r : FmtR) (i : Instr) (isF64 : Bool) (op : Nat) (f : Env → Nat → Bool) {out : State} (hc : Canonical s) (ht : compareWord s h r i isF64 op f = .next out) : Canonical out := by
  grind [compareWord, Canonical, laneWord_canonical]

/-! Sys2Proof/Machine/VectorFloat.lean -/

theorem floatWord_canonical {s : State} (h : Pfx) (r : FmtR) (i : Instr) (op : Nat) (withC : Bool) (f : Nat → Nat → Nat → Nat × Bool) {out : State} (hc : Canonical s) (ht : floatWord s h r i op withC f = .next out) : Canonical out := by
  grind [floatWord, Canonical, vecWord_canonical]

theorem arithWord_canonical {s : State} (h : Pfx) (r : FmtR) (i : Instr) (op which : Nat) {out : State} (hc : Canonical s) (ht : arithWord s h r i op which = .next out) : Canonical out := by
  grind [arithWord, Canonical, floatWord_canonical]

theorem transWord_canonical {s : State} (h : Pfx) (r : FmtR) (i : Instr) (op : Nat) (f : Bool → Nat → Nat) {out : State} (hc : Canonical s) (ht : transWord s h r i op f = .next out) : Canonical out := by
  grind [transWord, Canonical, vecWord_canonical]

/-! Sys2Proof/Machine/CrossLane.lean -/

theorem crossWord_canonical {s : State} (h : Pfx) (r : FmtR) (op : Nat) (f : Env → LaneSet → List Producer) {out : State} (hc : Canonical s) (ht : crossWord s h r op f = .next out) : Canonical out := by
  grind [crossWord, Canonical, fixedWord_canonical]

theorem crossScalar_canonical {s : State} (h : Pfx) (r : FmtR) (op : Nat) (f : Env → LaneSet → List Producer) {out : State} (hc : Canonical s) (ht : crossScalar s h r op f = .next out) : Canonical out := by
  grind [crossScalar, Canonical, crossWord_canonical]

theorem permWord_canonical {s : State} (h : Pfx) (r : FmtR) (op : Nat) (src : Env → Nat → Int) {out : State} (hc : Canonical s) (ht : permWord s h r op src = .next out) : Canonical out := by
  grind [permWord, Canonical, crossWord_canonical]

/-! Sys2Proof/Machine/Access.lean -/

theorem modOp_canonical {s : State} (id : Nat) (f : Op → Op) (hc : Canonical s) : Canonical (modOp s id f) := by
  grind [modOp, Canonical]
grind_pattern modOp_canonical => modOp s id f

theorem modPart_canonical {s : State} (id lane : Nat) (f : Part → Part) (hc : Canonical s) : Canonical (modPart s id lane f) := by
  grind [modPart, Canonical]
grind_pattern modPart_canonical => modPart s id lane f

theorem setPart_canonical {s : State} (id lane : Nat) (st : PartState) (hc : Canonical s) : Canonical (setPart s id lane st) := by
  grind [setPart, Canonical]
grind_pattern setPart_canonical => setPart s id lane st

theorem markLate_canonical {s : State} (o : Op) (hc : Canonical s) : Canonical (markLate s o) := by
  grind [markLate, Canonical, foldl_canonical]
grind_pattern markLate_canonical => markLate s o

theorem stopPart_canonical {s : State} (id : Nat) (o : Op) (lane : Nat) (st : PartState) (hc : Canonical s) : Canonical (stopPart s id o lane st) := by
  grind [stopPart, Canonical, foldl_canonical]
grind_pattern stopPart_canonical => stopPart s id o lane st

theorem newGroup_canonical {s : State} (f : FaultReq) (g : Nat → FaultGroup) (hc : Canonical s) : Canonical (newGroup s f g).2 := by
  grind [newGroup, Canonical]
grind_pattern newGroup_canonical => newGroup s f g

theorem modGroup_canonical {s : State} (id : Nat) (f : FaultGroup → FaultGroup) (hc : Canonical s) : Canonical (modGroup s id f) := by
  exact hc
grind_pattern modGroup_canonical => modGroup s id f

theorem editHeld_canonical {s : State} (id : Nat) (f : BitVec 512 → BitVec 512) (hc : Canonical s) : Canonical (editHeld s id f) := by
  grind [editHeld, Canonical]
grind_pattern editHeld_canonical => editHeld s id f

theorem parkStrands_canonical {s : State} (o : Op) (lane : Nat) (hc : Canonical s) : Canonical (parkStrands s o lane) := by
  grind [parkStrands, Canonical, foldl_canonical]
grind_pattern parkStrands_canonical => parkStrands s o lane

theorem faultPart_canonical {s : State} (id : Nat) (o : Op) (lane va : Nat) (w : WFault) (hc : Canonical s) : Canonical (faultPart s id o lane va w) := by
  grind [faultPart, Canonical]
grind_pattern faultPart_canonical => faultPart s id o lane va w

theorem postFaults_canonical {s : State} (ctx : Nat) (hc : Canonical s) : Canonical (postFaults s ctx) := by
  grind [postFaults, Canonical]
grind_pattern postFaults_canonical => postFaults s ctx

theorem lateTrap_canonical {s : State} (id : Nat) (o : Op) (lanes : List Nat) (code : TrapCode) (addr esrc : Nat) (hc : Canonical s) : Canonical (lateTrap s id o lanes code addr esrc) := by
  grind [lateTrap, Canonical, foldl_canonical]
grind_pattern lateTrap_canonical => lateTrap s id o lanes code addr esrc

theorem faultParts_canonical {s : State} (id : Nat) (o : Op) (lane : Nat) (l : List (Nat × WFault)) (hc : Canonical s) :
    Canonical (l.foldl (fun s f => faultPart s id o lane f.1 f.2) s) :=
  foldl_canonical (fun _ _ h => faultPart_canonical id o lane _ _ h) hc

theorem alsoNext_canonical {s : State} (o : Op) (va n : Nat) (f : WFault) (hc : Canonical s) : Canonical (alsoNext s o va n f).2 := by
  grind [alsoNext, Canonical]
grind_pattern alsoNext_canonical => alsoNext s o va n f

theorem walkPart_canonical {s : State} (o : Op) (p : Part) (hc : Canonical s) : Canonical (walkPart s o p).2 := by
  grind [walkPart, Canonical]
grind_pattern walkPart_canonical => walkPart s o p

theorem foldl_fst_canonical {α β : Type} {f : State × β → α → State × β} {l : List α} {p : State × β} (hf : ∀ p x, Canonical p.1 → Canonical (f p x).1)
    (h : Canonical p.1) : Canonical (l.foldl f p).1 := by
  induction l generalizing p with
  | nil => exact h
  | cons a t ih => exact ih (hf _ _ h)

theorem walkLane_canonical (id : Nat) (o : Op) (acc : State × List (Nat × TrapCode × Nat)) (lane : Nat) (h : Canonical acc.1) :
    Canonical (walkLane id o acc lane).1 := by
  unfold walkLane
  split
  · exact h
  · rename_i p _
    have hw := walkPart_canonical o p h
    (repeat' split) <;> simp_all <;> grind [Canonical, foldl_canonical]

theorem walkTraps_canonical {s : State} (id : Nat) (o : Op) (traps : List (Nat × TrapCode × Nat)) (k : TrapCode × Nat) (hc : Canonical s) : Canonical (walkTraps id o traps s k) := by
  grind [walkTraps, Canonical, foldl_canonical]
grind_pattern walkTraps_canonical => walkTraps id o traps s k

theorem walkOp_canonical {s : State} (id : Nat) (o : Op) (lane : Nat) (hc : Canonical s) : Canonical (walkOp s id o lane) := by
  have h := foldl_fst_canonical (l := walkLanes s o lane) (p := (s, [])) (fun p x h => walkLane_canonical id o p x h) hc
  unfold walkOp
  generalize (walkLanes s o lane).foldl (walkLane id o) (s, []) = p at h
  obtain ⟨s1, traps⟩ := p
  exact postFaults_canonical _ (foldl_canonical (fun _ k h => walkTraps_canonical id o traps k h) h)
grind_pattern walkOp_canonical => walkOp s id o lane

theorem l1Fill_canonical {s : State} (c : L1) (line : Nat) (hc : Canonical s) : Canonical (l1Fill s c line) := by
  grind [l1Fill, Canonical, foldl_canonical]
grind_pattern l1Fill_canonical => l1Fill s c line

theorem l1Take_canonical {s : State} (who : Asker) (l1 : Option L1) (line : Nat) (hc : Canonical s) : Canonical (l1Take s who l1 line) := by
  unfold l1Take
  (repeat' split) <;> grind [Canonical, foldl_canonical]
grind_pattern l1Take_canonical => l1Take s who l1 line

theorem homeRead_canonical {s : State} (key : Nat) (spa : Nat) (n : Nat) (mem : Bool) (hc : Canonical s) : Canonical (homeRead s key spa n mem).2 := by
  grind [homeRead, Canonical, foldl_canonical]
grind_pattern homeRead_canonical => homeRead s key spa n mem

theorem readLine_canonical {s : State} (who : Asker) (l1 : Option L1) (key : Nat) (spa : Nat) (n : Nat) (hc : Canonical s) : Canonical (readLine who l1 key s spa n).2 := by
  grind [readLine, Canonical, foldl_canonical]
grind_pattern readLine_canonical => readLine who l1 key s spa n

theorem dropErrs_canonical {s : State} (l : List (Nat × Bool × Bool)) (hc : Canonical s) : Canonical (dropErrs s l) := by
  grind [dropErrs, Canonical, foldl_canonical]
grind_pattern dropErrs_canonical => dropErrs s l

theorem copyFind_canonical {s : State} (c : SwLine) (spa : Nat) (n : Nat) (hc : Canonical s) : Canonical (copyFind s c spa n).2 := by
  grind [copyFind, Canonical, foldl_canonical]
grind_pattern copyFind_canonical => copyFind s c spa n

theorem copyRead_canonical {s : State} (c : SwLine) (spa : Nat) (n : Nat) (hc : Canonical s) : Canonical (copyRead s c spa n).2 := by
  grind [copyRead, Canonical, foldl_canonical]
grind_pattern copyRead_canonical => copyRead s c spa n

theorem swRead_canonical {s : State} (who : Asker) (l1 : Option L1) (key : Nat) (spa : Nat) (n : Nat) (hc : Canonical s) : Canonical (swRead who l1 key s spa n).2 := by
  grind [swRead, Canonical, foldl_canonical]
grind_pattern swRead_canonical => swRead who l1 key s spa n

theorem lineReads_canonical {s : State} (rd : State → Nat → Nat → Got × State) (l : List (Nat × Nat)) (hr : ∀ s a n, Canonical s → Canonical (rd s a n).2)
    (hc : Canonical s) : Canonical (lineReads rd s l).2 := by
  induction l generalizing s with
  | nil => exact hc
  | cons a t ih => exact ih (hr _ _ _ hc)

theorem segRead_canonical {s : State} (who : Asker) (l1 : Option L1) (g : Seg) (hc : Canonical s) : Canonical (segRead s who l1 g).2 := by
  have h1 := fun key s l (h : Canonical s) => lineReads_canonical (readLine who l1 key) l (fun s a n h => readLine_canonical who l1 key a n h) h
  have h2 := fun key s l (h : Canonical s) => lineReads_canonical (swRead who l1 key) l (fun s a n h => swRead_canonical who l1 key a n h) h
  unfold segRead
  grind
grind_pattern segRead_canonical => segRead s who l1 g

theorem copyWrite_canonical {s : State} (who : Asker) (c : SwLine) (spa : Nat) (bs : List Byte) (hc : Canonical s) : Canonical (copyWrite who s c spa bs) := by
  grind [copyWrite, Canonical, foldl_canonical]
grind_pattern copyWrite_canonical => copyWrite who s c spa bs

theorem swWrite_canonical {s : State} (who : Asker) (key : Nat) (spa : Nat) (bs : List Byte) (hc : Canonical s) : Canonical (swWrite who key s spa bs) := by
  grind [swWrite, Canonical, foldl_canonical]
grind_pattern swWrite_canonical => swWrite who key s spa bs

theorem segWrite_canonical {s : State} (who : Asker) (g : Seg) (bs : List Byte) (hc : Canonical s) : Canonical (segWrite s who g bs) := by
  have h := fun s (h : Canonical s) => foldl_canonical (l := linePieces (segSpa g) bs.length)
    (fun s p h => swWrite_canonical who g.x.key.toNat p.1 ((bs.drop (p.1 - segSpa g)).take p.2) h) h
  grind [segWrite]
grind_pattern segWrite_canonical => segWrite s who g bs

theorem segsRead_canonical {s : State} (who : Xlat → Asker) (l1 : Option L1) (l : List Seg) (hc : Canonical s) : Canonical (segsRead s who l1 l).2 := by
  induction l generalizing s with
  | nil => exact hc
  | cons a t ih => unfold segsRead; grind
grind_pattern segsRead_canonical => segsRead s who l1 l

theorem segsWrite_canonical {s : State} (who : Xlat → Asker) (bs : List Byte) (l : List Seg) (hc : Canonical s) : Canonical (segsWrite s who bs l) := by
  induction l generalizing s bs with
  | nil => exact hc
  | cons a t ih => unfold segsWrite; exact ih _ (segWrite_canonical _ _ _ hc)
grind_pattern segsWrite_canonical => segsWrite s who bs l

theorem ownCode_canonical {s : State} (block : Nat) (segs : List Seg) (hc : Canonical s) : Canonical (ownCode s block segs) := by
  grind [ownCode, Canonical, foldl_canonical]
grind_pattern ownCode_canonical => ownCode s block segs

theorem atomRead_canonical {s : State} (who : Asker) (g : Seg) (hc : Canonical s) : Canonical (atomRead s who g).2 := by
  have h := fun key s l (h : Canonical s) => lineReads_canonical (fun s a n => homeRead (touchLine who .rmw s (a / 128)) key a n (memRead s (a / 128))) l
    (fun s a n h => homeRead_canonical key a n _ (touchLine_canonical who .rmw _ h)) h
  unfold atomRead
  dsimp only
  split
  · exact h _ _ _ (locateFill_canonical _ _ hc)
  · grind
grind_pattern atomRead_canonical => atomRead s who g

theorem atomWrite_canonical {s : State} (who : Asker) (g : Seg) (bs : List Byte) (hc : Canonical s) : Canonical (atomWrite s who g bs) := by
  grind [atomWrite, Canonical, foldl_canonical]
grind_pattern atomWrite_canonical => atomWrite s who g bs

theorem passOthers_canonical {s : State} (o : Op) (lane : Nat) (hc : Canonical s) : Canonical (passOthers s o lane) := by
  grind [passOthers, Canonical, foldl_canonical]
grind_pattern passOthers_canonical => passOthers s o lane

theorem partDone_canonical {s : State} (id lane v : Nat) (hc : Canonical s) : Canonical (partDone s id lane v) := by
  grind [partDone, Canonical]
grind_pattern partDone_canonical => partDone s id lane v

theorem performSpm_canonical {s0 : State} (id : Nat) (o : Op) (p : Part) (b ofs : Nat) (hc : Canonical s0) : Canonical (performSpm s0 id o p b ofs) := by
  grind [performSpm, Canonical]
grind_pattern performSpm_canonical => performSpm s0 id o p b ofs

theorem performRed_canonical {s : State} (id : Nat) (o : Op) (p : Part) (g : Seg) (hc : Canonical s) : Canonical (performRed s id o p g) := by
  grind [performRed, Canonical]
grind_pattern performRed_canonical => performRed s id o p g

theorem performWait_canonical {s : State} (id : Nat) (o : Op) (p : Part) (g : Seg) (hc : Canonical s) : Canonical (performWait s id o p g) := by
  grind [performWait, Canonical]
grind_pattern performWait_canonical => performWait s id o p g

theorem performAtom_canonical {s : State} (id : Nat) (o : Op) (p : Part) (g : Seg) (hc : Canonical s) : Canonical (performAtom s id o p g) := by
  grind [performAtom, Canonical, foldl_canonical]
grind_pattern performAtom_canonical => performAtom s id o p g

theorem performMem_canonical {s : State} (id : Nat) (o : Op) (p : Part) (segs : List Seg) (hc : Canonical s) : Canonical (performMem s id o p segs) := by
  unfold performMem
  dsimp only
  have h := segsRead_canonical (coreAsker s o.core o.ctx) (l1Data o.core) segs hc
  generalize segsRead s (coreAsker s o.core o.ctx) (l1Data o.core) segs = r at h
  split
  · grind
  · split <;> grind
  all_goals grind
grind_pattern performMem_canonical => performMem s id o p segs

theorem ecAcquire_canonical {s : State} (agent : Nat) (lane : Nat) (hc : Canonical s) : Canonical (ecAcquire s agent lane) := by
  grind [ecAcquire, Canonical, foldl_canonical]
grind_pattern ecAcquire_canonical => ecAcquire s agent lane

theorem unpark_canonical {s : State} (agent clause lane : Nat) (hc : Canonical s) : Canonical (unpark agent clause s lane) := by
  grind [unpark, Canonical]
grind_pattern unpark_canonical => unpark agent clause s lane

theorem healRegs_canonical {s : State} (a : Nat) (l : List Nat) (hc : Canonical s) : Canonical (healRegs s a l) := by
  exact hc
grind_pattern healRegs_canonical => healRegs s a l

theorem writeBack_canonical {s0 : State} (a : Nat) (t : Target) (v : DWord) (hc : Canonical s0) : Canonical (writeBack s0 a t v) := by
  unfold writeBack
  (repeat' split) <;> grind [Canonical, foldl_canonical]
grind_pattern writeBack_canonical => writeBack s0 a t v

theorem writeLanes_canonical {s : State} (a reg lane v : Nat) (l) (hc : Canonical s) : Canonical (writeLanes s a reg lane v l) := by
  induction l generalizing s a reg lane v with
  | zero => exact hc
  | succ a ih =>
    unfold writeLanes; grind [Canonical]
grind_pattern writeLanes_canonical => writeLanes s a reg lane v l

theorem callAcquire_canonical {s : State} (o : Op) (hc : Canonical s) : Canonical (callAcquire s o) := by
  grind [callAcquire, Canonical, foldl_canonical]
grind_pattern callAcquire_canonical => callAcquire s o

theorem completePart_canonical {s0 : State} (id : Nat) (p : Part) (hc : Canonical s0) : Canonical (completePart id s0 p) := by
  grind [completePart, Canonical, foldl_canonical]
grind_pattern completePart_canonical => completePart id s0 p

theorem healAll_canonical {s : State} (o : Op) (done : List Part) (hc : Canonical s) : Canonical (healAll s o done) := by
  grind [healAll, Canonical, foldl_canonical]
grind_pattern healAll_canonical => healAll s o done

theorem completeOp_canonical {s : State} (id : Nat) (o : Op) (hc : Canonical s) : Canonical (completeOp s id o) := by
  grind [completeOp, Canonical, foldl_canonical]
grind_pattern completeOp_canonical => completeOp s id o

/-! Sys2Proof/Machine/Engine.lean -/

theorem runsOf_canonical {s : State} (w : Who) (va n : Nat) (need : Need) (hc : Canonical s) : Canonical (runsOf s w va n need).2 := by
  grind [runsOf, Canonical]
grind_pattern runsOf_canonical => runsOf s w va n need

theorem payReach_canonical {s : State} (w : Who) (ports : List Nat) (hc : Canonical s) : Canonical (payReach s w ports).2 := by
  grind [payReach, Canonical, foldl_canonical]
grind_pattern payReach_canonical => payReach s w ports

theorem routeReach_canonical {s : State} (w : Who) (va : Nat) (segs : List Seg) (need : Need) (hc : Canonical s) : Canonical (routeReach s w va segs need).2 := by
  grind [routeReach, Canonical, foldl_canonical]
grind_pattern routeReach_canonical => routeReach s w va segs need

theorem probe_canonical {s : State} (w : Who) (va n : Nat) (need : Need) (hc : Canonical s) : Canonical (probe s w va n need).2 := by
  grind [probe, Canonical]
grind_pattern probe_canonical => probe s w va n need

theorem reach_canonical {s : State} (w : Who) (va n : Nat) (need : Need) (hc : Canonical s) : Canonical (reach s w va n need).2 := by
  grind [reach, Canonical, payReach_canonical]
grind_pattern reach_canonical => reach s w va n need

theorem takeBytes_canonical {s : State} (w : Who) (n : Nat) (r : Reach) (hc : Canonical s) : Canonical (takeBytes s w n r).2 := by
  cases r <;> unfold takeBytes <;> grind
grind_pattern takeBytes_canonical => takeBytes s w n r

theorem giveBytes_canonical {s : State} (w : Who) (bs : List Byte) (r : Reach) (hc : Canonical s) : Canonical (giveBytes s w bs r) := by
  cases r <;> unfold giveBytes <;> grind
grind_pattern giveBytes_canonical => giveBytes s w bs r

theorem countBurst_canonical {s : State} (w : Who) (k : AccKind) (segs : List Seg) (hc : Canonical s) : Canonical (countBurst s w k segs) := by
  grind [countBurst, Canonical, foldl_canonical]
grind_pattern countBurst_canonical => countBurst s w k segs

theorem enqueue_canonical {s : State} (id : Nat) (o : Op) (vals : List (Nat × BitVec 128)) (hc : Canonical s) : Canonical (enqueue s id o vals) := by
  grind [enqueue, Canonical]
grind_pattern enqueue_canonical => enqueue s id o vals

theorem engineServe_canonical {s : State} (id : Nat) (o : Op) (hc : Canonical s) : Canonical (engineServe s id o) := by
  grind [engineServe, Canonical]
grind_pattern engineServe_canonical => engineServe s id o

theorem setShape_canonical {s : State} (bid n : Nat) (r : BitVec 512) (hc : Canonical s) : Canonical (setShape s bid n r) := by
  grind [setShape, Canonical]
grind_pattern setShape_canonical => setShape s bid n r

theorem slotServe_canonical {s : State} (id : Nat) (o : Op) (hc : Canonical s) : Canonical (slotServe s id o) := by
  grind [slotServe, Canonical]
grind_pattern slotServe_canonical => slotServe s id o

theorem shapeServe_canonical {s : State} (id : Nat) (o : Op) (hc : Canonical s) : Canonical (shapeServe s id o) := by
  grind [shapeServe, Canonical]
grind_pattern shapeServe_canonical => shapeServe s id o

theorem modCmd_canonical {s : State} (id : Nat) (f : Cmd → Cmd) (hc : Canonical s) : Canonical (modCmd s id f) := by
  grind [modCmd, Canonical]
grind_pattern modCmd_canonical => modCmd s id f

theorem faultBurst_canonical {s : State} (id burst va : Nat) (write : Bool) (f : WFault) (hc : Canonical s) : Canonical (faultBurst s id burst va write f) := by
  grind [faultBurst, Canonical]
grind_pattern faultBurst_canonical => faultBurst s id burst va write f

theorem trapCmd_canonical {s : State} (id burst : Nat) (code : TrapCode) (addr esrc : Nat) (hc : Canonical s) : Canonical (trapCmd s id burst code addr esrc) := by
  grind [trapCmd, Canonical]
grind_pattern trapCmd_canonical => trapCmd s id burst code addr esrc

end Sys2Proof.Machine
end

