-- ==== Sys2Proof/Laws/CanonCore.lean ====
section
/-! SUPPORT. Every operation keeps the canonical form of memory: homes, engines, system instructions, launches and issue. The patterns let `grind` use each lemma where its
operation stands. -/

namespace Sys2Proof.Machine

set_option Elab.async false

/-! Sys2Proof/Machine/Rings.lean -/

theorem notifyThread_canonical {s : State} (q : Nat) (hc : Canonical s) : Canonical (notifyThread s q) := by
  grind [notifyThread, Canonical]
grind_pattern notifyThread_canonical => notifyThread s q

theorem qwrTake_canonical {s : State} (q : Nat) (v : BitVec 32) (hc : Canonical s) : Canonical (qwrTake s q v) := by
  grind [qwrTake, Canonical]
grind_pattern qwrTake_canonical => qwrTake s q v

theorem ringFault_canonical {s0 : State} (q : Nat) (gpa : Nat) (write : Bool) (w : WFault) (hc : Canonical s0) : Canonical (ringFault s0 q gpa write w) := by
  grind [ringFault, Canonical, foldl_canonical]
grind_pattern ringFault_canonical => ringFault s0 q gpa write w

theorem ringRead_canonical {s : State} (q : Nat) (pos : BitVec 32) (hc : Canonical s) : Canonical (ringRead s q pos).2 := by
  grind [ringRead, Canonical]
grind_pattern ringRead_canonical => ringRead s q pos

theorem ringAppend_canonical {s : State} (q : Nat) (p : BitVec 512) (hc : Canonical s) : Canonical (ringAppend s q p).2 := by
  grind [ringAppend, Canonical]
grind_pattern ringAppend_canonical => ringAppend s q p

theorem deferPush_canonical {s : State} (o : Op) (q ec : Nat) (hc : Canonical s) : Canonical (deferPush s o q ec) := by
  grind [deferPush, Canonical]
grind_pattern deferPush_canonical => deferPush s o q ec

theorem pushServe_canonical {s : State} (id : Nat) (o : Op) (hc : Canonical s) : Canonical (pushServe s id o) := by
  grind [pushServe, Canonical]
grind_pattern pushServe_canonical => pushServe s id o

theorem releaseStep_canonical {s : State} (core block scope : Nat) (hc : Canonical s) : Canonical (releaseStep s core block scope).2 := by
  grind [releaseStep, Canonical]
grind_pattern releaseStep_canonical => releaseStep s core block scope

/-! Sys2Proof/Machine/Matrix.lean -/

theorem putTile_canonical {s : State} (bid : Nat) (l : List (Nat × Nat)) (hc : Canonical s) : Canonical (putTile s bid l) := by
  grind [putTile, Canonical, foldl_canonical]
grind_pattern putTile_canonical => putTile s bid l

theorem mstSet_canonical {s : State} (bid : Nat) (q nv ovf : Bool) (hc : Canonical s) : Canonical (mstSet s bid q nv ovf) := by
  grind [mstSet, Canonical]
grind_pattern mstSet_canonical => mstSet s bid q nv ovf

theorem bumpConf_canonical {s : State} (bid : Nat) (hc : Canonical s) : Canonical (bumpConf s bid) := by
  grind [bumpConf, Canonical]
grind_pattern bumpConf_canonical => bumpConf s bid

theorem putElems_canonical {s : State} (bid : Nat) (l : List (Nat × Nat × (Bool × Bool × Bool))) (hc : Canonical s) : Canonical (putElems s bid l) := by
  grind [putElems, Canonical]
grind_pattern putElems_canonical => putElems s bid l

theorem findPanel_canonical {s : State} (bid : Nat) (t : Slot) (rows k : Nat) (hc : Canonical s) : Canonical (findPanel s bid t rows k) := by
  grind [findPanel, Canonical, foldl_canonical]
grind_pattern findPanel_canonical => findPanel s bid t rows k

theorem doMma_canonical {s0 : State} (bid : Nat) (r : FmtE) (a b : Slot) (hc : Canonical s0) : Canonical (doMma s0 bid r a b) := by
  grind [doMma, Canonical]
grind_pattern doMma_canonical => doMma s0 bid r a b

theorem doMmz_canonical {s : State} (bid : Nat) (r : FmtE) (hc : Canonical s) : Canonical (doMmz s bid r) := by
  grind [doMmz, Canonical]
grind_pattern doMmz_canonical => doMmz s bid r

theorem findTile_canonical {s : State} (bid : Nat) (t : Slot) (n : Nat) (hc : Canonical s) : Canonical (findTile s bid t n) := by
  grind [findTile, Canonical, foldl_canonical]
grind_pattern findTile_canonical => findTile s bid t n

theorem doAccld_canonical {s0 : State} (bid : Nat) (r : FmtE) (t : Slot) (hc : Canonical s0) : Canonical (doAccld s0 bid r t).2 := by
  grind [doAccld, Canonical]
grind_pattern doAccld_canonical => doAccld s0 bid r t

theorem doAccld_some {s t u : State} {bid : Nat} {r : FmtE} {x : Slot} (hc : Canonical s) (h : doAccld s bid r x = (some t, u)) : Canonical t := by
  grind [doAccld]

theorem doAccwr_canonical {s : State} (bid : Nat) (r : FmtE) (row : Nat) (vals : List (Nat × BitVec 128)) (hc : Canonical s) : Canonical (doAccwr s bid r row vals) := by
  grind [doAccwr, Canonical]
grind_pattern doAccwr_canonical => doAccwr s bid r row vals

theorem doCbld_canonical {s : State} (bid : Nat) (r : FmtE) (vals : List (Nat × BitVec 128)) (hc : Canonical s) : Canonical (doCbld s bid r vals) := by
  grind [doCbld, Canonical]
grind_pattern doCbld_canonical => doCbld s bid r vals

theorem findRow_canonical {s : State} (bid n : Nat) (t : Option Slot) (hc : Canonical s) : Canonical (findRow s bid n t) := by
  cases t <;> grind [findRow, Canonical, foldl_canonical]
grind_pattern findRow_canonical => findRow s bid n t

theorem doAccst_canonical {s : State} (bid : Nat) (r : FmtE) (recs : List (BitVec 512)) (hc : Canonical s) : Canonical (doAccst s bid r recs) := by
  grind [doAccst, Canonical, foldl_canonical]
grind_pattern doAccst_canonical => doAccst s bid r recs

/-! Sys2Proof/Machine/Home.lean -/

theorem placeStep_canonical {s : State} (id : Nat) (o : Op) (hc : Canonical s) : Canonical (placeStep s id o) := by
  have ha : ∀ s1 x, Canonical s1 → CanonicalAct (placeAct s1 id o (placeAddr o) x) := fun s1 x h => placeAct_canonical id o _ x h
  unfold placeStep
  dsimp only
  split
  · grind
  split
  case h_5 =>
    have ht := agentTranslate_canonical (s := s) o.core (spaceOf s o.ctx o.level) (placeAddr o) .any false hc
    generalize agentTranslate s o.core (spaceOf s o.ctx o.level) (placeAddr o) .any false = q at ht
    obtain ⟨w, s1⟩ := q
    cases w with
    | ok x =>
      have := ha s1 x ht
      dsimp only
      split <;> next h => rw [h] at this; simp only [CanonicalAct] at this; grind
    | _ => dsimp only at ht ⊢; grind
  all_goals grind
grind_pattern placeStep_canonical => placeStep s id o

theorem payFor_canonical {s : State} (id : Nat) (o : Op) (p : Part) (segs : List Seg) (hc : Canonical s) : Canonical (payFor s id o p segs).2 := by
  grind [payFor, Canonical, foldl_canonical]
grind_pattern payFor_canonical => payFor s id o p segs

theorem performWindow_canonical {s : State} (id : Nat) (o : Op) (p : Part) (spa : Nat) (hc : Canonical s) : Canonical (performWindow s id o p spa) := by
  grind [performWindow, Canonical]
grind_pattern performWindow_canonical => performWindow s id o p spa

theorem memServe_canonical {s : State} (id : Nat) (o : Op) (p : Part) (hc : Canonical s) : Canonical (memServe s id o p) := by
  have h3 := fun (l : List Seg) (w : WFault) =>
    foldl_canonical (f := fun s (g : Seg) => faultPart s id o p.lane g.va w) (l := l) (fun _ _ h => faultPart_canonical id o p.lane _ _ h) hc
  have h4 := fun l => payFor_canonical id o p l hc
  unfold memServe
  dsimp only
  split
  · exact performWindow_canonical id o p _ hc
  split
  · exact lateTrap_canonical id o _ _ _ _ hc
  · exact postFaults_canonical _ (h3 _ _)
  · exact holdAccess_canonical _ _ _ hc
  · have h5 := h4 (segsOf p (partBytes o))
    split
    · next h => rw [h] at h5; exact performMem_canonical id o p _ h5
    · next h => rwa [h] at h5
grind_pattern memServe_canonical => memServe s id o p

theorem accessServe_canonical {s : State} (id : Nat) (o : Op) (p : Part) (hc : Canonical s) : Canonical (accessServe s id o p) := by
  grind [accessServe, Canonical]
grind_pattern accessServe_canonical => accessServe s id o p

theorem tierqServe_canonical {s : State} (id : Nat) (o : Op) (p : Part) (hc : Canonical s) : Canonical (tierqServe s id o p) := by
  grind [tierqServe, Canonical]
grind_pattern tierqServe_canonical => tierqServe s id o p

theorem homeServe_canonical {s : State} (id : Nat) (o : Op) (p : Part) (hc : Canonical s) : Canonical (homeServe s id o p) := by
  have hb : ∀ s r p m n b, Canonical s → Canonical (homeServe.barPart id o s r p m n b) := fun s r p m n b h => by
    grind [homeServe.barPart]
  unfold homeServe
  dsimp only
  split <;> grind
grind_pattern homeServe_canonical => homeServe s id o p

theorem acquired_canonical {s : State} (o : Op) (lane : Nat) (id : Nat) (hc : Canonical s) : Canonical (acquired o lane id s) := by
  grind [acquired, Canonical, foldl_canonical]
grind_pattern acquired_canonical => acquired o lane id s

theorem homeOp_canonical {s : State} (id lane : Nat) (hc : Canonical s) : Canonical (homeOp s id lane) := by
  grind [homeOp, Canonical]
grind_pattern homeOp_canonical => homeOp s id lane

theorem partOrder_canonical {s : State} (o : Op) (hc : Canonical s) : Canonical (partOrder s o).2 := by
  grind [partOrder, Canonical, foldl_canonical]
grind_pattern partOrder_canonical => partOrder s o

theorem homeAll_canonical {s : State} (id : Nat) (hc : Canonical s) : Canonical (homeAll s id) := by
  grind [homeAll, Canonical, foldl_canonical]
grind_pattern homeAll_canonical => homeAll s id

theorem redoPart_canonical {s : State} (x : Nat × Nat) (o : Op) (p : Part) (hc : Canonical s) : Canonical (redoPart s x o p) := by
  grind [redoPart, Canonical]
grind_pattern redoPart_canonical => redoPart s x o p

theorem replayPart_canonical {s : State} (x : Nat × Nat) (hc : Canonical s) : Canonical (replayPart s x) := by
  grind [replayPart, Canonical, foldl_canonical]
grind_pattern replayPart_canonical => replayPart s x

theorem replayFetch_canonical {s : State} (a : Nat) (page : Nat) (lanes : List Nat) (hc : Canonical s) : Canonical (replayFetch s a page lanes) := by
  grind [replayFetch, Canonical, foldl_canonical]
grind_pattern replayFetch_canonical => replayFetch s a page lanes

theorem replayBurst_canonical {s : State} (page : Nat) (x : Nat × Nat) (hc : Canonical s) : Canonical (replayBurst page s x) := by
  grind [replayBurst, Canonical, foldl_canonical]
grind_pattern replayBurst_canonical => replayBurst page s x

theorem replayQueues_canonical {s : State} (g : FaultGroup) (hc : Canonical s) : Canonical (replayQueues s g) := by
  grind [replayQueues, Canonical]
grind_pattern replayQueues_canonical => replayQueues s g

theorem replayGroup_canonical {s : State} (g : FaultGroup) (hc : Canonical s) : Canonical (replayGroup s g) := by
  have h1 : ∀ s, Canonical s → Canonical (g.ops.foldl replayPart s) := fun s h => foldl_canonical (fun s x h => replayPart_canonical x h) h
  have h2 : ∀ s, Canonical s → Canonical (g.cmds.foldl (replayBurst g.page) s) :=
    fun s h => foldl_canonical (fun s x h => replayBurst_canonical g.page x h) h
  unfold replayGroup
  dsimp only
  refine replayQueues_canonical g (h2 _ ?_)
  split
  · exact replayFetch_canonical _ _ _ hc
  · exact h1 _ hc
grind_pattern replayGroup_canonical => replayGroup s g

theorem askReplay_canonical {s : State} (g : FaultGroup) (hc : Canonical s) : Canonical (askReplay s g) := by
  grind [askReplay, Canonical]
grind_pattern askReplay_canonical => askReplay s g

theorem heldReplays_canonical {s : State} (hc : Canonical s) : Canonical (heldReplays s) := by
  unfold heldReplays
  refine foldl_canonical (fun _ _ h => ?_) hc
  grind [Canonical, foldl_canonical]
grind_pattern heldReplays_canonical => heldReplays s

/-! Sys2Proof/Machine/MemoryOps.lean -/

theorem startOp_canonical {s : State} (e : Env) (mk : Nat → Op) (hc : Canonical s) : Canonical (startOp s e mk).2 := by
  grind [startOp, Canonical]
grind_pattern startOp_canonical => startOp s e mk

theorem varWord_canonical {s : State} (h : Pfx) (i : Instr) (addrs : Env → List (Nat × Nat)) (act : Env → State) {t : State}
    (ha : ∀ e, Canonical (act e)) (hc : Canonical s) (ht : varWord s h i addrs act = .next t) : Canonical t := by
  unfold varWord at ht
  refine onIssue_canonical h false _ (fun e he => ?_) ht
  grind

theorem memWord_canonical {s : State} (h : Pfx) (i : Instr) {out : State} (hc : Canonical s) (ht : memWord s h i = .next out) : Canonical out := by
  grind [memWord, Canonical, varWord_canonical]

theorem prefetchLine_canonical {s : State} (who : Asker) (pay : Payer) (l1 : Option L1) (x : Xlat) (va : Nat) (hc : Canonical s) : Canonical (prefetchLine s who pay l1 x va) := by
  grind [prefetchLine, Canonical, foldl_canonical]
grind_pattern prefetchLine_canonical => prefetchLine s who pay l1 x va

theorem prefetchLane_canonical {s : State} (e : Env) (r : FmtM) (lane : Nat) (hc : Canonical s) : Canonical (prefetchLane e r s lane) := by
  grind [prefetchLane, Canonical]
grind_pattern prefetchLane_canonical => prefetchLane e r s lane

/-! Sys2Proof/Machine/SyncOps.lean -/

theorem settle_canonical {s : State} (id : Nat) (hc : Canonical s) : Canonical (settle s id) := by
  grind [settle, Canonical]
grind_pattern settle_canonical => settle s id

theorem barNote_canonical {s : State} (e : Env) (r : FmtM) (mask : LaneSet) (pend : Bool) (hc : Canonical s) : Canonical (barNote s e r mask pend) := by
  grind [barNote, Canonical, foldl_canonical]
grind_pattern barNote_canonical => barNote s e r mask pend

theorem barWord_canonical {s : State} (h : Pfx) (i : Instr) (sleep : Bool) {out : State} (hc : Canonical s) (ht : barWord s h i sleep = .next out) : Canonical out := by
  grind [barWord, Canonical, varWord_canonical, foldl_canonical]

theorem uniformWord_canonical {s : State} (h : Pfx) (i : Instr) (addrs : Env → List (Nat × Nat)) (va : Env → DWord) (st : PartState) (args : Env → List DWord) {out : State} (hc : Canonical s) (ht : uniformWord s h i addrs va st args = .next out) : Canonical out := by
  grind [uniformWord, Canonical, varWord_canonical]

theorem placeWord_canonical {s : State} (h : Pfx) (i : Instr) {out : State} (hc : Canonical s) (ht : placeWord s h i = .next out) : Canonical out := by
  grind [placeWord, Canonical, uniformWord_canonical]

/-! Sys2Proof/Machine/EngineOps.lean -/

theorem engineWord_canonical {s : State} (h : Pfx) (i : Instr) (args : Env → List DWord) (vals : Env → List (Nat × BitVec 128)) {out : State} (hc : Canonical s) (ht : engineWord s h i args vals = .next out) : Canonical out := by
  grind [engineWord, Canonical, onIssue_canonical]

theorem shapeWord_canonical {s : State} (h : Pfx) (i : Instr) (n : Nat) (addr : Env → DWord) {out : State} (hc : Canonical s) (ht : shapeWord s h i n addr = .next out) : Canonical out := by
  grind [shapeWord, Canonical, onIssue_canonical]

theorem slotWord_canonical {s : State} (h : Pfx) (i : Instr) (quiet : Bool) (args : Env → List DWord) {out : State} (hc : Canonical s) (ht : slotWord s h i quiet args = .next out) : Canonical out := by
  grind [slotWord, Canonical, onIssue_canonical]

theorem stopRead_canonical {s : State} (id : Nat) (hc : Canonical s) : Canonical (stopRead s id) := by
  grind [stopRead, Canonical]
grind_pattern stopRead_canonical => stopRead s id

theorem lendWord_canonical {s : State} (h : Pfx) (stop : Bool) {out : State} (hc : Canonical s) (ht : lendWord s h stop = .next out) : Canonical out := by
  grind [lendWord, Canonical, onIssue_canonical, foldl_canonical]

theorem sendOfCore_canonical {s : State} (core : Nat) (hc : Canonical s) : Canonical (sendOfCore s core) := by
  grind [sendOfCore, Canonical]
grind_pattern sendOfCore_canonical => sendOfCore s core

/-! Sys2Proof/Machine/EngineEvents.lean -/

theorem chargeCmd_canonical {s : State} (c : Cmd) (n : Nat) (hc : Canonical s) : Canonical (chargeCmd s c n) := by
  grind [chargeCmd, Canonical]
grind_pattern chargeCmd_canonical => chargeCmd s c n

theorem runCycles_canonical {s : State} (id : Nat) (c : Cmd) (hc : Canonical s) : Canonical (runCycles s id c) := by
  grind [runCycles, Canonical, foldl_canonical]
grind_pattern runCycles_canonical => runCycles s id c

theorem startSub_canonical {s : State} (id : Nat) (c : Cmd) (hc : Canonical s) : Canonical (startSub s id c) := by
  grind [startSub, Canonical]
grind_pattern startSub_canonical => startSub s id c

theorem drainSub_canonical {s : State} (bid index : Nat) (hc : Canonical s) : Canonical (drainSub s bid index) := by
  unfold drainSub
  refine foldl_canonical (fun _ _ h => ?_) hc
  grind [Canonical, foldl_canonical]
grind_pattern drainSub_canonical => drainSub s bid index

theorem endSub_canonical {s : State} (bid index : Nat) (hc : Canonical s) : Canonical (endSub s bid index) := by
  grind [endSub, Canonical]
grind_pattern endSub_canonical => endSub s bid index

theorem walkLine_canonical {s : State} (die : Nat) (cls : BitVec 2) (inv : Bool) (line : Nat) (hc : Canonical s) : Canonical (walkLine die cls inv s line) := by
  grind [walkLine, Canonical, foldl_canonical]
grind_pattern walkLine_canonical => walkLine die cls inv s line

theorem walkCharged_canonical {s : State} (who : Asker) (cls : BitVec 2) (inv : Bool) (line : Nat) (hc : Canonical s) : Canonical (walkCharged who cls inv s line) := by
  grind [walkCharged, Canonical, foldl_canonical]
grind_pattern walkCharged_canonical => walkCharged who cls inv s line

theorem walkPage_canonical (c : Cmd) (lo hi : Nat) (inv : Bool) {s : State} (page : Nat) (hc : Canonical s) : Canonical (walkPage c lo hi inv s page) := by
  have h : ∀ (l : List Nat) w k s, Canonical s → Canonical (l.foldl (walkCharged w k inv) s) :=
    fun l w k s h => foldl_canonical (fun s x h => walkCharged_canonical w k inv x h) h
  grind [walkPage]
grind_pattern walkPage_canonical => walkPage c lo hi inv s page

theorem walkRange_canonical {s : State} (c : Cmd) (inv : Bool) (hc : Canonical s) : Canonical (walkRange s c inv) := by
  grind [walkRange, Canonical, foldl_canonical]
grind_pattern walkRange_canonical => walkRange s c inv

theorem startList_canonical {s : State} (id : Nat) (c : Cmd) (d : DWord) (hc : Canonical s) : Canonical (startList s id c d) := by
  grind [startList, Canonical]
grind_pattern startList_canonical => startList s id c d

theorem startCmd_canonical {s : State} (id : Nat) (c : Cmd) (hc : Canonical s) : Canonical (startCmd s id c) := by
  grind [startCmd, Canonical]
grind_pattern startCmd_canonical => startCmd s id c

theorem unitReach_canonical {s : State} (c : Cmd) (w : Who) (t : Slot) (addr : Nat) (need : Need) (hc : Canonical s) :
    Canonical (unitReach s c w t addr need).2 := by
  grind [unitReach, Canonical]
grind_pattern unitReach_canonical => unitReach s c w t addr need

theorem sideReach_canonical (c : Cmd) (w : Who) (t : Slot) (need : Need) (acc : List (Nat × Reach) × State) (addr : Nat) (h : Canonical acc.2) :
    Canonical (sideReach c w t need acc addr).2 := by
  grind [sideReach]

theorem foldl_snd_canonical {α β : Type} {f : β × State → α → β × State} {l : List α} {p : β × State} (hf : ∀ p x, Canonical p.2 → Canonical (f p x).2)
    (h : Canonical p.2) : Canonical (l.foldl f p).2 := by
  induction l generalizing p with
  | nil => exact h
  | cons a t ih => exact ih (hf _ _ h)

theorem sides_canonical (c : Cmd) (w : Who) (t : Slot) (need : Need) (l : List Nat) (p : List (Nat × Reach) × State) (h : Canonical p.2) :
    Canonical (l.foldl (sideReach c w t need) p).2 := foldl_snd_canonical (fun p x h => sideReach_canonical c w t need p x h) h
grind_pattern sides_canonical => l.foldl (sideReach c w t need) p

theorem readUnits_canonical {s : State} (w : Who) (z : Nat) (l : List (Nat × Reach)) (hc : Canonical s) : Canonical (readUnits w z s l).2.2 := by
  induction l generalizing s with
  | nil => exact hc
  | cons a t ih => obtain ⟨a, p⟩ := a; unfold readUnits; grind
grind_pattern readUnits_canonical => readUnits w z s l

theorem moveBurst_canonical {s : State} (id : Nat) (c : Cmd) (burst z : Nat) (src dst : List (Nat × Reach)) (hc : Canonical s) :
    Canonical (moveBurst s id c burst z src dst) := by
  have hf : ∀ (l : List (Reach × List Byte)) s, Canonical s → Canonical (l.foldl (fun s p => giveBytes s (burstWho id c burst) p.2 p.1) s) :=
    fun l s h => foldl_canonical (fun s p h => giveBytes_canonical _ _ _ h) h
  have hr := readUnits_canonical (burstWho id c burst) z src (countBurst_canonical (burstWho id c burst) .read (allSegs src) hc)
  unfold moveBurst
  dsimp only
  split
  · next he => rw [he] at hr; exact trapCmd_canonical _ _ _ _ _ hr
  · next l s1 he =>
    rw [he] at hr
    have := hf (joinWrites (dst.zip l |>.map (fun p => (p.1.2, p.2)))) _ (countBurst_canonical (burstWho id c burst) .write (allSegs dst) hr)
    grind
grind_pattern moveBurst_canonical => moveBurst s id c burst z src dst

theorem copyBurst_canonical {s : State} (id : Nat) (c : Cmd) (burst : Nat) (b : CopyBurst) (hc : Canonical s) : Canonical (copyBurst s id c burst b) := by
  unfold copyBurst
  extract_lets d a w us
  have h1 := sides_canonical c w a .read (us.map (fun u => a.addr u b.sx1 b.x2 b.x3)) ([], s) hc
  split
  next src s1 e1 =>
  rw [e1] at h1
  have h2 := sides_canonical c w d .write (us.map (fun u => d.addr u b.dx1 b.x2 b.x3)) ([], s1) h1
  split
  next dst s2 e2 =>
  rw [e2] at h2
  dsimp only at h2
  split
  · grind
  · dsimp only
    split
    · exact foldl_canonical (fun s x h => faultBurst_canonical _ _ _ _ _ h) (foldl_canonical (fun s x h => faultBurst_canonical _ _ _ _ _ h) h2)
    · split
      · exact h2
      · have h3 := payReach_canonical w (reachPorts s2 w none .read (allSegs src) ++ reachPorts s2 w none .write (allSegs dst)) h2
        split
        · next h => rwa [h] at h3
        · next h => rw [h] at h3; exact moveBurst_canonical _ _ _ _ _ _ h3
grind_pattern copyBurst_canonical => copyBurst s id c burst b

theorem requestBurst_canonical {s : State} (id : Nat) (c : Cmd) (burst : Nat) (b : ReadBurst) (hc : Canonical s) : Canonical (requestBurst s id c burst b) := by
  grind [requestBurst, Canonical]
grind_pattern requestBurst_canonical => requestBurst s id c burst b

theorem bornLadle_canonical {s : State} (id : Nat) (c : Cmd) (slot : Nat) (regs : Regs) (data : LadleData) (hc : Canonical s) : Canonical (bornLadle s id c slot regs data) := by
  grind [bornLadle, Canonical]
grind_pattern bornLadle_canonical => bornLadle s id c slot regs data

theorem dropAgent_canonical {s : State} (a : Nat) (hc : Canonical s) : Canonical (dropAgent s a) := by
  grind [dropAgent, Canonical]
grind_pattern dropAgent_canonical => dropAgent s a

theorem endCmd_canonical {s : State} (id : Nat) (c : Cmd) (hc : Canonical s) : Canonical (endCmd s id c) := by
  unfold endCmd
  refine foldl_canonical (fun s l h => unpark_canonical _ _ l h) ?_
  have := flagDown_canonical (s := if isRead c.instr then modBlock s c.block (fun b => { b with progress := b.progress ++ [(id, c.bits)] }) else s) c.agent c.flag
    (by grind)
  exact this
grind_pattern endCmd_canonical => endCmd s id c

theorem accrdWrite_canonical {s : State} (c : Cmd) (r : FmtE) (hc : Canonical s) : Canonical (accrdWrite s c r) := by
  grind [accrdWrite, Canonical, foldl_canonical]
grind_pattern accrdWrite_canonical => accrdWrite s c r

theorem finishCmd_canonical {s : State} (id : Nat) (c : Cmd) (hc : Canonical s) : Canonical (finishCmd s id c).2 := by
  unfold finishCmd
  dsimp only
  split
  · exact hc
  · split
    case h_2 =>
      split
      · next h => exact doAccld_some hc h
      · next h => have := doAccld_canonical c.block ‹FmtE› (slotAt c.recs 0) hc; rw [h] at this; grind
    all_goals first | exact hc | grind
grind_pattern finishCmd_canonical => finishCmd s id c

theorem releaseCmd_canonical {s : State} (id : Nat) (c : Cmd) (hc : Canonical s) : Canonical (releaseCmd s id c) := by
  grind [releaseCmd, Canonical]
grind_pattern releaseCmd_canonical => releaseCmd s id c

theorem completeCmd_canonical {s : State} (id : Nat) (c : Cmd) (hc : Canonical s) : Canonical (completeCmd s id c) := by
  have h1 := finishCmd_canonical id c hc
  have h2 : ∀ x y, finishCmd s id c = (some x, y) → Canonical x := by
    intro x y h
    have : ∀ p, p = finishCmd s id c → ∀ x y, p = (some x, y) → x = y := by
      intro p hp x y h
      unfold finishCmd at hp
      (repeat' split at hp) <;> grind
    rw [this _ rfl x y h]
    rwa [h] at h1
  unfold completeCmd
  split
  · grind
  split
  · exact hc
  · split
    · next h => rwa [h] at h1
    · next h => have := h2 _ _ h; grind
grind_pattern completeCmd_canonical => completeCmd s id c

/-! Sys2Proof/Machine/System.lean -/

theorem systemWord_canonical {s : State} (h : Pfx) (i : Instr) (args : Env → List DWord) (check : Env → List DWord → Option TrapCode) {out : State} (hc : Canonical s) (ht : systemWord s h i args check = .next out) : Canonical out := by
  grind [systemWord, Canonical, onIssue_canonical]

theorem usersLeft_canonical {s : State} (l : List (Nat × Nat)) (hc : Canonical s) : Canonical (usersLeft s l).2 := by
  unfold usersLeft
  exact foldl_snd_canonical (fun p x h => by grind [Canonical]) hc
grind_pattern usersLeft_canonical => usersLeft s l

theorem invalidate_canonical {s : State} (vmid : Option (BitVec 8)) (sel : TlbEntry → Bool) (hc : Canonical s) : Canonical (invalidate s vmid sel).2 := by
  unfold invalidate
  dsimp only
  refine usersLeft_canonical _ ?_
  split
  · exact tlbRemove_canonical _ _ hc
  · exact hc
grind_pattern invalidate_canonical => invalidate s vmid sel

theorem tlbiEffect_canonical {s : State} (o : Op) (hc : Canonical s) : Canonical (tlbiEffect s o).2 := by
  unfold tlbiEffect
  dsimp only
  split <;> exact invalidate_canonical _ _ hc
grind_pattern tlbiEffect_canonical => tlbiEffect s o

theorem tlbiServe_canonical {s : State} (id : Nat) (o : Op) (hc : Canonical s) : Canonical (tlbiServe s id o) := by
  grind [tlbiServe, Canonical, foldl_canonical]
grind_pattern tlbiServe_canonical => tlbiServe s id o

theorem atpServe_canonical {s : State} (id : Nat) (o : Op) (r : FmtE) (hc : Canonical s) : Canonical (atpServe s id o r) := by
  grind [atpServe, Canonical]
grind_pattern atpServe_canonical => atpServe s id o r

theorem lcinvPage_canonical {s : State} (page : Nat) (hc : Canonical s) : Canonical (lcinvPage s page) := by
  grind [lcinvPage, Canonical]
grind_pattern lcinvPage_canonical => lcinvPage s page

theorem lcinvRange_canonical {s : State} (base len : Nat) (hc : Canonical s) : Canonical (lcinvRange s base len) := by
  grind [lcinvRange, Canonical, foldl_canonical]
grind_pattern lcinvRange_canonical => lcinvRange s base len

theorem notifyEffect_canonical {s : State} (o : Op) (hc : Canonical s) : Canonical (notifyEffect s o).2 := by
  grind [notifyEffect, Canonical]
grind_pattern notifyEffect_canonical => notifyEffect s o

theorem injectErr_canonical {s : State} (x : HwErr) (hc : Canonical s) : Canonical (injectErr s x) := by
  exact hc
grind_pattern injectErr_canonical => injectErr s x

theorem injectMem_canonical {s : State} (spa : Nat) (unc : Bool) (inL2 : Bool) (hc : Canonical s) : Canonical (injectMem s spa unc inL2) := by
  grind [injectMem, Canonical, foldl_canonical]
grind_pattern injectMem_canonical => injectMem s spa unc inL2

theorem ecciServe_canonical {s : State} (id : Nat) (o : Op) (unc : Bool) (hc : Canonical s) : Canonical (ecciServe s id o unc) := by
  grind [ecciServe, Canonical]
grind_pattern ecciServe_canonical => ecciServe s id o unc

theorem syscPost_canonical {s : State} (id : Nat) (o : Op) (r : FmtE) (hc : Canonical s) : Canonical (syscPost s id o r) := by
  grind [syscPost, Canonical]
grind_pattern syscPost_canonical => syscPost s id o r

theorem systemEffect_canonical {s : State} (id : Nat) (o : Op) (hc : Canonical s) : Canonical (systemEffect s id o) := by
  grind [systemEffect, Canonical, foldl_canonical]
grind_pattern systemEffect_canonical => systemEffect s id o

theorem systemServe_canonical {s : State} (id : Nat) (o : Op) (p : Part) (hc : Canonical s) : Canonical (systemServe s id o p) := by
  grind [systemServe, Canonical]
grind_pattern systemServe_canonical => systemServe s id o p

/-! Sys2Proof/Machine/Launch.lean -/

theorem packRegs_canonical {s : State} (core : Nat) (hc : Canonical s) : Canonical (packRegs s core) := by
  grind [packRegs, Canonical, foldl_canonical]
grind_pattern packRegs_canonical => packRegs s core

theorem freeRegs_canonical {s : State} (core n : Nat) (hc : Canonical s) : Canonical (freeRegs s core n).2 := by
  unfold freeRegs
  split
  · exact hc
  · exact packRegs_canonical core hc
grind_pattern freeRegs_canonical => freeRegs s core n

theorem argsFault_canonical {s : State} (a : Nat) (ag : Agent) (entry : DWord) (va : Nat) (w : WFault) (hc : Canonical s) :
    Canonical (argsFault s a ag entry va w) := by
  unfold argsFault
  extract_lets f
  clear_value f
  have := newGroup_canonical f (fun gid => { FaultGroup.of gid f with ops := allLanes.map (fun l => (0, l)), fetch := some a }) hc
  split
  next h => rw [h] at this; grind
grind_pattern argsFault_canonical => argsFault s a ag entry va w

theorem startCohort_canonical {s : State} (a : Nat) (hc : Canonical s) : Canonical (startCohort s a) := by
  grind [startCohort, Canonical]
grind_pattern startCohort_canonical => startCohort s a

theorem newCohort_canonical {s : State} (bid : Nat) (b : Block) (p : BitVec 512) (i : Nat) (hc : Canonical s) : Canonical (newCohort s bid b p i) := by
  grind [newCohort, Canonical, foldl_canonical]
grind_pattern newCohort_canonical => newCohort s bid b p i

theorem placeBlock_canonical {s : State} (l core child linear : Nat) (p : BitVec 512) (ctx : Nat) (hc : Canonical s) : Canonical (placeBlock s l core child linear p ctx) := by
  unfold placeBlock
  refine foldl_canonical (fun _ _ h => ?_) hc
  grind [Canonical, foldl_canonical]
grind_pattern placeBlock_canonical => placeBlock s l core child linear p ctx

theorem noteClock_canonical {s : State} (q core ctx pos : Nat) (hc : Canonical s) : Canonical (noteClock s q core ctx pos) := by
  grind [noteClock, Canonical]
grind_pattern noteClock_canonical => noteClock s q core ctx pos

theorem placeTurn_canonical {s : State} (id : Nat) (l : Launch) (cores : List Nat) {t : State} (hc : Canonical s) (ht : placeTurn s id l cores = some t) :
    Canonical t := by
  unfold placeTurn at ht
  split at ht
  · cases ht
  · dsimp only at ht
    rw [Option.map_eq_some_iff] at ht
    obtain ⟨cs, -, rfl⟩ := ht
    generalize hS : List.foldl (fun s x => noteClock _ _ _ _ _) s _ = S
    have h1 : Canonical S := by
      rw [← hS]
      exact foldl_canonical (fun s x h => by grind) hc
    show Canonical (if _ then S else _)
    split <;> exact h1

theorem placeWhole_canonical {s : State} (id : Nat) (cores : List Nat) (n : Nat) {t : State} (hc : Canonical s) (ht : placeWhole s id cores n = some t) :
    Canonical t := by
  induction n generalizing s with
  | zero => cases ht
  | succ n ih =>
    unfold placeWhole at ht
    split at ht
    · cases ht
    · split at ht
      · cases ht; exact hc
      · split at ht
        · cases ht
        · next h => exact ih (placeTurn_canonical _ _ _ hc h) ht

theorem placeCoop_canonical {s : State} (id : Nat) (l : Launch) (cores : List Nat) {t : State} (hc : Canonical s) (ht : placeCoop s id l cores = some t) :
    Canonical t := by
  grind [placeCoop, placeWhole_canonical]

theorem bareWith_canonical {s : State} (l : Launch) (hc : Canonical s) : Canonical (bareWith s l) := by
  exact hc
grind_pattern bareWith_canonical => bareWith s l

theorem mergeChildren_canonical {s : State} (id : Nat) (l) (hc : Canonical s) : Canonical (mergeChildren s id l) := by
  induction l generalizing s id with
  | zero => exact hc
  | succ a ih =>
    unfold mergeChildren; grind [Canonical]
grind_pattern mergeChildren_canonical => mergeChildren s id l

theorem tryPlace_canonical {s : State} (id : Nat) {out : State} (hc : Canonical s) (ht : tryPlace s id = some out) : Canonical out := by
  grind [tryPlace, Canonical, placeTurn_canonical, placeCoop_canonical]

theorem startAll_canonical {s : State} (hc : Canonical s) : Canonical (startAll s) := by
  unfold startAll
  refine foldl_canonical (fun _ _ h => ?_) hc
  grind [Canonical, foldl_canonical]
grind_pattern startAll_canonical => startAll s

theorem cohortRetire_canonical {s : State} (a : Nat) (hc : Canonical s) : Canonical (cohortRetire s a) := by
  grind [cohortRetire, Canonical]
grind_pattern cohortRetire_canonical => cohortRetire s a

theorem endSharing_canonical {s : State} (bid : Nat) (hc : Canonical s) : Canonical (endSharing s bid) := by
  grind [endSharing, Canonical, foldl_canonical]
grind_pattern endSharing_canonical => endSharing s bid

theorem releaseSys_canonical {s : State} (ctx : Nat) (hc : Canonical s) : Canonical (releaseSys s ctx) := by
  grind [releaseSys, Canonical, foldl_canonical]
grind_pattern releaseSys_canonical => releaseSys s ctx

theorem endPacket_canonical {s : State} (q : Nat) (pos : BitVec 32) (status detail : Nat) (hc : Canonical s) : Canonical (endPacket s q pos status detail) := by
  exact hc
grind_pattern endPacket_canonical => endPacket s q pos status detail

theorem launchRetire_canonical {s : State} (id child : Nat) (hc : Canonical s) : Canonical (launchRetire s id child) := by
  grind [launchRetire, dropCode, Canonical]
grind_pattern launchRetire_canonical => launchRetire s id child

theorem blockRetire_canonical {s : State} (bid : Nat) (hc : Canonical s) : Canonical (blockRetire s bid) := by
  grind [blockRetire, Canonical]
grind_pattern blockRetire_canonical => blockRetire s bid

end Sys2Proof.Machine
end

