-- ==== Sys2Proof/Laws/CanonHub.lean ====
section
/-! SUPPORT. Every operation keeps the canonical form of memory: harts, packets, registers, calls, traps, tiers, contexts and the platform. The patterns let `grind` use each lemma where its
operation stands. -/

namespace Sys2Proof.Machine

set_option Elab.async false

/-! Sys2Proof/Machine/Packets.lean -/

theorem modPkt_canonical {s : State} (q : Nat) (pos : BitVec 32) (f : Packet → Packet) (hc : Canonical s) : Canonical (modPkt s q pos f) := by
  exact hc
grind_pattern modPkt_canonical => modPkt s q pos f

theorem journalAccept_canonical {s : State} (k : Packet) (hc : Canonical s) : Canonical (journalAccept s k) := by
  grind [journalAccept, Canonical, foldl_canonical]
grind_pattern journalAccept_canonical => journalAccept s k

theorem journalStatus_canonical {s : State} (k : Packet) (hc : Canonical s) : Canonical (journalStatus s k) := by
  grind [journalStatus, Canonical, foldl_canonical]
grind_pattern journalStatus_canonical => journalStatus s k

theorem recordAccept_canonical {s : State} (k : Packet) (hc : Canonical s) : Canonical (recordAccept s k) := by
  grind [recordAccept, Canonical]
grind_pattern recordAccept_canonical => recordAccept s k

theorem acceptPacket_canonical {s : State} (q : Nat) (p : BitVec 512) (hc : Canonical s) : Canonical (acceptPacket s q p) := by
  grind [acceptPacket, Canonical]
grind_pattern acceptPacket_canonical => acceptPacket s q p

theorem pktWaits_canonical {s : State} (q : Nat) (pos : BitVec 32) (va : Nat) (write : Bool) (w : WFault) (hc : Canonical s) : Canonical (pktWaits s q pos va write w) := by
  grind [pktWaits, Canonical]
grind_pattern pktWaits_canonical => pktWaits s q pos va write w

theorem chargeBurst_canonical {s : State} (q : Nat) (hc : Canonical s) : Canonical (chargeBurst s q) := by
  grind [chargeBurst, Canonical]
grind_pattern chargeBurst_canonical => chargeBurst s q

theorem parkPktBurst_canonical {s : State} (q : Nat) (pos : BitVec 32) (p : BitVec 512) (o va : Nat) (write : Bool) (w : WFault) (hc : Canonical s) : Canonical (parkPktBurst s q pos p o va write w) := by
  grind [parkPktBurst, Canonical]
grind_pattern parkPktBurst_canonical => parkPktBurst s q pos p o va write w

theorem burstMade_canonical {s : State} (q : Nat) (pos : BitVec 32) (o : Nat) (hc : Canonical s) : Canonical (burstMade s q pos o) := by
  grind [burstMade, Canonical, foldl_canonical]
grind_pattern burstMade_canonical => burstMade s q pos o

theorem pktBurst_canonical {s : State} (q : Nat) (pos : BitVec 32) (p : BitVec 512) (o : Nat) (hc : Canonical s) : Canonical (pktBurst s q pos p o).2 := by
  grind [pktBurst, Canonical]
grind_pattern pktBurst_canonical => pktBurst s q pos p o

theorem copyEnd_canonical {s : State} (q : Nat) (pos : BitVec 32) (hc : Canonical s) : Canonical (copyEnd s q pos) := by
  grind [copyEnd, Canonical]
grind_pattern copyEnd_canonical => copyEnd s q pos

theorem waitMemory_canonical {s : State} (q : Nat) (pos : BitVec 32) (p : BitVec 512) (hc : Canonical s) : Canonical (waitMemory s q pos p) := by
  grind [waitMemory, Canonical]
grind_pattern waitMemory_canonical => waitMemory s q pos p

theorem waitTest_canonical {s : State} (q : Nat) (pos : BitVec 32) (hc : Canonical s) : Canonical (waitTest s q pos) := by
  grind [waitTest, Canonical]
grind_pattern waitTest_canonical => waitTest s q pos

theorem migratePage_canonical {s : State} (q : Nat) (pos : BitVec 32) (p : BitVec 512) (va : Nat) (hc : Canonical s) : Canonical (migratePage s q pos p va) := by
  unfold migratePage
  dsimp only
  split
  case h_3 =>
    have ht := agentTranslate_canonical (s := s) (pktWho s q pos).core (spaceOf s (pktWho s q pos).ctx (pktWho s q pos).level) va .any false hc
    generalize agentTranslate s (pktWho s q pos).core (spaceOf s (pktWho s q pos).ctx (pktWho s q pos).level) va .any false = r at ht
    obtain ⟨w, s1⟩ := r
    cases w with
    | ok x =>
      have := hintPage_canonical (s := s1) (pktWho s q pos).ctx (xlatOut x va / 2 ^ 19) (pfld p 192 3) 3 (x.cls == 1) ht
      dsimp only
      split <;> next h => rw [h] at this; simp only [CanonicalAct] at this; grind
    | _ => dsimp only at ht ⊢; grind
  all_goals grind
grind_pattern migratePage_canonical => migratePage s q pos p va

theorem advanceDone_canonical {s : State} (q : Nat) (hc : Canonical s) : Canonical (advanceDone s q) := by
  grind [advanceDone, Canonical]
grind_pattern advanceDone_canonical => advanceDone s q

theorem sigRefused_canonical {s : State} (q va : Nat) (hc : Canonical s) : Canonical (sigRefused s q va) := by
  grind [sigRefused, Canonical]
grind_pattern sigRefused_canonical => sigRefused s q va

theorem writeCompletion_canonical {s : State} (p : Packet) (hc : Canonical s) : Canonical (writeCompletion s p) := by
  grind [writeCompletion, Canonical]
grind_pattern writeCompletion_canonical => writeCompletion s p

theorem dropDone_canonical {s : State} (q : Nat) (hc : Canonical s) : Canonical (dropDone s q) := by
  exact hc
grind_pattern dropDone_canonical => dropDone s q

theorem execPacketComplete_canonical {s t : State} (q n : Nat) (hc : Canonical s) (ht : execPacketComplete q n s = .next t) : Canonical t := by
  unfold execPacketComplete at ht
  (repeat' split at ht) <;> grind [Canonical]

theorem execCopyPacket_canonical {s t : State} (q n : Nat) (hc : Canonical s) (ht : execCopyPacket q n s = .next t) : Canonical t := by
  unfold execCopyPacket at ht
  (repeat' split at ht) <;> grind [Canonical]

theorem execDependenceWait_canonical {s t : State} (q n : Nat) (hc : Canonical s) (ht : execDependenceWait q n s = .next t) : Canonical t := by
  unfold execDependenceWait at ht
  (repeat' split at ht) <;> grind [Canonical]

theorem execSignal_canonical {s t : State} (q n : Nat) (hc : Canonical s) (ht : execSignal q n s = .next t) : Canonical t := by
  unfold execSignal at ht
  (repeat' split at ht) <;> grind [Canonical]

theorem packetAccess_canonical {s t : State} (q : Nat) (pos : BitVec 32) (hc : Canonical s) (ht : packetAccess s q pos = .next t) : Canonical t := by
  unfold packetAccess at ht
  repeat' split at ht
  · injection ht with ht; rw [← ht]; exact hc
  · exact execPacketComplete_canonical _ _ hc ht
  · exact execCopyPacket_canonical _ _ hc ht
  · exact execDependenceWait_canonical _ _ hc ht
  · exact execSignal_canonical _ _ hc ht
  · injection ht with ht; rw [← ht]; exact hc

/-! Sys2Proof/Machine/Registers.lean -/

theorem recctlWrite_canonical {s : State} (q : Nat) (v : DWord) (hc : Canonical s) : Canonical (recctlWrite s q v) := by
  grind [recctlWrite, Canonical]
grind_pattern recctlWrite_canonical => recctlWrite s q v

theorem pcapWrite_canonical {s : State} (n : Nat) (v : DWord) (hc : Canonical s) : Canonical (pcapWrite s n v) := by
  grind [pcapWrite, Canonical]
grind_pattern pcapWrite_canonical => pcapWrite s n v

theorem regWrite_canonical {s : State} (r : WinReg) (v : DWord) (hc : Canonical s) : Canonical (regWrite s r v) := by
  unfold regWrite
  dsimp only
  split
  all_goals first
    | exact hc
    | grind
    | (split <;> exact hc)
grind_pattern regWrite_canonical => regWrite s r v

theorem cutRecord_canonical {s : State} (merge : Bool) (which : BitVec 2) (status busy us : Nat) (hc : Canonical s) : Canonical (cutRecord s merge which status busy us) := by
  grind [cutRecord, Canonical]
grind_pattern cutRecord_canonical => cutRecord s merge which status busy us

theorem cutRequest_canonical {s : State} (merge : Bool) (v : DWord) (hc : Canonical s) : Canonical (cutRequest s merge v) := by
  grind [cutRequest, Canonical]
grind_pattern cutRequest_canonical => cutRequest s merge v

theorem cutEnd_canonical {s : State} (c : CutChange) (status : Nat) (busy : Option Nat) (hc : Canonical s) : Canonical (cutEnd s c status busy) := by
  grind [cutEnd, Canonical]
grind_pattern cutEnd_canonical => cutEnd s c status busy

theorem cutRewrite_canonical {s : State} (c : CutChange) (hc : Canonical s) : Canonical (cutRewrite s c) := by
  grind [cutRewrite, Canonical, foldl_canonical]
grind_pattern cutRewrite_canonical => cutRewrite s c

theorem shootDown_canonical {s : State} (quarters : List Nat) (hc : Canonical s) : Canonical (shootDown s quarters) := by
  grind [shootDown, Canonical]
grind_pattern shootDown_canonical => shootDown s quarters

/-! Sys2Proof/Machine/Services.lean -/

theorem answerCall_canonical {s : State} (c : SysCall) (v : DWord) (hc : Canonical s) : Canonical (answerCall s c v) := by
  grind [answerCall, Canonical]
grind_pattern answerCall_canonical => answerCall s c v

theorem fwAnswer_canonical {s : State} (c : SysCall) (v : DWord) (hc : Canonical s) : Canonical (fwAnswer s c v) := by
  grind [fwAnswer, Canonical]
grind_pattern fwAnswer_canonical => fwAnswer s c v

theorem extendMeas_canonical {s : State} (n : Nat) (d : List Byte) (hc : Canonical s) : Canonical (extendMeas s n d) := by
  exact hc
grind_pattern extendMeas_canonical => extendMeas s n d

/-! Sys2Proof/Machine/TrapAct.lean -/

theorem endPackets_canonical {s : State} (ctx : Nat) (hc : Canonical s) : Canonical (endPackets s ctx) := by
  grind [endPackets, Canonical]
grind_pattern endPackets_canonical => endPackets s ctx

theorem preemptRecord_canonical {s : State} (ctx op status since : Nat) (hc : Canonical s) : Canonical (preemptRecord s ctx op status since) := by
  grind [preemptRecord, Canonical]
grind_pattern preemptRecord_canonical => preemptRecord s ctx op status since

theorem endRequest_canonical {s : State} (p : Preempt) (status : Nat) (hc : Canonical s) : Canonical (endRequest s p status) := by
  grind [endRequest, Canonical]
grind_pattern endRequest_canonical => endRequest s p status

theorem endHeld_canonical {s : State} (ctx : Nat) (hc : Canonical s) : Canonical (endHeld s ctx) := by
  unfold endHeld
  exact foldl_canonical (fun s x h => by grind) (takeKept_canonical _ hc)
grind_pattern endHeld_canonical => endHeld s ctx

theorem removeWork_canonical {s : State} (ctx : Nat) (hc : Canonical s) : Canonical (removeWork s ctx) := by
  grind [removeWork, Canonical]
grind_pattern removeWork_canonical => removeWork s ctx

theorem endContext_canonical {s : State} (ctx : Nat) (hc : Canonical s) : Canonical (endContext s ctx) := by
  grind [endContext, Canonical, foldl_canonical]
grind_pattern endContext_canonical => endContext s ctx

theorem retireTrap_canonical {s : State} (t : TrapInfo) (hc : Canonical s) : Canonical (retireTrap s t) := by
  grind [retireTrap, Canonical]
grind_pattern retireTrap_canonical => retireTrap s t

theorem resumePart_canonical {s : State} (x : Nat × Nat) (hc : Canonical s) : Canonical (resumePart s x) := by
  grind [resumePart, Canonical, foldl_canonical]
grind_pattern resumePart_canonical => resumePart s x

theorem dropBurst_canonical {s : State} (bit : Bool) (x : Nat × Nat) (hc : Canonical s) : Canonical (dropBurst bit s x) := by
  grind [dropBurst, Canonical]
grind_pattern dropBurst_canonical => dropBurst bit s x

theorem resumeBurst_canonical (code : BitVec 8) {s : State} (x : Nat × Nat) (hc : Canonical s) : Canonical (resumeBurst code s x) := by
  grind [resumeBurst, Canonical]
grind_pattern resumeBurst_canonical => resumeBurst code s x

theorem trapAcquire_canonical {s : State} (t : TrapInfo) (hc : Canonical s) : Canonical (trapAcquire s t) := by
  grind [trapAcquire, Canonical, foldl_canonical]
grind_pattern trapAcquire_canonical => trapAcquire s t

theorem resumeTrap_canonical {s : State} (t : TrapInfo) (hc : Canonical s) : Canonical (resumeTrap s t) := by
  grind [resumeTrap, Canonical, foldl_canonical]
grind_pattern resumeTrap_canonical => resumeTrap s t

theorem skipClause_canonical {s : State} (t : TrapInfo) (hc : Canonical s) : Canonical (skipClause s t) := by
  grind [skipClause, Canonical, foldl_canonical]
grind_pattern skipClause_canonical => skipClause s t

theorem dropPart_canonical {s : State} (x : Nat × Nat) (hc : Canonical s) : Canonical (dropPart s x) := by
  grind [dropPart, Canonical]
grind_pattern dropPart_canonical => dropPart s x

theorem skipPart_canonical (all : LaneSet) {s : State} (x : Nat × Nat) (hc : Canonical s) : Canonical (skipPart all s x) := by
  grind [skipPart, Canonical, foldl_canonical]
grind_pattern skipPart_canonical => skipPart all s x

theorem skipArgs_canonical {s : State} (t : TrapInfo) (hc : Canonical s) : Canonical (skipArgs s t) := by
  grind [skipArgs, Canonical]
grind_pattern skipArgs_canonical => skipArgs s t

theorem skipTrap_canonical {s : State} (t : TrapInfo) (hc : Canonical s) : Canonical (skipTrap s t) := by
  grind [skipTrap, Canonical, foldl_canonical]
grind_pattern skipTrap_canonical => skipTrap s t

theorem holdAct_canonical {s : State} (t : TrapInfo) (act : Nat) (hc : Canonical s) : Canonical (holdAct s t act) := by
  exact hc
grind_pattern holdAct_canonical => holdAct s t act

theorem trapAct_canonical {s : State} (w : Writer) (id act : Nat) (hc : Canonical s) : Canonical (trapAct s w id act) := by
  grind [trapAct, Canonical]
grind_pattern trapAct_canonical => trapAct s w id act

/-! Sys2Proof/Machine/Tiers.lean -/

theorem claimTry_canonical {s : State} (page : Nat) (hc : Canonical s) : Canonical (claimTry s page) := by
  unfold claimTry
  dsimp only
  have ho := ownRead_canonical (s := s) (pePage (pageEntry s page)) hc
  split
  · exact hc
  · split
    · exact hc
    · split
      · grind
      · split <;> grind
grind_pattern claimTry_canonical => claimTry s page

theorem requestRecord_canonical {s : State} (page : Nat) (pkg : BitVec 5) (hc : Canonical s) : Canonical (requestRecord s page pkg) := by
  grind [requestRecord, Canonical]
grind_pattern requestRecord_canonical => requestRecord s page pkg

theorem wakeClaims_canonical {s : State} (page : Nat) (hc : Canonical s) : Canonical (wakeClaims s page) := by
  unfold wakeClaims
  refine foldl_canonical (fun _ _ h => ?_) hc
  grind [Canonical, foldl_canonical]
grind_pattern wakeClaims_canonical => wakeClaims s page

theorem takePage_canonical {s : State} (page : Nat) (hc : Canonical s) : Canonical (takePage s page) := by
  grind [takePage, Canonical, foldl_canonical]
grind_pattern takePage_canonical => takePage s page

/-! Sys2Proof/Machine/Fetch.lean -/

theorem fetchSegs_canonical {s : State} (w : Who) (z0 : List Seg) (hc : Canonical s) : Canonical (fetchSegs s w z0).2 := by
  induction z0 generalizing s with
  | nil => exact hc
  | cons g t ih =>
    unfold fetchSegs
    exact ih (segRead_canonical _ _ _ hc)
grind_pattern fetchSegs_canonical => fetchSegs s w z0

theorem fetchBytes_canonical {s : State} (w : Who) (va n : Nat) (hc : Canonical s) : Canonical (fetchBytes s w va n).2 := by
  grind [fetchBytes, Canonical]
grind_pattern fetchBytes_canonical => fetchBytes s w va n

theorem fetchFault_canonical {s : State} (a : Nat) (ag : Agent) (g : LaneSet) (pc : DWord) (va : Nat) (w : WFault) (hc : Canonical s) :
    Canonical (fetchFault s a ag g pc va w) := by
  unfold fetchFault
  extract_lets f
  clear_value f
  have := newGroup_canonical f (fun gid => { FaultGroup.of gid f with ops := (lanesOf g).map (fun l => (0, l)), fetch := some a }) hc
  split
  next h => rw [h] at this; grind
grind_pattern fetchFault_canonical => fetchFault s a ag g pc va w

theorem decodeTrap_canonical {s : State} (a : Nat) (g : LaneSet) (pc : DWord) (code : TrapCode) (word op count : Nat) (hc : Canonical s) : Canonical (decodeTrap s a g pc code word op count) := by
  grind [decodeTrap, Canonical]
grind_pattern decodeTrap_canonical => decodeTrap s a g pc code word op count

theorem wordTrap_canonical {s : State} (a : Nat) (ag : Agent) (g : LaneSet) (pc : DWord) (code : TrapCode) (k : Nat) (op : Nat) (words : List DWord) (hc : Canonical s) : Canonical (wordTrap s a ag g pc code k op words) := by
  grind [wordTrap, Canonical, foldl_canonical]
grind_pattern wordTrap_canonical => wordTrap s a ag g pc code k op words

theorem fetchTrap_canonical {s : State} (a : Nat) (g : LaneSet) (pc : DWord) (code : TrapCode) (esrc : Nat) (hc : Canonical s) : Canonical (fetchTrap s a g pc code esrc) := by
  unfold fetchTrap
  exact postTrap_canonical _ _ hc
grind_pattern fetchTrap_canonical => fetchTrap s a g pc code esrc

theorem beginClause_canonical {s : State} (a : Nat) (g : LaneSet) (pc header : DWord) (words : List DWord) (hc : Canonical s) : Canonical (beginClause s a g pc header words) := by
  grind [beginClause, Canonical]
grind_pattern beginClause_canonical => beginClause s a g pc header words

theorem issueStep_canonical {s : State} (a : Nat) (ag : Agent) (g : LaneSet) (pc : DWord) (hc : Canonical s) : Canonical (issueStep s a ag g pc) := by
  have hf := fun s n m (h : Canonical s) => fetchBytes_canonical (s := s) (fetchWho ag) n m h
  unfold issueStep
  dsimp only
  split
  · grind
  · have h1 := hf s pc.toNat 8 hc
    split
    · next h => rw [h] at h1; grind
    · next h => rw [h] at h1; grind
    · next h => rw [h] at h1; grind
    · next hb s1 h =>
      rw [h] at h1
      dsimp only at h1
      split
      · grind
      · have h2 := hf s1 (pc.toNat + 8) (8 * (headerOf (BitVec.ofNat 64 (ofBytes hb))).count.toNat) h1
        split
        · next h => rw [h] at h2; grind
        · next h => rw [h] at h2; grind
        · next h => rw [h] at h2; grind
        · next h =>
          rw [h] at h2
          dsimp only at h2
          split <;> grind
grind_pattern issueStep_canonical => issueStep s a ag g pc

theorem agentIssues_canonical {s : State} (a : Nat) (ag : Agent) (hc : Canonical s) : Canonical (agentIssues s a ag) := by
  grind [agentIssues, Canonical]
grind_pattern agentIssues_canonical => agentIssues s a ag

theorem skipAfter_canonical (c : List (Nat × Agent)) (chosen : Nat) {s : State} (hc : Canonical s) : Canonical (skipAfter c chosen s) := by
  unfold skipAfter
  refine foldl_canonical (fun _ _ h => ?_) hc
  grind [Canonical, foldl_canonical]
grind_pattern skipAfter_canonical => skipAfter c chosen s

theorem clearYields_canonical (l : List (Nat × Agent)) {s : State} (hc : Canonical s) : Canonical (clearYields l s) := by
  unfold clearYields
  refine foldl_canonical (fun _ _ h => ?_) hc
  grind [Canonical, foldl_canonical]
grind_pattern clearYields_canonical => clearYields l s

theorem startPending_canonical {s : State} (core sched : Nat) (hc : Canonical s) : Canonical (startPending s core sched) := by
  unfold startPending
  refine foldl_canonical (fun _ _ h => ?_) hc
  grind [Canonical, foldl_canonical]
grind_pattern startPending_canonical => startPending s core sched

theorem schedulerPick_canonical {s : State} (core sched : Nat) (hc : Canonical s) : Canonical (schedulerPick s core sched) := by
  grind [schedulerPick, Canonical]
grind_pattern schedulerPick_canonical => schedulerPick s core sched

theorem keepHeld_canonical {s : State} (core : Nat) (sched : Nat) (hc : Canonical s) : Canonical (keepHeld s core sched) := by
  grind [keepHeld, Canonical, foldl_canonical]
grind_pattern keepHeld_canonical => keepHeld s core sched

theorem prepare_canonical {s : State} (core : Nat) (sched : Nat) (hc : Canonical s) : Canonical (prepare s core sched) := by
  grind [prepare, Canonical, foldl_canonical]
grind_pattern prepare_canonical => prepare s core sched

theorem readChecked_canonical {s : State} (a : Nat) (ag : Agent) (iss : Issue) (w : DWord) (i : Instr) {out : State} (hc : Canonical s) (ht : readChecked s a ag iss w i = some out) : Canonical out := by
  grind [readChecked, Canonical, foldl_canonical]

theorem afterWord_canonical {before : State} (a : Nat) {s : State} (hc : Canonical before) (hc1 : Canonical s) : Canonical (afterWord before a s) := by
  unfold afterWord
  (repeat' split) <;> first | exact hc | grind [Canonical]
grind_pattern afterWord_canonical => afterWord before a s

/-! Sys2Proof/Machine/Host.lean -/

theorem putHart_canonical {s : State} (h : Nat) (x : Hart) (hc : Canonical s) : Canonical (putHart s h x) := by
  exact hc
grind_pattern putHart_canonical => putHart s h x

theorem retire_canonical {s : State} (h : Nat) (x : Hart) (rd : BitVec 5) (v : Nat) (hc : Canonical s) : Canonical (retire s h x rd v) := by
  grind [retire, Canonical]
grind_pattern retire_canonical => retire s h x rd v

theorem hartExc_canonical {s : State} (h : Nat) (e : HartExc) (hc : Canonical s) : Canonical (hartExc s h e) := by
  grind [hartExc, Canonical, foldl_canonical]
grind_pattern hartExc_canonical => hartExc s h e

theorem hartTrap_canonical {s : State} (h cause tval tval2 : Nat) (hc : Canonical s) : Canonical (hartTrap s h cause tval tval2) := by
  grind [hartTrap, Canonical]
grind_pattern hartTrap_canonical => hartTrap s h cause tval tval2

theorem hartReturn_canonical {s : State} (h : Nat) (low : HostMode) (c : TrapCsrs) (put : Hart → TrapCsrs → Hart) (hc : Canonical s) : Canonical (hartReturn s h low c put) := by
  grind [hartReturn, Canonical, foldl_canonical]
grind_pattern hartReturn_canonical => hartReturn s h low c put

theorem bareWalk_canonical {s : State} (va : Nat) (need : Need) (ad : Bool) (t : Space) (hc : Canonical s) : Canonical (hartXlate.bareWalk va need ad s t).2 := by
  grind [hartXlate.bareWalk, Canonical]
grind_pattern bareWalk_canonical => hartXlate.bareWalk va need ad s t

theorem hartXlate_canonical {s : State} (h : Nat) (x : Hart) (va : Nat) (need : Need) (ad : Bool) (hc : Canonical s) : Canonical (hartXlate s h x va need ad).2 := by
  grind [hartXlate, Canonical]
grind_pattern hartXlate_canonical => hartXlate s h x va need ad

theorem hostFail_canonical {s : State} (h : Nat) (k : HostKind) (va : Nat) (r : Walked) (hc : Canonical s) : Canonical (hostFail s h k va r).2 := by
  unfold hostFail
  (repeat' split) <;> grind [Canonical, foldl_canonical]
grind_pattern hostFail_canonical => hostFail s h k va r

theorem hostRuns_canonical {s : State} (h : Nat) (x : Hart) (k : HostKind) (va : Nat) (n : Nat) (need : Need) (hc : Canonical s) : Canonical (hostRuns s h x k va n need).2 := by
  grind [hostRuns, Canonical, foldl_canonical]
grind_pattern hostRuns_canonical => hostRuns s h x k va n need

theorem hostRoute_canonical {s : State} (h : Nat) (x : Hart) (k : HostKind) (va : Nat) (n : Nat) (need : Need) (segs : List Seg) (hc : Canonical s) : Canonical (hostRoute s h x k va n need segs).2 := by
  grind [hostRoute, Canonical, foldl_canonical]
grind_pattern hostRoute_canonical => hostRoute s h x k va n need segs

theorem hostReach_canonical {s : State} (h : Nat) (x : Hart) (k : HostKind) (va : Nat) (n : Nat) (need : Need) (hc : Canonical s) : Canonical (hostReach s h x k va n need).2 := by
  grind [hostReach, Canonical, foldl_canonical]
grind_pattern hostReach_canonical => hostReach s h x k va n need

theorem hostTouch_canonical {s : State} (h : Nat) (k : AccKind) (g : Seg) (hc : Canonical s) : Canonical (hostTouch h k s g) := by
  grind [hostTouch, Canonical, foldl_canonical]
grind_pattern hostTouch_canonical => hostTouch h k s g

theorem hostFind_canonical {s : State} (h : Nat) (k : AccKind) (g : Seg) (hc : Canonical s) : Canonical (hostFind h k s g) := by
  grind [hostFind, Canonical, foldl_canonical]
grind_pattern hostFind_canonical => hostFind h k s g

theorem hostRead_canonical {s : State} (h : Nat) (k : AccKind) (segs : List Seg) (hc : Canonical s) : Canonical (hostRead s h k segs).2 := by
  grind [hostRead, Canonical, foldl_canonical]
grind_pattern hostRead_canonical => hostRead s h k segs

theorem hostPut_canonical {s : State} (l : List Seg) (bs : List Byte) (hc : Canonical s) : Canonical (hostPut s l bs) := by
  induction l generalizing s bs with
  | nil => exact hc
  | cons g t ih => unfold hostPut; grind
grind_pattern hostPut_canonical => hostPut s l bs

theorem hostWrite_canonical {s : State} (h : Nat) (segs : List Seg) (bs : List Byte) (hc : Canonical s) : Canonical (hostWrite s h segs bs) := by
  grind [hostWrite, Canonical, foldl_canonical]
grind_pattern hostWrite_canonical => hostWrite s h segs bs

theorem poisonRecord_canonical {s : State} (h : Nat) (esrc : Nat) (va : Nat) (hc : Canonical s) : Canonical (poisonRecord s h esrc va) := by
  grind [poisonRecord, Canonical, foldl_canonical]
grind_pattern poisonRecord_canonical => poisonRecord s h esrc va

theorem hostPoison_canonical {s : State} (h : Nat) (k : HostKind) (esrc va : Nat) (hc : Canonical s) : Canonical (hostPoison s h k esrc va) := by
  grind [hostPoison, Canonical]
grind_pattern hostPoison_canonical => hostPoison s h k esrc va

theorem hostEnd_canonical {s : State} (h : Nat) (a : HostAcc) (hc : Canonical s) : Canonical (hostEnd s h a) := by
  grind [hostEnd, Canonical, foldl_canonical]
grind_pattern hostEnd_canonical => hostEnd s h a

theorem hostResult_canonical {s : State} (h : Nat) (a : HostAcc) (v : DWord) (hc : Canonical s) : Canonical (hostResult s h a v) := by
  grind [hostResult, Canonical]
grind_pattern hostResult_canonical => hostResult s h a v

theorem accExc_canonical {s : State} (h : Nat) (a : HostAcc) (e : HartExc) (hc : Canonical s) : Canonical (accExc s h a e) := by
  grind [accExc, Canonical, foldl_canonical]
grind_pattern accExc_canonical => accExc s h a e

theorem hostWindow_canonical {s : State} (h : Nat) (a : HostAcc) (spa : Nat) (hc : Canonical s) : Canonical (hostWindow s h a spa) := by
  unfold hostWindow
  (repeat' split) <;> grind
grind_pattern hostWindow_canonical => hostWindow s h a spa

theorem hostPerform_canonical {s : State} (h : Nat) (a : HostAcc) (segs : List Seg) (hc : Canonical s) : Canonical (hostPerform s h a segs) := by
  have hr := fun k => hostRead_canonical (s := s) h k segs hc
  unfold hostPerform
  (repeat' split) <;> grind
grind_pattern hostPerform_canonical => hostPerform s h a segs

theorem hostHold_canonical {s : State} (h : Nat) (a : HostAcc) (segs : List Seg) (hc : Canonical s) : Canonical (hostHold s h a segs) := by
  grind [hostHold, Canonical, foldl_canonical]
grind_pattern hostHold_canonical => hostHold s h a segs

theorem onHart_canonical {s : State} (f : Nat → Hart → Out) {t : State} (hf : ∀ h x, f h x = .next t → Canonical t) (ht : onHart s f = .next t) : Canonical t := by
  grind [onHart]

theorem hostWait_canonical {s : State} (h : Nat) (x : Hart) (rd : BitVec 5) (va n expect : Nat) (hc : Canonical s) : Canonical (hostWait s h x rd va n expect) := by
  grind [hostWait, Canonical]
grind_pattern hostWait_canonical => hostWait s h x rd va n expect

theorem hostTierq_canonical {s : State} (h : Nat) (x : Hart) (d : BitVec 5) (va hi : Nat) (hc : Canonical s) : Canonical (hostTierq s h x d va hi) := by
  grind [hostTierq, Canonical]
grind_pattern hostTierq_canonical => hostTierq s h x d va hi

theorem hostPlaceAct_canonical {s : State} (h : Nat) (k : PlaceKind) (va oper : Nat) (x : Xlat) (hc : Canonical s) :
    CanonicalAct (hostPlaceAct s h k va oper x) := by
  cases k
  · exact pinPage_canonical _ _ _ _ hc
  · exact unpinPage_canonical _ _ hc
  · exact hintPage_canonical _ _ _ _ _ hc

theorem execHostAccess_canonical {s t : State} (h : Nat) (a : HostAcc) (hc : Canonical s) (ht : execHostAccess h a s = .next t) : Canonical t := by
  have hr := hostReach_canonical (s := s) h (accView (hartOf s h) a) (opKind a.op) a.va.toNat (2 ^ a.size.toNat) (accNeed a) hc
  unfold execHostAccess at ht
  dsimp only at ht
  (repeat' split at ht) <;> grind [Canonical]
grind_pattern execHostAccess_canonical => execHostAccess h a s, Canonical t

theorem hostPlace_canonical {s : State} (h : Nat) (x : Hart) (k : PlaceKind) (d : BitVec 5) (base oper : Nat) (hc : Canonical s) :
    Canonical (hostPlace s h x k d base oper) := by
  have ha : ∀ s1 va x, Canonical s1 → CanonicalAct (hostPlaceAct s1 h k va oper x) := fun s1 va x g => hostPlaceAct_canonical h k va oper x g
  unfold hostPlace
  extract_lets acted len pages va fin first
  have hfin : ∀ s n st, Canonical s → Canonical (fin s n st) := fun s n st g => by grind
  have hfirst : ∀ s c t, Canonical s → Canonical (first s c t) := fun s c t g => by grind
  clear_value acted len pages va fin first
  split
  · exact hfin _ _ _ hc
  split
  case h_5 =>
    have ht := hartXlate_canonical (s := s) h (dataView x) va .any false hc
    generalize hartXlate s h (dataView x) va .any false = q at ht
    obtain ⟨w, s1⟩ := q
    cases w with
    | ok y =>
      have := ha s1 va y ht
      dsimp only
      split <;> next e => rw [e] at this; simp only [CanonicalAct] at this; grind
    | _ => dsimp only at ht ⊢; grind
  all_goals grind
grind_pattern hostPlace_canonical => hostPlace s h x k d base oper

theorem fenceStage1_canonical {s : State} (vmid : BitVec 8) (va asid : Option DWord) (hc : Canonical s) : Canonical (fenceStage1 vmid va asid s).2 := by
  unfold fenceStage1
  (repeat' split) <;> first | exact hc | grind [Canonical]
grind_pattern fenceStage1_canonical => fenceStage1 vmid va asid s

theorem fenceStage2_canonical {s : State} (gpa vmid : Option DWord) (hc : Canonical s) : Canonical (fenceStage2 gpa vmid s).2 := by
  unfold fenceStage2
  (repeat' split) <;> first | exact hc | grind [Canonical]
grind_pattern fenceStage2_canonical => fenceStage2 gpa vmid s

/-! Sys2Proof/Machine/RiscvCsr.lean -/

theorem refuseWord_canonical {s : State} (h : Nat) (w : Nat) (r : Refused) (hc : Canonical s) : Canonical (refuseWord s h w r) := by
  unfold refuseWord
  (repeat' split) <;> grind [Canonical, foldl_canonical]
grind_pattern refuseWord_canonical => refuseWord s h w r

theorem retireBy_canonical {s : State} (h : Nat) (x : Hart) (rd : BitVec 5) (v : DWord) (len : Nat) (hc : Canonical s) : Canonical (retireBy s h x rd v len) := by
  grind [retireBy, Canonical, foldl_canonical]
grind_pattern retireBy_canonical => retireBy s h x rd v len

theorem keepCount_canonical {s : State} (n : Nat) (v : DWord) (writes : Bool) (h : Nat) (hc : Canonical s) : Canonical (keepCount n v writes h s) := by
  grind [keepCount, Canonical, foldl_canonical]
grind_pattern keepCount_canonical => keepCount n v writes h s

theorem rvCsr_canonical {s : State} (h : Nat) (x : Hart) (w : Word) (f3 : Nat) (n : Nat) (rd : BitVec 5) (rs : BitVec 5) (hc : Canonical s) : Canonical (rvCsr s h x w f3 n rd rs) := by
  grind [rvCsr, Canonical, foldl_canonical]
grind_pattern rvCsr_canonical => rvCsr s h x w f3 n rd rs

/-! Sys2Proof/Machine/RiscvVector.lean -/

theorem vRetire_canonical {s : State} (h : Nat) (x : Hart) (fl : Nat) (hc : Canonical s) : Canonical (vRetire s h x fl) := by
  grind [vRetire, Canonical, foldl_canonical]
grind_pattern vRetire_canonical => vRetire s h x fl

theorem vEach_canonical {s : State} (h : Nat) (c : VCtx) (e : Nat) (lo : Nat) (act : Nat → Bool) (f : Nat → FRes) (hc : Canonical s) : Canonical (vEach s h c e lo act f) := by
  grind [vEach, Canonical, foldl_canonical]
grind_pattern vEach_canonical => vEach s h c e lo act f

theorem vMasked_canonical {s t : State} (h : Nat) (c : VCtx) (e : Nat) (srcs : List (Nat × Nat)) (f : Nat → FRes) (hc : Canonical s) (ht : vMasked s h c e srcs f = some t) : Canonical t := by
  grind [vMasked, Canonical, foldl_canonical, Option.map_eq_some_iff]
grind_pattern vMasked_canonical => vMasked s h c e srcs f, Canonical t

theorem vReduce_canonical {s t : State} (h : Nat) (c : VCtx) (ed : Nat) (r : FRes) (hc : Canonical s) (ht : vReduce s h c ed r = some t) : Canonical t := by
  grind [vReduce, Canonical, foldl_canonical, Option.map_eq_some_iff]
grind_pattern vReduce_canonical => vReduce s h c ed r, Canonical t

theorem vSlide_canonical {s t : State} (h : Nat) (c : VCtx) (up : Bool) (ofs : Nat) (hc : Canonical s) (ht : vSlide s h c up ofs = some t) : Canonical t := by
  grind [vSlide, Canonical, foldl_canonical, Option.map_eq_some_iff]
grind_pattern vSlide_canonical => vSlide s h c up ofs, Canonical t

theorem vSlide1_canonical {s t : State} (h : Nat) (c : VCtx) (up : Bool) (hc : Canonical s) (ht : vSlide1 s h c up = some t) : Canonical t := by
  grind [vSlide1, Canonical, foldl_canonical, Option.map_eq_some_iff]
grind_pattern vSlide1_canonical => vSlide1 s h c up, Canonical t

theorem vGather_canonical {s t : State} (h : Nat) (c : VCtx) (ei : Nat) (hc : Canonical s) (ht : vGather s h c ei = some t) : Canonical t := by
  grind [vGather, Canonical, foldl_canonical, Option.map_eq_some_iff]
grind_pattern vGather_canonical => vGather s h c ei, Canonical t

theorem vCompress_canonical {s t : State} (h : Nat) (c : VCtx) (hc : Canonical s) (ht : vCompress s h c = some t) : Canonical t := by
  grind [vCompress, Canonical, foldl_canonical, Option.map_eq_some_iff]
grind_pattern vCompress_canonical => vCompress s h c, Canonical t

theorem vMoveRegs_canonical {s t : State} (h : Nat) (c : VCtx) (hc : Canonical s) (ht : vMoveRegs s h c = some t) : Canonical t := by
  grind [vMoveRegs, Canonical, foldl_canonical, Option.map_eq_some_iff]
grind_pattern vMoveRegs_canonical => vMoveRegs s h c, Canonical t

theorem vMaskUnary_canonical {s t : State} (h : Nat) (c : VCtx) (hc : Canonical s) (ht : vMaskUnary s h c = some t) : Canonical t := by
  unfold vMaskUnary at ht
  try dsimp only at ht
  (repeat' split at ht) <;> grind [Canonical, foldl_canonical, Option.map_eq_some_iff]
grind_pattern vMaskUnary_canonical => vMaskUnary s h c, Canonical t

theorem vExtend_canonical {s t : State} (h : Nat) (c : VCtx) (hc : Canonical s) (ht : vExtend s h c = some t) : Canonical t := by
  unfold vExtend at ht
  try dsimp only at ht
  (repeat' split at ht) <;> grind [Canonical, foldl_canonical, Option.map_eq_some_iff]
grind_pattern vExtend_canonical => vExtend s h c, Canonical t

theorem vCarry_canonical {s t : State} (h : Nat) (c : VCtx) (hc : Canonical s) (ht : vCarry s h c = some t) : Canonical t := by
  grind [vCarry, Canonical, foldl_canonical, Option.map_eq_some_iff]
grind_pattern vCarry_canonical => vCarry s h c, Canonical t

theorem vMerge_canonical {s t : State} (h : Nat) (c : VCtx) (hc : Canonical s) (ht : vMerge s h c = some t) : Canonical t := by
  grind [vMerge, Canonical, foldl_canonical, Option.map_eq_some_iff]
grind_pattern vMerge_canonical => vMerge s h c, Canonical t

theorem vInstrI_canonical {s t : State} (h : Nat) (c : VCtx) (hc : Canonical s) (ht : vInstrI s h c = some t) : Canonical t := by
  unfold vInstrI at ht
  try dsimp only at ht
  (repeat' split at ht) <;> grind [Canonical, foldl_canonical, Option.map_eq_some_iff]
grind_pattern vInstrI_canonical => vInstrI s h c, Canonical t

theorem vToX_canonical {s : State} (h : Nat) (c : VCtx) (v : Int) (hc : Canonical s) : Canonical (vToX s h c v) := by
  grind [vToX, Canonical, foldl_canonical]
grind_pattern vToX_canonical => vToX s h c v

theorem vScalarM_canonical {s t : State} (h : Nat) (c : VCtx) (hc : Canonical s) (ht : vScalarM s h c = some t) : Canonical t := by
  grind [vScalarM, Canonical, foldl_canonical, Option.map_eq_some_iff]
grind_pattern vScalarM_canonical => vScalarM s h c, Canonical t

theorem some_ite {c : Prop} [Decidable c] {a b : Option State} {t : State} {C : Prop} (h : (if c then a else b) = some t) (ha : a = some t → C)
    (hb : b = some t → C) : C := by
  split at h
  · exact ha h
  · exact hb h

theorem vInstrM_canonical {s t : State} (h : Nat) (c : VCtx) (hc : Canonical s) (ht : vInstrM s h c = some t) : Canonical t := by
  unfold vInstrM at ht
  dsimp only at ht
  repeat' (refine some_ite ht (fun ht => ?_) (fun ht => ?_))
  all_goals grind
grind_pattern vInstrM_canonical => vInstrM s h c, Canonical t

theorem vConvF_canonical {s t : State} (h : Nat) (c : VCtx) (hc : Canonical s) (ht : vConvF s h c = some t) : Canonical t := by
  unfold vConvF at ht
  try dsimp only at ht
  (repeat' split at ht) <;> grind [Canonical, foldl_canonical, Option.map_eq_some_iff]
grind_pattern vConvF_canonical => vConvF s h c, Canonical t

theorem vUnaryF_canonical {s t : State} (h : Nat) (c : VCtx) (f : FloatFmt) (hc : Canonical s) (ht : vUnaryF s h c f = some t) : Canonical t := by
  unfold vUnaryF at ht
  try dsimp only at ht
  (repeat' split at ht) <;> grind [Canonical, foldl_canonical, Option.map_eq_some_iff]
grind_pattern vUnaryF_canonical => vUnaryF s h c f, Canonical t

theorem vScalarF_canonical {s t : State} (h : Nat) (c : VCtx) (hc : Canonical s) (ht : vScalarF s h c = some t) : Canonical t := by
  grind [vScalarF, Canonical, foldl_canonical, Option.map_eq_some_iff]
grind_pattern vScalarF_canonical => vScalarF s h c, Canonical t

theorem vReduceF_canonical {s t : State} (h : Nat) (c : VCtx) (ed : Nat) (step : Nat → Nat → FRes) (hc : Canonical s) (ht : vReduceF s h c ed step = some t) : Canonical t := by
  unfold vReduceF at ht
  try dsimp only at ht
  (repeat' split at ht) <;> grind [Canonical, foldl_canonical, Option.map_eq_some_iff]
grind_pattern vReduceF_canonical => vReduceF s h c ed step, Canonical t

theorem vWideF_canonical {s t : State} (h : Nat) (c : VCtx) (hc : Canonical s) (ht : vWideF s h c = some t) : Canonical t := by
  unfold vWideF at ht
  try dsimp only at ht
  (repeat' split at ht) <;> grind [Canonical, foldl_canonical, Option.map_eq_some_iff]
grind_pattern vWideF_canonical => vWideF s h c, Canonical t

theorem vInstrF_canonical {s t : State} (h : Nat) (c : VCtx) (hc : Canonical s) (ht : vInstrF s h c = some t) : Canonical t := by
  unfold vInstrF at ht
  dsimp only at ht
  repeat' (refine some_ite ht (fun ht => ?_) (fun ht => ?_))
  rotate_right
  · split at ht
    · cases ht
    repeat' (refine some_ite ht (fun ht => ?_) (fun ht => ?_))
    all_goals grind
  all_goals grind
grind_pattern vInstrF_canonical => vInstrF s h c, Canonical t

theorem rvVset_canonical {s t : State} (h : Nat) (x : Hart) (w : Word) (hc : Canonical s) (ht : rvVset s h x w = some t) : Canonical t := by
  grind [rvVset, Canonical, foldl_canonical, Option.map_eq_some_iff]
grind_pattern rvVset_canonical => rvVset s h x w, Canonical t

theorem rvVector_canonical {s t : State} (h : Nat) (x : Hart) (w : Word) (hc : Canonical s) (ht : rvVector s h x w = some t) : Canonical t := by
  unfold rvVector at ht
  try dsimp only at ht
  (repeat' split at ht) <;> grind [Canonical, foldl_canonical, Option.map_eq_some_iff]
grind_pattern rvVector_canonical => rvVector s h x w, Canonical t

theorem vMemStep_canonical {s : State} (h : Nat) (c : VCtx) (m : VMem) (load : Bool) (hc : Canonical s) : Canonical (vMemStep s h c m load) := by
  unfold vMemStep
  (repeat' split) <;> grind [Canonical, foldl_canonical]
grind_pattern vMemStep_canonical => vMemStep s h c m load

theorem rvVecMem_canonical {s t : State} (h : Nat) (x : Hart) (w : Word) (load : Bool) (hc : Canonical s) (ht : rvVecMem s h x w load = some t) : Canonical t := by
  unfold rvVecMem at ht
  try dsimp only at ht
  (repeat' split at ht) <;> grind [Canonical, foldl_canonical, Option.map_eq_some_iff]
grind_pattern rvVecMem_canonical => rvVecMem s h x w load, Canonical t

/-! Sys2Proof/Machine/RiscvWords.lean -/

theorem hostAct_canonical {s : State} (h : Nat) (a : HostAcc) (hc : Canonical s) : Canonical (hostAct s h a) := by
  unfold hostAct
  split
  · next e => exact execHostAccess_canonical h a hc e
  · exact hc
grind_pattern hostAct_canonical => hostAct s h a

theorem rvSret_canonical {s : State} (h : Nat) (x : Hart) (w : Nat) (hc : Canonical s) : Canonical (rvSret s h x w) := by
  grind [rvSret, Canonical, foldl_canonical]
grind_pattern rvSret_canonical => rvSret s h x w

theorem rvWfi_canonical {s : State} (h : Nat) (x : Hart) (w : Nat) (hc : Canonical s) : Canonical (rvWfi s h x w) := by
  grind [rvWfi, Canonical, foldl_canonical]
grind_pattern rvWfi_canonical => rvWfi s h x w

theorem rvSystem_canonical {s t : State} (h : Nat) (x : Hart) (w : Word) (hc : Canonical s) (ht : rvSystem s h x w = some t) : Canonical t := by
  unfold rvSystem at ht
  (repeat' split at ht) <;> first | (cases ht; grind) | cases ht
grind_pattern rvSystem_canonical => rvSystem s h x w, Canonical t

theorem rvHyper_canonical {s t : State} (h : Nat) (x : Hart) (w : Word) (rd : BitVec 5) (rs1 : BitVec 5) (hc : Canonical s) (ht : rvHyper s h x w rd rs1 = some t) : Canonical t := by
  grind [rvHyper, Canonical, foldl_canonical, Option.map_eq_some_iff]
grind_pattern rvHyper_canonical => rvHyper s h x w rd rs1, Canonical t

theorem retireF_canonical {s : State} (h : Nat) (x : Hart) (rd : BitVec 5) (size : Nat) (r : FRes) (hc : Canonical s) : Canonical (retireF s h x rd size r) := by
  grind [retireF, Canonical, foldl_canonical]
grind_pattern retireF_canonical => retireF s h x rd size r

theorem retireX_canonical {s : State} (h : Nat) (x : Hart) (rd : BitVec 5) (v : DWord) (fl : Nat) (hc : Canonical s) : Canonical (retireX s h x rd v fl) := by
  grind [retireX, Canonical, foldl_canonical]
grind_pattern retireX_canonical => retireX s h x rd v fl

theorem rvFpOp_canonical {s t : State} (h : Nat) (x : Hart) (w : Word) (f : FloatFmt) (p : Nat) (hc : Canonical s) (ht : rvFpOp s h x w f p = some t) : Canonical t := by
  unfold rvFpOp at ht
  try dsimp only at ht
  (repeat' split at ht) <;> grind [Canonical, foldl_canonical, Option.map_eq_some_iff]
grind_pattern rvFpOp_canonical => rvFpOp s h x w f p, Canonical t

theorem rvFma_canonical {s t : State} (h : Nat) (x : Hart) (w : Word) (f : FloatFmt) (p : Nat) (hc : Canonical s) (ht : rvFma s h x w f p = some t) : Canonical t := by
  unfold rvFma at ht
  try dsimp only at ht
  (repeat' split at ht) <;> grind [Canonical, foldl_canonical, Option.map_eq_some_iff]
grind_pattern rvFma_canonical => rvFma s h x w f p, Canonical t

theorem rvFloat_canonical {s t : State} (h : Nat) (x : Hart) (w : Word) (fma : Bool) (hc : Canonical s) (ht : rvFloat s h x w fma = some t) : Canonical t := by
  unfold rvFloat at ht
  try dsimp only at ht
  (repeat' split at ht) <;> grind [Canonical, foldl_canonical, Option.map_eq_some_iff]
grind_pattern rvFloat_canonical => rvFloat s h x w fma, Canonical t

theorem hostJump_canonical {s : State} (h : Nat) (x : Hart) (rd : BitVec 5) (dest : DWord) (len : Nat) (hc : Canonical s) : Canonical (hostJump s h x rd dest len) := by
  grind [hostJump, Canonical, foldl_canonical]
grind_pattern hostJump_canonical => hostJump s h x rd dest len

theorem rvFloatMem_canonical {s t : State} (h : Nat) (x : Hart) (w : Word) (load : Bool) (a : HostAcc) (hc : Canonical s) (ht : rvFloatMem s h x w load a = some t) : Canonical t := by
  unfold rvFloatMem at ht
  try dsimp only at ht
  (repeat' split at ht) <;> grind [Canonical, foldl_canonical, Option.map_eq_some_iff]
grind_pattern rvFloatMem_canonical => rvFloatMem s h x w load a, Canonical t

theorem rvMeaning_canonical {s t : State} (h : Nat) (x : Hart) (w : Word) (len : Nat) (hc : Canonical s) (ht : rvMeaning s h x w len = some t) : Canonical t := by
  unfold rvMeaning at ht
  try dsimp only at ht
  (repeat' split at ht) <;> grind [Canonical, foldl_canonical, Option.map_eq_some_iff]
grind_pattern rvMeaning_canonical => rvMeaning s h x w len, Canonical t

theorem rvWord_canonical {s : State} (h : Nat) (w : Word) (raw : Nat) (len : Nat) (hc : Canonical s) : Canonical (rvWord s h w raw len) := by
  have h1 := fun t => rvMeaning_canonical (t := t) h (hartOf s h) w len hc
  unfold rvWord
  generalize rvMeaning s h (hartOf s h) w len = o at h1
  cases o with
  | none => exact refuseWord_canonical h raw .illegal hc
  | some t => exact h1 t rfl
grind_pattern rvWord_canonical => rvWord s h w raw len

/-! Sys2Proof/Machine/Preempt.lean -/

theorem preemptRequest_canonical {s : State} (w : Writer) (ctx : Nat) (restore : Bool) (hc : Canonical s) : Canonical (preemptRequest s w ctx restore) := by
  grind [preemptRequest, Canonical]
grind_pattern preemptRequest_canonical => preemptRequest s w ctx restore

theorem touchPart_canonical {s : State} (spa : Nat) (n : Nat) (hc : Canonical s) : Canonical (touchPart s spa n) := by
  grind [touchPart, Canonical, foldl_canonical]
grind_pattern touchPart_canonical => touchPart s spa n

theorem findAgent_canonical {s : State} (a : Nat) (hc : Canonical s) : Canonical (findAgent s a) := by
  grind [findAgent, Canonical, foldl_canonical]
grind_pattern findAgent_canonical => findAgent s a

theorem findSaved_canonical {s : State} (ctx : Nat) (hc : Canonical s) : Canonical (findSaved s ctx) := by
  grind [findSaved, Canonical, foldl_canonical]
grind_pattern findSaved_canonical => findSaved s ctx

theorem writeArea_canonical {s : State} (x : Saved) (hc : Canonical s) : Canonical (writeArea s x) := by
  grind [writeArea, Canonical, foldl_canonical]
grind_pattern writeArea_canonical => writeArea s x

theorem settleCtx_canonical {s : State} (ctx : Nat) (hc : Canonical s) : Canonical (settleCtx s ctx) := by
  grind [settleCtx, Canonical, foldl_canonical]
grind_pattern settleCtx_canonical => settleCtx s ctx

theorem freeCtx_canonical {s : State} (x : Saved) (hc : Canonical s) : Canonical (freeCtx s x) := by
  grind [freeCtx, Canonical]
grind_pattern freeCtx_canonical => freeCtx s x

theorem touchArea_canonical {s : State} (x : Saved) (hc : Canonical s) : Canonical (touchArea s x) := by
  grind [touchArea, Canonical, foldl_canonical]
grind_pattern touchArea_canonical => touchArea s x

theorem foldl_some_canonical {α : Type} {f : Option State → α → Option State} {l : List α} {o : Option State} {t : State}
    (hf : ∀ o x t, (∀ s, o = some s → Canonical s) → f o x = some t → Canonical t) (h : ∀ s, o = some s → Canonical s) (ht : l.foldl f o = some t) : Canonical t := by
  induction l generalizing o with
  | nil => exact h t ht
  | cons a l ih => exact ih (fun s hs => hf o a s h hs) ht

theorem placeAgent_canonical {core : Nat} {o : Option State} {p : Nat × Agent} {t : State} (h : ∀ s, o = some s → Canonical s)
    (ht : placeAgent core o p = some t) : Canonical t := by
  cases o with
  | none => cases ht
  | some s =>
    have hc := h s rfl
    unfold placeAgent at ht
    dsimp only at ht
    have hr := fun n => freeRegs_canonical (s := s) core n hc
    split at ht
    · split at ht
      · cases ht
      · cases ht; exact hc
    · injection ht with ht
      rw [← ht]
      exact putAgent_canonical _ _ (hr _)

theorem placeSaved_canonical {s : State} (x : Saved) (m : List (Nat × Nat)) {out : State} (hc : Canonical s) (ht : placeSaved s x m = some out) : Canonical out := by
  unfold placeSaved at ht
  refine foldl_some_canonical (fun o b t h hb => ?_) (fun u hu => by cases hu; exact hc) ht
  cases o with
  | none => cases hb
  | some u =>
    have hu := h u rfl
    dsimp only at hb
    split at hb
    · cases hb
    · exact foldl_some_canonical (fun o p t h hp => placeAgent_canonical h hp) (fun v hv => by cases hv; exact hu) hb

theorem putWork_canonical {s : State} (x : Saved) (m : List (Nat × Nat)) (hc : Canonical s) : Canonical (putWork s x m) := by
  grind [putWork, Canonical, foldl_canonical]
grind_pattern putWork_canonical => putWork s x m

theorem replayLogs_canonical {s : State} (x : Saved) (hc : Canonical s) : Canonical (replayLogs s x) := by
  unfold replayLogs
  refine foldl_canonical (fun _ _ h => ?_) hc
  grind [Canonical, foldl_canonical]
grind_pattern replayLogs_canonical => replayLogs s x

theorem restoreClock_canonical {s : State} (x : Saved) (hc : Canonical s) : Canonical (restoreClock s x) := by
  grind [restoreClock, Canonical, foldl_canonical]
grind_pattern restoreClock_canonical => restoreClock s x

theorem heldActs_canonical {s : State} (x : Saved) (hc : Canonical s) : Canonical (heldActs s x) := by
  unfold heldActs
  refine foldl_canonical (fun _ _ h => ?_) hc
  grind [Canonical, foldl_canonical]
grind_pattern heldActs_canonical => heldActs s x

theorem restoreCtx_canonical {s : State} (x : Saved) (m : List (Nat × Nat)) {out : State} (hc : Canonical s) (ht : restoreCtx s x m = some out) : Canonical out := by
  unfold restoreCtx at ht
  dsimp only at ht
  split at ht
  · cases ht
  · rw [Option.map_eq_some_iff] at ht
    obtain ⟨s1, h1, rfl⟩ := ht
    have := placeSaved_canonical _ _ hc h1
    grind

/-! Sys2Proof/Machine/Platform.lean -/

theorem grantPart_canonical (excess : BitVec 2) {s : State} (p : Nat) (hc : Canonical s) : Canonical (grantPart excess s p) := by
  grind [grantPart, Canonical, foldl_canonical]
grind_pattern grantPart_canonical => grantPart excess s p

theorem hintRefill_canonical {s : State} (ctx n : Nat) (hc : Canonical s) : Canonical (hintRefill s ctx n) := by
  grind [hintRefill, Canonical]
grind_pattern hintRefill_canonical => hintRefill s ctx n

theorem portSet_canonical {s : State} (n : Nat) (f : DWord → DWord) (hc : Canonical s) : Canonical (portSet s n f) := by
  exact hc
grind_pattern portSet_canonical => portSet s n f

theorem complete_canonical {s : State} (r : Inbound) (c : CplStatus) (data : List Byte) (bad : Bool) (hc : Canonical s) : Canonical (complete s r c data bad) := by
  grind [complete, Canonical, foldl_canonical]
grind_pattern complete_canonical => complete s r c data bad

theorem bar0Write_canonical {s : State} (port : DWord) (r : Inbound) (hc : Canonical s) : Canonical (bar0Write s port r) := by
  grind [bar0Write, Canonical]
grind_pattern bar0Write_canonical => bar0Write s port r

theorem bar0Read_canonical {s : State} (r : Inbound) (hc : Canonical s) : Canonical (bar0Read s r) := by
  grind [bar0Read, Canonical, foldl_canonical]
grind_pattern bar0Read_canonical => bar0Read s r

theorem inboundFault_canonical {s : State} (r : Inbound) (ctx gpa : Nat) (w : WFault) (hc : Canonical s) : Canonical (inboundFault s r ctx gpa w) := by
  grind [inboundFault, Canonical]
grind_pattern inboundFault_canonical => inboundFault s r ctx gpa w

theorem inboundPlace_canonical {s : State} (port : DWord) (r : Inbound) (addr : Nat) (hc : Canonical s) : Canonical (inboundPlace s port r addr).2 := by
  grind [inboundPlace, Canonical]
grind_pattern inboundPlace_canonical => inboundPlace s port r addr

theorem inboundRuns_canonical {s : State} (port : DWord) (r : Inbound) (l : List (Nat × Nat)) (hc : Canonical s) : Canonical (inboundRuns port r l s).2 := by
  induction l generalizing s with
  | nil => exact hc
  | cons a t ih => obtain ⟨a, n⟩ := a; unfold inboundRuns; (repeat' split) <;> grind [Canonical]
grind_pattern inboundRuns_canonical => inboundRuns port r l s

theorem inboundRun_canonical {s : State} (r : Inbound) (x : InRun) (hc : Canonical s) : Canonical (inboundRun r s x) := by
  grind [inboundRun, Canonical, foldl_canonical]
grind_pattern inboundRun_canonical => inboundRun r s x

theorem inboundDone_canonical {s : State} (r : Inbound) (l : List InRun) (hc : Canonical s) : Canonical (inboundDone s r l) := by
  grind [inboundDone, Canonical, foldl_canonical]
grind_pattern inboundDone_canonical => inboundDone s r l

theorem inboundLost_canonical {s : State} (r : Inbound) (hc : Canonical s) : Canonical (inboundLost s r) := by
  grind [inboundLost, Canonical, foldl_canonical]
grind_pattern inboundLost_canonical => inboundLost s r

theorem ite_canonical {c : Prop} [Decidable c] {a b : State} (ha : Canonical a) (hb : Canonical b) : Canonical (if c then a else b) := by
  split
  · exact ha
  · exact hb

theorem inboundAnswer_canonical (port : DWord) (r : Inbound) (e : Except (WFault × Nat) (List InRun) × State) (h1 : Canonical e.2) :
    Canonical (inboundAnswer port r e).2 := by
  obtain ⟨⟨w, at_⟩ | l, s1⟩ := e
  · simp only [inboundAnswer, apply_ite Prod.snd]
    exact ite_canonical h1 (ite_canonical (complete_canonical _ _ _ _ h1) (ite_canonical
      (complete_canonical _ _ _ _ (hubErrorRecord_canonical _ _ _ _ _ _ h1)) (complete_canonical _ _ _ _ (inboundFault_canonical _ _ _ _ h1))))
  · simp only [inboundAnswer, apply_ite Prod.snd]
    exact ite_canonical (complete_canonical _ _ _ _ h1) (ite_canonical (inboundLost_canonical _ h1) (ite_canonical
      (inboundDone_canonical _ _ (foldl_canonical (fun _ x h => inboundRun_canonical r x h) h1)) (holdAccess_canonical _ _ _ h1)))
grind_pattern inboundAnswer_canonical => inboundAnswer port r e

theorem inboundMem_canonical {s : State} (port : DWord) (r : Inbound) (hc : Canonical s) : Canonical (inboundMem s port r).2 :=
  inboundAnswer_canonical port r _ (inboundRuns_canonical port r _ hc)
grind_pattern inboundMem_canonical => inboundMem s port r

theorem inboundServe_canonical {s : State} (r : Inbound) (hc : Canonical s) : Canonical (inboundServe s r).2 := by
  grind [inboundServe, Canonical]
grind_pattern inboundServe_canonical => inboundServe s r

theorem inboundAgain_canonical {s : State} (hc : Canonical s) : Canonical (inboundAgain s) := by
  unfold inboundAgain
  refine foldl_canonical (fun _ _ h => ?_) hc
  grind [Canonical, foldl_canonical]
grind_pattern inboundAgain_canonical => inboundAgain s

theorem execBurstRequest_canonical {s t : State} (cmd : Nat) (hc : Canonical s) (ht : execBurstRequest cmd s = .next t) : Canonical t := by
  unfold execBurstRequest at ht
  (repeat' split at ht) <;> grind [Canonical]

theorem execBurstLanding_canonical {s t : State} (cmd n : Nat) (hc : Canonical s) (ht : execBurstLanding cmd n s = .next t) : Canonical t := by
  unfold execBurstLanding at ht
  (repeat' split at ht) <;> grind [Canonical]

theorem execCopyBurst_canonical {s t : State} (cmd n : Nat) (hc : Canonical s) (ht : execCopyBurst cmd n s = .next t) : Canonical t := by
  unfold execCopyBurst at ht
  (repeat' split at ht) <;> grind [Canonical]

theorem performHeld_canonical {s : State} (who : Holder) (hc : Canonical s) : Canonical (performHeld s who) := by
  have ha : ∀ o : Out, (∀ t, o = .next t → Canonical t) → Canonical (match o with | .next t => t | _ => s) := by
    intro o h
    cases o with
    | next t => exact h t rfl
    | _ => exact hc
  unfold performHeld
  dsimp only
  split
  · grind
  · split
    · exact hc
    · refine ha _ fun t ht => ?_
      (repeat' split at ht) <;> first | exact execCopyBurst_canonical _ _ hc ht | exact execBurstLanding_canonical _ _ hc ht | exact execBurstRequest_canonical _ hc ht
  · exact ha _ fun t ht => packetAccess_canonical _ _ hc ht
  · grind
  · grind
  · split
    · exact ha _ fun t ht => execHostAccess_canonical _ _ (by grind [Canonical]) ht
    · exact hc
  · (repeat' split) <;> grind [Canonical]
grind_pattern performHeld_canonical => performHeld s who

theorem clearTable_canonical {s : State} (hc : Canonical s) : Canonical (clearTable s) := Sparse_wf_filter _ hc
grind_pattern clearTable_canonical => clearTable s

theorem firmwareRuns_canonical {s : State} (image : List Byte) (hc : Canonical s) : Canonical (firmwareRuns s image) := by
  grind [firmwareRuns, Canonical, foldl_canonical]
grind_pattern firmwareRuns_canonical => firmwareRuns s image

theorem fwRead_canonical {s : State} (at_ n : Nat) (hc : Canonical s) : Canonical (fwRead s at_ n).2 := by
  have : ∀ (l : List (Nat × Nat)) (acc : List Byte × State), Canonical acc.2 → Canonical (l.foldl (fun acc p => match hubRead acc.2 0 p.1 p.2 with
      | (bs, s1) => (acc.1 ++ bs, s1)) acc).2 := by
    intro l
    induction l with
    | nil => exact fun _ h => h
    | cons p t ih => exact fun acc h => ih _ (hubRead_canonical 0 p.1 p.2 h)
  exact this _ _ hc
grind_pattern fwRead_canonical => fwRead s at_ n

theorem fwCommit_canonical {s : State} (hc : Canonical s) : Canonical (fwCommit s) := by
  grind [fwCommit, Canonical]
grind_pattern fwCommit_canonical => fwCommit s

end Sys2Proof.Machine
end

