-- ==== Sys2Proof/Laws/Encoding.lean ====
section
/-! SUPPORT. Words and their fields: what a joined word's fields are, and that a word is joined from its own fields (R156, R162 to R170). -/

namespace Sys2Proof

/-- A field of the upper part of a join. -/
theorem field_upper {n m : Nat} (x : BitVec n) (y : BitVec m) (lo k : Nat) (h : m ≤ lo) :
    (x ++ y).extractLsb' lo k = x.extractLsb' (lo - m) k := by
  apply BitVec.eq_of_getLsbD_eq
  intro i hi
  have h1 : ¬ lo + i < m := by omega
  simp [BitVec.getLsbD_extractLsb', BitVec.getLsbD_append, h1, show lo + i - m = lo - m + i by omega]

/-- A field of the lower part of a join. -/
theorem field_lower {n m : Nat} (x : BitVec n) (y : BitVec m) (lo k : Nat) (h : lo + k ≤ m) :
    (x ++ y).extractLsb' lo k = y.extractLsb' lo k := by
  apply BitVec.eq_of_getLsbD_eq
  intro i hi
  have h1 : lo + i < m := by omega
  simp [BitVec.getLsbD_extractLsb', BitVec.getLsbD_append, h1]

/-- A bit of the upper part of a join. -/
theorem bit_upper {n m : Nat} (x : BitVec n) (y : BitVec m) (i : Nat) (h : m ≤ i) : (x ++ y).getLsbD i = x.getLsbD (i - m) := by
  simp [BitVec.getLsbD_append, show ¬ i < m by omega]

/-- A bit of the lower part of a join. -/
theorem bit_lower {n m : Nat} (x : BitVec n) (y : BitVec m) (i : Nat) (h : i < m) : (x ++ y).getLsbD i = y.getLsbD i := by
  simp [BitVec.getLsbD_append, h]

/-- A whole value is its own field. -/
theorem field_whole {n : Nat} (x : BitVec n) : x.extractLsb' 0 n = x := by simp

/-- R162: the opcode of a joined word. -/
theorem opOf_joinWord (op : BitVec 10) (h : Pfx) (b : BitVec 46) : opOf (joinWord op h b) = op := by
  unfold opOf joinWord
  rw [field_upper _ _ _ _ (by decide)]
  exact field_whole op

/-- R162: the prefix of a joined word. -/
theorem pfxOf_joinWord (op : BitVec 10) (h : Pfx) (b : BitVec 46) : pfxOf (joinWord op h b) = h := by
  obtain ⟨st, pr, ng⟩ := h
  simp only [pfxOf, joinWord, Pfx.mk.injEq]
  refine ⟨?_, ?_, ?_⟩
  · rw [field_lower _ _ _ _ (by decide), field_upper _ _ _ _ (by decide)]; exact field_whole st
  · rw [field_lower _ _ _ _ (by decide), field_lower _ _ _ _ (by decide), field_upper _ _ _ _ (by decide)]; exact field_whole pr
  · rw [bit_lower _ _ _ (by decide), bit_lower _ _ _ (by decide), bit_lower _ _ _ (by decide), bit_upper _ _ _ (by decide)]; simp

/-- The body of a joined word. -/
theorem body_joinWord (op : BitVec 10) (h : Pfx) (b : BitVec 46) (lo k : Nat) (hk : lo + k ≤ 46) :
    (joinWord op h b).extractLsb' lo k = b.extractLsb' lo k := by
  unfold joinWord
  rw [field_lower _ _ _ _ (by omega), field_lower _ _ _ _ (by omega), field_lower _ _ _ _ (by omega), field_lower _ _ _ _ hk]

/-- A bit of the body of a joined word. -/
theorem bit_joinWord (op : BitVec 10) (h : Pfx) (b : BitVec 46) (i : Nat) (hi : i < 46) : (joinWord op h b).getLsbD i = b.getLsbD i := by
  unfold joinWord
  rw [bit_lower _ _ _ (by omega), bit_lower _ _ _ (by omega), bit_lower _ _ _ (by omega), bit_lower _ _ _ hi]

/-- R164: the fields of a joined format R word. -/
theorem fmtR_joinWord (op : BitVec 10) (h : Pfx) (r : FmtR) : fmtR (joinWord op h (bitsR r)) = r := by
  obtain ⟨d, a, b, c, rel, ty, rnd, sat, ftz, sub⟩ := r
  simp only [fmtR, FmtR.mk.injEq]
  refine ⟨?_, ?_, ?_, ?_, ?_, ?_, ?_, ?_, ?_, ?_⟩
  all_goals first
    | rw [body_joinWord _ _ _ _ _ (by decide)]
    | rw [bit_joinWord _ _ _ _ (by decide)]
  all_goals unfold bitsR
  all_goals repeat first
    | rw [field_upper _ _ _ _ (by decide)]
    | rw [field_lower _ _ _ _ (by decide)]
    | rw [bit_upper _ _ _ (by decide)]
    | rw [bit_lower _ _ _ (by decide)]
  all_goals simp

/-- R166: the fields of a joined format I word. -/
theorem fmtI_joinWord (op : BitVec 10) (h : Pfx) (r : FmtI) : fmtI (joinWord op h (bitsI r)) = r := by
  obtain ⟨d, a, imm⟩ := r
  simp only [fmtI, FmtI.mk.injEq]
  refine ⟨?_, ?_, ?_⟩ <;> rw [body_joinWord _ _ _ _ _ (by decide)] <;> unfold bitsI
  all_goals repeat first
    | rw [field_upper _ _ _ _ (by decide)]
    | rw [field_lower _ _ _ _ (by decide)]
  all_goals simp

/-- R167: the fields of a joined format B word. -/
theorem fmtB_joinWord (op : BitVec 10) (h : Pfx) (r : FmtB) : fmtB (joinWord op h (bitsB r)) = r := by
  obtain ⟨d, a, ofs⟩ := r
  simp only [fmtB, FmtB.mk.injEq]
  refine ⟨?_, ?_, ?_⟩ <;> rw [body_joinWord _ _ _ _ _ (by decide)] <;> unfold bitsB
  all_goals repeat first
    | rw [field_upper _ _ _ _ (by decide)]
    | rw [field_lower _ _ _ _ (by decide)]
  all_goals simp

/-- R168: the fields of a joined format M word. -/
theorem fmtM_joinWord (op : BitVec 10) (h : Pfx) (r : FmtM) : fmtM (joinWord op h (bitsM r)) = r := by
  obtain ⟨d, am, sb, b, c, ord, scope, mtype, sc, flag⟩ := r
  simp only [fmtM, FmtM.mk.injEq]
  refine ⟨?_, ?_, ?_, ?_, ?_, ?_, ?_, ?_, ?_, ?_⟩
  all_goals first
    | rw [body_joinWord _ _ _ _ _ (by decide)]
    | rw [bit_joinWord _ _ _ _ (by decide)]
  all_goals unfold bitsM
  all_goals repeat first
    | rw [field_upper _ _ _ _ (by decide)]
    | rw [field_lower _ _ _ _ (by decide)]
    | rw [bit_upper _ _ _ (by decide)]
    | rw [bit_lower _ _ _ (by decide)]
  all_goals simp

/-- R170: the fields of a joined format E word. -/
theorem fmtE_joinWord (op : BitVec 10) (h : Pfx) (r : FmtE) : fmtE (joinWord op h (bitsE r)) = r := by
  obtain ⟨d, a, b, c, scope, opt, flag⟩ := r
  simp only [fmtE, FmtE.mk.injEq]
  refine ⟨?_, ?_, ?_, ?_, ?_, ?_, ?_⟩ <;> rw [body_joinWord _ _ _ _ _ (by decide)] <;> unfold bitsE
  all_goals repeat first
    | rw [field_upper _ _ _ _ (by decide)]
    | rw [field_lower _ _ _ _ (by decide)]
  all_goals simp

/-- A value is joined from its upper and its lower part. -/
theorem join_fields {w : Nat} (x : BitVec w) (lo n k : Nat) :
    x.extractLsb' (lo + k) n ++ x.extractLsb' lo k = x.extractLsb' lo (n + k) := by
  apply BitVec.eq_of_getLsbD_eq
  intro i hi
  simp only [BitVec.getLsbD_append, BitVec.getLsbD_extractLsb']
  split_ifs with h
  · simp [h, hi]
  · simp [hi, show i - k < n by omega, show lo + k + (i - k) = lo + i by omega]

/-- A bit is a field of width 1. -/
theorem bit_field {w : Nat} (x : BitVec w) (i : Nat) : BitVec.ofBool (x.getLsbD i) = x.extractLsb' i 1 := by
  apply BitVec.eq_of_getLsbD_eq
  intro j hj
  obtain rfl : j = 0 := by omega
  simp

/-- A word is joined from its opcode, its prefix and its body. -/
theorem joinWord_fields (w : DWord) : joinWord (opOf w) (pfxOf w) (w.extractLsb' 0 46) = w := by
  simp only [joinWord, opOf, pfxOf, bit_field]
  rw [join_fields w 0 1 46, join_fields w 0 4 47, join_fields w 0 3 51, join_fields w 0 10 54]
  exact field_whole w

/-- R164: the body of a format R word is the join of its fields. -/
theorem bitsR_fmtR (w : DWord) : bitsR (fmtR w) = w.extractLsb' 0 46 := by
  simp only [bitsR, fmtR, bit_field]
  rw [join_fields w 0 1 3, join_fields w 0 1 4, join_fields w 0 2 5, join_fields w 0 5 7, join_fields w 0 2 12, join_fields w 0 8 14,
    join_fields w 0 8 22, join_fields w 0 8 30, join_fields w 0 8 38]

/-- R166: the body of a format I word is the join of its fields. -/
theorem bitsI_fmtI (w : DWord) : bitsI (fmtI w) = w.extractLsb' 0 46 := by
  simp only [bitsI, fmtI]
  rw [join_fields w 0 8 30, join_fields w 0 8 38]

/-- R167: the body of a format B word is the join of its fields. -/
theorem bitsB_fmtB (w : DWord) : bitsB (fmtB w) = w.extractLsb' 0 46 := by
  simp only [bitsB, fmtB]
  rw [join_fields w 0 8 30, join_fields w 0 8 38]

/-- R168: the body of a format M word is the join of its fields. -/
theorem bitsM_fmtM (w : DWord) : bitsM (fmtM w) = w.extractLsb' 0 46 := by
  simp only [bitsM, fmtM, bit_field]
  rw [join_fields w 0 1 4, join_fields w 0 4 5, join_fields w 0 3 9, join_fields w 0 2 12, join_fields w 0 8 14, join_fields w 0 8 22,
    join_fields w 0 6 30, join_fields w 0 2 36, join_fields w 0 8 38]

/-- R170: the body of a format E word is the join of its fields. -/
theorem bitsE_fmtE (w : DWord) : bitsE (fmtE w) = w.extractLsb' 0 46 := by
  simp only [bitsE, fmtE]
  rw [join_fields w 0 7 4, join_fields w 0 3 11, join_fields w 0 8 14, join_fields w 0 8 22, join_fields w 0 8 30, join_fields w 0 8 38]

end Sys2Proof
end

