-- ==== Sys2Proof/Laws/PerInstr.lean ====
section
/-! SUPPORT. A law for each instruction: no word of an instruction carries the header mark (R157). -/

namespace Sys2Proof.Laws.NoMark

open Sys2Proof

/-- R157: the word of an instruction, if it has one, is not taken for a clause header. -/
def Statement (i : Instr) : Prop := ∀ w, encodeWord i = some w → opOf w ≠ 0x3FF

theorem smov (h : Pfx) (r : FmtR) : Statement (.smov h r) := fun w e => by cases e; rw [opOf_joinWord]; decide
theorem smovi (h : Pfx) (r : FmtI) : Statement (.smovi h r) := fun w e => by cases e; rw [opOf_joinWord]; decide
theorem sadd (h : Pfx) (r : FmtR) : Statement (.sadd h r) := fun w e => by cases e; rw [opOf_joinWord]; decide
theorem saddi (h : Pfx) (r : FmtI) : Statement (.saddi h r) := fun w e => by cases e; rw [opOf_joinWord]; decide
theorem ssub (h : Pfx) (r : FmtR) : Statement (.ssub h r) := fun w e => by cases e; rw [opOf_joinWord]; decide
theorem smul (h : Pfx) (r : FmtR) : Statement (.smul h r) := fun w e => by cases e; rw [opOf_joinWord]; decide
theorem smulh (h : Pfx) (r : FmtR) : Statement (.smulh h r) := fun w e => by cases e; rw [opOf_joinWord]; decide
theorem sdiv (h : Pfx) (r : FmtR) : Statement (.sdiv h r) := fun w e => by cases e; rw [opOf_joinWord]; decide
theorem srem (h : Pfx) (r : FmtR) : Statement (.srem h r) := fun w e => by cases e; rw [opOf_joinWord]; decide
theorem sand (h : Pfx) (r : FmtR) : Statement (.sand h r) := fun w e => by cases e; rw [opOf_joinWord]; decide
theorem sor (h : Pfx) (r : FmtR) : Statement (.sor h r) := fun w e => by cases e; rw [opOf_joinWord]; decide
theorem sxor (h : Pfx) (r : FmtR) : Statement (.sxor h r) := fun w e => by cases e; rw [opOf_joinWord]; decide
theorem sshl (h : Pfx) (r : FmtR) : Statement (.sshl h r) := fun w e => by cases e; rw [opOf_joinWord]; decide
theorem sshr (h : Pfx) (r : FmtR) : Statement (.sshr h r) := fun w e => by cases e; rw [opOf_joinWord]; decide
theorem ssra (h : Pfx) (r : FmtR) : Statement (.ssra h r) := fun w e => by cases e; rw [opOf_joinWord]; decide
theorem smin (h : Pfx) (r : FmtR) : Statement (.smin h r) := fun w e => by cases e; rw [opOf_joinWord]; decide
theorem smax (h : Pfx) (r : FmtR) : Statement (.smax h r) := fun w e => by cases e; rw [opOf_joinWord]; decide
theorem scmp (h : Pfx) (r : FmtR) : Statement (.scmp h r) := fun w e => by cases e; rw [opOf_joinWord]; decide
theorem ssel (h : Pfx) (r : FmtR) : Statement (.ssel h r) := fun w e => by cases e; rw [opOf_joinWord]; decide
theorem slea (h : Pfx) (r : FmtR) : Statement (.slea h r) := fun w e => by cases e; rw [opOf_joinWord]; decide
theorem sbfe (h : Pfx) (r : FmtR) : Statement (.sbfe h r) := fun w e => by cases e; rw [opOf_joinWord]; decide
theorem sbfi (h : Pfx) (r : FmtR) : Statement (.sbfi h r) := fun w e => by cases e; rw [opOf_joinWord]; decide
theorem spopc (h : Pfx) (r : FmtR) : Statement (.spopc h r) := fun w e => by cases e; rw [opOf_joinWord]; decide
theorem sclz (h : Pfx) (r : FmtR) : Statement (.sclz h r) := fun w e => by cases e; rw [opOf_joinWord]; decide
theorem movsr (h : Pfx) (r : FmtR) : Statement (.movsr h r) := fun w e => by cases e; rw [opOf_joinWord]; decide
theorem movrs (h : Pfx) (r : FmtR) : Statement (.movrs h r) := fun w e => by cases e; rw [opOf_joinWord]; decide
theorem kmovK (h : Pfx) (r : FmtR) : Statement (.kmovK h r) := fun w e => by cases e; rw [opOf_joinWord]; decide
theorem kmovFromS (h : Pfx) (r : FmtR) : Statement (.kmovFromS h r) := fun w e => by cases e; rw [opOf_joinWord]; decide
theorem kmovToS (h : Pfx) (r : FmtR) : Statement (.kmovToS h r) := fun w e => by cases e; rw [opOf_joinWord]; decide
theorem kand (h : Pfx) (r : FmtR) : Statement (.kand h r) := fun w e => by cases e; rw [opOf_joinWord]; decide
theorem kor (h : Pfx) (r : FmtR) : Statement (.kor h r) := fun w e => by cases e; rw [opOf_joinWord]; decide
theorem kxor (h : Pfx) (r : FmtR) : Statement (.kxor h r) := fun w e => by cases e; rw [opOf_joinWord]; decide
theorem knot (h : Pfx) (r : FmtR) : Statement (.knot h r) := fun w e => by cases e; rw [opOf_joinWord]; decide
theorem kpopc (h : Pfx) (r : FmtR) : Statement (.kpopc h r) := fun w e => by cases e; rw [opOf_joinWord]; decide
theorem kffs (h : Pfx) (r : FmtR) : Statement (.kffs h r) := fun w e => by cases e; rw [opOf_joinWord]; decide
theorem kset (h : Pfx) (r : FmtI) : Statement (.kset h r) := fun w e => by cases e; rw [opOf_joinWord]; decide
theorem nop (h : Pfx) (r : FmtR) : Statement (.nop h r) := fun w e => by cases e; rw [opOf_joinWord]; decide
theorem bra (h : Pfx) (r : FmtB) : Statement (.bra h r) := fun w e => by cases e; rw [opOf_joinWord]; decide
theorem brc (h : Pfx) (r : FmtB) : Statement (.brc h r) := fun w e => by cases e; rw [opOf_joinWord]; decide
theorem brl (h : Pfx) (r : FmtB) : Statement (.brl h r) := fun w e => by cases e; rw [opOf_joinWord]; decide
theorem jmpS (h : Pfx) (r : FmtR) : Statement (.jmpS h r) := fun w e => by cases e; rw [opOf_joinWord]; decide
theorem jmpV (h : Pfx) (r : FmtR) : Statement (.jmpV h r) := fun w e => by cases e; rw [opOf_joinWord]; decide
theorem call (h : Pfx) (r : FmtB) : Statement (.call h r) := fun w e => by cases e; rw [opOf_joinWord]; decide
theorem ret (h : Pfx) (r : FmtR) : Statement (.ret h r) := fun w e => by cases e; rw [opOf_joinWord]; decide
theorem reconv (h : Pfx) (r : FmtR) : Statement (.reconv h r) := fun w e => by cases e; rw [opOf_joinWord]; decide
theorem exit (h : Pfx) (r : FmtR) : Statement (.exit h r) := fun w e => by cases e; rw [opOf_joinWord]; decide
theorem yield (h : Pfx) (r : FmtR) : Statement (.yield h r) := fun w e => by cases e; rw [opOf_joinWord]; decide
theorem trap (h : Pfx) (r : FmtI) : Statement (.trap h r) := fun w e => by cases e; rw [opOf_joinWord]; decide
theorem brk (h : Pfx) (r : FmtI) : Statement (.brk h r) := fun w e => by cases e; rw [opOf_joinWord]; decide
theorem vmov (h : Pfx) (r : FmtR) : Statement (.vmov h r) := fun w e => by cases e; rw [opOf_joinWord]; decide
theorem vmovi (h : Pfx) (r : FmtI) : Statement (.vmovi h r) := fun w e => by cases e; rw [opOf_joinWord]; decide
theorem vadd (h : Pfx) (r : FmtR) : Statement (.vadd h r) := fun w e => by cases e; rw [opOf_joinWord]; decide
theorem vsub (h : Pfx) (r : FmtR) : Statement (.vsub h r) := fun w e => by cases e; rw [opOf_joinWord]; decide
theorem vmul (h : Pfx) (r : FmtR) : Statement (.vmul h r) := fun w e => by cases e; rw [opOf_joinWord]; decide
theorem vmulh (h : Pfx) (r : FmtR) : Statement (.vmulh h r) := fun w e => by cases e; rw [opOf_joinWord]; decide
theorem vmad (h : Pfx) (r : FmtR) : Statement (.vmad h r) := fun w e => by cases e; rw [opOf_joinWord]; decide
theorem vmin (h : Pfx) (r : FmtR) : Statement (.vmin h r) := fun w e => by cases e; rw [opOf_joinWord]; decide
theorem vmax (h : Pfx) (r : FmtR) : Statement (.vmax h r) := fun w e => by cases e; rw [opOf_joinWord]; decide
theorem vabs (h : Pfx) (r : FmtR) : Statement (.vabs h r) := fun w e => by cases e; rw [opOf_joinWord]; decide
theorem vneg (h : Pfx) (r : FmtR) : Statement (.vneg h r) := fun w e => by cases e; rw [opOf_joinWord]; decide
theorem vand (h : Pfx) (r : FmtR) : Statement (.vand h r) := fun w e => by cases e; rw [opOf_joinWord]; decide
theorem vor (h : Pfx) (r : FmtR) : Statement (.vor h r) := fun w e => by cases e; rw [opOf_joinWord]; decide
theorem vxor (h : Pfx) (r : FmtR) : Statement (.vxor h r) := fun w e => by cases e; rw [opOf_joinWord]; decide
theorem vnot (h : Pfx) (r : FmtR) : Statement (.vnot h r) := fun w e => by cases e; rw [opOf_joinWord]; decide
theorem vshl (h : Pfx) (r : FmtR) : Statement (.vshl h r) := fun w e => by cases e; rw [opOf_joinWord]; decide
theorem vshr (h : Pfx) (r : FmtR) : Statement (.vshr h r) := fun w e => by cases e; rw [opOf_joinWord]; decide
theorem vsra (h : Pfx) (r : FmtR) : Statement (.vsra h r) := fun w e => by cases e; rw [opOf_joinWord]; decide
theorem vrot (h : Pfx) (r : FmtR) : Statement (.vrot h r) := fun w e => by cases e; rw [opOf_joinWord]; decide
theorem vbfe (h : Pfx) (r : FmtR) : Statement (.vbfe h r) := fun w e => by cases e; rw [opOf_joinWord]; decide
theorem vbfi (h : Pfx) (r : FmtR) : Statement (.vbfi h r) := fun w e => by cases e; rw [opOf_joinWord]; decide
theorem vpopc (h : Pfx) (r : FmtR) : Statement (.vpopc h r) := fun w e => by cases e; rw [opOf_joinWord]; decide
theorem vclz (h : Pfx) (r : FmtR) : Statement (.vclz h r) := fun w e => by cases e; rw [opOf_joinWord]; decide
theorem vbrev (h : Pfx) (r : FmtR) : Statement (.vbrev h r) := fun w e => by cases e; rw [opOf_joinWord]; decide
theorem vcmp (h : Pfx) (r : FmtR) : Statement (.vcmp h r) := fun w e => by cases e; rw [opOf_joinWord]; decide
theorem vsel (h : Pfx) (r : FmtR) : Statement (.vsel h r) := fun w e => by cases e; rw [opOf_joinWord]; decide
theorem vaddc (h : Pfx) (r : FmtR) : Statement (.vaddc h r) := fun w e => by cases e; rw [opOf_joinWord]; decide
theorem vdot4 (h : Pfx) (r : FmtR) : Statement (.vdot4 h r) := fun w e => by cases e; rw [opOf_joinWord]; decide
theorem vidx (h : Pfx) (r : FmtR) : Statement (.vidx h r) := fun w e => by cases e; rw [opOf_joinWord]; decide
theorem vfadd (h : Pfx) (r : FmtR) : Statement (.vfadd h r) := fun w e => by cases e; rw [opOf_joinWord]; decide
theorem vfsub (h : Pfx) (r : FmtR) : Statement (.vfsub h r) := fun w e => by cases e; rw [opOf_joinWord]; decide
theorem vfmul (h : Pfx) (r : FmtR) : Statement (.vfmul h r) := fun w e => by cases e; rw [opOf_joinWord]; decide
theorem vfma (h : Pfx) (r : FmtR) : Statement (.vfma h r) := fun w e => by cases e; rw [opOf_joinWord]; decide
theorem vfmin (h : Pfx) (r : FmtR) : Statement (.vfmin h r) := fun w e => by cases e; rw [opOf_joinWord]; decide
theorem vfmax (h : Pfx) (r : FmtR) : Statement (.vfmax h r) := fun w e => by cases e; rw [opOf_joinWord]; decide
theorem vfcmp (h : Pfx) (r : FmtR) : Statement (.vfcmp h r) := fun w e => by cases e; rw [opOf_joinWord]; decide
theorem vfclass (h : Pfx) (r : FmtR) : Statement (.vfclass h r) := fun w e => by cases e; rw [opOf_joinWord]; decide
theorem vfrnd (h : Pfx) (r : FmtR) : Statement (.vfrnd h r) := fun w e => by cases e; rw [opOf_joinWord]; decide
theorem vfdiv (h : Pfx) (r : FmtR) : Statement (.vfdiv h r) := fun w e => by cases e; rw [opOf_joinWord]; decide
theorem vfsqrt (h : Pfx) (r : FmtR) : Statement (.vfsqrt h r) := fun w e => by cases e; rw [opOf_joinWord]; decide
theorem vfrcp (h : Pfx) (r : FmtR) : Statement (.vfrcp h r) := fun w e => by cases e; rw [opOf_joinWord]; decide
theorem vfrsq (h : Pfx) (r : FmtR) : Statement (.vfrsq h r) := fun w e => by cases e; rw [opOf_joinWord]; decide
theorem vfexp2 (h : Pfx) (r : FmtR) : Statement (.vfexp2 h r) := fun w e => by cases e; rw [opOf_joinWord]; decide
theorem vflog2 (h : Pfx) (r : FmtR) : Statement (.vflog2 h r) := fun w e => by cases e; rw [opOf_joinWord]; decide
theorem vfsin (h : Pfx) (r : FmtR) : Statement (.vfsin h r) := fun w e => by cases e; rw [opOf_joinWord]; decide
theorem vfcos (h : Pfx) (r : FmtR) : Statement (.vfcos h r) := fun w e => by cases e; rw [opOf_joinWord]; decide
theorem vftanh (h : Pfx) (r : FmtR) : Statement (.vftanh h r) := fun w e => by cases e; rw [opOf_joinWord]; decide
theorem vfscale (h : Pfx) (r : FmtR) : Statement (.vfscale h r) := fun w e => by cases e; rw [opOf_joinWord]; decide
theorem vfdot2 (h : Pfx) (r : FmtR) : Statement (.vfdot2 h r) := fun w e => by cases e; rw [opOf_joinWord]; decide
theorem vcvt (h : Pfx) (r : FmtR) : Statement (.vcvt h r) := fun w e => by cases e; rw [opOf_joinWord]; decide
theorem vpack8 (h : Pfx) (r : FmtR) : Statement (.vpack8 h r) := fun w e => by cases e; rw [opOf_joinWord]; decide
theorem vunpk8 (h : Pfx) (r : FmtR) : Statement (.vunpk8 h r) := fun w e => by cases e; rw [opOf_joinWord]; decide
theorem vquant (h : Pfx) (r : FmtR) : Statement (.vquant h r) := fun w e => by cases e; rw [opOf_joinWord]; decide
theorem vdeq (h : Pfx) (r : FmtR) : Statement (.vdeq h r) := fun w e => by cases e; rw [opOf_joinWord]; decide
theorem vbscale (h : Pfx) (r : FmtR) : Statement (.vbscale h r) := fun w e => by cases e; rw [opOf_joinWord]; decide
theorem vshfl (h : Pfx) (r : FmtR) : Statement (.vshfl h r) := fun w e => by cases e; rw [opOf_joinWord]; decide
theorem vshup (h : Pfx) (r : FmtR) : Statement (.vshup h r) := fun w e => by cases e; rw [opOf_joinWord]; decide
theorem vshdn (h : Pfx) (r : FmtR) : Statement (.vshdn h r) := fun w e => by cases e; rw [opOf_joinWord]; decide
theorem vshxr (h : Pfx) (r : FmtR) : Statement (.vshxr h r) := fun w e => by cases e; rw [opOf_joinWord]; decide
theorem vbcast (h : Pfx) (r : FmtR) : Statement (.vbcast h r) := fun w e => by cases e; rw [opOf_joinWord]; decide
theorem v2s (h : Pfx) (r : FmtR) : Statement (.v2s h r) := fun w e => by cases e; rw [opOf_joinWord]; decide
theorem s2v (h : Pfx) (r : FmtR) : Statement (.s2v h r) := fun w e => by cases e; rw [opOf_joinWord]; decide
theorem vred (h : Pfx) (r : FmtR) : Statement (.vred h r) := fun w e => by cases e; rw [opOf_joinWord]; decide
theorem vscan (h : Pfx) (r : FmtR) : Statement (.vscan h r) := fun w e => by cases e; rw [opOf_joinWord]; decide
theorem vvote (h : Pfx) (r : FmtR) : Statement (.vvote h r) := fun w e => by cases e; rw [opOf_joinWord]; decide
theorem vmatch (h : Pfx) (r : FmtR) : Statement (.vmatch h r) := fun w e => by cases e; rw [opOf_joinWord]; decide
theorem vcomp (h : Pfx) (r : FmtR) : Statement (.vcomp h r) := fun w e => by cases e; rw [opOf_joinWord]; decide
theorem vexpd (h : Pfx) (r : FmtR) : Statement (.vexpd h r) := fun w e => by cases e; rw [opOf_joinWord]; decide
theorem ld (h : Pfx) (r : FmtM) : Statement (.ld h r) := fun w e => by cases e; rw [opOf_joinWord]; decide
theorem st (h : Pfx) (r : FmtM) : Statement (.st h r) := fun w e => by cases e; rw [opOf_joinWord]; decide
theorem lds (h : Pfx) (r : FmtM) : Statement (.lds h r) := fun w e => by cases e; rw [opOf_joinWord]; decide
theorem sts (h : Pfx) (r : FmtM) : Statement (.sts h r) := fun w e => by cases e; rw [opOf_joinWord]; decide
theorem ldl (h : Pfx) (r : FmtM) : Statement (.ldl h r) := fun w e => by cases e; rw [opOf_joinWord]; decide
theorem stl (h : Pfx) (r : FmtM) : Statement (.stl h r) := fun w e => by cases e; rw [opOf_joinWord]; decide
theorem pfh (h : Pfx) (r : FmtM) : Statement (.pfh h r) := fun w e => by cases e; rw [opOf_joinWord]; decide
theorem atom (h : Pfx) (r : FmtM) : Statement (.atom h r) := fun w e => by cases e; rw [opOf_joinWord]; decide
theorem acas (h : Pfx) (r : FmtM) : Statement (.acas h r) := fun w e => by cases e; rw [opOf_joinWord]; decide
theorem red (h : Pfx) (r : FmtM) : Statement (.red h r) := fun w e => by cases e; rw [opOf_joinWord]; decide
theorem fence (h : Pfx) (r : FmtM) : Statement (.fence h r) := fun w e => by cases e; rw [opOf_joinWord]; decide
theorem flushr (h : Pfx) (r : FmtM) : Statement (.flushr h r) := fun w e => by cases e; rw [opOf_joinWord]; decide
theorem invr (h : Pfx) (r : FmtM) : Statement (.invr h r) := fun w e => by cases e; rw [opOf_joinWord]; decide
theorem bar (h : Pfx) (r : FmtM) : Statement (.bar h r) := fun w e => by cases e; rw [opOf_joinWord]; decide
theorem bara (h : Pfx) (r : FmtM) : Statement (.bara h r) := fun w e => by cases e; rw [opOf_joinWord]; decide
theorem barw (h : Pfx) (r : FmtM) : Statement (.barw h r) := fun w e => by cases e; rw [opOf_joinWord]; decide
theorem waitva (h : Pfx) (r : FmtM) : Statement (.waitva h r) := fun w e => by cases e; rw [opOf_joinWord]; decide
theorem wakeva (h : Pfx) (r : FmtM) : Statement (.wakeva h r) := fun w e => by cases e; rw [opOf_joinWord]; decide
theorem ecset (h : Pfx) (r : FmtM) : Statement (.ecset h r) := fun w e => by cases e; rw [opOf_joinWord]; decide
theorem ecadd (h : Pfx) (r : FmtM) : Statement (.ecadd h r) := fun w e => by cases e; rw [opOf_joinWord]; decide
theorem ecwait (h : Pfx) (r : FmtM) : Statement (.ecwait h r) := fun w e => by cases e; rw [opOf_joinWord]; decide
theorem ecq (h : Pfx) (r : FmtM) : Statement (.ecq h r) := fun w e => by cases e; rw [opOf_joinWord]; decide
theorem fwait (h : Pfx) (r : FmtM) : Statement (.fwait h r) := fun w e => by cases e; rw [opOf_joinWord]; decide
theorem pin (h : Pfx) (r : FmtM) : Statement (.pin h r) := fun w e => by cases e; rw [opOf_joinWord]; decide
theorem unpin (h : Pfx) (r : FmtM) : Statement (.unpin h r) := fun w e => by cases e; rw [opOf_joinWord]; decide
theorem hint (h : Pfx) (r : FmtM) : Statement (.hint h r) := fun w e => by cases e; rw [opOf_joinWord]; decide
theorem tierq (h : Pfx) (r : FmtM) : Statement (.tierq h r) := fun w e => by cases e; rw [opOf_joinWord]; decide
theorem ldsh (h : Pfx) (r : FmtE) : Statement (.ldsh h r) := fun w e => by cases e; rw [opOf_joinWord]; decide
theorem evsh (h : Pfx) (r : FmtE) : Statement (.evsh h r) := fun w e => by cases e; rw [opOf_joinWord]; decide
theorem shset (h : Pfx) (r : FmtE) : Statement (.shset h r) := fun w e => by cases e; rw [opOf_joinWord]; decide
theorem shget (h : Pfx) (r : FmtE) : Statement (.shget h r) := fun w e => by cases e; rw [opOf_joinWord]; decide
theorem cbld (h : Pfx) (r : FmtE) : Statement (.cbld h r) := fun w e => by cases e; rw [opOf_joinWord]; decide
theorem cpy (h : Pfx) (r : FmtE) : Statement (.cpy h r) := fun w e => by cases e; rw [opOf_joinWord]; decide
theorem cpyg (h : Pfx) (r : FmtE) : Statement (.cpyg h r) := fun w e => by cases e; rw [opOf_joinWord]; decide
theorem rdh (h : Pfx) (r : FmtE) : Statement (.rdh h r) := fun w e => by cases e; rw [opOf_joinWord]; decide
theorem rdhg (h : Pfx) (r : FmtE) : Statement (.rdhg h r) := fun w e => by cases e; rw [opOf_joinWord]; decide
theorem lend (h : Pfx) (r : FmtE) : Statement (.lend h r) := fun w e => by cases e; rw [opOf_joinWord]; decide
theorem lendStop (h : Pfx) (r : FmtE) : Statement (.lendStop h r) := fun w e => by cases e; rw [opOf_joinWord]; decide
theorem sub (h : Pfx) (r : FmtE) : Statement (.sub h r) := fun w e => by cases e; rw [opOf_joinWord]; decide
theorem unsub (h : Pfx) (r : FmtE) : Statement (.unsub h r) := fun w e => by cases e; rw [opOf_joinWord]; decide
theorem subq (h : Pfx) (r : FmtE) : Statement (.subq h r) := fun w e => by cases e; rw [opOf_joinWord]; decide
theorem pubfl (h : Pfx) (r : FmtE) : Statement (.pubfl h r) := fun w e => by cases e; rw [opOf_joinWord]; decide
theorem mma (h : Pfx) (r : FmtE) : Statement (.mma h r) := fun w e => by cases e; rw [opOf_joinWord]; decide
theorem mmz (h : Pfx) (r : FmtE) : Statement (.mmz h r) := fun w e => by cases e; rw [opOf_joinWord]; decide
theorem accld (h : Pfx) (r : FmtE) : Statement (.accld h r) := fun w e => by cases e; rw [opOf_joinWord]; decide
theorem accst (h : Pfx) (r : FmtE) : Statement (.accst h r) := fun w e => by cases e; rw [opOf_joinWord]; decide
theorem accrd (h : Pfx) (r : FmtE) : Statement (.accrd h r) := fun w e => by cases e; rw [opOf_joinWord]; decide
theorem accwr (h : Pfx) (r : FmtE) : Statement (.accwr h r) := fun w e => by cases e; rw [opOf_joinWord]; decide
theorem push (h : Pfx) (r : FmtE) : Statement (.push h r) := fun w e => by cases e; rw [opOf_joinWord]; decide
theorem qfence (h : Pfx) (r : FmtE) : Statement (.qfence h r) := fun w e => by cases e; rw [opOf_joinWord]; decide
theorem sysc (h : Pfx) (r : FmtE) : Statement (.sysc h r) := fun w e => by cases e; rw [opOf_joinWord]; decide
theorem movpr (h : Pfx) (r : FmtR) : Statement (.movpr h r) := fun w e => by cases e; rw [opOf_joinWord]; decide
theorem movrp (h : Pfx) (r : FmtR) : Statement (.movrp h r) := fun w e => by cases e; rw [opOf_joinWord]; decide
theorem tlbiAsid (h : Pfx) (r : FmtE) : Statement (.tlbiAsid h r) := fun w e => by cases e; rw [opOf_joinWord]; decide
theorem tlbiVm (h : Pfx) (r : FmtE) : Statement (.tlbiVm h r) := fun w e => by cases e; rw [opOf_joinWord]; decide
theorem tlbiS2 (h : Pfx) (r : FmtE) : Statement (.tlbiS2 h r) := fun w e => by cases e; rw [opOf_joinWord]; decide
theorem tlbiAll (h : Pfx) (r : FmtE) : Statement (.tlbiAll h r) := fun w e => by cases e; rw [opOf_joinWord]; decide
theorem tlbir (h : Pfx) (r : FmtE) : Statement (.tlbir h r) := fun w e => by cases e; rw [opOf_joinWord]; decide
theorem tlbirS2 (h : Pfx) (r : FmtE) : Statement (.tlbirS2 h r) := fun w e => by cases e; rw [opOf_joinWord]; decide
theorem atp (h : Pfx) (r : FmtE) : Statement (.atp h r) := fun w e => by cases e; rw [opOf_joinWord]; decide
theorem lcinv (h : Pfx) (r : FmtE) : Statement (.lcinv h r) := fun w e => by cases e; rw [opOf_joinWord]; decide
theorem lcinvAll (h : Pfx) (r : FmtE) : Statement (.lcinvAll h r) := fun w e => by cases e; rw [opOf_joinWord]; decide
theorem notifyw (h : Pfx) (r : FmtE) : Statement (.notifyw h r) := fun w e => by cases e; rw [opOf_joinWord]; decide
theorem halt (h : Pfx) (r : FmtE) : Statement (.halt h r) := fun w e => by cases e; rw [opOf_joinWord]; decide
theorem ecciCorr (h : Pfx) (r : FmtE) : Statement (.ecciCorr h r) := fun w e => by cases e; rw [opOf_joinWord]; decide
theorem ecciUnc (h : Pfx) (r : FmtE) : Statement (.ecciUnc h r) := fun w e => by cases e; rw [opOf_joinWord]; decide
theorem xpin (d a b : BitVec 5) : Statement (.xpin d a b) := fun w e => by cases e
theorem xunpin (d a b : BitVec 5) : Statement (.xunpin d a b) := fun w e => by cases e
theorem xhint (d a b : BitVec 5) : Statement (.xhint d a b) := fun w e => by cases e
theorem xtierqLo (d a : BitVec 5) : Statement (.xtierqLo d a) := fun w e => by cases e
theorem xtierqHi (d a : BitVec 5) : Statement (.xtierqHi d a) := fun w e => by cases e
theorem xwaitvaW (d a b : BitVec 5) : Statement (.xwaitvaW d a b) := fun w e => by cases e
theorem xwaitvaD (d a b : BitVec 5) : Statement (.xwaitvaD d a b) := fun w e => by cases e
theorem xwakeva (d a b : BitVec 5) : Statement (.xwakeva d a b) := fun w e => by cases e
theorem sfenceVma (a b : BitVec 5) : Statement (.sfenceVma a b) := fun w e => by cases e
theorem hfenceVvma (a b : BitVec 5) : Statement (.hfenceVvma a b) := fun w e => by cases e
theorem hfenceGvma (a b : BitVec 5) : Statement (.hfenceGvma a b) := fun w e => by cases e
theorem fqreplay (w : Writer) (v : BitVec 64) : Statement (.fqreplay w v) := fun w e => by cases e
theorem fqreplayh (w : Writer) (v : BitVec 64) : Statement (.fqreplayh w v) := fun w e => by cases e
theorem qwrWrite (w : Writer) (q : Nat) (v : BitVec 64) : Statement (.qwrWrite w q v) := fun w e => by cases e
theorem qcfgWrite (w : Writer) (q : Nat) (v : BitVec 64) : Statement (.qcfgWrite w q v) := fun w e => by cases e
theorem hintbudWrite (w : Writer) (ctx : Nat) (v : BitVec 64) : Statement (.hintbudWrite w ctx v) := fun w e => by cases e
theorem wwend (w : Writer) (v : BitVec 64) : Statement (.wwend w v) := fun w e => by cases e
theorem registerWrite (w : Writer) (ofs : Nat) (v : BitVec 64) : Statement (.registerWrite w ofs v) := fun w e => by cases e
theorem trapactResume (w : Writer) (id : BitVec 32) : Statement (.trapactResume w id) := fun w e => by cases e
theorem trapactSkip (w : Writer) (id : BitVec 32) : Statement (.trapactSkip w id) := fun w e => by cases e
theorem trapactEnd (w : Writer) (id : BitVec 32) : Statement (.trapactEnd w id) := fun w e => by cases e
theorem endctx (w : Writer) (ctx : Nat) : Statement (.endctx w ctx) := fun w e => by cases e
theorem preemptSave (w : Writer) (ctx : Nat) : Statement (.preemptSave w ctx) := fun w e => by cases e
theorem preemptRestore (w : Writer) (ctx : Nat) : Statement (.preemptRestore w ctx) := fun w e => by cases e
theorem pooltake (w : Writer) (v : BitVec 64) : Statement (.pooltake w v) := fun w e => by cases e
theorem partctlMerge (w : Writer) (v : BitVec 64) : Statement (.partctlMerge w v) := fun w e => by cases e
theorem partctlSplit (w : Writer) (v : BitVec 64) : Statement (.partctlSplit w v) := fun w e => by cases e
theorem iprofWrite (w : Writer) (n i : Nat) (v : BitVec 64) : Statement (.iprofWrite w n i v) := fun w e => by cases e
theorem ctxqosWrite (w : Writer) (ctx : Nat) (v : BitVec 64) : Statement (.ctxqosWrite w ctx v) := fun w e => by cases e
theorem l2bktWrite (w : Writer) (n : Nat) (v : BitVec 64) : Statement (.l2bktWrite w n v) := fun w e => by cases e
theorem portWrite (w : Writer) (n : Nat) (v : BitVec 64) : Statement (.portWrite w n v) := fun w e => by cases e
theorem fwctlSwitch (w : Writer) (v : BitVec 64) : Statement (.fwctlSwitch w v) := fun w e => by cases e
theorem schedulerPick (core sched : Nat) : Statement (.schedulerPick core sched) := fun w e => by cases e
theorem accessCompletion (op : Nat) : Statement (.accessCompletion op) := fun w e => by cases e
theorem walk (op part : Nat) : Statement (.walk op part) := fun w e => by cases e
theorem queueRecheck (q : RecQueue) : Statement (.queueRecheck q) := fun w e => by cases e
theorem homeRequest (op part : Nat) : Statement (.homeRequest op part) := fun w e => by cases e
theorem updateBufferTimeout (core : Nat) : Statement (.updateBufferTimeout core) := fun w e => by cases e
theorem updateApply (upd : Nat) : Statement (.updateApply upd) := fun w e => by cases e
theorem engineCommandStart (cmd : Nat) : Statement (.engineCommandStart cmd) := fun w e => by cases e
theorem mmaEngineExit (core : Nat) : Statement (.mmaEngineExit core) := fun w e => by cases e
theorem engineCommandComplete (cmd : Nat) : Statement (.engineCommandComplete cmd) := fun w e => by cases e
theorem copyBurst (cmd burst : Nat) : Statement (.copyBurst cmd burst) := fun w e => by cases e
theorem burstRequest (cmd : Nat) : Statement (.burstRequest cmd) := fun w e => by cases e
theorem burstLanding (cmd burst : Nat) : Statement (.burstLanding cmd burst) := fun w e => by cases e
theorem ladleBirth (core slot : Nat) : Statement (.ladleBirth core slot) := fun w e => by cases e
theorem ladleEnd (core slot : Nat) : Statement (.ladleEnd core slot) := fun w e => by cases e
theorem finaleBirth (cmd slot : Nat) : Statement (.finaleBirth cmd slot) := fun w e => by cases e
theorem cohortRetire (agent : Nat) : Statement (.cohortRetire agent) := fun w e => by cases e
theorem blockRetire (block : Nat) : Statement (.blockRetire block) := fun w e => by cases e
theorem dispatchPlacement : Statement .dispatchPlacement := fun w e => by cases e
theorem hubThreadWake (t : Nat) : Statement (.hubThreadWake t) := fun w e => by cases e
theorem packetAccept (q : Nat) : Statement (.packetAccept q) := fun w e => by cases e
theorem packetStart (q : Nat) : Statement (.packetStart q) := fun w e => by cases e
theorem launchPacket (q pos : Nat) : Statement (.launchPacket q pos) := fun w e => by cases e
theorem copyPacket (q pos : Nat) : Statement (.copyPacket q pos) := fun w e => by cases e
theorem dependenceWait (q pos : Nat) : Statement (.dependenceWait q pos) := fun w e => by cases e
theorem dependenceWaitRetest (q pos : Nat) : Statement (.dependenceWaitRetest q pos) := fun w e => by cases e
theorem signal (q pos : Nat) : Statement (.signal q pos) := fun w e => by cases e
theorem migrateRequest (q pos : Nat) : Statement (.migrateRequest q pos) := fun w e => by cases e
theorem serviceCall (call : Nat) : Statement (.serviceCall call) := fun w e => by cases e
theorem serviceReply (q pos : Nat) : Statement (.serviceReply q pos) := fun w e => by cases e
theorem packetComplete (q pos : Nat) : Statement (.packetComplete q pos) := fun w e => by cases e
theorem deferredAppend (core idx : Nat) : Statement (.deferredAppend core idx) := fun w e => by cases e
theorem powerWindow (excess : BitVec 2) : Statement (.powerWindow excess) := fun w e => by cases e
theorem hintRefill (ctx : Nat) : Statement (.hintRefill ctx) := fun w e => by cases e
theorem saveComplete (ctx : Nat) : Statement (.saveComplete ctx) := fun w e => by cases e
theorem restoreComplete (ctx : Nat) : Statement (.restoreComplete ctx) := fun w e => by cases e
theorem flitPayloadError (ctx : Nat) : Statement (.flitPayloadError ctx) := fun w e => by cases e
theorem flitHeaderError (part : Nat) : Statement (.flitHeaderError part) := fun w e => by cases e
theorem moveStart (page : Nat) : Statement (.moveStart page) := fun w e => by cases e
theorem moveLineCopy (page : Nat) : Statement (.moveLineCopy page) := fun w e => by cases e
theorem policyPass (part : Nat) : Statement (.policyPass part) := fun w e => by cases e
theorem locationWriteback (page : Nat) : Statement (.locationWriteback page) := fun w e => by cases e
theorem freeTake (call : Nat) : Statement (.freeTake call) := fun w e => by cases e
theorem freeAdd (call : Nat) : Statement (.freeAdd call) := fun w e => by cases e
theorem attest (call : Nat) : Statement (.attest call) := fun w e => by cases e
theorem extend (call : Nat) : Statement (.extend call) := fun w e => by cases e
theorem keyset (call : Nat) : Statement (.keyset call) := fun w e => by cases e
theorem poolClaim (page : Nat) : Statement (.poolClaim page) := fun w e => by cases e
theorem poolClaimRetry (page : Nat) : Statement (.poolClaimRetry page) := fun w e => by cases e
theorem claimDetect (page : Nat) (pkg : BitVec 5) : Statement (.claimDetect page pkg) := fun w e => by cases e
theorem handoverFreeze (page : Nat) : Statement (.handoverFreeze page) := fun w e => by cases e
theorem handoverRelease (page : Nat) : Statement (.handoverRelease page) := fun w e => by cases e
theorem handoverDetect (page : Nat) : Statement (.handoverDetect page) := fun w e => by cases e
theorem handoverInstall (page : Nat) : Statement (.handoverInstall page) := fun w e => by cases e
theorem partitionQuiesced : Statement .partitionQuiesced := fun w e => by cases e
theorem partitionDeadline : Statement .partitionDeadline := fun w e => by cases e
theorem bucketRefill : Statement .bucketRefill := fun w e => by cases e
theorem linkUp (n : Nat) (speed : BitVec 4) (width : BitVec 5) : Statement (.linkUp n speed width) := fun w e => by cases e
theorem inboundRequest (r : Inbound) : Statement (.inboundRequest r) := fun w e => by cases e
theorem powerOnReset : Statement .powerOnReset := fun w e => by cases e
theorem hubFirmwareBoot (pltcfg pltlim poolown : BitVec 64) : Statement (.hubFirmwareBoot pltcfg pltlim poolown) := fun w e => by cases e
theorem hostMonitorRelease (entry : BitVec 64) : Statement (.hostMonitorRelease entry) := fun w e => by cases e
theorem fwImageChecked : Statement .fwImageChecked := fun w e => by cases e
theorem hubThreadPark (t : Nat) : Statement (.hubThreadPark t) := fun w e => by cases e
theorem fwSwitchTimeout : Statement .fwSwitchTimeout := fun w e => by cases e
theorem recordReplayFeed (q : Nat) : Statement (.recordReplayFeed q) := fun w e => by cases e
theorem hostAccess (h : Nat) (a : HostAcc) : Statement (.hostAccess h a) := fun w e => by cases e
theorem interruptPending (h : Nat) : Statement (.interruptPending h) := fun w e => by cases e
theorem systemInstructionComplete (op : Nat) : Statement (.systemInstructionComplete op) := fun w e => by cases e
theorem backInvalidate (page line : Nat) (w : List (Nat × Byte)) : Statement (.backInvalidate page line w) := fun w e => by cases e
theorem linkDown (n : Nat) : Statement (.linkDown n) := fun w e => by cases e

end Sys2Proof.Laws.NoMark
end

