-- ==== Sys2Proof/Laws/State.lean ====
section
/-! SUPPORT. The fields of State after each named update, so that no proof unfolds a record. -/

namespace Sys2Proof.Machine

variable (s : State)

/-! `putAgent` -/

@[simp] theorem putAgent_agents (a : Nat) (g : Agent) : (putAgent s a g).agents = aset s.agents a g := rfl
@[simp] theorem putAgent_blocks (a : Nat) (g : Agent) : (putAgent s a g).blocks = s.blocks := rfl
@[simp] theorem putAgent_bars (a : Nat) (g : Agent) : (putAgent s a g).bars = s.bars := rfl
@[simp] theorem putAgent_ops (a : Nat) (g : Agent) : (putAgent s a g).ops = s.ops := rfl
@[simp] theorem putAgent_cmds (a : Nat) (g : Agent) : (putAgent s a g).cmds = s.cmds := rfl
@[simp] theorem putAgent_mem (a : Nat) (g : Agent) : (putAgent s a g).mem = s.mem := rfl
@[simp] theorem putAgent_hub (a : Nat) (g : Agent) : (putAgent s a g).hub = s.hub := rfl
@[simp] theorem putAgent_plat (a : Nat) (g : Agent) : (putAgent s a g).plat = s.plat := rfl
@[simp] theorem putAgent_harts (a : Nat) (g : Agent) : (putAgent s a g).harts = s.harts := rfl
@[simp] theorem putAgent_mtime (a : Nat) (g : Agent) : (putAgent s a g).mtime = s.mtime := rfl
@[simp] theorem putAgent_agenda (a : Nat) (g : Agent) : (putAgent s a g).agenda = s.agenda := rfl
@[simp] theorem putAgent_turn (a : Nat) (g : Agent) : (putAgent s a g).turn = s.turn := rfl
@[simp] theorem putAgent_cycles (a : Nat) (g : Agent) : (putAgent s a g).cycles = s.cycles := rfl
@[simp] theorem putAgent_fresh (a : Nat) (g : Agent) : (putAgent s a g).fresh = s.fresh := rfl
@[simp] theorem putAgent_nextId (a : Nat) (g : Agent) : (putAgent s a g).nextId = s.nextId := rfl
@[simp] theorem putAgent_rotor (a : Nat) (g : Agent) : (putAgent s a g).rotor = s.rotor := rfl

/-! `putHart` -/

@[simp] theorem putHart_agents (h : Nat) (x : Hart) : (putHart s h x).agents = s.agents := rfl
@[simp] theorem putHart_blocks (h : Nat) (x : Hart) : (putHart s h x).blocks = s.blocks := rfl
@[simp] theorem putHart_bars (h : Nat) (x : Hart) : (putHart s h x).bars = s.bars := rfl
@[simp] theorem putHart_ops (h : Nat) (x : Hart) : (putHart s h x).ops = s.ops := rfl
@[simp] theorem putHart_cmds (h : Nat) (x : Hart) : (putHart s h x).cmds = s.cmds := rfl
@[simp] theorem putHart_mem (h : Nat) (x : Hart) : (putHart s h x).mem = s.mem := rfl
@[simp] theorem putHart_hub (h : Nat) (x : Hart) : (putHart s h x).hub = s.hub := rfl
@[simp] theorem putHart_plat (h : Nat) (x : Hart) : (putHart s h x).plat = s.plat := rfl
@[simp] theorem putHart_harts (h : Nat) (x : Hart) : (putHart s h x).harts = aset s.harts h x := rfl
@[simp] theorem putHart_mtime (h : Nat) (x : Hart) : (putHart s h x).mtime = s.mtime := rfl
@[simp] theorem putHart_agenda (h : Nat) (x : Hart) : (putHart s h x).agenda = s.agenda := rfl
@[simp] theorem putHart_turn (h : Nat) (x : Hart) : (putHart s h x).turn = s.turn := rfl
@[simp] theorem putHart_cycles (h : Nat) (x : Hart) : (putHart s h x).cycles = s.cycles := rfl
@[simp] theorem putHart_fresh (h : Nat) (x : Hart) : (putHart s h x).fresh = s.fresh := rfl
@[simp] theorem putHart_nextId (h : Nat) (x : Hart) : (putHart s h x).nextId = s.nextId := rfl
@[simp] theorem putHart_rotor (h : Nat) (x : Hart) : (putHart s h x).rotor = s.rotor := rfl

/-! `holdWord` -/

@[simp] theorem holdWord_agents : (holdWord s).agents = s.agents := rfl
@[simp] theorem holdWord_blocks : (holdWord s).blocks = s.blocks := rfl
@[simp] theorem holdWord_bars : (holdWord s).bars = s.bars := rfl
@[simp] theorem holdWord_ops : (holdWord s).ops = s.ops := rfl
@[simp] theorem holdWord_cmds : (holdWord s).cmds = s.cmds := rfl
@[simp] theorem holdWord_mem : (holdWord s).mem = s.mem := rfl
@[simp] theorem holdWord_hub : (holdWord s).hub = s.hub := rfl
@[simp] theorem holdWord_plat : (holdWord s).plat = s.plat := rfl
@[simp] theorem holdWord_harts : (holdWord s).harts = s.harts := rfl
@[simp] theorem holdWord_mtime : (holdWord s).mtime = s.mtime := rfl
@[simp] theorem holdWord_agenda : (holdWord s).agenda = s.agenda := rfl
@[simp] theorem holdWord_turn : (holdWord s).turn = .idle := rfl
@[simp] theorem holdWord_cycles : (holdWord s).cycles = s.cycles + 1 := rfl
@[simp] theorem holdWord_fresh : (holdWord s).fresh = s.fresh := rfl
@[simp] theorem holdWord_nextId : (holdWord s).nextId = s.nextId := rfl
@[simp] theorem holdWord_rotor : (holdWord s).rotor = s.rotor := rfl

/-! `putBarrier` -/

@[simp] theorem putBarrier_agents (b : Barrier) : (putBarrier s b).agents = s.agents := rfl
@[simp] theorem putBarrier_blocks (b : Barrier) : (putBarrier s b).blocks = s.blocks := rfl
@[simp] theorem putBarrier_ops (b : Barrier) : (putBarrier s b).ops = s.ops := rfl
@[simp] theorem putBarrier_cmds (b : Barrier) : (putBarrier s b).cmds = s.cmds := rfl
@[simp] theorem putBarrier_mem (b : Barrier) : (putBarrier s b).mem = s.mem := rfl
@[simp] theorem putBarrier_hub (b : Barrier) : (putBarrier s b).hub = s.hub := rfl
@[simp] theorem putBarrier_plat (b : Barrier) : (putBarrier s b).plat = s.plat := rfl
@[simp] theorem putBarrier_harts (b : Barrier) : (putBarrier s b).harts = s.harts := rfl
@[simp] theorem putBarrier_mtime (b : Barrier) : (putBarrier s b).mtime = s.mtime := rfl
@[simp] theorem putBarrier_agenda (b : Barrier) : (putBarrier s b).agenda = s.agenda := rfl
@[simp] theorem putBarrier_turn (b : Barrier) : (putBarrier s b).turn = s.turn := rfl
@[simp] theorem putBarrier_cycles (b : Barrier) : (putBarrier s b).cycles = s.cycles := rfl
@[simp] theorem putBarrier_fresh (b : Barrier) : (putBarrier s b).fresh = s.fresh := rfl
@[simp] theorem putBarrier_nextId (b : Barrier) : (putBarrier s b).nextId = s.nextId := rfl
@[simp] theorem putBarrier_rotor (b : Barrier) : (putBarrier s b).rotor = s.rotor := rfl

/-! `putQueue` -/

@[simp] theorem putQueue_agents (q : Nat) (x : Queue) : (putQueue s q x).agents = s.agents := rfl
@[simp] theorem putQueue_blocks (q : Nat) (x : Queue) : (putQueue s q x).blocks = s.blocks := rfl
@[simp] theorem putQueue_bars (q : Nat) (x : Queue) : (putQueue s q x).bars = s.bars := rfl
@[simp] theorem putQueue_ops (q : Nat) (x : Queue) : (putQueue s q x).ops = s.ops := rfl
@[simp] theorem putQueue_cmds (q : Nat) (x : Queue) : (putQueue s q x).cmds = s.cmds := rfl
@[simp] theorem putQueue_mem (q : Nat) (x : Queue) : (putQueue s q x).mem = s.mem := rfl
@[simp] theorem putQueue_plat (q : Nat) (x : Queue) : (putQueue s q x).plat = s.plat := rfl
@[simp] theorem putQueue_harts (q : Nat) (x : Queue) : (putQueue s q x).harts = s.harts := rfl
@[simp] theorem putQueue_mtime (q : Nat) (x : Queue) : (putQueue s q x).mtime = s.mtime := rfl
@[simp] theorem putQueue_agenda (q : Nat) (x : Queue) : (putQueue s q x).agenda = s.agenda := rfl
@[simp] theorem putQueue_turn (q : Nat) (x : Queue) : (putQueue s q x).turn = s.turn := rfl
@[simp] theorem putQueue_cycles (q : Nat) (x : Queue) : (putQueue s q x).cycles = s.cycles := rfl
@[simp] theorem putQueue_fresh (q : Nat) (x : Queue) : (putQueue s q x).fresh = s.fresh := rfl
@[simp] theorem putQueue_nextId (q : Nat) (x : Queue) : (putQueue s q x).nextId = s.nextId := rfl
@[simp] theorem putQueue_rotor (q : Nat) (x : Queue) : (putQueue s q x).rotor = s.rotor := rfl
@[simp] theorem putQueue_hub_ctxs (q : Nat) (x : Queue) : (putQueue s q x).hub.ctxs = s.hub.ctxs := rfl
@[simp] theorem putQueue_hub_faultqh (q : Nat) (x : Queue) : (putQueue s q x).hub.faultqh = s.hub.faultqh := rfl
@[simp] theorem putQueue_hub_fwver (q : Nat) (x : Queue) : (putQueue s q x).hub.fwver = s.hub.fwver := rfl
@[simp] theorem putQueue_hub_queues (q : Nat) (x : Queue) : (putQueue s q x).hub.queues = aset s.hub.queues q x := rfl
@[simp] theorem putQueue_hub_packets (q : Nat) (x : Queue) : (putQueue s q x).hub.packets = s.hub.packets := rfl
@[simp] theorem putQueue_hub_launches (q : Nat) (x : Queue) : (putQueue s q x).hub.launches = s.hub.launches := rfl
@[simp] theorem putQueue_hub_defers (q : Nat) (x : Queue) : (putQueue s q x).hub.defers = s.hub.defers := rfl
@[simp] theorem putQueue_hub_calls (q : Nat) (x : Queue) : (putQueue s q x).hub.calls = s.hub.calls := rfl
@[simp] theorem putQueue_hub_waiters (q : Nat) (x : Queue) : (putQueue s q x).hub.waiters = s.hub.waiters := rfl
@[simp] theorem putQueue_hub_groups (q : Nat) (x : Queue) : (putQueue s q x).hub.groups = s.hub.groups := rfl
@[simp] theorem putQueue_hub_traps (q : Nat) (x : Queue) : (putQueue s q x).hub.traps = s.hub.traps := rfl
@[simp] theorem putQueue_hub_recs (q : Nat) (x : Queue) : (putQueue s q x).hub.recs = s.hub.recs := rfl
@[simp] theorem putQueue_hub_saved (q : Nat) (x : Queue) : (putQueue s q x).hub.saved = s.hub.saved := rfl
@[simp] theorem putQueue_hub_preempts (q : Nat) (x : Queue) : (putQueue s q x).hub.preempts = s.hub.preempts := rfl
@[simp] theorem putQueue_hub_preemptSig (q : Nat) (x : Queue) : (putQueue s q x).hub.preemptSig = s.hub.preemptSig := rfl
@[simp] theorem putQueue_hub_partSig (q : Nat) (x : Queue) : (putQueue s q x).hub.partSig = s.hub.partSig := rfl
@[simp] theorem putQueue_hub_partCfg (q : Nat) (x : Queue) : (putQueue s q x).hub.partCfg = s.hub.partCfg := rfl
@[simp] theorem putQueue_hub_cut (q : Nat) (x : Queue) : (putQueue s q x).hub.cut = s.hub.cut := rfl
@[simp] theorem putQueue_hub_profiles (q : Nat) (x : Queue) : (putQueue s q x).hub.profiles = s.hub.profiles := rfl
@[simp] theorem putQueue_hub_buckets (q : Nat) (x : Queue) : (putQueue s q x).hub.buckets = s.hub.buckets := rfl
@[simp] theorem putQueue_hub_hartClass (q : Nat) (x : Queue) : (putQueue s q x).hub.hartClass = s.hub.hartClass := rfl
@[simp] theorem putQueue_hub_pcap (q : Nat) (x : Queue) : (putQueue s q x).hub.pcap = s.hub.pcap := rfl
@[simp] theorem putQueue_hub_penergy (q : Nat) (x : Queue) : (putQueue s q x).hub.penergy = s.hub.penergy := rfl
@[simp] theorem putQueue_hub_grantA (q : Nat) (x : Queue) : (putQueue s q x).hub.grantA = s.hub.grantA := rfl
@[simp] theorem putQueue_hub_rot (q : Nat) (x : Queue) : (putQueue s q x).hub.rot = s.hub.rot := rfl
@[simp] theorem putQueue_hub_credits (q : Nat) (x : Queue) : (putQueue s q x).hub.credits = s.hub.credits := rfl
@[simp] theorem putQueue_hub_hubCredit (q : Nat) (x : Queue) : (putQueue s q x).hub.hubCredit = s.hub.hubCredit := rfl
@[simp] theorem putQueue_hub_kept (q : Nat) (x : Queue) : (putQueue s q x).hub.kept = s.hub.kept := rfl

/-! `putCtx` -/

@[simp] theorem putCtx_agents (c : Nat) (x : Ctx) : (putCtx s c x).agents = s.agents := rfl
@[simp] theorem putCtx_blocks (c : Nat) (x : Ctx) : (putCtx s c x).blocks = s.blocks := rfl
@[simp] theorem putCtx_bars (c : Nat) (x : Ctx) : (putCtx s c x).bars = s.bars := rfl
@[simp] theorem putCtx_ops (c : Nat) (x : Ctx) : (putCtx s c x).ops = s.ops := rfl
@[simp] theorem putCtx_cmds (c : Nat) (x : Ctx) : (putCtx s c x).cmds = s.cmds := rfl
@[simp] theorem putCtx_mem (c : Nat) (x : Ctx) : (putCtx s c x).mem = s.mem := rfl
@[simp] theorem putCtx_plat (c : Nat) (x : Ctx) : (putCtx s c x).plat = s.plat := rfl
@[simp] theorem putCtx_harts (c : Nat) (x : Ctx) : (putCtx s c x).harts = s.harts := rfl
@[simp] theorem putCtx_mtime (c : Nat) (x : Ctx) : (putCtx s c x).mtime = s.mtime := rfl
@[simp] theorem putCtx_agenda (c : Nat) (x : Ctx) : (putCtx s c x).agenda = s.agenda := rfl
@[simp] theorem putCtx_turn (c : Nat) (x : Ctx) : (putCtx s c x).turn = s.turn := rfl
@[simp] theorem putCtx_cycles (c : Nat) (x : Ctx) : (putCtx s c x).cycles = s.cycles := rfl
@[simp] theorem putCtx_fresh (c : Nat) (x : Ctx) : (putCtx s c x).fresh = s.fresh := rfl
@[simp] theorem putCtx_nextId (c : Nat) (x : Ctx) : (putCtx s c x).nextId = s.nextId := rfl
@[simp] theorem putCtx_rotor (c : Nat) (x : Ctx) : (putCtx s c x).rotor = s.rotor := rfl
@[simp] theorem putCtx_hub_ctxs (c : Nat) (x : Ctx) : (putCtx s c x).hub.ctxs = aset s.hub.ctxs c x := rfl
@[simp] theorem putCtx_hub_faultqh (c : Nat) (x : Ctx) : (putCtx s c x).hub.faultqh = s.hub.faultqh := rfl
@[simp] theorem putCtx_hub_fwver (c : Nat) (x : Ctx) : (putCtx s c x).hub.fwver = s.hub.fwver := rfl
@[simp] theorem putCtx_hub_queues (c : Nat) (x : Ctx) : (putCtx s c x).hub.queues = s.hub.queues := rfl
@[simp] theorem putCtx_hub_packets (c : Nat) (x : Ctx) : (putCtx s c x).hub.packets = s.hub.packets := rfl
@[simp] theorem putCtx_hub_launches (c : Nat) (x : Ctx) : (putCtx s c x).hub.launches = s.hub.launches := rfl
@[simp] theorem putCtx_hub_defers (c : Nat) (x : Ctx) : (putCtx s c x).hub.defers = s.hub.defers := rfl
@[simp] theorem putCtx_hub_calls (c : Nat) (x : Ctx) : (putCtx s c x).hub.calls = s.hub.calls := rfl
@[simp] theorem putCtx_hub_waiters (c : Nat) (x : Ctx) : (putCtx s c x).hub.waiters = s.hub.waiters := rfl
@[simp] theorem putCtx_hub_groups (c : Nat) (x : Ctx) : (putCtx s c x).hub.groups = s.hub.groups := rfl
@[simp] theorem putCtx_hub_traps (c : Nat) (x : Ctx) : (putCtx s c x).hub.traps = s.hub.traps := rfl
@[simp] theorem putCtx_hub_recs (c : Nat) (x : Ctx) : (putCtx s c x).hub.recs = s.hub.recs := rfl
@[simp] theorem putCtx_hub_saved (c : Nat) (x : Ctx) : (putCtx s c x).hub.saved = s.hub.saved := rfl
@[simp] theorem putCtx_hub_preempts (c : Nat) (x : Ctx) : (putCtx s c x).hub.preempts = s.hub.preempts := rfl
@[simp] theorem putCtx_hub_preemptSig (c : Nat) (x : Ctx) : (putCtx s c x).hub.preemptSig = s.hub.preemptSig := rfl
@[simp] theorem putCtx_hub_partSig (c : Nat) (x : Ctx) : (putCtx s c x).hub.partSig = s.hub.partSig := rfl
@[simp] theorem putCtx_hub_partCfg (c : Nat) (x : Ctx) : (putCtx s c x).hub.partCfg = s.hub.partCfg := rfl
@[simp] theorem putCtx_hub_cut (c : Nat) (x : Ctx) : (putCtx s c x).hub.cut = s.hub.cut := rfl
@[simp] theorem putCtx_hub_profiles (c : Nat) (x : Ctx) : (putCtx s c x).hub.profiles = s.hub.profiles := rfl
@[simp] theorem putCtx_hub_buckets (c : Nat) (x : Ctx) : (putCtx s c x).hub.buckets = s.hub.buckets := rfl
@[simp] theorem putCtx_hub_hartClass (c : Nat) (x : Ctx) : (putCtx s c x).hub.hartClass = s.hub.hartClass := rfl
@[simp] theorem putCtx_hub_pcap (c : Nat) (x : Ctx) : (putCtx s c x).hub.pcap = s.hub.pcap := rfl
@[simp] theorem putCtx_hub_penergy (c : Nat) (x : Ctx) : (putCtx s c x).hub.penergy = s.hub.penergy := rfl
@[simp] theorem putCtx_hub_grantA (c : Nat) (x : Ctx) : (putCtx s c x).hub.grantA = s.hub.grantA := rfl
@[simp] theorem putCtx_hub_rot (c : Nat) (x : Ctx) : (putCtx s c x).hub.rot = s.hub.rot := rfl
@[simp] theorem putCtx_hub_credits (c : Nat) (x : Ctx) : (putCtx s c x).hub.credits = s.hub.credits := rfl
@[simp] theorem putCtx_hub_hubCredit (c : Nat) (x : Ctx) : (putCtx s c x).hub.hubCredit = s.hub.hubCredit := rfl
@[simp] theorem putCtx_hub_kept (c : Nat) (x : Ctx) : (putCtx s c x).hub.kept = s.hub.kept := rfl

/-! `modPkt` -/

@[simp] theorem modPkt_agents (q : Nat) (pos : BitVec 32) (f : Packet → Packet) : (modPkt s q pos f).agents = s.agents := rfl
@[simp] theorem modPkt_blocks (q : Nat) (pos : BitVec 32) (f : Packet → Packet) : (modPkt s q pos f).blocks = s.blocks := rfl
@[simp] theorem modPkt_bars (q : Nat) (pos : BitVec 32) (f : Packet → Packet) : (modPkt s q pos f).bars = s.bars := rfl
@[simp] theorem modPkt_ops (q : Nat) (pos : BitVec 32) (f : Packet → Packet) : (modPkt s q pos f).ops = s.ops := rfl
@[simp] theorem modPkt_cmds (q : Nat) (pos : BitVec 32) (f : Packet → Packet) : (modPkt s q pos f).cmds = s.cmds := rfl
@[simp] theorem modPkt_mem (q : Nat) (pos : BitVec 32) (f : Packet → Packet) : (modPkt s q pos f).mem = s.mem := rfl
@[simp] theorem modPkt_plat (q : Nat) (pos : BitVec 32) (f : Packet → Packet) : (modPkt s q pos f).plat = s.plat := rfl
@[simp] theorem modPkt_harts (q : Nat) (pos : BitVec 32) (f : Packet → Packet) : (modPkt s q pos f).harts = s.harts := rfl
@[simp] theorem modPkt_mtime (q : Nat) (pos : BitVec 32) (f : Packet → Packet) : (modPkt s q pos f).mtime = s.mtime := rfl
@[simp] theorem modPkt_agenda (q : Nat) (pos : BitVec 32) (f : Packet → Packet) : (modPkt s q pos f).agenda = s.agenda := rfl
@[simp] theorem modPkt_turn (q : Nat) (pos : BitVec 32) (f : Packet → Packet) : (modPkt s q pos f).turn = s.turn := rfl
@[simp] theorem modPkt_cycles (q : Nat) (pos : BitVec 32) (f : Packet → Packet) : (modPkt s q pos f).cycles = s.cycles := rfl
@[simp] theorem modPkt_fresh (q : Nat) (pos : BitVec 32) (f : Packet → Packet) : (modPkt s q pos f).fresh = s.fresh := rfl
@[simp] theorem modPkt_nextId (q : Nat) (pos : BitVec 32) (f : Packet → Packet) : (modPkt s q pos f).nextId = s.nextId := rfl
@[simp] theorem modPkt_rotor (q : Nat) (pos : BitVec 32) (f : Packet → Packet) : (modPkt s q pos f).rotor = s.rotor := rfl
@[simp] theorem modPkt_hub_ctxs (q : Nat) (pos : BitVec 32) (f : Packet → Packet) : (modPkt s q pos f).hub.ctxs = s.hub.ctxs := rfl
@[simp] theorem modPkt_hub_faultqh (q : Nat) (pos : BitVec 32) (f : Packet → Packet) : (modPkt s q pos f).hub.faultqh = s.hub.faultqh := rfl
@[simp] theorem modPkt_hub_fwver (q : Nat) (pos : BitVec 32) (f : Packet → Packet) : (modPkt s q pos f).hub.fwver = s.hub.fwver := rfl
@[simp] theorem modPkt_hub_queues (q : Nat) (pos : BitVec 32) (f : Packet → Packet) : (modPkt s q pos f).hub.queues = s.hub.queues := rfl
@[simp] theorem modPkt_hub_launches (q : Nat) (pos : BitVec 32) (f : Packet → Packet) : (modPkt s q pos f).hub.launches = s.hub.launches := rfl
@[simp] theorem modPkt_hub_defers (q : Nat) (pos : BitVec 32) (f : Packet → Packet) : (modPkt s q pos f).hub.defers = s.hub.defers := rfl
@[simp] theorem modPkt_hub_calls (q : Nat) (pos : BitVec 32) (f : Packet → Packet) : (modPkt s q pos f).hub.calls = s.hub.calls := rfl
@[simp] theorem modPkt_hub_waiters (q : Nat) (pos : BitVec 32) (f : Packet → Packet) : (modPkt s q pos f).hub.waiters = s.hub.waiters := rfl
@[simp] theorem modPkt_hub_groups (q : Nat) (pos : BitVec 32) (f : Packet → Packet) : (modPkt s q pos f).hub.groups = s.hub.groups := rfl
@[simp] theorem modPkt_hub_traps (q : Nat) (pos : BitVec 32) (f : Packet → Packet) : (modPkt s q pos f).hub.traps = s.hub.traps := rfl
@[simp] theorem modPkt_hub_recs (q : Nat) (pos : BitVec 32) (f : Packet → Packet) : (modPkt s q pos f).hub.recs = s.hub.recs := rfl
@[simp] theorem modPkt_hub_saved (q : Nat) (pos : BitVec 32) (f : Packet → Packet) : (modPkt s q pos f).hub.saved = s.hub.saved := rfl
@[simp] theorem modPkt_hub_preempts (q : Nat) (pos : BitVec 32) (f : Packet → Packet) : (modPkt s q pos f).hub.preempts = s.hub.preempts := rfl
@[simp] theorem modPkt_hub_preemptSig (q : Nat) (pos : BitVec 32) (f : Packet → Packet) : (modPkt s q pos f).hub.preemptSig = s.hub.preemptSig := rfl
@[simp] theorem modPkt_hub_partSig (q : Nat) (pos : BitVec 32) (f : Packet → Packet) : (modPkt s q pos f).hub.partSig = s.hub.partSig := rfl
@[simp] theorem modPkt_hub_partCfg (q : Nat) (pos : BitVec 32) (f : Packet → Packet) : (modPkt s q pos f).hub.partCfg = s.hub.partCfg := rfl
@[simp] theorem modPkt_hub_cut (q : Nat) (pos : BitVec 32) (f : Packet → Packet) : (modPkt s q pos f).hub.cut = s.hub.cut := rfl
@[simp] theorem modPkt_hub_profiles (q : Nat) (pos : BitVec 32) (f : Packet → Packet) : (modPkt s q pos f).hub.profiles = s.hub.profiles := rfl
@[simp] theorem modPkt_hub_buckets (q : Nat) (pos : BitVec 32) (f : Packet → Packet) : (modPkt s q pos f).hub.buckets = s.hub.buckets := rfl
@[simp] theorem modPkt_hub_hartClass (q : Nat) (pos : BitVec 32) (f : Packet → Packet) : (modPkt s q pos f).hub.hartClass = s.hub.hartClass := rfl
@[simp] theorem modPkt_hub_pcap (q : Nat) (pos : BitVec 32) (f : Packet → Packet) : (modPkt s q pos f).hub.pcap = s.hub.pcap := rfl
@[simp] theorem modPkt_hub_penergy (q : Nat) (pos : BitVec 32) (f : Packet → Packet) : (modPkt s q pos f).hub.penergy = s.hub.penergy := rfl
@[simp] theorem modPkt_hub_grantA (q : Nat) (pos : BitVec 32) (f : Packet → Packet) : (modPkt s q pos f).hub.grantA = s.hub.grantA := rfl
@[simp] theorem modPkt_hub_rot (q : Nat) (pos : BitVec 32) (f : Packet → Packet) : (modPkt s q pos f).hub.rot = s.hub.rot := rfl
@[simp] theorem modPkt_hub_credits (q : Nat) (pos : BitVec 32) (f : Packet → Packet) : (modPkt s q pos f).hub.credits = s.hub.credits := rfl
@[simp] theorem modPkt_hub_hubCredit (q : Nat) (pos : BitVec 32) (f : Packet → Packet) : (modPkt s q pos f).hub.hubCredit = s.hub.hubCredit := rfl
@[simp] theorem modPkt_hub_kept (q : Nat) (pos : BitVec 32) (f : Packet → Packet) : (modPkt s q pos f).hub.kept = s.hub.kept := rfl

/-! `modGroup` -/

@[simp] theorem modGroup_agents (id : Nat) (f : FaultGroup → FaultGroup) : (modGroup s id f).agents = s.agents := rfl
@[simp] theorem modGroup_blocks (id : Nat) (f : FaultGroup → FaultGroup) : (modGroup s id f).blocks = s.blocks := rfl
@[simp] theorem modGroup_bars (id : Nat) (f : FaultGroup → FaultGroup) : (modGroup s id f).bars = s.bars := rfl
@[simp] theorem modGroup_ops (id : Nat) (f : FaultGroup → FaultGroup) : (modGroup s id f).ops = s.ops := rfl
@[simp] theorem modGroup_cmds (id : Nat) (f : FaultGroup → FaultGroup) : (modGroup s id f).cmds = s.cmds := rfl
@[simp] theorem modGroup_mem (id : Nat) (f : FaultGroup → FaultGroup) : (modGroup s id f).mem = s.mem := rfl
@[simp] theorem modGroup_plat (id : Nat) (f : FaultGroup → FaultGroup) : (modGroup s id f).plat = s.plat := rfl
@[simp] theorem modGroup_harts (id : Nat) (f : FaultGroup → FaultGroup) : (modGroup s id f).harts = s.harts := rfl
@[simp] theorem modGroup_mtime (id : Nat) (f : FaultGroup → FaultGroup) : (modGroup s id f).mtime = s.mtime := rfl
@[simp] theorem modGroup_agenda (id : Nat) (f : FaultGroup → FaultGroup) : (modGroup s id f).agenda = s.agenda := rfl
@[simp] theorem modGroup_turn (id : Nat) (f : FaultGroup → FaultGroup) : (modGroup s id f).turn = s.turn := rfl
@[simp] theorem modGroup_cycles (id : Nat) (f : FaultGroup → FaultGroup) : (modGroup s id f).cycles = s.cycles := rfl
@[simp] theorem modGroup_fresh (id : Nat) (f : FaultGroup → FaultGroup) : (modGroup s id f).fresh = s.fresh := rfl
@[simp] theorem modGroup_nextId (id : Nat) (f : FaultGroup → FaultGroup) : (modGroup s id f).nextId = s.nextId := rfl
@[simp] theorem modGroup_rotor (id : Nat) (f : FaultGroup → FaultGroup) : (modGroup s id f).rotor = s.rotor := rfl
@[simp] theorem modGroup_hub_ctxs (id : Nat) (f : FaultGroup → FaultGroup) : (modGroup s id f).hub.ctxs = s.hub.ctxs := rfl
@[simp] theorem modGroup_hub_faultqh (id : Nat) (f : FaultGroup → FaultGroup) : (modGroup s id f).hub.faultqh = s.hub.faultqh := rfl
@[simp] theorem modGroup_hub_fwver (id : Nat) (f : FaultGroup → FaultGroup) : (modGroup s id f).hub.fwver = s.hub.fwver := rfl
@[simp] theorem modGroup_hub_queues (id : Nat) (f : FaultGroup → FaultGroup) : (modGroup s id f).hub.queues = s.hub.queues := rfl
@[simp] theorem modGroup_hub_packets (id : Nat) (f : FaultGroup → FaultGroup) : (modGroup s id f).hub.packets = s.hub.packets := rfl
@[simp] theorem modGroup_hub_launches (id : Nat) (f : FaultGroup → FaultGroup) : (modGroup s id f).hub.launches = s.hub.launches := rfl
@[simp] theorem modGroup_hub_defers (id : Nat) (f : FaultGroup → FaultGroup) : (modGroup s id f).hub.defers = s.hub.defers := rfl
@[simp] theorem modGroup_hub_calls (id : Nat) (f : FaultGroup → FaultGroup) : (modGroup s id f).hub.calls = s.hub.calls := rfl
@[simp] theorem modGroup_hub_waiters (id : Nat) (f : FaultGroup → FaultGroup) : (modGroup s id f).hub.waiters = s.hub.waiters := rfl
@[simp] theorem modGroup_hub_traps (id : Nat) (f : FaultGroup → FaultGroup) : (modGroup s id f).hub.traps = s.hub.traps := rfl
@[simp] theorem modGroup_hub_recs (id : Nat) (f : FaultGroup → FaultGroup) : (modGroup s id f).hub.recs = s.hub.recs := rfl
@[simp] theorem modGroup_hub_saved (id : Nat) (f : FaultGroup → FaultGroup) : (modGroup s id f).hub.saved = s.hub.saved := rfl
@[simp] theorem modGroup_hub_preempts (id : Nat) (f : FaultGroup → FaultGroup) : (modGroup s id f).hub.preempts = s.hub.preempts := rfl
@[simp] theorem modGroup_hub_preemptSig (id : Nat) (f : FaultGroup → FaultGroup) : (modGroup s id f).hub.preemptSig = s.hub.preemptSig := rfl
@[simp] theorem modGroup_hub_partSig (id : Nat) (f : FaultGroup → FaultGroup) : (modGroup s id f).hub.partSig = s.hub.partSig := rfl
@[simp] theorem modGroup_hub_partCfg (id : Nat) (f : FaultGroup → FaultGroup) : (modGroup s id f).hub.partCfg = s.hub.partCfg := rfl
@[simp] theorem modGroup_hub_cut (id : Nat) (f : FaultGroup → FaultGroup) : (modGroup s id f).hub.cut = s.hub.cut := rfl
@[simp] theorem modGroup_hub_profiles (id : Nat) (f : FaultGroup → FaultGroup) : (modGroup s id f).hub.profiles = s.hub.profiles := rfl
@[simp] theorem modGroup_hub_buckets (id : Nat) (f : FaultGroup → FaultGroup) : (modGroup s id f).hub.buckets = s.hub.buckets := rfl
@[simp] theorem modGroup_hub_hartClass (id : Nat) (f : FaultGroup → FaultGroup) : (modGroup s id f).hub.hartClass = s.hub.hartClass := rfl
@[simp] theorem modGroup_hub_pcap (id : Nat) (f : FaultGroup → FaultGroup) : (modGroup s id f).hub.pcap = s.hub.pcap := rfl
@[simp] theorem modGroup_hub_penergy (id : Nat) (f : FaultGroup → FaultGroup) : (modGroup s id f).hub.penergy = s.hub.penergy := rfl
@[simp] theorem modGroup_hub_grantA (id : Nat) (f : FaultGroup → FaultGroup) : (modGroup s id f).hub.grantA = s.hub.grantA := rfl
@[simp] theorem modGroup_hub_rot (id : Nat) (f : FaultGroup → FaultGroup) : (modGroup s id f).hub.rot = s.hub.rot := rfl
@[simp] theorem modGroup_hub_credits (id : Nat) (f : FaultGroup → FaultGroup) : (modGroup s id f).hub.credits = s.hub.credits := rfl
@[simp] theorem modGroup_hub_hubCredit (id : Nat) (f : FaultGroup → FaultGroup) : (modGroup s id f).hub.hubCredit = s.hub.hubCredit := rfl
@[simp] theorem modGroup_hub_kept (id : Nat) (f : FaultGroup → FaultGroup) : (modGroup s id f).hub.kept = s.hub.kept := rfl

/-! `rawWrite` -/

@[simp] theorem rawWrite_agents (l : Nat) (b : Byte) : (rawWrite s l b).agents = s.agents := rfl
@[simp] theorem rawWrite_blocks (l : Nat) (b : Byte) : (rawWrite s l b).blocks = s.blocks := rfl
@[simp] theorem rawWrite_bars (l : Nat) (b : Byte) : (rawWrite s l b).bars = s.bars := rfl
@[simp] theorem rawWrite_ops (l : Nat) (b : Byte) : (rawWrite s l b).ops = s.ops := rfl
@[simp] theorem rawWrite_cmds (l : Nat) (b : Byte) : (rawWrite s l b).cmds = s.cmds := rfl
@[simp] theorem rawWrite_hub (l : Nat) (b : Byte) : (rawWrite s l b).hub = s.hub := rfl
@[simp] theorem rawWrite_plat (l : Nat) (b : Byte) : (rawWrite s l b).plat = s.plat := rfl
@[simp] theorem rawWrite_harts (l : Nat) (b : Byte) : (rawWrite s l b).harts = s.harts := rfl
@[simp] theorem rawWrite_mtime (l : Nat) (b : Byte) : (rawWrite s l b).mtime = s.mtime := rfl
@[simp] theorem rawWrite_agenda (l : Nat) (b : Byte) : (rawWrite s l b).agenda = s.agenda := rfl
@[simp] theorem rawWrite_turn (l : Nat) (b : Byte) : (rawWrite s l b).turn = s.turn := rfl
@[simp] theorem rawWrite_cycles (l : Nat) (b : Byte) : (rawWrite s l b).cycles = s.cycles := rfl
@[simp] theorem rawWrite_fresh (l : Nat) (b : Byte) : (rawWrite s l b).fresh = s.fresh := rfl
@[simp] theorem rawWrite_nextId (l : Nat) (b : Byte) : (rawWrite s l b).nextId = s.nextId := rfl
@[simp] theorem rawWrite_rotor (l : Nat) (b : Byte) : (rawWrite s l b).rotor = s.rotor := rfl
@[simp] theorem rawWrite_mem_cells (l : Nat) (b : Byte) : (rawWrite s l b).mem.cells = sset s.mem.cells l (b ^^^ unlisted s.plat l) := rfl
@[simp] theorem rawWrite_mem_poison (l : Nat) (b : Byte) : (rawWrite s l b).mem.poison = s.mem.poison := rfl
@[simp] theorem rawWrite_mem_inject (l : Nat) (b : Byte) : (rawWrite s l b).mem.inject = s.mem.inject := rfl
@[simp] theorem rawWrite_mem_errs (l : Nat) (b : Byte) : (rawWrite s l b).mem.errs = s.mem.errs := rfl
@[simp] theorem rawWrite_mem_lineKeys (l : Nat) (b : Byte) : (rawWrite s l b).mem.lineKeys = s.mem.lineKeys := rfl
@[simp] theorem rawWrite_mem_sw (l : Nat) (b : Byte) : (rawWrite s l b).mem.sw = s.mem.sw := rfl
@[simp] theorem rawWrite_mem_dir (l : Nat) (b : Byte) : (rawWrite s l b).mem.dir = s.mem.dir := rfl
@[simp] theorem rawWrite_mem_pages (l : Nat) (b : Byte) : (rawWrite s l b).mem.pages = s.mem.pages := rfl
@[simp] theorem rawWrite_mem_loc (l : Nat) (b : Byte) : (rawWrite s l b).mem.loc = s.mem.loc := rfl
@[simp] theorem rawWrite_mem_forwards (l : Nat) (b : Byte) : (rawWrite s l b).mem.forwards = s.mem.forwards := rfl
@[simp] theorem rawWrite_mem_free (l : Nat) (b : Byte) : (rawWrite s l b).mem.free = s.mem.free := rfl
@[simp] theorem rawWrite_mem_pins (l : Nat) (b : Byte) : (rawWrite s l b).mem.pins = s.mem.pins := rfl
@[simp] theorem rawWrite_mem_notes (l : Nat) (b : Byte) : (rawWrite s l b).mem.notes = s.mem.notes := rfl
@[simp] theorem rawWrite_mem_hand (l : Nat) (b : Byte) : (rawWrite s l b).mem.hand = s.mem.hand := rfl
@[simp] theorem rawWrite_mem_claims (l : Nat) (b : Byte) : (rawWrite s l b).mem.claims = s.mem.claims := rfl
@[simp] theorem rawWrite_mem_red (l : Nat) (b : Byte) : (rawWrite s l b).mem.red = s.mem.red := rfl
@[simp] theorem rawWrite_mem_upd (l : Nat) (b : Byte) : (rawWrite s l b).mem.upd = s.mem.upd := rfl
@[simp] theorem rawWrite_mem_sent (l : Nat) (b : Byte) : (rawWrite s l b).mem.sent = s.mem.sent := rfl
@[simp] theorem rawWrite_mem_subs (l : Nat) (b : Byte) : (rawWrite s l b).mem.subs = s.mem.subs := rfl
@[simp] theorem rawWrite_mem_tlb (l : Nat) (b : Byte) : (rawWrite s l b).mem.tlb = s.mem.tlb := rfl
@[simp] theorem rawWrite_mem_walk (l : Nat) (b : Byte) : (rawWrite s l b).mem.walk = s.mem.walk := rfl
@[simp] theorem rawWrite_mem_tokens (l : Nat) (b : Byte) : (rawWrite s l b).mem.tokens = s.mem.tokens := rfl
@[simp] theorem rawWrite_mem_reqs (l : Nat) (b : Byte) : (rawWrite s l b).mem.reqs = s.mem.reqs := rfl
@[simp] theorem rawWrite_mem_l1 (l : Nat) (b : Byte) : (rawWrite s l b).mem.l1 = s.mem.l1 := rfl
@[simp] theorem rawWrite_mem_ways (l : Nat) (b : Byte) : (rawWrite s l b).mem.ways = s.mem.ways := rfl
@[simp] theorem rawWrite_mem_code (l : Nat) (b : Byte) : (rawWrite s l b).mem.code = s.mem.code := rfl
@[simp] theorem rawWrite_mem_old (l : Nat) (b : Byte) : (rawWrite s l b).mem.old = s.mem.old := rfl
@[simp] theorem rawWrite_mem_tables (l : Nat) (b : Byte) : (rawWrite s l b).mem.tables = s.mem.tables := rfl

/-! `setPageEntry` -/

@[simp] theorem setPageEntry_agents (page : Nat) (e : BitVec 128) : (setPageEntry s page e).agents = s.agents := rfl
@[simp] theorem setPageEntry_blocks (page : Nat) (e : BitVec 128) : (setPageEntry s page e).blocks = s.blocks := rfl
@[simp] theorem setPageEntry_bars (page : Nat) (e : BitVec 128) : (setPageEntry s page e).bars = s.bars := rfl
@[simp] theorem setPageEntry_ops (page : Nat) (e : BitVec 128) : (setPageEntry s page e).ops = s.ops := rfl
@[simp] theorem setPageEntry_cmds (page : Nat) (e : BitVec 128) : (setPageEntry s page e).cmds = s.cmds := rfl
@[simp] theorem setPageEntry_hub (page : Nat) (e : BitVec 128) : (setPageEntry s page e).hub = s.hub := rfl
@[simp] theorem setPageEntry_plat (page : Nat) (e : BitVec 128) : (setPageEntry s page e).plat = s.plat := rfl
@[simp] theorem setPageEntry_harts (page : Nat) (e : BitVec 128) : (setPageEntry s page e).harts = s.harts := rfl
@[simp] theorem setPageEntry_mtime (page : Nat) (e : BitVec 128) : (setPageEntry s page e).mtime = s.mtime := rfl
@[simp] theorem setPageEntry_agenda (page : Nat) (e : BitVec 128) : (setPageEntry s page e).agenda = s.agenda := rfl
@[simp] theorem setPageEntry_turn (page : Nat) (e : BitVec 128) : (setPageEntry s page e).turn = s.turn := rfl
@[simp] theorem setPageEntry_cycles (page : Nat) (e : BitVec 128) : (setPageEntry s page e).cycles = s.cycles := rfl
@[simp] theorem setPageEntry_fresh (page : Nat) (e : BitVec 128) : (setPageEntry s page e).fresh = s.fresh := rfl
@[simp] theorem setPageEntry_nextId (page : Nat) (e : BitVec 128) : (setPageEntry s page e).nextId = s.nextId := rfl
@[simp] theorem setPageEntry_rotor (page : Nat) (e : BitVec 128) : (setPageEntry s page e).rotor = s.rotor := rfl
@[simp] theorem setPageEntry_mem_cells (page : Nat) (e : BitVec 128) : (setPageEntry s page e).mem.cells = s.mem.cells := rfl
@[simp] theorem setPageEntry_mem_poison (page : Nat) (e : BitVec 128) : (setPageEntry s page e).mem.poison = s.mem.poison := rfl
@[simp] theorem setPageEntry_mem_inject (page : Nat) (e : BitVec 128) : (setPageEntry s page e).mem.inject = s.mem.inject := rfl
@[simp] theorem setPageEntry_mem_errs (page : Nat) (e : BitVec 128) : (setPageEntry s page e).mem.errs = s.mem.errs := rfl
@[simp] theorem setPageEntry_mem_lineKeys (page : Nat) (e : BitVec 128) : (setPageEntry s page e).mem.lineKeys = s.mem.lineKeys := rfl
@[simp] theorem setPageEntry_mem_sw (page : Nat) (e : BitVec 128) : (setPageEntry s page e).mem.sw = s.mem.sw := rfl
@[simp] theorem setPageEntry_mem_dir (page : Nat) (e : BitVec 128) : (setPageEntry s page e).mem.dir = s.mem.dir := rfl
@[simp] theorem setPageEntry_mem_pages (page : Nat) (e : BitVec 128) : (setPageEntry s page e).mem.pages = aset s.mem.pages page e := rfl
@[simp] theorem setPageEntry_mem_loc (page : Nat) (e : BitVec 128) : (setPageEntry s page e).mem.loc = s.mem.loc := rfl
@[simp] theorem setPageEntry_mem_forwards (page : Nat) (e : BitVec 128) : (setPageEntry s page e).mem.forwards = s.mem.forwards := rfl
@[simp] theorem setPageEntry_mem_free (page : Nat) (e : BitVec 128) : (setPageEntry s page e).mem.free = s.mem.free := rfl
@[simp] theorem setPageEntry_mem_pins (page : Nat) (e : BitVec 128) : (setPageEntry s page e).mem.pins = s.mem.pins := rfl
@[simp] theorem setPageEntry_mem_notes (page : Nat) (e : BitVec 128) : (setPageEntry s page e).mem.notes = s.mem.notes := rfl
@[simp] theorem setPageEntry_mem_hand (page : Nat) (e : BitVec 128) : (setPageEntry s page e).mem.hand = s.mem.hand := rfl
@[simp] theorem setPageEntry_mem_claims (page : Nat) (e : BitVec 128) : (setPageEntry s page e).mem.claims = s.mem.claims := rfl
@[simp] theorem setPageEntry_mem_red (page : Nat) (e : BitVec 128) : (setPageEntry s page e).mem.red = s.mem.red := rfl
@[simp] theorem setPageEntry_mem_upd (page : Nat) (e : BitVec 128) : (setPageEntry s page e).mem.upd = s.mem.upd := rfl
@[simp] theorem setPageEntry_mem_sent (page : Nat) (e : BitVec 128) : (setPageEntry s page e).mem.sent = s.mem.sent := rfl
@[simp] theorem setPageEntry_mem_subs (page : Nat) (e : BitVec 128) : (setPageEntry s page e).mem.subs = s.mem.subs := rfl
@[simp] theorem setPageEntry_mem_tlb (page : Nat) (e : BitVec 128) : (setPageEntry s page e).mem.tlb = s.mem.tlb := rfl
@[simp] theorem setPageEntry_mem_walk (page : Nat) (e : BitVec 128) : (setPageEntry s page e).mem.walk = s.mem.walk := rfl
@[simp] theorem setPageEntry_mem_tokens (page : Nat) (e : BitVec 128) : (setPageEntry s page e).mem.tokens = s.mem.tokens := rfl
@[simp] theorem setPageEntry_mem_reqs (page : Nat) (e : BitVec 128) : (setPageEntry s page e).mem.reqs = s.mem.reqs := rfl
@[simp] theorem setPageEntry_mem_l1 (page : Nat) (e : BitVec 128) : (setPageEntry s page e).mem.l1 = s.mem.l1 := rfl
@[simp] theorem setPageEntry_mem_ways (page : Nat) (e : BitVec 128) : (setPageEntry s page e).mem.ways = s.mem.ways := rfl
@[simp] theorem setPageEntry_mem_code (page : Nat) (e : BitVec 128) : (setPageEntry s page e).mem.code = s.mem.code := rfl
@[simp] theorem setPageEntry_mem_old (page : Nat) (e : BitVec 128) : (setPageEntry s page e).mem.old = s.mem.old := rfl
@[simp] theorem setPageEntry_mem_tables (page : Nat) (e : BitVec 128) : (setPageEntry s page e).mem.tables = s.mem.tables := rfl

/-! `swPut` -/

@[simp] theorem swPut_agents (c : SwLine) : (swPut s c).agents = s.agents := rfl
@[simp] theorem swPut_blocks (c : SwLine) : (swPut s c).blocks = s.blocks := rfl
@[simp] theorem swPut_bars (c : SwLine) : (swPut s c).bars = s.bars := rfl
@[simp] theorem swPut_ops (c : SwLine) : (swPut s c).ops = s.ops := rfl
@[simp] theorem swPut_cmds (c : SwLine) : (swPut s c).cmds = s.cmds := rfl
@[simp] theorem swPut_hub (c : SwLine) : (swPut s c).hub = s.hub := rfl
@[simp] theorem swPut_plat (c : SwLine) : (swPut s c).plat = s.plat := rfl
@[simp] theorem swPut_harts (c : SwLine) : (swPut s c).harts = s.harts := rfl
@[simp] theorem swPut_mtime (c : SwLine) : (swPut s c).mtime = s.mtime := rfl
@[simp] theorem swPut_agenda (c : SwLine) : (swPut s c).agenda = s.agenda := rfl
@[simp] theorem swPut_turn (c : SwLine) : (swPut s c).turn = s.turn := rfl
@[simp] theorem swPut_cycles (c : SwLine) : (swPut s c).cycles = s.cycles := rfl
@[simp] theorem swPut_fresh (c : SwLine) : (swPut s c).fresh = s.fresh := rfl
@[simp] theorem swPut_nextId (c : SwLine) : (swPut s c).nextId = s.nextId := rfl
@[simp] theorem swPut_rotor (c : SwLine) : (swPut s c).rotor = s.rotor := rfl
@[simp] theorem swPut_mem_cells (c : SwLine) : (swPut s c).mem.cells = s.mem.cells := rfl
@[simp] theorem swPut_mem_poison (c : SwLine) : (swPut s c).mem.poison = s.mem.poison := rfl
@[simp] theorem swPut_mem_inject (c : SwLine) : (swPut s c).mem.inject = s.mem.inject := rfl
@[simp] theorem swPut_mem_errs (c : SwLine) : (swPut s c).mem.errs = s.mem.errs := rfl
@[simp] theorem swPut_mem_lineKeys (c : SwLine) : (swPut s c).mem.lineKeys = s.mem.lineKeys := rfl
@[simp] theorem swPut_mem_dir (c : SwLine) : (swPut s c).mem.dir = s.mem.dir := rfl
@[simp] theorem swPut_mem_pages (c : SwLine) : (swPut s c).mem.pages = s.mem.pages := rfl
@[simp] theorem swPut_mem_loc (c : SwLine) : (swPut s c).mem.loc = s.mem.loc := rfl
@[simp] theorem swPut_mem_forwards (c : SwLine) : (swPut s c).mem.forwards = s.mem.forwards := rfl
@[simp] theorem swPut_mem_free (c : SwLine) : (swPut s c).mem.free = s.mem.free := rfl
@[simp] theorem swPut_mem_pins (c : SwLine) : (swPut s c).mem.pins = s.mem.pins := rfl
@[simp] theorem swPut_mem_notes (c : SwLine) : (swPut s c).mem.notes = s.mem.notes := rfl
@[simp] theorem swPut_mem_hand (c : SwLine) : (swPut s c).mem.hand = s.mem.hand := rfl
@[simp] theorem swPut_mem_claims (c : SwLine) : (swPut s c).mem.claims = s.mem.claims := rfl
@[simp] theorem swPut_mem_red (c : SwLine) : (swPut s c).mem.red = s.mem.red := rfl
@[simp] theorem swPut_mem_upd (c : SwLine) : (swPut s c).mem.upd = s.mem.upd := rfl
@[simp] theorem swPut_mem_sent (c : SwLine) : (swPut s c).mem.sent = s.mem.sent := rfl
@[simp] theorem swPut_mem_subs (c : SwLine) : (swPut s c).mem.subs = s.mem.subs := rfl
@[simp] theorem swPut_mem_tlb (c : SwLine) : (swPut s c).mem.tlb = s.mem.tlb := rfl
@[simp] theorem swPut_mem_walk (c : SwLine) : (swPut s c).mem.walk = s.mem.walk := rfl
@[simp] theorem swPut_mem_tokens (c : SwLine) : (swPut s c).mem.tokens = s.mem.tokens := rfl
@[simp] theorem swPut_mem_reqs (c : SwLine) : (swPut s c).mem.reqs = s.mem.reqs := rfl
@[simp] theorem swPut_mem_l1 (c : SwLine) : (swPut s c).mem.l1 = s.mem.l1 := rfl
@[simp] theorem swPut_mem_ways (c : SwLine) : (swPut s c).mem.ways = s.mem.ways := rfl
@[simp] theorem swPut_mem_code (c : SwLine) : (swPut s c).mem.code = s.mem.code := rfl
@[simp] theorem swPut_mem_old (c : SwLine) : (swPut s c).mem.old = s.mem.old := rfl
@[simp] theorem swPut_mem_tables (c : SwLine) : (swPut s c).mem.tables = s.mem.tables := rfl

/-! `swDrop` -/

@[simp] theorem swDrop_agents (die line : Nat) : (swDrop s die line).agents = s.agents := rfl
@[simp] theorem swDrop_blocks (die line : Nat) : (swDrop s die line).blocks = s.blocks := rfl
@[simp] theorem swDrop_bars (die line : Nat) : (swDrop s die line).bars = s.bars := rfl
@[simp] theorem swDrop_ops (die line : Nat) : (swDrop s die line).ops = s.ops := rfl
@[simp] theorem swDrop_cmds (die line : Nat) : (swDrop s die line).cmds = s.cmds := rfl
@[simp] theorem swDrop_hub (die line : Nat) : (swDrop s die line).hub = s.hub := rfl
@[simp] theorem swDrop_plat (die line : Nat) : (swDrop s die line).plat = s.plat := rfl
@[simp] theorem swDrop_harts (die line : Nat) : (swDrop s die line).harts = s.harts := rfl
@[simp] theorem swDrop_mtime (die line : Nat) : (swDrop s die line).mtime = s.mtime := rfl
@[simp] theorem swDrop_agenda (die line : Nat) : (swDrop s die line).agenda = s.agenda := rfl
@[simp] theorem swDrop_turn (die line : Nat) : (swDrop s die line).turn = s.turn := rfl
@[simp] theorem swDrop_cycles (die line : Nat) : (swDrop s die line).cycles = s.cycles := rfl
@[simp] theorem swDrop_fresh (die line : Nat) : (swDrop s die line).fresh = s.fresh := rfl
@[simp] theorem swDrop_nextId (die line : Nat) : (swDrop s die line).nextId = s.nextId := rfl
@[simp] theorem swDrop_rotor (die line : Nat) : (swDrop s die line).rotor = s.rotor := rfl
@[simp] theorem swDrop_mem_cells (die line : Nat) : (swDrop s die line).mem.cells = s.mem.cells := rfl
@[simp] theorem swDrop_mem_poison (die line : Nat) : (swDrop s die line).mem.poison = s.mem.poison := rfl
@[simp] theorem swDrop_mem_inject (die line : Nat) : (swDrop s die line).mem.inject = s.mem.inject := rfl
@[simp] theorem swDrop_mem_errs (die line : Nat) : (swDrop s die line).mem.errs = s.mem.errs := rfl
@[simp] theorem swDrop_mem_lineKeys (die line : Nat) : (swDrop s die line).mem.lineKeys = s.mem.lineKeys := rfl
@[simp] theorem swDrop_mem_dir (die line : Nat) : (swDrop s die line).mem.dir = s.mem.dir := rfl
@[simp] theorem swDrop_mem_pages (die line : Nat) : (swDrop s die line).mem.pages = s.mem.pages := rfl
@[simp] theorem swDrop_mem_loc (die line : Nat) : (swDrop s die line).mem.loc = s.mem.loc := rfl
@[simp] theorem swDrop_mem_forwards (die line : Nat) : (swDrop s die line).mem.forwards = s.mem.forwards := rfl
@[simp] theorem swDrop_mem_free (die line : Nat) : (swDrop s die line).mem.free = s.mem.free := rfl
@[simp] theorem swDrop_mem_pins (die line : Nat) : (swDrop s die line).mem.pins = s.mem.pins := rfl
@[simp] theorem swDrop_mem_notes (die line : Nat) : (swDrop s die line).mem.notes = s.mem.notes := rfl
@[simp] theorem swDrop_mem_hand (die line : Nat) : (swDrop s die line).mem.hand = s.mem.hand := rfl
@[simp] theorem swDrop_mem_claims (die line : Nat) : (swDrop s die line).mem.claims = s.mem.claims := rfl
@[simp] theorem swDrop_mem_red (die line : Nat) : (swDrop s die line).mem.red = s.mem.red := rfl
@[simp] theorem swDrop_mem_upd (die line : Nat) : (swDrop s die line).mem.upd = s.mem.upd := rfl
@[simp] theorem swDrop_mem_sent (die line : Nat) : (swDrop s die line).mem.sent = s.mem.sent := rfl
@[simp] theorem swDrop_mem_subs (die line : Nat) : (swDrop s die line).mem.subs = s.mem.subs := rfl
@[simp] theorem swDrop_mem_tlb (die line : Nat) : (swDrop s die line).mem.tlb = s.mem.tlb := rfl
@[simp] theorem swDrop_mem_walk (die line : Nat) : (swDrop s die line).mem.walk = s.mem.walk := rfl
@[simp] theorem swDrop_mem_tokens (die line : Nat) : (swDrop s die line).mem.tokens = s.mem.tokens := rfl
@[simp] theorem swDrop_mem_reqs (die line : Nat) : (swDrop s die line).mem.reqs = s.mem.reqs := rfl
@[simp] theorem swDrop_mem_l1 (die line : Nat) : (swDrop s die line).mem.l1 = s.mem.l1 := rfl
@[simp] theorem swDrop_mem_ways (die line : Nat) : (swDrop s die line).mem.ways = s.mem.ways := rfl
@[simp] theorem swDrop_mem_code (die line : Nat) : (swDrop s die line).mem.code = s.mem.code := rfl
@[simp] theorem swDrop_mem_old (die line : Nat) : (swDrop s die line).mem.old = s.mem.old := rfl
@[simp] theorem swDrop_mem_tables (die line : Nat) : (swDrop s die line).mem.tables = s.mem.tables := rfl

/-! `locDrop` -/

@[simp] theorem locDrop_agents (page : Nat) : (locDrop s page).agents = s.agents := rfl
@[simp] theorem locDrop_blocks (page : Nat) : (locDrop s page).blocks = s.blocks := rfl
@[simp] theorem locDrop_bars (page : Nat) : (locDrop s page).bars = s.bars := rfl
@[simp] theorem locDrop_ops (page : Nat) : (locDrop s page).ops = s.ops := rfl
@[simp] theorem locDrop_cmds (page : Nat) : (locDrop s page).cmds = s.cmds := rfl
@[simp] theorem locDrop_hub (page : Nat) : (locDrop s page).hub = s.hub := rfl
@[simp] theorem locDrop_plat (page : Nat) : (locDrop s page).plat = s.plat := rfl
@[simp] theorem locDrop_harts (page : Nat) : (locDrop s page).harts = s.harts := rfl
@[simp] theorem locDrop_mtime (page : Nat) : (locDrop s page).mtime = s.mtime := rfl
@[simp] theorem locDrop_agenda (page : Nat) : (locDrop s page).agenda = s.agenda := rfl
@[simp] theorem locDrop_turn (page : Nat) : (locDrop s page).turn = s.turn := rfl
@[simp] theorem locDrop_cycles (page : Nat) : (locDrop s page).cycles = s.cycles := rfl
@[simp] theorem locDrop_fresh (page : Nat) : (locDrop s page).fresh = s.fresh := rfl
@[simp] theorem locDrop_nextId (page : Nat) : (locDrop s page).nextId = s.nextId := rfl
@[simp] theorem locDrop_rotor (page : Nat) : (locDrop s page).rotor = s.rotor := rfl
@[simp] theorem locDrop_mem_cells (page : Nat) : (locDrop s page).mem.cells = s.mem.cells := rfl
@[simp] theorem locDrop_mem_poison (page : Nat) : (locDrop s page).mem.poison = s.mem.poison := rfl
@[simp] theorem locDrop_mem_inject (page : Nat) : (locDrop s page).mem.inject = s.mem.inject := rfl
@[simp] theorem locDrop_mem_errs (page : Nat) : (locDrop s page).mem.errs = s.mem.errs := rfl
@[simp] theorem locDrop_mem_lineKeys (page : Nat) : (locDrop s page).mem.lineKeys = s.mem.lineKeys := rfl
@[simp] theorem locDrop_mem_sw (page : Nat) : (locDrop s page).mem.sw = s.mem.sw := rfl
@[simp] theorem locDrop_mem_dir (page : Nat) : (locDrop s page).mem.dir = s.mem.dir := rfl
@[simp] theorem locDrop_mem_pages (page : Nat) : (locDrop s page).mem.pages = s.mem.pages := rfl
@[simp] theorem locDrop_mem_forwards (page : Nat) : (locDrop s page).mem.forwards = s.mem.forwards := rfl
@[simp] theorem locDrop_mem_free (page : Nat) : (locDrop s page).mem.free = s.mem.free := rfl
@[simp] theorem locDrop_mem_pins (page : Nat) : (locDrop s page).mem.pins = s.mem.pins := rfl
@[simp] theorem locDrop_mem_notes (page : Nat) : (locDrop s page).mem.notes = s.mem.notes := rfl
@[simp] theorem locDrop_mem_hand (page : Nat) : (locDrop s page).mem.hand = s.mem.hand := rfl
@[simp] theorem locDrop_mem_claims (page : Nat) : (locDrop s page).mem.claims = s.mem.claims := rfl
@[simp] theorem locDrop_mem_red (page : Nat) : (locDrop s page).mem.red = s.mem.red := rfl
@[simp] theorem locDrop_mem_upd (page : Nat) : (locDrop s page).mem.upd = s.mem.upd := rfl
@[simp] theorem locDrop_mem_sent (page : Nat) : (locDrop s page).mem.sent = s.mem.sent := rfl
@[simp] theorem locDrop_mem_subs (page : Nat) : (locDrop s page).mem.subs = s.mem.subs := rfl
@[simp] theorem locDrop_mem_tlb (page : Nat) : (locDrop s page).mem.tlb = s.mem.tlb := rfl
@[simp] theorem locDrop_mem_walk (page : Nat) : (locDrop s page).mem.walk = s.mem.walk := rfl
@[simp] theorem locDrop_mem_tokens (page : Nat) : (locDrop s page).mem.tokens = s.mem.tokens := rfl
@[simp] theorem locDrop_mem_reqs (page : Nat) : (locDrop s page).mem.reqs = s.mem.reqs := rfl
@[simp] theorem locDrop_mem_l1 (page : Nat) : (locDrop s page).mem.l1 = s.mem.l1 := rfl
@[simp] theorem locDrop_mem_ways (page : Nat) : (locDrop s page).mem.ways = s.mem.ways := rfl
@[simp] theorem locDrop_mem_code (page : Nat) : (locDrop s page).mem.code = s.mem.code := rfl
@[simp] theorem locDrop_mem_old (page : Nat) : (locDrop s page).mem.old = s.mem.old := rfl
@[simp] theorem locDrop_mem_tables (page : Nat) : (locDrop s page).mem.tables = s.mem.tables := rfl

/-! `putForward` -/

@[simp] theorem putForward_agents (f : Forward) : (putForward s f).agents = s.agents := rfl
@[simp] theorem putForward_blocks (f : Forward) : (putForward s f).blocks = s.blocks := rfl
@[simp] theorem putForward_bars (f : Forward) : (putForward s f).bars = s.bars := rfl
@[simp] theorem putForward_ops (f : Forward) : (putForward s f).ops = s.ops := rfl
@[simp] theorem putForward_cmds (f : Forward) : (putForward s f).cmds = s.cmds := rfl
@[simp] theorem putForward_hub (f : Forward) : (putForward s f).hub = s.hub := rfl
@[simp] theorem putForward_plat (f : Forward) : (putForward s f).plat = s.plat := rfl
@[simp] theorem putForward_harts (f : Forward) : (putForward s f).harts = s.harts := rfl
@[simp] theorem putForward_mtime (f : Forward) : (putForward s f).mtime = s.mtime := rfl
@[simp] theorem putForward_agenda (f : Forward) : (putForward s f).agenda = s.agenda := rfl
@[simp] theorem putForward_turn (f : Forward) : (putForward s f).turn = s.turn := rfl
@[simp] theorem putForward_cycles (f : Forward) : (putForward s f).cycles = s.cycles := rfl
@[simp] theorem putForward_fresh (f : Forward) : (putForward s f).fresh = s.fresh := rfl
@[simp] theorem putForward_nextId (f : Forward) : (putForward s f).nextId = s.nextId := rfl
@[simp] theorem putForward_rotor (f : Forward) : (putForward s f).rotor = s.rotor := rfl
@[simp] theorem putForward_mem_cells (f : Forward) : (putForward s f).mem.cells = s.mem.cells := rfl
@[simp] theorem putForward_mem_poison (f : Forward) : (putForward s f).mem.poison = s.mem.poison := rfl
@[simp] theorem putForward_mem_inject (f : Forward) : (putForward s f).mem.inject = s.mem.inject := rfl
@[simp] theorem putForward_mem_errs (f : Forward) : (putForward s f).mem.errs = s.mem.errs := rfl
@[simp] theorem putForward_mem_lineKeys (f : Forward) : (putForward s f).mem.lineKeys = s.mem.lineKeys := rfl
@[simp] theorem putForward_mem_sw (f : Forward) : (putForward s f).mem.sw = s.mem.sw := rfl
@[simp] theorem putForward_mem_dir (f : Forward) : (putForward s f).mem.dir = s.mem.dir := rfl
@[simp] theorem putForward_mem_pages (f : Forward) : (putForward s f).mem.pages = s.mem.pages := rfl
@[simp] theorem putForward_mem_loc (f : Forward) : (putForward s f).mem.loc = s.mem.loc := rfl
@[simp] theorem putForward_mem_free (f : Forward) : (putForward s f).mem.free = s.mem.free := rfl
@[simp] theorem putForward_mem_pins (f : Forward) : (putForward s f).mem.pins = s.mem.pins := rfl
@[simp] theorem putForward_mem_notes (f : Forward) : (putForward s f).mem.notes = s.mem.notes := rfl
@[simp] theorem putForward_mem_hand (f : Forward) : (putForward s f).mem.hand = s.mem.hand := rfl
@[simp] theorem putForward_mem_claims (f : Forward) : (putForward s f).mem.claims = s.mem.claims := rfl
@[simp] theorem putForward_mem_red (f : Forward) : (putForward s f).mem.red = s.mem.red := rfl
@[simp] theorem putForward_mem_upd (f : Forward) : (putForward s f).mem.upd = s.mem.upd := rfl
@[simp] theorem putForward_mem_sent (f : Forward) : (putForward s f).mem.sent = s.mem.sent := rfl
@[simp] theorem putForward_mem_subs (f : Forward) : (putForward s f).mem.subs = s.mem.subs := rfl
@[simp] theorem putForward_mem_tlb (f : Forward) : (putForward s f).mem.tlb = s.mem.tlb := rfl
@[simp] theorem putForward_mem_walk (f : Forward) : (putForward s f).mem.walk = s.mem.walk := rfl
@[simp] theorem putForward_mem_tokens (f : Forward) : (putForward s f).mem.tokens = s.mem.tokens := rfl
@[simp] theorem putForward_mem_reqs (f : Forward) : (putForward s f).mem.reqs = s.mem.reqs := rfl
@[simp] theorem putForward_mem_l1 (f : Forward) : (putForward s f).mem.l1 = s.mem.l1 := rfl
@[simp] theorem putForward_mem_ways (f : Forward) : (putForward s f).mem.ways = s.mem.ways := rfl
@[simp] theorem putForward_mem_code (f : Forward) : (putForward s f).mem.code = s.mem.code := rfl
@[simp] theorem putForward_mem_old (f : Forward) : (putForward s f).mem.old = s.mem.old := rfl
@[simp] theorem putForward_mem_tables (f : Forward) : (putForward s f).mem.tables = s.mem.tables := rfl

/-! `modSub` -/

@[simp] theorem modSub_agents (b n : Nat) (f : Subscription → Subscription) : (modSub s b n f).agents = s.agents := rfl
@[simp] theorem modSub_blocks (b n : Nat) (f : Subscription → Subscription) : (modSub s b n f).blocks = s.blocks := rfl
@[simp] theorem modSub_bars (b n : Nat) (f : Subscription → Subscription) : (modSub s b n f).bars = s.bars := rfl
@[simp] theorem modSub_ops (b n : Nat) (f : Subscription → Subscription) : (modSub s b n f).ops = s.ops := rfl
@[simp] theorem modSub_cmds (b n : Nat) (f : Subscription → Subscription) : (modSub s b n f).cmds = s.cmds := rfl
@[simp] theorem modSub_hub (b n : Nat) (f : Subscription → Subscription) : (modSub s b n f).hub = s.hub := rfl
@[simp] theorem modSub_plat (b n : Nat) (f : Subscription → Subscription) : (modSub s b n f).plat = s.plat := rfl
@[simp] theorem modSub_harts (b n : Nat) (f : Subscription → Subscription) : (modSub s b n f).harts = s.harts := rfl
@[simp] theorem modSub_mtime (b n : Nat) (f : Subscription → Subscription) : (modSub s b n f).mtime = s.mtime := rfl
@[simp] theorem modSub_agenda (b n : Nat) (f : Subscription → Subscription) : (modSub s b n f).agenda = s.agenda := rfl
@[simp] theorem modSub_turn (b n : Nat) (f : Subscription → Subscription) : (modSub s b n f).turn = s.turn := rfl
@[simp] theorem modSub_cycles (b n : Nat) (f : Subscription → Subscription) : (modSub s b n f).cycles = s.cycles := rfl
@[simp] theorem modSub_fresh (b n : Nat) (f : Subscription → Subscription) : (modSub s b n f).fresh = s.fresh := rfl
@[simp] theorem modSub_nextId (b n : Nat) (f : Subscription → Subscription) : (modSub s b n f).nextId = s.nextId := rfl
@[simp] theorem modSub_rotor (b n : Nat) (f : Subscription → Subscription) : (modSub s b n f).rotor = s.rotor := rfl
@[simp] theorem modSub_mem_cells (b n : Nat) (f : Subscription → Subscription) : (modSub s b n f).mem.cells = s.mem.cells := rfl
@[simp] theorem modSub_mem_poison (b n : Nat) (f : Subscription → Subscription) : (modSub s b n f).mem.poison = s.mem.poison := rfl
@[simp] theorem modSub_mem_inject (b n : Nat) (f : Subscription → Subscription) : (modSub s b n f).mem.inject = s.mem.inject := rfl
@[simp] theorem modSub_mem_errs (b n : Nat) (f : Subscription → Subscription) : (modSub s b n f).mem.errs = s.mem.errs := rfl
@[simp] theorem modSub_mem_lineKeys (b n : Nat) (f : Subscription → Subscription) : (modSub s b n f).mem.lineKeys = s.mem.lineKeys := rfl
@[simp] theorem modSub_mem_sw (b n : Nat) (f : Subscription → Subscription) : (modSub s b n f).mem.sw = s.mem.sw := rfl
@[simp] theorem modSub_mem_dir (b n : Nat) (f : Subscription → Subscription) : (modSub s b n f).mem.dir = s.mem.dir := rfl
@[simp] theorem modSub_mem_pages (b n : Nat) (f : Subscription → Subscription) : (modSub s b n f).mem.pages = s.mem.pages := rfl
@[simp] theorem modSub_mem_loc (b n : Nat) (f : Subscription → Subscription) : (modSub s b n f).mem.loc = s.mem.loc := rfl
@[simp] theorem modSub_mem_forwards (b n : Nat) (f : Subscription → Subscription) : (modSub s b n f).mem.forwards = s.mem.forwards := rfl
@[simp] theorem modSub_mem_free (b n : Nat) (f : Subscription → Subscription) : (modSub s b n f).mem.free = s.mem.free := rfl
@[simp] theorem modSub_mem_pins (b n : Nat) (f : Subscription → Subscription) : (modSub s b n f).mem.pins = s.mem.pins := rfl
@[simp] theorem modSub_mem_notes (b n : Nat) (f : Subscription → Subscription) : (modSub s b n f).mem.notes = s.mem.notes := rfl
@[simp] theorem modSub_mem_hand (b n : Nat) (f : Subscription → Subscription) : (modSub s b n f).mem.hand = s.mem.hand := rfl
@[simp] theorem modSub_mem_claims (b n : Nat) (f : Subscription → Subscription) : (modSub s b n f).mem.claims = s.mem.claims := rfl
@[simp] theorem modSub_mem_red (b n : Nat) (f : Subscription → Subscription) : (modSub s b n f).mem.red = s.mem.red := rfl
@[simp] theorem modSub_mem_upd (b n : Nat) (f : Subscription → Subscription) : (modSub s b n f).mem.upd = s.mem.upd := rfl
@[simp] theorem modSub_mem_sent (b n : Nat) (f : Subscription → Subscription) : (modSub s b n f).mem.sent = s.mem.sent := rfl
@[simp] theorem modSub_mem_tlb (b n : Nat) (f : Subscription → Subscription) : (modSub s b n f).mem.tlb = s.mem.tlb := rfl
@[simp] theorem modSub_mem_walk (b n : Nat) (f : Subscription → Subscription) : (modSub s b n f).mem.walk = s.mem.walk := rfl
@[simp] theorem modSub_mem_tokens (b n : Nat) (f : Subscription → Subscription) : (modSub s b n f).mem.tokens = s.mem.tokens := rfl
@[simp] theorem modSub_mem_reqs (b n : Nat) (f : Subscription → Subscription) : (modSub s b n f).mem.reqs = s.mem.reqs := rfl
@[simp] theorem modSub_mem_l1 (b n : Nat) (f : Subscription → Subscription) : (modSub s b n f).mem.l1 = s.mem.l1 := rfl
@[simp] theorem modSub_mem_ways (b n : Nat) (f : Subscription → Subscription) : (modSub s b n f).mem.ways = s.mem.ways := rfl
@[simp] theorem modSub_mem_code (b n : Nat) (f : Subscription → Subscription) : (modSub s b n f).mem.code = s.mem.code := rfl
@[simp] theorem modSub_mem_old (b n : Nat) (f : Subscription → Subscription) : (modSub s b n f).mem.old = s.mem.old := rfl
@[simp] theorem modSub_mem_tables (b n : Nat) (f : Subscription → Subscription) : (modSub s b n f).mem.tables = s.mem.tables := rfl

/-! `setTokens` -/

@[simp] theorem setTokens_agents (port c : Nat) (v : Int) : (setTokens s port c v).agents = s.agents := rfl
@[simp] theorem setTokens_blocks (port c : Nat) (v : Int) : (setTokens s port c v).blocks = s.blocks := rfl
@[simp] theorem setTokens_bars (port c : Nat) (v : Int) : (setTokens s port c v).bars = s.bars := rfl
@[simp] theorem setTokens_ops (port c : Nat) (v : Int) : (setTokens s port c v).ops = s.ops := rfl
@[simp] theorem setTokens_cmds (port c : Nat) (v : Int) : (setTokens s port c v).cmds = s.cmds := rfl
@[simp] theorem setTokens_hub (port c : Nat) (v : Int) : (setTokens s port c v).hub = s.hub := rfl
@[simp] theorem setTokens_plat (port c : Nat) (v : Int) : (setTokens s port c v).plat = s.plat := rfl
@[simp] theorem setTokens_harts (port c : Nat) (v : Int) : (setTokens s port c v).harts = s.harts := rfl
@[simp] theorem setTokens_mtime (port c : Nat) (v : Int) : (setTokens s port c v).mtime = s.mtime := rfl
@[simp] theorem setTokens_agenda (port c : Nat) (v : Int) : (setTokens s port c v).agenda = s.agenda := rfl
@[simp] theorem setTokens_turn (port c : Nat) (v : Int) : (setTokens s port c v).turn = s.turn := rfl
@[simp] theorem setTokens_cycles (port c : Nat) (v : Int) : (setTokens s port c v).cycles = s.cycles := rfl
@[simp] theorem setTokens_fresh (port c : Nat) (v : Int) : (setTokens s port c v).fresh = s.fresh := rfl
@[simp] theorem setTokens_nextId (port c : Nat) (v : Int) : (setTokens s port c v).nextId = s.nextId := rfl
@[simp] theorem setTokens_rotor (port c : Nat) (v : Int) : (setTokens s port c v).rotor = s.rotor := rfl
@[simp] theorem setTokens_mem_cells (port c : Nat) (v : Int) : (setTokens s port c v).mem.cells = s.mem.cells := rfl
@[simp] theorem setTokens_mem_poison (port c : Nat) (v : Int) : (setTokens s port c v).mem.poison = s.mem.poison := rfl
@[simp] theorem setTokens_mem_inject (port c : Nat) (v : Int) : (setTokens s port c v).mem.inject = s.mem.inject := rfl
@[simp] theorem setTokens_mem_errs (port c : Nat) (v : Int) : (setTokens s port c v).mem.errs = s.mem.errs := rfl
@[simp] theorem setTokens_mem_lineKeys (port c : Nat) (v : Int) : (setTokens s port c v).mem.lineKeys = s.mem.lineKeys := rfl
@[simp] theorem setTokens_mem_sw (port c : Nat) (v : Int) : (setTokens s port c v).mem.sw = s.mem.sw := rfl
@[simp] theorem setTokens_mem_dir (port c : Nat) (v : Int) : (setTokens s port c v).mem.dir = s.mem.dir := rfl
@[simp] theorem setTokens_mem_pages (port c : Nat) (v : Int) : (setTokens s port c v).mem.pages = s.mem.pages := rfl
@[simp] theorem setTokens_mem_loc (port c : Nat) (v : Int) : (setTokens s port c v).mem.loc = s.mem.loc := rfl
@[simp] theorem setTokens_mem_forwards (port c : Nat) (v : Int) : (setTokens s port c v).mem.forwards = s.mem.forwards := rfl
@[simp] theorem setTokens_mem_free (port c : Nat) (v : Int) : (setTokens s port c v).mem.free = s.mem.free := rfl
@[simp] theorem setTokens_mem_pins (port c : Nat) (v : Int) : (setTokens s port c v).mem.pins = s.mem.pins := rfl
@[simp] theorem setTokens_mem_notes (port c : Nat) (v : Int) : (setTokens s port c v).mem.notes = s.mem.notes := rfl
@[simp] theorem setTokens_mem_hand (port c : Nat) (v : Int) : (setTokens s port c v).mem.hand = s.mem.hand := rfl
@[simp] theorem setTokens_mem_claims (port c : Nat) (v : Int) : (setTokens s port c v).mem.claims = s.mem.claims := rfl
@[simp] theorem setTokens_mem_red (port c : Nat) (v : Int) : (setTokens s port c v).mem.red = s.mem.red := rfl
@[simp] theorem setTokens_mem_upd (port c : Nat) (v : Int) : (setTokens s port c v).mem.upd = s.mem.upd := rfl
@[simp] theorem setTokens_mem_sent (port c : Nat) (v : Int) : (setTokens s port c v).mem.sent = s.mem.sent := rfl
@[simp] theorem setTokens_mem_subs (port c : Nat) (v : Int) : (setTokens s port c v).mem.subs = s.mem.subs := rfl
@[simp] theorem setTokens_mem_tlb (port c : Nat) (v : Int) : (setTokens s port c v).mem.tlb = s.mem.tlb := rfl
@[simp] theorem setTokens_mem_walk (port c : Nat) (v : Int) : (setTokens s port c v).mem.walk = s.mem.walk := rfl
@[simp] theorem setTokens_mem_reqs (port c : Nat) (v : Int) : (setTokens s port c v).mem.reqs = s.mem.reqs := rfl
@[simp] theorem setTokens_mem_l1 (port c : Nat) (v : Int) : (setTokens s port c v).mem.l1 = s.mem.l1 := rfl
@[simp] theorem setTokens_mem_ways (port c : Nat) (v : Int) : (setTokens s port c v).mem.ways = s.mem.ways := rfl
@[simp] theorem setTokens_mem_code (port c : Nat) (v : Int) : (setTokens s port c v).mem.code = s.mem.code := rfl
@[simp] theorem setTokens_mem_old (port c : Nat) (v : Int) : (setTokens s port c v).mem.old = s.mem.old := rfl
@[simp] theorem setTokens_mem_tables (port c : Nat) (v : Int) : (setTokens s port c v).mem.tables = s.mem.tables := rfl

/-! `portSet` -/

@[simp] theorem portSet_agents (n : Nat) (f : DWord → DWord) : (portSet s n f).agents = s.agents := rfl
@[simp] theorem portSet_blocks (n : Nat) (f : DWord → DWord) : (portSet s n f).blocks = s.blocks := rfl
@[simp] theorem portSet_bars (n : Nat) (f : DWord → DWord) : (portSet s n f).bars = s.bars := rfl
@[simp] theorem portSet_ops (n : Nat) (f : DWord → DWord) : (portSet s n f).ops = s.ops := rfl
@[simp] theorem portSet_cmds (n : Nat) (f : DWord → DWord) : (portSet s n f).cmds = s.cmds := rfl
@[simp] theorem portSet_mem (n : Nat) (f : DWord → DWord) : (portSet s n f).mem = s.mem := rfl
@[simp] theorem portSet_hub (n : Nat) (f : DWord → DWord) : (portSet s n f).hub = s.hub := rfl
@[simp] theorem portSet_harts (n : Nat) (f : DWord → DWord) : (portSet s n f).harts = s.harts := rfl
@[simp] theorem portSet_mtime (n : Nat) (f : DWord → DWord) : (portSet s n f).mtime = s.mtime := rfl
@[simp] theorem portSet_agenda (n : Nat) (f : DWord → DWord) : (portSet s n f).agenda = s.agenda := rfl
@[simp] theorem portSet_turn (n : Nat) (f : DWord → DWord) : (portSet s n f).turn = s.turn := rfl
@[simp] theorem portSet_cycles (n : Nat) (f : DWord → DWord) : (portSet s n f).cycles = s.cycles := rfl
@[simp] theorem portSet_fresh (n : Nat) (f : DWord → DWord) : (portSet s n f).fresh = s.fresh := rfl
@[simp] theorem portSet_nextId (n : Nat) (f : DWord → DWord) : (portSet s n f).nextId = s.nextId := rfl
@[simp] theorem portSet_rotor (n : Nat) (f : DWord → DWord) : (portSet s n f).rotor = s.rotor := rfl
@[simp] theorem portSet_plat_pltcfg (n : Nat) (f : DWord → DWord) : (portSet s n f).plat.pltcfg = s.plat.pltcfg := rfl
@[simp] theorem portSet_plat_pltlim (n : Nat) (f : DWord → DWord) : (portSet s n f).plat.pltlim = s.plat.pltlim := rfl
@[simp] theorem portSet_plat_pkgid (n : Nat) (f : DWord → DWord) : (portSet s n f).plat.pkgid = s.plat.pkgid := rfl
@[simp] theorem portSet_plat_poolown (n : Nat) (f : DWord → DWord) : (portSet s n f).plat.poolown = s.plat.poolown := rfl
@[simp] theorem portSet_plat_migpol (n : Nat) (f : DWord → DWord) : (portSet s n f).plat.migpol = s.plat.migpol := rfl
@[simp] theorem portSet_plat_gstatsel (n : Nat) (f : DWord → DWord) : (portSet s n f).plat.gstatsel = s.plat.gstatsel := rfl
@[simp] theorem portSet_plat_stats (n : Nat) (f : DWord → DWord) : (portSet s n f).plat.stats = s.plat.stats := rfl
@[simp] theorem portSet_plat_errcnt (n : Nat) (f : DWord → DWord) : (portSet s n f).plat.errcnt = s.plat.errcnt := rfl
@[simp] theorem portSet_plat_ports (n : Nat) (f : DWord → DWord) : (portSet s n f).plat.ports = sset s.plat.ports n (f (sget s.plat.ports n)) := rfl
@[simp] theorem portSet_plat_jrnCfg (n : Nat) (f : DWord → DWord) : (portSet s n f).plat.jrnCfg = s.plat.jrnCfg := rfl
@[simp] theorem portSet_plat_jrnMirror (n : Nat) (f : DWord → DWord) : (portSet s n f).plat.jrnMirror = s.plat.jrnMirror := rfl
@[simp] theorem portSet_plat_jrnSeq (n : Nat) (f : DWord → DWord) : (portSet s n f).plat.jrnSeq = s.plat.jrnSeq := rfl
@[simp] theorem portSet_plat_fwStage (n : Nat) (f : DWord → DWord) : (portSet s n f).plat.fwStage = s.plat.fwStage := rfl
@[simp] theorem portSet_plat_fwVer (n : Nat) (f : DWord → DWord) : (portSet s n f).plat.fwVer = s.plat.fwVer := rfl
@[simp] theorem portSet_plat_fwState (n : Nat) (f : DWord → DWord) : (portSet s n f).plat.fwState = s.plat.fwState := rfl
@[simp] theorem portSet_plat_fwResult (n : Nat) (f : DWord → DWord) : (portSet s n f).plat.fwResult = s.plat.fwResult := rfl
@[simp] theorem portSet_plat_fwSince (n : Nat) (f : DWord → DWord) : (portSet s n f).plat.fwSince = s.plat.fwSince := rfl
@[simp] theorem portSet_plat_fwDigest (n : Nat) (f : DWord → DWord) : (portSet s n f).plat.fwDigest = s.plat.fwDigest := rfl
@[simp] theorem portSet_plat_fwNext (n : Nat) (f : DWord → DWord) : (portSet s n f).plat.fwNext = s.plat.fwNext := rfl
@[simp] theorem portSet_plat_cleared (n : Nat) (f : DWord → DWord) : (portSet s n f).plat.cleared = s.plat.cleared := rfl
@[simp] theorem portSet_plat_meas (n : Nat) (f : DWord → DWord) : (portSet s n f).plat.meas = s.plat.meas := rfl
@[simp] theorem portSet_plat_keys (n : Nat) (f : DWord → DWord) : (portSet s n f).plat.keys = s.plat.keys := rfl
@[simp] theorem portSet_plat_boot (n : Nat) (f : DWord → DWord) : (portSet s n f).plat.boot = s.plat.boot := rfl
@[simp] theorem portSet_plat_flashRec (n : Nat) (f : DWord → DWord) : (portSet s n f).plat.flashRec = s.plat.flashRec := rfl
@[simp] theorem portSet_plat_inbound (n : Nat) (f : DWord → DWord) : (portSet s n f).plat.inbound = s.plat.inbound := rfl
@[simp] theorem portSet_plat_ticked (n : Nat) (f : DWord → DWord) : (portSet s n f).plat.ticked = s.plat.ticked := rfl

end Sys2Proof.Machine
end

