-- ==== Sys2Proof/Laws/Words.lean ====
section
/-! SUPPORT. What each shared form of a word does when a clause is in issue: the lemmas to cite instead of unfolding the forms. -/

namespace Sys2Proof.Claims

open Sys2Proof Sys2Proof.Machine

/-- A word that has an issuer is its meaning at the issuer's environment. -/
theorem onIssue_running {s : State} {h : Pfx} {f64 : Bool} {e : Env} (hr : Running s h f64 e) (f : Env → Out) :
    onIssue s h f64 f = f e := by
  obtain ⟨a, ag, iss, hi, rfl⟩ := hr
  simp [onIssue, hi]

/-- Without an issuer a word faults. -/
theorem onIssue_none {s : State} {h : Pfx} {f64 : Bool} {f : Env → Out} (hi : issuing s = none) :
    onIssue s h f64 f = .fault .noIssuer := by
  simp [onIssue, hi]

/-- A fixed-latency word issues its producers. -/
theorem fixedWord_running {s : State} {h : Pfx} {f64 : Bool} {e : Env} (hr : Running s h f64 e) (op : Nat) (f : Env → List Producer) :
    fixedWord s h f64 op f = .next (finish s e (wordCredits op f64 (lanesOf e.pass).length) (f e)) := by
  rw [fixedWord, onIssue_running hr]

/-- A scalar word that a lane passes costs one credit and issues its producers. -/
theorem scalarWord_running {s : State} {h : Pfx} {e : Env} (hr : Running s h false e) (hp : e.pass ≠ 0#32) (op : Nat)
    (f : Env → List Producer) (ho : op < 0x80) : scalarWord s h op f = .next (finish s e 1 (f e)) := by
  rw [scalarWord, fixedWord_running hr]
  simp [hp, wordCredits, ho]

/-- A scalar word that no lane passes only issues. -/
theorem scalarWord_idle {s : State} {h : Pfx} {e : Env} (hr : Running s h false e) (hp : e.pass = 0#32) (op : Nat)
    (f : Env → List Producer) (ho : op < 0x80) : scalarWord s h op f = .next (finish s e 1 []) := by
  rw [scalarWord, fixedWord_running hr]
  simp [hp, wordCredits, ho]

/-- A lane-by-lane word whose relative operands are in order issues the producers of its passing lanes. -/
theorem laneWord_running {s : State} {h : Pfx} {f64 : Bool} {e : Env} (hr : Running s h f64 e) (r : FmtR) (i : Instr) (op : Nat)
    (f : Env → Nat → List Producer) (hf : RelFine e i r) :
    laneWord s h r i f64 op f =
      .next (finish s e (wordCredits op f64 (lanesOf e.pass).length) ((lanesOf e.pass).flatMap (f e))) := by
  rw [laneWord, onIssue_running hr]
  simp [hf.1, hf.2]

/-- A lane-by-lane word with one destination. -/
theorem vecWord_running {s : State} {h : Pfx} {f64 : Bool} {e : Env} (hr : Running s h f64 e) (r : FmtR) (i : Instr) (op k : Nat)
    (f : Env → Nat → Nat × Bool) (hf : RelFine e i r) :
    vecWord s h r i f64 op k f =
      .next (finish s e (wordCredits op f64 (lanesOf e.pass).length) (lanewise e r (latency op) k (f e))) := by
  rw [vecWord, laneWord_running hr _ _ _ _ hf]
  rfl

/-- A comparison. -/
theorem compareWord_running {s : State} {h : Pfx} {f64 : Bool} {e : Env} (hr : Running s h f64 e) (r : FmtR) (i : Instr) (op : Nat)
    (f : Env → Nat → Bool) (hf : RelFine e i r) :
    compareWord s h r i f64 op f =
      .next (finish s e (wordCredits op f64 (lanesOf e.pass).length) (lanebits e r (latency op) (f e))) := by
  rw [compareWord, laneWord_running hr _ _ _ _ hf]
  rfl

/-- A lane-by-lane word with a relative operand out of bounds traps. -/
theorem laneWord_bound {s : State} {h : Pfx} {f64 : Bool} {e : Env} (hr : Running s h f64 e) (r : FmtR) (i : Instr) (op : Nat)
    (f : Env → Nat → List Producer) (hb : relBad e i r ≠ 0#32) :
    laneWord s h r i f64 op f = .next (issueTrap s e (regBoundTrap e r (relBad e i r))) := by
  rw [laneWord, onIssue_running hr]
  simp [hb]

/-- A lane-by-lane word whose relative destination overlaps a source unequally traps. -/
theorem laneWord_overlap {s : State} {h : Pfx} {f64 : Bool} {e : Env} (hr : Running s h f64 e) (r : FmtR) (i : Instr) (op : Nat)
    (f : Env → Nat → List Producer) (hb : relBad e i r = 0#32) (ho : relOverlap e i r ≠ 0#32) :
    laneWord s h r i f64 op f = .next (issueTrap s e (issueReq e .regOverlap (relOverlap e i r) 0)) := by
  rw [laneWord, onIssue_running hr]
  simp [hb, ho]

/-- A control word issues with its transfers and links. -/
theorem controlWord_running {s : State} {h : Pfx} {e : Env} (hr : Running s h false e) (op : Nat)
    (f : Env → List (Nat × DWord) × List Producer × Bool) :
    controlWord s h op f =
      .next (finish s { e with iss := { e.iss with jumps := (f e).1, yields := e.iss.yields || (f e).2.2 } }
        (wordCredits op false (lanesOf e.pass).length) (f e).2.1) := by
  rw [controlWord, onIssue_running hr]

/-- A variable-latency word that passes its checks acts. -/
theorem varWord_running {s : State} {h : Pfx} {e : Env} (hr : Running s h false e) (i : Instr) (addrs : Env → List (Nat × Nat))
    (act : Env → State) (hp : e.pass ≠ 0#32) (hf : flagFull e.ag (memFmt i).flag.toNat = false)
    (hw : walksFull s (dieOf e.ag.core) = false) (hc : laneTrap s e i (addrs e) = none) : varWord s h i addrs act = .next (act e) := by
  rw [varWord, onIssue_running hr]
  simp [hp, hf, hw, hc]

/-- A variable-latency word holds while its flag count or the walk queue of its die is full. -/
theorem varWord_holds {s : State} {h : Pfx} {e : Env} (hr : Running s h false e) (i : Instr) (addrs : Env → List (Nat × Nat))
    (act : Env → State) (hp : e.pass ≠ 0#32)
    (hf : flagFull e.ag (memFmt i).flag.toNat = true ∨ walksFull s (dieOf e.ag.core) = true) :
    varWord s h i addrs act = .next (holdWord s) := by
  rw [varWord, onIssue_running hr]
  simp [hp, hf]

/-- A variable-latency word one of whose addresses fails a check traps. -/
theorem varWord_traps {s : State} {h : Pfx} {e : Env} (hr : Running s h false e) (i : Instr) (addrs : Env → List (Nat × Nat))
    (act : Env → State) (hp : e.pass ≠ 0#32) (hf : flagFull e.ag (memFmt i).flag.toNat = false)
    (hw : walksFull s (dieOf e.ag.core) = false) {t : TrapReq}
    (hc : laneTrap s e i (addrs e) = some t) : varWord s h i addrs act = .next (issueTrap s e t) := by
  rw [varWord, onIssue_running hr]
  simp [hp, hf, hw, hc]

/-- A system word that passes its value check starts its op. -/
theorem systemWord_running {s : State} {h : Pfx} {e : Env} (hr : Running s h false e) (i : Instr) (args : Env → List DWord)
    (check : Env → List DWord → Option TrapCode) (hp : e.pass ≠ 0#32) (hf : flagFull e.ag (memFmt i).flag.toNat = false)
    (hc : check e (args e) = none) :
    systemWord s h i args check = .next (startOp s e (opOf_ e i [partOfLane 32 0 .home] [] [] (args e))).2 := by
  rw [systemWord, onIssue_running hr]
  simp [hp, hf, hc]

end Sys2Proof.Claims
end

