-- ==== Sys2Proof/Tests/Base.lean ====
section
/-! SUPPORT. The small states that the tests start from. -/

namespace Sys2Proof.Tests

open Sys2Proof Sys2Proof.Machine

/-- No predicate, no stall. -/
def p0 : Pfx := { stall := 0, pred := 0, neg := false }

/-- Format R with every field 0 but D, A, B, C. -/
def fr (d a b c : BitVec 8) : FmtR := { d := d, a := a, b := b, c := c, rel := 0, ty := 0, rnd := 0, sat := false, ftz := false, sub := 0 }

/-- Format M with scope 1, a type, a scalar base and a flag. -/
def fm (d : BitVec 8) (sb : BitVec 6) (c : BitVec 8) (mt flag : BitVec 4) : FmtM :=
  { d := d, am := 0, sb := sb, b := 0, c := c, ord := 0, scope := 1, mtype := mt, sc := false, flag := flag }

/-- Format E with scope 1. -/
def fe (d a b c : BitVec 8) (flag : BitVec 4) : FmtE := { d := d, a := a, b := b, c := c, scope := 1, opt := 0, flag := flag }

/-- A clause in issue at 0x1000 in lanes 0 and 1. -/
def iss (words : List DWord) : Issue :=
  { hdr := 0x1000, header := 0xFFC4000000000000, words := words, group := 3, idx := 0, cur := 0, prev := none, inCycle := 0, freeAt := 0,
    prods := [], jumps := [], yields := false, seq := 1 }

/-- A cohort on core 0 with 32 vector registers, s1 = 5, s2 = −3, s3 = 0x40, s11 = 128, s14 a list descriptor of one entry, and values in v4. -/
def ag (words : List DWord) : Agent :=
  { kind := .cohort, core := 0, home := 0, sched := 0, block := 70, ctx := 1, level := .u, index := 0, alloc := 32, first := 0, age := 1,
    prio := 0
    regs := { Regs.zero with s := [(1, 5), (2, 0xFFFFFFFFFFFFFFFD), (3, 0x40), (11, 128), (14, 0x100000000)], v := [(128, 7), (129, 9)], k := [(3, 1)] }
    flags := [], lanes := List.replicate 32 .ready, count := 0, prevSet := 0, skip := 0, yielded := false, traps := [], bara := [],
    ladle := LadleData.none, hub := HubData.reset, started := true, issue := some (iss words) }

/-- A shape record: format, scratchpad or memory, first stride, first two extents (R68). -/
def shape (fmt space str e0 e1 : Nat) : BitVec 512 :=
  BitVec.ofNat 512 (fmt * 2 ^ 64 + space * 2 ^ 68 + e0 * 2 ^ 128 + e1 * 2 ^ 160 + 2 ^ 192 + 2 ^ 224 + str * 2 ^ 256)

/-- Its block: 4 KiB of scratchpad; slot 0 an f32 tile in scratchpad, slot 1 a row of 64 elements in memory, slot 2 a
16-bit panel in scratchpad. -/
def blk : Block :=
  { launch := 80, child := 0, linear := 0, core := 0, home := 0, ctx := 1, team := 0
    needs := { cohorts := 1, regs := 32, scratch := 1, acc := 2, shapes := 4, events := 4, cbooks := 2 }
    spm := [], acc := [], sh := [(0, shape 6 1 0 128 128), (1, shape 6 0 4 64 1), (2, shape 8 1 0 128 128)], cb := [], ec := [], mst := 0, bconf := 0, poison := [], retired := [] }

/-- Reset without agents. -/
def rs : State := { State.reset with agents := [] }

/-- The machine with that cohort's clause in issue. -/
def st (words : List DWord) : State :=
  { rs with agents := [(64, ag words)], blocks := [(70, blk)], turn := .agent 64, nextId := 100 }

/-- What an unpredicated word of it sees. -/
def env (words : List DWord) : Env := envOf p0 false 64 (ag words) (iss words)

/-- An instruction of that cohort in flight, with one part. -/
def op (i : Instr) (lane : Nat) (va : DWord) (p : PartState) : Op :=
  { instr := i, agent := 64, ctx := 1, level := .u, core := 0, block := 70, pc := 0x1000, word := 1, seq := 1, clause := 1, active := 1, group := 1,
    vals := [], cmps := [], args := [], parts := [{ lane := lane, va := va, st := p, xs := [], val := 0 }], flag := 2, acted := 0 }

/-- The machine with one instruction in flight. -/
def stOp (o : Op) : State := { st [] with ops := [(100, o)] }

/-- A command of that cohort. -/
def cmd (i : Instr) (c : CmdState) : Cmd :=
  { instr := i, agent := 64, block := 70, core := 0, ctx := 1, level := .u, pc := 0x1000, word := 1, slot := 0, active := 3, seq := 1
    queues := queuesOf i, recs := recsFor (st []) 70 i, args := [], vals := [], st := c, next := 0, flying := [], landed := [],
    bits := [], marks := [], list := [], res := 0, stopped := false, flag := 15, clause := 0, lanes := 0, entry := 0 }

/-- The machine with one command, number 200, and credit. -/
def stCmd (c : Cmd) : State := { st [] with cmds := [(200, c)], hub := { Hub.reset with credits := [(0, 100)] } }

/-- Page 0 is described and resident in HBM; context 1 of the hypervisor maps the first 2 GiB to themselves. -/
def mapped (s : State) : State :=
  let s1 := { s with plat := { s.plat with pltlim := 2 }
                     hub := { s.hub with ctxs := [(0, Ctx.reset), (1, { Ctx.reset with s1root := 0x8001 })] } }
  let s2 := setPageEntry s1 0 (residentEntry 0)
  spaWriteBytes (spaWriteBytes s2 0 0x8000 (toBytes 0x10001 8)) 0 0x10000 (toBytes 0xC000000000001CDF 8)

/-- Queue 0 of context 1, enabled, with 16 entries at 0x20000, and its hub thread. -/
def ring (wr rd : BitVec 32) : Queue := { Queue.reset with cfg := 0x400000001, base := 0x20000, wr := wr, rd := rd }

/-- A packet of queue 0. -/
def pkt (bits : BitVec 512) (n : Nat) : Packet :=
  { queue := 0, pos := 0, bits := bits, st := n, status := 0, detail := 0, sig := false, group := none, prog := 0, todo := [], failed := false,
    seq := 0, ver := 0, entry := 0 }

/-- The machine with queue 0, some packets of it, and credit for the hub. -/
def stPkt (q : Queue) (l : List Packet) : State :=
  mapped { rs with agents := [(0, Agent.hubThread 0)]
                   hub := { Hub.reset with queues := [(0, q)], packets := l, hubCredit := [(0, 100)] } }

end Sys2Proof.Tests
end

