-- ==== Sys2Proof/Tests/Slice0.lean ====
section
/-! SUPPORT. Tests: decoding, ill-formed terms, single steps, and a witness for the hypotheses of every statement. -/

namespace Sys2Proof.Tests

set_option Elab.async false

open Sys2Proof Sys2Proof.Machine Sys2Proof.Claims

/-! ### Decoding: words that the spec prints -/

/-- R204's example: SCMP with stall 1. -/
theorem test_decode_scmp : decodeWord 0x0448000240400682 = .ok (.scmp { p0 with stall := 1 } { fr 0 9 1 0 with ty := 13, sub := 2 }) := by decide
/-- R271's example: three accumulators, K = 64. -/
theorem test_decode_mma : decodeWord 0x9B800000007FCB11 = .ok (.mma p0 { fe 0 0 1 255 1 with opt := 0x31 }) := by decide
/-- R317's example: MOVPR s9, ctx. -/
theorem test_decode_movpr : decodeWord 0xC040024040000000 = .ok (.movpr p0 (fr 9 1 0 0)) := by decide
/-- R412's word: UNPIN s10. -/
theorem test_decode_unpin : decodeWord 0x9040028040008202 = .ok (.unpin p0 (fm 10 1 2 0 2)) := by decide
/-- R412's host words. -/
theorem test_decode_xunpin : decodeHost 0x00B51E0B = .ok (.xunpin 28 10 11) := by decide
theorem test_decode_xwaitva : decodeHost 0x00064E8B = .ok (.xwaitvaW 29 12 0) ∧ decodeHost 0x0096CE8B = .ok (.xwaitvaW 29 13 9) := by decide
theorem test_decode_xwakeva : decodeHost 0x00065F8B = .ok (.xwakeva 31 12 0) := by decide
/-- R412's header of K1: COUNT 1, CLASS 1. -/
theorem test_header : (headerOf 0xFFC4800000000000).mark = 0x3FF ∧ (headerOf 0xFFC4800000000000).count = 1 ∧ (headerOf 0xFFC4800000000000).cls = 1 := by
  decide

/-! ### Decoding: words written out from the formats, one a group -/

/-- KAND k1, k2, k3: OP 0x041 in bits 63 to 54, D, A and B. -/
theorem test_decode_kand : decodeWord (0x041 <<< 54 ||| 1 <<< 38 ||| 2 <<< 30 ||| 3 <<< 22) = .ok (.kand p0 (fr 1 2 3 0)) := by decide
/-- RED: ATOP in C, ORD in bits 13 and 12, scope 1, MTYPE 5, flag 15. -/
theorem test_decode_red : decodeWord (0x1C9 <<< 54 ||| 2 <<< 30 ||| 1 <<< 9 ||| 5 <<< 5 ||| 15) = .ok (.red p0 { fm 0 2 0 5 15 with scope := 1 }) := by decide
/-- FENCE: ORD 3, SC. -/
theorem test_decode_fence :
    decodeWord (0x1CA <<< 54 ||| 3 <<< 12 ||| 4 <<< 9 ||| 1 <<< 4 ||| 15) = .ok (.fence p0 { fm 0 0 0 0 15 with ord := 3, scope := 4, sc := true }) := by
  decide

/-- BRA k3: OP 0x061, PRED in bits 50 to 47, OFS −1 in bits 29 to 0. -/
theorem test_decode_bra : decodeWord (0x061 <<< 54 ||| 3 <<< 47 ||| 0x3FFFFFFF) = .ok (.bra { p0 with pred := 3 } { d := 0, a := 0, ofs := 0x3FFFFFFF }) := by
  decide
/-- VADD.n32.sat, VFADD.f32.rtz, VCVT f32 from the type in C, VSHFL with its mask in C. -/
theorem test_decode_vector :
    decodeWord (0x082 <<< 54 ||| 5 <<< 38 ||| 6 <<< 30 ||| 7 <<< 22 ||| 5 <<< 7 ||| 1 <<< 4) = .ok (.vadd p0 { fr 5 6 7 0 with ty := 5, sat := true }) ∧
    decodeWord (0x100 <<< 54 ||| 5 <<< 38 ||| 6 <<< 30 ||| 7 <<< 22 ||| 6 <<< 7 ||| 1 <<< 5) = .ok (.vfadd p0 { fr 5 6 7 0 with ty := 6, rnd := 1 }) ∧
    decodeWord (0x180 <<< 54 ||| 5 <<< 38 ||| 6 <<< 30 ||| 4 <<< 14 ||| 6 <<< 7) = .ok (.vcvt p0 { fr 5 6 0 4 with ty := 6 }) ∧
    decodeWord (0x1A0 <<< 54 ||| 5 <<< 38 ||| 6 <<< 30 ||| 7 <<< 22 ||| 3 <<< 14) = .ok (.vshfl p0 (fr 5 6 7 3)) := by decide
/-- WAITVA: D, SB, SCOPE 1, MTYPE 5, no flag; RDH: D, A, B and C, SCOPE 1, flag 3. -/
theorem test_decode_waits :
    decodeWord (0x203 <<< 54 ||| 4 <<< 38 ||| 3 <<< 30 ||| 1 <<< 9 ||| 5 <<< 5 ||| 15) = .ok (.waitva p0 (fm 4 3 0 5 15)) ∧
    decodeWord (0x267 <<< 54 ||| 2 <<< 38 ||| 10 <<< 30 ||| 12 <<< 22 ||| 5 <<< 14 ||| 1 <<< 11 ||| 3) = .ok (.rdh p0 (fe 2 10 12 5 3)) := by decide

/-! ### Ill-formed terms are refused -/

/-- R174: a field that the instruction does not use. -/
theorem test_bad_unused : wellFormed (.smov p0 (fr 1 2 3 0)) = false := by decide
/-- R174: a TYPE that it does not accept. -/
theorem test_bad_type : wellFormed (.smulh p0 (fr 1 2 3 0)) = false := by decide
/-- R174: a register outside its file: s64, and k16. -/
theorem test_bad_register : wellFormed (.sadd p0 (fr 64 2 3 0)) = false ∧ wellFormed (.kand p0 (fr 1 2 16 0)) = false := by decide
/-- R174: an immediate that is out of range. -/
theorem test_bad_immediate : wellFormed (.trap p0 { d := 0, a := 0, imm := 0x10000 }) = false := by decide
/-- R174: scope 6, and flag 12. -/
theorem test_bad_scope : wellFormed (.ld p0 { fm 4 1 0 5 2 with scope := 6 }) = false ∧ wellFormed (.ld p0 (fm 4 1 0 5 12)) = false := by decide
/-- R174, R237: a load with release order, and an operation that its type does not accept. -/
theorem test_bad_order : wellFormed (.ld p0 { fm 4 1 0 5 2 with ord := 2 }) = false ∧ wellFormed (.red p0 (fm 0 1 15 5 15)) = false := by decide
/-- R174: a barrier of scope 0. -/
theorem test_bad_barrier : wellFormed (.bar p0 { fm 0 0 0 0 15 with scope := 0 }) = false := by decide
/-- R315: a privileged register that does not exist. -/
theorem test_bad_privileged : wellFormed (.movpr p0 (fr 9 15 0 0)) = false := by decide
/-- R174: no accumulator. -/
theorem test_bad_matrix : wellFormed (.mma p0 { fe 0 0 1 255 1 with opt := 0x01 }) = false := by decide
/-- R175: a relative field is one of the fields that the form has. -/
theorem test_bad_relative : wellFormed (.vfma p0 { fr 4 5 6 7 with rel := 1, ty := 6 }) = false := by decide
/-- The decoder refuses such words, and an opcode without a row, by name. -/
theorem test_decode_refused : decodeWord 0x0000004080C00000 = .error .field ∧ decodeWord (0x3FE <<< 54) = .error .opcode ∧
    decodeHost 0x0000700B = .error .hostWord := by decide

/-! ### Single steps -/

/-- The value that a word gives a target. -/
def wrote (words : List DWord) (i : Instr) (t : Target) : Option DWord :=
  match exec i (st words) with
  | .next s => (match aget s.agents 64 with
    | some ag => ag.issue.map (fun iss => readTarget ag.regs iss.prods 100 t)
    | none => none)
  | _ => none

/-- s1 = 5, s2 = −3. -/
theorem test_sadd_wraps : wrote [] (.saddi p0 { d := 9, a := 2, imm := 3 }) (.s 9) = some 0 := by decide +kernel
theorem test_smulh : wrote [] (.smulh p0 { fr 9 2 1 0 with ty := 13 }) (.s 9) = some 0xFFFFFFFFFFFFFFFF := by decide +kernel
/-- R203: 5 / −3 is rounded toward zero, and the remainder has the sign of the dividend. -/
theorem test_sdiv : wrote [] (.sdiv p0 { fr 9 1 2 0 with ty := 13 }) (.s 9) = some 0xFFFFFFFFFFFFFFFF := by decide +kernel
theorem test_srem : wrote [] (.srem p0 { fr 9 1 2 0 with ty := 13 }) (.s 9) = some 2 := by decide +kernel
/-- R204: a count of 64. -/
theorem test_sshl : wrote [] (.sshl p0 (fr 9 1 3 0)) (.s 9) = some 0 := by decide +kernel
/-- s0 reads zero. -/
theorem test_zero : wrote [] (.sadd p0 (fr 0 1 1 0)) (.s 0) = some 0 := by decide +kernel
/-- v4 holds 7 in lane 0 and 9 in lane 1. -/
theorem test_vadd : wrote [] (.vadd p0 { fr 5 4 4 0 with ty := 4 }) (.v 5 1) = some 18 := by decide +kernel
/-- R227: 7 as an f32. -/
theorem test_vcvt : wrote [] (.vcvt p0 { fr 5 4 0 5 with ty := 6 }) (.v 5 0) = some 0x40E00000 := by decide +kernel
/-! ### Witnesses: the hypotheses of the statements can be met -/

theorem wordRunning : Running (st []) p0 false (env []) := ⟨64, ag [], iss [], rfl, rfl⟩

theorem witness_DecodedWords : opOf 0xFFC8000800000000 = 0x3FF := by decide

theorem witness_EncodeDecodeRoundTrip : ∃ c, wellFormed (.sadd p0 (fr 1 2 3 0)) = true ∧ encode (.sadd p0 (fr 1 2 3 0)) = some c :=
  ⟨_, by decide, rfl⟩

theorem witness_DecodeEncodeRoundTrip :
    (∃ i, decodeWord 0x00C0024240000001 = .ok i) ∧ ∃ i, decodeHost 0x00B50E0B = .ok i := ⟨⟨_, rfl⟩, ⟨_, rfl⟩⟩

theorem witness_StepRuns_event : ({ rs with agenda := [.bucketRefill] } : State).agenda = .bucketRefill :: [] := rfl

/-- A state in which the word at the head is SADDI s9, s9, 1. -/
def stAdd : State := st [0x00C0024240000001]

theorem witness_StepRuns_word : ∃ ag iss w i t, stAdd.agenda = [] ∧ stAdd.turn = .agent 64 ∧ aget stAdd.agents 64 = some ag ∧
    ag.issue = some iss ∧ iss.words[iss.idx]? = some w ∧ decodeWord w = .ok i ∧ readChecked stAdd 64 ag iss w i = none ∧
    exec i stAdd = .next t ∧ stAdd.mem.errs = [] :=
  ⟨_, _, _, _, _, rfl, rfl, rfl, rfl, rfl, rfl, rfl, rfl, rfl⟩

theorem witness_StepRuns_end : ∃ ag iss, (st []).agenda = [] ∧ (st []).turn = .agent 64 ∧ aget (st []).agents 64 = some ag ∧
    ag.issue = some iss ∧ iss.words[iss.idx]? = none := ⟨_, _, rfl, rfl, rfl, rfl, rfl⟩

/-! The words of a running clause: two lanes at an unpredicated word (`wordRunning`), no lane behind a predicate. -/

theorem witness_ScalarResults : Running (st []) p0 false (env []) ∧ (env []).pass ≠ 0#32 := ⟨wordRunning, by decide⟩

theorem witness_ScalarFlagResults : Running (st []) p0 false (env []) ∧ (env []).pass ≠ 0#32 := witness_ScalarResults

/-- s1 = 5 is divided by s2 = −3, and by s0 = 0. -/
theorem witness_ScalarDivide :
    Running (st []) p0 false (env []) ∧ (env []).pass ≠ 0#32 ∧ rdS (env []) 2 ≠ 0 ∧ rdS (env []) 0 = 0 :=
  ⟨wordRunning, by decide, by decide, by decide⟩

theorem witness_DivisionLaw : (0xFFFFFFFFFFFFFFFF : DWord) ≠ 0 ∧ (0x8000000000000000 : DWord).toInt < 0 ∧ 0 ≤ (5 : DWord).toInt := by
  decide

theorem witness_FieldBits : Running (st []) p0 false (env []) ∧ (env []).pass ≠ 0#32 := witness_ScalarResults

theorem witness_SpecialMoves : (Running (st []) p0 false (env []) ∧ (env []).pass ≠ 0#32) ∧
    (fr 0 0 0 0).a = 0 ∧ (fr 0 14 0 0).a ≠ 0 ∧ (fr 0 14 0 0).a = 0x0E ∧ (fr 0 15 0 0).a = 0x0F ∧ (fr 0 16 0 0).a = 0x10 ∧
    aget (st []).blocks (env []).ag.block = some blk :=
  ⟨witness_ScalarResults, by decide, by decide, by decide, by decide, by decide, rfl⟩

/-- KMOV with SUB 3; KSET with lo + n = 33. -/
theorem witness_MaskResults : (Running (st []) p0 false (env []) ∧ (env []).pass ≠ 0#32) ∧
    opOf 0x1000000000000003 = 0x040 ∧ 3 ≤ (fmtR 0x1000000000000003).sub.toNat ∧ opOf 0x11C0000000000401 = 0x047 ∧
    32 < (fmtI 0x11C0000000000401).imm.toNat % 32 + (fmtI 0x11C0000000000401).imm.toNat / 32 % 64 :=
  ⟨witness_ScalarResults, by decide⟩

theorem witness_ControlTransfers : Running (st []) p0 false (env []) ∧ (env []).pass ≠ 0#32 := witness_ScalarResults

theorem witness_StrandEnds : Running (st []) p0 false (env []) ∧ (env []).pass ≠ 0#32 := witness_ScalarResults

/-- Predicate k5 holds in no lane. -/
def pNo : Pfx := { stall := 0, pred := 5, neg := false }

theorem witness_NoPassingLane :
    Running (st []) pNo false (envOf pNo false 64 (ag []) (iss [])) ∧ (envOf pNo false 64 (ag []) (iss [])).pass = 0#32 :=
  ⟨⟨64, ag [], iss [], rfl, rfl⟩, by decide⟩

/-- An unrelative word has no relative operand out of place. -/
theorem relFine (i : Instr) (r : FmtR) (h : r.rel = 0) : RelFine (env []) i r := by
  refine ⟨?_, by simp [relOverlap, h]⟩
  unfold relBad
  rw [List.filter_eq_nil_iff.2 (by intro l _; simp [h])]
  rfl

theorem witness_VectorArithmetic : Running (st []) p0 false (env []) ∧ RelFine (env []) (.vadd p0 (fr 4 5 6 0)) (fr 4 5 6 0) :=
  ⟨wordRunning, relFine _ _ rfl⟩

theorem witness_NarrowLaw :
    (0 : Nat) < 8 ∧ (intMin true 8 ≤ 127 ∧ 127 ≤ intMax true 8) ∧ -129 < intMin true 8 ∧ intMax true 8 < 128 := by decide

theorem witness_VectorBits : Running (st []) p0 false (env []) ∧ RelFine (env []) (.vbfi p0 (fr 4 5 6 7)) (fr 4 5 6 7)
    ∧ RelFine (env []) (.vdot4 p0 (fr 4 5 6 7)) (fr 4 5 6 7) ∧ RelFine (env []) (.vidx p0 (fr 4 1 2 0)) (fr 4 1 2 0) :=
  ⟨wordRunning, relFine _ _ rfl, relFine _ _ rfl, relFine _ _ rfl⟩

theorem witness_VectorCompares : Running (st []) p0 false (env []) ∧ Running (st []) p0 ((fr 2 4 5 0).ty == 0x0C) (env [])
    ∧ RelFine (env []) (.vcmp p0 (fr 2 4 5 0)) (fr 2 4 5 0) ∧ RelFine (env []) (.vfcmp p0 (fr 2 4 5 0)) (fr 2 4 5 0)
    ∧ RelFine (env []) (.vaddc p0 (fr 6 4 5 2)) (fr 6 4 5 2) :=
  ⟨wordRunning, wordRunning, relFine _ _ rfl, relFine _ _ rfl, relFine _ _ rfl⟩

theorem witness_FloatArithmetic : Running (st []) p0 ((fr 6 4 5 7).ty == 0x0C) (env []) ∧ Running (st []) p0 false (env [])
    ∧ RelFine (env []) (.vfma p0 (fr 6 4 5 7)) (fr 6 4 5 7) ∧ RelFine (env []) (.vfrcp p0 (fr 6 4 0 0)) (fr 6 4 0 0) :=
  ⟨wordRunning, wordRunning, relFine _ _ rfl, relFine _ _ rfl⟩

theorem witness_Conversions : Running (st []) p0 ((fr 6 4 5 6).ty == 0x0C || (fr 6 4 5 6).c.toNat % 32 == 0x0C) (env [])
    ∧ Running (st []) p0 false (env []) ∧ RelFine (env []) (.vcvt p0 (fr 6 4 5 6)) (fr 6 4 5 6)
    ∧ RelFine (env []) (.vpack8 p0 (fr 6 8 0 0)) (fr 6 8 0 0) :=
  ⟨wordRunning, wordRunning, relFine _ _ rfl, relFine _ _ rfl⟩

theorem witness_CrossLaneMoves : Running (st []) p0 false (env []) ∧ (env []).pass ≠ 0#32 := witness_ScalarResults

theorem witness_ReductionSum : ({ fr 1 4 0 3 with ty := 0x05 } : FmtR).sub = 0 ∧ ({ fr 1 4 0 3 with ty := 0x05 } : FmtR).ty = 0x05 ∧
    ({ fr 1 4 0 3 with ty := 0x05 } : FmtR).sat = false := ⟨rfl, rfl, rfl⟩

/-- The relative VMOV: D indexed by v4, whose lane 0 holds 7 and lane 1 holds 9. -/
def relWord (d : BitVec 8) (a : BitVec 8) : FmtR := { fr d a 4 4 with rel := 1 }

theorem witness_RelativeTraps : Running (st []) p0 false (env []) ∧ relBad (env []) (.vmov p0 (relWord 30 8)) (relWord 30 8) ≠ 0#32 ∧
    relBad (env []) (.vadd p0 { relWord 8 17 with ty := 8 }) { relWord 8 17 with ty := 8 } = 0#32 ∧
    relOverlap (env []) (.vadd p0 { relWord 8 16 with ty := 0x0D }) { relWord 8 16 with ty := 0x0D } ≠ 0#32 :=
  ⟨wordRunning, by decide, by decide, by decide⟩

/-! Variable-latency words at issue. -/

theorem witness_MemoryWordsIssue : (Instr.ld p0 (fm 4 3 0 5 2)) ∈ [Instr.ld p0 (fm 4 3 0 5 2)] ∧ Running (st []) p0 false (env []) ∧
    (env []).pass ≠ 0#32 ∧ flagFull (env []).ag (fm 4 3 0 5 2).flag.toNat = false ∧ walksFull (st []) (dieOf (env []).ag.core) = false ∧
    ∀ l ∈ lanesOf (env []).pass, checkAddr (st []) (env []).ag.block (.ld p0 (fm 4 3 0 5 2)) (effAddr (env []) (fm 4 3 0 5 2) l).toNat = none :=
  ⟨by simp, wordRunning, by decide, by decide, by decide, by decide⟩

/-- The last address of 56 bits and the first beyond; a word that is aligned and one that is not. -/
theorem witness_AddressChecks : 2 ^ 56 ≤ 2 ^ 56 ∧ (2 ^ 56 - 1 < 2 ^ 56) ∧ (64 < 2 ^ 56 ∧ windowCheck (st []) 70 64 (mtBytes 5) = none ∧
      (5 : BitVec 4) ≠ 0xE ∧ (5 : BitVec 4) ≠ 0xF ∧ 64 % mtBytes 5 = 0 ∧ 66 % mtBytes 5 ≠ 0 ∧ windowCheck (st []) 70 66 (mtBytes 5) = none) ∧
    windowCheck (st []) 70 66 (mtBytes 0xE) = none ∧ 66 % 4 ≠ 0 ∧ 64 % 4 = 0 := by decide

/-- f2 has 15 accesses outstanding. -/
def agFull : Agent := { ag [] with flags := [(2, 15)] }
/-- The environment of that cohort. -/
def envFull : Env := envOf p0 false 64 agFull (iss [])

/-- A full copy queue. -/
def stQueue : State := { st [] with cmds := (List.range 64).map (fun n => (200 + n, cmd (.cpy p0 (fe 1 1 0 0 0)) .queued)) }

/-- 64 faults stay in the walkers of die 1, and 512 loads of one lane wait for their translations. -/
def stWalks : State :=
  { st [] with hub := { Hub.reset with kept := List.replicate 64 { die := 1, queue := .trap 0, bits := 0, group := none } }
               ops := (List.range 512).map (fun n => (100 + n, op (.ld p0 (fm 4 3 0 5 2)) 0 0x40 .walk)) }

theorem witness_VariableWordsStop_walks : Running stWalks p0 false (env []) ∧ walksFull stWalks (dieOf (env []).ag.core) = true :=
  ⟨⟨64, ag [], iss [], rfl, rfl⟩, by decide +kernel⟩

/-- The store address s1 = 5 is not aligned; the extents of slots 0 and 1 differ. -/
theorem witness_VariableWordsStop :
    walksFull (st []) (dieOf (env []).ag.core) = false ∧
    (Running { st [] with agents := [(64, agFull)] } p0 false envFull ∧ envFull.pass ≠ 0#32 ∧ flagFull envFull.ag (fm 4 3 0 5 2).flag.toNat = true) ∧
    (Running (st []) p0 false (env []) ∧ flagFull (env []).ag (fm 4 1 0 5 2).flag.toNat = false ∧
      ∃ t, laneTrap (st []) (env []) (.st p0 (fm 4 1 0 5 2)) (laneAddrs (env []) (fm 4 1 0 5 2)) = some t) ∧
    (Running stQueue p0 false (env []) ∧ allParked stQueue (env []) = false ∧ noRoom stQueue (env []).ag.core (env []).ag.block (.cpy p0 (fe 1 1 0 0 0)) = true) ∧
    (noRoom (st []) (env []).ag.core (env []).ag.block (.cpy p0 (fe 0 1 0 0 0)) = false ∧ bookOpen (st []) (env []).ag.block (.cpy p0 (fe 0 1 0 0 0)) = false) ∧
      ∃ c, engineCheck (st []) (env []).ag.block (.cpy p0 (fe 0 1 0 0 0)) [] = some c :=
  ⟨by decide, ⟨⟨64, agFull, iss [], rfl, rfl⟩, by decide, by decide⟩, ⟨wordRunning, by decide, Option.isSome_iff_exists.1 (by decide)⟩,
    ⟨⟨64, ag [], iss [], rfl, rfl⟩, by decide, by decide⟩, by decide +kernel, Option.isSome_iff_exists.1 (by decide +kernel)⟩

theorem witness_FenceAndWait : Running (st []) p0 false (env []) ∧ (env []).pass ≠ 0#32 ∧ walksFull (st []) (dieOf (env []).ag.core) = false ∧ flagFull (env []).ag 2 = false ∧
    heldBack (st []) (env []) none = false ∧ (∀ l ∈ lanesOf (env []).pass, checkAddr (st []) (env []).ag.block (.pfh p0 (fm 0 3 0 5 15)) (effAddr (env []) (fm 0 3 0 5 15) l).toNat = none) ∧
    (∀ f ∈ fwaitFlags { fm 0 0 0 0 15 with b := 4 }, flagCount (env []).ag f = 0) ∧
    ∃ f ∈ fwaitFlags { fm 0 0 0 0 15 with b := 4 }, flagCount agFull f ≠ 0 :=
  ⟨wordRunning, by decide, by decide, by decide, by decide, by decide, by decide, 2, by decide, by decide⟩

theorem witness_BarrierWords : Running (st []) p0 false (env []) ∧ (env []).pass ≠ 0#32 ∧ flagFull (env []).ag (fm 0 0 0 0 2).flag.toNat = false ∧
    walksFull (st []) (dieOf (env []).ag.core) = false ∧ heldBack (st []) (env []) none = false ∧
    barPending (st []) (env []).ag 1 0 = false ∧
    barPending (st []) { ag [] with bara := [{ scope := 1, num := 0, phase := 0 }] } 1 0 = true :=
  ⟨wordRunning, by decide, by decide, by decide, by decide, by decide, by decide⟩

/-- The strand of lane 0 has an open fence; and an open store to event counter 1. -/
def stHeld (i : Instr) : State := stOp { op i 0 0 .home with seq := 0, clause := 0 }

theorem witness_HeldWaits : heldBack (stHeld (.fence p0 { fm 0 0 0 0 15 with ord := 3 })) (env []) none = true ∧
    heldBack (stHeld (.fence p0 { fm 0 0 0 0 15 with ord := 3 })) (env []) (some (fm 0 1 1 0 2).c.toNat) = true ∧
    heldBack (stHeld (.ecset p0 (fm 0 1 1 0 2))) (env []) (some (fm 0 1 1 0 2).c.toNat) = true ∧
    heldBack (stHeld (.ecset p0 (fm 0 1 1 0 2))) (env []) (some (fm 0 1 2 0 2).c.toNat) = false := by decide

theorem witness_CounterAndWakeWords : Running (st []) p0 false (env []) ∧ (env []).pass ≠ 0#32 ∧ flagFull (env []).ag 2 = false ∧
    walksFull (st []) (dieOf (env []).ag.core) = false ∧ heldBack (st []) (env []) (some (fm 0 1 1 0 2).c.toNat) = false ∧
    (∀ l ∈ lanesOf (env []).pass, checkAddr (st []) (env []).ag.block (.wakeva p0 (fm 4 3 1 5 2)) (effAddr (env []) (fm 4 3 1 5 2) l).toNat = none) ∧
    (∀ l ∈ lanesOf (env []).pass, checkAddr (st []) (env []).ag.block (.waitva p0 (fm 4 3 1 5 2)) (effAddr (env []) (fm 4 3 1 5 2) l).toNat = none) ∧
    ∀ l ∈ lanesOf (env []).pass, checkAddr (st []) (env []).ag.block (.pin p0 (fm 4 3 1 0 2)) (effAddr (env []) (fm 4 3 1 0 2) l).toNat = none :=
  ⟨wordRunning, by decide, by decide, by decide, by decide, by decide, by decide, by decide⟩

/-- A command of the running clause is ready to enter its queues. -/
abbrev Ready (i : Instr) (args : List DWord) : Prop :=
  flagFull (env []).ag 2 = false ∧ noRoom (st []) (env []).ag.core (env []).ag.block i = false ∧ bookOpen (st []) (env []).ag.block i = false ∧
    walksFull (st []) (dieOf (env []).ag.core) = false ∧
    engineCheck (st []) (env []).ag.block i args = none

/-- Slots 1 and 1 agree; slot 0 is an f32 tile; slot 2 a panel; s14 names a list of one entry; a range from s0 of s11 = 128 bytes. -/
theorem witness_EngineCommandsIssue : (Running (st []) p0 false (env []) ∧ (env []).pass ≠ 0#32 ∧ allParked (st []) (env []) = false) ∧
    (Ready (.cpy p0 (fe 1 1 0 0 2)) [] ∧ Ready (.cpyg p0 (fe 1 1 14 0 2)) [rdS (env []) 14] ∧
      Ready (.rdh p0 (fe 1 0 0 0 2)) [rdS (env []) 0, rdS (env []) 1, rdS (env []) 0] ∧
      Ready (.rdhg p0 (fe 1 0 13 0 2)) [rdS (env []) 0, rdS (env []) 1, rdS (env []) 13, rdS (env []) 14] ∧
      Ready (.sub p0 (fe 0 10 12 0 2)) [rdS (env []) 10, rdS (env []) 11, rdS (env []) 12, rdS (env []) 13] ∧
      Ready (.unsub p0 (fe 0 1 0 0 2)) [rdS (env []) 1]) ∧
    (Ready (.mma p0 { fe 0 2 2 0 2 with opt := 16 }) [] ∧ Ready (.mmz p0 { fe 0 0 0 0 2 with opt := 16 }) [] ∧
      Ready (.accld p0 { fe 0 0 0 0 2 with opt := 16 }) [] ∧ Ready (.accst p0 { fe 0 0 255 255 2 with opt := 16 }) [] ∧
      Ready (.accrd p0 (fe 0 0 1 0 2)) [rdS (env []) 1] ∧ Ready (.accwr p0 (fe 0 4 1 0 2)) [rdS (env []) 1] ∧
      Ready (.qfence p0 { fe 0 0 0 0 2 with opt := 1 }) []) ∧
    Ready (.flushr p0 (fm 1 3 0 0 2)) [rdS (env []) 3, rdS (env []) 1] ∧ Ready (.invr p0 (fm 1 3 0 0 2)) [rdS (env []) 3, rdS (env []) 1] ∧
    Ready (.pubfl p0 (fe 0 0 0 0 2)) [] :=
  ⟨⟨wordRunning, by decide, by decide⟩, by decide +kernel, by decide +kernel, by decide +kernel, by decide +kernel, by decide +kernel⟩

theorem witness_SlotAndRingWords : Running (st []) p0 false (env []) ∧ (env []).pass ≠ 0#32 ∧ flagFull (env []).ag (fe 0 3 0 0 2).flag.toNat = false ∧
    walksFull (st []) (dieOf (env []).ag.core) = false ∧
    (noRoom (st []) (env []).ag.core (env []).ag.block (.ldsh p0 (fe 0 3 0 0 2)) = false ∧ bookOpen (st []) (env []).ag.block (.ldsh p0 (fe 0 3 0 0 2)) = false) ∧
    shapeAddr (st []) (env []) 64 64 = none ∧
    shapeAddr (st []) (env []) 64 32 = none ∧ allParked (st []) (env []) = false ∧ heldBack (st []) (env []) none = false :=
  ⟨wordRunning, by decide, by decide, by decide, by decide, by decide, by decide, by decide, by decide⟩

/-- A range of s1 = 5 bytes at 0x40; one that ends beyond 56 bits; a scratchpad byte offset; a guest's own context. -/
theorem witness_SystemWordsIssue : Running (st []) p0 false (env []) ∧ (env []).pass ≠ 0#32 ∧ flagFull (env []).ag (fe 0 3 1 0 2).flag.toNat = false ∧
    (rdS (env []) 3).toNat + (rdS (env []) 1).toNat ≤ 2 ^ 56 ∧ 2 ^ 56 < (rdS (env []) 2).toNat + (rdS (env []) 1).toNat ∧
    ecciCheck (st []) (env []) [rdS (env []) 0, rdS (env []) 1] = none ∧ wwendBad (st []) (env []) 2 5 = false :=
  ⟨wordRunning, by decide, by decide, by decide, by decide, by decide, by decide⟩

/-- A guest at S names the context of another guest in `wwend`. -/
def agS : Agent := { ag [] with level := .s }
/-- Contexts 1 and 2 of two guests. -/
def stS : State :=
  { st [] with agents := [(64, agS)], hub := { Hub.reset with ctxs := [(0, Ctx.reset), (1, { Ctx.reset with vmid := 1 }), (5, { Ctx.reset with vmid := 2 })] } }

theorem witness_SystemWordsIssue_wwend :
    Running stS p0 false (envOf p0 false 64 agS (iss [])) ∧ wwendBad stS (envOf p0 false 64 agS (iss [])) 0x0A (rdS (env []) 1) = true :=
  ⟨⟨64, agS, iss [], rfl, rfl⟩, by decide⟩

/-! Instructions in flight and engine events. -/

/-- A load before its walk, a store at its home, a releasing store, a performed load, a system instruction. -/
theorem witness_AccessSteps :
    (let o := op (.ld p0 (fm 4 3 0 5 2)) 0 0x40 .walk
     ∃ p, aget (stOp o).ops 100 = some o ∧ partAt o 0 = some p ∧ p.st = .walk ∧ partReady (stOp o) o p = true ∧
       walkTurn (stOp o) (dieOf o.core) 100 = true) ∧
    (let o := op (.st p0 (fm 4 3 0 5 2)) 0 0x40 .home
     ∃ p, aget (stOp o).ops 100 = some o ∧ partAt o 0 = some p ∧ p.st = .home ∧ partReady (stOp o) o p = true ∧ isRelease o = false) ∧
    (let o := op (.st p0 { fm 4 3 0 5 2 with ord := 2 }) 0 0x40 .home
     ∃ p, aget (stOp o).ops 100 = some o ∧ partAt o 0 = some p ∧ p.st = .home ∧ partReady (stOp o) o p = true ∧ isRelease o = true ∧
       releaseWaits (releaseOut (stOp o) o.core o.block (releaseScope o)) o.core o.block (releaseScope o) = false) ∧
    (let o := op (.ld p0 (fm 4 3 0 5 2)) 0 0x40 .done
     ∃ p, aget (stOp o).ops 100 = some o ∧ partAt o 0 = some p ∧ completable (stOp o) o = true) ∧
    (let o := op (.lcinvAll p0 { fe 0 0 0 0 2 with opt := 1 }) 32 0 .home
     ∃ p, aget (stOp o).ops 100 = some o ∧ partAt o 32 = some p ∧ kindOf o.instr = .system ∧ p.st = .home ∧ partReady (stOp o) o p = true ∧
       emptyRange o = false ∧ systemReleases o.instr = false) :=
  ⟨⟨_, rfl, rfl, rfl, rfl, rfl⟩, ⟨_, rfl, rfl, rfl, rfl, rfl⟩, ⟨_, rfl, rfl, rfl, rfl, rfl, rfl⟩, ⟨_, rfl, rfl, rfl⟩,
    ⟨_, rfl, rfl, rfl, rfl, rfl, rfl, rfl⟩⟩

/-- A counter operation; an access to byte 64 of the local window of block 70. -/
theorem witness_HomeEffects :
    (op (.ecset p0 (fm 0 1 1 0 2)) 32 0 .home).instr = .ecset p0 (fm 0 1 1 0 2) ∧
    (op (.ecadd p0 (fm 0 1 1 0 2)) 32 0 .home).instr = .ecadd p0 (fm 0 1 1 0 2) ∧
    (op (.ecq p0 (fm 4 0 1 0 2)) 32 0 .home).instr = .ecq p0 (fm 4 0 1 0 2) ∧
    isWindow 0x00FE000000000040 = true ∧ windowAt (st []) 70 0x00FE000000000040 = some (70, 64) ∧
    spmPoisoned (spmFind (st []) 70 64 4) 70 64 4 = false :=
  ⟨rfl, rfl, rfl, by decide, by decide, by decide⟩

/-- A queued copy, a copy with its one burst open, one that is done; an `MMA` in the engine; a read with its first burst to request. -/
theorem witness_EngineSteps :
    (let c := cmd (.cpy p0 (fe 1 1 0 0 0)) .queued
     aget (stCmd c).cmds 200 = some c ∧ mayStart (stCmd c) c = true ∧ isQfence c.instr = false ∧ savingCtx (stCmd c) c.ctx = false ∧
       c.queues ≠ [.mx]) ∧
    (let c := cmd (.cpy p0 (fe 1 1 0 0 0)) .complete
     aget (stCmd c).cmds 200 = some c ∧ c.st = .complete) ∧
    (let c := cmd (.mma p0 { fe 0 2 2 0 2 with opt := 16 }) .running
     (stCmd c).cmds.find? (fun p => p.2.core == 0 && p.2.queues == [.mx] && p.2.st == .running) = some (200, c) ∧ c.next < mxCycles c) ∧
    (let c := { cmd (.mma p0 { fe 0 2 2 0 2 with opt := 16 }) .running with next := 4096 }
     (stCmd c).cmds.find? (fun p => p.2.core == 0 && p.2.queues == [.mx] && p.2.st == .running) = some (200, c) ∧ mxCycles c ≤ c.next ∧
       c.instr = .mma p0 { fe 0 2 2 0 2 with opt := 16 }) :=
  ⟨⟨rfl, by decide +kernel, rfl, rfl, by decide⟩, ⟨rfl, rfl⟩, ⟨rfl, by decide +kernel⟩, rfl, by decide +kernel, rfl⟩

theorem witness_EngineSteps_copy :
    let c := cmd (.cpy p0 (fe 1 1 0 0 0)) .running
    aget (stCmd c).cmds 200 = some c ∧ c.st = .running ∧ isCopy c.instr = true ∧ ((copyBursts c)[0]?).isSome = true ∧ c.bits.contains 0 = false ∧
      marked c 0 = false ∧ creditOn (stCmd c) c.core = true ∧ savingCtx (stCmd c) c.ctx = false ∧
      0 ≤ lowBurst c (copyBursts c).length + 8192 :=
  ⟨rfl, rfl, rfl, by decide +kernel, rfl, rfl, by decide +kernel, rfl, Nat.zero_le _⟩

theorem witness_EngineSteps_read :
    let c := cmd (.rdh p0 (fe 1 0 0 0 0)) .running
    aget (stCmd c).cmds 200 = some c ∧ c.st = .running ∧ isRead c.instr = true ∧ c.stopped = false ∧ creditOn (stCmd c) c.core = true ∧
      savingCtx (stCmd c) c.ctx = false ∧ bufferUse (stCmd c) c.core < 128 ∧ earlierRequests (stCmd c) c = false ∧
      (nextBurst (stCmd c) 200 c).isSome = true :=
  ⟨rfl, rfl, rfl, rfl, by decide +kernel, rfl, by decide +kernel, by decide +kernel, by decide +kernel⟩

/-- A pair from its first part. -/
theorem pair_of {α β : Type} {x : α × β} {a : α} (h : x.1 = a) : ∃ b, x = (a, b) := ⟨x.2, by rw [← h]⟩

/-- A place has been reached, and its bytes can be taken without error (from the state that `f` makes of it). -/
def reached (f : State → List Seg → State) (r : Reach × State) (w : Who) (n : Nat) : Bool :=
  match r.1 with
  | .mem segs => (takeBytes (f r.2 segs) w n (.mem segs)).1.bad.isNone
  | _ => false

/-- What `reached` says. -/
theorem reached_spec {f : State → List Seg → State} {r : Reach × State} {w : Who} {n : Nat} (h : reached f r w n = true) :
    ∃ segs s1 got s2, r = (.mem segs, s1) ∧ takeBytes (f s1 segs) w n (.mem segs) = (got, s2) ∧ got.bad = none := by
  obtain ⟨x, s1⟩ := r
  cases x <;> simp only [reached, Bool.false_eq_true] at h
  exact ⟨_, s1, _, _, rfl, rfl, Option.isNone_iff_eq_none.1 h⟩

/-- The read of slot 1 with its first burst on the way, over the mapped page. -/
def flying : Cmd := { cmd (.rdh p0 (fe 1 0 0 0 0)) .running with flying := [0] }

/-- It counts its requests as its command and burst do. -/
def landing (s : State) (segs : List Seg) : State := countBurst s (burstWho 200 flying 0) .read segs

theorem witness_EngineSteps_landing : ∃ b segs s1 got s2, aget (mapped (stCmd flying)).cmds 200 = some flying ∧ (readBursts flying)[0]? = some b ∧
    flying.flying.contains 0 = true ∧
    probe (mapped (stCmd flying)) (burstWho 200 flying 0) (burstRange b).1 (burstRange b).2 .read = (.mem segs, s1) ∧
    takeBytes (landing s1 segs) (burstWho 200 flying 0) (burstRange b).2 (.mem segs) = (got, s2) ∧ got.bad = none := by
  have h1 : ((readBursts flying)[0]?).any (fun b => reached landing
      (probe (mapped (stCmd flying)) (burstWho 200 flying 0) (burstRange b).1 (burstRange b).2 .read) (burstWho 200 flying 0) (burstRange b).2) = true := by
    decide +kernel
  obtain ⟨b, hb, h2⟩ := (Option.any_eq_true _ _).1 h1
  obtain ⟨segs, s1, got, s2, h3⟩ := reached_spec h2
  exact ⟨b, segs, s1, got, s2, rfl, hb, rfl, h3⟩

theorem witness_EngineSteps_update :
    let u : Update := { id := 5, core := 0, scrib := 0, index := 0, bytes := [(0, 1)] }
    let s := { rs with mem := { MemSys.reset with sent := [u] } }
    s.mem.sent.find? (fun u => u.id == 5) = some u ∧ ∀ v ∈ s.mem.sent, v.id < u.id → sameLine v u = false := by decide

/-- A landed burst of a read; a ladle of that read whose strands have exited; the read waiting for its finale. -/
def landed : Cmd := { cmd (.rdh p0 (fe 1 0 0 0 0)) .running with landed := [(7, 0, [])] }
/-- The ladle, in slot 3 of core 0. -/
def ladleOver : Agent :=
  { ag [] with kind := .ladle, index := 3, lanes := List.replicate 32 .exited, ladle := { LadleData.none with read := 200 }, issue := none }
/-- The machine with that ladle and its read. -/
def stLadle : State := { stCmd (cmd (.rdh p0 (fe 1 0 0 0 0)) .running) with agents := [(64, ladleOver)] }
/-- The cohort at its end. -/
def finished : Agent := { ag [] with lanes := List.replicate 32 .exited, issue := none }
/-- A launch packet of one block of one cohort with 8 vector registers. -/
def launchBits : BitVec 512 := BitVec.ofNat 512 (1 + 2 ^ 64 + 2 ^ 70 + 2 ^ 256 + 2 ^ 288 + 2 ^ 304)
/-- A started launch that no block is placed of. -/
def launch : Launch :=
  { queue := 0, ctx := 1, children := [(0, launchBits)], started := true, order := 1, placed := 0, retired := [], doneKids := [], host := false }

theorem witness_BirthsAndEnds_ladle :
    ((3 < 16 ∧ slotTaken (stCmd landed) 0 3 = false) ∧ firstLanded (stCmd landed) 0 = some (200, landed, (7, 0, [])) ∧
      savingCtx (stCmd landed) landed.ctx = false ∧ ((readBursts landed)[0]?).isSome = true) ∧
    (stLadle.agents.find? (fun p => p.2.kind == .ladle && p.2.core == 0 && p.2.index == 3) = some (64, ladleOver) ∧ allExited ladleOver = true ∧
      ladleOver.traps = [] ∧ ladleOver.issue = none ∧ accessesDone stLadle 64 = true ∧ (aget (dropAgent stLadle 64).cmds ladleOver.ladle.read).isSome = true) ∧
    (let c := cmd (.rdh p0 (fe 1 0 0 0 0)) .finale
     aget (stCmd c).cmds 200 = some c ∧ c.st = .finale ∧ slotTaken (stCmd c) c.core 3 = false ∧ savingCtx (stCmd c) c.ctx = false ∧
       ∀ p ∈ (stCmd c).agents, p.2.kind = .ladle → p.2.ladle.read ≠ 200) :=
  ⟨⟨by decide, rfl, rfl, by decide +kernel⟩, ⟨rfl, by decide, rfl, rfl, rfl, by decide +kernel⟩, rfl, rfl, rfl, rfl, by simp [stCmd, st, ag]⟩

theorem witness_BirthsAndEnds :
    (let s := { st [] with agents := [(64, finished)] }
     aget s.agents 64 = some finished ∧ finished.kind = .cohort ∧ allExited finished = true ∧ finished.traps = [] ∧ finished.issue = none ∧ storesDone s 64 = true) ∧
    (let s := { rs with blocks := [(70, blk)] }
     aget s.blocks 70 = some blk ∧ mayRetire s 70 = true) ∧
    (let s := { rs with hub := { Hub.reset with launches := [(80, launch)] } }
     ∃ id t, (placeOrder s).findSome? (fun id => (tryPlace s id).map (fun t => (id, t))) = some (id, t)) ∧
    (∃ p, (onScheduler (prepare (st []) 0 0) 0 0).find? (fun p => p.2.issue.isSome) = some p) :=
  ⟨⟨rfl, rfl, by decide, rfl, rfl, rfl⟩, ⟨rfl, rfl⟩,
    (by
      have h : ((placeOrder { rs with hub := { Hub.reset with launches := [(80, launch)] } }).findSome? (fun id =>
        (tryPlace { rs with hub := { Hub.reset with launches := [(80, launch)] } } id).map (fun t => (id, t)))).isSome = true := by decide +kernel
      obtain ⟨x, hx⟩ := Option.isSome_iff_exists.1 h
      exact ⟨x.1, x.2, hx⟩),
    Option.isSome_iff_exists.1 (by decide)⟩

/-- The cohort between two clauses, its core with credit; its page is not described, so no header holds it. -/
def between : State :=
  { st [] with agents := [(64, { ag [] with issue := none })], hub := { Hub.reset with credits := [(0, 100)] }, turn := .idle }

theorem witness_BirthsAndEnds_pick : ∃ x l g,
    (onScheduler (prepare between 0 0) 0 0).find? (fun p => p.2.issue.isSome) = none ∧ mayPick (prepare between 0 0) 0 = true ∧
    choose ((onScheduler (prepare between 0 0) 0 0).filter (fun p => mayIssue (prepare between 0 0) p.2)) = some (x, l) ∧
    aget (clearYields (onScheduler (prepare between 0 0) 0 0) (skipAfter l x (prepare between 0 0))).agents x = some g := by
  have h : (choose ((onScheduler (prepare between 0 0) 0 0).filter (fun p => mayIssue (prepare between 0 0) p.2))).any (fun c =>
      (aget (clearYields (onScheduler (prepare between 0 0) 0 0) (skipAfter c.2 c.1 (prepare between 0 0))).agents c.1).isSome) = true := by
    decide +kernel
  obtain ⟨c, hc, h2⟩ := (Option.any_eq_true _ _).1 h
  obtain ⟨g, hg⟩ := Option.isSome_iff_exists.1 h2
  exact ⟨c.1, c.2, g, by decide +kernel, by decide +kernel, hc, hg⟩

/-! The hub: packets, calls, registers. -/

/-- The packet kinds in front: a launch, a copy of 64 bytes, a wait for QDONE, a wait on memory, a store, a migrate request of one page. -/
def copyBits : BitVec 512 := BitVec.ofNat 512 (2 + 0x30000 * 2 ^ 64 + 0x31000 * 2 ^ 128 + 64 * 2 ^ 192)

theorem witness_PacketSteps :
    (mayAccept (stPkt (ring 1 0) []) 0 = true ∧ ∃ bits s1, ringRead (stPkt (ring 1 0) []) 0 (queueOf (stPkt (ring 1 0) []) 0).rd = (some bits, s1)) ∧
    ((nextStart (stPkt (ring 1 1) [pkt launchBits 0]) 0).isSome = true ∧ mayStartPackets (stPkt (ring 1 1) [pkt launchBits 0]) 0 = true) ∧
    (running (stPkt (ring 1 1) [pkt launchBits 1]) 0 (BitVec.ofNat 32 0) 1 = some (pkt launchBits 1) ∧ (pkt launchBits 1).prog = 0) ∧
    (running (stPkt (ring 1 1) [pkt copyBits 1]) 0 (BitVec.ofNat 32 0) 2 = some (pkt copyBits 1) ∧ (pkt copyBits 1).todo = [] ∧
      (pkt copyBits 1).prog ≠ pktLen (pkt copyBits 1).bits ∧
      hubCreditOn (stPkt (ring 1 1) [pkt copyBits 1]) (queuePart (stPkt (ring 1 1) [pkt copyBits 1]) 0) = true) ∧
    pktAt (stPkt (ring 1 1) [pkt copyBits 2]) 0 (BitVec.ofNat 32 0) = some (pkt copyBits 2) ∧ (pkt copyBits 2).st = 2 ∧ (pkt copyBits 2).group = none := by
  refine ⟨⟨by decide +kernel, ?_⟩, by decide +kernel, by decide +kernel, by decide +kernel, by decide +kernel⟩
  have h : (ringRead (stPkt (ring 1 0) []) 0 (queueOf (stPkt (ring 1 0) []) 0).rd).1.isSome = true := by decide +kernel
  obtain ⟨b, hb⟩ := Option.isSome_iff_exists.1 h
  exact ⟨b, pair_of hb⟩

/-- A wait for QDONE of queue 0, a wait on memory, a store of 9, and a migrate request of 64 bytes. -/
def effectBits (kind mode : Nat) : BitVec 512 := BitVec.ofNat 512 (kind + mode * 2 ^ 24 + (if mode = 2 then 0 else 0x30000) * 2 ^ 64 + 9 * 2 ^ 128)

theorem witness_PacketEffects :
    (let p := pkt (effectBits 3 2) 1
     let s := stPkt (ring 1 1) [p]
     running s 0 (BitVec.ofNat 32 0) 3 = some p ∧ pktAsleep s 0 (BitVec.ofNat 32 0) = false ∧ pktMode p.bits = 2) ∧
    (let p := pkt (effectBits 3 0) 1
     let s := stPkt (ring 1 1) [p]
     running s 0 (BitVec.ofNat 32 0) 3 = some p ∧ pktAsleep s 0 (BitVec.ofNat 32 0) = false ∧ pktMode p.bits ≠ 2) ∧
    (let p := pkt (effectBits 5 0) 1
     let s := stPkt (ring 1 1) [p]
     running s 0 (BitVec.ofNat 32 0) 5 = some p ∧ p.prog < (pktAddr p.bits + pktDst p.bits - 1) / 2 ^ 19 - pktAddr p.bits / 2 ^ 19 + 1 ∧
       pktDst p.bits ≠ 0 ∧ pktAddr p.bits < 2 ^ 56) ∧
    (let p := { pkt (effectBits 5 0) 1 with prog := 1 }
     let s := stPkt (ring 1 1) [p]
     running s 0 (BitVec.ofNat 32 0) 5 = some p ∧ (pktAddr p.bits + pktDst p.bits - 1) / 2 ^ 19 - pktAddr p.bits / 2 ^ 19 + 1 ≤ p.prog) := by
  decide +kernel

/-- The machine with a signal packet that stores, or adds. -/
def stSignal (mode : Nat) : State := stPkt (ring 1 1) [pkt (effectBits 4 mode) 1]

theorem witness_PacketEffects_signal (mode : Fin 2) : ∃ segs s1 got s2,
    running (stSignal mode) 0 (BitVec.ofNat 32 0) 4 = some (pkt (effectBits 4 mode) 1) ∧ pktMode (pkt (effectBits 4 mode) 1).bits = mode ∧
    reach (stSignal mode) (pktWho (stSignal mode) 0 0) (pktAddr (pkt (effectBits 4 mode) 1).bits) 8
      (if pktMode (pkt (effectBits 4 mode) 1).bits == 1 then .both else .write) = (.mem segs, s1) ∧
    takeBytes s1 (pktWho (stSignal mode) 0 0) 8 (.mem segs) = (got, s2) ∧ got.bad = none := by
  have h : ∀ mode : Fin 2, reached (fun s _ => s) (reach (stSignal mode) (pktWho (stSignal mode) 0 0) (pktAddr (pkt (effectBits 4 mode) 1).bits) 8
      (if pktMode (pkt (effectBits 4 mode) 1).bits == 1 then .both else .write)) (pktWho (stSignal mode) 0 0) 8 = true ∧
      running (stSignal mode) 0 (BitVec.ofNat 32 0) 4 = some (pkt (effectBits 4 mode) 1) ∧ pktMode (pkt (effectBits 4 mode) 1).bits = mode := by
    decide +kernel
  obtain ⟨segs, s1, got, s2, h3⟩ := reached_spec (h mode).1
  exact ⟨segs, s1, got, s2, (h mode).2.1, (h mode).2.2, h3⟩

/-- A call at S and one at H, neither appended yet. -/
def call (n : Nat) (level : Level) (code : BitVec 7) (arg : DWord) : SysCall :=
  { id := n, op := 100, level := level, code := code, arg := arg, ctx := 1, pc := 0x1000, place := none }
/-- Queue 0 as a service queue of S. -/
def service (wr rd : BitVec 32) : Queue := { ring wr rd with cfg := 0x400000005 }
/-- The machine with queue 0 and some calls. -/
def stCalls (q : Queue) (l : List SysCall) : State :=
  let s := stPkt q []
  { s with hub := { s.hub with calls := l } }
/-- A reply to the call at position 0 of queue 0. -/
def replyBits : BitVec 512 := BitVec.ofNat 512 (7 + 9 * 2 ^ 128)
/-- A deferred launch that is ready. -/
def deferred : Deferred := { ctx := 1, core := 0, block := 70, ec := 0, queue := 0, bits := launchBits, ready := true }

theorem witness_CallSteps :
    (let s := stCalls (service 0 0) [call 9 .s 1 2]
     callOf s 9 = some (call 9 .s 1 2) ∧ serviceQueue s .s = some 0 ∧ (call 9 .s 1 2).place = none ∧ ringFull (queueOf s 0) = false ∧
       ∃ s1, ringAppend s 0 (callPacket (call 9 .s 1 2) (queueOf s 0).wr) = (true, s1)) ∧
    (let c := { call 9 .s 1 2 with place := some (0, 0) }
     let s := { stPkt (ring 1 1) [pkt replyBits 1] with hub := { (stPkt (ring 1 1) [pkt replyBits 1]).hub with calls := [c] } }
     running s 0 (BitVec.ofNat 32 0) 7 = some (pkt replyBits 1) ∧ (ctxOf s (queueCtx s 0)).vmid = 0 ∧
       s.hub.calls.find? (fun x => x.place == some (pfld (pkt replyBits 1).bits 96 6, BitVec.ofNat 32 (pfld (pkt replyBits 1).bits 64 32)) && x.level == .s) = some c) ∧
    (let s := { stPkt (ring 0 0) [] with hub := { (stPkt (ring 0 0) []).hub with defers := [deferred] } }
     (deferredOn s 0)[0]? = some deferred ∧ deferred.ready = true ∧ queueOn (queueOf s deferred.queue) = true ∧
       ringFull (queueOf s deferred.queue) = false ∧ ∃ s1, ringAppend s deferred.queue deferred.bits = (true, s1)) :=
  ⟨⟨by decide +kernel, by decide +kernel, rfl, by decide +kernel, pair_of (by decide +kernel)⟩, by decide +kernel,
    by decide +kernel, rfl, by decide +kernel, by decide +kernel, pair_of (by decide +kernel)⟩

theorem witness_CallSteps_firmware :
    fwCall (stCalls (ring 0 0) [call 9 .h 0x10 2]) 9 (0x10 :: (List.range 14).map (fun i => 0x12 + i)) = some (call 9 .h 0x10 2) ∧
    fwCall (stCalls (ring 0 0) [call 9 .h 0x11 2]) 9 [0x11] = some (call 9 .h 0x11 2) ∧
    fwCall (stCalls (ring 0 0) [call 9 .h 0x20 2]) 9 [0x20] = some (call 9 .h 0x20 2) ∧
    fwCall (stCalls (ring 0 0) [call 9 .h 0x21 2]) 9 [0x21] = some (call 9 .h 0x21 2) ∧
    fwCall (stCalls (ring 0 0) [call 9 .h 0x22 2]) 9 [0x22] = some (call 9 .h 0x22 2) := by decide +kernel

/-- The hypervisor, hub firmware, and the guest of VMID 3 at S. -/
def wH : Writer := { level := .h, vmid := 0 }
/-- A guest. -/
def wS : Writer := { level := .s, vmid := 3 }
/-- Context 1 of VMID 3, and bucket class 2 and profile 1 valid in partition 0. -/
def stReg : State :=
  { rs with hub := { Hub.reset with ctxs := [(0, Ctx.reset), (1, { Ctx.reset with vmid := 3 })]
                                    profiles := [(8, 0x4000000)], buckets := [(2, 0x400000000)] } }

/-- Profile 1 with the seven masks of R416 independent, and pages of HBM stack 0. -/
def stFit : State := { rs with hub := { Hub.reset with profiles := (List.range 7).map (fun i => (9 + i, 2 ^ (i + 12))) } }

theorem witness_RegisterWrites :
    winAllowed rs wH (.queue 0 2) true = true ∧
    (winAllowed rs wH (.queue 0 0) true = true ∧ (0x1 : DWord).toNat / 2 ^ 32 % 4 ≠ 3 ∧
      ((0x1 : DWord) &&& qcfgBits).getLsbD 0 = true ∧ queueOn (queueOf rs 0) = false ∧
      ctxPart rs (((0x1 : DWord) &&& qcfgBits).toNat / 2 ^ 34 % 2 ^ 12) = queuePart rs 0) ∧
    winAllowed rs wH (.ctxreg 1 9) true = true ∧
    (levelGe wS.level .s = true ∧ wS.level = .s ∧ ctxHeld stReg 1 = true ∧ (ctxOf stReg 1).vmid = wS.vmid) ∧
    winAllowed rs wH (winReg 0x100130) true = true ∧
    (winAllowed stReg wH (.ctxqos 1) true = true ∧ qosBad stReg 1 (0x0000002000000001 &&& qosBits) = false) ∧
    (winAllowed rs wH (.prof 1 2) true = true ∧ (2 : Nat) ≠ 0 ∧ nbits (iprof rs 1) 26 1 = 0 ∧ nbits (iprof stReg 1) 26 1 = 1) ∧
    ((profBits 0 &&& 0x4000001).getLsbD 26 = true ∧ profileFits rs 1 (profBits 0 &&& 0x4000001).toNat = false ∧
      profileFits stFit 1 (profBits 0 &&& 0x4000001).toNat = true) ∧
    (∀ c ∈ stReg.hub.ctxs, c.2.qos.toNat % 8 ≠ 1) ∧ (sget stReg.hub.profiles 8 &&& ~~~(0x4000000 : DWord)) = 0 ∧
    (winAllowed rs wH (.l2bkt 2) true = true ∧ (0 : DWord).getLsbD 34 = false ∧ (0x400000000 : DWord).getLsbD 34 = true ∧ classValid rs 2 = false ∧
      classValid stReg 2 = true) ∧
    (winAllowed rs wH (.port 1) true = true ∧ (sget rs.plat.ports 1).getLsbD 2 = false) ∧
    winAllowed rs wH .fwctl true = true ∧ rs.plat.fwState = 0 := by decide +kernel

theorem witness_RegisterWritesRefused :
    winAllowed stReg wS (.queue 0 2) true = false ∧ winAllowed stReg wS (.queue 0 0) true = false ∧ winAllowed stReg wS (.ctxreg 1 9) true = false ∧
    winAllowed stReg wS (winReg 0x3000) true = false ∧ winAllowed stReg wS (.ctxqos 1) true = false ∧ winAllowed stReg wS (.prof 1 0) true = false ∧
    winAllowed stReg wS (.l2bkt 2) true = false ∧ winAllowed stReg wS (.port 1) true = false ∧ winAllowed stReg wS .partctl true = false ∧
    winAllowed stReg { wS with level := .u } .endctx true = false ∧ winAllowed stReg { wS with level := .u } .preempt true = false ∧
    winAllowed stReg wS .pooltake true = false ∧ winAllowed stReg wS .fwctl true = false ∧
    (winAllowed stReg { wS with level := .u } .trapact true = false ∧ trapInfoOf stReg 7 = none ∧ levelGe Level.u .s = false ∧ levelGe wS.level .h = false ∧
      ctxHeld stReg 1 = true ∧ (ctxOf stReg 1).vmid ≠ ({ wS with vmid := 4 } : Writer).vmid) ∧ ({ wS with level := .u } : Writer).level = .u := by
  decide +kernel

/-! The hub: traps, contexts, pages, the package. -/

/-- A record of a U cohort of context 1. -/
def trapInfo : TrapInfo :=
  { id := 7, ctx := 1, agent := 64, level := .u, code := 5, kind := 1, word := 1, hdr := 0x1000, group := 3, count := 1, op := 0, cmd := none, fetch := false }
/-- The machine with that record. -/
def stTrap : State := { stReg with hub := { stReg.hub with traps := [trapInfo] } }

theorem witness_TrapActions :
    (trapInfoOf stTrap (7 : BitVec 32).toNat = some trapInfo ∧ winAllowed stTrap wS .trapact true = true ∧ trapReached stTrap wS trapInfo = true ∧
      ctxSaved stTrap trapInfo.ctx = false ∧ trapHeld stTrap trapInfo.id = false ∧ trapInfo.loose = false ∧ 64 ≤ trapInfo.agent ∧
      headerTrap trapInfo = false ∧ headerTrap { trapInfo with kind := 0, word := 0, fetch := true } = true) ∧
    ({ trapInfo with agent := 3 } : TrapInfo).agent < 64 ∧ trapReached stTrap { wS with vmid := 4 } trapInfo = false ∧
    ctxSaved { stTrap with hub := { stTrap.hub with saved := [takeSaved stReg 1] } } trapInfo.ctx = true ∧
    (({ trapInfo with loose := true } : TrapInfo).loose = true ∧ aget stTrap.agents trapInfo.agent = none ∧ aget stTrap.agents stTrap.nextId = none) ∧
    (winAllowed stTrap wS .endctx true = true ∧ (ctxOf stTrap 1).vmid = wS.vmid) ∧ isPart rs.hub.partCfg 0 = true ∧ levelGe wS.level .s = true ∧
    levelGe wH.level .h = true := by decide +kernel

/-- The requests for context 1 of VMID 3: to save it, and to restore it while it is saved with nothing in it. -/
def stSave : State := { stReg with hub := { stReg.hub with preempts := [{ ctx := 1, restore := false, since := 0 }] } }

theorem witness_Preemption :
    (winAllowed stReg wS .preempt true = true ∧ (ctxOf stReg 1).vmid = wS.vmid ∧ requested stReg 1 = false ∧ ctxSaved stReg 1 = false ∧
      ctxHeld stReg 1 = true) ∧
    (let s := { stReg with hub := { stReg.hub with saved := [takeSaved stReg 1] } }
     winAllowed s wS .preempt true = true ∧ (ctxOf s 1).vmid = wS.vmid ∧ requested s 1 = false ∧ ctxSaved s 1 = true) ∧
    (∃ p, requestOf stSave 1 false = some p ∧ saveReady stSave 1 = true) :=
  ⟨by decide +kernel, by decide +kernel, _, rfl, by decide +kernel⟩

/-- The save area of context 1 at address 0 holds what the save wrote: the head, and 64 free bytes. -/
def restoreCells : Memory :=
  [(2 ^ 46, 1), (2 ^ 46 + 4, 1)] ++ (List.range 64).map (fun i => (2 ^ 46 + 16 + i, Config.freeByte (16 + i)))
/-- The machine that restores context 1 from such an area. -/
def stRestore (cells : Memory) (x : Saved) : State :=
  { stReg with
    mem := { MemSys.reset with cells := cells, pages := [(0, residentEntry 0)] }
    plat := { Platform.reset with pltlim := 2 }
    hub := { stReg.hub with preempts := [{ ctx := 1, restore := true, since := 0 }], saved := [x], launches := [(80, { launch with children := [(0, BitVec.ofNat 512 (1 + 2 ^ 12))] })] } }
/-- Saved with nothing in it; and with the two blocks of a team on one core, for which no map has an entry. -/
def savedEmpty : Saved := takeSaved stReg 1
/-- As said. -/
def savedTwo : Saved := { savedEmpty with blocks := [(70, { blk with core := 200 }), (71, { blk with core := 200 })] }

/-- No line is cached, no partial waits and no error was injected. -/
def Quiet (s : State) : Prop := s.mem.red = [] ∧ s.mem.dir = [] ∧ s.mem.inject = []

/-- A read by the hub of memory that no cache holds changes nothing. -/
theorem touchRead_quiet (s : State) (spa len : Nat) (h : Quiet s) : touchRead s hubAsker .read spa len = s := by
  obtain ⟨hr, hd, hi⟩ := h
  have hm : ∀ line, mergeLine s line = s := by
    intro line
    have h0 : ∀ l : List Nat, l.flatMap (fun _ => ([] : List RedEntry)) = [] := by intro l; induction l <;> simp_all
    simp [mergeLine, inCoreOrder, hr, h0]
  have hs : ∀ (m : MemSys) (line : Nat), m.dir = [] → { m with dir := adel m.dir line } = m := by
    rintro ⟨⟩ line h
    simp only at h
    subst h
    rfl
  have h1 : ∀ line, touchLine hubAsker .read s line = s := by
    intro line
    have hs' := hs s.mem line hd
    rw [hd] at hs'
    simp [touchLine, hm, chargeWho, hubAsker, touchHc, hd, dirtyBack, dirNext, dirHit, aget, count, setDir, hs']
  have h2 : ∀ a n m, findErrors s a n m = s := by
    intro a n m
    unfold findErrors
    generalize List.range n = l
    induction l with
    | nil => rfl
    | cons i l ih => simpa [List.foldl_cons, hi] using ih
  unfold touchRead
  generalize linePieces spa len = l
  induction l with
  | nil => rfl
  | cons p l ih => rw [List.foldl_cons, h1, h2]; exact ih

/-- What the hub reads then, and what that leaves. -/
theorem hubRead_quiet (s : State) (spa len : Nat) (h : Quiet (locateFill s 3 (spa / 2 ^ 19))) :
    hubRead s 0 spa len = (spaReadN (locateFill s 3 (spa / 2 ^ 19)) 0 spa len, locateFill s 3 (spa / 2 ^ 19)) := by
  simp only [hubRead, touchRead_quiet _ _ _ h, Bool.and_not_self, Bool.false_eq_true, if_false]

/-- The hub has looked page 0 up. -/
def stLooked (x : Saved) : State := locateFill (stRestore restoreCells x) 3 0

/-- One of the two. -/
abbrev OneOf (x : Saved) : Prop := x = savedEmpty ∨ x = savedTwo

theorem quiet_looked (x : Saved) (hx : OneOf x) : Quiet (stLooked x) := by rcases hx with rfl | rfl <;> exact ⟨rfl, rfl, rfl⟩

theorem looked_again (x : Saved) (hx : OneOf x) : locateFill (stLooked x) 3 0 = stLooked x := by rcases hx with rfl | rfl <;> rfl

theorem base_looked (x : Saved) (hx : OneOf x) : saveBase (stLooked x) 1 = 0 := by rcases hx with rfl | rfl <;> decide +kernel

theorem touchPart_looked (x : Saved) (hx : OneOf x) (s : State) (spa n : Nat) (hs : locateFill s 3 0 = stLooked x) (h : spa / 2 ^ 19 = 0)
    (hn : n ≤ 2 ^ 19 - spa % 2 ^ 19) : touchPart s spa n = stLooked x := by
  unfold touchPart
  rw [if_pos hn, hubRead_quiet _ _ _ (by rw [h, hs]; exact quiet_looked x hx), h, hs]

theorem areaRead_looked (x : Saved) (hx : OneOf x) (spa n : Nat) (h : spa / 2 ^ 19 = 0) (hn : n ≤ 2 ^ 19 - spa % 2 ^ 19) :
    areaRead (stLooked x) spa n = spaReadN (stLooked x) 0 spa n := by
  unfold areaRead
  rw [if_pos hn, hubRead_quiet _ _ _ (by rw [h, looked_again x hx]; exact quiet_looked x hx), h, looked_again x hx]

theorem touchArea_looked (x : Saved) (hx : OneOf x) : touchArea (stRestore restoreCells x) x = stLooked x := by
  have hc : x.ctx = 1 := by rcases hx with rfl | rfl <;> rfl
  have h1 : readRegions (stRestore restoreCells x) x = [(0, 16), (0x100, 640), (16, 64)] := by rcases hx with rfl | rfl <;> decide +kernel
  have h0 : saveBase (stRestore restoreCells x) 1 = 0 := by rcases hx with rfl | rfl <;> decide +kernel
  have hl : locateFill (stRestore restoreCells x) 3 0 = stLooked x := rfl
  have hb := base_looked x hx
  simp only [touchArea, h1, hc, List.foldl_cons, List.foldl_nil]
  rw [touchPart_looked x hx _ _ _ hl (by rw [h0]; decide) (by rw [h0]; decide),
    touchPart_looked x hx _ _ _ (looked_again x hx) (by rw [hb]; decide) (by rw [hb]; decide),
    touchPart_looked x hx _ _ _ (looked_again x hx) (by rw [hb]; decide) (by rw [hb]; decide)]

set_option maxRecDepth 100000 in
theorem area_free (x : Saved) (hx : OneOf x) : areaRead (stLooked x) 16 64 = freeBytes 16 64 := by
  rw [areaRead_looked x hx _ _ (by decide) (by decide)]
  have h : spaReadN (stLooked x) 0 16 64 = (List.range 64).map (fun i => Config.freeByte (16 + i) ^^^ 0) := by rcases hx with rfl | rfl <;> rfl
  rw [h]
  simp [freeBytes]

theorem area_good (x : Saved) (hx : OneOf x) : areaGood (stLooked x) x = true := by
  have hc : x.ctx = 1 := by rcases hx with rfl | rfl <;> rfl
  have hb : x.base = 0 := by rcases hx with rfl | rfl <;> rfl
  have h0 := base_looked x hx
  have h2 : (areaRead (stLooked x) 16 (freeBytes 16 64).length == freeBytes 16 64) = true := by
    rw [beq_iff_eq]; exact area_free x hx
  have h3 : hardwareRegions (stLooked x) x = [(16, 64)] ∧ savedCores x = [] ∧ (areaHead (stLooked x) x).length = 16 ∧
      (areaRead (stLooked x) 0 16 == areaHead (stLooked x) x && !poisoned (stLooked x) 0 16) = true ∧
      poisoned (stLooked x) 16 64 = false := by rcases hx with rfl | rfl <;> decide +kernel
  have hf : (freeBytes 16 64).length = 64 := rfl
  rw [hf] at h2
  unfold areaGood
  simp only [h3, hc, hb, h0, List.all_cons, List.all_nil, List.zip_nil_right, Bool.and_true, Nat.zero_add, hf, h2, Bool.not_false]

theorem witness_Preemption_restore (x : Saved) (hx : OneOf x) :
    let s := stRestore restoreCells x
    (∃ p, requestOf s 1 true = some p) ∧ s.hub.saved.find? (fun x => x.ctx == 1) = some x ∧
      (∀ q < 4, partOfQuarter s.hub.partCfg q = ctxPart s 1 → quarterBusy s q = false) ∧ s.hub.puts = [] ∧ hubHeld s = false ∧
      (∀ n ∈ areaPages s x, pageWaits s n = false) ∧
      let t := touchArea s x
      areaGood t x = true ∧ restoreMap t x = some [] ∧ (x = savedTwo → mapGood t x [] = false) ∧
        (x = savedEmpty → mapGood t x [] = true ∧ (restoreCtx t x []).isSome = true) := by
  dsimp only
  rw [touchArea_looked x hx]
  refine ⟨⟨_, rfl⟩, ?_, ?_, rfl, rfl, ?_, area_good x hx, ?_, ?_, ?_⟩
  · rcases hx with rfl | rfl <;> rfl
  · rcases hx with rfl | rfl <;> decide +kernel
  · rcases hx with rfl | rfl <;> decide +kernel
  · rcases hx with rfl | rfl <;> decide +kernel
  · rintro rfl; decide +kernel
  · rintro rfl; decide +kernel

/-- The area of the first was changed. -/
theorem witness_Preemption_changed : areaGood (touchArea (stRestore [] savedEmpty) savedEmpty) savedEmpty = false := by decide +kernel

/-- A page of the package, page 1, with an entry; page 0 is resident in HBM and holds the ownership records; port 0 carries the pool. -/
def stPage (e : BitVec 128) (own : Byte) : State :=
  { rs with plat := { Platform.reset with pltlim := 2, ports := [(0, 4)] }
            mem := { MemSys.reset with cells := [(2 ^ 46 + 20, own)], pages := [(0, residentEntry 0), (1, e)] } }
/-- Hub firmware's calls: a buffer at page 1 can be read and written. -/
theorem witness_CallSteps_buffers :
    bufferOk (stPage (residentEntry 1) 0) 0x80000 = true ∧ bufferOk (stPage (residentEntry 1) 0) 0x80001 = false ∧
    hubWaits (stPage (residentEntry 1) 0) 0x80000 64 = false ∧
    (hubPut (stPage (residentEntry 1) 0) 0 0x80000 false [1, 2]).1 = true ∧ (0x11 : DWord).toNat % 8 < 3 ∧ 3 ≤ (0x13 : DWord).toNat % 8 ∧
    (0x40 : DWord).toNat % 64 = 0 ∧ (0x41 : DWord).toNat % 64 ≠ 0 := by decide +kernel

/-- A move of page 1. -/
def move (begun : Bool) : Forward :=
  { page := 1, srcTier := 1, srcPage := 1, dstTier := 2, dstPage := 5, begun := begun, line := 0, closed := begun, moved := [], held := [] }
/-- Page 1 with a move. -/
def stMove (begun : Bool) : State :=
  let s := stPage (eset (residentEntry 1) 29 3 (if begun then 1 else 0)) 0
  { s with mem := { s.mem with forwards := [move begun] } }
/-- Page 1 in the pool, in a state. -/
def poolEntry (state : Nat) : BitVec 128 := eset (eset (residentEntry 1) 27 2 3) 29 3 state
/-- Migration by policy is on in partition 0, with a threshold of one request in 2 units. -/
def stPolicy : State :=
  { rs with plat := { Platform.reset with pltlim := 1, migpol := [(0, 0x1000100000000)] }
            mem := { MemSys.reset with pages := [(0, residentEntry 0)] } }

theorem witness_PageEvents :
    (let s := stMove false
     s.mem.forwards.find? (fun f => !f.begun) = some (move false) ∧ (move false).page = 1 ∧
       (s.mem.forwards.filter (fun f => f.begun)).length < 8 ∧ peTier (pageEntry s 1) ≠ 3 ∧ mayMove s 1 (move false).dstTier.toNat = true) ∧
    mayMove (stMove true) 1 (move false).dstTier.toNat = false ∧
    (forwardOf (stMove true) 1 = some (move true) ∧ (move true).begun = true) ∧
    (sget rs.plat.migpol 0).getLsbD 48 = false ∧
    (let s := stPolicy
     (sget s.plat.migpol 0).getLsbD 48 = true ∧ tablePages s = [0] ∧ pageEntry s 0 = residentEntry 0 ∧ pageValid s 0 = true ∧
       peState (residentEntry 0) = 0 ∧ pagePart s (residentEntry 0) = 0 ∧
       agetD s.mem.reqs 0 0 < 2 * ((sget s.plat.migpol 0).toNat / 2 ^ 32 % 2 ^ 16)) ∧
    (aget (stMove true).mem.pages 1 = some (eset (residentEntry 1) 29 3 1) ∧ peState (eset (residentEntry 1) 29 3 1) ≠ 0) ∧
    (aget (stMove true).mem.pages 0 = some (residentEntry 0) ∧ peState (residentEntry 0) = 0) ∧
    (peTier (pageEntry (stPage (poolEntry 0) 0) 1) = 3 ∧ peState (pageEntry (stPage (poolEntry 0) 0) 1) < 4 ∧ poolUp (stPage (poolEntry 0) 0) = true) ∧
    poolUp rs = false := by
  decide +kernel

/-- Page 1 in the pool with a hand-over of it. -/
def stHand (state : Nat) (own : Byte) (claimant : Bool) (step : HandoverStep) : State :=
  let s := stPage (poolEntry state) own
  { s with mem := { s.mem with hand := [{ page := 1, claimant := claimant, step := step }] } }

/-- RECORD of device page 1: SHARED, free; claimed by package 0; offered to this package; owned by package 1. -/
theorem witness_HandOver :
    (poolUp (stHand 3 0x20 true .claiming) = true ∧ poolUp (stPage (poolEntry 0) 0x20) = true) ∧
    (let s := stHand 3 0x20 true .claiming
     claimOf s 1 = some { page := 1, claimant := true, step := .claiming } ∧ peState (pageEntry s 1) = 3 ∧
       ownShared (ownRead s (pePage (pageEntry s 1))).1 = true ∧ ownState (ownRead s (pePage (pageEntry s 1))).1 = 0) ∧
    (let s := stPage (poolEntry 0) 0x20
     pageValid s 1 = true ∧ peState (pageEntry s 1) = 0 ∧ peTier (pageEntry s 1) = 3 ∧ givingOf s 1 = none ∧
       ownOwner (ownRead s (pePage (pageEntry s 1))).1 = pkgNum (ownRead s (pePage (pageEntry s 1))).2 ∧
       ownShared (ownRead s (pePage (pageEntry s 1))).1 = true ∧ ownState (ownRead s (pePage (pageEntry s 1))).1 = 0) ∧
    (let s := stPage (poolEntry 0) 0x24
     pageValid s 1 = true ∧ peState (pageEntry s 1) = 0 ∧ peTier (pageEntry s 1) = 3 ∧ givingOf s 1 = none ∧
       ownOwner (ownRead s (pePage (pageEntry s 1))).1 = pkgNum (ownRead s (pePage (pageEntry s 1))).2 ∧
       ownShared (ownRead s (pePage (pageEntry s 1))).1 = true ∧ ownState (ownRead s (pePage (pageEntry s 1))).1 = 1 ∧
       ownClaimer (ownRead s (pePage (pageEntry s 1))).1 = (0 : BitVec 5).toNat ∧ ownClaimer (ownRead s (pePage (pageEntry s 1))).1 ≠ (31 : BitVec 5).toNat) ∧
    (let s := stHand 0 0x24 false .asked
     givingOf s 1 = some { page := 1, claimant := false, step := .asked } ∧ pePins (pageEntry s 1) = 0 ∧ peState (pageEntry s 1) = 0 ∧ passedOn s 1 = false) ∧
    givingOf (stHand 2 0x24 false .frozen) 1 = some { page := 1, claimant := false, step := .frozen } ∧
    (let s := stHand 3 0x28 true .claimed
     claimOf s 1 = some { page := 1, claimant := true, step := .claimed } ∧ peState (pageEntry s 1) = 3 ∧ passedOn s 1 = false ∧
       ownState (ownRead s (pePage (pageEntry s 1))).1 = 2 ∧
       ownOwner (ownRead s (pePage (pageEntry s 1))).1 = pkgNum (ownRead s (pePage (pageEntry s 1))).2) ∧
    (let s := stHand 3 0x24 true .claimed
     claimOf s 1 = some { page := 1, claimant := true, step := .claimed } ∧ peState (pageEntry s 1) = 3 ∧ passedOn s 1 = false ∧
       ownState (ownRead s (pePage (pageEntry s 1))).1 = 1 ∧
       ownClaimer (ownRead s (pePage (pageEntry s 1))).1 = pkgNum (ownRead s (pePage (pageEntry s 1))).2) ∧
    claimOf (stHand 2 0x28 true .released) 1 = some { page := 1, claimant := true, step := .released } ∧
    (let s := { stPage (residentEntry 1) 0x60 with mem := { (stPage (residentEntry 1) 0x60).mem with pages := [(0, residentEntry 0)] } }
     let o := ownRead s 1
     winAllowed s wH .pooltake true = true ∧ ownOwner o.1 ≠ pkgNum o.2 ∧
       foreignNames (ownWrite o.2 1 (ownHand o.1 (pkgNum o.2) 3)) 1 = []) ∧
    (let s := stPage (poolEntry 3) 0x60
     let o := ownRead s 1
     winAllowed s wH .pooltake true = true ∧ ownOwner o.1 ≠ pkgNum o.2 ∧
       foreignNames (ownWrite o.2 1 (ownHand o.1 (pkgNum o.2) 3)) 1 = [1] ∧ passedOn (ownWrite o.2 1 (ownHand o.1 (pkgNum o.2) 3)) 1 = false) := by
  decide +kernel

/-- A change of the cut of quarters 0 and 1. -/
def change (merge : Bool) : CutChange := { merge := merge, which := 0, deadline := 1000, since := 0 }

theorem witness_CutChanges :
    (winAllowed rs wH .partctl true = true ∧ rs.hub.partCfg.toNat / 16 % 16 = 0 ∧ cutInvalid rs.hub.partCfg true 0 = false ∧
      cutInvalid rs.hub.partCfg true 3 = true) ∧
    (let s := { rs with hub := { Hub.reset with partCfg := 1 } }
     winAllowed s wH .partctl true = true ∧ s.hub.partCfg.toNat / 16 % 16 = 0 ∧ cutInvalid s.hub.partCfg false 0 = false) ∧
    (let s := { rs with hub := { Hub.reset with cut := some (change true) } }
     cutQuiet s (cutQuarters (change true).which) = true ∧ usSince s (change true).since < (change true).deadline) ∧
    (let s := { rs with hub := { Hub.reset with partCfg := 1, cut := some (change false) } }
     cutQuiet s (cutQuarters (change false).which) = true ∧ usSince s (change false).since < (change false).deadline ∧ splitHeld s (change false).which = false) ∧
    splitHeld { rs with hub := { Hub.reset with partCfg := 1, profiles := [(8, 0x4000000)], cut := some (change false) } } (change false).which = true ∧
    (let s := { st [] with hub := { Hub.reset with cut := some (change true) }, cycles := 10000000 }
     cutQuiet s (cutQuarters (change true).which) = false ∧ (change true).deadline ≤ usSince s (change true).since) := by
  decide +kernel

/-- A write of 8 bytes at port 1 to page 1. -/
def request : Inbound := { port := 1, bar0 := false, write := true, addr := 0x80000, len := 8, data := List.replicate 8 1 }
/-- Port 1 is up as a root port; page 1 is frozen. -/
def stPort : State :=
  let s := stPage (eset (residentEntry 1) 29 3 2) 0
  { s with plat := { s.plat with ports := [(1, 5)] } }

theorem witness_PlatformEvents :
    (let s := { rs with hub := { Hub.reset with ctxs := [(1, { Ctx.reset with hintbud := 0x100000008 })] } }
     (ctxOf s 1).hintbud.toNat / 2 ^ 32 % 2 ^ 16 ≠ 0 ∧ ctxHeld s 1 = true) ∧
    (∃ t, inboundServe rs request = (true, t)) ∧ (∃ t, inboundServe stPort request = (false, t)) ∧
    (let ag := { Agent.hubThread 3 with hub := { HubData.reset with notified := true, halted := true } }
     aget (({ rs with agents := [(3, ag)] } : State).agents) 3 = some ag ∧ ag.hub.notified = true ∧ ag.hub.halted = true) :=
  ⟨by decide +kernel, pair_of (by decide +kernel), pair_of (by decide +kernel), by decide +kernel⟩

/-- Hub firmware parks its threads; a switch may have run for longer than 100 ms. -/
def stPark (cycles : Nat) : State :=
  { rs with agents := [(0, Agent.hubThread 0)], cycles := cycles, plat := { Platform.reset with fwState := 2 } }
/-- Queue 0 replays a record whose first entry is a fence of SEQ 0. -/
def stReplay : State :=
  let s := stPkt { ring 0 0 with recctl := 0x2000000000040002 } []
  spaWriteBytes s 0 0x40000 (toBytes 6 8)
/-- A check of an image is asked for. -/
def stImage : State := { stPage (residentEntry 1) 0 with plat := { (stPage (residentEntry 1) 0).plat with fwState := 1, fwStage := 0x80000 } }

theorem witness_BootAndFirmware :
    rs.plat.boot = 0 ∧ ({ Platform.reset with boot := 2 } : Platform).boot = 2 ∧ ({ Platform.reset with fwState := 1 } : Platform).fwState = 1 ∧
    (aget (stPark 0).agents 0 = some (Agent.hubThread 0) ∧ (stPark 0).plat.fwState = 2 ∧ (Agent.hubThread 0).kind = .hubThread ∧
      (Agent.hubThread 0).issue = none ∧ (Agent.hubThread 0).traps = [] ∧ ∀ p ∈ (stPark 0).hub.packets, p.queue = 0 → p.st = 0) ∧
    (stImage.plat.fwState = 1 ∧ fwGo stImage 0x80000 64 = true ∧ fwGo (fwRead stImage 0x80000 64).2 0x80000 (64 + 1952 + 3309) = true) ∧
    (stPark parkClocks).plat.fwSince + parkClocks ≤ (stPark parkClocks).cycles := by decide +kernel

theorem witness_BootAndFirmware_replay : replayAt stReplay 0 = some 0x40000 ∧ hubWaits stReplay 0x40000 72 = false ∧
    let r := (hubRead stReplay 0 0x40000 72).2
    ∃ p seq t1, nextReplay r 0 = some (p, seq) ∧ replayTurn r 0 seq = true ∧ ringAppend r 0 p = (true, t1) := by
  refine ⟨by decide +kernel, by decide +kernel, ?_⟩
  have h : (nextReplay (hubRead stReplay 0 0x40000 72).2 0).any (fun x => replayTurn (hubRead stReplay 0 0x40000 72).2 0 x.2 &&
      (ringAppend (hubRead stReplay 0 0x40000 72).2 0 x.1).1) = true := by decide +kernel
  obtain ⟨x, hx, h2⟩ := (Option.any_eq_true _ _).1 h
  rw [Bool.and_eq_true] at h2
  obtain ⟨t, ht⟩ := pair_of h2.2
  exact ⟨x.1, x.2, t, hx, h2.1, ht⟩

/-- Hart 0 runs in a mode. -/
def hart (mode : HostMode) : Hart := { Hart.reset with mode := mode, run := .running, x := [(5, 0x1001)] }
/-- It is its turn. -/
def stHart (mode : HostMode) : State := { stPage (residentEntry 1) 0 with harts := [(0, hart mode)], turn := .hart 0 }

theorem witness_Xtn3Words : (∃ y s1, (stHart .m).turn = .hart 0 ∧ (rdX (hartOf (stHart .m) 0) 0).toNat % 4 = 0 ∧
    hostHole .load (dataView (hartOf (stHart .m) 0)) (rdX (hartOf (stHart .m) 0) 0).toNat 1 = none ∧
    hartXlate (stHart .m) 0 (dataView (hartOf (stHart .m) 0)) (rdX (hartOf (stHart .m) 0) 0).toNat .read false = (.ok y, s1) ∧ y.cls = 0 ∧
    inWindow (xlatOut y (rdX (hartOf (stHart .m) 0) 0).toNat) = false) ∧ (rdX (hartOf (stHart .m) 0) 5).toNat % 4 ≠ 0 :=
  ⟨⟨_, _, by decide +kernel, by decide +kernel, by decide +kernel, rfl, by decide +kernel, by decide +kernel⟩, by decide +kernel⟩

/-- A load and an AMO of 4 bytes at 0x10. -/
def hostLoad (op : HostOp) : HostAcc := { op := op, va := 0x10, size := 2, zext := false, val := 3, rd := 6 }
/-- Hart 0 with tokens at its port. -/
def stHost : State :=
  let s := stHart .m
  { s with mem := { s.mem with tokens := (List.range 64).map (fun p => (p, 0, 16)) } }

theorem witness_HostFencesAndAccesses :
    (hartRuns stHost 0 = true ∧ (hostLoad .fence).op = .fence) ∧
    ((hartOf (stHart .m) 0).mode ≠ .u ∧ (hartOf (stHart .m) 0).mode ≠ .vu ∧ (hartOf (stHart .m) 0).mode ≠ .vs) ∧
    (hartOf (stHart .vs) 0).mode = .vs ∧ (hartOf (stHart .u) 0).mode = .u ∧
    (hartRuns stHost 0 = true ∧ (hostLoad .load).op ≠ .fence ∧ (hostLoad .load).op = .load ∧ ∃ segs s1, hostReach stHost 0 (accView (hartOf stHost 0) (hostLoad .load)) (opKind (hostLoad .load).op) 0x10 4 (accNeed (hostLoad .load)) = (.mem segs, s1)) ∧
    (hartRuns (stHart .u) 0 = true ∧ ∃ e s1, hostReach (stHart .u) 0 (accView (hartOf (stHart .u) 0) (hostLoad .load)) .load 0x10 4 (accNeed (hostLoad .load)) = (.exc e, s1)) ∧
    (hostLoad .amoadd).op ≠ .fence ∧ ({ hostLoad .amoadd with va := 0x11 } : HostAcc).va.toNat % 2 ^ (hostLoad .amoadd).size.toNat ≠ 0 ∧
    (∃ w : WaitEntry, ({ Hub.reset with waiters := [w] } : Hub).waiters.find? (fun w => w.who == .hart 0) = some w) :=
  ⟨⟨by decide +kernel, rfl⟩, by decide +kernel, by decide +kernel, by decide +kernel, ⟨by decide +kernel, by decide, rfl, _, _, rfl⟩, ⟨by decide +kernel, _, _, rfl⟩, by decide, by decide, ⟨{ who := .hart 0, va := 0, vmid := 0, asid := 0, spa := 0 }, rfl⟩⟩

/-- Hart 0 at an address whose bytes are `xtierq.lo x28, x0`; it runs in M mode with tokens. -/
def stFetch : State := stHost.withFetchWord 32 0x00003E0B

theorem witness_StepRuns_hart : ∃ h i s1 t, stFetch.agenda = [] ∧ stFetch.turn = .hart h ∧ nextHost stFetch h = .run i s1 ∧ exec i s1 = .next t := by
  have h : (match nextHost stFetch 0 with
    | .run i s1 => (match exec i s1 with | .next _ => true | _ => false)
    | _ => false) = true := by decide +kernel
  split at h
  · next i s1 hn =>
    split at h
    · next t ht => exact ⟨0, i, s1, t, by decide +kernel, by decide +kernel, hn, ht⟩
    · exact absurd h (by decide)
  · exact absurd h (by decide)

/-- The word is VCMP of v4 and v3, and v4 holds an uncorrectable error. -/
def stErr : State := { st [0x2600008100C00280] with mem := { MemSys.reset with errs := [{ place := .reg 64 4, unc := true }] } }

/-- One step of hart 0 at a word, with float and vector state on. -/
def hartStep (w : Nat) (h : Hart) : Option Hart :=
  match step (({ stHost with harts := [(0, { h with csrs := [(0x300, 0x2200), (0xC20, 2), (0xC21, 2 ^ 63 + 0x10)] })] } : State).withFetchWord 32 w) with
  | .next s => some (hartOf s 0)
  | _ => none

/-- RISC-V: `c.li x10, 5` moves the pc by 2; `fadd.d f3, f1, f2` of 1 and 2; `vadd.vv v3, v2, v1` of two elements of 32 bits; a reserved word is cause 2. -/
theorem test_riscv_compressed : (hartStep 0x4515 (hart .m)).any (fun h => rdX h 10 == 5 && h.pc == (hart .m).pc + 2) = true := by decide +kernel
theorem test_riscv_float :
    (hartStep 0x022081D3 { hart .m with f := [(1, 0x3FF0000000000000), (2, 0x4000000000000000)] }).any (fun h => sget h.f 3 == 0x4008000000000000) = true := by
  decide +kernel
theorem test_riscv_vector :
    (hartStep 0x022081D7 { hart .m with v := [(1, 0x700000005), (2, 0x140000000A)] }).any (fun h => sget h.v 3 == 0x1B0000000F) = true := by decide +kernel
theorem test_riscv_illegal : (hartStep 0x0000707F (hart .m)).any (fun h => h.mt.cause == 2 && h.mt.tval == 0x707F && h.pc == 0) = true := by decide +kernel

theorem witness_StepRuns_fetch : (hartOf stFetch 0).run = .running ∧ dueIntr (hartOf stFetch 0) = none ∧ (hartOf stFetch 0).pc.toNat % 4 = 0 ∧
    (match hartFetch stFetch 0 (hartOf stFetch 0).pc.toNat 4 with
    | .ok (n, _) => n % 4 == 3 && decodeHost (BitVec.ofNat 32 n) == .ok (.xtierqLo 28 0)
    | _ => false) = true := by decide +kernel

/-- At an `addi x6, x0, 1` the hart goes on by itself. -/
theorem witness_StepRuns_other : (match nextHost (stHost.withFetchWord 32 0x00100313) 0 with | .done _ => true | _ => false) = true := by decide +kernel

theorem witness_StepRuns_error : ∃ ag iss w i t, stErr.agenda = [] ∧ stErr.turn = .agent 64 ∧ aget stErr.agents 64 = some ag ∧
    ag.issue = some iss ∧ iss.words[iss.idx]? = some w ∧ decodeWord w = .ok i ∧ readChecked stErr 64 ag iss w i = some t := by
  have h : (readChecked stErr 64 (ag [0x2600008100C00280]) (iss [0x2600008100C00280]) 0x2600008100C00280
      (.vcmp p0 { fr 2 4 3 0 with ty := 5 })).isSome = true := by decide +kernel
  obtain ⟨t, ht⟩ := Option.isSome_iff_exists.1 h
  exact ⟨_, _, _, _, t, rfl, rfl, rfl, rfl, rfl, rfl, ht⟩

theorem witness_ResetState : (ag []).kind = .cohort ∧ 2 ≤ 9 := by decide

theorem witness_MemoryBytes : Memory.wf stPolicy.mem.cells = true ∧ stPolicy.mem.lineKeys = [] ∧ (aget stPolicy.mem.pages (4 / 2 ^ 19)).isSome = true := by
  decide +kernel

theorem witness_MemoryCanonical : Memory.wf (stPage 0 1).mem.cells = true := by decide

theorem witness_LocalStores : aget (st []).blocks 70 = some blk ∧ Sparse.wf blk.spm = true ∧ Sparse.wf blk.ec = true ∧ (5 < 6 ∨ 6 + 1 ≤ 5) ∧ 71 ≠ 70 ∧
    ∀ y ∈ (st []).mem.subs, y.block ≠ 70 := by
  decide +kernel

/-- Two producers of s4: the one that is ready at cycle 1 wins at cycle 2, the one of cycle 3 is not visible yet. -/
theorem witness_ProducerVisibility : ∃ p q : Producer, p.tgt = .s 4 ∧ q.tgt = .s 4 ∧ p.ready ≤ 2 ∧ (q.ready ≤ 2 → q.ready < p.ready) ∧
    ∀ x ∈ [q], x.tgt = .s 4 → 2 < x.ready :=
  ⟨{ tgt := .s 4, ready := 1, val := 7, mov := false }, { tgt := .s 4, ready := 3, val := 9, mov := false }, rfl, rfl, by decide, by decide, by decide⟩

theorem witness_IssueFrame : ∃ p : Producer, 63 ≠ (env []).aid ∧ p.tgt ≠ .v 5 31 ∧ (∀ m k, p.tgt = .v m k → k < 32) ∧ p.tgt ≠ .s 4 ∧ p.tgt ≠ .zncv ∧
    p.tgt ≠ .eBit ∧ p.tgt ≠ .qBit :=
  ⟨{ tgt := .v 4 31, ready := 1, val := 7, mov := false }, by decide, by decide, by intro m k h; cases h; decide, by decide, by decide, by decide, by decide⟩

theorem witness_TrapEntry : aget (st []).agents 64 = some (ag []) ∧ (ag []).kind ≠ .hubThread ∧ 63 ≠ 64 := by decide

/-- A cohort beside a ladle, and alone with a skip count of 16. -/
theorem witness_PickLaw :
    choose [(64, { ag [] with skip := 16 }), (65, { ag [] with kind := .ladle })] = some (65, []) ∧
    choose [(64, { ag [] with skip := 16 }), (65, ag [])] = some (64, [(64, { ag [] with skip := 16 }), (65, ag [])]) ∧
    choose [(64, { ag [] with yielded := true }), (65, ag [])] = some (65, [(64, { ag [] with yielded := true }), (65, ag [])]) := by
  decide +kernel

/-- A header mark, an undefined word, a system word at U, LEND in a cohort, BAR in a handler region, and a word that passes. -/
theorem witness_WordChecks :
    opOf 0xFFC8000800000000 = 0x3FF ∧ (ag []).level = .u ∧ opOf 0xFF80000000000000 ≠ 0x3FF ∧ (∃ x, decodeWord 0xFF80000000000000 = .error x) ∧
    (∃ i, decodeWord 0xC100000080C10802 = .ok i ∧ illegalFor (ag []) i = false ∧ isSystem (opcodeOf i) = true) ∧
    illegalFor (ag []) (.lend p0 (fe 0 1 0 0 0)) = true ∧ ladleForbids (.bar p0 (fm 0 1 0 0 0)) = true ∧
    (∃ i, decodeWord 0x00C0024240000001 = .ok i ∧ wordCheck (st []) (ag []) (headerOf 0xFFC4000000000000) false 0x00C0024240000001 = none) :=
  ⟨by decide, rfl, by decide, ⟨_, rfl⟩, ⟨_, rfl, by decide +kernel, by decide +kernel⟩, by decide, by decide, ⟨_, rfl, by decide +kernel⟩⟩


end Sys2Proof.Tests
end

/-! Proofs for the chapter of the scalar and control words: condition codes, division, fields of bits and masks. -/

namespace Sys2Proof.Claims

open Sys2Proof Sys2Proof.Machine

/-! ### Bits of a field of a number (R205) -/

theorem testBit_nbits (v lo n i : Nat) : (nbits v lo n).testBit i = (decide (i < n) && v.testBit (lo + i)) := by
  rw [nbits, Nat.testBit_mod_two_pow, Nat.testBit_div_two_pow, Nat.add_comm]

theorem nbits_lt (v lo n : Nat) : nbits v lo n < 2 ^ n := Nat.mod_lt _ (Nat.two_pow_pos n)

/-- A number whose field is replaced, as the parts above, in and below the field. -/
theorem nset_eq_parts (v lo n x : Nat) :
    nset v lo n x = 2 ^ lo * (2 ^ n * (v / 2 ^ lo / 2 ^ n) + x % 2 ^ n) + v % 2 ^ lo := by
  have hlo := Nat.div_add_mod v (2 ^ lo)
  have hn := congrArg (2 ^ lo * ·) (Nat.div_add_mod (v / 2 ^ lo) (2 ^ n))
  simp only [nset, nbits, Nat.mul_add, Nat.mul_comm _ (2 ^ lo)] at hn ⊢
  omega

theorem testBit_nset (v lo n x i : Nat) :
    (nset v lo n x).testBit i = if lo ≤ i ∧ i < lo + n then x.testBit (i - lo) else v.testBit i := by
  rw [nset_eq_parts, Nat.testBit_two_pow_mul_add _ (Nat.mod_lt _ (Nat.two_pow_pos lo))]
  by_cases below : i < lo
  · simp [below, Nat.testBit_mod_two_pow, show ¬ lo ≤ i by omega]
  · rw [if_neg below, Nat.testBit_two_pow_mul_add _ (Nat.mod_lt _ (Nat.two_pow_pos n))]
    by_cases inside : i - lo < n
    · simp [inside, Nat.testBit_mod_two_pow, show lo ≤ i ∧ i < lo + n by omega]
    · simp [inside, Nat.testBit_div_two_pow, show ¬ (lo ≤ i ∧ i < lo + n) by omega, show i - lo - n + n + lo = i by omega]

/-- Ones above a value of `w` bits: its sign extension where its sign bit is set. -/
theorem testBit_add_ones_above {f w n : Nat} (hf : f < 2 ^ w) (hw : w ≤ n) {i : Nat} (hi : i < n) :
    (f + (2 ^ n - 2 ^ w)).testBit i = if i < w then f.testBit i else true := by
  have ones : f + (2 ^ n - 2 ^ w) = 2 ^ w * (2 ^ (n - w) - 1) + f := by
    rw [Nat.mul_sub, ← Nat.pow_add, Nat.add_sub_cancel' hw, Nat.mul_one, Nat.add_comm]
  rw [ones, Nat.testBit_two_pow_mul_add _ hf, Nat.testBit_two_pow_sub_one]
  split_ifs with inside
  · rfl
  · exact decide_eq_true (by omega)

theorem nbits_zero (v n : Nat) : nbits v 0 n = v % 2 ^ n := by simp [nbits]

/-- R205: the position of a field operand. -/
theorem fieldPos_eq (b : DWord) : nbits b.toNat 0 6 = b.toNat % 64 := nbits_zero _ 6

theorem fieldWidth_eq (b : DWord) : fieldWidth b = min (b.toNat / 256 % 128) (64 - b.toNat % 64) := by
  rw [fieldWidth, fieldPos_eq]
  rfl

theorem fieldWidth_le (b : DWord) : fieldWidth b ≤ 64 := by
  rw [fieldWidth_eq]
  omega

/-- R205: the sign of a field that is not empty is its top bit. -/
theorem testBit_nbits_top {v lo n : Nat} (hn : 0 < n) : (nbits v lo n).testBit (n - 1) = v.testBit (lo + n - 1) := by
  rw [testBit_nbits, Nat.add_sub_assoc hn]
  simp [hn]

/-- R205: the bits of an extracted field: those of A from p on, and above them the sign of the field or zero. -/
theorem getLsbD_fieldExtract (sg : Bool) (a b : DWord) {i : Nat} (hi : i < 64) :
    (fieldExtract sg a b).getLsbD i =
      if i < fieldWidth b then a.getLsbD (b.toNat % 64 + i)
      else sg && decide (0 < fieldWidth b) && a.getLsbD (b.toNat % 64 + fieldWidth b - 1) := by
  simp only [fieldExtract, fieldPos_eq, beq_iff_eq]
  by_cases empty : fieldWidth b = 0
  · simp [empty]
  · have pos : 0 < fieldWidth b := Nat.pos_of_ne_zero empty
    rw [if_neg empty, testBit_nbits_top pos, BitVec.testBit_toNat]
    simp only [pos, decide_true, Bool.and_true]
    split_ifs with negative inside inside <;> rw [BitVec.getLsbD_ofNat]
    · rw [testBit_add_ones_above (nbits_lt _ _ _) (fieldWidth_le b) hi, testBit_nbits]
      simp [inside, hi, BitVec.testBit_toNat]
    · rw [testBit_add_ones_above (nbits_lt _ _ _) (fieldWidth_le b) hi]
      simp [inside, hi, negative]
    · simp [testBit_nbits, inside, hi, BitVec.testBit_toNat]
    · simp [testBit_nbits, inside, Bool.eq_false_iff.2 negative]

/-- R205: the bits after an insert: those of B in the field, those of A outside it. -/
theorem getLsbD_fieldInsert (a b c : DWord) {i : Nat} (hi : i < 64) :
    (fieldInsert a b c).getLsbD i =
      if c.toNat % 64 ≤ i ∧ i < c.toNat % 64 + fieldWidth c then b.getLsbD (i - c.toNat % 64) else a.getLsbD i := by
  simp only [fieldInsert, fieldPos_eq, BitVec.getLsbD_ofNat, hi, decide_true, Bool.true_and, testBit_nset, testBit_nbits, Nat.zero_add,
    BitVec.testBit_toNat]
  split_ifs with inside
  · simp [show i - c.toNat % 64 < fieldWidth c by omega]
  · rfl

/-! ### What the scalar and mask words issue (R197, R203, R207) -/

section
variable {s : State} {h : Pfx} {e : Env} (hr : Running s h false e) (hp : e.pass ≠ 0#32)
include hr hp

theorem scalarOp_running (r : FmtR) (op : Nat) (f : DWord → DWord → DWord) (ho : op < 0x80) :
    scalarOp s h r op f = .next (finish s e 1 (wrS e 1 r.d.toNat (f (rdS e r.a.toNat) (rdS e r.b.toNat)))) :=
  scalarWord_running hr hp op _ ho

theorem maskOp_running (r : FmtR) (op : Nat) (f : LaneSet → LaneSet → LaneSet) (ho : op < 0x80) :
    maskOp s h r op f = .next (finish s e 1 (wrK e 1 r.d.toNat (f (rdK e r.a.toNat) (rdK e r.b.toNat)))) :=
  scalarWord_running hr hp op _ ho

theorem maskToScalar_running (r : FmtR) (op : Nat) (f : LaneSet → Nat) (ho : op < 0x80) :
    maskToScalar s h r op f = .next (finish s e 1 (wrS e 1 r.d.toNat (BitVec.ofNat 64 (f (rdK e r.a.toNat))))) :=
  scalarWord_running hr hp op _ ho

/-- R203: a division word whose B is not 0 is a scalar word of two sources. -/
theorem divideWord_running (r : FmtR) (op : Nat) (f : DWord → DWord → DWord) (ho : op < 0x80) (hb : rdS e r.b.toNat ≠ 0) :
    divideWord s h r op f = .next (finish s e 1 (wrS e 1 r.d.toNat (f (rdS e r.a.toNat) (rdS e r.b.toNat)))) := by
  rw [divideWord, onIssue_running hr, ← scalarOp_running hr hp r op f ho, if_neg]
  simpa using fun _ => hb

/-- R203: a division word whose B is 0 traps at issue. -/
theorem divideWord_traps (r : FmtR) (op : Nat) (f : DWord → DWord → DWord) (hb : rdS e r.b.toNat = 0) :
    divideWord s h r op f = .next (issueTrap s e (issueReq e .divideByZero 0 0)) := by
  rw [divideWord, onIssue_running hr]
  simp [hp, hb]

end

/-- R205: `SBFI` reads three registers, so it is no word of two sources. -/
theorem exec_sbfi (h : Pfx) (r : FmtR) (s : State) : exec (.sbfi h r) s =
    scalarWord s h 0x015 (fun e => wrS e 1 r.d.toNat (fieldInsert (rdS e r.a.toNat) (rdS e r.b.toNat) (rdS e r.c.toNat))) := rfl

/-- R207: `KMOV kD, sA`. -/
theorem exec_kmovFromS (h : Pfx) (r : FmtR) (s : State) : exec (.kmovFromS h r) s =
    scalarWord s h 0x040 (fun e => wrK e 1 r.d.toNat ((rdS e r.a.toNat).setWidth 32)) := rfl

/-- R207: `KSET`, with lo = IMM[4:0] and n = IMM[10:5]. -/
theorem exec_kset (h : Pfx) (m : FmtI) (s : State) : exec (.kset h m) s =
    scalarWord s h 0x047 (fun e =>
      wrK e 1 m.d.toNat (BitVec.ofNat 32 ((2 ^ (m.imm.toNat / 32 % 64) - 1) * 2 ^ (m.imm.toNat % 32)))) := by
  have lo : nbits m.imm.toNat 0 5 = m.imm.toNat % 32 := nbits_zero _ 5
  rw [← lo]
  rfl

/-! ### Division (R203) -/

/-- R203: rem = a − q × b, in either signedness. -/
theorem remainder_eq_sub_quotient_mul (sg : Bool) (a b : DWord) :
    remainder sg a b = if sg then BitVec.ofInt 64 (a.toInt - a.toInt.tdiv b.toInt * b.toInt)
      else BitVec.ofNat 64 (a.toNat - a.toNat / b.toNat * b.toNat) := by
  rw [remainder, Int.tmod_def, Nat.mod_def, Int.mul_comm, Nat.mul_comm]

/-! ### The flags of a subtraction and the condition codes (R199, R201) -/

theorem withZncv_zncv (f : FlagSet) (v c n z : Bool) : withZncv f (zncv v c n z) = { f with v := v, c := c, n := n, z := z } := by
  simp only [withZncv, zncv, BitVec.getLsbD_setWidth, BitVec.getLsbD_append]
  simp

/-- R201: a value in the signedness of a condition code's column. -/
def reading (unsigned : Bool) (a : DWord) : Int := if unsigned then a.toNat else a.toInt

theorem reading_inj {us : Bool} {a b : DWord} : reading us a = reading us b ↔ a = b := by
  cases us with
  | false => exact BitVec.toInt_inj
  | true => exact Int.natCast_inj.trans BitVec.toNat_inj

/-- R199: N and V differ after a subtraction exactly where A is the lesser: the sign of the wrapped difference is wrong where it overflows. -/
theorem msb_sub_bne_sOverflow (a b : DWord) : ((a - b).msb != sOverflow (a.toInt - b.toInt)) = decide (a.toInt < b.toInt) := by
  have ha := a.toInt_lt
  have ha' := a.le_toInt
  have hb := b.toInt_lt
  have hb' := b.le_toInt
  rw [BitVec.msb_eq_toInt, BitVec.toInt_sub, sOverflow, ← Bool.decide_or, Bool.eq_iff_iff, bne_iff_ne, ne_eq, decide_eq_decide,
    decide_eq_true_iff, Int.bmod_def]
  split_ifs <;> omega

/-- R201: code 0 after a subtraction: equal. -/
theorem condHolds_eq_flagsSub (us : Bool) (f : FlagSet) (a b : DWord) :
    condHolds 0 us (withZncv f (flagsSub a b)) = decide (reading us a = reading us b) := by
  simp only [flagsSub, withZncv_zncv, condHolds, reading_inj]
  exact decide_eq_decide.2 sub_eq_zero

/-- R201: code 2 after a subtraction: less. -/
theorem condHolds_lt_flagsSub (us : Bool) (f : FlagSet) (a b : DWord) :
    condHolds 2 us (withZncv f (flagsSub a b)) = decide (reading us a < reading us b) := by
  rw [flagsSub, withZncv_zncv]
  cases us with
  | false => exact msb_sub_bne_sOverflow a b
  | true => simp [condHolds, reading]

/-- R201: code 1 is the negation of code 0. -/
theorem condHolds_ne (us : Bool) (f : FlagSet) : condHolds 1 us f = !condHolds 0 us f := rfl

/-- R201: code 3 is code 2 or code 0. -/
theorem condHolds_le (us : Bool) (f : FlagSet) : condHolds 3 us f = (condHolds 2 us f || condHolds 0 us f) := by
  cases us with
  | false => exact Bool.or_comm _ _
  | true => rfl

/-- R201: code 5 is the negation of code 2. -/
theorem condHolds_ge (us : Bool) (f : FlagSet) : condHolds 5 us f = !condHolds 2 us f := by
  cases us with
  | false => simp [condHolds, bne]
  | true => rfl

/-- R201: code 4 is the negation of code 3. -/
theorem condHolds_gt (us : Bool) (f : FlagSet) : condHolds 4 us f = !condHolds 3 us f := by
  cases us with
  | false => simp [condHolds, bne]
  | true => exact (Bool.not_or _ _).symm

theorem condHolds_ne_flagsSub (us : Bool) (f : FlagSet) (a b : DWord) :
    condHolds 1 us (withZncv f (flagsSub a b)) = decide (reading us a ≠ reading us b) := by
  rw [condHolds_ne, condHolds_eq_flagsSub, decide_not]

theorem condHolds_le_flagsSub (us : Bool) (f : FlagSet) (a b : DWord) :
    condHolds 3 us (withZncv f (flagsSub a b)) = decide (reading us a ≤ reading us b) := by
  rw [condHolds_le, condHolds_lt_flagsSub, condHolds_eq_flagsSub]
  simp [le_iff_lt_or_eq]

theorem condHolds_gt_flagsSub (us : Bool) (f : FlagSet) (a b : DWord) :
    condHolds 4 us (withZncv f (flagsSub a b)) = decide (reading us b < reading us a) := by
  rw [condHolds_gt, condHolds_le_flagsSub, ← decide_not, decide_eq_decide, not_le]

theorem condHolds_ge_flagsSub (us : Bool) (f : FlagSet) (a b : DWord) :
    condHolds 5 us (withZncv f (flagsSub a b)) = decide (reading us b ≤ reading us a) := by
  rw [condHolds_ge, condHolds_lt_flagsSub, ← decide_not, decide_eq_decide, not_lt]

/-! ### Masks and the mask words that do not decode (R174, R175, R207) -/

/-- R207: the set bits of a mask, counted. -/
theorem popcount_eq_filter (a : LaneSet) : popcount a.toNat 32 = ((List.range 32).filter (fun i => a.getLsbD i)).length := rfl

/-- R207: the first lane of a set is the first index whose bit is set. -/
theorem firstSet_eq_find (a : LaneSet) : firstSet a = ((List.range 32).find? (fun i => a.getLsbD i)).getD 32 := by
  rw [← List.head?_filter]
  change firstSet a = (lanesOf a).head?.getD 32
  unfold firstSet
  split <;> simp [*]

/-- R175: a word in an instruction position that does not decode is an illegal instruction. -/
theorem wordCheck_of_decodeWord_error {w : DWord} {x : Reject} (hm : opOf w ≠ 0x3FF) (hd : decodeWord w = .error x) (s : State) (ag : Agent)
    (hdr : Header) (last : Bool) : wordCheck s ag hdr last w = some .illegal := by
  have mark : (opOf w).toNat ≠ 0x3FF := fun k => hm (BitVec.eq_of_toNat_eq k)
  simp [wordCheck, mark, hd]

/-- R207: the rows of `KMOV`, one for each of the SUB values 0 to 2. -/
theorem decodeOp_kmov (h : Pfx) (w : DWord) : decodeOp 0x040 h w =
    if (fmtR w).sub == 0 then some (.kmovK h (fmtR w)) else if (fmtR w).sub == 1 then some (.kmovFromS h (fmtR w))
    else if (fmtR w).sub == 2 then some (.kmovToS h (fmtR w)) else none := rfl

/-- R207: `KMOV` with a SUB of 3 to 7 has no row. -/
theorem decodeWord_kmov_error {w : DWord} (ho : opOf w = 0x040) (hsub : 3 ≤ (fmtR w).sub.toNat) : decodeWord w = .error .opcode := by
  have other (k : BitVec 3) (hk : k.toNat < 3) : ¬ ((fmtR w).sub == k) = true := by
    rw [beq_iff_eq]
    rintro rfl
    omega
  have noRow : decodeOp 0x040 (pfxOf w) w = none := by
    rw [decodeOp_kmov, if_neg (other 0 (by decide)), if_neg (other 1 (by decide)), if_neg (other 2 (by decide))]
  rw [decodeWord, ho]
  simp [noRow]

/-- R207: the rules of the fields of `KSET`. -/
theorem fieldsOf_kset (h : Pfx) (m : FmtI) : fieldsOf (.kset h m) = (m.a == 0 && decide (m.imm.toNat / 2048 = 0)
    && decide (m.imm.toNat / 32 ≤ 32) && decide (m.imm.toNat % 32 + m.imm.toNat / 32 ≤ 32)) := rfl

/-- R174, R207: `KSET` with A or IMM[29:11] set, or with bits that leave the mask. -/
theorem decodeWord_kset_error {w : DWord} (ho : opOf w = 0x047)
    (hf : (fmtI w).a ≠ 0 ∨ (fmtI w).imm.toNat / 2 ^ 11 ≠ 0 ∨ 32 < (fmtI w).imm.toNat / 32 % 64
      ∨ 32 < (fmtI w).imm.toNat % 32 + (fmtI w).imm.toNat / 32 % 64) : decodeWord w = .error .field := by
  have row : decodeOp 0x047 (pfxOf w) w = some (.kset (pfxOf w) (fmtI w)) := rfl
  have ill : wellFormed (.kset (pfxOf w) (fmtI w)) ≠ true := by
    intro wf
    have rules := fieldsOf_of_wellFormed wf
    simp only [fieldsOf_kset, Bool.and_eq_true, beq_iff_eq, decide_eq_true_eq] at rules
    obtain ⟨⟨⟨ha, himm⟩, hn⟩, hlo⟩ := rules
    rcases hf with hf | hf
    · exact hf ha
    · omega
  rw [decodeWord, ho]
  simp [row, ill]

/-! ### The obligations of the scalar and mask words -/

/-- Settles O7: codes 0 and 2 after a subtraction state equality and order, and the others are read off them. -/
theorem conditionCodes : Obligations.ConditionCodes := by
  intro f a b
  simp only [condHolds_eq_flagsSub, condHolds_ne_flagsSub, condHolds_lt_flagsSub, condHolds_le_flagsSub, condHolds_gt_flagsSub,
    condHolds_ge_flagsSub, ne_eq, reading_inj]
  simp [condHolds, reading]

/-- Settles O8: a division word is a scalar word of two sources where B is not 0, and its remainder is what the quotient leaves. -/
theorem scalarDivide : Obligations.ScalarDivide := by
  intro s h r e hr hp
  refine ⟨fun hb => ⟨divideWord_running hr hp r _ _ (by decide) hb, ?_⟩,
    fun hb => ⟨divideWord_traps hr hp r _ _ hb, divideWord_traps hr hp r _ _ hb⟩⟩
  rw [← remainder_eq_sub_quotient_mul]
  exact divideWord_running hr hp r _ _ (by decide) hb

/-- Settles O10: the bits of the two field functions. -/
theorem fieldBits : Obligations.FieldBits := by
  intro s h r e hr hp
  simp only [← fieldWidth_eq]
  refine ⟨⟨fieldExtract (isSigned r) _ _, scalarOp_running hr hp r 0x014 _ (by decide), fun _ hi => getLsbD_fieldExtract _ _ _ hi⟩,
    fieldInsert _ _ _, ?_, fun _ hi => getLsbD_fieldInsert _ _ _ hi⟩
  rw [exec_sbfi, scalarWord_running hr hp _ _ (by decide)]

/-- Settles O12: each mask word issues its one producer; a word without a row, or whose fields break a rule, is illegal at decode. -/
theorem maskResults : Obligations.MaskResults := by
  intro s h r m e hr hp
  refine ⟨maskOp_running hr hp r 0x040 (fun a _ => a) (by decide), ?_, maskToScalar_running hr hp r 0x040 (fun a => a.toNat) (by decide),
    maskOp_running hr hp r 0x041 (fun a b => a &&& b) (by decide), maskOp_running hr hp r 0x042 (fun a b => a ||| b) (by decide),
    maskOp_running hr hp r 0x043 (fun a b => a ^^^ b) (by decide), maskOp_running hr hp r 0x044 (fun a _ => ~~~a) (by decide),
    ?_, ?_, ?_, ?_, ?_⟩
  · rw [exec_kmovFromS, scalarWord_running hr hp _ _ (by decide)]
  · rw [← popcount_eq_filter]
    exact maskToScalar_running hr hp r 0x045 (fun a => popcount a.toNat 32) (by decide)
  · rw [← firstSet_eq_find]
    exact maskToScalar_running hr hp r 0x046 firstSet (by decide)
  · rw [exec_kset, scalarWord_running hr hp _ _ (by decide)]
  · intro w ho hsub
    have hd := decodeWord_kmov_error ho hsub
    exact ⟨hd, wordCheck_of_decodeWord_error (by rw [ho]; decide) hd s⟩
  · intro w ho x hf
    have hd := decodeWord_kset_error ho hf
    exact ⟨hd, wordCheck_of_decodeWord_error (by rw [ho]; decide) hd s⟩

end Sys2Proof.Claims

/-! Every step keeps the canonical form of memory: the words that do more than their shared form, the events, what a clock brings, the step. -/

namespace Sys2Proof.Machine

/-! ### Outcomes -/

/-- What is the next state of an outcome, or else the state before, is canonical. -/
theorem orSame_canonical {s : State} {o : Out} (hc : Canonical s) (ho : ∀ t, o = .next t → Canonical t) : Canonical (orSame s o) := by
  cases o with
  | next t => exact ho t rfl
  | fault _ => exact hc
  | refused _ => exact hc

theorem sweep_canonical {l : List Nat} {f : Nat → State → Out} {s : State}
    (hf : ∀ n s t, Canonical s → f n s = .next t → Canonical t) (hc : Canonical s) : Canonical (sweep l f s) :=
  foldl_canonical (fun _ n h => orSame_canonical h fun _ => hf n _ _ h) hc

theorem onBeat_canonical {period : Nat} {f : State → State} {s : State} (hf : ∀ s, Canonical s → Canonical (f s)) (hc : Canonical s) :
    Canonical (onBeat period f s) :=
  ite_canonical hc (hf s hc)

/-- A state whose memory system keeps the listed bytes. -/
theorem withMem_canonical {s : State} {m : MemSys} (hc : Canonical s) (h : m.cells = s.mem.cells) : Canonical { s with mem := m } := by
  rw [Canonical, h]
  exact hc

/-! ### Words that do more than their shared form -/

section Words

variable {s t : State} (hc : Canonical s)
include hc

theorem execMovrs_canonical (h : Pfx) (r : FmtR) (ht : execMovrs h r s = .next t) : Canonical t := by
  refine onIssue_canonical h false _ (fun e he => ?_) ht
  split at he
  · exact scalarWord_canonical _ _ _ hc he
  · exact scalarWord_canonical _ _ _ (modBlock_canonical _ _ hc) he

theorem execReconv_canonical (h : Pfx) (r : FmtR) (ht : execReconv h r s = .next t) : Canonical t :=
  onIssue_canonical h false _ (fun _ he => next_canonical he (finish_canonical _ _ _ hc)) ht

theorem execExit_canonical (h : Pfx) (r : FmtR) (ht : execExit h r s = .next t) : Canonical t :=
  onIssue_canonical h false _ (fun _ he => next_canonical he (evalBarriers_canonical (finish_canonical _ _ _ hc))) ht

theorem execPfh_canonical (h : Pfx) (r : FmtM) (ht : execPfh h r s = .next t) : Canonical t :=
  varWord_canonical h _ _ _ (fun _ => ite_canonical (holdWord_canonical hc)
    (foldl_canonical (fun _ l g => prefetchLane_canonical _ r l g) (finish_canonical _ _ _ hc))) hc ht

theorem execFence_canonical (h : Pfx) (r : FmtM) (ht : execFence h r s = .next t) : Canonical t :=
  varWord_canonical h _ _ _ (fun e => homeAll_canonical _ (startOp_canonical e _ hc)) hc ht

theorem execBarw_canonical (h : Pfx) (r : FmtM) (ht : execBarw h r s = .next t) : Canonical t :=
  varWord_canonical h _ _ _ (fun _ => ite_canonical (holdWord_canonical hc) (finish_canonical _ _ _ (acquireBy_canonical _ _ hc))) hc ht

theorem execWaitva_canonical (h : Pfx) (r : FmtM) (ht : execWaitva h r s = .next t) : Canonical t :=
  varWord_canonical h _ _ _ (fun e => modAgent_canonical _ _ (startOp_canonical e _ hc)) hc ht

theorem execEcwait_canonical (h : Pfx) (r : FmtM) (ht : execEcwait h r s = .next t) : Canonical t :=
  varWord_canonical h _ _ _ (fun _ => ite_canonical (holdWord_canonical hc) (finish_canonical _ _ _ (acquireBy_canonical _ _ hc))) hc ht

theorem execFwait_canonical (h : Pfx) (r : FmtM) (ht : execFwait h r s = .next t) : Canonical t := by
  refine onIssue_canonical h false _ (fun e he => ?_) ht
  split at he
  · exact next_canonical he (holdWord_canonical hc)
  · exact next_canonical he (finish_canonical _ _ _ hc)

theorem execPubfl_canonical (h : Pfx) (r : FmtE) (ht : execPubfl h r s = .next t) : Canonical t := by
  unfold execPubfl at ht
  split at ht
  · next s1 a ag iss he _ =>
    have h1 := engineWord_canonical _ _ _ _ hc he
    exact next_canonical ht (ite_canonical h1 (sendOfCore_canonical _ h1))
  · exact engineWord_canonical _ _ _ _ hc ht

theorem execQfence_canonical (h : Pfx) (r : FmtE) (ht : execQfence h r s = .next t) : Canonical t := by
  unfold execQfence at ht
  split at ht
  · next s1 he =>
    have h1 := engineWord_canonical _ _ _ _ hc he
    refine next_canonical ht ?_
    split
    · exact ite_canonical (completeCmd_canonical _ _ h1) h1
    · exact h1
  · exact engineWord_canonical _ _ _ _ hc ht

theorem execPush_canonical (h : Pfx) (r : FmtE) (ht : execPush h r s = .next t) : Canonical t := by
  refine onIssue_canonical h false _ (fun e he => ?_) ht
  split at he
  · exact next_canonical he (finish_canonical _ _ _ hc)
  · split at he
    · exact next_canonical he (holdWord_canonical hc)
    · exact next_canonical he (homeAll_canonical _ (startOp_canonical e _ hc))

theorem execMovpr_canonical (h : Pfx) (r : FmtR) (ht : execMovpr h r s = .next t) : Canonical t :=
  onIssue_canonical h false _ (fun _ he => next_canonical he (finish_canonical _ _ _ hc)) ht

theorem execMovrp_canonical (h : Pfx) (r : FmtR) (ht : execMovrp h r s = .next t) : Canonical t := by
  refine onIssue_canonical h false _ (fun e he => ?_) ht
  dsimp only at he
  split at he
  · exact next_canonical he (issueTrap_canonical _ _ hc)
  · exact next_canonical he (finish_canonical _ _ _ hc)

theorem execHalt_canonical (h : Pfx) (r : FmtE) (ht : execHalt h r s = .next t) : Canonical t :=
  onIssue_canonical h false _ (fun _ he => next_canonical he (finish_canonical _ _ _ hc)) ht

/-! ### Words of the harts -/

theorem onHart_place_canonical (k : PlaceKind) (d a b : BitVec 5)
    (ht : onHart s (fun h x => .next (hostPlace s h x k d (rdX x a).toNat (rdX x b).toNat)) = .next t) : Canonical t :=
  onHart_canonical _ (fun _ _ he => next_canonical he (hostPlace_canonical _ _ _ _ _ _ hc)) ht

theorem onHart_tierq_canonical (d a : BitVec 5) (hi : Nat)
    (ht : onHart s (fun h x => .next (hostTierq s h x d (rdX x a).toNat hi)) = .next t) : Canonical t :=
  onHart_canonical _ (fun _ _ he => next_canonical he (hostTierq_canonical _ _ _ _ _ hc)) ht

theorem onHart_wait_canonical (d a b : BitVec 5) (n : Nat)
    (ht : onHart s (fun h x => .next (hostWait s h x d (rdX x a).toNat n (rdX x b).toNat)) = .next t) : Canonical t :=
  onHart_canonical _ (fun _ _ he => next_canonical he (hostWait_canonical _ _ _ _ _ _ hc)) ht

theorem hostFence_canonical (h : Nat) (f : State → List (Nat × Nat) × State) (hf : Canonical (f s).2) : Canonical (hostFence s h f) := by
  grind [hostFence]

/-- A fence of a hart: the exception of a mode that may not run it, or its effect. -/
theorem fence_outcome_canonical {h : Nat} {bars : Option Nat} {word : Nat} {f : State → List (Nat × Nat) × State} (hf : Canonical (f s).2)
    (ht : (match bars with
      | some c => .next (hartTrap s h c word 0)
      | none => .next (hostFence s h f) : Out) = .next t) : Canonical t := by
  cases bars with
  | some c => exact next_canonical ht (hartTrap_canonical _ _ _ _ hc)
  | none => exact next_canonical ht (hostFence_canonical hc _ _ hf)

theorem execXwakeva_canonical (d a b : BitVec 5) (ht : execXwakeva d a b s = .next t) : Canonical t := by
  refine onHart_canonical _ (fun h x he => ?_) ht
  grind [Canonical]

end Words

/-! ### Events -/

section Events

variable {s t : State} (hc : Canonical s)
include hc

theorem replay_canonical (l : List FaultGroup) : Canonical (l.foldl askReplay s) := foldl_canonical (fun _ _ h => askReplay_canonical _ h) hc

theorem execFqreplay_canonical (w : Writer) (v : BitVec 64) (ht : execFqreplay w v s = .next t) : Canonical t := by
  unfold execFqreplay at ht
  split at ht
  · exact next_canonical ht hc
  · exact next_canonical ht (replay_canonical hc _)

theorem execFqreplayh_canonical (w : Writer) (v : BitVec 64) (ht : execFqreplayh w v s = .next t) : Canonical t := by
  unfold execFqreplayh at ht
  split at ht
  · exact next_canonical ht hc
  · exact next_canonical ht (replay_canonical hc _)

theorem execQwrWrite_canonical (w : Writer) (q : Nat) (v : BitVec 64) (ht : execQwrWrite w q v s = .next t) : Canonical t :=
  next_canonical ht (ite_canonical (qwrTake_canonical _ _ hc) hc)

theorem execQcfgWrite_canonical (w : Writer) (q : Nat) (v : BitVec 64) (ht : execQcfgWrite w q v s = .next t) : Canonical t := by
  unfold execQcfgWrite at ht
  extract_lets x new foreign at ht
  split at ht
  · exact next_canonical ht hc
  · exact next_canonical ht (putQueue_canonical _ _ hc)

theorem execHintbudWrite_canonical (w : Writer) (ctx : Nat) (v : BitVec 64) (ht : execHintbudWrite w ctx v s = .next t) : Canonical t :=
  next_canonical ht (ite_canonical (ctxRegWrite_canonical _ _ _ hc) hc)

theorem execWwend_canonical (w : Writer) (v : BitVec 64) (ht : execWwend w v s = .next t) : Canonical t := by
  unfold execWwend at ht
  dsimp only at ht
  split at ht
  · exact next_canonical ht hc
  · exact next_canonical ht (ctxRegWrite_canonical _ _ _ hc)

theorem execRegisterWrite_canonical (w : Writer) (ofs : Nat) (v : BitVec 64) (ht : execRegisterWrite w ofs v s = .next t) : Canonical t :=
  next_canonical ht (ite_canonical (regWrite_canonical _ _ hc) hc)

theorem execTrapactEnd_canonical (w : Writer) (id : BitVec 32) (ht : execTrapactEnd w id s = .next t) : Canonical t := by
  unfold execTrapactEnd at ht
  (repeat' split at ht) <;> grind [Canonical]

theorem execEndctx_canonical (w : Writer) (ctx : Nat) (ht : execEndctx w ctx s = .next t) : Canonical t :=
  next_canonical ht (ite_canonical (endContext_canonical _ hc) hc)

theorem execPooltake_canonical (w : Writer) (v : BitVec 64) (ht : execPooltake w v s = .next t) : Canonical t := by
  unfold execPooltake at ht
  dsimp only at ht
  split at ht
  · exact next_canonical ht hc
  have h1 := ownRead_canonical (nbits v.toNat 0 27) hc
  split at ht
  · exact next_canonical ht h1
  have h2 := ownWrite_canonical (nbits v.toNat 0 27) (ownHand (ownRead s (nbits v.toNat 0 27)).1 (pkgNum (ownRead s (nbits v.toNat 0 27)).2) 3) h1
  split at ht
  · exact next_canonical ht (ownWrite_canonical _ _ h2)
  · exact next_canonical ht (foldl_canonical (fun _ _ h => takePage_canonical _ h) h2)

theorem execPartctlMerge_canonical (w : Writer) (v : BitVec 64) (ht : execPartctlMerge w v s = .next t) : Canonical t :=
  next_canonical ht (ite_canonical (cutRequest_canonical _ _ hc) hc)

theorem execPartctlSplit_canonical (w : Writer) (v : BitVec 64) (ht : execPartctlSplit w v s = .next t) : Canonical t :=
  next_canonical ht (ite_canonical (cutRequest_canonical _ _ hc) hc)

theorem execIprofWrite_canonical (w : Writer) (n i : Nat) (v : BitVec 64) (ht : execIprofWrite w n i v s = .next t) : Canonical t := by
  unfold execIprofWrite at ht
  dsimp only at ht
  (repeat' split at ht) <;> exact next_canonical ht hc

theorem execCtxqosWrite_canonical (w : Writer) (ctx : Nat) (v : BitVec 64) (ht : execCtxqosWrite w ctx v s = .next t) : Canonical t := by
  unfold execCtxqosWrite at ht
  dsimp only at ht
  split at ht
  · exact next_canonical ht hc
  · exact next_canonical ht (putCtx_canonical _ _ hc)

theorem execL2bktWrite_canonical (w : Writer) (n : Nat) (v : BitVec 64) (ht : execL2bktWrite w n v s = .next t) : Canonical t := by
  unfold execL2bktWrite at ht
  split at ht
  · exact next_canonical ht hc
  · exact next_canonical ht (ite_canonical hc hc)

theorem execPortWrite_canonical (w : Writer) (n : Nat) (v : BitVec 64) (ht : execPortWrite w n v s = .next t) : Canonical t := by
  unfold execPortWrite at ht
  dsimp only at ht
  split at ht <;> exact next_canonical ht hc

theorem execFwctlSwitch_canonical (w : Writer) (v : BitVec 64) (ht : execFwctlSwitch w v s = .next t) : Canonical t :=
  next_canonical ht (ite_canonical hc hc)

theorem execAccessCompletion_canonical (op : Nat) (ht : execAccessCompletion op s = .next t) : Canonical t := by
  unfold execAccessCompletion at ht
  split at ht
  · exact next_canonical ht (ite_canonical (completeOp_canonical _ _ hc) hc)
  · exact next_canonical ht hc

theorem execWalk_canonical (op part : Nat) (ht : execWalk op part s = .next t) : Canonical t := by
  unfold execWalk at ht
  split at ht
  · exact next_canonical ht hc
  · split at ht
    · exact next_canonical ht (ite_canonical (walkOp_canonical _ _ _ hc) hc)
    · exact next_canonical ht hc

theorem execUpdateBufferTimeout_canonical (core : Nat) (ht : execUpdateBufferTimeout core s = .next t) : Canonical t :=
  next_canonical ht (ite_canonical (sendOfCore_canonical _ hc) hc)

theorem execUpdateApply_canonical (upd : Nat) (ht : execUpdateApply upd s = .next t) : Canonical t := by
  unfold execUpdateApply at ht
  split at ht
  · exact next_canonical ht hc
  · exact next_canonical ht (ite_canonical hc (applyUpdate_canonical _ hc))

theorem execEngineCommandStart_canonical (cmd : Nat) (ht : execEngineCommandStart cmd s = .next t) : Canonical t := by
  unfold execEngineCommandStart at ht
  split at ht
  · exact next_canonical ht hc
  · exact next_canonical ht (ite_canonical (startCmd_canonical _ _ hc) hc)

theorem execMmaEngineExit_canonical (core : Nat) (ht : execMmaEngineExit core s = .next t) : Canonical t := by
  unfold execMmaEngineExit at ht
  split at ht
  · split at ht
    · exact next_canonical ht (runCycles_canonical _ _ hc)
    · split at ht
      · exact next_canonical ht (modCmd_canonical _ _ (doMma_canonical _ _ _ _ hc))
      · exact next_canonical ht hc
  · exact next_canonical ht hc

theorem execEngineCommandComplete_canonical (cmd : Nat) (ht : execEngineCommandComplete cmd s = .next t) : Canonical t := by
  unfold execEngineCommandComplete at ht
  split at ht
  · exact next_canonical ht (ite_canonical (completeCmd_canonical _ _ hc) hc)
  · exact next_canonical ht hc

theorem execLadleBirth_canonical (core slot : Nat) (ht : execLadleBirth core slot s = .next t) : Canonical t := by
  unfold execLadleBirth at ht
  (repeat' split at ht) <;> grind [Canonical]

theorem execLadleEnd_canonical (core slot : Nat) (ht : execLadleEnd core slot s = .next t) : Canonical t := by
  unfold execLadleEnd at ht
  (repeat' split at ht) <;> grind [Canonical]

theorem execFinaleBirth_canonical (cmd slot : Nat) (ht : execFinaleBirth cmd slot s = .next t) : Canonical t := by
  unfold execFinaleBirth at ht
  (repeat' split at ht) <;> grind [Canonical]

theorem execDispatchPlacement_canonical (ht : execDispatchPlacement s = .next t) : Canonical t := by
  unfold execDispatchPlacement at ht
  split at ht
  · exact next_canonical ht hc
  · next id u hp =>
    obtain ⟨id', -, h⟩ := List.exists_of_findSome?_eq_some hp
    obtain ⟨u', hu, he⟩ := Option.map_eq_some_iff.1 h
    obtain ⟨rfl, rfl⟩ := Prod.mk.inj he
    have h1 : Canonical u' := tryPlace_canonical id' hc hu
    exact next_canonical ht (startAll_canonical h1)

theorem execHubThreadWake_canonical (n : Nat) (ht : execHubThreadWake n s = .next t) : Canonical t :=
  next_canonical ht (ite_canonical (modAgent_canonical _ _ hc) hc)

theorem execPacketAccept_canonical (q : Nat) (ht : execPacketAccept q s = .next t) : Canonical t := by
  unfold execPacketAccept at ht
  grind

theorem execPacketStart_canonical (q : Nat) (ht : execPacketStart q s = .next t) : Canonical t := by
  unfold execPacketStart at ht
  split at ht
  · exact next_canonical ht (ite_canonical (modPkt_canonical _ _ _ hc) hc)
  · exact next_canonical ht hc

theorem execLaunchPacket_canonical (q pos : Nat) (ht : execLaunchPacket q pos s = .next t) : Canonical t := by
  unfold execLaunchPacket at ht
  repeat' split at ht
  grind [Canonical]

theorem execMigrateRequest_canonical (q pos : Nat) (ht : execMigrateRequest q pos s = .next t) : Canonical t := by
  unfold execMigrateRequest at ht
  grind [Canonical]

theorem execServiceCall_canonical (call : Nat) (ht : execServiceCall call s = .next t) : Canonical t := by
  unfold execServiceCall at ht
  (repeat' split at ht) <;> grind [Canonical]

theorem execServiceReply_canonical (q pos : Nat) (ht : execServiceReply q pos s = .next t) : Canonical t := by
  unfold execServiceReply at ht
  grind [Canonical]

theorem execDeferredAppend_canonical (core idx : Nat) (ht : execDeferredAppend core idx s = .next t) : Canonical t := by
  unfold execDeferredAppend at ht
  (repeat' split at ht) <;> grind [Canonical]

theorem execPowerWindow_canonical (excess : BitVec 2) (ht : execPowerWindow excess s = .next t) : Canonical t :=
  next_canonical ht (foldl_canonical (fun _ _ h => grantPart_canonical _ _ h) hc)

theorem execHintRefill_canonical (ctx : Nat) (ht : execHintRefill ctx s = .next t) : Canonical t :=
  next_canonical ht (ite_canonical hc (hintRefill_canonical _ _ hc))

theorem execSaveComplete_canonical (ctx : Nat) (ht : execSaveComplete ctx s = .next t) : Canonical t := by
  unfold execSaveComplete at ht
  split at ht
  · exact next_canonical ht hc
  · split at ht
    · exact next_canonical ht hc
    · have h1 := findSaved_canonical ctx (settleCtx_canonical ctx hc)
      exact next_canonical ht (endRequest_canonical _ _ (freeCtx_canonical _ (writeArea_canonical _ h1)))

theorem execRestoreComplete_canonical (ctx : Nat) (ht : execRestoreComplete ctx s = .next t) : Canonical t := by
  unfold execRestoreComplete at ht
  split at ht
  · next p x _ _ =>
    have h1 := touchArea_canonical x hc
    dsimp only at ht
    split at ht
    · exact next_canonical ht hc
    · split at ht
      · exact next_canonical ht (endRequest_canonical _ _ hc)
      · split at ht
        · exact next_canonical ht hc
        · split at ht
          · exact next_canonical ht (endRequest_canonical _ _ h1)
          · split at ht
            · exact next_canonical ht (endRequest_canonical _ _ h1)
            · split at ht
              · exact next_canonical ht (endRequest_canonical _ _ h1)
              · split at ht
                · next hfit => exact next_canonical ht (endRequest_canonical _ _ (restoreCtx_canonical _ _ h1 hfit))
                · exact next_canonical ht h1
  · exact next_canonical ht hc

theorem execFlitPayloadError_canonical (ctx : Nat) (ht : execFlitPayloadError ctx s = .next t) : Canonical t :=
  next_canonical ht (postQueue_canonical _ (hubErrorRecord_canonical _ _ _ _ _ _ (endContext_canonical _ hc)))

theorem execFlitHeaderError_canonical (part : Nat) (ht : execFlitHeaderError part s = .next t) : Canonical t := by
  unfold execFlitHeaderError at ht
  split at ht
  · exact next_canonical ht hc
  · exact next_canonical ht (postQueue_canonical _ (hubErrorRecord_canonical _ _ _ _ _ _ (foldl_canonical
      (fun _ _ h => ite_canonical (putQueue_canonical _ _ h) h) (foldl_canonical (fun _ _ h => endContext_canonical _ h) hc))))

theorem execMoveLineCopy_canonical (page : Nat) (ht : execMoveLineCopy page s = .next t) : Canonical t := by
  unfold execMoveLineCopy at ht
  split at ht
  · exact next_canonical ht hc
  · exact next_canonical ht (ite_canonical (foldl_canonical (fun _ _ h => performHeld_canonical _ h) (moveLine_canonical _ hc)) hc)

theorem execPolicyPass_canonical (part : Nat) (ht : execPolicyPass part s = .next t) : Canonical t := by
  refine next_canonical ht (ite_canonical (foldl_canonical (fun _ _ h => ?_) hc) hc : Canonical (ite _ _ _))
  refine ite_canonical ?_ h
  split
  · exact moveRequest_canonical _ _ h
  · exact h

theorem execLocationWriteback_canonical (page : Nat) (ht : execLocationWriteback page s = .next t) : Canonical t := by
  unfold execLocationWriteback at ht
  split at ht
  · exact next_canonical ht hc
  · exact next_canonical ht (pltWrite_canonical _ _ hc)

theorem execFreeTake_canonical (call : Nat) (ht : execFreeTake call s = .next t) : Canonical t := by
  unfold execFreeTake at ht
  split at ht
  · exact next_canonical ht hc
  · dsimp only at ht
    split at ht
    · exact next_canonical ht (fwAnswer_canonical _ _ hc)
    · split at ht
      · next h => exact next_canonical ht (fwAnswer_canonical _ _ (takeFree_canonical hc h))
      · exact next_canonical ht (fwAnswer_canonical _ _ hc)

theorem execFreeAdd_canonical (call : Nat) (ht : execFreeAdd call s = .next t) : Canonical t := by
  unfold execFreeAdd at ht
  (repeat' split at ht) <;> grind [Canonical]

theorem execAttest_canonical (call : Nat) (ht : execAttest call s = .next t) : Canonical t := by
  unfold execAttest at ht
  (repeat' split at ht) <;> grind [Canonical]

theorem execExtend_canonical (call : Nat) (ht : execExtend call s = .next t) : Canonical t := by
  unfold execExtend at ht
  (repeat' split at ht) <;> grind [Canonical]

theorem execKeyset_canonical (call : Nat) (ht : execKeyset call s = .next t) : Canonical t := by
  unfold execKeyset at ht
  (repeat' split at ht) <;> grind [Canonical]

theorem execPoolClaim_canonical (page : Nat) (ht : execPoolClaim page s = .next t) : Canonical t :=
  next_canonical ht (claimTry_canonical _ (ite_canonical (setHand_canonical _ _ _ hc) hc))

theorem execClaimDetect_canonical (page : Nat) (pkg : BitVec 5) (ht : execClaimDetect page pkg s = .next t) : Canonical t := by
  unfold execClaimDetect at ht
  grind [Canonical]

theorem execHandoverFreeze_canonical (page : Nat) (ht : execHandoverFreeze page s = .next t) : Canonical t := by
  unfold execHandoverFreeze at ht
  (repeat' split at ht) <;> grind [Canonical]

theorem execHandoverRelease_canonical (page : Nat) (ht : execHandoverRelease page s = .next t) : Canonical t := by
  unfold execHandoverRelease at ht
  split at ht
  · exact next_canonical ht hc
  split at ht
  · exact next_canonical ht hc
  have h1 : Canonical ((pageLines s page).foldl recallLine s) := foldl_canonical (fun _ _ h => recallLine_canonical _ h) hc
  dsimp only at ht
  generalize (pageLines s page).foldl recallLine s = s1 at h1 ht
  have h2 := ownRead_canonical (pePage (pageEntry s1 page)) h1
  generalize ownRead s1 (pePage (pageEntry s1 page)) = o at h2 ht
  exact next_canonical ht (heldReplays_canonical (bumpStat_canonical _ _ _ (dropHand_canonical _ _
    (withMem_canonical (setEntryHw_canonical _ _ (ownWrite_canonical _ _ h2)) rfl))))

theorem execHandoverDetect_canonical (page : Nat) (ht : execHandoverDetect page s = .next t) : Canonical t := by
  unfold execHandoverDetect at ht
  (repeat' split at ht) <;> grind [Canonical]

theorem execHandoverInstall_canonical (page : Nat) (ht : execHandoverInstall page s = .next t) : Canonical t := by
  unfold execHandoverInstall at ht
  dsimp only at ht
  split at ht
  · exact next_canonical ht hc
  split at ht
  · exact next_canonical ht hc
  exact next_canonical ht (heldReplays_canonical (wakeClaims_canonical _ (bumpStat_canonical _ _ _ (dropHand_canonical _ _
    (ownWrite_canonical _ _ (setEntryHw_canonical _ _ (ownRead_canonical _ hc)))))))

theorem execPartitionQuiesced_canonical (ht : execPartitionQuiesced s = .next t) : Canonical t := by
  unfold execPartitionQuiesced at ht
  (repeat' split at ht) <;> grind [Canonical]

theorem execPartitionDeadline_canonical (ht : execPartitionDeadline s = .next t) : Canonical t := by
  unfold execPartitionDeadline at ht
  (repeat' split at ht) <;> grind [Canonical]

theorem execLinkUp_canonical (n : Nat) (speed : BitVec 4) (width : BitVec 5) (ht : execLinkUp n speed width s = .next t) : Canonical t :=
  next_canonical ht (ite_canonical (portSet_canonical _ _ hc) hc)

theorem execLinkDown_canonical (n : Nat) (ht : execLinkDown n s = .next t) : Canonical t :=
  next_canonical ht (ite_canonical (portSet_canonical _ _ hc) hc)

theorem execInboundRequest_canonical (r : Inbound) (ht : execInboundRequest r s = .next t) : Canonical t := by
  have h1 := inboundServe_canonical r hc
  unfold execInboundRequest at ht
  split at ht <;> next h => rw [h] at h1; exact next_canonical ht h1

theorem execPowerOnReset_canonical (ht : execPowerOnReset s = .next t) : Canonical t :=
  next_canonical ht (Sparse_wf_filter _ hc)

theorem execHubFirmwareBoot_canonical (pltcfg pltlim poolown : BitVec 64) (ht : execHubFirmwareBoot pltcfg pltlim poolown s = .next t) :
    Canonical t := by
  unfold execHubFirmwareBoot at ht
  (repeat' split at ht) <;> grind [Canonical]

theorem execHostMonitorRelease_canonical (entry : BitVec 64) (ht : execHostMonitorRelease entry s = .next t) : Canonical t := by
  unfold execHostMonitorRelease at ht
  (repeat' split at ht) <;> grind [Canonical]

theorem execFwImageChecked_canonical (ht : execFwImageChecked s = .next t) : Canonical t := by
  unfold execFwImageChecked at ht
  extract_lets at_ at ht
  split at ht
  · exact next_canonical ht hc
  split at ht
  next header s1 he =>
    have h1 : Canonical s1 := by simpa only [he] using fwRead_canonical at_ 64 hc
    extract_lets n at ht
    clear_value n
    split at ht
    · exact next_canonical ht h1
    split at ht
    next image s2 he =>
      have h2 : Canonical s2 := by simpa only [he] using fwRead_canonical at_ n h1
      dsimp only at ht
      split at ht <;> exact next_canonical ht h2

theorem execHubThreadPark_canonical (n : Nat) (ht : execHubThreadPark n s = .next t) : Canonical t := by
  unfold execHubThreadPark at ht
  (repeat' split at ht) <;> grind [Canonical]

theorem execFwSwitchTimeout_canonical (ht : execFwSwitchTimeout s = .next t) : Canonical t :=
  next_canonical ht (ite_canonical (fwAbort_canonical _ hc) hc)

theorem execRecordReplayFeed_canonical (q : Nat) (ht : execRecordReplayFeed q s = .next t) : Canonical t := by
  unfold execRecordReplayFeed at ht
  extract_lets ready s1 at ht
  have h1 : Canonical s1 := by
    refine ite_canonical ?_ hc
    cases replayAt s q with
    | none => exact hc
    | some spa => exact hubRead_canonical 0 spa 72 hc
  clear_value s1
  (repeat' split at ht) <;> grind [Canonical]

theorem execInterruptPending_canonical (h : Nat) (ht : execInterruptPending h s = .next t) : Canonical t := by
  unfold execInterruptPending at ht
  split at ht
  · exact next_canonical ht (wakeWaiter_canonical _ _ hc)
  · exact next_canonical ht hc

theorem execSystemInstructionComplete_canonical (op : Nat) (ht : execSystemInstructionComplete op s = .next t) : Canonical t := by
  unfold execSystemInstructionComplete at ht
  (repeat' split at ht) <;> grind [Canonical]

theorem execBackInvalidate_canonical (page line : Nat) (w : List (Nat × Byte)) (ht : execBackInvalidate page line w s = .next t) :
    Canonical t := by
  unfold execBackInvalidate at ht
  extract_lets spa e bytes s0 s1 s2 s3 whole s4 at ht
  split at ht
  · exact next_canonical ht hc
  have h1 : Canonical s1 := recallLine_canonical _ (ite_canonical hc (keepCode_canonical _ _ _ hc))
  have h2 : Canonical s2 := ite_canonical (countPage_canonical _ _ h1) h1
  have h3 : Canonical s3 := foldl_canonical (fun _ _ h => rawWrite_canonical _ _ h) h2
  have h4 : Canonical s4 := foldl_canonical (fun _ _ h => clearPoison_canonical _ _ h) h3
  exact next_canonical ht (ite_canonical h4 (breakReservations_canonical _ _ h4))

/-! ### Every instruction and event -/

theorem exec_canonical (i : Instr) (ht : exec i s = .next t) : Canonical t := by
  cases i <;> dsimp only [exec] at ht
  case smov | smulh | sand | sor | sxor | sshl | sshr | ssra | smin | smax | slea | sbfe | spopc | sclz =>
    exact scalarOp_canonical _ _ _ _ hc ht
  case sadd | ssub | smul => exact scalarFlagOp_canonical _ _ _ _ _ hc ht
  case smovi | saddi | scmp | ssel | sbfi | movsr | kmovFromS | kset => exact scalarWord_canonical _ _ _ hc ht
  case kmovK | kand | kor | kxor | knot => exact maskOp_canonical _ _ _ _ hc ht
  case kmovToS | kpopc | kffs => exact maskToScalar_canonical _ _ _ _ hc ht
  case sdiv | srem => exact divideWord_canonical _ _ _ _ hc ht
  case movrs => exact execMovrs_canonical hc _ _ ht
  case nop | vmovi | vbscale => exact fixedWord_canonical _ _ _ _ hc ht
  case bra | brc | brl | jmpS | jmpV | call | ret | yield => exact controlWord_canonical _ _ _ hc ht
  case reconv => exact execReconv_canonical hc _ _ ht
  case exit => exact execExit_canonical hc _ _ ht
  case trap | brk => exact trapWord_canonical _ _ _ _ hc ht
  case vmov | vadd | vsub | vmul | vmulh | vmin | vmax | vabs | vneg | vand | vor | vxor | vnot | vshl | vshr | vsra | vrot | vbfe |
    vpopc | vclz | vbrev =>
    exact intWord_canonical _ _ _ _ _ hc ht
  case vmad | vbfi | vsel | vdot4 | vidx | vfclass | vfscale | vfdot2 | vcvt | vpack8 | vunpk8 | vquant | vdeq =>
    exact vecWord_canonical _ _ _ _ _ _ _ hc ht
  case vcmp | vfcmp => exact compareWord_canonical _ _ _ _ _ _ hc ht
  case vaddc => exact laneWord_canonical _ _ _ _ _ _ hc ht
  case vfadd | vfsub | vfmul | vfdiv => exact arithWord_canonical _ _ _ _ _ hc ht
  case vfma | vfmin | vfmax | vfrnd | vfsqrt => exact floatWord_canonical _ _ _ _ _ _ hc ht
  case vfrcp | vfrsq | vfexp2 | vflog2 | vfsin | vfcos | vftanh => exact transWord_canonical _ _ _ _ _ hc ht
  case vshfl | vshup | vshdn | vshxr | vbcast => exact permWord_canonical _ _ _ _ hc ht
  case v2s | vred | vvote => exact crossScalar_canonical _ _ _ _ hc ht
  case s2v | vscan | vmatch | vcomp | vexpd => exact crossWord_canonical _ _ _ _ hc ht
  case ld | st | lds | sts | ldl | stl | atom | acas | red | tierq => exact memWord_canonical _ _ hc ht
  case pfh => exact execPfh_canonical hc _ _ ht
  case fence => exact execFence_canonical hc _ _ ht
  case bar | bara => exact barWord_canonical _ _ _ hc ht
  case barw => exact execBarw_canonical hc _ _ ht
  case waitva => exact execWaitva_canonical hc _ _ ht
  case wakeva | ecset | ecadd | ecq => exact uniformWord_canonical _ _ _ _ _ _ hc ht
  case ecwait => exact execEcwait_canonical hc _ _ ht
  case fwait => exact execFwait_canonical hc _ _ ht
  case pin | unpin | hint => exact placeWord_canonical _ _ hc ht
  case ldsh | evsh | cbld => exact shapeWord_canonical _ _ _ _ hc ht
  case shset | shget | subq => exact slotWord_canonical _ _ _ _ hc ht
  case flushr | invr | cpy | cpyg | rdh | rdhg | sub | unsub | mma | mmz | accld | accst | accrd | accwr =>
    exact engineWord_canonical _ _ _ _ hc ht
  case lend | lendStop => exact lendWord_canonical _ _ hc ht
  case pubfl => exact execPubfl_canonical hc _ _ ht
  case push => exact execPush_canonical hc _ _ ht
  case qfence => exact execQfence_canonical hc _ _ ht
  case movpr => exact execMovpr_canonical hc _ _ ht
  case movrp => exact execMovrp_canonical hc _ _ ht
  case halt => exact execHalt_canonical hc _ _ ht
  case sysc | tlbiAsid | tlbiVm | tlbiS2 | tlbiAll | tlbir | tlbirS2 | atp | lcinv | lcinvAll | notifyw | ecciCorr | ecciUnc =>
    exact systemWord_canonical _ _ _ _ hc ht
  case xpin | xunpin | xhint => exact onHart_place_canonical hc _ _ _ _ ht
  case xtierqLo | xtierqHi => exact onHart_tierq_canonical hc _ _ _ ht
  case xwaitvaW | xwaitvaD => exact onHart_wait_canonical hc _ _ _ _ ht
  case xwakeva => exact execXwakeva_canonical hc _ _ _ ht
  case sfenceVma | hfenceVvma =>
    exact onHart_canonical _ (fun _ _ he => fence_outcome_canonical hc (fenceStage1_canonical _ _ _ hc) he) ht
  case hfenceGvma => exact onHart_canonical _ (fun _ _ he => fence_outcome_canonical hc (fenceStage2_canonical _ _ hc) he) ht
  case fqreplay => exact execFqreplay_canonical hc _ _ ht
  case fqreplayh => exact execFqreplayh_canonical hc _ _ ht
  case qwrWrite => exact execQwrWrite_canonical hc _ _ _ ht
  case qcfgWrite => exact execQcfgWrite_canonical hc _ _ _ ht
  case hintbudWrite => exact execHintbudWrite_canonical hc _ _ _ ht
  case wwend => exact execWwend_canonical hc _ _ ht
  case registerWrite => exact execRegisterWrite_canonical hc _ _ _ ht
  case trapactResume | trapactSkip => exact next_canonical ht (trapAct_canonical _ _ _ hc)
  case trapactEnd => exact execTrapactEnd_canonical hc _ _ ht
  case endctx => exact execEndctx_canonical hc _ _ ht
  case preemptSave | preemptRestore => exact next_canonical ht (preemptRequest_canonical _ _ _ hc)
  case pooltake => exact execPooltake_canonical hc _ _ ht
  case partctlMerge => exact execPartctlMerge_canonical hc _ _ ht
  case partctlSplit => exact execPartctlSplit_canonical hc _ _ ht
  case iprofWrite => exact execIprofWrite_canonical hc _ _ _ _ ht
  case ctxqosWrite => exact execCtxqosWrite_canonical hc _ _ _ ht
  case l2bktWrite => exact execL2bktWrite_canonical hc _ _ _ ht
  case portWrite => exact execPortWrite_canonical hc _ _ _ ht
  case fwctlSwitch => exact execFwctlSwitch_canonical hc _ _ ht
  case schedulerPick => exact next_canonical ht (schedulerPick_canonical _ _ (prepare_canonical _ _ hc))
  case accessCompletion => exact execAccessCompletion_canonical hc _ ht
  case walk => exact execWalk_canonical hc _ _ ht
  case queueRecheck => exact next_canonical ht (postQueue_canonical _ hc)
  case homeRequest => exact next_canonical ht (homeOp_canonical _ _ hc)
  case updateBufferTimeout => exact execUpdateBufferTimeout_canonical hc _ ht
  case updateApply => exact execUpdateApply_canonical hc _ ht
  case engineCommandStart => exact execEngineCommandStart_canonical hc _ ht
  case mmaEngineExit => exact execMmaEngineExit_canonical hc _ ht
  case engineCommandComplete => exact execEngineCommandComplete_canonical hc _ ht
  case copyBurst => exact execCopyBurst_canonical _ _ hc ht
  case burstRequest => exact execBurstRequest_canonical _ hc ht
  case burstLanding => exact execBurstLanding_canonical _ _ hc ht
  case ladleBirth => exact execLadleBirth_canonical hc _ _ ht
  case ladleEnd => exact execLadleEnd_canonical hc _ _ ht
  case finaleBirth => exact execFinaleBirth_canonical hc _ _ ht
  case cohortRetire => exact next_canonical ht (cohortRetire_canonical _ hc)
  case blockRetire => exact next_canonical ht (blockRetire_canonical _ hc)
  case dispatchPlacement => exact execDispatchPlacement_canonical hc ht
  case hubThreadWake => exact execHubThreadWake_canonical hc _ ht
  case packetAccept => exact execPacketAccept_canonical hc _ ht
  case packetStart => exact execPacketStart_canonical hc _ ht
  case launchPacket => exact execLaunchPacket_canonical hc _ _ ht
  case copyPacket => exact execCopyPacket_canonical _ _ hc ht
  case dependenceWait | dependenceWaitRetest => exact execDependenceWait_canonical _ _ hc ht
  case signal => exact execSignal_canonical _ _ hc ht
  case migrateRequest => exact execMigrateRequest_canonical hc _ _ ht
  case serviceCall => exact execServiceCall_canonical hc _ ht
  case serviceReply => exact execServiceReply_canonical hc _ _ ht
  case packetComplete => exact execPacketComplete_canonical _ _ hc ht
  case deferredAppend => exact execDeferredAppend_canonical hc _ _ ht
  case powerWindow => exact execPowerWindow_canonical hc _ ht
  case hintRefill => exact execHintRefill_canonical hc _ ht
  case saveComplete => exact execSaveComplete_canonical hc _ ht
  case restoreComplete => exact execRestoreComplete_canonical hc _ ht
  case flitPayloadError => exact execFlitPayloadError_canonical hc _ ht
  case flitHeaderError => exact execFlitHeaderError_canonical hc _ ht
  case moveStart => exact next_canonical ht (moveStart_canonical _ hc)
  case moveLineCopy => exact execMoveLineCopy_canonical hc _ ht
  case policyPass => exact execPolicyPass_canonical hc _ ht
  case locationWriteback => exact execLocationWriteback_canonical hc _ ht
  case freeTake => exact execFreeTake_canonical hc _ ht
  case freeAdd => exact execFreeAdd_canonical hc _ ht
  case attest => exact execAttest_canonical hc _ ht
  case extend => exact execExtend_canonical hc _ ht
  case keyset => exact execKeyset_canonical hc _ ht
  case poolClaim => exact execPoolClaim_canonical hc _ ht
  case poolClaimRetry => exact next_canonical ht (claimTry_canonical _ hc)
  case claimDetect => exact execClaimDetect_canonical hc _ _ ht
  case handoverFreeze => exact execHandoverFreeze_canonical hc _ ht
  case handoverRelease => exact execHandoverRelease_canonical hc _ ht
  case handoverDetect => exact execHandoverDetect_canonical hc _ ht
  case handoverInstall => exact execHandoverInstall_canonical hc _ ht
  case partitionQuiesced => exact execPartitionQuiesced_canonical hc ht
  case partitionDeadline => exact execPartitionDeadline_canonical hc ht
  case bucketRefill => exact next_canonical ht hc
  case linkUp => exact execLinkUp_canonical hc _ _ _ ht
  case inboundRequest => exact execInboundRequest_canonical hc _ ht
  case powerOnReset => exact execPowerOnReset_canonical hc ht
  case hubFirmwareBoot => exact execHubFirmwareBoot_canonical hc _ _ _ ht
  case hostMonitorRelease => exact execHostMonitorRelease_canonical hc _ ht
  case fwImageChecked => exact execFwImageChecked_canonical hc ht
  case hubThreadPark => exact execHubThreadPark_canonical hc _ ht
  case fwSwitchTimeout => exact execFwSwitchTimeout_canonical hc ht
  case recordReplayFeed => exact execRecordReplayFeed_canonical hc _ ht
  case hostAccess => exact execHostAccess_canonical _ _ hc ht
  case interruptPending => exact execInterruptPending_canonical hc _ ht
  case systemInstructionComplete => exact execSystemInstructionComplete_canonical hc _ ht
  case backInvalidate => exact execBackInvalidate_canonical hc _ _ _ ht
  case linkDown => exact execLinkDown_canonical hc _ ht

end Events

/-- An action that keeps the form, tried on a state. -/
theorem orSame_action_canonical {f : State → Out} {s : State} (hf : ∀ s t, Canonical s → f s = .next t → Canonical t) (hc : Canonical s) :
    Canonical (orSame s (f s)) :=
  orSame_canonical hc fun t => hf s t hc

section Idle

variable {s : State} (hc : Canonical s)
include hc

/-! ### An idle clock -/

theorem refillHints_canonical : Canonical (refillHints s) :=
  foldl_canonical (fun _ _ h => ite_canonical h (hintRefill_canonical _ _ h)) hc

theorem clockWork_canonical : Canonical (clockWork s) := by
  unfold clockWork
  extract_lets s0 s1 s2 s3 s4 s5 s6
  have h0 : Canonical s0 := hc
  have h1 : Canonical s1 := onBeat_canonical
    (fun _ h => orSame_action_canonical (fun _ _ h => execPowerWindow_canonical h 0) h) (refillHints_canonical h0)
  have h2 : Canonical s2 := onBeat_canonical (fun _ h => orSame_action_canonical (fun _ _ h => exec_canonical h .bucketRefill) h) h1
  have h3 : Canonical s3 := sweep_canonical (fun n _ _ h => execUpdateBufferTimeout_canonical h n) h2
  have h4 : Canonical s4 := onBeat_canonical (fun _ h => sweep_canonical (fun n _ _ h => exec_canonical h (.poolClaimRetry n)) h) h3
  have h5 : Canonical s5 := onBeat_canonical (fun _ h => sweep_canonical (fun n _ _ h => execLocationWriteback_canonical h n) h) h4
  exact onBeat_canonical (fun _ h => sweep_canonical (fun n _ _ h => execPolicyPass_canonical h n) h) h5

theorem opStep_canonical (id : Nat) : Canonical (opStep s id) := by
  unfold opStep
  split
  · exact hc
  · next o _ =>
    have h1 := foldl_canonical (l := o.parts) (fun _ p h => orSame_action_canonical (fun _ _ h => execWalk_canonical h id p.lane) h) hc
    exact orSame_action_canonical (fun _ _ h => execAccessCompletion_canonical h id) (orSame_action_canonical
      (fun _ _ h => execSystemInstructionComplete_canonical h id) (homeAll_canonical _ h1))

theorem burstStep_canonical (id : Nat) (c : Cmd) : Canonical (burstStep s id c) := by
  unfold burstStep
  split
  · split
    · next b _ => exact orSame_action_canonical (fun _ _ h => execCopyBurst_canonical id b h) hc
    · exact hc
  · split
    · split
      · next b _ _ => exact orSame_action_canonical (fun _ _ h => execBurstLanding_canonical id b h) hc
      · exact orSame_action_canonical (fun _ _ h => execBurstRequest_canonical id h) hc
    · exact orSame_action_canonical (fun _ _ h => execMmaEngineExit_canonical h c.core) hc

theorem cmdStep_canonical (id : Nat) : Canonical (cmdStep s id) := by
  unfold cmdStep
  extract_lets s1 s2
  have h1 : Canonical s1 := orSame_action_canonical (fun _ _ h => execEngineCommandStart_canonical h id) hc
  have h2 : Canonical s2 := by
    simp only [s2]
    split
    · exact ite_canonical (burstStep_canonical h1 _ _) h1
    · exact h1
  split
  · exact ite_canonical (orSame_action_canonical (fun _ _ h => execFinaleBirth_canonical h id _) h2)
      (orSame_action_canonical (fun _ _ h => execEngineCommandComplete_canonical h id) h2)
  · exact h2

theorem ladleStep_canonical (core : Nat) {t : State} (ht : ladleStep core s = .next t) : Canonical t := by
  unfold ladleStep at ht
  extract_lets ends s1 at ht
  have h1 : Canonical s1 := sweep_canonical (fun n _ _ h => execLadleEnd_canonical h core n) hc
  split at ht
  · exact execLadleBirth_canonical h1 _ _ ht
  · exact next_canonical ht h1

theorem packetStep_canonical (p : Packet) : Canonical (packetStep s p) := by
  unfold packetStep
  extract_lets q n
  split
  · exact hc
  split
  · split
    · exact orSame_action_canonical (fun _ _ h => execLaunchPacket_canonical h q n) hc
    · exact orSame_action_canonical (fun _ _ h => execCopyPacket_canonical q n h) hc
    · exact orSame_action_canonical (fun _ _ h => execDependenceWait_canonical q n h) hc
    · exact orSame_action_canonical (fun _ _ h => execSignal_canonical q n h) hc
    · exact orSame_action_canonical (fun _ _ h => execMigrateRequest_canonical h q n) hc
    · exact orSame_action_canonical (fun _ _ h => execServiceReply_canonical h q n) hc
    · exact hc
  · exact orSame_action_canonical (fun _ _ h => execPacketComplete_canonical q n h) hc

theorem queueWork_canonical : Canonical (queueWork s) := by
  unfold queueWork
  extract_lets qs s1 s2
  have h1 : Canonical s1 := sweep_canonical (fun q _ _ h => execPacketStart_canonical h q) (sweep_canonical
    (fun q _ _ h => execPacketAccept_canonical h q) (sweep_canonical (fun q _ _ h => execRecordReplayFeed_canonical h q) hc))
  have h2 : Canonical s2 := foldl_canonical (fun _ p h => packetStep_canonical h p) h1
  exact sweep_canonical (fun core _ _ h ht => next_canonical ht
    (sweep_canonical (fun n _ _ h => execDeferredAppend_canonical h core n) h)) h2

theorem callWork_canonical : Canonical (callWork s) := by
  unfold callWork
  extract_lets s1 ids
  have h1 : Canonical s1 := sweep_canonical (fun n _ _ h => execServiceCall_canonical h n) hc
  clear_value ids
  have take := sweep_canonical (l := ids) (fun n _ _ h => execFreeTake_canonical h n) h1
  have add := sweep_canonical (l := ids) (fun n _ _ h => execFreeAdd_canonical h n) take
  have att := sweep_canonical (l := ids) (fun n _ _ h => execAttest_canonical h n) add
  have ext := sweep_canonical (l := ids) (fun n _ _ h => execExtend_canonical h n) att
  exact sweep_canonical (l := ids) (fun n _ _ h => execKeyset_canonical h n) ext

theorem pageWork_canonical : Canonical (pageWork s) := by
  unfold pageWork
  extract_lets s1 give take
  have h1 : Canonical s1 := sweep_canonical (fun n _ _ h => execMoveLineCopy_canonical h n)
    (sweep_canonical (fun n _ _ h => exec_canonical h (.moveStart n)) hc)
  exact sweep_canonical (fun n _ _ h => execHandoverInstall_canonical h n) (sweep_canonical
    (fun n _ _ h => execHandoverRelease_canonical h n) (sweep_canonical (fun n _ _ h => execHandoverFreeze_canonical h n) h1))

theorem hubWork_canonical : Canonical (hubWork s) := by
  unfold hubWork
  extract_lets saves loads s0 s1 s2 s3 s4 s5
  have h1 : Canonical s1 := sweep_canonical (fun n _ _ h => execRestoreComplete_canonical h n)
    (sweep_canonical (fun n _ _ h => execSaveComplete_canonical h n) (putsGo_canonical _ hc))
  have h2 : Canonical s2 := orSame_action_canonical (fun _ _ h => execPartitionQuiesced_canonical h) h1
  have h3 : Canonical s3 := orSame_action_canonical (fun _ _ h => execPartitionDeadline_canonical h) h2
  have h4 : Canonical s4 := orSame_action_canonical (fun _ _ h => execFwImageChecked_canonical h) h3
  have h5 : Canonical s5 := ite_canonical (sweep_canonical (fun n _ _ h => execHubThreadPark_canonical h n) h4) h4
  exact inboundAgain_canonical (orSame_action_canonical (fun _ _ h => execFwSwitchTimeout_canonical h) h5)

theorem recordWork_canonical : Canonical (recordWork s) :=
  foldl_canonical (fun _ _ h => ite_canonical h (postQueue_canonical _ h)) hc

theorem progress_canonical : Canonical (progress s) := by
  unfold progress
  extract_lets s1 s2 s3 s4 s5 s6
  have h1 : Canonical s1 := foldl_canonical (fun _ id h => cmdStep_canonical h id) (foldl_canonical (fun _ id h => opStep_canonical h id) hc)
  have h2 : Canonical s2 := sweep_canonical (fun core _ _ h => ladleStep_canonical h core) h1
  have h3 : Canonical s3 := sweep_canonical (fun n _ _ h => execUpdateApply_canonical h n) h2
  have h4 : Canonical s4 := sweep_canonical (fun n _ _ h => exec_canonical h (.blockRetire n))
    (sweep_canonical (fun n _ _ h => exec_canonical h (.cohortRetire n)) h3)
  have h5 : Canonical s5 := callWork_canonical (queueWork_canonical h4)
  have h6 : Canonical s6 := ite_canonical h5 (orSame_action_canonical (fun _ _ h => execDispatchPlacement_canonical h) h5)
  exact recordWork_canonical (hubWork_canonical (pageWork_canonical (startAll_canonical h6)))

theorem idle_canonical : Canonical (idle s) := by
  have h0 : Canonical { s with cycles := s.cycles + 1 } := by rwa [Canonical]
  unfold idle
  extract_lets s1
  have h1 : Canonical s1 := progress_canonical (clockWork_canonical h0)
  clear_value s1
  split
  · exact ite_canonical h1 (schedulerPick_canonical _ _ (keepHeld_canonical _ _ h1))
  · exact h1

/-! ### The next instruction of an agent and of a hart -/

theorem nextWord_done_canonical {a : Nat} {t : State} (ht : nextWord s a = .done t) : Canonical t := by
  unfold nextWord at ht
  split at ht
  · cases ht; exact hc
  split at ht
  · cases ht; exact hc
  split at ht
  · cases ht; exact boundary_canonical _ _ _ hc
  split at ht
  · cases ht; exact boundary_canonical _ _ _ hc
  split at ht
  · next hr => cases ht; exact readChecked_canonical _ _ _ _ _ hc hr
  · cases ht

/-- The state in which a hart goes on. -/
def NextHost.state : NextHost → State
  | .run _ s => s
  | .done s => s

theorem runWord32_canonical (h n : Nat) : Canonical (runWord32 s h n).state := by
  unfold runWord32
  dsimp only
  split
  · exact hc
  · rw [NextHost.state]
    exact rvWord_canonical _ _ _ _ hc

theorem runWord16_canonical (h n : Nat) : Canonical (runWord16 s h n).state := by
  unfold runWord16
  split <;> rw [NextHost.state]
  · exact rvWord_canonical _ _ _ _ hc
  · exact refuseWord_canonical _ _ _ hc

/-- The state that a fetch leaves. -/
def fetchState : Except State (Nat × State) → State
  | .error t => t
  | .ok x => x.2

theorem hartFetch_canonical (h va n : Nat) : Canonical (fetchState (hartFetch s h va n)) := by
  have h1 := hostReach_canonical h (hartOf s h) .fetch va n .fetch hc
  unfold hartFetch
  split <;> next he =>
    rw [he] at h1
    grind [fetchState]

theorem nextHost_canonical (h : Nat) : Canonical (nextHost s h).state := by
  unfold nextHost
  extract_lets x pc
  split
  · exact hartExc_canonical _ _ hc
  split
  · exact hartTrap_canonical _ _ _ _ hc
  have h1 := hartFetch_canonical hc h pc (if pc % 4 == 0 then 4 else 2)
  split
  · next he => rwa [he] at h1
  next n s1 he =>
  replace h1 : Canonical s1 := by rwa [he] at h1
  split
  · exact runWord16_canonical h1 _ _
  split
  · exact runWord32_canonical h1 _ _
  have h2 := hartFetch_canonical h1 h ((pc + 2) % 2 ^ 64) 2
  split
  · next he => rwa [he] at h2
  · next he =>
    rw [he] at h2
    exact runWord32_canonical h2 _ _

end Idle

/-! ### The step -/

theorem step_canonical {s t : State} (hc : Canonical s) (ht : step s = .next t) : Canonical t := by
  unfold step at ht
  split at ht
  · next i rest _ =>
    have h0 : Canonical { s with agenda := rest } := by rwa [Canonical]
    exact exec_canonical h0 i ht
  split at ht
  · split at ht
    · next i _ =>
      unfold runWord at ht
      split at ht
      · next u hu => exact next_canonical ht (afterWord_canonical _ hc (exec_canonical hc i hu))
      · exact exec_canonical hc i ht
    · next hd => exact next_canonical ht (nextWord_done_canonical hc hd)
  · next h _ =>
    have h1 := nextHost_canonical hc h
    split at ht
    · next i u hu =>
      rw [hu, NextHost.state] at h1
      unfold runHost at ht
      split at ht
      · next v hv =>
        have h2 := exec_canonical h1 i hv
        exact next_canonical ht h2
      · exact exec_canonical h1 i ht
    · next u hu =>
      rw [hu, NextHost.state] at h1
      exact next_canonical ht h1
  · exact next_canonical ht (idle_canonical hc)

end Sys2Proof.Machine

namespace Sys2Proof.Claims

/-- Settles O54: whatever a step takes, an event, a word, a host instruction or an idle clock, its parts keep the canonical form. -/
theorem memoryCanonical : Obligations.MemoryCanonical := fun _ _ => Machine.step_canonical

end Sys2Proof.Claims

/-! Decoding and encoding agree (R162 to R170, R185, R266). -/

namespace Sys2Proof

/-! ### The word of an instruction decodes to it -/

section Rows

variable {op : BitVec 10} {h : Pfx}

/-- A row of format R: the joined word decodes to the row's instruction. -/
theorem decodeOp_joinR {mk : Pfx → FmtR → Instr} (row : ∀ h w, decodeOp op.toNat h w = some (mk h (fmtR w))) (r : FmtR) :
    decodeOp (opOf (joinWord op h (bitsR r))).toNat (pfxOf (joinWord op h (bitsR r))) (joinWord op h (bitsR r)) = some (mk h r) := by
  rw [opOf_joinWord, pfxOf_joinWord, row, fmtR_joinWord]

/-- A row of format I. -/
theorem decodeOp_joinI {mk : Pfx → FmtI → Instr} (row : ∀ h w, decodeOp op.toNat h w = some (mk h (fmtI w))) (r : FmtI) :
    decodeOp (opOf (joinWord op h (bitsI r))).toNat (pfxOf (joinWord op h (bitsI r))) (joinWord op h (bitsI r)) = some (mk h r) := by
  rw [opOf_joinWord, pfxOf_joinWord, row, fmtI_joinWord]

/-- A row of format B. -/
theorem decodeOp_joinB {mk : Pfx → FmtB → Instr} (row : ∀ h w, decodeOp op.toNat h w = some (mk h (fmtB w))) (r : FmtB) :
    decodeOp (opOf (joinWord op h (bitsB r))).toNat (pfxOf (joinWord op h (bitsB r))) (joinWord op h (bitsB r)) = some (mk h r) := by
  rw [opOf_joinWord, pfxOf_joinWord, row, fmtB_joinWord]

/-- A row of format M. -/
theorem decodeOp_joinM {mk : Pfx → FmtM → Instr} (row : ∀ h w, decodeOp op.toNat h w = some (mk h (fmtM w))) (r : FmtM) :
    decodeOp (opOf (joinWord op h (bitsM r))).toNat (pfxOf (joinWord op h (bitsM r))) (joinWord op h (bitsM r)) = some (mk h r) := by
  rw [opOf_joinWord, pfxOf_joinWord, row, fmtM_joinWord]

/-- A row of format E. -/
theorem decodeOp_joinE {mk : Pfx → FmtE → Instr} (row : ∀ h w, decodeOp op.toNat h w = some (mk h (fmtE w))) (r : FmtE) :
    decodeOp (opOf (joinWord op h (bitsE r))).toNat (pfxOf (joinWord op h (bitsE r))) (joinWord op h (bitsE r)) = some (mk h r) := by
  rw [opOf_joinWord, pfxOf_joinWord, row, fmtE_joinWord]

/-- One row of several of an opcode, in format R: the row that a property of the fields selects. -/
theorem decodeOp_joinR_of {P : FmtR → Prop} {mk : Pfx → FmtR → Instr}
    (row : ∀ h w, P (fmtR w) → decodeOp op.toNat h w = some (mk h (fmtR w))) {r : FmtR} (hr : P r) :
    decodeOp (opOf (joinWord op h (bitsR r))).toNat (pfxOf (joinWord op h (bitsR r))) (joinWord op h (bitsR r)) = some (mk h r) := by
  rw [opOf_joinWord, pfxOf_joinWord, row _ _ (by rwa [fmtR_joinWord]), fmtR_joinWord]

/-- One row of several of an opcode, in format E. -/
theorem decodeOp_joinE_of {P : FmtE → Prop} {mk : Pfx → FmtE → Instr}
    (row : ∀ h w, P (fmtE w) → decodeOp op.toNat h w = some (mk h (fmtE w))) {r : FmtE} (hr : P r) :
    decodeOp (opOf (joinWord op h (bitsE r))).toNat (pfxOf (joinWord op h (bitsE r))) (joinWord op h (bitsE r)) = some (mk h r) := by
  rw [opOf_joinWord, pfxOf_joinWord, row _ _ (by rwa [fmtE_joinWord]), fmtE_joinWord]

end Rows

/-- R162 to R170, R185: the opcode, the guard fields and the body of the instruction's word, if it has one, name the instruction. -/
def ReadsBack (i : Instr) : Prop := ∀ w, encodeWord i = some w → decodeOp (opOf w).toNat (pfxOf w) w = some i

/-- The last rule of the fields of a well-formed instruction. -/
theorem lastRule_of_wellFormed {i : Instr} {a b : Bool} (wf : wellFormed i = true) (rules : fieldsOf i = (a && b)) : b = true :=
  (Bool.and_eq_true_iff.mp (rules ▸ fieldsOf_of_wellFormed wf)).2

/-- The last rule but one of the fields of a well-formed instruction. -/
theorem rule_of_wellFormed {i : Instr} {a b c : Bool} (wf : wellFormed i = true) (rules : fieldsOf i = (a && b && c)) : b = true :=
  (Bool.and_eq_true_iff.mp (Bool.and_eq_true_iff.mp (rules ▸ fieldsOf_of_wellFormed wf)).1).2

/-! The rows that share an opcode (R207, R209, R284, R317, R320, R323): the field SUB or OPT of a legal word selects the row. -/

theorem readsBack_kmovK {h : Pfx} {r : FmtR} (wf : wellFormed (.kmovK h r) = true) :
    ReadsBack (.kmovK h r) := fun w he => by
  have hs : r.sub = 0 := eq_of_beq (lastRule_of_wellFormed wf rfl)
  cases he
  exact decodeOp_joinR_of (P := fun r => r.sub = 0) (fun h w hs => by simp [decodeOp, decodeMask, hs]) hs

theorem readsBack_kmovFromS {h : Pfx} {r : FmtR} (wf : wellFormed (.kmovFromS h r) = true) :
    ReadsBack (.kmovFromS h r) := fun w he => by
  have hs : r.sub = 1 := eq_of_beq (lastRule_of_wellFormed wf rfl)
  cases he
  exact decodeOp_joinR_of (P := fun r => r.sub = 1) (fun h w hs => by simp [decodeOp, decodeMask, hs]) hs

theorem readsBack_kmovToS {h : Pfx} {r : FmtR} (wf : wellFormed (.kmovToS h r) = true) :
    ReadsBack (.kmovToS h r) := fun w he => by
  have hs : r.sub = 2 := eq_of_beq (lastRule_of_wellFormed wf rfl)
  cases he
  exact decodeOp_joinR_of (P := fun r => r.sub = 2) (fun h w hs => by simp [decodeOp, decodeMask, hs]) hs

theorem readsBack_jmpS {h : Pfx} {r : FmtR} (wf : wellFormed (.jmpS h r) = true) :
    ReadsBack (.jmpS h r) := fun w he => by
  have hs : r.sub = 0 := eq_of_beq (lastRule_of_wellFormed wf rfl)
  cases he
  exact decodeOp_joinR_of (P := fun r => r.sub = 0) (fun h w hs => by simp [decodeOp, decodeControl, hs]) hs

theorem readsBack_jmpV {h : Pfx} {r : FmtR} (wf : wellFormed (.jmpV h r) = true) :
    ReadsBack (.jmpV h r) := fun w he => by
  have hs : r.sub = 1 := eq_of_beq (lastRule_of_wellFormed wf rfl)
  cases he
  exact decodeOp_joinR_of (P := fun r => r.sub = 1) (fun h w hs => by simp [decodeOp, decodeControl, hs]) hs

theorem readsBack_lend {h : Pfx} {r : FmtE} (wf : wellFormed (.lend h r) = true) :
    ReadsBack (.lend h r) := fun w he => by
  have hs : r.opt = 0 := eq_of_beq (rule_of_wellFormed wf rfl)
  cases he
  exact decodeOp_joinE_of (P := fun r => r.opt = 0) (fun h w hs => by simp [decodeOp, decodeEngine, hs]) hs

theorem readsBack_lendStop {h : Pfx} {r : FmtE} (wf : wellFormed (.lendStop h r) = true) :
    ReadsBack (.lendStop h r) := fun w he => by
  have hs : r.opt = 1 := eq_of_beq (rule_of_wellFormed wf rfl)
  cases he
  exact decodeOp_joinE_of (P := fun r => r.opt = 1) (fun h w hs => by simp [decodeOp, decodeEngine, hs]) hs

theorem readsBack_tlbiAsid {h : Pfx} {r : FmtE} (wf : wellFormed (.tlbiAsid h r) = true) :
    ReadsBack (.tlbiAsid h r) := fun w he => by
  have hs : r.opt = 0 := eq_of_beq (lastRule_of_wellFormed wf rfl)
  cases he
  exact decodeOp_joinE_of (P := fun r => r.opt = 0) (fun h w hs => by simp [decodeOp, decodeSystem, hs]) hs

theorem readsBack_tlbiVm {h : Pfx} {r : FmtE} (wf : wellFormed (.tlbiVm h r) = true) :
    ReadsBack (.tlbiVm h r) := fun w he => by
  have hs : r.opt = 1 := eq_of_beq (lastRule_of_wellFormed wf rfl)
  cases he
  exact decodeOp_joinE_of (P := fun r => r.opt = 1) (fun h w hs => by simp [decodeOp, decodeSystem, hs]) hs

theorem readsBack_tlbiS2 {h : Pfx} {r : FmtE} (wf : wellFormed (.tlbiS2 h r) = true) :
    ReadsBack (.tlbiS2 h r) := fun w he => by
  have hs : r.opt = 2 := eq_of_beq (lastRule_of_wellFormed wf rfl)
  cases he
  exact decodeOp_joinE_of (P := fun r => r.opt = 2) (fun h w hs => by simp [decodeOp, decodeSystem, hs]) hs

theorem readsBack_tlbiAll {h : Pfx} {r : FmtE} (wf : wellFormed (.tlbiAll h r) = true) :
    ReadsBack (.tlbiAll h r) := fun w he => by
  have hs : r.opt = 3 := eq_of_beq (lastRule_of_wellFormed wf rfl)
  cases he
  exact decodeOp_joinE_of (P := fun r => r.opt = 3) (fun h w hs => by simp [decodeOp, decodeSystem, hs]) hs

theorem readsBack_tlbir {h : Pfx} {r : FmtE} (wf : wellFormed (.tlbir h r) = true) :
    ReadsBack (.tlbir h r) := fun w he => by
  have hs : r.opt = 0 := eq_of_beq (lastRule_of_wellFormed wf rfl)
  cases he
  exact decodeOp_joinE_of (P := fun r => r.opt = 0) (fun h w hs => by simp [decodeOp, decodeSystem, hs]) hs

theorem readsBack_tlbirS2 {h : Pfx} {r : FmtE} (wf : wellFormed (.tlbirS2 h r) = true) :
    ReadsBack (.tlbirS2 h r) := fun w he => by
  have hs : r.opt = 1 := eq_of_beq (lastRule_of_wellFormed wf rfl)
  cases he
  exact decodeOp_joinE_of (P := fun r => r.opt = 1) (fun h w hs => by simp [decodeOp, decodeSystem, hs]) hs

theorem readsBack_lcinv {h : Pfx} {r : FmtE} (wf : wellFormed (.lcinv h r) = true) :
    ReadsBack (.lcinv h r) := fun w he => by
  have hs : r.opt = 0 := eq_of_beq (lastRule_of_wellFormed wf rfl)
  cases he
  exact decodeOp_joinE_of (P := fun r => r.opt = 0) (fun h w hs => by simp [decodeOp, decodeSystem, hs]) hs

theorem readsBack_lcinvAll {h : Pfx} {r : FmtE} (wf : wellFormed (.lcinvAll h r) = true) :
    ReadsBack (.lcinvAll h r) := fun w he => by
  have hs : r.opt = 1 := eq_of_beq (lastRule_of_wellFormed wf rfl)
  cases he
  exact decodeOp_joinE_of (P := fun r => r.opt = 1) (fun h w hs => by simp [decodeOp, decodeSystem, hs]) hs

theorem readsBack_ecciCorr {h : Pfx} {r : FmtE} (wf : wellFormed (.ecciCorr h r) = true) :
    ReadsBack (.ecciCorr h r) := fun w he => by
  have hs : r.opt = 0 := eq_of_beq (lastRule_of_wellFormed wf rfl)
  cases he
  exact decodeOp_joinE_of (P := fun r => r.opt = 0) (fun h w hs => by simp [decodeOp, decodeSystem, hs]) hs

theorem readsBack_ecciUnc {h : Pfx} {r : FmtE} (wf : wellFormed (.ecciUnc h r) = true) :
    ReadsBack (.ecciUnc h r) := fun w he => by
  have hs : r.opt = 1 := eq_of_beq (lastRule_of_wellFormed wf rfl)
  cases he
  exact decodeOp_joinE_of (P := fun r => r.opt = 1) (fun h w hs => by simp [decodeOp, decodeSystem, hs]) hs

/-- A well-formed instruction is read back from its word: most rows have an opcode of their own. -/
theorem readsBack_of_wellFormed {i : Instr} (wf : wellFormed i = true) : ReadsBack i := by
  cases i
  case smov | sadd | ssub | smul | smulh | sdiv | srem | sand | sor | sxor | sshl | sshr | ssra | smin | smax | scmp | ssel | slea |
      sbfe | sbfi | spopc | sclz | movsr | movrs | kand | kor | kxor | knot | kpopc | kffs | nop | ret | reconv | exit | yield | vmov |
      vadd | vsub | vmul | vmulh | vmad | vmin | vmax | vabs | vneg | vand | vor | vxor | vnot | vshl | vshr | vsra | vrot | vbfe |
      vbfi | vpopc | vclz | vbrev | vcmp | vsel | vaddc | vdot4 | vidx | vfadd | vfsub | vfmul | vfma | vfmin | vfmax | vfcmp |
      vfclass | vfrnd | vfdiv | vfsqrt | vfrcp | vfrsq | vfexp2 | vflog2 | vfsin | vfcos | vftanh | vfscale | vfdot2 | vcvt | vpack8 |
      vunpk8 | vquant | vdeq | vbscale | vshfl | vshup | vshdn | vshxr | vbcast | v2s | s2v | vred | vscan | vvote | vmatch | vcomp |
      vexpd | movpr | movrp => exact fun w he => by cases he; exact decodeOp_joinR (fun _ _ => rfl) _
  case smovi | saddi | kset | trap | brk | vmovi => exact fun w he => by cases he; exact decodeOp_joinI (fun _ _ => rfl) _
  case bra | brc | brl | call => exact fun w he => by cases he; exact decodeOp_joinB (fun _ _ => rfl) _
  case ld | st | lds | sts | ldl | stl | pfh | atom | acas | red | fence | flushr | invr | bar | bara | barw | waitva | wakeva |
      ecset | ecadd | ecwait | ecq | fwait | pin | unpin | hint | tierq =>
    exact fun w he => by cases he; exact decodeOp_joinM (fun _ _ => rfl) _
  case ldsh | evsh | shset | shget | cbld | cpy | cpyg | rdh | rdhg | sub | unsub | subq | pubfl | mma | mmz | accld | accst | accrd |
      accwr | push | qfence | sysc | atp | notifyw | halt => exact fun w he => by cases he; exact decodeOp_joinE (fun _ _ => rfl) _
  case kmovK => exact readsBack_kmovK wf
  case kmovFromS => exact readsBack_kmovFromS wf
  case kmovToS => exact readsBack_kmovToS wf
  case jmpS => exact readsBack_jmpS wf
  case jmpV => exact readsBack_jmpV wf
  case lend => exact readsBack_lend wf
  case lendStop => exact readsBack_lendStop wf
  case tlbiAsid => exact readsBack_tlbiAsid wf
  case tlbiVm => exact readsBack_tlbiVm wf
  case tlbiS2 => exact readsBack_tlbiS2 wf
  case tlbiAll => exact readsBack_tlbiAll wf
  case tlbir => exact readsBack_tlbir wf
  case tlbirS2 => exact readsBack_tlbirS2 wf
  case lcinv => exact readsBack_lcinv wf
  case lcinvAll => exact readsBack_lcinvAll wf
  case ecciCorr => exact readsBack_ecciCorr wf
  case ecciUnc => exact readsBack_ecciUnc wf
  all_goals exact fun w he => by cases he


/-- R157: no word of a well-formed instruction is taken for a header. -/
theorem opOf_ne_headerMark_of_encodeWord {i : Instr} {w : DWord} (wf : wellFormed i = true) (he : encodeWord i = some w) :
    opOf w ≠ 0x3FF := by
  intro hm
  have back := readsBack_of_wellFormed wf w he
  rw [hm] at back
  cases back

/-- The word of a well-formed compute instruction decodes to it. -/
theorem decodeWord_of_encodeWord {i : Instr} {w : DWord} (wf : wellFormed i = true) (he : encodeWord i = some w) :
    decodeWord w = .ok i := by
  have hm := opOf_ne_headerMark_of_encodeWord wf he
  simp only [decodeWord, beq_iff_eq, if_neg hm, readsBack_of_wellFormed wf w he, wf, if_true]

/-! ### Host words -/

section HostFields

variable (f7 : BitVec 7) (b a : BitVec 5) (f3 : BitVec 3) (d : BitVec 5) (op : BitVec 7)

/-- The 32-bit word that joins RISC-V's fields of format R. -/
def joinHost : Word := f7 ++ (b ++ (a ++ (f3 ++ (d ++ op))))

/-- R266: the fields of a joined host word. -/
theorem fields_joinHost :
    (joinHost f7 b a f3 d op).extractLsb' 0 7 = op ∧ (joinHost f7 b a f3 d op).extractLsb' 7 5 = d
      ∧ (joinHost f7 b a f3 d op).extractLsb' 12 3 = f3 ∧ (joinHost f7 b a f3 d op).extractLsb' 15 5 = a
      ∧ (joinHost f7 b a f3 d op).extractLsb' 20 5 = b ∧ (joinHost f7 b a f3 d op).extractLsb' 25 7 = f7 := by
  unfold joinHost
  refine ⟨?_, ?_, ?_, ?_, ?_, ?_⟩
  · rw [field_lower _ _ _ _ (by decide), field_lower _ _ _ _ (by decide), field_lower _ _ _ _ (by decide),
      field_lower _ _ _ _ (by decide), field_lower _ _ _ _ (by decide)]
    exact field_whole op
  · rw [field_lower _ _ _ _ (by decide), field_lower _ _ _ _ (by decide), field_lower _ _ _ _ (by decide),
      field_lower _ _ _ _ (by decide), field_upper _ _ _ _ (by decide)]
    exact field_whole d
  · rw [field_lower _ _ _ _ (by decide), field_lower _ _ _ _ (by decide), field_lower _ _ _ _ (by decide),
      field_upper _ _ _ _ (by decide)]
    exact field_whole f3
  · rw [field_lower _ _ _ _ (by decide), field_lower _ _ _ _ (by decide), field_upper _ _ _ _ (by decide)]
    exact field_whole a
  · rw [field_lower _ _ _ _ (by decide), field_upper _ _ _ _ (by decide)]
    exact field_whole b
  · rw [field_upper _ _ _ _ (by decide)]
    exact field_whole f7

/-- A host word is joined from its fields. -/
theorem joinHost_fields (w : Word) :
    joinHost (w.extractLsb' 25 7) (w.extractLsb' 20 5) (w.extractLsb' 15 5) (w.extractLsb' 12 3) (w.extractLsb' 7 5)
      (w.extractLsb' 0 7) = w := by
  unfold joinHost
  rw [join_fields w 0 5 7, join_fields w 0 3 12, join_fields w 0 5 15, join_fields w 0 5 20, join_fields w 0 7 25]
  exact field_whole w

/-- An Xtn3 word is a host word of opcode 0x0B (R266). -/
theorem joinXtn3_eq_joinHost : joinXtn3 f7 b a f3 d = joinHost f7 b a f3 d 0x0B := rfl

/-- A fence's word is a host word of RISC-V's opcode SYSTEM with funct3 and rd zero (R318). -/
theorem joinFence_eq_joinHost : f7 ++ (b ++ (a ++ (0x073 : BitVec 15))) = joinHost f7 b a 0 0 0x73 := by
  rw [joinHost, show (0x073 : BitVec 15) = (0 : BitVec 3) ++ ((0 : BitVec 5) ++ (0x73 : BitVec 7)) by decide]

variable {f7 b a f3 d}

/-- R266: an Xtn3 word decodes to what its fields name. -/
theorem decodeHost_joinXtn3 {i : Instr} (row : decodeXtn3 f3.toNat f7.toNat d a b = some i) :
    decodeHost (joinXtn3 f7 b a f3 d) = .ok i := by
  obtain ⟨hop, hd, hf3, ha, hb, hf7⟩ := fields_joinHost f7 b a f3 d 0x0B
  simp only [joinXtn3_eq_joinHost, decodeHost, hop, hd, hf3, ha, hb, hf7, row]
  rfl

/-- R318: a fence's word decodes to what its funct7 names. -/
theorem decodeHost_joinFence {i : Instr} (row : decodeFence f7.toNat a b = some i) :
    decodeHost (f7 ++ (b ++ (a ++ (0x073 : BitVec 15)))) = .ok i := by
  obtain ⟨hop, hd, hf3, ha, hb, hf7⟩ := fields_joinHost f7 b a 0 0 0x73
  simp only [joinFence_eq_joinHost, decodeHost, hop, hd, hf3, ha, hb, hf7, row]
  rfl

end HostFields

/-- The word of a host instruction decodes to it. -/
theorem decodeHost_of_encodeHost {i : Instr} {w : Word} (he : encodeHost i = some w) : decodeHost w = .ok i := by
  cases i
  case xpin | xunpin | xhint | xtierqLo | xtierqHi | xwaitvaW | xwaitvaD | xwakeva => cases he; exact decodeHost_joinXtn3 rfl
  case sfenceVma | hfenceVvma | hfenceGvma => cases he; exact decodeHost_joinFence rfl
  all_goals cases he

/-! ### A word that decodes is the word of what it decodes to -/

section Groups

variable {op : Nat} {h : Pfx} {w : DWord} {i : Instr}

theorem encodeWord_of_decodeScalar (hd : decodeScalar op h w = some i) :
    encodeWord i = some (joinWord (BitVec.ofNat 10 op) h (w.extractLsb' 0 46)) := by
  unfold decodeScalar at hd
  (repeat' split at hd) <;> cases hd <;> refine congrArg (some <| joinWord _ h ·) ?_ <;> simp only [bitsR_fmtR, bitsI_fmtI]

theorem encodeWord_of_decodeMask (hd : decodeMask op h w = some i) :
    encodeWord i = some (joinWord (BitVec.ofNat 10 op) h (w.extractLsb' 0 46)) := by
  unfold decodeMask at hd
  (repeat' split at hd) <;> cases hd <;> refine congrArg (some <| joinWord _ h ·) ?_ <;> simp only [bitsR_fmtR, bitsI_fmtI]

theorem encodeWord_of_decodeControl (hd : decodeControl op h w = some i) :
    encodeWord i = some (joinWord (BitVec.ofNat 10 op) h (w.extractLsb' 0 46)) := by
  unfold decodeControl at hd
  (repeat' split at hd) <;> cases hd <;> refine congrArg (some <| joinWord _ h ·) ?_ <;> simp only [bitsR_fmtR, bitsI_fmtI, bitsB_fmtB]

theorem encodeWord_of_decodeVectorInt (hd : decodeVectorInt op h w = some i) :
    encodeWord i = some (joinWord (BitVec.ofNat 10 op) h (w.extractLsb' 0 46)) := by
  unfold decodeVectorInt at hd
  (repeat' split at hd) <;> cases hd <;> refine congrArg (some <| joinWord _ h ·) ?_ <;> simp only [bitsR_fmtR, bitsI_fmtI]

theorem encodeWord_of_decodeVectorFloat (hd : decodeVectorFloat op h w = some i) :
    encodeWord i = some (joinWord (BitVec.ofNat 10 op) h (w.extractLsb' 0 46)) := by
  unfold decodeVectorFloat at hd
  (repeat' split at hd) <;> cases hd <;> exact congrArg (some <| joinWord _ h ·) (bitsR_fmtR w)

theorem encodeWord_of_decodeConvert (hd : decodeConvert op h w = some i) :
    encodeWord i = some (joinWord (BitVec.ofNat 10 op) h (w.extractLsb' 0 46)) := by
  unfold decodeConvert at hd
  (repeat' split at hd) <;> cases hd <;> exact congrArg (some <| joinWord _ h ·) (bitsR_fmtR w)

theorem encodeWord_of_decodeCrossLane (hd : decodeCrossLane op h w = some i) :
    encodeWord i = some (joinWord (BitVec.ofNat 10 op) h (w.extractLsb' 0 46)) := by
  unfold decodeCrossLane at hd
  (repeat' split at hd) <;> cases hd <;> exact congrArg (some <| joinWord _ h ·) (bitsR_fmtR w)

theorem encodeWord_of_decodeMemory (hd : decodeMemory op h w = some i) :
    encodeWord i = some (joinWord (BitVec.ofNat 10 op) h (w.extractLsb' 0 46)) := by
  unfold decodeMemory at hd
  (repeat' split at hd) <;> cases hd <;> exact congrArg (some <| joinWord _ h ·) (bitsM_fmtM w)

theorem encodeWord_of_decodeSync (hd : decodeSync op h w = some i) :
    encodeWord i = some (joinWord (BitVec.ofNat 10 op) h (w.extractLsb' 0 46)) := by
  unfold decodeSync at hd
  (repeat' split at hd) <;> cases hd <;> exact congrArg (some <| joinWord _ h ·) (bitsM_fmtM w)

theorem encodeWord_of_decodePlacement (hd : decodePlacement op h w = some i) :
    encodeWord i = some (joinWord (BitVec.ofNat 10 op) h (w.extractLsb' 0 46)) := by
  unfold decodePlacement at hd
  (repeat' split at hd) <;> cases hd <;> exact congrArg (some <| joinWord _ h ·) (bitsM_fmtM w)

theorem encodeWord_of_decodeEngine (hd : decodeEngine op h w = some i) :
    encodeWord i = some (joinWord (BitVec.ofNat 10 op) h (w.extractLsb' 0 46)) := by
  unfold decodeEngine at hd
  (repeat' split at hd) <;> cases hd <;> exact congrArg (some <| joinWord _ h ·) (bitsE_fmtE w)

theorem encodeWord_of_decodeSystem (hd : decodeSystem op h w = some i) :
    encodeWord i = some (joinWord (BitVec.ofNat 10 op) h (w.extractLsb' 0 46)) := by
  unfold decodeSystem at hd
  (repeat' split at hd) <;> cases hd <;> refine congrArg (some <| joinWord _ h ·) ?_ <;> simp only [bitsR_fmtR, bitsE_fmtE]

/-- R185: a word of any group is the word of the instruction its opcode names. -/
theorem encodeWord_of_decodeOp (hd : decodeOp op h w = some i) :
    encodeWord i = some (joinWord (BitVec.ofNat 10 op) h (w.extractLsb' 0 46)) := by
  unfold decodeOp at hd
  split at hd
  · exact encodeWord_of_decodeScalar hd
  split at hd
  · exact encodeWord_of_decodeMask hd
  split at hd
  · exact encodeWord_of_decodeControl hd
  split at hd
  · exact encodeWord_of_decodeVectorInt hd
  split at hd
  · exact encodeWord_of_decodeVectorFloat hd
  split at hd
  · exact encodeWord_of_decodeConvert hd
  split at hd
  · exact encodeWord_of_decodeCrossLane hd
  split at hd
  · exact encodeWord_of_decodeMemory hd
  split at hd
  · exact encodeWord_of_decodeSync hd
  split at hd
  · exact encodeWord_of_decodePlacement hd
  split at hd
  · exact encodeWord_of_decodeEngine hd
  exact encodeWord_of_decodeSystem hd

end Groups

/-- A compute word that decodes is the word of its instruction, which is well formed. -/
theorem encodeWord_of_decodeWord {w : DWord} {i : Instr} (hd : decodeWord w = .ok i) : encodeWord i = some w ∧ wellFormed i = true := by
  unfold decodeWord at hd
  split at hd
  · cases hd
  split at hd
  · cases hd
  next j hj =>
    split at hd
    · next wf =>
      cases hd
      refine ⟨?_, wf⟩
      rw [encodeWord_of_decodeOp hj, BitVec.ofNat_toNat, BitVec.setWidth_eq, joinWord_fields]
    · cases hd

/-- R266: a host word whose fields name an Xtn3 instruction is that instruction's word. -/
theorem encode_of_decodeXtn3 {f3 f7 : Nat} {d a b : BitVec 5} {i : Instr} (hd : decodeXtn3 f3 f7 d a b = some i) :
    encode i = some (.host (joinHost (BitVec.ofNat 7 f7) b a (BitVec.ofNat 3 f3) d 0x0B)) ∧ wellFormed i = true := by
  unfold decodeXtn3 at hd
  (repeat' split at hd) <;> cases hd
  case h_4.isTrue hb | h_5.isTrue hb => obtain rfl := eq_of_beq hb; exact ⟨rfl, rfl⟩
  all_goals exact ⟨rfl, rfl⟩

/-- R318: a host word whose fields name a fence is that fence's word. -/
theorem encode_of_decodeFence {f7 : Nat} {a b : BitVec 5} {i : Instr} (hd : decodeFence f7 a b = some i) :
    encode i = some (.host (joinHost (BitVec.ofNat 7 f7) b a 0 0 0x73)) ∧ wellFormed i = true := by
  unfold decodeFence at hd
  split at hd <;> cases hd <;> exact ⟨congrArg (some ∘ Code.host) (joinFence_eq_joinHost ..), rfl⟩

/-- A host word that decodes is the word of its instruction, which is well formed. -/
theorem encode_of_decodeHost {w : Word} {i : Instr} (hd : decodeHost w = .ok i) : encode i = some (.host w) ∧ wellFormed i = true := by
  rw [← joinHost_fields w]
  simp only [decodeHost] at hd
  split at hd
  · next hop =>
    split at hd
    · next j hj =>
      cases hd
      rw [eq_of_beq hop]
      have back := encode_of_decodeXtn3 hj
      rwa [BitVec.ofNat_toNat, BitVec.setWidth_eq, BitVec.ofNat_toNat, BitVec.setWidth_eq] at back
    · cases hd
  split at hd
  · next hop =>
    obtain ⟨⟨hop, hf3⟩, hd0⟩ := by simpa only [Bool.and_eq_true, beq_iff_eq] using hop
    split at hd
    · next j hj =>
      cases hd
      rw [hop, hd0, show w.extractLsb' 12 3 = 0 from BitVec.eq_of_toNat_eq hf3]
      have back := encode_of_decodeFence hj
      rwa [BitVec.ofNat_toNat, BitVec.setWidth_eq] at back
    · cases hd
  · cases hd

end Sys2Proof

namespace Sys2Proof.Claims

/-- Settles O2: the opcode of a word names the instruction, and its fields are the joined ones. -/
theorem encodeDecodeRoundTrip : Obligations.EncodeDecodeRoundTrip := by
  intro i c wf he
  rcases hw : encodeWord i with - | w
  · rcases hh : encodeHost i with - | w
    · simp only [encode, hw, hh, reduceCtorEq] at he
    · simp only [encode, hw, hh, Option.some.injEq] at he
      subst he; exact decodeHost_of_encodeHost hh
  · simp only [encode, hw, Option.some.injEq] at he
    subst he; exact decodeWord_of_encodeWord wf hw

/-- Settles O3: the fields that the decoder reads cover the word. -/
theorem decodeEncodeRoundTrip : Obligations.DecodeEncodeRoundTrip := by
  refine ⟨fun w i hd => ?_, fun w i hd => encode_of_decodeHost hd⟩
  obtain ⟨he, wf⟩ := encodeWord_of_decodeWord hd
  exact ⟨by simp only [encode, he], wf⟩

end Sys2Proof.Claims

/-! The scalar and control words, and the laws of their arithmetic (R63, R163, R197 to R215). -/

namespace Sys2Proof.Claims

open Sys2Proof Sys2Proof.Machine

/-! ### Words of the spec's encodings (R156 to R185, R266) -/

/-- Settles O1: the decoder evaluates each of the words; the header mark is looked for before anything else. -/
theorem decodedWords : Obligations.DecodedWords := by
  refine ⟨by decide, by decide, by decide, by decide, by decide, by decide, by decide, by decide, by decide, by decide, by decide,
    by decide, by decide,
    by decide, fun w hm => ?_⟩
  simp only [decodeWord, hm, BEq.rfl, if_true]

/-! ### Scalar words (R199, R202, R204, R205) -/

theorem shiftLeft_shiftCount (a b : DWord) : a <<< shiftCount b = if 64 ≤ b.toNat then 0 else a <<< b.toNat := by
  unfold shiftCount
  split_ifs with whole
  · rw [min_eq_right whole]; exact BitVec.shiftLeft_eq_zero le_rfl
  · rw [min_eq_left (by omega)]

theorem ushiftRight_shiftCount (a b : DWord) : a >>> shiftCount b = if 64 ≤ b.toNat then 0 else a >>> b.toNat := by
  unfold shiftCount
  split_ifs with whole
  · rw [min_eq_right whole]; exact BitVec.ushiftRight_eq_zero le_rfl
  · rw [min_eq_left (by omega)]

theorem sshiftRight_shiftCount (a b : DWord) :
    a.sshiftRight (shiftCount b) = if 64 ≤ b.toNat then (if a.msb then BitVec.allOnes 64 else 0) else a.sshiftRight b.toNat := by
  unfold shiftCount
  split_ifs with whole neg
  · rw [min_eq_right whole]
    ext i hi
    rw [BitVec.getElem_sshiftRight]
    simp [neg, -BitVec.reduceAllOnes]
  · rw [min_eq_right whole]
    ext i hi
    simp [BitVec.getElem_sshiftRight, neg]
  · rw [min_eq_left (by omega)]

/-- R204: the order in a signedness, on the values. -/
theorem ite_lessThan {α : Type} (sg : Bool) (a b : DWord) (x y : α) :
    (if lessThan sg a b then x else y) =
      if sg then (if a.toInt < b.toInt then x else y) else (if a.toNat < b.toNat then x else y) := by
  cases sg <;> simp [lessThan, BitVec.slt, BitVec.ult]

section
variable {s : State} {h : Pfx} {e : Env} (hr : Running s h false e) (hp : e.pass ≠ 0#32)
include hr hp

/-- R199: a scalar word that also writes the flags. -/
theorem scalarFlagOp_running (r : FmtR) (op : Nat) (f fl : DWord → DWord → DWord) (ho : op < 0x80) :
    scalarFlagOp s h r op f fl =
      .next (finish s e 1 (wrS e 1 r.d.toNat (f (rdS e r.a.toNat) (rdS e r.b.toNat)) ++ [wrZncv e (fl (rdS e r.a.toNat) (rdS e r.b.toNat))])) :=
  scalarWord_running hr hp op _ ho

end

/-- Settles O5: each word issues the value of its table row as its one producer. -/
theorem scalarResults : Obligations.ScalarResults := by
  intro s h r m e hr hp a b sg d
  have op (n : Nat) (f : DWord → DWord → DWord) (hn : n < 0x80) : scalarOp s h r n f = d (f a b) := scalarOp_running hr hp r n f hn
  refine ⟨op 0x000 (fun a _ => a) (by decide), (show execSmovi h m s = _ from scalarWord_running hr hp _ _ (by decide)),
    op 0x006 (mulHigh (isSigned r)) (by decide),
    op 0x009 (fun a b => a &&& b) (by decide), op 0x00A (fun a b => a ||| b) (by decide), op 0x00B (fun a b => a ^^^ b) (by decide),
    ?_, ?_, ?_, ?_, ?_, op 0x013 (fun a b => a + (b <<< r.sub.toNat)) (by decide),
    op 0x016 (fun a _ => BitVec.ofNat 64 (popcount a.toNat 64)) (by decide),
    (show execSsel h r s = _ from scalarWord_running hr hp _ _ (by decide)),
    op 0x017 (fun a _ => BitVec.ofNat 64 (leadingZeros a.toNat 64)) (by decide),
    op 0x014 (fieldExtract (isSigned r)) (by decide), (show execSbfi h r s = _ from scalarWord_running hr hp _ _ (by decide))⟩
  · rw [← shiftLeft_shiftCount]; exact op 0x00C (fun a b => a <<< shiftCount b) (by decide)
  · rw [← ushiftRight_shiftCount]; exact op 0x00D (fun a b => a >>> shiftCount b) (by decide)
  · rw [← sshiftRight_shiftCount]; exact op 0x00E (fun a b => a.sshiftRight (shiftCount b)) (by decide)
  · rw [← ite_lessThan]; exact op 0x00F (fun a b => if lessThan (isSigned r) b a then b else a) (by decide)
  · rw [← ite_lessThan]; exact op 0x010 (fun a b => if lessThan (isSigned r) a b then b else a) (by decide)

/-- Settles O6: each word issues its value and its flags. -/
theorem scalarFlagResults : Obligations.ScalarFlagResults := by
  intro s h r m e hr hp a b k x out
  exact ⟨scalarFlagOp_running hr hp r 0x002 (fun a b => a + b) flagsAdd (by decide),
    (show execSaddi h m s = _ from scalarWord_running hr hp _ _ (by decide)),
    scalarFlagOp_running hr hp r 0x004 (fun a b => a - b) flagsSub (by decide),
    scalarFlagOp_running hr hp r 0x005 (fun a b => a * b) flagsMul (by decide),
    (show execScmp h r s = _ from scalarWord_running hr hp _ _ (by decide))⟩

/-! ### Division (R203) -/

theorem quotient_mul_add_remainder (sg : Bool) (a b : DWord) : quotient sg a b * b + remainder sg a b = a := by
  cases sg with
  | false =>
    have values := congrArg (BitVec.ofNat 64) (Nat.div_add_mod' a.toNat b.toNat)
    rwa [BitVec.ofNat_add, BitVec.ofNat_mul, BitVec.ofNat_toNat, BitVec.ofNat_toNat, BitVec.setWidth_eq, BitVec.setWidth_eq] at values
  | true =>
    have values := congrArg (BitVec.ofInt 64) (Int.tdiv_mul_add_tmod a.toInt b.toInt)
    rwa [BitVec.ofInt_add, BitVec.ofInt_mul, BitVec.ofInt_toInt, BitVec.ofInt_toInt] at values

/-- R203: the remainder of a signed division lies in the range of its type, so no bit of it is lost. -/
theorem toInt_remainder {a b : DWord} (hb : b ≠ 0) : (remainder true a b).toInt = a.toInt.tmod b.toInt := by
  have hb0 : b.toInt ≠ 0 := fun h0 => hb (BitVec.toInt_inj.mp (h0.trans BitVec.toInt_zero.symm))
  have bound := Int.natAbs_tmod a.toInt b.toInt
  have less := Nat.mod_lt a.toInt.natAbs (Int.natAbs_pos.mpr hb0)
  have hi := b.toInt_lt
  have lo := b.le_toInt
  exact BitVec.toInt_ofInt_eq_self (by decide) (by omega) (by omega)

/-- Settles O9: the division with remainder of the integers, in either signedness. -/
theorem divisionLaw : Obligations.DivisionLaw := by
  intro sg a b hb
  refine ⟨quotient_mul_add_remainder sg a b, ?_, ?_⟩
  · rintro rfl
    have pos : 0 < b.toNat := Nat.pos_of_ne_zero fun h0 => hb (BitVec.eq_of_toNat_eq h0)
    have ha := a.isLt
    have hq := Nat.div_le_self a.toNat b.toNat
    have hm := Nat.mod_lt a.toNat pos
    have hbl := b.isLt
    simp only [remainder, quotient, Bool.false_eq_true, if_false, BitVec.toNat_ofNat]
    exact ⟨by rwa [Nat.mod_eq_of_lt (by omega)], Nat.mod_eq_of_lt (by omega)⟩
  · rintro rfl
    have hb0 : b.toInt ≠ 0 := fun h0 => hb (BitVec.toInt_inj.mp (h0.trans BitVec.toInt_zero.symm))
    rw [toInt_remainder hb, Int.natAbs_tmod]
    refine ⟨Nat.mod_lt _ (Int.natAbs_pos.mpr hb0), fun neg => ?_, fun nonneg => Int.tmod_nonneg _ nonneg⟩
    have opposite := Int.tmod_nonneg b.toInt (show 0 ≤ -a.toInt by omega)
    rw [Int.neg_tmod] at opposite
    omega

/-! ### Special-register moves (R206) -/

theorem modBlock_turn (s : State) (b : Nat) (f : Block → Block) : (modBlock s b f).turn = s.turn := by
  unfold modBlock; split <;> rfl

theorem modBlock_agents (s : State) (b : Nat) (f : Block → Block) : (modBlock s b f).agents = s.agents := by
  unfold modBlock; split <;> rfl

/-- A word at hand reads neither blocks nor memory for its environment. -/
theorem running_modBlock {s : State} {h : Pfx} {f64 : Bool} {e : Env} (hr : Running s h f64 e) (b : Nat) (f : Block → Block) :
    Running (modBlock s b f) h f64 e := by
  obtain ⟨a, ag, iss, hi, rfl⟩ := hr
  exact ⟨a, ag, iss, by rwa [issuing, modBlock_turn, modBlock_agents], rfl⟩

section
variable {s : State} {h : Pfx} {e : Env} (hr : Running s h false e) (hp : e.pass ≠ 0#32) (r : FmtR)
include hr hp

theorem exec_movsr_running : exec (.movsr h r) s = .next (finish s e 1
    (if r.a == 0 then (lanesOf e.pass).map (fun l => wrV e 1 r.d.toNat l (BitVec.ofNat 32 l)) else wrS e 1 r.d.toNat (special s e r.a.toNat))) :=
  show execMovsr h r s = _ from scalarWord_running hr hp _ _ (by decide)

theorem exec_movrs_running : exec (.movrs h r) s =
    if r.a == 0x0E then .next (finish s e 1 (movFlags e (rdS e r.b.toNat)))
    else .next (finish (movBlock s e.ag.block r.a.toNat (rdS e r.b.toNat)) e 1 (movShadow s e r.a.toNat)) := by
  show execMovrs h r s = _
  rw [execMovrs, onIssue_running hr, show (e.pass == 0) = false from beq_eq_false_iff_ne.mpr hp, Bool.false_or,
    scalarWord_running hr hp _ _ (by decide),
    scalarWord_running (s := movBlock ..) (running_modBlock hr _ _) hp _ _ (by decide)]

end

/-- Settles O11: a move is a scalar word; one to a status register of the block issues in the block that it changed. -/
theorem specialMoves : Obligations.SpecialMoves := by
  intro s h r e hr hp b
  rw [exec_movsr_running hr hp, exec_movrs_running hr hp]
  refine ⟨fun h0 => ?_, fun h0 => ?_, fun h0 => ?_, fun h0 => ?_, fun x h0 hx => ?_⟩
  · rw [h0]; rfl
  · rw [if_neg (by simpa using h0)]
  · rw [h0]; rfl
  · rw [h0]; rfl
  · rw [h0]
    simp [movShadow, hx]
    rfl

/-! ### Words that no lane passes (R163, R197) -/

section
variable {s : State} {h : Pfx} {e : Env} (hr : Running s h false e) (hp : e.pass = 0#32)
include hr hp

theorem scalarOp_idle (r : FmtR) (op : Nat) (f : DWord → DWord → DWord) (ho : op < 0x80) :
    scalarOp s h r op f = .next (finish s e 1 []) :=
  scalarWord_idle hr hp op _ ho

theorem scalarFlagOp_idle (r : FmtR) (op : Nat) (f fl : DWord → DWord → DWord) (ho : op < 0x80) :
    scalarFlagOp s h r op f fl = .next (finish s e 1 []) :=
  scalarWord_idle hr hp op _ ho

theorem divideWord_idle (r : FmtR) (op : Nat) (f : DWord → DWord → DWord) (ho : op < 0x80) :
    divideWord s h r op f = .next (finish s e 1 []) := by
  rw [divideWord, onIssue_running hr, scalarOp_idle hr hp r op f ho]
  simp [hp]

theorem maskOp_idle (r : FmtR) (op : Nat) (f : LaneSet → LaneSet → LaneSet) (ho : op < 0x80) :
    maskOp s h r op f = .next (finish s e 1 []) :=
  scalarWord_idle hr hp op _ ho

theorem maskToScalar_idle (r : FmtR) (op : Nat) (f : LaneSet → Nat) (ho : op < 0x80) :
    maskToScalar s h r op f = .next (finish s e 1 []) :=
  scalarWord_idle hr hp op _ ho

theorem exec_movrs_idle (r : FmtR) : exec (.movrs h r) s = .next (finish s e 1 []) := by
  show execMovrs h r s = _
  rw [execMovrs, onIssue_running hr, if_pos (by simp [hp]), scalarWord_idle hr hp _ _ (by decide)]

/-- R214: no agent stops at a trap word that no lane passes. -/
theorem trapWord_idle (op : Nat) (code : TrapCode) (imm : BitVec 30) (ho : op < 0x80) :
    trapWord s h op code imm = .next (finish s e 1 []) := by
  rw [trapWord, onIssue_running hr]
  simp [hp, wordCredits, ho]

end

/-- Settles O15: each form of these words does nothing but issue where no lane passes. -/
theorem noPassingLane : Obligations.NoPassingLane := by
  intro s h r m e hr hp idle
  have op (n f hn) : scalarOp s h r n f = idle := scalarOp_idle hr hp r n f hn
  have flagOp (n f g hn) : scalarFlagOp s h r n f g = idle := scalarFlagOp_idle hr hp r n f g hn
  have word (n f hn) : scalarWord s h n f = idle := scalarWord_idle hr hp n f hn
  have mask (n f hn) : maskOp s h r n f = idle := maskOp_idle hr hp r n f hn
  have count (n f hn) : maskToScalar s h r n f = idle := maskToScalar_idle hr hp r n f hn
  have div (n f hn) : divideWord s h r n f = idle := divideWord_idle hr hp r n f hn
  have trap (n c hn) : trapWord s h n c m.imm = idle := trapWord_idle hr hp n c m.imm hn
  exact ⟨show execSmov h r s = idle from op _ _ (by decide), show execSmovi h m s = idle from word _ _ (by decide),
    show execSaddi h m s = idle from word _ _ (by decide), show execSadd h r s = idle from flagOp _ _ _ (by decide),
    show execSsub h r s = idle from flagOp _ _ _ (by decide), show execSmul h r s = idle from flagOp _ _ _ (by decide),
    show execSmulh h r s = idle from op _ _ (by decide), show execSdiv h r s = idle from div _ _ (by decide),
    show execSrem h r s = idle from div _ _ (by decide), show execSand h r s = idle from op _ _ (by decide),
    show execSor h r s = idle from op _ _ (by decide), show execSxor h r s = idle from op _ _ (by decide),
    show execSshl h r s = idle from op _ _ (by decide), show execSshr h r s = idle from op _ _ (by decide),
    show execSsra h r s = idle from op _ _ (by decide), show execSmin h r s = idle from op _ _ (by decide),
    show execSmax h r s = idle from op _ _ (by decide), show execScmp h r s = idle from word _ _ (by decide),
    show execSsel h r s = idle from word _ _ (by decide), show execSlea h r s = idle from op _ _ (by decide),
    show execSbfe h r s = idle from op _ _ (by decide), show execSbfi h r s = idle from word _ _ (by decide),
    show execSpopc h r s = idle from op _ _ (by decide), show execSclz h r s = idle from op _ _ (by decide),
    show execMovsr h r s = idle from word _ _ (by decide), exec_movrs_idle hr hp r,
    show execKmovK h r s = idle from mask _ _ (by decide), show execKmovFromS h r s = idle from word _ _ (by decide),
    show execKmovToS h r s = idle from count _ _ (by decide), show execKand h r s = idle from mask _ _ (by decide),
    show execKor h r s = idle from mask _ _ (by decide), show execKxor h r s = idle from mask _ _ (by decide),
    show execKnot h r s = idle from mask _ _ (by decide), show execKpopc h r s = idle from count _ _ (by decide),
    show execKffs h r s = idle from count _ _ (by decide), show execKset h m s = idle from word _ _ (by decide),
    show execTrap h m s = idle from trap _ _ (by decide), show execBrk h m s = idle from trap _ _ (by decide)⟩

/-! ### Control words (R208 to R215) -/

/-- R214: a trap word that a lane passes stops its agent once it has issued. -/
theorem trapWord_running {s : State} {h : Pfx} {e : Env} (hr : Running s h false e) (hp : e.pass ≠ 0#32) (op : Nat) (code : TrapCode)
    (imm : BitVec 30) (ho : op < 0x80) : trapWord s h op code imm =
      .next (postTrap (finish s e 1 []) e.aid { issueReq e code 0 0 with kind := 3, info := imm.toNat % 2 ^ 16 }).2 := by
  rw [trapWord, onIssue_running hr]
  simp [hp, wordCredits, ho, nbits_zero]

/-- The lanes of the empty set. -/
theorem lanesOf_zero : lanesOf 0#32 = [] := by decide

/-- Settles O13: each word gives its targets, links and yield to the issue. -/
theorem controlTransfers : Obligations.ControlTransfers := by
  intro s h r b e hr lanes go target pair next
  have code : nbits b.d.toNat 0 3 = b.d.toNat % 8 := nbits_zero _ 3
  have pairs : jumpPairs e r.a = lanes.map (fun l => (l, pair l)) := rfl
  rw [← code, ← pairs]
  refine ⟨show execNop h r s = _ from fixedWord_running hr _ _, show execBra h b s = _ from controlWord_running hr _ _,
    show execBrc h b s = _ from controlWord_running hr _ _, ?_,
    show execJmpS h r s = _ from controlWord_running hr _ _, show execJmpV h r s = _ from controlWord_running hr _ _,
    show execCall h b s = _ from controlWord_running hr _ _, show execRet h r s = _ from controlWord_running hr _ _,
    show execYield h r s = _ from controlWord_running hr _ _⟩
  have link : exec (.brl h b) s = go _ (if e.pass == 0#32 then [] else wrS e lateCycle b.d.toNat next) false :=
    show execBrl h b s = _ from controlWord_running hr _ _
  simp only [beq_iff_eq] at link
  exact link

/-- Settles O14: `RECONV` and `EXIT` put the passing lanes to sleep one by one; a trap word issues, and then its agent stops. -/
theorem strandEnds : Obligations.StrandEnds := by
  intro s h r m e hr lanes asleep stop
  refine ⟨show execReconv h r s = _ from onIssue_running hr _, show execExit h r s = _ from onIssue_running hr _,
    fun hp => ⟨show execTrap h m s = _ from trapWord_running hr hp _ _ _ (by decide),
    show execBrk h m s = _ from trapWord_running hr hp _ _ _ (by decide)⟩,
    fun hp => ⟨?_, ?_, show execTrap h m s = _ from trapWord_idle hr hp _ _ _ (by decide),
    show execBrk h m s = _ from trapWord_idle hr hp _ _ _ (by decide)⟩⟩
  · simp only [asleep, lanes, hp, lanesOf_zero, List.foldl_nil]
  · simp only [lanes, hp, lanesOf_zero, List.foldl_nil]
end Sys2Proof.Claims

/-! The vector, float, conversion and cross-lane words, and the laws of their arithmetic (R78, R84, R106, R110 to R114, R216 to R236). -/

namespace Sys2Proof.Claims

open Sys2Proof Sys2Proof.Machine

/-! ### The shared forms of vector words -/

section
variable {s : State} {h : Pfx} {e : Env} {r : FmtR} {i : Instr}

theorem intWord_running (hr : Running s h false e) (op : Nat) (f : Nat → Nat → Nat × Bool) (hf : RelFine e i r) :
    intWord s h r i op f = .next (finish s e (wordCredits op false (lanesOf e.pass).length)
      (lanewise e r (latency op) (tyRegs r.ty) (fun l => f (opA e r (tyRegs r.ty) l) (opB e r (tyRegs r.ty) l)))) :=
  vecWord_running hr r i op _ _ hf

theorem floatWord_running (hr : Running s h (isF64Ty r) e) (op : Nat) (c : Bool) (f : Nat → Nat → Nat → Nat × Bool) (hf : RelFine e i r) :
    floatWord s h r i op c f = .next (finish s e (wordCredits op (isF64Ty r) (lanesOf e.pass).length)
      (lanewise e r (latency op) (tyRegs r.ty) (fun l =>
        perElement r f (opA e r (tyRegs r.ty) l) (opB e r (tyRegs r.ty) l) (if c then opC e r (tyRegs r.ty) l else 0)))) :=
  vecWord_running hr r i op _ _ hf

theorem arithWord_running (hr : Running s h (isF64Ty r) e) (op which : Nat) (hf : RelFine e i r) :
    arithWord s h r i op which = .next (finish s e (wordCredits op (isF64Ty r) (lanesOf e.pass).length)
      (lanewise e r (latency op) (tyRegs r.ty) (fun l =>
        perElement r (fun a b _ => ofRounded (fOp2 (floatTy r) r.rnd.toNat r.sat r.ftz which a b))
          (opA e r (tyRegs r.ty) l) (opB e r (tyRegs r.ty) l) (if false then opC e r (tyRegs r.ty) l else 0)))) :=
  floatWord_running hr op false _ hf

theorem transWord_running (hr : Running s h false e) (op : Nat) (f : Bool → Nat → Nat) (hf : RelFine e i r) :
    transWord s h r i op f = .next (finish s e (wordCredits op false (lanesOf e.pass).length)
      (lanewise e r (latency op) 1 (fun l => plain (f r.ftz (opA e r 1 l))))) :=
  vecWord_running hr r i op _ _ hf

theorem crossWord_running (hr : Running s h false e) (op : Nat) (f : Env → LaneSet → List Producer) :
    crossWord s h r op f = .next (finish s e (wordCredits op false (lanesOf e.pass).length) (f e (members e r.c))) :=
  fixedWord_running hr op _

theorem crossScalar_running (hr : Running s h false e) (op : Nat) (f : Env → LaneSet → List Producer) :
    crossScalar s h r op f =
      .next (finish s e (wordCredits op false (lanesOf e.pass).length) (if e.pass == 0 then [] else f e (members e r.c))) :=
  crossWord_running hr op _

theorem permWord_running (hr : Running s h false e) (op : Nat) (src : Env → Nat → Int) :
    permWord s h r op src = .next (finish s e (wordCredits op false (lanesOf e.pass).length) ((lanesOf (members e r.c)).map (fun l =>
      wrV e 6 r.d.toNat l (rdV e r.a.toNat
        (if decide (0 ≤ src e l) && decide (src e l < 32) && (members e r.c).getLsbD (src e l).toNat then (src e l).toNat else l))))) :=
  crossWord_running hr op _

end

/-! ### Vector integer words (R220 to R223) -/

/-- Settles O16: each word is an integer word of A and B in its type, or a vector word of all three sources. -/
theorem vectorArithmetic : Obligations.VectorArithmetic := by
  intro s h r e hr k t a b c out
  exact ⟨fun hf => show execVadd h r s = _ from intWord_running hr _ _ hf,
    fun hf => show execVsub h r s = _ from intWord_running hr _ _ hf,
    fun hf => show execVmul h r s = _ from intWord_running hr _ _ hf, fun hf => show execVmulh h r s = _ from intWord_running hr _ _ hf,
    fun hf => show execVmin h r s = _ from intWord_running hr _ _ hf, fun hf => show execVmax h r s = _ from intWord_running hr _ _ hf,
    fun hf => show execVmad h r s = _ from vecWord_running hr _ _ _ _ _ hf,
    fun hf => show execVabs h r s = _ from intWord_running hr _ _ hf,
    fun hf => show execVneg h r s = _ from intWord_running hr _ _ hf⟩

theorem intOf_true_eq (w v : Nat) :
    intOf true w v = if 2 ^ (w - 1) ≤ v % 2 ^ w then (v : Int) % 2 ^ w - 2 ^ w else (v : Int) % 2 ^ w := by
  simp [intOf]

/-- R221: the position of a 32-bit field operand. -/
theorem fieldPos32_eq (c : Nat) : nbits c 0 5 = c % 32 := nbits_zero c 5

/-- Settles O18: each word is an integer word of A and B in its width, or a vector word of its own sources. -/
theorem vectorBits : Obligations.VectorBits := by
  intro s h r m e hr k w a b n one sh
  refine ⟨fun hf => show execVmov h r s = _ from intWord_running hr _ _ hf,
    fun hf => show execVand h r s = _ from intWord_running hr _ _ hf,
    fun hf => show execVor h r s = _ from intWord_running hr _ _ hf, fun hf => show execVxor h r s = _ from intWord_running hr _ _ hf,
    fun hf => show execVnot h r s = _ from intWord_running hr _ _ hf, fun hf => show execVshl h r s = _ from intWord_running hr _ _ hf,
    fun hf => show execVshr h r s = _ from intWord_running hr _ _ hf, fun hf => ?_, 
    fun hf => show execVrot h r s = _ from intWord_running hr _ _ hf, fun hf => show execVbfe h r s = _ from intWord_running hr _ _ hf,
    fun hf => show execVpopc h r s = _ from intWord_running hr _ _ hf, fun hf => show execVclz h r s = _ from intWord_running hr _ _ hf,
    fun hf => show execVbrev h r s = _ from intWord_running hr _ _ hf,
    fun hf => show execVsel h r s = _ from vecWord_running hr _ _ _ _ _ hf, 
    fun hf => ?_, fun hf => show execVdot4 h r s = _ from vecWord_running hr _ _ _ _ _ hf,
    fun hf => show execVidx h r s = _ from vecWord_running hr _ _ _ _ _ hf, show execVmovi h m s = _ from fixedWord_running hr _ _⟩
  · simp only [sh, ← intOf_true_eq]
    exact show execVsra h r s = _ from intWord_running hr _ _ hf
  · simp only [← fieldPos32_eq]
    exact show execVbfi h r s = _ from vecWord_running hr _ _ _ _ _ hf

/-- Settles O19: the bits of a comparison are those of its relation in each passing lane. -/
theorem vectorCompares : Obligations.VectorCompares := by
  intro s h r e e' hr hr' k t x y u holds sum
  refine ⟨fun hf => ?_, fun hf => show execVfcmp h r s = _ from compareWord_running hr' _ _ _ _ hf,
    fun hf => show execVaddc h r s = _ from laneWord_running hr _ _ _ _ hf⟩
  exact show execVcmp h r s = _ from compareWord_running hr _ _ _ _ hf

/-! ### Float and conversion words (R106, R224 to R231) -/

/-- Settles O20: each word rounds the exact result of each element once; a transcendental is a vector word of one operand. -/
theorem floatArithmetic : Obligations.FloatArithmetic := by
  intro s h r e e' hr hr' k f cost m out op2 tr
  refine ⟨fun hf => show execVfadd h r s = _ from arithWord_running hr _ _ hf,
    fun hf => show execVfsub h r s = _ from arithWord_running hr _ _ hf,
    fun hf => show execVfmul h r s = _ from arithWord_running hr _ _ hf,
    fun hf => show execVfdiv h r s = _ from arithWord_running hr _ _ hf,
    fun hf => show execVfma h r s = _ from floatWord_running hr _ _ _ hf,
    fun hf => show execVfmin h r s = _ from floatWord_running hr _ _ _ hf,
    fun hf => show execVfmax h r s = _ from floatWord_running hr _ _ _ hf,
    fun hf => show execVfrnd h r s = _ from floatWord_running hr _ _ _ hf,
    fun hf => show execVfsqrt h r s = _ from floatWord_running hr _ _ _ hf,
    fun hf => show execVfclass h r s = _ from vecWord_running hr _ _ _ _ _ hf,
    fun hf => show execVfscale h r s = _ from vecWord_running hr _ _ _ _ _ hf,
    fun hf => show execVfdot2 h r s = _ from vecWord_running hr' _ _ _ _ _ hf,
    fun hf => show execVfrcp h r s = _ from transWord_running hr' _ _ hf,
    fun hf => show execVfrsq h r s = _ from transWord_running hr' _ _ hf,
    fun hf => show execVfexp2 h r s = _ from transWord_running hr' _ _ hf,
    fun hf => show execVflog2 h r s = _ from transWord_running hr' _ _ hf,
    fun hf => show execVfsin h r s = _ from transWord_running hr' _ _ hf,
    fun hf => show execVfcos h r s = _ from transWord_running hr' _ _ hf,
    fun hf => show execVftanh h r s = _ from transWord_running hr' _ _ hf⟩

/-- R227: the source type of a conversion. -/
theorem cvtFrom_eq (r : FmtR) : cvtFrom r = r.c.toNat % 32 := nbits_zero _ 5

/-- Settles O21: each conversion is a vector word; the block scale issues the producers of its two groups. -/
theorem conversions : Obligations.Conversions := by
  intro s h r e e' hr hr' out cvt ts8 td8 cb
  simp only [← cvtFrom_eq] at hr ⊢
  refine ⟨fun hf => show execVcvt h r s = _ from vecWord_running hr _ _ _ _ _ hf,
    fun hf => show execVpack8 h r s = _ from vecWord_running hr' _ _ _ _ _ hf,
    fun hf => show execVunpk8 h r s = _ from vecWord_running hr' _ _ _ _ _ hf,
    fun hf => show execVquant h r s = _ from vecWord_running hr' _ _ _ _ _ hf,
    fun hf => ?_, show execVbscale h r s = _ from fixedWord_running hr' _ _⟩
  have exponent (w : Nat) : w % 256 = nbits w 0 8 := (nbits_zero w 8).symm
  simp only [exponent]
  exact show execVdeq h r s = _ from vecWord_running hr' _ _ _ _ _ hf

/-! ### Cross-lane words (R110 to R114, R232 to R236) -/

/-- Settles O22: each word issues the producers of its member set. -/
theorem crossLaneMoves : Obligations.CrossLaneMoves := by
  intro s h r e hr p n a out perm ballot once x y v
  refine ⟨show execVshfl h r s = _ from permWord_running hr _ _, show execVshup h r s = _ from permWord_running hr _ _,
    show execVshdn h r s = _ from permWord_running hr _ _, show execVshxr h r s = _ from permWord_running hr _ _,
    show execVbcast h r s = _ from permWord_running hr _ _, show execV2s h r s = _ from crossScalar_running hr _ _,
    show execS2v h r s = _ from crossWord_running hr _ _, show execVvote h r s = _ from crossScalar_running hr _ _,
    show execVmatch h r s = _ from crossWord_running hr _ _, show execVcomp h r s = _ from crossWord_running hr _ _,
    show execVexpd h r s = _ from crossWord_running hr _ _, show execVred h r s = _ from crossScalar_running hr _ _,
    show execVscan h r s = _ from crossWord_running hr _ _, fun hp => ?_⟩
  have none : p = 0#32 := by simp only [p, hp, BitVec.and_zero]
  exact ⟨by simp only [y, none, lanesOf_zero, scanLanes], none⟩

/-! ### Narrowing (R84) -/

/-- R83: the low `w` bits of a value in the range of its type are read back as the value. -/
theorem intOf_emod (sg : Bool) {w : Nat} (hw : 0 < w) {v : Int} (lo : intMin sg w ≤ v) (hi : v ≤ intMax sg w) :
    intOf sg w (v % 2 ^ w).toNat = v := by
  obtain ⟨k, rfl⟩ : ∃ k, w = k + 1 := ⟨w - 1, by omega⟩
  have half : (2 : Int) ^ (k + 1) = 2 * 2 ^ k := by ring
  have halfNat : (2 : Nat) ^ (k + 1) = 2 * 2 ^ k := by ring
  have pos : (0 : Int) < 2 ^ k := by positivity
  have cast : ((2 ^ k : Nat) : Int) = 2 ^ k := by push_cast; rfl
  cases sg with
  | false =>
    simp only [intMin, intMax, Bool.false_eq_true, if_false] at lo hi
    have value : v % 2 ^ (k + 1) = v := Int.emod_eq_of_lt lo (by omega)
    have small : v.toNat % 2 ^ (k + 1) = v.toNat := Nat.mod_eq_of_lt (by omega)
    simp only [intOf, value, small, Bool.false_and, Bool.false_eq_true, if_false]
    omega
  | true =>
    simp only [intMin, intMax, if_true, Nat.add_sub_cancel] at lo hi
    rcases lt_or_ge v 0 with neg | nonneg
    · have value : v % 2 ^ (k + 1) = v + 2 ^ (k + 1) := by
        rw [← Int.add_emod_right, Int.emod_eq_of_lt] <;> omega
      have small : (v + 2 ^ (k + 1)).toNat % 2 ^ (k + 1) = (v + 2 ^ (k + 1)).toNat := Nat.mod_eq_of_lt (by omega)
      simp only [intOf, value, small, Bool.true_and, Nat.add_sub_cancel, decide_eq_true_eq]
      rw [if_pos (by omega)]
      omega
    · have value : v % 2 ^ (k + 1) = v := Int.emod_eq_of_lt nonneg (by omega)
      have small : v.toNat % 2 ^ (k + 1) = v.toNat := Nat.mod_eq_of_lt (by omega)
      simp only [intOf, value, small, Bool.true_and, Nat.add_sub_cancel, decide_eq_true_eq]
      rw [if_neg (by omega)]
      omega

/-- R83: the range of a type is not empty. -/
theorem intMin_le_intMax (sg : Bool) (w : Nat) : intMin sg w ≤ intMax sg w := by
  have half : (0 : Int) < 2 ^ (w - 1) := by positivity
  have whole : (0 : Int) < 2 ^ w := by positivity
  cases sg with
  | false => simp only [intMin, intMax, Bool.false_eq_true, if_false]; omega
  | true => simp only [intMin, intMax, if_true]; omega

/-- R84: without `.sat` a value wraps. -/
theorem narrow_wrap (sg : Bool) (w : Nat) (v : Int) : narrow sg w false v = ((v % 2 ^ w).toNat, false) := rfl

/-- R84: with `.sat` a value becomes the one of its type's range that is nearest to it. -/
theorem narrow_clamp {sg : Bool} {w : Nat} {v c : Int} (hc : max (intMin sg w) (min (intMax sg w) v) = c) :
    narrow sg w true v = ((c % 2 ^ w).toNat, c != v) := by
  rw [narrow, if_pos rfl, hc, Bool.true_and]

/-- Settles O17: a wrapped value keeps its residue, and the clamped value lies in the range, where it is read back. -/
theorem narrowLaw : Obligations.NarrowLaw := by
  intro sg w v hw
  have pos : (0 : Int) < 2 ^ w := by positivity
  have nonneg := Int.emod_nonneg v pos.ne'
  have less := Int.emod_lt_of_pos v pos
  have range := intMin_le_intMax sg w
  refine ⟨?_, ?_, rfl, fun ⟨lo, hi⟩ => ?_, fun lo => ?_, fun hi => ?_⟩
  · rw [narrow_wrap]
    have cast : ((2 ^ w : Nat) : Int) = 2 ^ w := by push_cast; rfl
    omega
  · rw [narrow_wrap, Int.toNat_of_nonneg nonneg, Int.emod_emod]
  · rw [narrow_clamp (c := v) (by omega)]
    exact ⟨intOf_emod sg hw lo hi, bne_self_eq_false v⟩
  · rw [narrow_clamp (c := intMin sg w) (by omega)]
    exact ⟨intOf_emod sg hw le_rfl range, bne_iff_ne.mpr (by omega)⟩
  · rw [narrow_clamp (c := intMax sg w) (by omega)]
    exact ⟨intOf_emod sg hw range le_rfl, bne_iff_ne.mpr (by omega)⟩

/-! ### An integer sum of the members (R110, R113) -/

theorem foldl_add_eq_sum {α : Type} (f : α → Int) (l : List α) (z : Int) : l.foldl (fun t x => t + f x) z = z + (l.map f).sum := by
  induction l generalizing z with
  | nil => simp
  | cons x l ih => simp [ih, add_assoc]

theorem intOf_true_toNat (x : BitVec 32) : intOf true 32 x.toNat = x.toInt := by
  have := x.isLt
  rw [intOf_true_eq, BitVec.toInt_eq_toNat_cond]
  split_ifs <;> omega

/-- Settles O23: the fold of the members is their sum, narrowed once. -/
theorem reductionSum : Obligations.ReductionSum := by
  intro e r p hsub hsat
  have sum (sg : Bool) (v : Nat → Int) (hv : ∀ l, intOf sg 32 (rdV e r.a.toNat l).toNat = v l) (hsg : redSigned r = sg)
      (hfl : redFloat r = false) :
      ((reduceMembers e r p).1 : Int) = ((lanesOf p).map v).sum % 2 ^ 32 ∧ (reduceMembers e r p).2 = false := by
    have value : reduceMembers e r p = narrow sg 32 false ((lanesOf p).map v).sum := by
      rw [reduceMembers, hsub, hsat, hfl, hsg, foldl_add_eq_sum, zero_add]
      simp [hv]
    rw [value, narrow_wrap]
    exact ⟨Int.toNat_of_nonneg (Int.emod_nonneg _ (by decide)), rfl⟩
  constructor
  · intro ht
    exact sum false _ (fun l => by simp [intOf, Nat.mod_eq_of_lt (BitVec.isLt _)]) (by simp [redSigned, ht]) (by simp [redFloat, ht])
  · intro ht
    exact sum true _ (fun l => intOf_true_toNat _) (by simp [redSigned, ht]) (by simp [redFloat, ht])

/-! ### Relative operands (R78, R177) -/

/-- The outcome of an instruction that computes lane by lane. -/
def IsLaneWord (s : State) (h : Pfx) (r : FmtR) (f64 : Bool) (i : Instr) (o : Out) : Prop := ∃ op f, o = laneWord s h r i f64 op f

section
variable {s : State} {h : Pfx} {r : FmtR} {i : Instr} {f64 : Bool}

theorem isLaneWord_laneWord (op : Nat) (f : Env → Nat → List Producer) : IsLaneWord s h r f64 i (laneWord s h r i f64 op f) := ⟨op, f,
    rfl⟩

theorem isLaneWord_vecWord (op k : Nat) (f : Env → Nat → Nat × Bool) : IsLaneWord s h r f64 i (vecWord s h r i f64 op k f) :=
  isLaneWord_laneWord op _

theorem isLaneWord_compareWord (op : Nat) (f : Env → Nat → Bool) : IsLaneWord s h r f64 i (compareWord s h r i f64 op f) :=
  isLaneWord_laneWord op _

theorem isLaneWord_intWord (op : Nat) (f : Nat → Nat → Nat × Bool) : IsLaneWord s h r false i (intWord s h r i op f) :=
  isLaneWord_vecWord op _ _

theorem isLaneWord_floatWord (op : Nat) (c : Bool) (f : Nat → Nat → Nat → Nat × Bool) :
    IsLaneWord s h r (isF64Ty r) i (floatWord s h r i op c f) :=
  isLaneWord_vecWord op _ _

theorem isLaneWord_arithWord (op which : Nat) : IsLaneWord s h r (isF64Ty r) i (arithWord s h r i op which) :=
  isLaneWord_floatWord op _ _

theorem isLaneWord_transWord (op : Nat) (f : Bool → Nat → Nat) : IsLaneWord s h r false i (transWord s h r i op f) :=
  isLaneWord_vecWord op _ _

end

/-- R216: the integer, transcendental and packed-conversion words. -/
theorem isLaneWord_exec (s : State) (h : Pfx) (r : FmtR) :
    ∀ i ∈ [Instr.vmov h r, .vadd h r, .vsub h r, .vmul h r, .vmulh h r, .vmad h r, .vmin h r, .vmax h r, .vabs h r, .vneg h r,
        .vand h r, .vor h r, .vxor h r, .vnot h r, .vshl h r, .vshr h r, .vsra h r, .vrot h r, .vbfe h r, .vbfi h r,
        .vpopc h r, .vclz h r, .vbrev h r, .vcmp h r, .vsel h r, .vaddc h r, .vdot4 h r, .vidx h r, .vfrcp h r, .vfrsq h r,
        .vfexp2 h r, .vflog2 h r, .vfsin h r, .vfcos h r, .vftanh h r, .vfdot2 h r, .vpack8 h r, .vunpk8 h r, .vquant h r,
        .vdeq h r], IsLaneWord s h r false i (exec i s) := by
  simp only [List.forall_mem_cons]
  exact ⟨show IsLaneWord s h r _ _ (execVmov h r s) from isLaneWord_intWord _ _,
    show IsLaneWord s h r _ _ (execVadd h r s) from isLaneWord_intWord _ _,
    show IsLaneWord s h r _ _ (execVsub h r s) from isLaneWord_intWord _ _,
    show IsLaneWord s h r _ _ (execVmul h r s) from isLaneWord_intWord _ _,
    show IsLaneWord s h r _ _ (execVmulh h r s) from isLaneWord_intWord _ _,
    show IsLaneWord s h r _ _ (execVmad h r s) from isLaneWord_vecWord _ _ _,
    show IsLaneWord s h r _ _ (execVmin h r s) from isLaneWord_intWord _ _,
    show IsLaneWord s h r _ _ (execVmax h r s) from isLaneWord_intWord _ _,
    show IsLaneWord s h r _ _ (execVabs h r s) from isLaneWord_intWord _ _,
    show IsLaneWord s h r _ _ (execVneg h r s) from isLaneWord_intWord _ _,
    show IsLaneWord s h r _ _ (execVand h r s) from isLaneWord_intWord _ _,
    show IsLaneWord s h r _ _ (execVor h r s) from isLaneWord_intWord _ _,
    show IsLaneWord s h r _ _ (execVxor h r s) from isLaneWord_intWord _ _,
    show IsLaneWord s h r _ _ (execVnot h r s) from isLaneWord_intWord _ _,
    show IsLaneWord s h r _ _ (execVshl h r s) from isLaneWord_intWord _ _,
    show IsLaneWord s h r _ _ (execVshr h r s) from isLaneWord_intWord _ _,
    show IsLaneWord s h r _ _ (execVsra h r s) from isLaneWord_intWord _ _,
    show IsLaneWord s h r _ _ (execVrot h r s) from isLaneWord_intWord _ _,
    show IsLaneWord s h r _ _ (execVbfe h r s) from isLaneWord_intWord _ _,
    show IsLaneWord s h r _ _ (execVbfi h r s) from isLaneWord_vecWord _ _ _,
    show IsLaneWord s h r _ _ (execVpopc h r s) from isLaneWord_intWord _ _,
    show IsLaneWord s h r _ _ (execVclz h r s) from isLaneWord_intWord _ _,
    show IsLaneWord s h r _ _ (execVbrev h r s) from isLaneWord_intWord _ _,
    show IsLaneWord s h r _ _ (execVcmp h r s) from isLaneWord_compareWord _ _,
    show IsLaneWord s h r _ _ (execVsel h r s) from isLaneWord_vecWord _ _ _,
    show IsLaneWord s h r _ _ (execVaddc h r s) from isLaneWord_laneWord _ _,
    show IsLaneWord s h r _ _ (execVdot4 h r s) from isLaneWord_vecWord _ _ _,
    show IsLaneWord s h r _ _ (execVidx h r s) from isLaneWord_vecWord _ _ _,
    show IsLaneWord s h r _ _ (execVfrcp h r s) from isLaneWord_transWord _ _,
    show IsLaneWord s h r _ _ (execVfrsq h r s) from isLaneWord_transWord _ _,
    show IsLaneWord s h r _ _ (execVfexp2 h r s) from isLaneWord_transWord _ _,
    show IsLaneWord s h r _ _ (execVflog2 h r s) from isLaneWord_transWord _ _,
    show IsLaneWord s h r _ _ (execVfsin h r s) from isLaneWord_transWord _ _,
    show IsLaneWord s h r _ _ (execVfcos h r s) from isLaneWord_transWord _ _,
    show IsLaneWord s h r _ _ (execVftanh h r s) from isLaneWord_transWord _ _,
    show IsLaneWord s h r _ _ (execVfdot2 h r s) from isLaneWord_vecWord _ _ _,
    show IsLaneWord s h r _ _ (execVpack8 h r s) from isLaneWord_vecWord _ _ _,
    show IsLaneWord s h r _ _ (execVunpk8 h r s) from isLaneWord_vecWord _ _ _,
    show IsLaneWord s h r _ _ (execVquant h r s) from isLaneWord_vecWord _ _ _,
    show IsLaneWord s h r _ _ (execVdeq h r s) from isLaneWord_vecWord _ _ _, List.forall_mem_nil _⟩

/-- R216, R224: the float words, whose F64 form issues alone. -/
theorem isLaneWord_exec_float (s : State) (h : Pfx) (r : FmtR) :
    ∀ i ∈ [Instr.vfadd h r, .vfsub h r, .vfmul h r, .vfma h r, .vfmin h r, .vfmax h r, .vfcmp h r, .vfclass h r, .vfrnd h r,
        .vfdiv h r, .vfsqrt h r, .vfscale h r], IsLaneWord s h r (isF64Ty r) i (exec i s) := by
  simp only [List.forall_mem_cons]
  exact ⟨show IsLaneWord s h r _ _ (execVfadd h r s) from isLaneWord_arithWord _ _,
    show IsLaneWord s h r _ _ (execVfsub h r s) from isLaneWord_arithWord _ _,
    show IsLaneWord s h r _ _ (execVfmul h r s) from isLaneWord_arithWord _ _,
    show IsLaneWord s h r _ _ (execVfma h r s) from isLaneWord_floatWord _ _ _,
    show IsLaneWord s h r _ _ (execVfmin h r s) from isLaneWord_floatWord _ _ _,
    show IsLaneWord s h r _ _ (execVfmax h r s) from isLaneWord_floatWord _ _ _,
    show IsLaneWord s h r _ _ (execVfcmp h r s) from isLaneWord_compareWord _ _,
    show IsLaneWord s h r _ _ (execVfclass h r s) from isLaneWord_vecWord _ _ _,
    show IsLaneWord s h r _ _ (execVfrnd h r s) from isLaneWord_floatWord _ _ _,
    show IsLaneWord s h r _ _ (execVfdiv h r s) from isLaneWord_arithWord _ _,
    show IsLaneWord s h r _ _ (execVfsqrt h r s) from isLaneWord_floatWord _ _ _,
    show IsLaneWord s h r _ _ (execVfscale h r s) from isLaneWord_vecWord _ _ _, List.forall_mem_nil _⟩

/-- R227: `VCVT`, whose F64 form has it on either side. -/
theorem isLaneWord_exec_vcvt (s : State) (h : Pfx) (r : FmtR) :
    IsLaneWord s h r (isF64Ty r || r.c.toNat % 32 == 0x0C) (.vcvt h r) (exec (.vcvt h r) s) := by
  rw [← cvtFrom_eq]
  exact show IsLaneWord s h r _ _ (execVcvt h r s) from isLaneWord_vecWord _ _ _

/-- Settles O24: every word that takes a relative operand computes lane by lane, and each of these checks its operands first. -/
theorem relativeTraps : Obligations.RelativeTraps := by
  intro s h r f64 i e hi hr
  have word : IsLaneWord s h r f64 i (exec i s) := by
    obtain ⟨hi, rfl⟩ | ⟨hi, rfl⟩ | ⟨rfl, rfl⟩ := hi
    · exact isLaneWord_exec s h r i hi
    · exact isLaneWord_exec_float s h r i hi
    · exact isLaneWord_exec_vcvt s h r
  obtain ⟨op, f, word⟩ := word
  rw [word]
  exact ⟨laneWord_bound hr r i op f, laneWord_overlap hr r i op f⟩

end Sys2Proof.Claims

/-! The producers of a clause, the frame of a word that issues and of the boundary, and the scheduler's pick (R34, R57, R63, R64, R180,
R342, R343). -/

namespace Sys2Proof.Claims

open Sys2Proof Sys2Proof.Machine

/-! ### The producer that a word reads (R180) -/

/-- A producer stays selected over a list of those that are ready before it. -/
theorem foldl_later_of_lt {p : Producer} {l : List Producer} (hl : ∀ x ∈ l, x.ready < p.ready) : l.foldl later (some p) = some p := by
  induction l with
  | nil => rfl
  | cons x l ih =>
    obtain ⟨hx, hl⟩ := List.forall_mem_cons.mp hl
    rw [List.foldl_cons, show later (some p) x = some p from if_neg (by omega), ih hl]

/-- What is selected of a list is of the list, or was selected before it. -/
theorem mem_of_foldl_later {o : Option Producer} {q : Producer} {l : List Producer} (h : l.foldl later o = some q) :
    q ∈ l ∨ o = some q := by
  induction l generalizing o with
  | nil => exact .inr h
  | cons x l ih =>
    rcases ih h with hq | hq
    · exact .inl (List.mem_cons_of_mem _ hq)
    · have first : q = x ∨ o = some q := by
        unfold later at hq
        split at hq
        · exact .inl (Option.some.inj hq).symm
        · split at hq
          · exact .inl (Option.some.inj hq).symm
          · exact .inr hq
      exact first.imp (by rintro rfl; exact List.mem_cons_self) id

/-- Behind producers that are ready no later, a producer is selected. -/
theorem foldl_later_append_cons {p : Producer} {l r : List Producer} (hl : ∀ x ∈ l, x.ready ≤ p.ready) (hr : ∀ x ∈ r, x.ready < p.ready) :
    (l ++ p :: r).foldl later none = some p := by
  rw [List.foldl_append, List.foldl_cons]
  have step : later (l.foldl later none) p = some p := by
    cases hb : l.foldl later none with
    | none => rfl
    | some b => exact if_pos ((mem_of_foldl_later hb).elim (hl b) nofun)
  rw [step, foldl_later_of_lt hr]

/-- Settles O56: the fold of the visible producers of a target keeps the one of the greatest ready cycle, the later of two such. -/
theorem producerVisibility : Obligations.ProducerVisibility := by
  intro g ps qs p c
  refine ⟨fun hp before after => ?_, fun t late => ?_, fun e => rfl⟩
  · have sel : selected (ps ++ p :: qs) p.tgt (fun p => decide (p.ready ≤ c)) = some p := by
      rw [selected, List.filter_append, List.filter_cons_of_pos (by simpa using hp)]
      apply foldl_later_append_cons <;> intro x hx <;>
        obtain ⟨hx, ht, hc⟩ := by simpa only [List.mem_filter, Bool.and_eq_true, beq_iff_eq, decide_eq_true_eq] using hx
      · exact before x hx ht hc
      · exact after x hx ht hc
    rw [readTarget, sel]
  · have none : selected ps t (fun p => decide (p.ready ≤ c)) = none := by
      have empty : ps.filter (fun p => p.tgt == t && decide (p.ready ≤ c)) = [] := by
        simp only [List.filter_eq_nil_iff, Bool.and_eq_true, beq_iff_eq, decide_eq_true_eq, not_and, not_le]
        exact late
      rw [selected, empty]
      rfl
    rw [readTarget, none]

/-! ### The frame of a word that issues (R343) -/

/-- R343 to R345: a charge touches credits and energy counters alone. -/
theorem charge_eq (s : State) (core q n : Nat) : ∃ credits penergy queues,
    charge s core q n = { s with hub := { s.hub with credits := credits, penergy := penergy, queues := queues } } := by
  unfold charge chargeQueue
  split_ifs
  · exact ⟨_, _, s.hub.queues, rfl⟩
  · exact ⟨_, _, _, rfl⟩

/-- The issuing agent behind the word: the word's producers are added to the clause, and the next word is at hand. -/
def issuedAgent (e : Env) (ps : List Producer) : Agent :=
  { e.ag with issue := some { e.iss with prods := e.iss.prods ++ ps, idx := e.iss.idx + 1, late := lateWith e.iss } }

/-- A word that issues changes its agent's issue, credits and energy counters, and the count of cycles. -/
theorem finish_eq (s : State) (e : Env) (cost : Nat) (ps : List Producer) : ∃ credits penergy queues cycles, finish s e cost ps = { s with
    agents := aset s.agents e.aid (issuedAgent e ps)
    hub := { s.hub with credits := credits, penergy := penergy, queues := queues }
    cycles := cycles } := by
  have shape : finish s e cost ps = (fun t : State =>
        { t with cycles := t.cycles + (e.iss.cur - (match e.ag.issue with | some i => i.cur | none => e.iss.cur)) })
      (if e.ag.kind == .hubThread then putAgent s e.aid (issuedAgent e ps)
        else charge (putAgent s e.aid (issuedAgent e ps)) e.ag.core (agentQueue s e.ag) cost) := rfl
  rw [shape]
  split_ifs
  · exact ⟨s.hub.credits, s.hub.penergy, s.hub.queues, _, rfl⟩
  · obtain ⟨credits, penergy, queues, hc⟩ := charge_eq (putAgent s e.aid (issuedAgent e ps)) e.ag.core (agentQueue s e.ag) cost
    rw [hc]
    exact ⟨credits, penergy, queues, _, rfl⟩

/-! ### The registers at the boundary (R63, R64, R180) -/

section
variable {w : Nat}

theorem aget_sdel_other (m : Sparse w) {k k' : Nat} (h : k' ≠ k) : aget (sdel m k) k' = aget m k' := by
  induction m with
  | nil => rfl
  | cons p m ih =>
    obtain ⟨j, b⟩ := p
    simp only [sdel, aget, beq_iff_eq]
    split_ifs with h1 h2 h3 <;> simp_all [aget]

/-- A word that is set leaves the words at other keys, in canonical form or not. -/
theorem sget_sset_other (m : Sparse w) {k k' : Nat} (v : BitVec w) (h : k' ≠ k) : sget (sset m k v) k' = sget m k' := by
  unfold sget sset
  split_ifs
  · rw [aget_sdel_other m h]
  · rw [aget_aset_other m v h]

end

theorem mem_insertReady {p x : Producer} {l : List Producer} : x ∈ insertReady p l ↔ x = p ∨ x ∈ l := by
  induction l with
  | nil => simp [insertReady]
  | cons q l ih =>
    unfold insertReady
    split_ifs
    · rw [List.mem_cons, List.mem_cons, ih]; tauto
    · rw [List.mem_cons]

theorem mem_byReady {x : Producer} {ps : List Producer} : x ∈ byReady ps ↔ x ∈ ps := by
  suffices ∀ l : List Producer, x ∈ ps.foldl (fun l p => insertReady p l) l ↔ x ∈ l ∨ x ∈ ps by simpa [byReady] using this []
  induction ps with
  | nil => simp
  | cons p ps ih => intro l; rw [List.foldl_cons, ih, mem_insertReady, List.mem_cons]; tauto

/-- What every producer's write keeps, their writes in turn keep. -/
theorem foldl_setTarget_induction {g : Regs} {ps : List Producer} {P : Regs → Prop} (start : P g)
    (step : ∀ p ∈ ps, ∀ r, P r → P (setTarget r p.tgt p.val)) : P (ps.foldl (fun g p => setTarget g p.tgt p.val) g) := by
  induction ps generalizing g with
  | nil => exact start
  | cons p ps ih =>
    obtain ⟨hp, hps⟩ := List.forall_mem_cons.mp step
    exact ih (hp g start) hps

/-- What every producer's write keeps, and a change of the flags too, the boundary keeps. -/
theorem commit_induction {g : Regs} {ps : List Producer} {P : Regs → Prop} (start : P g)
    (step : ∀ p ∈ ps, ∀ r, P r → P (setTarget r p.tgt p.val)) (flags : ∀ r f, P r → P { r with sflags := f }) : P (commit g ps) :=
  flags _ _ (foldl_setTarget_induction start fun p hp => step p (List.mem_of_mem_filter (mem_byReady.mp hp)))

/-- A write to a target other than a lane of a vector register leaves the lane. -/
theorem regV_setTarget {g : Regs} {t : Target} {v : DWord} {n l : Nat} (hl : l < 32) (ht : t ≠ .v n l) (hk : ∀ m k, t = .v m k → k < 32) :
    regV (setTarget g t v) n l = regV g n l := by
  cases t with
  | v m k =>
    have hk := hk m k rfl
    refine sget_sset_other _ _ fun same => ht ?_
    rw [show m = n by omega, show k = l by omega]
  | s m | k m lanes => simp only [setTarget]; split_ifs <;> rfl
  | zncv | eBit | qBit | priv | blk => rfl

theorem regS_setTarget {g : Regs} {t : Target} {v : DWord} {n : Nat} (ht : t ≠ .s n) : regS (setTarget g t v) n = regS g n := by
  cases t with
  | s m =>
    simp only [setTarget]
    split_ifs
    · rfl
    · have ne : n ≠ m := fun same => ht (by rw [same])
      simp only [regS, sget_sset_other g.s v ne]
  | k m lanes => simp only [setTarget]; split_ifs <;> rfl
  | v | zncv | eBit | qBit | priv | blk => rfl

theorem regK_setTarget {g : Regs} {t : Target} {v : DWord} {n : Nat} (ht : ∀ m, t ≠ .k n m) : regK (setTarget g t v) n = regK g n := by
  cases t with
  | k m lanes =>
    simp only [setTarget]
    split_ifs
    · rfl
    · have ne : n ≠ m := fun same => ht lanes (by rw [same])
      simp only [regK, sget_sset_other g.k _ ne]
  | s m => simp only [setTarget]; split_ifs <;> rfl
  | v | zncv | eBit | qBit | priv | blk => rfl

theorem sflags_setTarget {g : Regs} {t : Target} {v : DWord} (ht : t ≠ .zncv ∧ t ≠ .eBit ∧ t ≠ .qBit) :
    (setTarget g t v).sflags = g.sflags := by
  cases t with
  | zncv => exact absurd rfl ht.1
  | eBit => exact absurd rfl ht.2.1
  | qBit => exact absurd rfl ht.2.2
  | s m | k m lanes => simp only [setTarget]; split_ifs <;> rfl
  | v | priv | blk => rfl

theorem packFlags_flagsOf : ∀ f : BitVec 6, packFlags (flagsOf f) = f := by decide

theorem wf_v_setTarget {g : Regs} (t : Target) (v : DWord) (h : Sparse.wf g.v = true) : Sparse.wf (setTarget g t v).v = true := by
  cases t with
  | v => exact Sparse_wf_sset _ _ h
  | s m | k m lanes => simp only [setTarget]; split_ifs <;> exact h
  | zncv | eBit | qBit | priv | blk => exact h

theorem wf_s_setTarget {g : Regs} (t : Target) (v : DWord) (h : Sparse.wf g.s = true) : Sparse.wf (setTarget g t v).s = true := by
  cases t with
  | s m =>
    simp only [setTarget]
    split_ifs
    · exact h
    · exact Sparse_wf_sset _ _ h
  | k m lanes => simp only [setTarget]; split_ifs <;> exact h
  | v | zncv | eBit | qBit | priv | blk => exact h

theorem wf_k_setTarget {g : Regs} (t : Target) (v : DWord) (h : Sparse.wf g.k = true) : Sparse.wf (setTarget g t v).k = true := by
  cases t with
  | k m lanes =>
    simp only [setTarget]
    split_ifs
    · exact h
    · exact Sparse_wf_sset _ _ h
  | s m => simp only [setTarget]; split_ifs <;> exact h
  | v | zncv | eBit | qBit | priv | blk => exact h

theorem pcv_setTarget (g : Regs) (t : Target) (v : DWord) : (setTarget g t v).pcv = g.pcv := by
  cases t with
  | s m | k m lanes => simp only [setTarget]; split_ifs <;> rfl
  | v | zncv | eBit | qBit | priv | blk => rfl

/-- R66, R180, R200: flags without a producer keep their value. -/
theorem sflags_commit {g : Regs} {ps : List Producer} (h : ∀ p ∈ ps, p.tgt ≠ .zncv ∧ p.tgt ≠ .eBit ∧ p.tgt ≠ .qBit) :
    (commit g ps).sflags = g.sflags := by
  have noQ : ps.filter (fun p => p.tgt == .qBit) = [] := by
    simp only [List.filter_eq_nil_iff, beq_iff_eq]
    exact fun p hp => (h p hp).2.2
  have fold := foldl_setTarget_induction (g := g) (ps := byReady (ps.filter (fun p => p.tgt != .qBit)))
    (P := fun r => r.sflags = g.sflags) rfl
    fun p hp r hr => (sflags_setTarget (h p (List.mem_of_mem_filter (mem_byReady.mp hp)))).trans hr
  rw [commit, foldQ, noQ]
  simp only [fold]
  exact packFlags_flagsOf g.sflags

/-- Settles O57: a word that issues changes its agent's issue and counters; at the boundary each producer writes its own target alone. -/
theorem issueFrame : Obligations.IssueFrame := by
  intro s e cost ps g t
  obtain ⟨credits, penergy, queues, cycles, ht⟩ := finish_eq s e cost ps
  rw [show t = _ from ht]
  exact ⟨rfl, rfl, rfl, rfl, rfl, rfl, rfl, rfl, rfl, rfl, rfl, rfl, rfl, rfl, rfl, rfl, fun a ha => aget_aset_other _ _ ha,
    ⟨_, aget_aset_self _ _ _, rfl, rfl, rfl, rfl⟩,
    fun n l hl tgt lanes => commit_induction (P := fun r => regV r n l = regV g n l) rfl
      (fun p hp r hr => (regV_setTarget hl (tgt p hp) (lanes p hp)).trans hr) fun _ _ hr => hr,
    fun n tgt => commit_induction (P := fun r => regS r n = regS g n) rfl (fun p hp r hr => (regS_setTarget (tgt p hp)).trans hr) fun _ _ hr => hr,
    fun n tgt => commit_induction (P := fun r => regK r n = regK g n) rfl (fun p hp r hr => (regK_setTarget (tgt p hp)).trans hr) fun _ _ hr => hr,
    sflags_commit, rfl, rfl,
    fun h => commit_induction (P := fun r => Sparse.wf r.v = true) h (fun p _ _ => wf_v_setTarget p.tgt p.val) fun _ _ hr => hr,
    fun h => commit_induction (P := fun r => Sparse.wf r.s = true) h (fun p _ _ => wf_s_setTarget p.tgt p.val) fun _ _ hr => hr,
    fun h => commit_induction (P := fun r => Sparse.wf r.k = true) h (fun p _ _ => wf_k_setTarget p.tgt p.val) fun _ _ hr => hr,
    fun h => commit_induction (P := fun r => Sparse.wf r.pcv = true) h (fun p _ r hr => by rwa [pcv_setTarget]) fun _ _ hr => hr⟩

/-! ### The scheduler's pick (R57, R342) -/

/-- The fold that keeps the older of two, from an agent on: one that no other of the list is born before. -/
theorem oldest_fold (q : Nat × Agent) (l : List (Nat × Agent)) : ∃ p ∈ q :: l, (∀ x ∈ q :: l, p.2.age ≤ x.2.age) ∧
    l.foldl (fun best p => match best with
      | none => some p
      | some q => if p.2.age < q.2.age then some p else some q) (some q) = some p := by
  induction l generalizing q with
  | nil => exact ⟨q, List.mem_cons_self, by simp, rfl⟩
  | cons x l ih =>
    rw [List.foldl_cons]
    dsimp only
    split_ifs with younger
    · obtain ⟨p, hp, least, hf⟩ := ih x
      exact ⟨p, List.mem_cons_of_mem _ hp, List.forall_mem_cons.mpr ⟨(least x List.mem_cons_self).trans younger.le, least⟩, hf⟩
    · obtain ⟨p, hp, least, hf⟩ := ih q
      obtain ⟨hq, hl⟩ := List.forall_mem_cons.mp least
      refine ⟨p, ?_, ?_, hf⟩
      · simp only [List.mem_cons] at hp ⊢; tauto
      · exact List.forall_mem_cons.mpr ⟨hq, List.forall_mem_cons.mpr ⟨hq.trans (by omega), hl⟩⟩

/-- The oldest of a list that is not empty is of the list, and none of it is born before. -/
theorem oldest_of_ne_nil {l : List (Nat × Agent)} (h : l ≠ []) : ∃ p ∈ l, (∀ x ∈ l, p.2.age ≤ x.2.age) ∧ oldest l = some p := by
  cases l with
  | nil => exact absurd rfl h
  | cons q l => exact oldest_fold q l

theorem oldest_eq_none {l : List (Nat × Agent)} (h : oldest l = none) : l = [] := by
  by_contra hl
  obtain ⟨p, _, _, hp⟩ := oldest_of_ne_nil hl
  simp [hp] at h

theorem oldest_eq_some {l : List (Nat × Agent)} {p : Nat × Agent} (h : oldest l = some p) : p ∈ l ∧ ∀ x ∈ l, p.2.age ≤ x.2.age := by
  have hl : l ≠ [] := by rintro rfl; cases h
  obtain ⟨q, hq, least, hp⟩ := oldest_of_ne_nil hl
  obtain rfl := Option.some.inj (h.symm.trans hp)
  exact ⟨hq, least⟩

/-- The greatest of a list of numbers bounds them, and is one of them where they are not all below the start. -/
theorem foldl_max (l : List Nat) (z : Nat) : z ≤ l.foldl max z ∧ (∀ x ∈ l, x ≤ l.foldl max z)
    ∧ (l.foldl max z = z ∨ l.foldl max z ∈ l) := by
  induction l generalizing z with
  | nil => simp
  | cons x l ih =>
    obtain ⟨lo, all, some⟩ := ih (max z x)
    rw [List.foldl_cons]
    refine ⟨by omega, List.forall_mem_cons.mpr ⟨by omega, all⟩, ?_⟩
    rcases some with eq | mem
    · rcases le_total z x with h | h
      · exact .inr (by rw [eq, max_eq_right h]; exact List.mem_cons_self)
      · exact .inl (by rw [eq, max_eq_left h])
    · exact .inr (List.mem_cons_of_mem _ mem)

/-- The greatest value of a function on a list: nothing lies above it, and someone has it if the list is not empty. -/
theorem foldl_max_map {α : Type} (l : List α) (f : α → Nat) :
    (∀ x ∈ l, f x ≤ (l.map f).foldl max 0) ∧ (l ≠ [] → ∃ x ∈ l, f x = (l.map f).foldl max 0) := by
  obtain ⟨-, all, some⟩ := foldl_max (l.map f) 0
  refine ⟨fun x hx => all _ (List.mem_map_of_mem hx), fun hl => ?_⟩
  rcases some with eq | mem
  · obtain ⟨x, l', rfl⟩ := List.exists_cons_of_ne_nil hl
    have := all _ (List.mem_map_of_mem (List.mem_cons_self (a := x) (l := l')))
    exact ⟨x, List.mem_cons_self, by omega⟩
  · obtain ⟨x, hx, eq⟩ := List.mem_map.mp mem
    exact ⟨x, hx, eq⟩

/-- R342: among cohorts of one priority someone is chosen. -/
theorem chooseCohort_eq_none {c : List (Nat × Agent)} (h : chooseCohort c = none) : c = [] := by
  by_contra hc
  obtain ⟨x, hx, top⟩ := (foldl_max_map c (fun p => p.2.skip)).2 hc
  simp only [chooseCohort] at h
  split_ifs at h
  · have mem : x ∈ c.filter (fun p => p.2.skip == (c.map (fun p => p.2.skip)).foldl max 0) := List.mem_filter.mpr ⟨hx, beq_iff_eq.mpr top⟩
    rw [oldest_eq_none h] at mem
    cases mem
  · split at h
    · cases h
    · exact hc (oldest_eq_none h)

/-- R342: whom a pick among cohorts of one priority chooses: one of the greatest skip count once it has reached 16,
or the oldest that has not yielded. -/
theorem chooseCohort_eq_some {c : List (Nat × Agent)} {p : Nat × Agent} (h : chooseCohort c = some p) : p ∈ c
    ∧ ((∃ x ∈ c, 16 ≤ x.2.skip) → ∀ x ∈ c, x.2.skip ≤ p.2.skip)
    ∧ ((∀ x ∈ c, x.2.skip < 16) → (∃ x ∈ c, x.2.yielded = false) →
        p.2.yielded = false ∧ ∀ x ∈ c, x.2.yielded = false → p.2.age ≤ x.2.age) := by
  obtain ⟨bound, top⟩ := foldl_max_map c (fun p => p.2.skip)
  simp only [chooseCohort] at h
  split_ifs at h with starved
  · obtain ⟨hp, -⟩ := oldest_eq_some h
    obtain ⟨hp, skip⟩ := List.mem_filter.mp hp
    have skip := beq_iff_eq.mp skip
    exact ⟨hp, fun _ x hx => skip ▸ bound x hx, fun low => absurd (low p hp) (by omega)⟩
  · have low : ∀ x ∈ c, x.2.skip < 16 := fun x hx => by have := bound x hx; omega
    refine ⟨?_, fun ⟨x, hx, high⟩ => absurd (low x hx) (by omega), fun _ ⟨x, hx, awake⟩ => ?_⟩
    · split at h
      · next hq => cases h; exact List.mem_of_mem_filter (oldest_eq_some hq).1
      · exact (oldest_eq_some h).1
    · have mem {x : Nat × Agent} (hx : x ∈ c) (awake : x.2.yielded = false) : x ∈ c.filter (fun p => !p.2.yielded) :=
        List.mem_filter.mpr ⟨hx, by simp [awake]⟩
      split at h
      · next hq =>
        cases h
        obtain ⟨hp, least⟩ := oldest_eq_some hq
        exact ⟨by simpa using (List.mem_filter.mp hp).2, fun x hx awake => least x (mem hx awake)⟩
      · next hq => exact absurd (mem hx awake) (by simp [oldest_eq_none hq])

/-- Settles O59: the oldest ladle, or else the choice among the cohorts of the highest priority. -/
theorem pickLaw : Obligations.PickLaw := by
  intro l
  obtain ⟨bound, top⟩ := foldl_max_map l (fun p => p.2.prio)
  refine ⟨fun hl => ?_, fun a c h => ?_⟩
  · cases hc : choose l with
    | some => rfl
    | none =>
      unfold choose at hc
      split at hc
      · cases hc
      · obtain ⟨x, hx, prio⟩ := top hl
        have mem : x ∈ l.filter (fun p => p.2.prio == (l.map (fun p => p.2.prio)).foldl max 0) := List.mem_filter.mpr ⟨hx,
          beq_iff_eq.mpr prio⟩
        rw [chooseCohort_eq_none (Option.map_eq_none_iff.mp hc)] at mem
        cases mem
  · unfold choose at h
    split at h
    · next p hp =>
      cases h
      obtain ⟨hp, least⟩ := oldest_eq_some hp
      obtain ⟨hp, ladle⟩ := List.mem_filter.mp hp
      have ladle := beq_iff_eq.mp ladle
      exact ⟨p.2, hp, fun _ => ⟨ladle, rfl, fun x hx hk => least x (List.mem_filter.mpr ⟨hx, beq_iff_eq.mpr hk⟩)⟩,
        fun no => absurd ladle (no p hp)⟩
    · next hnone =>
      obtain ⟨p, hp, eq⟩ := Option.map_eq_some_iff.mp h
      cases eq
      obtain ⟨mem, starved, fresh⟩ := chooseCohort_eq_some hp
      obtain ⟨hp, prio⟩ := List.mem_filter.mp mem
      have prio := beq_iff_eq.mp prio
      refine ⟨p.2, hp, fun ⟨x, hx, ladle⟩ => ?_, fun _ => ⟨fun x hx => prio ▸ bound x hx, by rw [prio], starved, fresh⟩⟩
      have mem : x ∈ l.filter (fun p => p.2.kind == .ladle) := List.mem_filter.mpr ⟨hx, beq_iff_eq.mpr ladle⟩
      rw [oldest_eq_none hnone] at mem
      cases mem

end Sys2Proof.Claims

/-! A step, the checks of a clause's words, and trap records (R54, R157, R161, R175, R177, R369 to R371). -/

namespace Sys2Proof.Claims

open Sys2Proof Sys2Proof.Machine

/-! ### One step (R34, R141, R158, R183, R266, R323) -/

/-- An event at the head of the agenda is taken first. -/
theorem step_event {s : State} {i : Instr} {rest : List Instr} (h : s.agenda = i :: rest) : step s = exec i { s with agenda := rest } :=
    by
  simp only [step, h]

/-- With no event at hand the agent whose turn it is goes on with its clause. -/
theorem step_agent {s : State} {a : Nat} (hq : s.agenda = []) (ht : s.turn = .agent a) :
    step s = match nextWord s a with | .run i => runWord s a i | .done t => .next t := by
  simp only [step, hq, ht] <;> rfl

/-- With no event at hand the hart whose turn it is goes on. -/
theorem step_hart {s : State} {h : Nat} (hq : s.agenda = []) (ht : s.turn = .hart h) :
    step s = match nextHost s h with | .run i t => runHost i t | .done t => .next (endHart t) := by
  simp only [step, hq, ht] <;> rfl

/-- The word at hand, once its registers have been checked. -/
theorem nextWord_eq {s : State} {a : Nat} {ag : Agent} {iss : Issue} (ha : aget s.agents a = some ag) (hi : ag.issue = some iss)
    {w : DWord} {i : Instr} (hw : iss.words[iss.idx]? = some w) (hd : decodeWord w = .ok i) :
    nextWord s a = match readChecked s a ag iss w i with | some s1 => .done s1 | none => .run i := by
  simp only [nextWord, ha, hi, hw, hd] <;> rfl

/-- Where the words are used up, the boundary is at hand. -/
theorem nextWord_boundary {s : State} {a : Nat} {ag : Agent} {iss : Issue} (ha : aget s.agents a = some ag) (hi : ag.issue = some iss)
    (hw : iss.words[iss.idx]? = none) : nextWord s a = .done (boundary s a ag iss) := by
  simp only [nextWord, ha, hi, hw]

/-- R266, R318: a hart without an interrupt runs the 32-bit word that it fetches. -/
theorem nextHost_eq {s s1 : State} {h n : Nat} {i : Instr} (hrun : (hartOf s h).run = .running) (hint : dueIntr (hartOf s h) = none)
    (hpc : (hartOf s h).pc.toNat % 4 = 0) (hf : hartFetch s h (hartOf s h).pc.toNat 4 = .ok (n, s1)) (hn : n % 4 = 3)
    (hd : decodeHost (BitVec.ofNat 32 n) = .ok i) : nextHost s h = .run i s1 := by
  have even : (hartOf s h).pc.toNat % 2 = 0 := by omega
  simp [nextHost, hrun, hint, hpc, even, hf, hn, runWord32, hd]

/-- Settles O4: each kind of step, by what is at hand. -/
theorem stepRuns : Obligations.StepRuns := by
  intro s a ag iss h
  refine ⟨fun i rest hq => step_event hq, fun hq ht ha hi => ⟨fun w i hw hd => ?_, fun hw => ?_⟩, fun i s1 t hq ht hn he => ?_,
    fun s1 hq ht hn => ?_, fun n s1 i hrun hint hpc hf hn hd => nextHost_eq hrun hint hpc hf hn hd⟩
  · refine ⟨fun t hr he => ?_, fun t hr => ?_, fun clean => ⟨?_, fun t => ?_⟩⟩
    · rw [step_agent hq ht, nextWord_eq ha hi hw hd, hr]
      simp only [runWord, he]
    · rw [step_agent hq ht, nextWord_eq ha hi hw hd, hr]
    · rw [readChecked, clean]; rfl
    · rw [afterWord, clean]; rfl
  · rw [step_agent hq ht, nextWord_boundary ha hi hw]
  · rw [step_hart hq ht, hn]
    simp only [runHost, he, endHart]
  · rw [step_hart hq ht, hn]
    rfl

/-! ### The checks of a word (R175) -/

/-- R312: no privileged register may be read or written at level U. -/
theorem privLevels_ne_u (n : Nat) : (privLevels n).1.getD .f ≠ .u ∧ (privLevels n).2.getD .f ≠ .u := by
  unfold privLevels
  split <;> decide

/-- R312, R315, R317, R322: what level U may execute is no system instruction. -/
theorem isSystem_of_minLevel {i : Instr} (h : minLevel i = .u) : isSystem (opcodeOf i) = false := by
  unfold minLevel at h
  split at h
  any_goals cases h
  · exact absurd h (privLevels_ne_u _).1
  · exact absurd h (privLevels_ne_u _).2
  · split_ifs at h with system
    exact Bool.eq_false_iff.mpr system

/-- R161: a system instruction, or any word of a clause of the system class, is above level U. -/
theorem privilegeBad_of_system {ag : Agent} (hu : ag.level = .u) {cls : Nat} {i : Instr} (h : cls = 5 ∨ isSystem (opcodeOf i) = true) :
    privilegeBad ag cls i = true := by
  rcases h with hc | hs
  · simp [privilegeBad, hu, hc]
  · have above : levelGe .u (minLevel i) = false := by
      cases hm : minLevel i with
      | u => rw [isSystem_of_minLevel hm] at hs; cases hs
      | s | h | f => rfl
    simp [privilegeBad, hu, above]

/-- Settles O60: the checks are made in this order, and the first that fails answers. -/
theorem wordChecks : Obligations.WordChecks := by
  intro s ag h last w
  refine ⟨fun hm hu hc => ?_, fun hm hn => ?_, fun x hm hd => wordCheck_of_decodeWord_error hm hd s ag h last, fun i hd => ?_⟩
  · simp [wordCheck, hm, hu, hc]
  · have notSystem : (ag.level == .u && h.cls.toNat == 5) = false := by
      rcases hn with hn | hn
      · simp [hn]
      · have : h.cls.toNat ≠ 5 := fun k => hn (BitVec.eq_of_toNat_eq k)
        simp [this]
    simp only [wordCheck, hm, notSystem]
    rfl
  · have hm : ¬ (opOf w).toNat = 0x3FF := by
      intro k
      rw [decodeWord, show opOf w = 0x3FF from BitVec.eq_of_toNat_eq k] at hd
      cases hd
    have cls : h.cls = 5 → h.cls.toNat = 5 := fun k => by rw [k]; rfl
    refine ⟨fun hi => ?_, fun hi hu hs => ?_, fun hi hp hk hf => ?_, fun ok hu => ?_⟩
    · simp [wordCheck, hm, hd, hi]
    · simp [wordCheck, hm, hd, hi, privilegeBad_of_system hu (hs.imp cls id)]
    · simp [wordCheck, hm, hd, hi, hp, hk, hf]
    · by_contra system
      have bad := privilegeBad_of_system (cls := h.cls.toNat) hu (.inr (Bool.not_eq_false _ ▸ system))
      have some : wordCheck s ag h last w = if illegalFor ag i then some .illegal else some .privilege := by simp [wordCheck, hm, hd, bad]
      rw [some] at ok
      split_ifs at ok

/-! ### The fields of a record (R371) -/

/-- Each field of a record stands below the ones before it in the list, and the first below `top`. -/
def fitsBelow (top : Nat) : List (Nat × Nat × Nat) → Bool
  | [] => true
  | (lo, n, _) :: t => decide (lo + n ≤ top) && fitsBelow lo t

/-- The value of a list of fields. -/
def fieldSum (fs : List (Nat × Nat × Nat)) : Nat := (fs.map (fun f => f.2.2 % 2 ^ f.2.1 * 2 ^ f.1)).sum

theorem foldl_fields (fs : List (Nat × Nat × Nat)) (z : Nat) :
    fs.foldl (fun acc f => acc + f.2.2 % 2 ^ f.2.1 * 2 ^ f.1) z = z + fieldSum fs := by
  induction fs generalizing z with
  | nil => rfl
  | cons f fs ih => rw [List.foldl_cons, ih, fieldSum, fieldSum, List.map_cons, List.sum_cons, add_assoc]

theorem fieldSum_lt {top : Nat} {fs : List (Nat × Nat × Nat)} (h : fitsBelow top fs = true) : fieldSum fs < 2 ^ top := by
  induction fs generalizing top with
  | nil => exact Nat.two_pow_pos top
  | cons f fs ih =>
    obtain ⟨lo, n, v⟩ := f
    simp only [fitsBelow, Bool.and_eq_true, decide_eq_true_eq] at h
    obtain ⟨room, rest⟩ := h
    have rest := ih rest
    have value : v % 2 ^ n < 2 ^ n := Nat.mod_lt _ (Nat.two_pow_pos n)
    calc fieldSum ((lo, n, v) :: fs) = v % 2 ^ n * 2 ^ lo + fieldSum fs := by rw [fieldSum, fieldSum, List.map_cons, List.sum_cons]
      _ < (v % 2 ^ n + 1) * 2 ^ lo := by rw [Nat.add_mul, Nat.one_mul]; omega
      _ ≤ 2 ^ n * 2 ^ lo := Nat.mul_le_mul_right _ value
      _ = 2 ^ (lo + n) := by rw [Nat.pow_add, Nat.mul_comm]
      _ ≤ 2 ^ top := Nat.pow_le_pow_right (by decide) room

/-- A field of a list stands below its top. -/
theorem field_le_of_fitsBelow {top : Nat} {fs : List (Nat × Nat × Nat)} (h : fitsBelow top fs = true) {f : Nat × Nat × Nat} (hf :
    f ∈ fs) :
    f.1 + f.2.1 ≤ top := by
  induction fs generalizing top with
  | nil => cases hf
  | cons g fs ih =>
    obtain ⟨lo, n, v⟩ := g
    simp only [fitsBelow, Bool.and_eq_true, decide_eq_true_eq] at h
    rcases List.mem_cons.mp hf with rfl | hf
    · exact h.1
    · have := ih h.2 hf
      omega

/-- A field of a list of fields reads back. -/
theorem field_fieldSum {top : Nat} {fs : List (Nat × Nat × Nat)} (h : fitsBelow top fs = true) {lo n v : Nat} (hf : (lo, n, v) ∈ fs) :
    fieldSum fs / 2 ^ lo % 2 ^ n = v % 2 ^ n := by
  induction fs generalizing top with
  | nil => cases hf
  | cons g fs ih =>
    obtain ⟨lo', n', v'⟩ := g
    simp only [fitsBelow, Bool.and_eq_true, decide_eq_true_eq] at h
    rw [fieldSum, List.map_cons, List.sum_cons, ← fieldSum]
    rcases List.mem_cons.mp hf with same | hf
    · cases same
      rw [Nat.mul_comm, Nat.mul_add_div (Nat.two_pow_pos lo), Nat.div_eq_of_lt (fieldSum_lt h.2), Nat.add_zero, Nat.mod_mod]
    · have room := field_le_of_fitsBelow h.2 hf
      obtain ⟨k, hk⟩ := Nat.exists_eq_add_of_le room
      have part : v' % 2 ^ n' * 2 ^ lo' = 2 ^ lo * (2 ^ n * (v' % 2 ^ n' * 2 ^ k)) := by rw [hk]; ring
      rw [part, Nat.mul_add_div (Nat.two_pow_pos lo), Nat.mul_add_mod, ih h.2 hf]

/-- A field of a record reads back. -/
theorem field_mkRec {fs : List (Nat × Nat × Nat)} (h : fitsBelow 512 fs = true) {lo n v : Nat} (hf : (lo, n, v) ∈ fs) :
    (mkRec fs).toNat / 2 ^ lo % 2 ^ n = v % 2 ^ n := by
  rw [mkRec, foldl_fields, Nat.zero_add, BitVec.toNat_ofNat, Nat.mod_eq_of_lt (fieldSum_lt h), field_fieldSum h hf]

/-- R371: the fields of a trap record, its reserved runs written out. -/
def trapFields (s : State) (ag : Agent) (id : Nat) (t : TrapReq) : List (Nat × Nat × Nat) :=
  let c := ctxOf s ag.ctx
  let hub := ag.kind == .hubThread
  [(448, 64, if hub then 0 else linearOf s ag), (416, 32, t.group.toNat), (384, 32, t.burst), (376, 8, 0), (320, 56, t.hdr.toNat),
    (288, 32, t.lanes.toNat), (280, 8, slotOf ag), (272, 8, if hub then 0xFF else ag.core), (262, 10, 0), (256, 6, agentQueue s ag),
    (224, 32, 0), (192, 32, id), (164, 28, 0), (160, 4, t.esrc), (154, 6, 0), (144, 10, t.op), (128, 16, t.info), (120, 8, 0),
    (64, 56, t.addr), (56, 8, 0), (40, 16, c.asid.toNat), (32, 8, c.vmid.toNat), (20, 12, ag.ctx), (18, 2, levelNum ag.level),
    (16, 2, t.kind), (12, 4, t.word), (11, 1, if t.cmd.isSome || t.eng then 1 else 0), (10, 1, if ag.kind == .ladle then 1 else 0),
    (8, 2, 0), (0, 8, t.code.num)]

/-- R371: the places of the reserved runs. -/
def reservedAt : List Nat := [376, 262, 224, 164, 154, 120, 56, 8]

/-- Fields of zero add nothing to a record. -/
theorem fieldSum_filter {fs : List (Nat × Nat × Nat)} {keep : Nat × Nat × Nat → Bool} (h : ∀ f ∈ fs, keep f = false → f.2.2 = 0) :
    fieldSum (fs.filter keep) = fieldSum fs := by
  induction fs with
  | nil => rfl
  | cons f fs ih =>
    obtain ⟨hf, hfs⟩ := List.forall_mem_cons.mp h
    have rest := ih hfs
    unfold fieldSum at rest ⊢
    cases hk : keep f with
    | true => rw [List.filter_cons_of_pos hk, List.map_cons, List.sum_cons, rest, List.map_cons, List.sum_cons]
    | false => rw [List.filter_cons_of_neg (by simp [hk]), rest, List.map_cons, List.sum_cons, hf hk, Nat.zero_mod, Nat.zero_mul,
    Nat.zero_add]

theorem mkRec_trapFields (s : State) (ag : Agent) (id : Nat) (t : TrapReq) : mkRec (trapFields s ag id t) = trapRecord s ag id t := by
  have shown : trapRecord s ag id t = mkRec ((trapFields s ag id t).filter (fun f => !reservedAt.contains f.1)) := rfl
  rw [shown, mkRec, mkRec, foldl_fields, foldl_fields, fieldSum_filter]
  simp [trapFields, reservedAt]

/-- A field of a trap record reads back. -/
theorem field_trapRecord {s : State} {ag : Agent} {id : Nat} {t : TrapReq} {lo n v : Nat} (hf : (lo, n, v) ∈ trapFields s ag id t) :
    (trapRecord s ag id t).toNat / 2 ^ lo % 2 ^ n = v % 2 ^ n := by
  rw [← mkRec_trapFields]
  exact field_mkRec rfl hf

/-- R371: what is noted of a trap that an agent takes. -/
def requestInfo (ag : Agent) (a id : Nat) (t : TrapReq) : TrapInfo :=
  { id := id, ctx := ag.ctx, agent := a, level := ag.level, code := BitVec.ofNat 8 t.code.num, kind := t.kind, word := t.word,
    hdr := t.hdr, group := t.group, count := t.count, op := t.op, cmd := t.cmd, fetch := t.fetch }

/-- The state in which the record of a trap is posted: the agent is stopped by it, and it is noted. -/
def trapped (s : State) (ag : Agent) (a : Nat) (t : TrapReq) : State :=
  let s1 := putAgent (recordId s).2 a { ag with traps := ag.traps ++ [(recordId s).1] }
  { s1 with hub := { s1.hub with traps := s1.hub.traps ++ [requestInfo ag a (recordId s).1 t] } }

/-- R440: a switch of firmware is not ended by the trap of an agent that is no hub thread. -/
theorem postTrap_eq {s : State} {a : Nat} {ag : Agent} (ha : aget s.agents a = some ag) (hk : ag.kind ≠ .hubThread) (t : TrapReq) :
    postTrap s a t = ((recordId s).1,
      postRecord (trapped s ag a t) (trapQueueOf ag) (trapRecord s ag (recordId s).1 t) none) := by
  have noSwitch (s : State) : fwTrap s ag = s := by simp [fwTrap, hk]
  rw [postTrap, ha]
  simp only [noSwitch]
  rfl

/-- Settles O58: a record is the sum of its fields, which do not overlap; a posted trap adds its entry to the list and to its agent. -/
theorem trapEntry : Obligations.TrapEntry := by
  intro s e ag id t r f ends
  have field (k : Nat) {lo n v : Nat} (hf : (trapFields s ag id t)[k]? = some (lo, n, v)) : f lo n = v % 2 ^ n :=
    field_trapRecord (List.mem_of_getElem? hf)
  have word (k : Nat) {lo n : Nat} {x : BitVec n} (hf : (trapFields s ag id t)[k]? = some (lo, n, x.toNat)) : f lo n = x.toNat :=
    (field k hf).trans (Nat.mod_eq_of_lt x.isLt)
  have bit (k : Nat) {lo : Nat} {b : Bool} (hf : (trapFields s ag id t)[k]? = some (lo, 1, if b then 1 else 0)) :
      f lo 1 = if b then 1 else 0 := (field k hf).trans (by cases b <;> rfl)
  have reserved (k : Nat) {lo n : Nat} (hf : (trapFields s ag id t)[k]? = some (lo, n, 0)) : f lo n = 0 :=
    (field k hf).trans (Nat.zero_mod _)
  have level : f 18 2 = levelNum ag.level := (field 23 rfl).trans (by cases ag.level <;> rfl)
  have core : f 272 8 = if ag.kind == .hubThread then 0xFF else ag.core % 2 ^ 8 := (field 7 rfl).trans (by split_ifs <;> rfl)
  have linear : f 448 64 = if ag.kind == .hubThread then 0 else linearOf s ag % 2 ^ 64 := (field 0 rfl).trans (by split_ifs <;> rfl)
  refine ⟨?_, field 29 rfl, bit 27 rfl, bit 26 rfl, field 25 rfl, field 24 rfl, level, field 22 rfl, word 21 rfl, word 20 rfl,
    field 18 rfl, field 16 rfl, field 15 rfl, field 13 rfl, field 11 rfl, core, word 5 rfl, field 4 rfl, field 9 rfl, field 6 rfl,
    field 2 rfl, word 1 rfl, linear, fun a ha hk => ?_, rfl⟩
  · simp only [List.forall_mem_cons]
    exact ⟨reserved 28 rfl, reserved 19 rfl, reserved 17 rfl, reserved 14 rfl, reserved 12 rfl, reserved 10 rfl, reserved 8 rfl,
      reserved 3 rfl, nofun⟩
  · rw [postTrap_eq ha hk]
    exact ⟨rfl, requestInfo ag a (recordId s).1 t, trapped s ag a t, rfl, rfl, rfl, rfl, rfl, rfl, aget_aset_self _ _ _,
      fun b hb => aget_aset_other _ _ hb, rfl⟩

end Sys2Proof.Claims

/-! The words of variable latency at issue (R65, R169, R173, R237 to R265, R269 to R293, R312 to R323). -/

namespace Sys2Proof.Claims

open Sys2Proof Sys2Proof.Machine

/-! ### The checks of lanes (R239) -/

theorem laneTrap_nil (s : State) (e : Env) (i : Instr) : laneTrap s e i [] = none := rfl

/-- Where every lane's address keeps the checks, nothing traps. -/
theorem laneTrap_laneAddrs {s : State} {e : Env} {i : Instr} {r : FmtM}
    (h : ∀ l ∈ lanesOf e.pass, checkAddr s e.ag.block i (effAddr e r l).toNat = none) : laneTrap s e i (laneAddrs e r) = none := by
  have bad : (laneAddrs e r).filterMap (fun p => (checkAddr s e.ag.block i p.2).map (fun c => (p, c))) = [] := by
    rw [List.filterMap_eq_nil_iff]
    intro p hp
    obtain ⟨l, hl, rfl⟩ := List.mem_map.mp hp
    simp [h l hl]
  simp only [laneTrap, bad]

/-! ### An operation that starts (R65) -/

theorem agents_finish (s : State) (e : Env) (cost : Nat) (ps : List Producer) :
    (finish s e cost ps).agents = aset s.agents e.aid (issuedAgent e ps) := by
  obtain ⟨_, _, _, _, h⟩ := finish_eq s e cost ps
  rw [h]

theorem nextId_finish (s : State) (e : Env) (cost : Nat) (ps : List Producer) : (finish s e cost ps).nextId = s.nextId := by
  obtain ⟨_, _, _, _, h⟩ := finish_eq s e cost ps
  rw [h]

/-- R65: a flag that rises is counted at its agent; 15 names none. -/
theorem aget_agents_flagUp {s : State} {a : Nat} {ag : Agent} (h : aget s.agents a = some ag) (f : Nat) :
    aget (flagUp s a f).agents a = some (if f == 15 then ag else { ag with flags := aset ag.flags f (flagCount ag f + 1) }) := by
  unfold flagUp modAgent
  split_ifs
  · exact h
  · simp only [h, putAgent_agents, aget_aset_self]

/-- R65: an operation that starts raises the flag that it names, in the agent that its word leaves. -/
theorem aget_agents_startOp (s : State) (e : Env) (mk : Nat → Op) : aget (startOp s e mk).2.agents e.aid =
    some (if (mk s.nextId).flag == 15 then issuedAgent e []
      else { issuedAgent e [] with flags := aset e.ag.flags (mk s.nextId).flag (flagCount e.ag (mk s.nextId).flag + 1) }) := by
  simp only [startOp, freshId, nextId_finish]
  exact aget_agents_flagUp (by rw [agents_finish, aget_aset_self]) _

/-- R65: where the flag's count was not full, no count passes 15 when the operation starts. -/
theorem flagCount_startOp_le {s : State} {e : Env} {mk : Nat → Op} (room : flagFull e.ag (mk s.nextId).flag = false) {f : Nat}
    (le : flagCount e.ag f ≤ 15) {ag : Agent} (h : aget (startOp s e mk).2.agents e.aid = some ag) : flagCount ag f ≤ 15 := by
  rw [aget_agents_startOp, Option.some.injEq] at h
  split_ifs at h with named
  · exact h ▸ le
  · have below : (mk s.nextId).flag ≠ 15 → flagCount e.ag (mk s.nextId).flag < 15 := by simpa [flagFull] using room
    have below := below (by simpa using named)
    rw [← h, flagCount, agetD, aget_aset]
    split_ifs
    · exact below
    · exact le

/-! ### Loads, stores and atomics -/

theorem memWord_running {s : State} {h : Pfx} {e : Env} (hr : Running s h false e) {i : Instr} (hp : e.pass ≠ 0#32)
    (hf : flagFull e.ag (memFmt i).flag.toNat = false) (hw : walksFull s (dieOf e.ag.core) = false)
    (hc : ∀ l ∈ lanesOf e.pass, checkAddr s e.ag.block i (effAddr e (memFmt i) l).toNat = none) :
    memWord s h i = .next (startOp s e (opOf_ e i
      ((lanesOf e.pass).map (fun l => partOfLane l (effAddr e (memFmt i) l) (startState (effAddr e (memFmt i) l))))
      ((lanesOf e.pass).map (fun l => (l, dataOf e (memFmt i).d.toNat l (mtRegs (memFmt i).mtype))))
      ((lanesOf e.pass).map (fun l => (l, dataOf e (memFmt i).c.toNat l (mtRegs (memFmt i).mtype)))) [])).2 :=
  varWord_running hr i _ _ hp hf hw (laneTrap_laneAddrs hc)

/-- Settles O25: each word is a word of one part a lane, and its flag rises by one. -/
theorem memoryWordsIssue : Obligations.MemoryWordsIssue := by
  intro s h r i e hi hr hp hf hw hc k parts vals cmps t
  have word : exec i s = memWord s h i ∧ memFmt i = r := by
    simp only [List.mem_cons, List.not_mem_nil, or_false] at hi
    rcases hi with rfl | rfl | rfl | rfl | rfl | rfl | rfl | rfl | rfl | rfl <;> exact ⟨rfl, rfl⟩
  obtain ⟨word, fmt⟩ := word
  subst fmt
  exact ⟨word.trans (memWord_running hr hp hf hw hc), fun f le ag' h => flagCount_startOp_le hf le h⟩

/-! ### The checks of an address (R169, R173, R239, R242) -/

section
variable {s : State} {b a : Nat} {i : Instr}

theorem checkAddr_of_wide (h : 2 ^ 56 ≤ a) : checkAddr s b i a = some (1, .accessViolation) := by
  rw [checkAddr, if_pos h]

theorem checkAddr_of_window {c : TrapCode} (h : a < 2 ^ 56) (hd : decodeOnly i = false) (hw :
    windowCheck s b a (accBytes (memFmt i)) = some c) :
    checkAddr s b i a = some (2, c) := by
  simp only [checkAddr, if_neg (show ¬ 2 ^ 56 ≤ a by omega), hd, hw]
  rfl

theorem checkAddr_eq (h : a < 2 ^ 56) (hd : decodeOnly i = false) (hw : windowCheck s b a (accBytes (memFmt i)) = none) :
    checkAddr s b i a = if restricted i a then some (3, .accessViolation)
      else if a % alignOf (memFmt i).mtype != 0 then some (4, .misaligned) else none := by
  simp only [checkAddr, if_neg (show ¬ 2 ^ 56 ≤ a by omega), hd, hw]
  rfl

end

theorem alignOf_eq (t : BitVec 4) : alignOf t = if t = 0xE ∨ t = 0xF then 4 else mtBytes t := by
  simp [alignOf]

/-- R242: `LDS` is restricted to the local window. -/
theorem restricted_lds (h : Pfx) (r : FmtM) (a : Nat) : restricted (.lds h r) a = true ↔ ∀ o, decodeAddr a ≠ .spm o := by
  simp only [restricted]
  split <;> simp_all

/-- R242: `STS` is restricted to the local window. -/
theorem restricted_sts (h : Pfx) (r : FmtM) (a : Nat) : restricted (.sts h r) a = true ↔ ∀ o, decodeAddr a ≠ .spm o :=
  restricted_lds h r a

/-- Settles O26: the checks are made in this order. -/
theorem addressChecks : Obligations.AddressChecks := by
  intro s h r i b a unit hi
  have shape : decodeOnly i = false ∧ memFmt i = r := by
    simp only [List.mem_cons, List.not_mem_nil, or_false] at hi
    rcases hi with rfl | rfl | rfl | rfl | rfl | rfl | rfl | rfl | rfl <;> exact ⟨rfl, rfl⟩
  have window : restricted i a = true ↔ (i = .lds h r ∨ i = .sts h r) ∧ ∀ o, decodeAddr a ≠ .spm o := by
    simp only [List.mem_cons, List.not_mem_nil, or_false] at hi
    rcases hi with rfl | rfl | rfl | rfl | rfl | rfl | rfl | rfl | rfl
    case inr.inr.inl => simp [restricted_lds]
    case inr.inr.inr.inl => simp [restricted_sts]
    all_goals simp [restricted]
  obtain ⟨hd, fmt⟩ := shape
  subst fmt
  refine ⟨checkAddr_of_wide, fun c ha hw => checkAddr_of_window ha hd hw, fun ha hw => ?_⟩
  rw [checkAddr_eq ha hd hw, alignOf_eq]
  refine ⟨fun hl ho => if_pos (window.mpr ⟨hl, ho⟩), fun hn => ?_⟩
  have free : ¬ restricted i a = true := by
    rw [window]
    rintro ⟨hl, ho⟩
    rcases hn with ⟨h1, h2⟩ | ⟨o, h1⟩
    · exact hl.elim h1 h2
    · exact ho o h1
  rw [if_neg free]
  exact ⟨fun hu => by rw [if_pos (bne_iff_ne.mpr hu)], fun hu => by rw [if_neg (bne_iff_ne.not.mpr (not_not.mpr hu))]⟩

/-! ### Fences, prefetches and waits (R244, R249, R258) -/

theorem wordCredits_memory (n : Nat) : wordCredits 0x1C0 false n = 4 + n := rfl

/-- Settles O28: `FENCE` and `PFH` are words of variable latency; `FWAIT` looks at the counts alone. -/
theorem fenceAndWait : Obligations.FenceAndWait := by
  intro s h r e hr hp hw n
  refine ⟨fun hf => show execFence h r s = _ from varWord_running hr _ _ _ hp hf hw rfl, fun hf hc => ⟨fun held => ?_, fun held => ?_⟩,
    fun hz => ?_, fun ⟨f, hf, hn⟩ => ?_⟩
  · show execPfh h r s = _
    rw [execPfh, varWord_running hr _ _ _ hp rfl hw (laneTrap_laneAddrs hc), held]
    rfl
  · show execPfh h r s = _
    rw [execPfh, varWord_running hr _ _ _ hp rfl hw (laneTrap_laneAddrs hc), held]
    rfl
  · show execFwait h r s = _
    rw [execFwait, onIssue_running hr, if_neg (by simpa [hp] using hz)]
    rfl
  · show execFwait h r s = _
    rw [execFwait, onIssue_running hr, if_pos (by simpa [hp] using ⟨f, hf, hn⟩)]

/-! ### Barriers (R130, R249, R252, R254, R255) -/

theorem barWord_running {s : State} {h : Pfx} {e : Env} (hr : Running s h false e) (i : Instr) (sleep : Bool) (hp : e.pass ≠ 0#32)
    (hf : flagFull e.ag (memFmt i).flag.toNat = false) (hw : walksFull s (dieOf e.ag.core) = false) :
    let r := memFmt i
    let lanes := lanesOf e.pass
    let o := startOp (barNote s e r (rdK e r.c.toNat) (!sleep)) e
      (opOf_ e i (lanes.map (fun l => partOfLane l 0 .home)) [] [] [(rdK e r.c.toNat).setWidth 64, phaseNow s e r])
    barWord s h i sleep = .next (settle (homeAll (if sleep then
      modAgent o.2 e.aid (fun ag => lanes.foldl (fun ag l => sleepLane ag l (.bar r.scope.toNat r.d.toNat)) ag) else o.2) o.1) o.1) := by
  have whole (x : BitVec 32) : (x.setWidth 64).setWidth 32 = x := by simp
  simp only [barWord, whole]
  exact varWord_running hr i (fun _ => []) _ hp hf hw (laneTrap_nil s e i)

/-- Settles O29: `BAR` and `BARA` are the two forms of an arrival; `BARW` acts by whether it is held and whether its phase is open. -/
theorem barrierWords : Obligations.BarrierWords := by
  intro s h r e hr hp hf hw lanes arrive b a asleep
  have barw : exec (.barw h r) s = .next (if heldBack s e none then holdWord s else
      finish (acquireBy s (if barPending s e.ag r.scope.toNat r.d.toNat then 0 else r.scope.toNat) (fun a _ => a == e.aid))
        { e with ag := if barPending s e.ag r.scope.toNat r.d.toNat then asleep (.barw r.scope.toNat r.d.toNat) e.ag else e.ag }
        (4 + lanes.length) []) := by
    show execBarw h r s = _
    exact varWord_running hr _ _ _ hp rfl hw rfl
  refine ⟨show execBar h r s = _ from barWord_running hr _ true hp hf hw,
    show execBara h r s = _ from barWord_running hr _ false hp hf hw,
    fun held => ?_, fun free done => ?_, fun free wait => ?_⟩
  · rw [barw, held]; rfl
  · rw [barw, free, done]; rfl
  · rw [barw, free, wait]
    rfl

/-! ### Event counters, wait and wake, placement (R256 to R264) -/

theorem uniformWord_running {s : State} {h : Pfx} {e : Env} (hr : Running s h false e) (i : Instr) (addrs : Env → List (Nat × Nat))
    (va : Env → DWord) (st : PartState) (args : Env → List DWord) (hp : e.pass ≠ 0#32)
    (hf : flagFull e.ag (memFmt i).flag.toNat = false) (hw : walksFull s (dieOf e.ag.core) = false) (hc : laneTrap s e i (addrs e) = none) :
    let o := startOp s e (opOf_ e i [partOfLane 32 (va e) st] [] [] (args e))
    uniformWord s h i addrs va st args = .next (homeAll o.2 o.1) :=
  varWord_running hr _ _ _ hp hf hw hc

theorem placeWord_running {s : State} {h : Pfx} {e : Env} (hr : Running s h false e) (i : Instr) (hp : e.pass ≠ 0#32)
    (hf : flagFull e.ag (memFmt i).flag.toNat = false) (hw : walksFull s (dieOf e.ag.core) = false)
    (hc : ∀ l ∈ lanesOf e.pass, checkAddr s e.ag.block i (effAddr e (memFmt i) l).toNat = none) :
    let o := startOp s e (opOf_ e i [partOfLane 32 (effAddr e (memFmt i) 0) .home] [] []
      [effAddr e (memFmt i) 0, rdS e (memFmt i).c.toNat])
    placeWord s h i = .next (homeAll o.2 o.1) :=
  uniformWord_running hr i _ _ _ _ hp hf hw (laneTrap_laneAddrs hc)

/-- Settles O30: most of the words are uniform; `ECWAIT` and `WAITVA` put the lanes to sleep. -/
theorem counterAndWakeWords : Obligations.CounterAndWakeWords := by
  intro s h r e hr hp hf hw lanes one thr met wait
  have ecwait : exec (.ecwait h r) s = .next (if heldBack s e (some r.c.toNat) then holdWord s else finish
      (acquireBy s (if met then r.scope.toNat else 0) (fun a _ => a == e.aid)) { e with ag := lanes.foldl wait e.ag } (4 + lanes.length) []) :=
    show execEcwait h r s = _ from varWord_running hr _ _ _ hp rfl hw rfl
  refine ⟨show execEcset h r s = _ from uniformWord_running hr (.ecset h r) (fun _ => []) _ _ _ hp hf hw rfl,
    show execEcadd h r s = _ from uniformWord_running hr (.ecadd h r) (fun _ => []) _ _ _ hp hf hw rfl,
      show execEcq h r s = _ from uniformWord_running hr (.ecq h r) (fun _ => []) _ _ _ hp hf hw rfl,
    fun held => ?_, fun free => ?_,
    fun hc => show execWakeva h r s = _ from uniformWord_running hr (.wakeva h r) _ _ _ _ hp hf hw (laneTrap_laneAddrs hc),
    fun hc => show execWaitva h r s = _ from varWord_running hr (.waitva h r) _ _ hp hf hw (laneTrap_laneAddrs hc), ?_⟩
  · rw [ecwait, held]; rfl
  · rw [ecwait, free]; rfl
  · simp only [List.forall_mem_cons]
    exact ⟨fun hc => show execPin h r s = _ from placeWord_running hr (.pin h r) hp hf hw hc,
      fun hc => show execUnpin h r s = _ from placeWord_running hr (.unpin h r) hp hf hw hc,
      fun hc => show execHint h r s = _ from placeWord_running hr (.hint h r) hp hf hw hc, List.forall_mem_nil _⟩

/-! ### Engine commands (R250, R269 to R293) -/

section
variable {s : State} {h : Pfx} {e : Env} (hr : Running s h false e) (hp : e.pass ≠ 0#32) (hpark : allParked s e = false) (i : Instr)
  (args : Env → List DWord) (vals : Env → List (Nat × BitVec 128))
include hr hp hpark

theorem engineWord_holds (hf : flagFull e.ag (memFmt i).flag.toNat = true
    ∨ (!noRoom s e.ag.core e.ag.block i && !bookOpen s e.ag.block i) = false ∨ walksFull s (dieOf e.ag.core) = true) :
    engineWord s h i args vals = .next (holdWord s) := by
  have held : (flagFull e.ag (memFmt i).flag.toNat || (noRoom s e.ag.core e.ag.block i || bookOpen s e.ag.block i)
      || walksFull s (dieOf e.ag.core)) = true := by
    rcases hf with hf | hf | hf
    · simp [hf]
    · simp only [← Bool.not_or, Bool.not_eq_false'] at hf; simp [hf]
    · simp [hf]
  rw [engineWord, onIssue_running hr]
  simp only [hpark, Bool.not_false, Bool.true_and, held, beq_iff_eq, if_true]
  exact if_neg hp

theorem engineWord_traps (hf : flagFull e.ag (memFmt i).flag.toNat = false)
    (hroom : noRoom s e.ag.core e.ag.block i = false) (hbook : bookOpen s e.ag.block i = false)
    (hw : walksFull s (dieOf e.ag.core) = false) {c : TrapCode} (hc : engineCheck s e.ag.block i (args e) = some c) :
    engineWord s h i args vals =
      .next (issueTrap s e (commandReq e c (if c == .accessViolation then ((args e).getD 0 0).toNat else 0))) := by
  rw [engineWord, onIssue_running hr]
  simp [hpark, hp, hf, hroom, hbook, hw, hc]

theorem engineWord_running (hf : flagFull e.ag (memFmt i).flag.toNat = false)
    (hroom : noRoom s e.ag.core e.ag.block i = false) (hbook : bookOpen s e.ag.block i = false)
    (hw : walksFull s (dieOf e.ag.core) = false) (hc : engineCheck s e.ag.block i (args e) = none) :
    let mk := opOf_ e i [partOfLane 32 0 .home] (vals e) [] (args e)
    let o := startOp s e mk
    engineWord s h i args vals = .next (settle (enqueue o.2 o.1 (mk o.1) (vals e)) o.1) := by
  rw [engineWord, onIssue_running hr]
  simp [hpark, hp, hf, hroom, hbook, hw, hc]

end

/-- R250: a queue fence has no operand that could fail a check. -/
theorem engineCheck_qfence (s : State) (bid : Nat) (h : Pfx) (r : FmtE) (args : List DWord) :
    engineCheck s bid (.qfence h r) args = none := rfl

/-! ### Words that are held, and words that trap (R65, R72, R177, R358) -/

/-- The outcome of a variable-latency word whose lanes' effective addresses are checked. -/
def IsLaneAddrWord (s : State) (h : Pfx) (r : FmtM) (i : Instr) (o : Out) : Prop := ∃ act, o = varWord s h i (fun e => laneAddrs e r) act

section
variable {s : State} {h : Pfx} {r : FmtM} {i : Instr}

theorem isLaneAddrWord_varWord (act : Env → State) : IsLaneAddrWord s h r i (varWord s h i (fun e => laneAddrs e r) act) := ⟨act, rfl⟩

theorem isLaneAddrWord_uniformWord (va : Env → DWord) (st : PartState) (args : Env → List DWord) :
    IsLaneAddrWord s h r i (uniformWord s h i (fun e => laneAddrs e r) va st args) :=
  isLaneAddrWord_varWord _

theorem isLaneAddrWord_placeWord (fmt : memFmt i = r) : IsLaneAddrWord s h r i (placeWord s h i) := by
  subst fmt
  exact isLaneAddrWord_uniformWord _ _ _

theorem isLaneAddrWord_memWord (fmt : memFmt i = r) : IsLaneAddrWord s h r i (memWord s h i) := by
  subst fmt
  exact isLaneAddrWord_varWord _

end

/-- The words of an address a lane, with their fields. -/
theorem isLaneAddrWord_exec (s : State) (h : Pfx) (r : FmtM) :
    ∀ i ∈ [Instr.ld h r, .st h r, .lds h r, .sts h r, .ldl h r, .stl h r, .atom h r, .acas h r, .red h r, .tierq h r, .waitva h r,
      .wakeva h r, .pin h r, .unpin h r, .hint h r], IsLaneAddrWord s h r i (exec i s) ∧ memFmt i = r := by
  simp only [List.forall_mem_cons]
  exact ⟨⟨show IsLaneAddrWord s h r _ (execLd h r s) from isLaneAddrWord_memWord rfl, rfl⟩,
    ⟨show IsLaneAddrWord s h r _ (execSt h r s) from isLaneAddrWord_memWord rfl, rfl⟩,
    ⟨show IsLaneAddrWord s h r _ (execLds h r s) from isLaneAddrWord_memWord rfl, rfl⟩,
    ⟨show IsLaneAddrWord s h r _ (execSts h r s) from isLaneAddrWord_memWord rfl, rfl⟩,
    ⟨show IsLaneAddrWord s h r _ (execLdl h r s) from isLaneAddrWord_memWord rfl, rfl⟩,
    ⟨show IsLaneAddrWord s h r _ (execStl h r s) from isLaneAddrWord_memWord rfl, rfl⟩,
    ⟨show IsLaneAddrWord s h r _ (execAtom h r s) from isLaneAddrWord_memWord rfl, rfl⟩,
    ⟨show IsLaneAddrWord s h r _ (execAcas h r s) from isLaneAddrWord_memWord rfl, rfl⟩,
    ⟨show IsLaneAddrWord s h r _ (execRed h r s) from isLaneAddrWord_memWord rfl, rfl⟩,
    ⟨show IsLaneAddrWord s h r _ (execTierq h r s) from isLaneAddrWord_memWord rfl, rfl⟩,
    ⟨show IsLaneAddrWord s h r _ (execWaitva h r s) from isLaneAddrWord_varWord _, rfl⟩,
    ⟨show IsLaneAddrWord s h r _ (execWakeva h r s) from isLaneAddrWord_uniformWord _ _ _, rfl⟩,
    ⟨show IsLaneAddrWord s h r _ (execPin h r s) from isLaneAddrWord_placeWord rfl, rfl⟩,
    ⟨show IsLaneAddrWord s h r _ (execUnpin h r s) from isLaneAddrWord_placeWord rfl, rfl⟩,
    ⟨show IsLaneAddrWord s h r _ (execHint h r s) from isLaneAddrWord_placeWord rfl, rfl⟩,
    List.forall_mem_nil _⟩

/-- R250: a queue fence that is held completes nothing. -/
theorem execQfence_of_hold {s : State} {h : Pfx} {r : FmtE} (ho :
    engineWord s h (.qfence h r) (fun _ => []) noVals = .next (holdWord s)) :
    exec (.qfence h r) s = .next (holdWord s) := by
  show execQfence h r s = _
  rw [execQfence, ho]
  simp only [holdWord_cmds]
  split
  · next c hc => simp [hc]
  · rfl

/-- Settles O27: what is held and what traps is so for every word of the two forms. -/
theorem variableWordsStop : Obligations.VariableWordsStop := by
  intro s h r x i e hr hp full
  refine ⟨fun hi => ?_, fun hi hpark => ?_⟩
  · obtain ⟨⟨act, word⟩, fmt⟩ := isLaneAddrWord_exec s h r i hi
    rw [word]
    subst fmt
    exact ⟨varWord_holds hr i _ act hp, fun hf hw t ht => varWord_traps hr i _ act hp hf hw ht⟩
  · have shape : (engineWord s h i (fun _ => []) noVals = .next (holdWord s) → exec i s = .next (holdWord s))
        ∧ (memFmt i).flag = x.flag ∧ ((∃ c, engineCheck s e.ag.block i [] = some c)
        → exec i s = engineWord s h i (fun _ => []) noVals) := by
      simp only [List.mem_cons, List.not_mem_nil, or_false] at hi
      rcases hi with rfl | rfl | rfl | rfl | rfl | rfl
      case inr.inr.inr.inr.inr => exact ⟨execQfence_of_hold, rfl, fun ⟨c, hc⟩ => by cases hc⟩
      all_goals exact ⟨id, rfl, fun _ => rfl⟩
    obtain ⟨hold, fmt, word⟩ := shape
    intro room
    refine ⟨fun hf => hold (engineWord_holds hr hp hpark i (fun _ => []) noVals (by rwa [fmt])), fun hf hroom hw c hc => ?_⟩
    obtain ⟨hn, hb⟩ : noRoom s e.ag.core e.ag.block i = false ∧ bookOpen s e.ag.block i = false := by
      simpa [room] using hroom
    rw [word ⟨c, hc⟩, engineWord_traps hr hp hpark i (fun _ => []) noVals (by rwa [fmt]) hn hb hw hc]
    split_ifs <;> rfl


/-- The outcome of an engine word that may enter its queues: `args` and `vals` are what it reads of its operands. -/
def commandSent (s : State) (e : Env) (i : Instr) (args : List DWord) (vals : List (Nat × BitVec 128)) : State :=
  let mk := opOf_ e i [partOfLane 32 0 .home] vals [] args
  let o := startOp s e mk
  settle (enqueue o.2 o.1 (mk o.1) vals) o.1

/-- An engine word may enter its queues: no count, queue or codebook holds it, and its checks hold. -/
def CommandReady (s : State) (e : Env) (i : Instr) (flag : BitVec 4) (args : List DWord) : Prop :=
  flagFull e.ag flag.toNat = false ∧ noRoom s e.ag.core e.ag.block i = false ∧ bookOpen s e.ag.block i = false
    ∧ walksFull s (dieOf e.ag.core) = false ∧ engineCheck s e.ag.block i args = none

theorem engineWord_ready {s : State} {h : Pfx} {e : Env} (hr : Running s h false e) (hp : e.pass ≠ 0#32) (hpark : allParked s e = false)
    (i : Instr) (args : Env → List DWord) (vals : Env → List (Nat × BitVec 128)) (ready : CommandReady s e i (memFmt i).flag (args e)) :
    engineWord s h i args vals = .next (commandSent s e i (args e) (vals e)) := by
  obtain ⟨hf, hroom, hbook, hw, hc⟩ := ready
  exact engineWord_running hr hp hpark i args vals hf hroom hbook hw hc

/-- Settles O31: the commands differ in their operands only; the fence may complete at once, and the flush sends what its core holds. -/
theorem engineCommandsIssue : Obligations.EngineCommandsIssue := by
  intro s h r m e hr hp hpark s' sent ready issue
  have issued := fun (i : Instr) args vals => engineWord_ready hr hp hpark i args vals
  have issuing : ∃ a iss, issuing s = some (a, e.ag, iss) := by
    obtain ⟨a, ag, iss, hi, rfl⟩ := hr
    exact ⟨a, iss, hi⟩
  obtain ⟨a, iss, hi⟩ := issuing
  refine ⟨issued (.cpy h r) (fun _ => []) noVals, issued (.cpyg h r) (fun e => [rdS e r.b.toNat]) noVals,
    issued (.rdh h r) (fun e => [rdS e r.a.toNat, rdS e (r.a.toNat + 1), rdS e r.b.toNat]) noVals,
    issued (.rdhg h r) (fun e => [rdS e r.a.toNat, rdS e (r.a.toNat + 1), rdS e r.b.toNat, rdS e (r.b.toNat + 1)]) noVals,
    issued (.sub h r) (fun e => [rdS e r.a.toNat, rdS e (r.a.toNat + 1), rdS e r.b.toNat, rdS e (r.b.toNat + 1)]) noVals,
    issued (.unsub h r) (fun e => [rdS e r.a.toNat]) noVals,
    issued (.mma h r) (fun _ => []) noVals, issued (.mmz h r) (fun _ => []) noVals,
    issued (.accld h r) (fun _ => []) noVals, issued (.accst h r) (fun _ => []) noVals,
    fun hd => show execAccrd h r s = _ from issued (.accrd h r) _ _ hd,
    fun hd => show execAccwr h r s = _ from issued (.accwr h r) _ _ hd, fun hd => ?_,
    issued (.flushr h m) (fun e => [rdS e m.sb.toNat, rdS e m.d.toNat]) noVals,
    issued (.invr h m) (fun e => [rdS e m.sb.toNat, rdS e m.d.toNat]) noVals, fun hd => ?_⟩
  · intro t
    show execQfence h r s = _
    rw [execQfence, issued (.qfence h r) (fun _ => []) noVals hd]
    rfl
  · intro t
    show execPubfl h r s = _
    rw [execPubfl, issued (.pubfl h r) (fun _ => []) noVals hd, hi]
    rfl

/-! ### Slots, rings and the ends of a ladle (R273, R274, R284, R292) -/

section
variable {s : State} {h : Pfx} {e : Env} (hr : Running s h false e)
include hr

theorem shapeWord_running (i : Instr) (n : Nat) (addr : Env → DWord) (hp : e.pass ≠ 0#32)
    (hf : flagFull e.ag (memFmt i).flag.toNat = false) (hw : walksFull s (dieOf e.ag.core) = false)
    (hroom : allParked s e = true ∨ noRoom s e.ag.core e.ag.block i = false ∧ bookOpen s e.ag.block i = false)
    (hc : shapeAddr s e (addr e).toNat n = none) :
    let o := startOp s e (opOf_ e i [partOfLane 32 (addr e) .home] [] [] [addr e])
    shapeWord s h i n addr = .next (settle (homeAll o.2 o.1) o.1) := by
  have free : (!allParked s e && (noRoom s e.ag.core e.ag.block i || bookOpen s e.ag.block i)) = false := by
    rcases hroom with hpark | ⟨hn, hb⟩
    · simp [hpark]
    · simp [hn, hb]
  rw [shapeWord, onIssue_running hr]
  simp [hp, hf, hw, hc, free]

theorem slotWord_running (i : Instr) (quiet : Bool) (args : Env → List DWord) (hp : e.pass ≠ 0#32)
    (hf : flagFull e.ag (memFmt i).flag.toNat = false) :
    let o := startOp s e (opOf_ e i [partOfLane 32 0 .home] [] [] (args e))
    slotWord s h i quiet args = .next (if quiet then settle (homeAll o.2 o.1) o.1 else homeAll o.2 o.1) := by
  rw [slotWord, onIssue_running hr]
  simp [hp, hf]

theorem lendWord_holds (stop : Bool) (held : heldBack s e none = true) : lendWord s h stop = .next (holdWord s) := by
  rw [lendWord, onIssue_running hr]
  simp [held]

theorem lendWord_running (stop : Bool) (hp : e.pass ≠ 0#32) (free : heldBack s e none = false) :
    let t := finish s { e with ag := (List.range e.ag.lanes.length).foldl exitLane e.ag } 4 []
    lendWord s h stop = .next (if stop && !e.ag.ladle.finale then stopRead t e.ag.ladle.read else t) := by
  rw [lendWord, onIssue_running hr]
  simp [hp, free]

theorem execPush_running (r : FmtE) (hp : e.pass ≠ 0#32) (hf : flagFull e.ag r.flag.toNat = false) (hpark : allParked s e = false) :
    let op := fun (res : Nat) => opOf_ e (.push h r) [partOfLane 32 0 .home] [] []
      (BitVec.ofNat 64 res :: rdS e r.b.toNat :: (List.range 8).map (fun i => rdS e (r.a.toNat + i)))
    let o := startOp s e (op (pushResult s (op 4 0)))
    execPush h r s = .next (homeAll o.2 o.1) := by
  rw [execPush, onIssue_running hr]
  simp [hp, hf, hpark]

end

/-- Settles O32: each word by the lemma of its form. -/
theorem slotAndRingWords : Obligations.SlotAndRingWords := by
  intro s h r e hr hp a op shape words pushOp pushed gone
  refine ⟨fun hf hw hroom hc => show execLdsh h r s = _ from shapeWord_running hr (.ldsh h r) 64 _ hp hf hw hroom hc,
    fun hf hw hroom hc => show execEvsh h r s = _ from shapeWord_running hr (.evsh h r) 64 _ hp hf hw hroom hc,
    fun hf hw hroom hc => show execCbld h r s = _ from shapeWord_running hr (.cbld h r) 32 _ hp hf hw hroom hc,
    fun hf => ⟨show execShset h r s = _ from slotWord_running hr (.shset h r) true _ hp hf,
      show execShget h r s = _ from slotWord_running hr (.shget h r) false (fun _ => []) hp hf,
      show execSubq h r s = _ from slotWord_running hr (.subq h r) false _ hp hf, execPush_running hr r hp hf⟩,
    fun held => ⟨lendWord_holds hr false held, lendWord_holds hr true held⟩,
    fun free => ⟨lendWord_running hr false hp free, ?_⟩⟩
  show execLendStop h r s = _
  rw [execLendStop, lendWord_running hr true hp free]
  cases e.ag.ladle.finale <;> rfl

/-! ### System words (R313, R314, R318 to R323) -/

section
variable {s : State} {h : Pfx} {e : Env} (hr : Running s h false e) (hp : e.pass ≠ 0#32)
include hr hp

theorem systemWord_traps (i : Instr) (args : Env → List DWord) (check : Env → List DWord → Option TrapCode)
    (hf : flagFull e.ag (memFmt i).flag.toNat = false) {c : TrapCode} (hc : check e (args e) = some c) :
    systemWord s h i args check =
      .next (issueTrap s e (engineReq e c (if c == .accessViolation then ((args e).getD 0 0).toNat else 0))) := by
  rw [systemWord, onIssue_running hr]
  simp [hp, hf, hc]

theorem execMovpr_running (p : FmtR) :
    execMovpr h p s = .next (finish s e 4 (wrS e lateCycle p.d.toNat (privRead s e.ag p.a.toNat))) := by
  rw [execMovpr, onIssue_running hr]
  simp [hp]

theorem execMovrp_running (p : FmtR) (hv : wwendBad s e p.a.toNat (rdS e p.b.toNat) = false) :
    execMovrp h p s = .next (finish s e 4
      [{ tgt := .priv p.a.toNat, val := rdS e p.b.toNat, ready := e.iss.cur + lateCycle, mov := false }]) := by
  rw [execMovrp, onIssue_running hr]
  simp [hp, hv]

theorem execMovrp_traps (p : FmtR) (hv : wwendBad s e p.a.toNat (rdS e p.b.toNat) = true) :
    execMovrp h p s = .next (issueTrap s e (engineReq e .privilege 0)) := by
  rw [execMovrp, onIssue_running hr]
  simp [hp, hv]

theorem execHalt_running (r : FmtE) :
    let sleep := if e.ag.hub.notified then { e.ag.hub with notified := false } else { e.ag.hub with halted := true }
    execHalt h r s = .next (finish s { e with ag := { e.ag with hub := sleep } } 4 []) := by
  rw [execHalt, onIssue_running hr]
  simp [hp]

end

/-- Settles O33: the words of one form by `systemWord_running`, with the value check of each. -/
theorem systemWordsIssue : Obligations.SystemWordsIssue := by
  intro s h r p e hr hp a b d v sleep go
  have issued := fun (i : Instr) args check hf hc => systemWord_running hr i args check hp hf hc
  have inRange : ∀ c d', a.toNat + b.toNat ≤ 2 ^ 56 → rangeCheck e [a, b, c, d'] = none := fun c d' hab => by
    simp [rangeCheck]; omega
  have outOfRange : ∀ c d', 2 ^ 56 < a.toNat + b.toNat → rangeCheck e [a, b, c, d'] = some .accessViolation := fun c d' hab => by
    simp [rangeCheck]; omega
  refine ⟨fun hf => show execSysc h r s = _ from issued (.sysc h r) _ _ hf rfl,
    fun hf => show execTlbiAsid h r s = _ from issued (.tlbiAsid h r) _ _ hf rfl,
    fun hf => show execTlbiVm h r s = _ from issued (.tlbiVm h r) _ _ hf rfl,
    fun hf => show execTlbiS2 h r s = _ from issued (.tlbiS2 h r) _ _ hf rfl,
    fun hf => show execTlbiAll h r s = _ from issued (.tlbiAll h r) _ _ hf rfl,
    fun hab => ⟨fun hf => show execTlbir h r s = _ from issued (.tlbir h r) _ _ hf (inRange _ _ hab),
      fun hf => show execTlbirS2 h r s = _ from issued (.tlbirS2 h r) _ _ hf (inRange _ _ hab)⟩,
    fun hf hab => ?_,
    fun hf => show execAtp h r s = _ from issued (.atp h r) _ _ hf rfl,
    fun hf => show execLcinv h r s = _ from issued (.lcinv h r) _ _ hf rfl,
    fun hf => show execLcinvAll h r s = _ from issued (.lcinvAll h r) (fun _ => []) _ hf rfl,
    fun hf => show execNotifyw h r s = _ from issued (.notifyw h r) _ _ hf rfl,
    fun hc => ⟨fun hf => show execEcciCorr h r s = _ from issued (.ecciCorr h r) _ _ hf hc,
      fun hf => show execEcciUnc h r s = _ from issued (.ecciUnc h r) _ _ hf hc⟩,
    execMovpr_running hr hp p, execMovrp_running hr hp p, execMovrp_traps hr hp p, execHalt_running hr hp r⟩
  show execTlbir h r s = _
  rw [execTlbir, systemWord_traps hr hp (.tlbir h r) _ _ hf (outOfRange _ _ hab)]
  rfl

end Sys2Proof.Claims

/-!
# The steps of what is in flight

The steps of an instruction in flight (R37, R65, R240, R314, R394) and of an engine command (R135, R271, R276, R280, R289),
and what a home does
for counters and for the scratchpad (R67, R117, R241,
R256). An event of these does one thing where its conditions hold and nothing where they
do not; each statement gives the conditions under which it acts.
-/

namespace Sys2Proof.Claims

open Sys2Proof Sys2Proof.Machine

/-! ### An instruction in flight -/

section
variable {s : State} {op lane : Nat} {o : Op} {p : Part} (ho : aget s.ops op = some o) (hp : partAt o lane = some p)
include ho

/-- R314: the instruction takes effect, and completes where nothing of it is left. -/
theorem execSystemInstructionComplete_of_effect (hp : partAt o 32 = some p) (hk : kindOf o.instr = .system) (hst : p.st = .home)
    (hready : partReady s o p = true) (hrange : emptyRange o = false) (hrel : systemReleases o.instr = false) :
    exec (.systemInstructionComplete op) s = .next (match aget (systemEffect s op o).ops op with
      | some q => if completable (systemEffect s op o) q then completeOp (systemEffect s op o) op q else systemEffect s op o
      | none => systemEffect s op o) := by
  have served : systemServe s op o p = systemEffect s op o := by
    simp [systemServe, hst, hready, hrange, hrel]
  show execSystemInstructionComplete op s = _
  simp only [execSystemInstructionComplete, ho, hk, hp, served]
  rw [if_neg (by decide)]
  cases aget (systemEffect s op o).ops op <;> rfl

include hp

theorem homeOp_of_release (hst : p.st = .home) (hready : partReady s o p = true) (hrel : isRelease o = true)
    (hw : releaseWaits (releaseOut s o.core o.block (releaseScope o)) o.core o.block (releaseScope o) = false) :
    homeOp s op lane = acquired o lane op (homeServe (releaseOut s o.core o.block (releaseScope o)) op o p) := by
  simp [homeOp, ho, hp, hst, hready, hrel, hw]

theorem homeOp_of_not_release (hst : p.st = .home) (hready : partReady s o p = true) (hrel : isRelease o = false) :
    homeOp s op lane = acquired o lane op (homeServe s op o p) := by
  simp [homeOp, ho, hp, hst, hready, hrel]

end

/-- Settles O34: each event of a part acts where the part is ready. -/
theorem accessSteps : Obligations.AccessSteps := by
  intro s op lane o p ho hp s1 s2
  refine ⟨fun hst hready hturn => ?_, fun hst hready hrel => congrArg _ (homeOp_of_not_release ho hp hst hready hrel),
    fun hst hready hrel hw => congrArg _ (homeOp_of_release ho hp hst hready hrel hw), fun hc => ?_, fun hl => ?_⟩
  · show execWalk op lane s = _
    simp [execWalk, ho, hp, hst, hready, hturn]
  · show execAccessCompletion op s = _
    simp [execAccessCompletion, ho, hc]
  · subst hl
    exact execSystemInstructionComplete_of_effect ho hp

/-! ### What a home does for counters and scratchpad accesses -/

/-- R241: a part of a load or store at a window that reaches a block's scratchpad is served there. -/
theorem homeServe_of_window {s : State} {id : Nat} {o : Op} {p : Part} {b ofs : Nat} (hk :
    kindOf o.instr = .load ∨ kindOf o.instr = .store)
    (hwin : isWindow p.va.toNat = true) (hat : windowAt s o.block p.va.toNat = some (b, ofs)) :
    homeServe s id o p = performSpm s id o p b ofs := by
  have served : accessServe s id o p = performSpm s id o p b ofs := by
    simp [accessServe, hwin, hat]
  rcases hk with hk | hk <;> simp [homeServe, hk, served]

theorem performSpm_of_store {s : State} {id : Nat} {o : Op} {p : Part} {b ofs : Nat} (hk : kindOf o.instr = .store) :
    performSpm s id o p b ofs = partDone (spmWrite s b ofs (toBytes (laneVal o.vals p.lane) (partBytes o))) id p.lane 0 := by
  simp [performSpm, doesRead, hk]

theorem performSpm_of_load {s : State} {id : Nat} {o : Op} {p : Part} {b ofs : Nat} (hk : kindOf o.instr = .load)
    (hpo : spmPoisoned (spmFind s b ofs (partBytes o)) b ofs (partBytes o) = false) :
    performSpm s id o p b ofs = partDone (spmFind s b ofs (partBytes o)) id p.lane
      (loadValue (memFmt o.instr).mtype (ofBytes (spmRead (spmFind s b ofs (partBytes o)) b ofs (partBytes o)))) := by
  simp [performSpm, doesRead, hk, hpo]

/-- Settles O35: the counters by the kind of the instruction, the scratchpad accesses through `performSpm`. -/
theorem homeEffects : Obligations.HomeEffects := by
  intro s id o p h r b ofs ec v n
  refine ⟨fun hi => ?_, fun hi => ?_, fun hi => ?_, fun hwin hat => ⟨fun hi => ?_, fun hi => ?_⟩⟩
  · simp only [homeServe, hi, kindOf]; rfl
  · simp only [homeServe, hi, kindOf]; rfl
  · simp only [homeServe, hi, kindOf]; rfl
  · have hk : kindOf o.instr = .store := by rcases hi with hi | hi | hi <;> rw [hi] <;> rfl
    rw [homeServe_of_window (.inr hk) hwin hat, performSpm_of_store hk]
  · intro s1 hpo
    have hk : kindOf o.instr = .load ∧ memFmt o.instr = r := by rcases hi with hi | hi | hi <;> rw [hi] <;> exact ⟨rfl, rfl⟩
    rw [homeServe_of_window (.inl hk.1) hwin hat, performSpm_of_load hk.1 hpo, hk.2]

/-! ### Engine commands, bursts and updates -/

/-- R280: the bytes of a burst that is in flight have been read without an error: the burst lands. -/
theorem execBurstLanding_of_read {s s1 s2 : State} {cmd burst : Nat} {c : Cmd} {b : ReadBurst} {segs : List Seg} {got : Got}
    (hc : aget s.cmds cmd = some c) (hb : (readBursts c)[burst]? = some b) (hfly : c.flying.contains burst = true)
    (hreach : probe s (burstWho cmd c burst) (burstRange b).1 (burstRange b).2 .read = (.mem segs, s1))
    (hread : takeBytes (countBurst s1 (burstWho cmd c burst) .read segs) (burstWho cmd c burst) (burstRange b).2 (.mem segs) = (got, s2))
    (hgood : got.bad = none) :
    let s3 := modCmd s2 cmd (fun c => { c with flying := c.flying.filter (fun x => x != burst) })
    exec (.burstLanding cmd burst) s = .next (modCmd { s3 with nextId := s3.nextId + 1 } cmd (fun c =>
      { c with landed := c.landed ++ [(s3.nextId, burst, burstBytes b got.bytes)] })) := by
  show execBurstLanding cmd burst s = _
  have hsegs : allSegs [((burstRange b).1, Reach.mem segs)] = segs := by simp [allSegs]
  simp only [execBurstLanding, hc, hb, hfly, hreach, hsegs, hread, hgood, Bool.not_true, Bool.false_eq_true, if_false]
  rfl

/-- Settles O36: each event of a command acts where its conditions hold; the landing by the lemma above. -/
theorem engineSteps : Obligations.EngineSteps := by
  intro s cmd core burst c
  refine ⟨fun hc hm hq hs hcr => ?_, fun hc hd => ?_, fun hf hn => ?_, fun h r hf hn hi => ?_,
    fun b hc hst hi hb hbit hm hcr hs hlow => ?_,
    fun n b hc hst hi hstop hcr hs hbuf he hn => ?_,
    fun b segs s1 got s2 hc hb hfly hreach hread hgood => execBurstLanding_of_read hc hb hfly hreach hread hgood, ?_,
    fun u hu hfirst => ?_⟩
  · show execEngineCommandStart cmd s = _
    simp [execEngineCommandStart, hc, hm, hq, hs, hcr]
  · show execEngineCommandComplete cmd s = _
    simp [execEngineCommandComplete, hc, hd]
  · show execMmaEngineExit core s = _
    simp [execMmaEngineExit, hf, hn]
  · show execMmaEngineExit core s = _
    simp [execMmaEngineExit, hf, Nat.not_lt.mpr hn, hi]
  · show execCopyBurst cmd burst s = _
    simp only [List.contains_eq_mem, decide_eq_false_iff_not] at hbit
    simp [execCopyBurst, hc, hst, hi, hb, hbit, hm, hcr, hs, hlow]
  · show execBurstRequest cmd s = _
    simp [execBurstRequest, hc, hst, hi, hstop, hcr, hs, he, hn, Config.landingBursts, hbuf]
  · show execUpdateBufferTimeout core s = _
    have all_old : ((s.mem.upd.filter (fun e => e.core == core)).all (fun e => decide (e.since + 64 ≤ s.cycles)) = true)
        ↔ ∀ x ∈ s.mem.upd, x.core = core → x.since + 64 ≤ s.cycles := by
      simp [imp_iff_not_or]
    simp only [execUpdateBufferTimeout, all_old]
  · show execUpdateApply cmd s = _
    simp only [execUpdateApply, hu]
    rw [if_neg]
    simpa using hfirst

/-! ### Ladles, retirement, placement and a scheduler's turn (R34, R51 to R53, R281, R339, R342) -/

/-- Settles O37: each event acts where its conditions hold. -/
theorem birthsAndEnds : Obligations.BirthsAndEnds := by
  intro s core slot cmd a c ag
  refine ⟨fun x b hslot ht hl hs hb => ?_, fun ha hx htr hiss hd hc => ?_, fun hc hst hslot ht hs hno => ?_,
    fun ha hk hx htr hiss hd => ?_,
    fun b hb hm => ?_, fun id t hp => ?_, fun sched => ⟨fun p hp => ?_, fun x l g hp hm hch hg => ?_⟩⟩
  · show execLadleBirth core slot s = _
    simp [execLadleBirth, Config.ladleSlots, Nat.not_le.mpr hslot, ht, hl, hs, hb]
  · show execLadleEnd core slot s = _
    simp only [execLadleEnd, ha]
    rw [if_neg (by simp [hx, htr, hiss, hd])]
    simp only [hc]
    cases ag.ladle.finale <;> rfl
  · show execFinaleBirth cmd slot s = _
    have none_yet : s.agents.any (fun p => p.2.kind == .ladle && p.2.ladle.read == cmd) = false := by
      simpa using hno
    simp [execFinaleBirth, hc, hst, Config.ladleSlots, Nat.not_le.mpr hslot, ht, hs, none_yet]
  · show Host.Outcome.next (cohortRetire s a) = _
    simp [cohortRetire, ha, hk, hx, htr, hiss, hd]
  · show Host.Outcome.next (blockRetire s a) = _
    simp [blockRetire, hb, hm]
  · show execDispatchPlacement s = _
    simp only [execDispatchPlacement, hp]
  · show Host.Outcome.next (schedulerPick (prepare s core sched) core sched) = _
    simp only [schedulerPick, hp]
  · show Host.Outcome.next (schedulerPick (prepare s core sched) core sched) = _
    simp [schedulerPick, hp, hm, hch, hg]

end Sys2Proof.Claims

/-!
# Packets and service calls

The events of a hardware queue's packets (R328 to R330, R333, R334) and of the calls that hub firmware and the services answer (R316,
R336, R337,
R389, R438). Each event has its conditions in its definition; where they hold it does what the statement says.
-/

namespace Sys2Proof.Claims

open Sys2Proof Sys2Proof.Machine

/-! ### Packets -/

/-- R334: a copy packet with no burst left to do again goes on with the next burst. -/
theorem execCopyPacket_of_next {s : State} {q n : Nat} {p : Packet} (hp : running s q (BitVec.ofNat 32 n) 2 = some p)
    (htodo : p.todo = []) (hprog : p.prog ≠ pktLen p.bits) (hcr : hubCreditOn s (queuePart s q) = true) :
    exec (.copyPacket q n) s = .next (match pktBurst s q (BitVec.ofNat 32 n) p.bits p.prog with
      | (true, s1) => copyEnd (modPkt s1 q (BitVec.ofNat 32 n) (fun x => { x with prog := p.prog + pktBurstLen p.bits p.prog })) q
          (BitVec.ofNat 32 n)
      | (false, s1) => s1) := by
  show execCopyPacket q n s = _
  simp only [execCopyPacket, hp]
  rw [if_neg (by simp [hprog, hcr])]
  simp only [htodo] <;> rfl

/-- Settles O38: each event of a packet acts where its conditions hold; the copy by the lemma above. -/
theorem packetSteps : Obligations.PacketSteps := by
  intro s q n p at_
  refine ⟨fun bits s1 ha hr => ?_, fun hn hm => ?_, fun hp h0 => ?_, fun hp htodo hprog hcr => execCopyPacket_of_next hp htodo hprog hcr,
    fun hp hst hg => ?_⟩
  · show execPacketAccept q s = _
    simp [execPacketAccept, ha, hr]
  · show execPacketStart q s = _
    simp [execPacketStart, hn, hm]
  · intro s1 l s2
    show execLaunchPacket q n s = _
    simp only [execLaunchPacket, show running s q (BitVec.ofNat 32 n) 1 = some p from hp, freshId, h0]
    exact (apply_ite Host.Outcome.next _ _ _).symm
  · show execPacketComplete q n s = _
    simp [execPacketComplete, show pktAt s q (BitVec.ofNat 32 n) = some p from hp, hst, hg, at_]

/-! ### The effects of packets -/

section
variable {s : State} {q n : Nat} {p : Packet}

/-- R334: a wait on a queue's QDONE ends where the position is reached. -/
theorem waitTest_of_queue (hp : running s q (BitVec.ofNat 32 n) 3 = some p) (hs : pktAsleep s q (BitVec.ofNat 32 n) = false)
    (hm : pktMode p.bits = 2) :
    waitTest s q (BitVec.ofNat 32 n) =
      if ((queueOf s (pfld p.bits 64 6)).done - BitVec.ofNat 32 (pfld p.bits 128 32)).toNat < 2 ^ 31 then
        endPacket s q (BitVec.ofNat 32 n) 0 0 else s := by
  simp only [waitTest, hp, hs, hm]
  rfl

theorem waitTest_of_memory (hp : running s q (BitVec.ofNat 32 n) 3 = some p) (hs : pktAsleep s q (BitVec.ofNat 32 n) = false)
    (hm : pktMode p.bits ≠ 2) : waitTest s q (BitVec.ofNat 32 n) = waitMemory s q (BitVec.ofNat 32 n) p.bits := by
  simp [waitTest, hp, hs, hm]

/-- What a signal packet stores at the place it has reached, and whom that wakes. -/
def signalStore (s : State) (q : Nat) (pos : BitVec 32) (segs : List Seg) (w : Who) (v : Nat) : State :=
  endPacket (wakeSpa (giveBytes s w (toBytes v 8) (.mem segs)) ((segs.head?.map segSpa).getD 0)) q pos 0 0

theorem execSignal_of_store {s1 : State} {segs : List Seg} (hp : running s q (BitVec.ofNat 32 n) 4 = some p) (hm : pktMode p.bits ≠ 1)
    (hr : reach s (pktWho s q (BitVec.ofNat 32 n)) (pktAddr p.bits) 8 .write = (.mem segs, s1)) :
    exec (.signal q n) s =
      .next (signalStore s1 q (BitVec.ofNat 32 n) segs (pktWho s q (BitVec.ofNat 32 n)) (pktVal p.bits)) := by
  show execSignal q n s = _
  have store : (pktMode p.bits == 1) = false := beq_eq_false_iff_ne.mpr hm
  simp only [execSignal, hp, store, Bool.false_eq_true, if_false, hr]
  rfl

theorem execSignal_of_add {s1 s2 : State} {segs : List Seg} {got : Got} (hp : running s q (BitVec.ofNat 32 n) 4 = some p)
    (hm : pktMode p.bits = 1) (hr : reach s (pktWho s q (BitVec.ofNat 32 n)) (pktAddr p.bits) 8 .both = (.mem segs, s1))
    (ht : takeBytes s1 (pktWho s q (BitVec.ofNat 32 n)) 8 (.mem segs) = (got, s2)) (hg : got.bad = none) :
    exec (.signal q n) s = .next (signalStore s2 q (BitVec.ofNat 32 n) segs (pktWho s q (BitVec.ofNat 32 n))
      ((ofBytes got.bytes + pktVal p.bits) % 2 ^ 64)) := by
  show execSignal q n s = _
  have add : (pktMode p.bits == 1) = true := beq_iff_eq.mpr hm
  simp only [execSignal, hp, add, if_true, hr, Bool.not_true, Bool.false_eq_true, if_false, ht, hg]
  rfl

end

/-- Settles O39: a wait by its mode, a signal by whether it stores or adds, a migrate request by the page it is at. -/
theorem packetEffects : Obligations.PacketEffects := by
  intro s q n p at_
  refine ⟨fun hp hs hm => ?_, fun hp hs hm => ?_, fun segs s1 hp => ?_, fun hp => ?_⟩
  · intro reached t
    have test := congrArg (Host.Outcome.next (φ := Fault) (ρ := Refusal)) (waitTest_of_queue hp hs hm)
    exact ⟨test, test⟩
  · have test := congrArg (Host.Outcome.next (φ := Fault) (ρ := Refusal)) (waitTest_of_memory hp hs hm)
    exact ⟨test, test⟩
  · intro w store hr
    refine ⟨fun hm => ?_, fun got s2 hm ht hg => ?_⟩
    · rw [if_neg (by simpa using hm)] at hr
      exact execSignal_of_store hp hm hr
    · rw [if_pos (by simpa using hm)] at hr
      exact execSignal_of_add hp hm hr ht hg
  · intro base len pages va
    have hp' : running s q (BitVec.ofNat 32 n) 5 = some p := hp
    refine ⟨fun hl => ?_, fun hl hva => ?_⟩
    · show execMigrateRequest q n s = _
      simp only [execMigrateRequest, hp']
      exact if_pos hl
    · show execMigrateRequest q n s = _
      simp only [execMigrateRequest, hp']
      rw [if_neg (Nat.not_le.mpr hl), if_neg (Nat.not_le.mpr hva)]

/-! ### Service calls and the calls of hub firmware -/

section
variable {s : State} {id : Nat} {c : SysCall}

theorem execFreeTake_of_call (hc : fwCall s id (0x10 :: (List.range 14).map (fun i => 0x12 + i)) = some c) :
    exec (.freeTake id) s = .next (if c.code != 0x10 then fwAnswer s c (BitVec.allOnes 64)
      else match takeFree s (c.arg.toNat % 4) (if c.arg.toNat % 4 == 3 then 0 else c.arg.toNat / 4 % 8) with
        | some (page, s1) => fwAnswer s1 c (BitVec.ofNat 64 page)
        | none => fwAnswer s c (BitVec.allOnes 64)) := by
  show execFreeTake id s = _
  simp only [execFreeTake, hc, nbits, pow_zero, Nat.div_one]
  rw [apply_ite Host.Outcome.next]
  congr 1
  cases takeFree s (c.arg.toNat % 4) (if c.arg.toNat % 4 == 3 then 0 else c.arg.toNat / 4 % 8) <;> rfl

theorem execFreeAdd_of_call (hc : fwCall s id [0x11] = some c) :
    let tier := c.arg.toNat / 2 ^ 27 % 4
    let page := c.arg.toNat % 2 ^ 27
    let prof := if tier == 3 then 0 else c.arg.toNat / 2 ^ 29 % 8
    let out := tier != 3 && (decide (page < profBase s prof) || decide (profBase s prof + profCount (iprof s prof) ≤ page))
    exec (.freeAdd id) s = .next (if pageListed s tier page || pageNamed s tier page || out then fwAnswer s c 1
      else fwAnswer (giveFree s tier prof page) c 0) := by
  show execFreeAdd id s = _
  simp only [execFreeAdd, hc, nbits, pow_zero, Nat.div_one]
  exact (apply_ite Host.Outcome.next _ _ _).symm

theorem execAttest_of_bad (hc : fwCall s id [0x20] = some c) (hb : bufferOk s c.arg.toNat = false) :
    exec (.attest id) s = .next (fwAnswer s c 1) := by
  show execAttest id s = _
  simp [execAttest, hc, hb]

theorem execAttest_of_good {s1 : State} (hc : fwCall s id [0x20] = some c) (hb : bufferOk s c.arg.toNat = true)
    (hw : hubWaits s c.arg.toNat 32 = false)
    (hput : hubPut (hubRead s 0 c.arg.toNat 32).2 0 c.arg.toNat false
      (attestReport (hubRead s 0 c.arg.toNat 32).2 (hubRead s 0 c.arg.toNat 32).1) = (true, s1)) :
    exec (.attest id) s = .next (fwAnswer s1 c 0) := by
  show execAttest id s = _
  simp [execAttest, hc, hb, hw, hput]

theorem execExtend_of_low (hc : fwCall s id [0x21] = some c) (hn : c.arg.toNat % 8 < 3) :
    exec (.extend id) s = .next (fwAnswer s c 1) := by
  show execExtend id s = _
  simp [execExtend, hc, nbits, hn]

theorem execExtend_of_waits (hc : fwCall s id [0x21] = some c) (hn : 3 ≤ c.arg.toNat % 8)
    (hw : hubWaits s (c.arg.toNat / 64 % 2 ^ 46 * 64) 64 = false) :
    let r := hubRead s 0 (c.arg.toNat / 64 % 2 ^ 46 * 64) 64
    exec (.extend id) s = .next (fwAnswer (extendMeas r.2 (c.arg.toNat % 8) r.1) c 0) := by
  show execExtend id s = _
  simp only [execExtend, hc, nbits, pow_zero, Nat.div_one]
  rw [show (2 : Nat) ^ 3 = 8 from rfl, show (2 : Nat) ^ 6 = 64 from rfl, if_neg (Nat.not_lt.mpr hn), if_neg (ne_true_of_eq_false hw)]

end

/-- Settles O40: the calls of the hub firmware by the lemmas above, the others by the branch that is taken. -/
theorem callSteps : Obligations.CallSteps := by
  intro s id q n c
  refine ⟨fun s1 hc hq hpl hf hr => ?_, fun p hp hv hc => ?_, fun d s1 hd hrd hon hf hr => ?_, execFreeTake_of_call, execFreeAdd_of_call,
    fun hc => ?_, fun hc => ?_, fun hc => ?_⟩
  · show execServiceCall id s = _
    simp [execServiceCall, hc, hq, hpl, hf, hr]
  · show execServiceReply q n s = _
    simp [execServiceReply, hp, hv, hc]
  · show execDeferredAppend q n s = _
    simp [execDeferredAppend, hd, hrd, hon, hf, hr]
  · exact ⟨execAttest_of_bad hc, fun s1 => execAttest_of_good hc⟩
  · exact ⟨execExtend_of_low hc, execExtend_of_waits hc⟩
  · intro slot spa r
    refine ⟨fun hs => ?_, fun hs hw => ?_⟩
    · show execKeyset id s = _
      simp [execKeyset, hc, nbits, show c.arg.toNat % 64 = 0 from hs]
    · show execKeyset id s = _
      simp only [execKeyset, hc, nbits, pow_zero, Nat.div_one, show (2 : Nat) ^ 6 = 64 from rfl, show (2 : Nat) ^ 7 = 128 from rfl]
      rw [if_neg (by simpa using hs), if_neg (ne_true_of_eq_false hw)]

end Sys2Proof.Claims

/-!
# Writes of the hub's register window

A permitted write has its effect (R150, R312, R313, R327, R328, R416 to R440),
and one that its writer may not make changes nothing (R306, R309,
R313, R366, R372, R433). Each write asks `winAllowed` first, so both statements follow the branches of the write's own definition.
-/

namespace Sys2Proof.Claims

open Sys2Proof Sys2Proof.Machine

/-! ### Permitted writes -/

/-- The state after a write of register `i` of profile `n`. -/
def profilePut (s : State) (n i : Nat) (x : DWord) : State := { s with hub := { s.hub with profiles := sset s.hub.profiles (8 * n + i) x } }

section
variable {s : State} {w : Writer} {n : Nat} {v : BitVec 64}

theorem qcfgWrite_allowed (ha : winAllowed s w (.queue n 0) true = true) (hl : v.toNat / 2 ^ 32 % 4 ≠ 3) :
    let x := queueOf s n
    let new := if queueOn x then (x.cfg &&& ~~~(1 : DWord)) ||| (v &&& 1) else v &&& qcfgBits
    (new.getLsbD 0 = true → queueOn x = false → ctxPart s (new.toNat / 2 ^ 34 % 2 ^ 12) = queuePart s n) →
      exec (.qcfgWrite w n v) s = .next (putQueue s n { setEnable s x (new.getLsbD 0) with cfg := new }) := by
  intro x new hpart
  have native : (new.getLsbD 0 && !queueOn x && ctxPart s (nbits new.toNat 34 12) != queuePart s n) = false := by
    cases hen : new.getLsbD 0
    · rfl
    · cases hon : queueOn x
      · simpa [nbits] using hpart hen hon
      · rfl
  have level : (nbits v.toNat 32 2 == 3) = false := beq_eq_false_iff_ne.mpr hl
  show execQcfgWrite w n v s = _
  simp only [execQcfgWrite, ha, level]
  exact if_neg (by rw [native]; decide)

/-- R416: the registers of a profile but its first are written only while the profile is not valid. -/
theorem iprofWrite_allowed {i : Nat} (ha : winAllowed s w (.prof n i) true = true) (hi : i ≠ 0) :
    exec (.iprofWrite w n i v) s = .next (if nbits (iprof s n) 26 1 == 1 then s else profilePut s n i (v &&& profBits i)) := by
  show execIprofWrite w n i v s = _
  simp only [execIprofWrite, ha, Bool.not_true, Bool.false_eq_true, if_false, bne_iff_ne, ne_eq, hi, not_false_eq_true, if_true]
  exact (apply_ite Host.Outcome.next _ _ _).symm

/-- R416: the first register of a profile that is not valid takes VALID only where the profile's checks hold. -/
theorem iprofWrite_first_of_invalid (ha : winAllowed s w (.prof n 0) true = true) (hv : nbits (iprof s n) 26 1 = 0) :
    exec (.iprofWrite w n 0 v) s = .next (profilePut s n 0
      (if (v &&& profBits 0).getLsbD 26 && !profileFits s n (v &&& profBits 0).toNat then (v &&& profBits 0) &&& ~~~(0x4000000 : DWord)
        else v &&& profBits 0)) := by
  show execIprofWrite w n 0 v s = _
  simp only [execIprofWrite, ha, hv]
  rfl

/-- R416: a valid profile changes in VALID alone, while no context names it. -/
theorem iprofWrite_first_of_valid (ha : winAllowed s w (.prof n 0) true = true) (hv : nbits (iprof s n) 26 1 = 1) :
    exec (.iprofWrite w n 0 v) s = .next
      (if (v &&& profBits 0) &&& ~~~(0x4000000 : DWord) != sget s.hub.profiles (8 * n) &&& ~~~(0x4000000 : DWord)
          || (v &&& profBits 0).getLsbD 26 || s.hub.ctxs.any (fun c => nbits c.2.qos.toNat 0 3 == n) then s
        else profilePut s n 0 (v &&& profBits 0)) := by
  show execIprofWrite w n 0 v s = _
  simp only [execIprofWrite, ha, hv]
  exact (apply_ite Host.Outcome.next _ _ _).symm

/-- R416: no context names the profile. -/
theorem profile_named_eq_false : s.hub.ctxs.any (fun c => nbits c.2.qos.toNat 0 3 == n) = false ↔ ∀ c ∈ s.hub.ctxs,
    c.2.qos.toNat % 8 ≠ n := by
  simp [nbits]

end

/-- Settles O41: the rows with checks of their own by the lemmas above, the others by the branch of their definition that is taken. -/
theorem registerWrites : Obligations.RegisterWrites := by
  intro s w n v prof p0 held bare free x new c port l2
  refine ⟨fun ha => ?_, qcfgWrite_allowed, fun ha => ?_, fun hl hs => ?_, fun ha => ?_, fun ha hq => ?_, fun i ha hi hv => ?_,
    fun i ha hi hv => ?_, fun ha hv => ?_, fun ha hv => ?_, fun ha hv => ?_, fun ha hv hc => ?_, fun ha hp => ?_, fun ha hv hf => ?_⟩
  · exact congrArg (Host.Outcome.next (φ := Fault) (ρ := Refusal)) (if_pos ha)
  · show execHintbudWrite w n v s = _
    simp only [execHintbudWrite, ha, ctxRegWrite, nbits, pow_zero, Nat.div_one, if_true]
  · have refuses : (w.level == .s && ctxHeld s c && (ctxOf s c).vmid != w.vmid) = false := by
      cases hw : (w.level == .s && ctxHeld s c)
      · rfl
      · obtain ⟨hw, hc⟩ := Bool.and_eq_true_iff.mp hw
        simpa using hs (beq_iff_eq.mp hw) hc
    show execWwend w v s = _
    simp only [execWwend, ctxRegWrite, nbits, pow_zero, Nat.div_one]
    exact if_neg (by rw [hl]; exact ne_true_of_eq_false refuses)
  · exact congrArg (Host.Outcome.next (φ := Fault) (ρ := Refusal)) (if_pos ha)
  · show execCtxqosWrite w n v s = _
    simp [execCtxqosWrite, ha, hq]
  · rw [iprofWrite_allowed ha hi, if_neg (by simp [hv])]
    rfl
  · rw [iprofWrite_allowed ha hi, if_pos (by simp [hv])]
  · rw [iprofWrite_first_of_invalid ha hv]
    refine ⟨fun hfit => ?_, fun hset hfit => ?_⟩
    · rcases hfit with hclear | hfit
      · rw [if_neg (by rw [show (v &&& profBits 0).getLsbD 26 = false from hclear]; exact Bool.false_ne_true)]
        rfl
      · rw [if_neg (by rw [show profileFits s n (v &&& profBits 0).toNat = true from hfit]; simp)]
        rfl
    · rw [if_pos (by
        rw [show (v &&& profBits 0).getLsbD 26 = true from hset, show profileFits s n (v &&& profBits 0).toNat = false from hfit]; rfl)]
      rfl
  · rw [iprofWrite_first_of_valid ha hv]
    have refuses : (bare p0 != bare held || p0.getLsbD 26 || s.hub.ctxs.any (fun c => nbits c.2.qos.toNat 0 3 == n)) = true
        ↔ p0.getLsbD 26 = true ∨ bare p0 ≠ bare held ∨ ¬free := by
      rw [show free ↔ _ from profile_named_eq_false.symm]
      simp only [Bool.or_eq_true, bne_iff_ne, Bool.not_eq_false]
      tauto
    refine ⟨fun hclear hsame hfree => ?_, fun hbad => congrArg _ (if_pos (refuses.mpr hbad))⟩
    refine congrArg _ (if_neg fun hbad => ?_)
    rcases refuses.mp hbad with hset | hdiff | hnamed
    · exact Bool.false_ne_true (hclear.symm.trans hset)
    · exact hdiff hsame
    · exact hnamed hfree
  · show execL2bktWrite w n v s = _
    have kept : (v.getLsbD 34 && !classValid s n) = false := by
      rcases hv with hv | hv
      · rw [hv, Bool.false_and]
      · rw [hv, Bool.not_true, Bool.and_false]
    simp only [execL2bktWrite, ha, kept]
    rfl
  · show execL2bktWrite w n v s = _
    simp only [execL2bktWrite, ha, hv, hc]
    rfl
  · intro bits
    show execPortWrite w n v s = _
    simp only [execPortWrite, ha, show (sget s.plat.ports n).getLsbD 2 = false from hp, nbits, pow_zero, Nat.div_one, beq_iff_eq]
    rfl
  · show execFwctlSwitch w v s = _
    simp [execFwctlSwitch, ha, hv, hf]

/-! ### Writes that are not permitted -/

section
variable {s : State} {w : Writer} {n i : Nat} {v : BitVec 64} {id : BitVec 32}

/-- A write that reaches nothing: the condition under which it acts does not hold. -/
theorem next_ite_of_false {b : Bool} (hb : b = false) (t : State) :
    Host.Outcome.next (φ := Fault) (ρ := Refusal) (if b then t else s) = .next s :=
  congrArg _ (if_neg (ne_true_of_eq_false hb))

/-- A record is not acted on, so that the three actions on it change nothing. -/
theorem trapacts_of_not_mayAct (h : ∀ t, trapInfoOf s id.toNat = some t → mayAct s w t = false) :
    exec (.trapactResume w id) s = .next s ∧ exec (.trapactSkip w id) s = .next s ∧ exec (.trapactEnd w id) s = .next s := by
  have unmoved : ∀ act, trapAct s w id.toNat act = s := fun act => by
    unfold trapAct
    split
    · rfl
    · next t ht => exact if_pos (by rw [h t ht]; rfl)
  refine ⟨congrArg _ (unmoved 0), congrArg _ (unmoved 1), ?_⟩
  show execTrapactEnd w id s = _
  unfold execTrapactEnd
  split
  · rfl
  · next t ht => exact if_pos (by rw [h t ht]; rfl)

theorem trapacts_of_not_allowed (ha : winAllowed s w .trapact true = false) :
    exec (.trapactResume w id) s = .next s ∧ exec (.trapactSkip w id) s = .next s ∧ exec (.trapactEnd w id) s = .next s :=
  trapacts_of_not_mayAct fun t _ => by simp [mayAct, ha]

/-- R378: a request that its writer may not make, or for a context outside its reach, changes nothing. -/
theorem preemptRequest_of_refused {ctx : Nat} (restore : Bool)
    (h : winAllowed s w .preempt true = false ∨ (levelGe w.level .h || (ctxOf s ctx).vmid == w.vmid) = false) :
    preemptRequest s w ctx restore = s := by
  simp only [preemptRequest]
  refine if_pos ?_
  rcases h with h | h
  · rw [h]; rfl
  · rw [h, Bool.not_false, Bool.or_true]

/-- R433: nothing of the window is written at U. -/
theorem winAllowed_of_u (r : WinReg) (hu : w.level = .u) : winAllowed s w r true = false := by
  simp [winAllowed, hu]

end

/-- R309: a writer below H that stands in another guest does not reach a context. -/
theorem own_eq_false {s : State} {w : Writer} {n : Nat} (hl : levelGe w.level .h = false) (hv : (ctxOf s n).vmid ≠ w.vmid) :
    (levelGe w.level .h || (ctxOf s n).vmid == w.vmid) = false := by
  simp [hl, hv]

/-- Settles O42: each write asks for its permission first. -/
theorem registerWritesRefused : Obligations.RegisterWritesRefused := by
  intro s w n i v id c unread acts
  refine ⟨fun ha => next_ite_of_false ha _, fun ha => ?_,
    fun ha => next_ite_of_false ha _, fun ha => next_ite_of_false ha _,
    fun ha => if_pos (by rw [ha]; rfl), fun ha => if_pos (by rw [ha]; rfl), fun ha => if_pos (by rw [ha]; rfl),
    fun ha => if_pos (by rw [ha]; rfl),
    fun ha => ⟨next_ite_of_false ha _, next_ite_of_false ha _⟩, fun ha => next_ite_of_false (by rw [ha]; rfl) _,
    fun ha => ⟨congrArg _ (preemptRequest_of_refused false (.inl ha)), congrArg _ (preemptRequest_of_refused true (.inl ha))⟩,
    fun ha => if_pos (by rw [ha]; rfl), fun ha => next_ite_of_false (by rw [ha]; rfl) _, trapacts_of_not_allowed,
    fun hn => trapacts_of_not_mayAct fun t ht => (Option.some_ne_none t (ht.symm.trans hn)).elim,
    fun t ht hre => trapacts_of_not_mayAct fun t' ht' => ?_, fun hl => if_pos (by rw [hl]; rfl), fun hl => if_pos (by rw [hl]; rfl),
    fun hl => if_pos (by rw [hl]; rfl), fun hw hc hv => if_pos ?_, fun hl hv => ⟨next_ite_of_false ?_ _,
      congrArg _ (preemptRequest_of_refused false (.inr (own_eq_false hl hv))),
      congrArg _ (preemptRequest_of_refused true (.inr (own_eq_false hl hv)))⟩, winAllowed_of_u _⟩
  · show execQcfgWrite w n v s = _
    simp [execQcfgWrite, ha]
  · obtain rfl := Option.some.inj (ht.symm.trans ht')
    simp [mayAct, hre]
  · have hc' : ctxHeld s (nbits v.toNat 0 12) = true := by simpa [nbits, c] using hc
    have hv' : (ctxOf s (nbits v.toNat 0 12)).vmid ≠ w.vmid := by simpa [nbits, c] using hv
    simp [hw, hc', hv']
  · rw [own_eq_false hl hv, Bool.and_false]

end Sys2Proof.Claims

/-!
# Traps, contexts, pages and the cut

Actions on trap records and the ends of contexts (R330, R361, R366, R370 to R377, R444), saves and restores (R378 to R384),
moves of pages and the
accesses of other packages (R388 to R405), the hand-over of a pool page (R403 to R409), and changes of the cut (R414, R429, R430).
-/

namespace Sys2Proof.Claims

open Sys2Proof Sys2Proof.Machine

/-! ### Actions on trap records -/

section
variable {s : State} {w : Writer} {id : BitVec 32} {t : TrapInfo} (ht : trapInfoOf s id.toNat = some t) (hm : mayAct s w t = true)
include ht hm

/-- R372: END of a record that stops an agent ends a context. -/
theorem trapactEnd_of_agent (hl : t.loose = false) :
    exec (.trapactEnd w id) s =
      .next (if t.agent < 64 then endContext (retireTrap s t) (queueCtx s t.agent) else endContext s t.ctx) := by
  show execTrapactEnd w id s = _
  simp only [execTrapactEnd, ht, hm, hl]
  exact (apply_ite Host.Outcome.next _ _ _).symm

/-- R330: an action on a record that stops no agent only retires it. -/
theorem trapactEnd_of_loose (hl : t.loose = true) : exec (.trapactEnd w id) s = .next (retireTrap s t) := by
  show execTrapactEnd w id s = _
  simp only [execTrapactEnd, ht, hm, hl]
  rfl

theorem trapAct_of_loose (act : Nat) (hl : t.loose = true) : trapAct s w id.toNat act = retireTrap s t := by
  simp [trapAct, ht, hm, hl]

/-- R372: the record of an agent of a saved context is acted on at its restore. -/
theorem trapAct_of_saved (act : Nat) (hl : t.loose = false) (hs : ctxSaved s t.ctx = true) (ha : 64 ≤ t.agent) :
    trapAct s w id.toNat act = holdAct s t act := by
  simp [trapAct, ht, hm, hl, hs, ha]

theorem trapAct_of_present (act : Nat) (hl : t.loose = false) (hs : ctxSaved s t.ctx = false ∨ t.agent < 64) :
    trapAct s w id.toNat act = if act == 0 then resumeTrap s t else skipTrap s t := by
  have here : (ctxSaved s t.ctx && decide (64 ≤ t.agent)) = false := by
    rcases hs with hs | hs
    · simp [hs]
    · simp [Nat.not_le.mpr hs]
  simp [trapAct, ht, hm, hl, here]

end

/-- R373: SKIP of a trap that arises from the header has no effect. -/
theorem skipTrap_of_header {s : State} {t : TrapInfo} (h : headerTrap t = true) : skipTrap s t = s := if_pos h

/-- R330: no agent waits for a record that stops none. -/
theorem retireTrap_of_no_agent {s : State} {t : TrapInfo} (h : aget s.agents t.agent = none) :
    retireTrap s t = { s with hub := { s.hub with traps := s.hub.traps.filter (fun x => x.id != t.id) } } := by
  simp [retireTrap, modAgent, h]

/-- R330, R371: the record of a completion record that stage 1 refuses names nobody's agent. -/
theorem sigRefused_eq_postRecord (s : State) (q va : Nat) : ∃ info s1 bits,
    sigRefused s q va = postRecord s1 (if queueCtx s q == 0 then .hypTrap else .trap (queueCtx s q)) bits none
      ∧ s1.hub.traps = s.hub.traps ++ [info] ∧ info.loose = true ∧ info.ctx = queueCtx s q ∧ info.agent = s.nextId
      ∧ s1.agents = s.agents :=
  ⟨_, _, _, rfl, rfl, rfl, rfl, rfl, rfl⟩

/-- Settles O43: `mayAct` holds of a record that is reached and posted, and each action takes the branch for it. -/
theorem trapActions : Obligations.TrapActions := by
  intro s w id ctx v t q
  refine ⟨fun ht ha hre hh => ?_, fun n va hn => ?_, fun ha ho => ?_, rfl, fun hp => ?_, fun hl => if_neg (by rw [hl]; decide),
    fun hl => if_neg (by rw [hl]; decide), rfl⟩
  · have hm : mayAct s w t = true := by simp [mayAct, ha, hre, hh]
    refine ⟨fun hl => ⟨fun hag => ?_, fun hag => ?_, fun hs => ⟨?_, fun hd => ?_, fun hd => ?_⟩, fun hs hag => ⟨?_, ?_⟩⟩,
      fun hl hag => ?_⟩
    · rw [trapactEnd_of_agent ht hm hl, if_pos hag]
    · rw [trapactEnd_of_agent ht hm hl, if_neg (Nat.not_lt.mpr hag)]
    · exact congrArg _ (trapAct_of_present ht hm 0 hl hs)
    · exact congrArg _ (trapAct_of_present ht hm 1 hl hs)
    · exact congrArg _ ((trapAct_of_present ht hm 1 hl hs).trans (skipTrap_of_header hd))
    · exact congrArg _ (trapAct_of_saved ht hm 0 hl hs hag)
    · exact congrArg _ (trapAct_of_saved ht hm 1 hl hs hag)
    · intro gone
      have retired := retireTrap_of_no_agent hag
      exact ⟨congrArg _ ((trapAct_of_loose ht hm 0 hl).trans retired), congrArg _ ((trapAct_of_loose ht hm 1 hl).trans retired),
        (trapactEnd_of_loose ht hm hl).trans (congrArg _ retired)⟩
  · intro c
    obtain ⟨info, s1, bits, posted, traps, loose, owner, agent, agents⟩ := sigRefused_eq_postRecord s n va
    exact ⟨info, s1, bits, posted, traps, loose, owner, agents, agent ▸ hn⟩
  · refine congrArg (Host.Outcome.next (φ := Fault) (ρ := Refusal)) (if_pos ?_)
    rw [ha, Bool.true_and]
    simpa using ho
  · show execFlitHeaderError ctx s = _
    simp only [execFlitHeaderError, hp]
    rfl

/-! ### Saves and restores -/

section
variable {s : State} {w : Writer} {ctx : Nat} {p : Preempt}

/-- R378: a request that its writer may make and that nothing refuses begins. -/
theorem preemptRequest_begins {restore : Bool} (ha : winAllowed s w .preempt true = true)
    (ho : levelGe w.level .h = true ∨ (ctxOf s ctx).vmid = w.vmid) (hr : requested s ctx = false)
    (hs : (if restore then !ctxSaved s ctx else ctxSaved s ctx || !ctxHeld s ctx) = false) :
    preemptRequest s w ctx restore =
      { s with hub := { s.hub with preempts := s.hub.preempts ++ [{ ctx := ctx, restore := restore, since := s.cycles }] } } := by
  have own : (levelGe w.level .h || (ctxOf s ctx).vmid == w.vmid) = true := by simpa using ho
  simp only [preemptRequest, ha, own, hr, hs]
  rfl

/-- R379 to R381: a save whose work is at rest is written and freed. -/
theorem execSaveComplete_of_ready (hq : requestOf s ctx false = some p) (hr : saveReady s ctx = true) :
    let s1 := findSaved (settleCtx s ctx) ctx
    exec (.saveComplete ctx) s = .next (endRequest (freeCtx (writeArea s1 (takeSaved s1 ctx)) (takeSaved s1 ctx)) p 0) := by
  show execSaveComplete ctx s = _
  simp only [execSaveComplete, hq, hr]
  rfl

/-- R383, R384: how a restore ends whose area has been read. -/
def restoreEnds (t : State) (p : Preempt) (x : Saved) : Out :=
  if !areaGood t x then .next (endRequest t p 2)
  else match restoreMap t x with
    | none => .next (endRequest t p 1)
    | some m =>
      if !mapGood t x m then .next (endRequest t p 1)
      else match restoreCtx t x m with
        | some s1 => .next (endRequest s1 p 0)
        | none => .next t

section
variable {t : State} {x : Saved}

theorem restoreEnds_of_changed (hgood : areaGood t x = false) : restoreEnds t p x = .next (endRequest t p 2) :=
  if_pos (by rw [hgood]; rfl)

variable {m : List (Nat × Nat)} (hgood : areaGood t x = true) (hmap : restoreMap t x = some m)
include hgood hmap

theorem restoreEnds_of_bad_map (hrule : mapGood t x m = false) : restoreEnds t p x = .next (endRequest t p 1) := by
  simp [restoreEnds, hgood, hmap, hrule]

theorem restoreEnds_of_fit {s1 : State} (hrule : mapGood t x m = true) (hfit : restoreCtx t x m = some s1) :
    restoreEnds t p x = .next (endRequest s1 p 0) := by
  simp [restoreEnds, hgood, hmap, hrule, hfit]

end

/-- A page that the hub can read as a whole now is reachable. -/
theorem routeOf_of_not_pageWaits {n : Nat} (h : pageWaits s n = false) : routeOf s 3 (n * 2 ^ 19) 1 = .go := by
  simp only [pageWaits, Bool.or_eq_false_iff, bne_eq_false_iff_eq] at h
  exact h.1

/-- R382: a restore whose partition is quiet and whose area the hub can read goes on to the area's checks. -/
theorem execRestoreComplete_of_readable {x : Saved} (hq : requestOf s ctx true = some p)
    (hx : s.hub.saved.find? (fun x => x.ctx == ctx) = some x)
    (hquiet : ∀ q < 4, partOfQuarter s.hub.partCfg q = ctxPart s ctx → quarterBusy s q = false) (hputs : s.hub.puts = [])
    (hheld : hubHeld s = false) (hpages : ∀ n ∈ areaPages s x, pageWaits s n = false) :
    exec (.restoreComplete ctx) s = restoreEnds (touchArea s x) p x := by
  have quiet : (List.range 4).any (fun q => quarterBusy s q && partOfQuarter s.hub.partCfg q == ctxPart s ctx) = false := by
    refine List.any_eq_false.mpr fun q hr => ?_
    rw [Bool.and_eq_true, beq_iff_eq]
    rintro ⟨hb, hpart⟩
    exact Bool.false_ne_true ((hquiet q (List.mem_range.mp hr) hpart).symm.trans hb)
  have reachable : (areaPages s x).any (fun n => routeOf s 3 (n * 2 ^ 19) 1 == .bad) = false :=
    List.any_eq_false.mpr fun n hn => by rw [routeOf_of_not_pageWaits (hpages n hn)]; decide
  have readable : (areaPages s x).any (pageWaits s) = false :=
    List.any_eq_false.mpr fun n hn => ne_true_of_eq_false (hpages n hn)
  show execRestoreComplete ctx s = _
  simp only [execRestoreComplete, hq, hx, quiet, hputs, hheld, reachable, readable]
  rfl

end

/-- Settles O44: the requests and the save by their own lemmas; a restore goes on to `restoreEnds` once its area can be read. -/
theorem preemption : Obligations.Preemption := by
  intro s w ctx p own ask
  refine ⟨fun ha ho hr hs hh => ?_, fun ha ho hr hs => ?_, execSaveComplete_of_ready, fun x hq hx hquiet hputs hheld hpages => ?_⟩
  · exact congrArg (Host.Outcome.next (φ := Fault) (ρ := Refusal)) (preemptRequest_begins (restore := false) ha ho hr (by simp [hs, hh]))
  · exact congrArg (Host.Outcome.next (φ := Fault) (ρ := Refusal)) (preemptRequest_begins (restore := true) ha ho hr (by simp [hs]))
  · intro t
    rw [execRestoreComplete_of_readable hq hx hquiet hputs hheld hpages]
    exact ⟨restoreEnds_of_changed, fun m hgood hmap => ⟨restoreEnds_of_bad_map hgood hmap, fun s1 => restoreEnds_of_fit hgood hmap⟩⟩

end Sys2Proof.Claims

/-!
# Pages and the cut of the package

Moves, the policy pass and the accesses of other packages (R388 to R405), the hand-over of a pool page (R403 to R409),
and changes of the cut (R414,
R429, R430).
-/

namespace Sys2Proof.Claims

open Sys2Proof Sys2Proof.Machine

/-- The outcomes of equal states are equal. -/
theorem next_congr {s t : State} (h : s = t) : (Host.Outcome.next s : Out) = .next t := h ▸ rfl

/-! ### Moves, the policy pass and back-invalidations -/

section
variable {s : State} {page n : Nat} {f : Forward}

/-- R395: the oldest move that has not begun copying starts, where its page still meets the conditions of a move. -/
theorem moveStart_of_first (hf : s.mem.forwards.find? (fun f => !f.begun) = some f) (hp : f.page = page)
    (hn : (s.mem.forwards.filter (fun f => f.begun)).length < 8) (ht : peTier (pageEntry s page) ≠ 3) :
    moveStart s page = if mayMove s page f.dstTier.toNat then
      closeLine (setEntryHw s page (eset (pageEntry s page) 29 3 1)) { f with begun := true } 0 else moveCancel s page := by
  have hc : ¬ Config.copies ≤ (s.mem.forwards.filter (fun f => f.begun)).length := Nat.not_le.mpr hn
  cases hm : mayMove s page f.dstTier.toNat <;> simp [moveStart, hf, hp, hc, poolMovable, ht, hm]

/-- The lines of 16 bytes that a write fills: a write of one byte fills none. -/
theorem filled_lines_of_byte :
    (List.range 8).filter (fun i => (List.range 16).all (fun j => [((0 : Nat), (1 : Byte))].any (fun p => p.1 == 16 * i + j))) = [] := by
  decide

theorem filled_lines_of_nil :
    (List.range 8).filter (fun i => (List.range 16).all (fun j => ([] : List (Nat × Byte)).any (fun p => p.1 == 16 * i + j))) = [] := by
  decide

section
variable (ht : peTier (pageEntry s page) = 3) (hst : peState (pageEntry s page) < 4) (hu : poolUp s = true)
include ht hst hu

/-- R405: another package's access without a write recalls the line. -/
theorem backInvalidate_of_read :
    let spa := page * 2 ^ 19 + n % 4096 * 128
    let s1 := recallLine s (spa / 128)
    exec (.backInvalidate page n []) s = .next (if copyHeld s (spa / 128) then countPage s1 page 3 else s1) := by
  show execBackInvalidate page n [] s = _
  simp only [execBackInvalidate]
  rw [if_neg (by simp [ht, hu, hst])]
  simp only [List.filter_nil, filled_lines_of_nil]
  rfl

theorem backInvalidate_of_byte :
    let spa := page * 2 ^ 19 + n % 4096 * 128
    let s0 := keepCode s (lineSlot s spa) spa 128
    let s1 := recallLine s0 (spa / 128)
    let s2 := if copyHeld s (spa / 128) then countPage s1 page 3 else s1
    exec (.backInvalidate page n [(0, 1)]) s = .next (breakReservations (rawWrite s2 (spaLoc s2 (spa + 0)) 1) spa 128) := by
  have bytes : [((0 : Nat), (1 : Byte))].filter (fun p => decide (p.1 < 128)) = [(0, 1)] := rfl
  show execBackInvalidate page n [(0, 1)] s = _
  simp only [execBackInvalidate]
  rw [if_neg (by simp [ht, hu, hst])]
  simp only [bytes, filled_lines_of_byte, List.isEmpty_cons, List.foldl_cons, List.foldl_nil, Bool.false_eq_true, if_false]

end

end

/-- Settles O45: each event takes the branch that its hypotheses select. -/
theorem pageEvents : Obligations.PageEvents := by
  intro s page n f l e
  refine ⟨fun hf hp hn ht => ⟨fun hm => ?_, fun hm => ?_⟩, fun hf hb => ?_, fun hpol => ?_, fun hpol => ?_, fun e' he hst => ?_,
    fun e' he hst => ?_, backInvalidate_of_read, fun ht hst hu hl => ?_, fun hu => if_pos ?_⟩
  · exact next_congr ((moveStart_of_first hf hp hn ht).trans (if_pos hm))
  · exact next_congr ((moveStart_of_first hf hp hn ht).trans (if_neg (ne_true_of_eq_false hm)))
  · show execMoveLineCopy page s = _
    simp [execMoveLineCopy, hf, hb]
  · show execPolicyPass n s = _
    simp only [execPolicyPass, hpol] <;> rfl
  · show execPolicyPass n s = _
    simp only [execPolicyPass, hpol] <;> rfl
  · show execLocationWriteback page s = _
    simp [execLocationWriteback, he, hst]
  · show execLocationWriteback page s = _
    simp [execLocationWriteback, he, hst]
  · subst hl
    exact backInvalidate_of_byte ht hst hu
  · rw [hu, Bool.not_false, Bool.or_true]

/-! ### The hand-over of a pool page -/

/-- R407: the state after the owner has read the record `r` of a page that another package claims. -/
def claimAnswer (page : Nat) (pkg : BitVec 5) (e : BitVec 128) (r : Nat × State) : State :=
  let s2 := if ownState r.1 == 0 then ownWrite r.2 (pePage e) (claimedBy r.1 pkg.toNat) else r.2
  let s3 := setHand s2 page false .asked
  if !(ownOwner r.1 == pkgNum r.2 && ownShared r.1) || decide (1 < ownState r.1) || (ownState r.1 == 1 && ownClaimer r.1 != pkg.toNat)
    then r.2 else if pePins e == 0 then s3 else requestRecord s3 page pkg

/-- R407: the state after the claimer has read the record `r` of the page. -/
def claimSeen (page : Nat) (e : BitVec 128) (r : Nat × State) : State :=
  let mine := ownState r.1 == 1 && ownClaimer r.1 == pkgNum r.2
  let s2 := if mine then ownWrite r.2 (pePage e) (ownHand r.1 (pkgNum r.2) 2) else r.2
  if mine || (decide (2 ≤ ownState r.1) && ownOwner r.1 == pkgNum r.2) then
    setHand (setEntryHw s2 page (eset e 29 3 2)) page true .released else r.2

section
variable {page : Nat} {pkg : BitVec 5} {e : BitVec 128} {r : Nat × State}

theorem claimAnswer_of_free (ho : ownOwner r.1 = pkgNum r.2) (hsh : ownShared r.1 = true) (hfree : ownState r.1 = 0) :
    let s3 := setHand (ownWrite r.2 (pePage e) (claimedBy r.1 pkg.toNat)) page false .asked
    claimAnswer page pkg e r = if pePins e == 0 then s3 else requestRecord s3 page pkg := by
  simp [claimAnswer, ho, hsh, hfree]

theorem claimAnswer_of_claimed (ho : ownOwner r.1 = pkgNum r.2) (hsh : ownShared r.1 = true) (hst : ownState r.1 = 1) :
    let s3 := setHand r.2 page false .asked
    claimAnswer page pkg e r =
      if ownClaimer r.1 = pkg.toNat then (if pePins e == 0 then s3 else requestRecord s3 page pkg) else r.2 := by
  by_cases hc : ownClaimer r.1 = pkg.toNat <;> simp [claimAnswer, ho, hsh, hst, hc]

theorem claimSeen_of_owner (hst : ownState r.1 = 2 ∨ ownState r.1 = 3) (ho : ownOwner r.1 = pkgNum r.2) :
    claimSeen page e r = setHand (setEntryHw r.2 page (eset e 29 3 2)) page true .released := by
  rcases hst with hst | hst <;> simp [claimSeen, hst, ho]

theorem claimSeen_of_claimer (hst : ownState r.1 = 1) (hc : ownClaimer r.1 = pkgNum r.2) :
    claimSeen page e r =
      setHand (setEntryHw (ownWrite r.2 (pePage e) (ownHand r.1 (pkgNum r.2) 2)) page (eset e 29 3 2)) page true .released := by
  simp [claimSeen, hst, hc]

end

/-- R409: a page of a failed owner that no access passes is frozen. -/
theorem takePage_of_free {s : State} {p : Nat} (hp : passedOn s p = false) :
    takePage s p = setHand (setEntryHw s p (eset (pageEntry s p) 29 3 2)) p true .released :=
  if_neg (ne_true_of_eq_false hp)

section
variable {s : State} {page : Nat} {h : Handover} (hu : poolUp s = true)
include hu

/-- R406: a claim is written where the page is shared and nobody claims it. -/
theorem claimTry_of_free (hc : claimOf s page = some h) (hst : h.step = .claiming) (he : peState (pageEntry s page) = 3)
    (hsh : ownShared (ownRead s (pePage (pageEntry s page))).1 = true) (hfree : ownState (ownRead s (pePage (pageEntry s page))).1 = 0) :
    let r := ownRead s (pePage (pageEntry s page))
    claimTry s page =
      setHand (ownWrite r.2 (pePage (pageEntry s page)) (claimedBy r.1 (pkgNum r.2))) page true .claimed := by
  simp [claimTry, hc, hst, he, hu, hsh, hfree]

/-- R407: how the owner answers a claim of a package, by what the ownership record `r` of the page's entry `e` says. -/
theorem execClaimDetect_of_own {pkg : BitVec 5} (hv : pageValid s page = true) (hst : peState (pageEntry s page) = 0)
    (ht : peTier (pageEntry s page) = 3) (hg : givingOf s page = none) :
    exec (.claimDetect page pkg) s =
      .next (claimAnswer page pkg (pageEntry s page) (ownRead s (pePage (pageEntry s page)))) := by
  show execClaimDetect page pkg s = _
  simp only [execClaimDetect]
  rw [if_neg (by simp [hv, hst, ht, hg, hu])]
  exact (apply_ite Host.Outcome.next _ _ _).symm

/-- R407: the owner gives a page up: its lines are recalled, its record names the claimer, and its notes and pins are gone. -/
theorem execHandoverRelease_of_frozen (hg : givingOf s page = some h) (hst : h.step = .frozen) :
    let s1 := (pageLines s page).foldl recallLine s
    let e1 := pageEntry s1 page
    let o := ownRead s1 (pePage e1)
    let s4 := setEntryHw (ownWrite o.2 (pePage e1) (ownHand o.1 (ownClaimer o.1) 2)) page (eset (bareEntry e1) 29 3 3)
    let s5 := { s4 with mem := { s4.mem with
      notes := s4.mem.notes.filter (fun n => !(n.page == page)), pins := s4.mem.pins.filter (fun p => p.page != page) } }
    exec (.handoverRelease page) s = .next (heldReplays (bumpStat (dropHand s5 page false) (peVmid e1) 5 1)) := by
  show execHandoverRelease page s = _
  simp only [execHandoverRelease, hg, hst, hu]
  rfl

/-- R407: the claimer sees that the page is its own, or takes it where its claim stands in the record. -/
theorem execHandoverDetect_of_claimed (hc : claimOf s page = some h) (hst : h.step = .claimed) (he : peState (pageEntry s page) = 3)
    (hp : passedOn s page = false) :
    exec (.handoverDetect page) s =
      .next (claimSeen page (pageEntry s page) (ownRead s (pePage (pageEntry s page)))) := by
  show execHandoverDetect page s = _
  simp only [execHandoverDetect, hc]
  rw [if_neg (by simp [hst, he, hp, hu])]
  exact (apply_ite Host.Outcome.next _ _ _).symm

theorem execHandoverInstall_of_released (hc : claimOf s page = some h) (hst : h.step = .released) :
    let e := pageEntry s page
    let r := ownRead s (pePage e)
    let s2 := setEntryHw r.2 page (eset (eset (eset e 29 3 0) 27 2 3) 48 80 0)
    exec (.handoverInstall page) s = .next (heldReplays (wakeClaims (bumpStat
      (dropHand (ownWrite s2 (pePage e) (nset r.1 34 3 0)) page true) (peVmid e) 4 1) page)) := by
  show execHandoverInstall page s = _
  simp only [execHandoverInstall, hc, hst, hu]
  rfl

/-- R409: the takeover of a page of a failed owner. -/
theorem execPooltake_of_other {w : Writer} {v : BitVec 64} (ha : winAllowed s w .pooltake true = true)
    (ho : ownOwner (ownRead s (v.toNat % 2 ^ 27)).1 ≠ pkgNum (ownRead s (v.toNat % 2 ^ 27)).2) :
    let d := v.toNat % 2 ^ 27
    let o := ownRead s d
    let s2 := ownWrite o.2 d (ownHand o.1 (pkgNum o.2) 3)
    exec (.pooltake w v) s = .next (match foreignNames s2 d with
      | [] => ownWrite s2 d (nset (ownHand o.1 (pkgNum o.2) 3) 34 3 0)
      | l => l.foldl takePage s2) := by
  show execPooltake w v s = _
  simp only [execPooltake, ha, hu, nbits, pow_zero, Nat.div_one]
  refine (if_neg (by decide)).trans ((if_neg (by simpa using ho)).trans ?_)
  generalize foreignNames _ _ = names
  cases names <;> rfl

end

/-- Settles O46: each step of the hand-over reads the page's ownership record, and acts as the record says. -/
theorem handOver : Obligations.HandOver := by
  intro s page pkg w v h hu e r
  refine ⟨fun hc hst he hsh hfree => ?_, fun hv hst ht hg ho hsh hfree => ?_, fun hv hst ht hg ho hsh hone => ?_,
    fun hg hst hpin he hp => ?_, execHandoverRelease_of_frozen hu, fun hc hst he hp => ?_, execHandoverInstall_of_released hu,
    fun ha => ?_⟩
  · intro t
    have tried := next_congr (claimTry_of_free hu hc hst he hsh hfree)
    have claimed : (claimOf s page).isNone = false := by simp [hc]
    refine ⟨?_, tried⟩
    show execPoolClaim page s = _
    simp only [execPoolClaim, claimed]
    exact tried
  · intro s3
    rw [execClaimDetect_of_own hu hv hst ht hg]
    exact next_congr (claimAnswer_of_free ho hsh hfree)
  · intro s3
    rw [execClaimDetect_of_own hu hv hst ht hg]
    have answer := claimAnswer_of_claimed (page := page) (pkg := pkg) (e := e) ho hsh hone
    exact ⟨fun hcl => next_congr (answer.trans (if_pos hcl)), fun hcl => next_congr (answer.trans (if_neg hcl))⟩
  · show execHandoverFreeze page s = _
    simp only [execHandoverFreeze, hg]
    exact if_neg (by
      rw [hst, show pePins (pageEntry s page) = 0 from hpin, show peState (pageEntry s page) = 0 from he, hp]
      decide)
  · intro frozen
    rw [execHandoverDetect_of_claimed hu hc hst he hp]
    exact ⟨fun hrs hown => next_congr (claimSeen_of_owner hrs hown), fun hrs hcl => next_congr (claimSeen_of_claimer hrs hcl)⟩
  · intro d o s2 ho
    rw [execPooltake_of_other hu ha ho]
    refine ⟨fun hn => ?_, fun p hn hp => ?_⟩
    · rw [show foreignNames (ownWrite (ownRead s (v.toNat % 2 ^ 27)).2 (v.toNat % 2 ^ 27) _) (v.toNat % 2 ^ 27) = [] from hn]
    · rw [show foreignNames (ownWrite (ownRead s (v.toNat % 2 ^ 27)).2 (v.toNat % 2 ^ 27) _) (v.toNat % 2 ^ 27) = [p] from hn]
      simp only [List.foldl_cons, List.foldl_nil]
      exact next_congr (takePage_of_free hp)

end Sys2Proof.Claims

/-!
# The cut, the platform, boot and the host's harts

Changes of the partition cut (R414, R429, R430), power, links and inbound requests (R150, R322, R344, R420, R435, R436),
boot and hub firmware (R437,
R440, R443), the Xtn3 words and the fences and accesses of harts (R118, R141, R261 to R267, R307, R318, R431), and the state at reset.
-/

namespace Sys2Proof.Claims

open Sys2Proof Sys2Proof.Machine

/-! ### Changes of the cut -/

section
variable {s : State} {v : BitVec 64}

/-- R429: a request is answered while no quarter is busy: an invalid one is refused, a valid one begins. -/
theorem cutRequest_of_idle (merge : Bool) (hq : s.hub.partCfg.toNat / 16 % 16 = 0) :
    let which : BitVec 2 := BitVec.ofNat 2 (v.toNat / 2 ^ 60 % 4)
    let us := v.toNat % 2 ^ 32
    cutRequest s merge v = if cutInvalid s.hub.partCfg merge which then cutRecord s merge which 2 0xFFFFFFFF 0
      else { s with hub := { s.hub with
        partCfg := s.hub.partCfg ||| busyBits (cutQuarters which)
        cut := some { merge := merge, which := which, deadline := if us == 0 then 1000 else us, since := s.cycles } } } := by
  have idle : (s.hub.partCfg.toNat / 16 % 16 != 0) = false := by simp [hq]
  simp only [cutRequest, idle, nbits, pow_zero, Nat.div_one]
  rfl

end

/-- Settles O47: a request by the three answers of `cutRequest`; its end by whether the deadline has passed. -/
theorem cutChanges : Obligations.CutChanges := by
  intro s w v c which us begun
  refine ⟨fun ha hq => ?_, fun hc hquiet hlate => ?_, fun hc hlate => ?_⟩
  · have asked : ∀ merge, (Host.Outcome.next (if winAllowed s w .partctl true then cutRequest s merge v else s) : Out)
        = .next (cutRequest s merge v) := fun merge => next_congr (if_pos ha)
    refine ⟨fun hi => (asked true).trans ?_, fun hi => (asked false).trans ?_, fun hi => (asked true).trans ?_⟩
    · exact next_congr ((cutRequest_of_idle true hq).trans (if_neg (ne_true_of_eq_false hi)))
    · exact next_congr ((cutRequest_of_idle false hq).trans (if_neg (ne_true_of_eq_false hi)))
    · exact next_congr ((cutRequest_of_idle true hq).trans (if_pos hi))
  · have early : cutLate s c = false := by simpa [cutLate] using hlate
    refine ⟨fun hm => ?_, fun hm hs => ?_⟩
    · have whole : (!c.merge && splitHeld s c.which) = false := by rcases hm with hm | hm <;> simp [hm]
      show execPartitionQuiesced s = _
      simp only [execPartitionQuiesced, hc, hquiet, early, whole]
      rfl
    · show execPartitionQuiesced s = _
      simp [execPartitionQuiesced, hc, hquiet, early, hm, hs]
  · have late : cutLate s c = true := by simpa [cutLate] using hlate
    refine ⟨?_, ?_⟩
    · show execPartitionQuiesced s = _
      simp [execPartitionQuiesced, hc, late]
    · show execPartitionDeadline s = _
      simp [execPartitionDeadline, hc, late]

/-! ### Power, links and inbound requests -/

/-- Settles O48: each event takes the branch that its hypotheses select. -/
theorem platformEvents : Obligations.PlatformEvents := by
  intro s x n sp wd r ag c port ports
  refine ⟨rfl, ?_, fun hb hh => ?_, fun hn => ⟨next_congr (if_pos hn), next_congr (if_pos hn)⟩, fun t ht => ?_, fun t ht => ?_,
    fun hn ha hno hha => ?_⟩
  · show execBucketRefill s = _
    simp only [execBucketRefill, nbits, pow_zero, Nat.div_one]
  · have set : (nbits (ctxOf s n).hintbud.toNat 32 16 == 0) = false := beq_eq_false_iff_ne.mpr hb
    show execHintRefill n s = _
    simp only [execHintRefill, set, hintRefill, hh]
    simp only [nbits, pow_zero, Nat.div_one]
    rfl
  · show execInboundRequest r s = _
    simp only [execInboundRequest, ht]
  · show execInboundRequest r s = _
    simp only [execInboundRequest, ht]
  · show execHubThreadWake n s = _
    simp [execHubThreadWake, hn, modAgent, ha, hno, hha]

/-! ### Boot and hub firmware -/

section
variable {s : State}

/-- R437: an image is valid where its key is the fused one, its signature verifies, and it is not older than the fused minimum. -/
theorem imageValid_iff (bs : List Byte) : imageValid bs = true ↔ Config.shake256 (imageKey bs) = Config.fuseKeyDigest
    ∧ Config.mldsaVerify (imageKey bs) (Config.shake256 (imageBody bs)) (imageSig bs) = true
    ∧ Config.fuseMinVersion.toNat ≤ (imageVersion bs).toNat := by
  simp [imageValid, imageDigest, and_assoc]

section
variable {cfg lim own entry : BitVec 64}

/-- R437: an image of hub firmware that is not valid does not run. -/
theorem hubFirmwareBoot_of_invalid (hb : s.plat.boot = 0) (hv : imageValid (Config.flashImage 1) = false) :
    exec (.hubFirmwareBoot cfg lim own) s = .next { s with plat := { s.plat with flashRec := true } } := by
  show execHubFirmwareBoot cfg lim own s = _
  exact (if_neg (by rw [hb]; decide)).trans (if_pos (by rw [hv]; rfl))

theorem hubFirmwareBoot_of_untrained (hb : s.plat.boot = 0) (hv : imageValid (Config.flashImage 1) = true)
    (ht : Config.trainingOk = false) :
    exec (.hubFirmwareBoot cfg lim own) s = .next { firmwareRuns s (Config.flashImage 1) with
      plat := { (firmwareRuns s (Config.flashImage 1)).plat with bootFail := true } } := by
  show execHubFirmwareBoot cfg lim own s = _
  exact (if_neg (by rw [hb]; decide)).trans ((if_neg (by rw [hv]; decide)).trans (if_pos (by rw [ht]; rfl)))

theorem hubFirmwareBoot_of_trained (hb : s.plat.boot = 0) (hv : imageValid (Config.flashImage 1) = true)
    (ht : Config.trainingOk = true) :
    let s2 := regWrite (regWrite (regWrite (firmwareRuns s (Config.flashImage 1)) .pltcfg cfg) .pltlim lim) .poolown own
    exec (.hubFirmwareBoot cfg lim own) s =
      .next (clearTable { s2 with plat := { s2.plat with pkgid := Config.pkgidStraps.setWidth 64, boot := 2 } }) := by
  show execHubFirmwareBoot cfg lim own s = _
  exact (if_neg (by rw [hb]; decide)).trans ((if_neg (by rw [hv]; decide)).trans (if_neg (by rw [ht]; decide)))

/-- R437: the host monitor runs where its image is valid. -/
theorem hostMonitorRelease_of_booted (hb : s.plat.boot = 2) :
    let s3 := extendMeas s 1 (toBytes (imageDigest (Config.flashImage 3)).toNat 64)
    exec (.hostMonitorRelease entry) s = if imageValid (Config.flashImage 3) then
        .next (putHart { s3 with plat := { s3.plat with boot := 3 } } 0 { hartOf s3 0 with pc := entry, mode := .m, run := .running })
      else .next { s with plat := { s.plat with flashRec := true } } := by
  show execHostMonitorRelease entry s = _
  refine (if_neg (by rw [hb]; decide)).trans ?_
  cases hv : imageValid (Config.flashImage 3)
  · exact if_pos rfl
  · exact if_neg (by decide)

end

/-- R440: a staged image is taken where it is valid and nothing of it was poisoned. The two reads and the length are named here,
so that no term
with the length of an image in it has to be evaluated. -/
theorem execFwImageChecked_of_pairs {header bytes : List Byte} {s1 s2 : State} {at_ n : Nat} (hst : s.plat.fwState = 1)
    (hat : s.plat.fwStage.toNat % 2 ^ 52 = at_) (hn : 64 + ofBytes ((header.drop 4).take 4) + 1952 + 3309 = n)
    (hgo : fwGo s at_ 64 = true) (hr : fwRead s at_ 64 = (header, s1)) (hgo2 : fwGo s1 at_ n = true)
    (hr2 : fwRead s1 at_ n = (bytes, s2)) :
    exec .fwImageChecked s = .next { s2 with
      plat := if imageValid bytes && !poisoned s2 at_ n then
          { s2.plat with fwState := 2, fwSince := s2.cycles, fwNext := imageVersion bytes, fwDigest := imageDigest bytes }
        else { s2.plat with fwState := 0, fwResult := 1 } } := by
  show execFwImageChecked s = _
  rw [execFwImageChecked, hat, if_neg (by rw [hst, hgo]; decide), hr]
  show (if !fwGo s1 at_ (64 + ofBytes ((header.drop 4).take 4) + 1952 + 3309) then _ else _) = _
  rw [hn, if_neg (by rw [hgo2]; decide), hr2]
  show (if imageValid bytes && !poisoned s2 at_ n then _ else _) = _
  cases imageValid bytes && !poisoned s2 at_ n <;> rfl

theorem execFwImageChecked_of_read {hd image : List Byte × State} {at_ n : Nat} (hst : s.plat.fwState = 1)
    (hat : s.plat.fwStage.toNat % 2 ^ 52 = at_) (hn : 64 + ofBytes ((hd.1.drop 4).take 4) + 1952 + 3309 = n)
    (hgo : fwGo s at_ 64 = true) (hr : fwRead s at_ 64 = hd) (hgo2 : fwGo hd.2 at_ n = true) (hr2 : fwRead hd.2 at_ n = image) :
    exec .fwImageChecked s = .next { image.2 with
      plat := if imageValid image.1 && !poisoned image.2 at_ n then
          { image.2.plat with
            fwState := 2, fwSince := image.2.cycles, fwNext := imageVersion image.1, fwDigest := imageDigest image.1 }
        else { image.2.plat with fwState := 0, fwResult := 1 } } :=
  execFwImageChecked_of_pairs hst hat hn hgo (hr.trans Prod.mk.eta.symm) hgo2 (hr2.trans Prod.mk.eta.symm)

/-- R440: a hub thread parks at its idle point, and the last one commits the switch. -/
theorem execHubThreadPark_of_idle {t : Nat} {ag : Agent} (ha : aget s.agents t = some ag) (hst : s.plat.fwState = 2)
    (hk : ag.kind = .hubThread) (hi : ag.issue = none)
    (hidle : ag.hub.halted = true ∨ ag.traps = [] ∧ ∀ p ∈ s.hub.packets, p.queue = t → p.st = 0) :
    let p := putAgent s t { ag with hub := { ag.hub with parked := true } }
    exec (.hubThreadPark t) s = .next (if threadsParked p then fwCommit p else p) := by
  have idle : idlePoint s t ag = true := by
    rcases hidle with hh | ⟨htr, hpk⟩
    · simp [idlePoint, hi, hh]
    · simp [idlePoint, hi, htr]
      exact .inr hpk
  show execHubThreadPark t s = _
  simp only [execHubThreadPark, ha, hst, hk, idle]
  rfl

/-- R443: a recorded packet whose turn it is is fed again. -/
theorem execRecordReplayFeed_of_turn {q spa seq : Nat} {p : BitVec 512} {t : State} (hat : replayAt s q = some spa)
    (hw : hubWaits s spa 72 = false) (hn : nextReplay (hubRead s 0 spa 72).2 q = some (p, seq)) (hq : q < 64)
    (ht : replayTurn (hubRead s 0 spa 72).2 q seq = true) (hap : ringAppend (hubRead s 0 spa 72).2 q p = (true, t)) :
    exec (.recordReplayFeed q) s = .next (putQueue t q { queueOf t q with replay := (queueOf t q).replay + 1 }) := by
  show execRecordReplayFeed q s = _
  simp [execRecordReplayFeed, hat, hw, hn, hq, ht, hap, Config.queues]

end

/-- Settles O49: one lemma for each of the boot, the check of an image, the parking of a thread and the feed of a packet. -/
theorem bootAndFirmware : Obligations.BootAndFirmware := by
  intro s cfg lim own entry t q ag hub monitor m1 s1 s2 s3 broken
  refine ⟨rfl, imageValid_iff, fun hb => ⟨hubFirmwareBoot_of_invalid hb, hubFirmwareBoot_of_untrained hb, hubFirmwareBoot_of_trained hb⟩,
    hostMonitorRelease_of_booted, fun hst => ?_, execHubThreadPark_of_idle, fun hst hs => ?_, fun spa p seq t1 hat hw => ?_⟩
  · intro at_ hd n image p good hgo hgo2
    exact execFwImageChecked_of_read hst rfl rfl hgo rfl hgo2 rfl
  · show execFwSwitchTimeout s = _
    simp [execFwSwitchTimeout, hst, hs]
  · intro r hn hq ht hap
    exact execRecordReplayFeed_of_turn hat hw hn hq ht hap

/-! ### The Xtn3 words of a hart -/

/-- The word of the hart whose turn it is. -/
theorem onHart_of_turn {s : State} {h : Nat} (ht : s.turn = .hart h) (f : Nat → Hart → Out) : onHart s f = f h (hartOf s h) := by
  simp only [onHart, ht]

/-- R261, R265: a wake at an aligned address that translates to memory. -/
theorem xwakeva_of_reached {s s1 : State} {h : Nat} (ht : s.turn = .hart h) {d a b : BitVec 5} {y : Xlat}
    (hal : (rdX (hartOf s h) a).toNat % 4 = 0)
    (hole : hostHole .load (dataView (hartOf s h)) (rdX (hartOf s h) a).toNat 1 = none)
    (hx : hartXlate s h (dataView (hartOf s h)) (rdX (hartOf s h) a).toNat .read false = (.ok y, s1)) (hc : y.cls = 0)
    (hw : inWindow (xlatOut y (rdX (hartOf s h) a).toNat) = false) :
    let k := wakeKey s1 (rdX (hartOf s h) a) (hartVmid (hartOf s h)) (hartAsid (hartOf s h)) (rdX (hartOf s h) b).toNat
    exec (.xwakeva d a b) s = .next (retire k.2 h (hartOf k.2 h) d k.1) := by
  have reached : (y.cls != 0 || inWindow (xlatOut y (rdX (hartOf s h) a).toNat)) = false := by simp [hc, hw]
  show execXwakeva d a b s = _
  rw [execXwakeva, onHart_of_turn ht]
  refine (if_neg (by simpa using hal)).trans ?_
  simp only [hole, hx, reached]
  rfl

/-- Settles O50: each word is its meaning at the hart whose turn it is. -/
theorem xtn3Words : Obligations.Xtn3Words := by
  intro s h d a b ht x va vb
  refine ⟨show execXpin d a b s = _ from onHart_of_turn ht _, show execXunpin d a b s = _ from onHart_of_turn ht _,
    show execXhint d a b s = _ from onHart_of_turn ht _, show execXtierqLo d a s = _ from onHart_of_turn ht _,
    show execXtierqHi d a s = _ from onHart_of_turn ht _, show execXwaitvaW d a b s = _ from onHart_of_turn ht _,
    show execXwaitvaD d a b s = _ from onHart_of_turn ht _, fun y s1 hal hole hx hc hw => ?_, fun hal => ?_⟩
  · exact xwakeva_of_reached ht hal hole hx hc hw
  · show execXwakeva d a b s = _
    rw [execXwakeva, onHart_of_turn ht]
    exact if_pos (by simpa using hal)

/-! ### Fences and accesses of the harts -/

section
variable {x : Hart} {hyp : Bool}

/-! R267, R307: the modes that bar a fence. -/

theorem fenceBars_of_m {tvm : Bool} (hm : x.mode = .m) : fenceBars x hyp tvm = none := by simp [fenceBars, hm]

theorem fenceBars_of_hs (hm : x.mode = .hs) (ht : (sget x.csrs 0x300).getLsbD 20 = false) : fenceBars x hyp true = none := by
  simp only [fenceBars, hm, ht]
  rfl

theorem fenceBars_of_hs_free (hm : x.mode = .hs) : fenceBars x hyp false = none := by simp [fenceBars, hm]

theorem fenceBars_of_hs_tvm (hm : x.mode = .hs) (ht : (sget x.csrs 0x300).getLsbD 20 = true) : fenceBars x hyp true = some 2 := by
  simp only [fenceBars, hm, ht]
  rfl

theorem fenceBars_of_vs {tvm : Bool} (hm : x.mode = .vs) :
    fenceBars x hyp tvm = if hyp || (sget x.csrs 0x600).getLsbD 20 then some 22 else none := by
  simp only [fenceBars, hm]

theorem fenceBars_of_u {tvm : Bool} (hm : x.mode = .u) : fenceBars x hyp tvm = some 2 := by simp only [fenceBars, hm]

theorem fenceBars_of_vu {tvm : Bool} (hm : x.mode = .vu) : fenceBars x hyp tvm = some 22 := by simp only [fenceBars, hm]

end

/-- R267, R307: a fence of the hart whose turn it is: an exception where its mode bars it, and what the fence does otherwise. -/
theorem sfenceVma_of_turn {s : State} {h : Nat} (ht : s.turn = .hart h) (a b : BitVec 5) :
    exec (.sfenceVma a b) s = match fenceBars (hartOf s h) false true with
      | some c => .next (hartTrap s h c (fenceWord 0x09 a b) 0)
      | none => .next (hostFence s h (fenceStage1 (hartVmid (hartOf s h)) (fenceArg (hartOf s h) a) (fenceArg (hartOf s h) b))) := by
  show execSfenceVma a b s = _
  exact (onHart_of_turn ht _).trans (by cases fenceBars (hartOf s h) false true <;> rfl)

theorem hfenceVvma_of_turn {s : State} {h : Nat} (ht : s.turn = .hart h) (a b : BitVec 5) :
    exec (.hfenceVvma a b) s = match fenceBars (hartOf s h) true false with
      | some c => .next (hartTrap s h c (fenceWord 0x11 a b) 0)
      | none => .next (hostFence s h (fenceStage1 (hgatpVmid (hartOf s h)) (fenceArg (hartOf s h) a) (fenceArg (hartOf s h) b))) := by
  show execHfenceVvma a b s = _
  exact (onHart_of_turn ht _).trans (by cases fenceBars (hartOf s h) true false <;> rfl)

theorem hfenceGvma_of_turn {s : State} {h : Nat} (ht : s.turn = .hart h) (a b : BitVec 5) :
    exec (.hfenceGvma a b) s = match fenceBars (hartOf s h) true true with
      | some c => .next (hartTrap s h c (fenceWord 0x31 a b) 0)
      | none => .next (hostFence s h (fenceStage2 (fenceArg (hartOf s h) a) (fenceArg (hartOf s h) b))) := by
  show execHfenceGvma a b s = _
  exact (onHart_of_turn ht _).trans (by cases fenceBars (hartOf s h) true true <;> rfl)

/-- R141, R431: an access of a running hart that is aligned, or needs no alignment, does what its address reaches. -/
theorem execHostAccess_of_aligned {s : State} {h : Nat} {acc : HostAcc} (hr : hartRuns s h = true) (hf : acc.op ≠ .fence)
    (hal : acc.op = .load ∨ acc.op = .store ∨ acc.va.toNat % 2 ^ acc.size.toNat = 0) :
    exec (.hostAccess h acc) s =
      match hostReach s h (accView (hartOf s h) acc) (opKind acc.op) acc.va.toNat (2 ^ acc.size.toNat) (accNeed acc) with
      | (.exc e, s1) => .next (accExc s1 h acc e)
      | (.window spa, s1) => .next (hostWindow s1 h acc spa)
      | (.wait, s1) => .next s1
      | (.held segs, s1) => .next (hostHold s1 h acc segs)
      | (.mem segs, s1) => .next (hostPerform s1 h acc segs) := by
  have aligned : (acc.op != .load && acc.op != .store && acc.va.toNat % 2 ^ acc.size.toNat != 0) = false := by
    rcases hal with hal | hal | hal <;> simp [hal]
  show execHostAccess h acc s = _
  simp only [execHostAccess, hr, beq_eq_false_iff_ne.mpr hf, aligned] <;> rfl

/-- Settles O51: the fences by the modes that bar them, the accesses by what their address reaches. -/
theorem hostFencesAndAccesses : Obligations.HostFencesAndAccesses := by
  intro s h a b acc x trap tvm
  refine ⟨fun ht => ?_, fun hr hf => ?_, fun hr hf hl hst hal => ?_, fun segs s1 hr hf hal hre => ?_, fun e s1 hr hf hal hre => ?_,
    fun w hw => ?_⟩
  · rw [sfenceVma_of_turn ht, hfenceVvma_of_turn ht, hfenceGvma_of_turn ht]
    refine ⟨fun hm => ?_, fun hm => ?_, fun hm => ?_, fun hm htvm => ⟨?_, ?_⟩, fun hm hv => ?_, fun hm => ⟨?_, ?_⟩, fun hm => ⟨?_, ?_,
      ?_⟩,
      fun hm => ⟨?_, ?_, ?_⟩⟩
    · have runs : fenceBars (hartOf s h) false true = none := by
        rcases hm with hm | ⟨hm, htvm⟩ | ⟨hm, hv⟩
        · exact fenceBars_of_m hm
        · exact fenceBars_of_hs hm htvm
        · rw [fenceBars_of_vs hm, hv]; rfl
      rw [runs]
    · have runs : fenceBars (hartOf s h) true false = none := hm.elim fenceBars_of_m fenceBars_of_hs_free
      rw [runs]
    · have runs : fenceBars (hartOf s h) true true = none := hm.elim fenceBars_of_m fun hm => fenceBars_of_hs hm.1 hm.2
      rw [runs]
    · rw [fenceBars_of_hs_tvm hm htvm]
    · rw [fenceBars_of_hs_tvm hm htvm]
    · rw [fenceBars_of_vs hm, hv]
      rfl
    · rw [fenceBars_of_vs hm]
      rfl
    · rw [fenceBars_of_vs hm]
      rfl
    · rw [fenceBars_of_u hm]
    · rw [fenceBars_of_u hm]
    · rw [fenceBars_of_u hm]
    · rw [fenceBars_of_vu hm]
    · rw [fenceBars_of_vu hm]
    · rw [fenceBars_of_vu hm]
  · show execHostAccess h acc s = _
    simp [execHostAccess, hr, hf]
  · show execHostAccess h acc s = _
    simp [execHostAccess, hr, hf, hl, hst, hal]
  · rw [execHostAccess_of_aligned hr hf hal, show hostReach s h (accView (hartOf s h) acc) _ _ _ _ = _ from hre]
  · rw [execHostAccess_of_aligned hr hf hal, show hostReach s h (accView (hartOf s h) acc) _ _ _ _ = _ from hre]
  · show execInterruptPending h s = _
    simp only [execInterruptPending, hw]

end Sys2Proof.Claims

/-!
# The state at reset, and the bytes of memory and scratchpad

Right after reset (R312, R326, R385, R387, R394, R414, R437, R440); a byte of memory that is written reads back (R5, R385, R439); and what a write of
the scratchpad or of an event counter changes and leaves (R67, R115, R117, R130).
-/

namespace Sys2Proof.Claims

open Sys2Proof Sys2Proof.Machine

/-! ### Reset -/

theorem aget_append {α : Type} (m m' : AMap α) (k : Nat) : aget (m ++ m') k = (aget m k).or (aget m' k) := by
  induction m with
  | nil => rfl
  | cons p t ih =>
    obtain ⟨j, a⟩ := p
    by_cases hj : j = k <;> simp [aget, hj, ih]

/-- R440: the agents at reset are the hub threads, each at its own number. -/
theorem aget_hubThreads (n t : Nat) : aget (hubThreads n) t = if t < n then some (Agent.hubThread t) else none := by
  induction n with
  | zero => rfl
  | succ n ih =>
    rw [hubThreads, aget_append, ih]
    rcases Nat.lt_trichotomy t n with h | h | h
    · simp [h, Nat.lt_succ_of_lt h]
    · simp [h, aget]
    · simp [Nat.lt_asymm h, show ¬ t < n + 1 by omega, aget, Nat.ne_of_lt h]

theorem eq_hubThread_of_mem {n : Nat} {p : Nat × Agent} (hp : p ∈ hubThreads n) : ∃ t, p = (t, Agent.hubThread t) := by
  induction n with
  | zero => cases hp
  | succ n ih =>
    rcases List.mem_append.mp hp with h | h
    · exact ih h
    · exact ⟨n, List.mem_singleton.mp h⟩

theorem ctxOf_reset (c : Nat) : ctxOf State.reset c = Ctx.reset := by
  by_cases hc : 0 = c <;> simp [ctxOf, agetD, State.reset, Hub.reset, aget, hc]

/-- R312: registers 0x02 to 0x09 of every context read 0 after reset. -/
theorem privRead_reset (ag : Agent) {n : Nat} (hl : 2 ≤ n) (hh : n ≤ 9) : privRead State.reset ag n = 0 := by
  interval_cases n <;> simp only [privRead, ctxRegRead, ctxOf_reset] <;> rfl

/-- R387: no page is described while PLTLIM is 0. -/
theorem locate_reset (die page : Nat) : locate State.reset die page = none := if_pos (Nat.zero_le page)

/-- R326: no queue is enabled, and every queue is empty. -/
theorem queue_reset (q : Nat) :
    queueOn (queueOf State.reset q) = false ∧ (queueOf State.reset q).wr = 0 ∧ (queueOf State.reset q).rd = 0 := by
  have start : queueOf State.reset q = Queue.reset := rfl
  rw [start]
  exact ⟨rfl, rfl, rfl⟩

/-- Settles O52: the fields that are constants by evaluation, the hub threads by induction on their number. -/
theorem resetState : Obligations.ResetState := by
  refine ⟨rfl, rfl, rfl, locate_reset, rfl, rfl, rfl, rfl, queue_reset, fun ag n hl hh _ => privRead_reset ag hl hh, fun h => rfl,
    rfl, fun t ht => ⟨Agent.hubThread t, (aget_hubThreads 64 t).trans (if_pos ht), rfl, rfl⟩, fun p hp => ?_⟩
  obtain ⟨t, rfl⟩ := eq_hubThread_of_mem hp
  exact ⟨rfl, rfl, rfl, rfl, fun f => Nat.zero_le 15⟩

/-! ### The bytes of memory -/

section
variable {s : State}

/-- R5: a byte of device memory that is written reads back, and every other byte reads as before. -/
theorem rawRead_rawWrite (hwf : Memory.wf s.mem.cells = true) (l l' : Nat) (b : Byte) :
    rawRead (rawWrite s l b) l' = if l' = l then b else rawRead s l' := by
  simp only [rawRead, rawWrite, sget_sset hwf]
  by_cases h : l' = l
  · simp [h]
  · simp [h]

/-- R439: with no key on any line, slot 0 reads and writes bytes as they are stored. -/
theorem retag_of_no_keys (hk : s.mem.lineKeys = []) (tweak line : Nat) : retag s 0 tweak line = s := by
  simp [retag, hk, tagOf]

theorem spaRead_of_no_keys (hk : s.mem.lineKeys = []) (a : Nat) : spaRead s 0 a = rawRead s (spaLoc s a) := by
  simp [spaRead, viewByte, hk]

/-- R385: where a page's entry is live, its device location does not depend on the bytes of memory. -/
theorem spaLoc_of_live {t : State} {a : Nat} (hlive : (aget s.mem.pages (a / 2 ^ 19)).isSome = true)
    (hp : t.mem.pages = s.mem.pages) (hf : t.mem.forwards = s.mem.forwards) (hc : t.hub.ctxs = s.hub.ctxs) : spaLoc t a = spaLoc s a := by
  obtain ⟨e, he⟩ := Option.isSome_iff_exists.mp hlive
  have entry : pageEntry t (a / 2 ^ 19) = pageEntry s (a / 2 ^ 19) := by
    rw [pageEntry, pageEntry, hp, he, Option.getD_some, Option.getD_some]
  have seed : ∀ v, guestSeed t v = guestSeed s v := fun v => by rw [guestSeed, guestSeed, guestCtx, guestCtx, hc]
  have home : ∀ line, lineHome t (a / 2 ^ 19) line = lineHome s (a / 2 ^ 19) line := fun line => by
    rw [lineHome, lineHome, hf, entry]
  rw [spaLoc, spaLoc, pageLoc, pageLoc, home, entry, seed]

theorem spaRead_spaWrite (hwf : Memory.wf s.mem.cells = true) (hk : s.mem.lineKeys = []) {a a' : Nat} (b : Byte)
    (hlive : (aget s.mem.pages (a' / 2 ^ 19)).isSome = true) :
    spaRead (spaWrite s 0 a b) 0 a' = if spaLoc s a' = spaLoc s a then b else spaRead s 0 a' := by
  have cells : rawRead (spaWrite s 0 a b) (spaLoc s a') = rawRead (rawWrite s (spaLoc s a) b) (spaLoc s a') := by
    rw [spaWrite, retag_of_no_keys hk]
    rfl
  have keys : (spaWrite s 0 a b).mem.lineKeys = [] := by
    rw [spaWrite, retag_of_no_keys hk]
    exact hk
  have place : spaLoc (spaWrite s 0 a b) a' = spaLoc s a' := by
    rw [spaWrite, retag_of_no_keys hk]
    exact spaLoc_of_live hlive rfl rfl rfl
  rw [spaRead_of_no_keys keys, place, cells, rawRead_rawWrite hwf, spaRead_of_no_keys hk]

end

/-- Settles O53: cells hold a byte's difference from what is unlisted, and a live page's location does not depend on them. -/
theorem memoryBytes : Obligations.MemoryBytes := by
  intro s b hwf
  exact ⟨fun l l' => rawRead_rawWrite hwf l l' b, fun a a' hk _ hlive => spaRead_spaWrite hwf hk b hlive⟩

end Sys2Proof.Claims

/-!
# Scratchpad writes and event counters

What a write of a block's scratchpad changes and leaves (R67, R115, R117, R130, R138, R139,
R285). What is sent on the way keeps every block and all of
memory (`SameStore`); what is applied to a mirror of the block changes that block's scratchpad alone (`SpmStep`).
-/

namespace Sys2Proof.Claims

open Sys2Proof Sys2Proof.Machine

/-! ### Consecutive words -/

section
variable {w : Nat} {m : Sparse w}

theorem sget_ssetN (h : Sparse.wf m = true) (k : Nat) (l : List (BitVec w)) {k' : Nat} (hk : k' < k ∨ k + l.length ≤ k') :
    sget (ssetN m k l) k' = sget m k' := by
  induction l generalizing m k with
  | nil => rfl
  | cons b t ih =>
    simp only [List.length_cons] at hk
    rw [ssetN, ih (Sparse_wf_sset k b h) (k + 1) (by omega), sget_sset h, if_neg (by omega)]

theorem sgetN_ssetN_self (h : Sparse.wf m = true) (k : Nat) (l : List (BitVec w)) : sgetN (ssetN m k l) k l.length = l := by
  induction l generalizing m k with
  | nil => rfl
  | cons b t ih =>
    have h' := Sparse_wf_sset k b h
    rw [ssetN, List.length_cons, sgetN, ih h' (k + 1), sget_ssetN h' (k + 1) t (.inl (Nat.lt_succ_self k)), sget_sset h, if_pos rfl]

end

/-! ### What is sent keeps the blocks, memory and the subscriptions -/

/-- The blocks, the bytes of memory and the subscriptions stand as before. -/
structure SameStore (s t : State) : Prop where
  blocks : t.blocks = s.blocks
  cells : t.mem.cells = s.mem.cells
  subs : t.mem.subs = s.mem.subs

namespace SameStore

theorem refl (s : State) : SameStore s s := ⟨rfl, rfl, rfl⟩

theorem trans {s t u : State} (h : SameStore s t) (h' : SameStore t u) : SameStore s u :=
  ⟨h'.blocks.trans h.blocks, h'.cells.trans h.cells, h'.subs.trans h.subs⟩

end SameStore

theorem sameStore_charge (s : State) (core q n : Nat) : SameStore s (charge s core q n) := by
  obtain ⟨credits, penergy, queues, he⟩ := charge_eq s core q n
  rw [he]
  exact ⟨rfl, rfl, rfl⟩

theorem sameStore_sendEntry (s : State) (e : UpdEntry) : SameStore s (sendEntry s e) := by
  refine List.foldlRecOn _ _ (SameStore.refl s) fun t ht x _ => ht.trans ?_
  dsimp only
  split
  · exact SameStore.refl t
  · exact ⟨rfl, rfl, rfl⟩

theorem sameStore_sendUpdates (s : State) (sel : UpdEntry → Bool) : SameStore s (sendUpdates s sel) :=
  List.foldlRecOn _ _ (motive := SameStore s) ⟨rfl, rfl,
  rfl⟩ fun t ht e _ => (ht.trans (sameStore_sendEntry t e)).trans (sameStore_charge _ _ _ _)

theorem sameStore_publishByte (s : State) (bid ofs : Nat) (b : Byte) : SameStore s (publishByte s bid ofs b) := by
  unfold publishByte
  split
  · exact SameStore.refl s
  · dsimp only
    split
    · exact ⟨rfl, rfl, rfl⟩
    · split
      · exact ⟨rfl, rfl, rfl⟩
      · have sent := sameStore_sendUpdates s (fun e => e.core == coreOf s bid)
        exact ⟨sent.blocks, sent.cells, sent.subs⟩

theorem sameStore_publish (s : State) (bid ofs : Nat) (bs : List Byte) : SameStore s (publish s bid ofs bs) := by
  induction bs generalizing s ofs with
  | nil => exact SameStore.refl s
  | cons b t ih => exact (sameStore_publishByte s bid ofs b).trans (ih _ _)

/-! ### What changes a block's scratchpad alone -/

/-- Memory and every other block stand as before, and block `b` stays resident, with the canonical form of its scratchpad. -/
structure SpmStep (b : Nat) (s t : State) : Prop where
  cells : t.mem.cells = s.mem.cells
  others : ∀ b', b' ≠ b → aget t.blocks b' = aget s.blocks b'
  resident : ∀ x, aget s.blocks b = some x → ∃ y, aget t.blocks b = some y ∧ (Sparse.wf x.spm = true → Sparse.wf y.spm = true)

namespace SpmStep

theorem of_sameStore {b : Nat} {s t : State} (h : SameStore s t) : SpmStep b s t :=
  ⟨h.cells, fun b' _ => by rw [h.blocks], fun x hx => ⟨x, by rw [h.blocks, hx], id⟩⟩

theorem trans {b : Nat} {s t u : State} (h : SpmStep b s t) (h' : SpmStep b t u) : SpmStep b s u := by
  refine ⟨h'.cells.trans h.cells, fun b' hb => (h'.others b' hb).trans (h.others b' hb), fun x hx => ?_⟩
  obtain ⟨y, hy, hwf⟩ := h.resident x hx
  obtain ⟨z, hz, hwf'⟩ := h'.resident y hy
  exact ⟨z, hz, hwf' ∘ hwf⟩

end SpmStep

theorem modBlock_of_resident {s : State} {b : Nat} {x : Block} (hx : aget s.blocks b = some x) (f : Block → Block) :
    modBlock s b f = { s with blocks := aset s.blocks b (f x) } := by
  simp only [modBlock, hx]

theorem modBlock_of_absent {s : State} {b : Nat} (hx : aget s.blocks b = none) (f : Block → Block) : modBlock s b f = s := by
  simp only [modBlock, hx]

theorem aget_modBlock_self {s : State} {b : Nat} {x : Block} (hx : aget s.blocks b = some x) (f : Block → Block) :
    aget (modBlock s b f).blocks b = some (f x) := by
  rw [modBlock_of_resident hx]
  exact aget_aset_self _ _ _

theorem spmStep_modBlock (s : State) (b : Nat) {f : Block → Block} (hf : ∀ x, Sparse.wf x.spm = true → Sparse.wf (f x).spm = true) :
    SpmStep b s (modBlock s b f) := by
  cases hx : aget s.blocks b with
  | none =>
    rw [modBlock_of_absent hx]
    exact .of_sameStore (.refl s)
  | some x =>
    refine ⟨?_, fun b' hb => ?_, fun y hy => ⟨f x, aget_modBlock_self hx f, ?_⟩⟩
    · rw [modBlock_of_resident hx]
    · rw [modBlock_of_resident hx]
      exact aget_aset_other _ _ hb
    · obtain rfl := Option.some.inj (hx.symm.trans hy)
      exact hf x

theorem spmStep_spmPut (s : State) (b ofs : Nat) (bs : List Byte) : SpmStep b s (spmPut s b ofs bs) :=
  spmStep_modBlock s b fun _ h => Sparse_wf_ssetN ofs bs h

theorem spmStep_spmHeal (s : State) (b ofs n : Nat) : SpmStep b s (spmHeal s b ofs n) := by
  refine SpmStep.trans (.of_sameStore ?_) (spmStep_modBlock _ b ?_)
  · exact ⟨rfl, rfl, rfl⟩
  · exact fun _ h => h

/-- R375: healing a block leaves its bytes. -/
theorem aget_spmHeal_self {s : State} {b : Nat} {x : Block} (hx : aget s.blocks b = some x) (ofs n : Nat) :
    ∃ y, aget (spmHeal s b ofs n).blocks b = some y ∧ y.spm = x.spm :=
  ⟨_, aget_modBlock_self (s := { s with mem := { s.mem with errs := s.mem.errs.filter (fun x => !errIn b ofs n x) } }) hx _, rfl⟩

/-- R285: the bytes of an update go into the mirror. -/
theorem spmStep_mirrorWrite (s : State) (b : Nat) (l : List (Nat × Byte)) : SpmStep b s (mirrorWrite s b l) :=
  List.foldlRecOn _ _ (motive := SpmStep b s) (.of_sameStore (.refl s)) fun t ht p _ =>
    (ht.trans (spmStep_spmPut t b p.1 [p.2])).trans (spmStep_spmHeal _ b p.1 1)

/-- R138, R285: an update for a resident block changes that block's scratchpad alone. -/
theorem spmStep_applyUpdate {s : State} {b : Nat} {x : Block} (hx : aget s.blocks b = some x) {u : Update} (hu : u.scrib = b) :
    SpmStep b s (applyUpdate s u) := by
  subst hu
  have taken : SpmStep u.scrib s { s with mem := { s.mem with sent := s.mem.sent.filter (fun x => x.id != u.id) } } :=
    .of_sameStore ⟨rfl, rfl, rfl⟩
  unfold applyUpdate
  dsimp only
  split
  · exact taken
  · rw [if_pos (by rw [hx]; rfl)]
    exact taken.trans (spmStep_mirrorWrite _ _ _)

/-- R138, R139: what reaches a mirror of a resident block first changes that block's scratchpad alone. -/
theorem spmStep_syncMirror {s : State} {b : Nat} {x : Block} (hx : aget s.blocks b = some x) (ofs n : Nat) :
    SpmStep b s (syncMirror s b ofs n) := by
  unfold syncMirror
  dsimp only
  split
  · exact .of_sameStore (.refl s)
  · refine List.foldlRecOn _ _ (motive := SpmStep b s) ?_ fun t ht u hu => ?_
    · split
      · exact .of_sameStore (.refl s)
      · exact .of_sameStore (sameStore_sendUpdates _ _)
    · obtain ⟨y, hy, -⟩ := ht.resident x hx
      exact ht.trans (spmStep_applyUpdate hy (by simpa using (List.mem_filter.mp hu).2))

/-- R286: an update without a subscription is dropped. -/
theorem sameStore_applyUpdate {s : State} {u : Update} (hs : ∀ y ∈ s.mem.subs, y.block ≠ u.scrib) : SameStore s (applyUpdate s u) := by
  have gone : subOf { s with mem := { s.mem with sent := s.mem.sent.filter (fun x => x.id != u.id) } } u.scrib u.index = none :=
    List.find?_eq_none.mpr fun y hy => by simp [hs y hy]
  unfold applyUpdate
  simp only [gone]
  exact ⟨rfl, rfl, rfl⟩

/-- R138: nothing reaches a block that subscribes to nothing. -/
theorem sameStore_syncMirror {s : State} {b : Nat} (hs : ∀ y ∈ s.mem.subs, y.block ≠ b) (ofs n : Nat) :
    SameStore s (syncMirror s b ofs n) := by
  unfold syncMirror
  dsimp only
  split
  · exact .refl s
  · refine List.foldlRecOn _ _ (motive := SameStore s) ?_ fun t ht u hu => ?_
    · split
      · exact .refl s
      · exact sameStore_sendUpdates _ _
    · have hu : u.scrib = b := by simpa using (List.mem_filter.mp hu).2
      exact ht.trans (sameStore_applyUpdate fun y hy => hu ▸ hs y (ht.subs ▸ hy))

/-! ### A write of a scratchpad -/

theorem spmRead_of_resident {s : State} {b : Nat} {x : Block} (hx : aget s.blocks b = some x) (ofs n : Nat) :
    spmRead s b ofs n = sgetN x.spm ofs n := by
  simp only [spmRead, hx]

section
variable {s : State} {b : Nat} {x : Block} (hx : aget s.blocks b = some x) (ofs : Nat) (bs : List Byte)
include hx

/-- R117, R138: the write itself: block `b`, as it stands once its mirrors are brought up to date, takes the bytes. -/
theorem aget_spmWrite_self : ∃ y z, aget (syncMirror s b ofs bs.length).blocks b = some y ∧ (Sparse.wf x.spm = true
    → Sparse.wf y.spm = true)
    ∧ aget (spmWrite s b ofs bs).blocks b = some z ∧ z.spm = ssetN y.spm ofs bs := by
  obtain ⟨y, hy, hwf⟩ := (spmStep_syncMirror hx ofs bs.length).resident x hx
  obtain ⟨z, hz, hspm⟩ := aget_spmHeal_self (aget_modBlock_self hy (fun b => { b with spm := ssetN b.spm ofs bs })) ofs bs.length
  refine ⟨y, z, hy, hwf, ?_, hspm⟩
  rw [spmWrite, (sameStore_publish _ _ _ _).blocks]
  exact hz

theorem spmStep_spmWrite : SpmStep b s (spmWrite s b ofs bs) :=
  (((spmStep_syncMirror hx ofs bs.length).trans (spmStep_spmPut _ b ofs bs)).trans (spmStep_spmHeal _ b ofs bs.length)).trans
    (.of_sameStore (sameStore_publish _ _ _ _))

end

/-! ### Event counters -/

section
variable {s : State}

/-- R130: an acquire leaves everything but the lines of L1 caches. -/
theorem acquireBy_eq (s : State) (scope : Nat) (p : Nat → Agent → Bool) : ∃ l1,
    acquireBy s scope p = { s with mem := { s.mem with l1 := l1 } } := by
  unfold acquireBy
  split
  · exact ⟨s.mem.l1, rfl⟩
  · refine List.foldlRecOn _ _ (motive := fun (t : State) => ∃ l1, t = { s with mem := { s.mem with l1 := l1 } }) ⟨s.mem.l1,
      rfl⟩ fun t ht q _ => ?_
    obtain ⟨l1, rfl⟩ := ht
    exact ⟨_, rfl⟩

/-- R67, R130, R256, R257: what follows the store of a counter touches neither blocks nor memory, but for L1 lines. -/
theorem ecSet_frame (s : State) (b n : Nat) (v : Word) : ∃ l1,
    (ecSet s b n v).mem = { (modBlock s b (fun x => { x with ec := sset x.ec n v })).mem with l1 := l1 }
      ∧ (ecSet s b n v).blocks = (modBlock s b (fun x => { x with ec := sset x.ec n v })).blocks := by
  generalize hm : modBlock s b (fun x => { x with ec := sset x.ec n v }) = m
  have woken : ∃ l1, (ecWake m b n).mem = { m.mem with l1 := l1 } ∧ (ecWake m b n).blocks = m.blocks := by
    obtain ⟨l1, he⟩ := acquireBy_eq m 2 (fun _ ag => ag.block == b && ag.kind != .hubThread && allLanes.any (ecMeets ag n (ecGet m b n).toInt))
    refine ⟨l1, ?_, ?_⟩
    · simp only [ecWake, he]
    · simp only [ecWake, he]
  obtain ⟨l1, hmem, hblocks⟩ := woken
  refine ⟨l1, ?_, ?_⟩
  · rw [ecSet, hm, ecReady]
    split <;> exact hmem
  · rw [ecSet, hm, ecReady]
    split <;> exact hblocks

theorem ecGet_of_resident {b : Nat} {x : Block} (hx : aget s.blocks b = some x) (n : Nat) : ecGet s b n = sget x.ec n := by
  simp only [ecGet, hx]

variable {b : Nat} {x : Block} (hx : aget s.blocks b = some x) (n : Nat) (v : Word)
include hx

theorem aget_ecSet_self : aget (ecSet s b n v).blocks b = some { x with ec := sset x.ec n v } := by
  obtain ⟨l1, -, hblocks⟩ := ecSet_frame s b n v
  rw [hblocks]
  exact aget_modBlock_self hx _

theorem aget_ecSet_other {b' : Nat} (hb : b' ≠ b) : aget (ecSet s b n v).blocks b' = aget s.blocks b' := by
  obtain ⟨l1, -, hblocks⟩ := ecSet_frame s b n v
  rw [hblocks, modBlock_of_resident hx]
  exact aget_aset_other _ _ hb

theorem ecSet_mem : ∃ l1, (ecSet s b n v).mem = { s.mem with l1 := l1 } := by
  obtain ⟨l1, hmem, -⟩ := ecSet_frame s b n v
  rw [modBlock_of_resident hx] at hmem
  exact ⟨l1, hmem⟩

end

/-- Settles O55: the write of a scratchpad follows `spmWrite`'s three steps, and the update of a counter `ecSet`'s. -/
theorem localStores : Obligations.LocalStores := by
  intro s b x hx
  refine ⟨fun ofs bs hwf => ?_, fun n v hwf => ?_⟩
  · obtain ⟨y, z, hy, hywf, hz, hspm⟩ := aget_spmWrite_self hx ofs bs
    have write := spmStep_spmWrite hx ofs bs
    refine ⟨?_, fun o ho => ?_, fun hs o => ?_, write.others, fun z' hz' => ?_, write.cells⟩
    · rw [spmRead_of_resident hz, hspm, sgetN_ssetN_self (hywf hwf)]
    · rw [spmRead_of_resident hz, spmRead_of_resident hy, hspm]
      exact congrArg (· :: []) (sget_ssetN (hywf hwf) ofs bs ho)
    · rw [spmRead, spmRead, (sameStore_syncMirror hs ofs bs.length).blocks]
    · obtain rfl := Option.some.inj (hz.symm.trans hz')
      rw [hspm]
      exact Sparse_wf_ssetN ofs bs (hywf hwf)
  · have set := aget_ecSet_self hx n v
    refine ⟨?_, fun m hm => ?_, fun y hy => ?_, fun b' hb => aget_ecSet_other hx n v hb, ecSet_mem hx n v⟩
    · rw [ecGet_of_resident set, sget_sset hwf, if_pos rfl]
    · rw [ecGet_of_resident set, ecGet_of_resident hx, sget_sset hwf, if_neg hm]
    · obtain rfl := Option.some.inj (set.symm.trans hy)
      exact Sparse_wf_sset n v hwf

end Sys2Proof.Claims
